-- ==== Sys2Proof/Word.lean ====
section
/-! DEFINITION. The words the CM640 handles as bits: bytes of the shared store, 32-bit registers and 64-bit fence map words. -/

namespace Sys2Proof

/-- One byte of the shared store. -/
abbrev Byte := BitVec 8

/-- A register, a post word, a CRC (R1, R18, R47). -/
abbrev Word := BitVec 32

/-- A fence map word: 64 page bits (R34). -/
abbrev FenceWord := BitVec 64

end Sys2Proof
end

