-- ==== Sys2Proof/Config.lean ====
section
/-! DEFINITION. What the manual leaves open: constants without a body, so that no proof can see a value of them. -/

namespace Sys2Proof.Config

/-- DESIGN CHOICE (log 2). The bytes the memory came up with at the n-th power-on reset (R2: "whatever the memory came up with"). -/
opaque powerUpCells : Nat → List (Nat × Byte)

/-- DESIGN CHOICE (log 13). Whether the n-th encoder transition that stands in neither order to its predecessor counts up (R147). -/
opaque turnCountsUp : Nat → Bool

/-- DESIGN CHOICE (log 19). The coding of refusal reason EMPTY on the handler line (R172: "8-bit values of the units' interface"). -/
opaque emptyCode : Byte

/-- DESIGN CHOICE (log 19). The coding of fault code MISREG. -/
opaque misregCode : Byte

/-- DESIGN CHOICE (log 19). The coding of fault code BIN_FULL. -/
opaque binFullCode : Byte

end Sys2Proof.Config
end

