-- ==== Sys2Proof/Syntax.lean ====
section
/-! DEFINITION. The commands of the CM640, one constructor per row of spec/opcode_table.json, and the types of their operands. -/

namespace Sys2Proof

/-- A page key (book, page, zone) (00_scope.md 4.3). -/
structure PageKey where
  book : Nat
  page : Nat
  zone : Nat
  deriving DecidableEq, Repr

/-- The five clients of the Store Port (R28). -/
inductive Client where
  | host | hf | br | iu | report
  deriving DecidableEq, Repr

/-- The four handling units, addresses 1 to 4 (9.1). -/
inductive HUnit where
  | loader | punch | processor | sorter
  deriving DecidableEq, Repr

/-- What changed at the encoder: one phase signal rose or fell, or both changed together (R147). -/
inductive EncoderEdge where
  | phase1Rises | phase2Rises | phase1Falls | phase2Falls | bothChange
  deriving DecidableEq, Repr

/-- A host access through the memory window (R2). -/
inductive HostOp where
  | read (addr : Word) (len : Nat)
  | write (addr : Word) (data : List Byte)
  deriving DecidableEq, Repr

/-- A request's tag: slot or none, attempt, sequence number (R171). -/
structure ReqTag where
  slot : Option Nat
  attempt : Nat
  seq : Nat
  deriving DecidableEq, Repr

/-- Refusal reasons: EMPTY, or any other 8-bit value of the units' interface (R172). -/
inductive RefusalReason where
  | empty
  | other (code : Byte)
  deriving DecidableEq, Repr

/-- Fault codes: MISREG, BIN_FULL, or any other 8-bit value (R172). TIMEOUT is the part's own and never arrives. -/
inductive FaultCode where
  | misreg
  | binFull
  | other (code : Byte)
  deriving DecidableEq, Repr

/-- The answers to a request frame (R172). -/
inductive RequestAnswer where
  | taken
  | busy
  | refused (reason : RefusalReason)
  deriving DecidableEq, Repr

/-- The answers to a poll (R175). -/
inductive PollAnswer where
  | none
  | done (tag : ReqTag)
  | fault (tag : ReqTag) (code : FaultCode)
  deriving DecidableEq, Repr

/-- What arrives on the handler line beside the answer: the answering address and whether the frame check held (R172). -/
structure AnswerFrame where
  addr : Nat
  intact : Bool
  deriving DecidableEq, Repr

/-- A plate format of the layout record (R6). -/
structure PlateFormat where
  width : Nat
  rows : Nat
  lead : Nat
  cassette : Nat
  reverse : Bool
  deriving DecidableEq, Repr

/-- A fence domain's settings (R3, R33). -/
structure DomainSettings where
  valid : Bool
  protectOutside : Bool
  base : Nat
  exponent : Nat
  deriving DecidableEq, Repr

/-- A stream's entry of the stream map (R3, R33). -/
structure StreamMapping where
  mapped : Bool
  domain : Nat
  deriving DecidableEq, Repr

/-- A unit's timeout policy as the layout record names it; `other` is a value that is neither (R8 check 6). -/
inductive TimeoutPolicy where
  | fault
  | assumeDone
  | other (code : Nat)
  deriving DecidableEq, Repr

/-- A handling unit's settings (R3). -/
structure UnitSettings where
  pollInterval : Nat
  busyRetry : Nat
  busyLimit : Nat
  timeout : Nat
  policy : TimeoutPolicy
  deriving DecidableEq, Repr

/-- The layout record by its fields (R3). The lists hold formats 0–7, domains 0–3, streams 0–5 and units 1–4 in order. -/
structure LayoutRecord where
  formatWord : Word
  cellBase : Nat
  cellCount : Nat
  pageBase : Nat
  slotBase : Nat
  slotCount : Nat
  bandBase : Nat
  tableBase : Nat
  mapBase : Nat
  statusBase : Nat
  fenceBase : Nat
  domains : List DomainSettings
  streams : List StreamMapping
  formats : List PlateFormat
  slipTolerance : Nat
  speedWindow : Nat
  settleCount : Nat
  holdLimit : Nat
  lateLead : Nat
  weight : Nat
  units : List UnitSettings
  deriving DecidableEq, Repr

/-- The commands: one constructor per row of spec/opcode_table.json, in the table's order.
A register write carries the word written; a dispatch row carries nothing, since the word stands at the head of the post queue. -/
inductive Instr where
  | powerOnReset
  | engineReset (control : Word)
  | hotReset
  | runSet (control : Word)
  | runClear (control : Word)
  | exposeEnableSet (control : Word)
  | exposeEnableClear (control : Word)
  | alertWrite (value : Word)
  | alertEnWrite (value : Word)
  | plantClockWrite (value : Word)
  | plantClockTick
  | registerWriteIgnored (offset : Nat) (size : Nat) (value : Word)
  | post (word : Word)
  | postBadWord
  | fragment
  | order
  | breakPlate
  | release
  | seen
  | drop
  | table
  | resume
  | fenceFlush
  | hostAccess (op : HostOp)
  | transferGrant
  | transferComplete (client : Client)
  | parseBegin
  | parseEnd
  | dropApply
  | pageReport
  | selection
  | exposingEntryReport
  | exposureEndReport
  | renderFinished
  | carrierCreated
  | carrierRemoved
  | dispositionSend
  | dispositionApply
  | fillBegin
  | renderReflectionPoint
  | reflectionPointEnd
  | fillEnd
  | reloadBegin
  | reloadEnd
  | encoderTransition (edge : EncoderEdge)
  | index (elapsed : Nat)
  | headChannelFault (channel : BitVec 6)
  | headAllClear
  | unloadIssue
  | unloadEnd
  | exchangeStart
  | requestAnswer (frame : AnswerFrame) (answer : RequestAnswer)
  | pollAnswer (frame : AnswerFrame) (answer : PollAnswer)
  | answerWindowExpiry
  | busyRetryExpiry (unit : HUnit)
  | pollTimerExpiry (unit : HUnit)
  | completionTimeout (unit : HUnit)
  | linkRetrain
  | msiEnableChange (enabled : Bool)
  | fenceMapFetchComplete
  | layoutReadComplete (record : LayoutRecord)
  deriving DecidableEq, Repr

end Sys2Proof
end

