-- ==== Sys2Proof/Decode.lean ====
section
/-! DEFINITION. The command a word spells by the table's bits. No row of spec/opcode_table.json gives bits, so no word spells one (log 34). -/

namespace Sys2Proof

/-- No row of the table carries bits: every word is refused. The post words the HOST writes are decoded by the part itself
(`Machine.decodePostWord`, R19). -/
def decodeTableWord (_nbits _w : Nat) : Option Instr := none

end Sys2Proof
end

