-- ==== Sys2Proof/Machine/Store.lean ====
section
/-! DEFINITION. The shared store (R2, R4): 4 GiB of bytes held as a canonical list of cells, and byte-order helpers (00_scope.md 4.7). -/

namespace Sys2Proof.Machine

/-- The shared store: cells of rising address, none equal to what an unlisted address reads as. -/
abbrev Memory := List Host.Cell

/-- The size of the shared store: 4 GiB. -/
def storeSize : Nat := 4294967296

/-- DESIGN CHOICE (log 1), unsafe. What an address with no entry reads as. R2 leaves the power-up content open. -/
def unlistedByte : Byte := 0

/-- One byte of the store. -/
def Memory.read : Memory → Nat → Byte
  | [], _ => unlistedByte
  | (b, v) :: m, a => if b = a then v else Memory.read m a

/-- `n` bytes from address `a` on, in address order. -/
def Memory.readBytes (m : Memory) (a n : Nat) : List Byte :=
  (List.range n).map (fun i => Memory.read m (a + i))

/-- The cells that bytes written from address `a` on leave listed. -/
def cellsOf : Nat → List Byte → Memory
  | _, [] => []
  | a, b :: bs => if b = unlistedByte then cellsOf (a + 1) bs else (a, b) :: cellsOf (a + 1) bs

/-- Write bytes from address `a` on. Every other byte keeps its value (R28). -/
def Memory.write (m : Memory) (a : Nat) (bs : List Byte) : Memory :=
  m.filter (fun c => decide (c.1 < a)) ++ cellsOf a bs ++ m.filter (fun c => decide (a + bs.length ≤ c.1))

/-- Addresses rise strictly. -/
def Memory.rising : Memory → Bool
  | [] => true
  | [_] => true
  | x :: y :: m => decide (x.1 < y.1) && Memory.rising (y :: m)

/-- The canonical form: rising addresses, and no entry equal to what an unlisted address reads as. -/
def Memory.wf (m : Memory) : Bool :=
  Memory.rising m && m.all (fun c => decide (c.2 ≠ unlistedByte))

/-- The store with the given bytes at their addresses, the later of two entries standing. Addresses past 4 GiB do not exist. -/
def Memory.ofCells (cs : List (Nat × Byte)) : Memory :=
  cs.foldl (fun m c => if c.1 < storeSize then Memory.write m c.1 [c.2] else m) []

/-! ### Bytes and numbers -/

/-- Byte `i` of a byte string as a number; 0 past its end. -/
def u8 (b : List Byte) (i : Nat) : Nat := (b.getD i 0).toNat

/-- Two bytes at `i`, little-endian. -/
def u16 (b : List Byte) (i : Nat) : Nat := u8 b i + 256 * u8 b (i + 1)

/-- Four bytes at `i`, little-endian. -/
def u32 (b : List Byte) (i : Nat) : Nat := u16 b i + 65536 * u16 b (i + 2)

/-- Eight bytes at `i`, little-endian, as a fence map word (R34). -/
def fenceWordAt (b : List Byte) : FenceWord := BitVec.ofNat 64 (u32 b 0 + 4294967296 * u32 b 4)

/-- `n` little-endian bytes of a number. -/
def le : Nat → Nat → List Byte
  | 0, _ => []
  | n + 1, v => BitVec.ofNat 8 v :: le n (v / 256)

/-- A byte that is 1 for true. -/
def flagByte (b : Bool) : List Byte := [if b then 1 else 0]

/-- Byte `i` of a bitmap held as a bit vector: bit n of the map is bit (n mod 8) of byte n / 8 (R5). -/
def mapByte {w : Nat} (m : BitVec w) (i : Nat) : Byte := m.extractLsb' (8 * i) 8

/-- Set or clear bit `n` of a bitmap; a bit beyond the map does not exist. -/
def mapSet {w : Nat} (m : BitVec w) (n : Nat) (v : Bool) : BitVec w :=
  if v then m ||| (1#w <<< n) else m &&& ~~~(1#w <<< n)

/-! ### Sparse tables: a list of (index, value), indexes rising -/

/-- The value at an index. -/
def tblGet {α : Type} : List (Nat × α) → Nat → Option α
  | [], _ => none
  | (j, v) :: t, i => if j = i then some v else tblGet t i

/-- Put a value at an index. -/
def tblPut {α : Type} : List (Nat × α) → Nat → α → List (Nat × α)
  | [], i, x => [(i, x)]
  | (j, v) :: t, i, x =>
    if i < j then (i, x) :: (j, v) :: t else if i = j then (i, x) :: t else (j, v) :: tblPut t i x

/-- Take the value at an index away. -/
def tblErase {α : Type} (t : List (Nat × α)) (i : Nat) : List (Nat × α) := t.filter (fun e => decide (e.1 ≠ i))

end Sys2Proof.Machine
end

