-- ==== Sys2Proof/Machine/State.lean ====
section
/-! DEFINITION. The state of the CM640, block by block (00_scope.md 2.1), as plain data, and its value after power-on reset. -/

namespace Sys2Proof.Machine

/-! ### Names shared by the blocks -/

/-- The alert causes, bits 0–7 of ALERT (1.7). -/
inductive Cause where
  | news | cells | pages | pause | fault | postLost | postBad | startDone
  deriving DecidableEq, Repr

/-- The run states (1.3). -/
inductive RunState where
  | off | starting | running | stopping | stopped | halted
  deriving DecidableEq, Repr

/-- Where STARTING stands (R7): the layout read, the writes of step (5), the full reload of step (6), the CLEARs of step (7). -/
inductive StartPhase where
  | idle | layoutRead | writes | tables | clears
  deriving DecidableEq, Repr

/-- The six access streams, numbers 0–5 (R32). -/
inductive Stream where
  | iuRead | iuWrite | brRead | brWrite | hfRead | reportWrite
  deriving DecidableEq, Repr

/-- The kinds of device fault (R198); `none` before the first latch. -/
inductive FaultKind where
  | none | fence | slip | offline | handler
  deriving DecidableEq, Repr

/-- The kinds of on-chip table, with the codes of the TABLE post word (R19). -/
inductive TableKind where
  | curve | screen | screenSet | profile | power
  deriving DecidableEq, Repr

/-- One of the 49 tables (R133). -/
structure TableId where
  kind : TableKind
  idx : Nat
  deriving DecidableEq, Repr

/-! ### Page Intake (chapters 3 and 4) -/

/-- States of a page record that is not RETIRED (R61); a RETIRED record has no entry in the directory. -/
inductive PageState where
  | assembling | damaged | complete | superseded
  deriving DecidableEq, Repr

/-- The manifest as copied into a record (R59): its fields, and body bytes 00h–2Fh for the comparison of R59 (2). -/
structure Manifest where
  derived : Bool
  seps : BitVec 4
  rows : Nat
  dots : Nat
  patchCounts : List Nat
  base : PageKey
  ranges : List (Nat × Nat)
  raw : List Byte
  deriving DecidableEq, Repr

/-- The note counts of a record, each stopping at 255 (R63). -/
structure Notes where
  malformed : Nat
  stale : Nat
  conflict : Nat
  crc : Nat
  fence : Nat
  decode : Nat
  deriving DecidableEq, Repr

/-- The findings that are counted as notes (R61). -/
inductive NoteKind where
  | malformed | stale | conflict | crc | fence | decode
  deriving DecidableEq, Repr

/-- The reference and data of a PRESENT strip (R57, R61). -/
structure StripRef where
  cell : Nat
  off : Nat
  len : Nat
  crc : Word
  deriving DecidableEq, Repr

/-- The reference and data of a PRESENT patch (R57, R61). -/
structure PatchRef where
  mode : Nat
  scale : Nat
  cell : Nat
  off : Nat
  len : Nat
  crc : Word
  row0 : Nat
  dot0 : Nat
  w : Nat
  h : Nat
  deriving DecidableEq, Repr

/-- A strip entry that is not ABSENT (3.4). -/
inductive StripEntry where
  | bad
  | present (r : StripRef)
  deriving DecidableEq, Repr

/-- A patch entry that is not ABSENT (3.4). -/
inductive PatchEntry where
  | bad
  | present (r : PatchRef)
  deriving DecidableEq, Repr

/-- A page record that is not RETIRED (R61). Strip entry (x, k) is at index 768x + k, patch entry (x, p) at 32x + p; an index with no
entry is ABSENT. The present and bad counts and the first bad strip are computed from the entries (R63). `wasComplete`: the record has been
COMPLETE before, the model's own (log 47). -/
structure PageRecord where
  state : PageState
  key : PageKey
  version : Nat
  manifest : Option Manifest
  clipped : Bool
  dropped : Bool
  baseFlag : Bool
  pins : Nat
  notes : Notes
  firstTime : Word
  lastTime : Word
  strips : List (Nat × StripEntry)
  patches : List (Nat × PatchEntry)
  wasComplete : Bool
  deriving DecidableEq, Repr

/-- The kinds of a page record, by whether it has a manifest and of which kind (R61). -/
inductive PageKind where
  | none | full | derived
  deriving DecidableEq, Repr

/-- IU's report of a page record state change (R70); state `none` is RETIRED. `again`: a COMPLETE record that has been COMPLETE before, so
that the completion remakes no plate (R82, log 47). -/
structure PageReport where
  idx : Nat
  key : PageKey
  version : Nat
  state : Option PageState
  kind : PageKind
  base : Option PageKey
  again : Bool
  deriving DecidableEq, Repr

/-- A checked fragment header (R43). -/
structure FragHeader where
  key : PageKey
  kind : Nat
  version : Nat
  sep : Nat
  len : Nat
  deriving DecidableEq, Repr

/-- Why a fragment is rejected whole before the parse end's own part (1) (R51–R53). -/
inductive Rejection where
  | malformedHeader (named : Option (PageKey × Nat))
  | malformed
  | crc
  | stale
  deriving DecidableEq, Repr

/-- One strip copy of a STRIPS fragment: strip number, reference, and whether its body matched its CRC (R45). -/
structure StripCopy where
  k : Nat
  ref : StripRef
  sound : Bool
  deriving DecidableEq, Repr

/-- The content of a fragment whose checks have passed (R44–R46). -/
inductive Content where
  | manifest (m : Manifest)
  | strips (sep : Nat) (copies : List StripCopy)
  | patch (sep : Nat) (p : Nat) (ref : PatchRef) (sound : Bool)
  deriving DecidableEq, Repr

/-- How the header matched (R52). -/
inductive MatchCase where
  | matched (idx : Nat)
  | founds
  deriving DecidableEq, Repr

/-- What the parse has come to. -/
inductive Verdict where
  | reject (why : Rejection)
  | content (c : Content)
  deriving DecidableEq, Repr

/-- The parse in progress (R51–R53): the bytes read so far, from cell offset 0. -/
structure Parse where
  cell : Nat
  bytes : List Byte
  header : Option FragHeader
  matching : Option MatchCase
  verdict : Option Verdict
  deriving DecidableEq, Repr

/-- A word of the IU input queue (R49). -/
inductive IuWord where
  | fragment (cell : Nat)
  | drop (key : PageKey)
  deriving DecidableEq, Repr

/-- The Intake Unit (R48–R67, R76). `settling`: a parse end or a DROP has been applied and its writes are outstanding. -/
structure IntakeUnit where
  queue : List IuWord
  parse : Option Parse
  settling : Bool
  dir : List (Nat × PageRecord)
  useCounts : List (Nat × Nat)
  holdMap : BitVec 4096
  floors : List (PageKey × Nat)
  deriving DecidableEq, Repr

/-! ### Marks, dispositions and the device fault record (chapter 10) -/

/-- The mark kinds (R189); `broken` is BREAK. -/
inductive MarkKind where
  | align | late | overdue | remade | outdated | lateBreak | timeout | nosep | base | decode | broken | interlock | underrun
  | speed | slip | channel | misreg | process | fence | table | attempts
  deriving DecidableEq, Repr

/-- The severities (R189). -/
inductive Severity where
  | note | hold | spoil | fail
  deriving DecidableEq, Repr

/-- Where the physical plate concerned is (R191). -/
inductive Place where
  | none | drum | carrier
  deriving DecidableEq, Repr

/-- The location of a mark (R192). -/
inductive Location where
  | none
  | swath (n : Nat)
  | strip (n : Nat)
  deriving DecidableEq, Repr

/-- A stored mark entry (R192). -/
structure Mark where
  kind : MarkKind
  severity : Severity
  charged : Bool
  place : Place
  attempt : Nat
  location : Location
  key : Option PageKey
  detail : Nat
  time : Word
  deriving DecidableEq, Repr

/-- A mark report (R188). `nosep` names the position, record number and version of a NOSEP report (R195). -/
structure MarkReport where
  slot : Nat
  attempt : Nat
  kind : MarkKind
  location : Location
  key : Option PageKey
  detail : Nat
  place : Option Place
  nosep : Option (Nat × Nat × Nat)
  deriving DecidableEq, Repr

/-- What DMR keeps for a held slot (R193, R195). -/
structure SlotMarks where
  marks : List Mark
  lost : Nat
  fenceAttempt : Nat
  nosep0 : Option (Nat × Nat)
  nosep1 : Option (Nat × Nat)
  deriving DecidableEq, Repr

/-- A disposition (R196). `own`: PSC itself reported the mark, and waits for this disposition (R188). -/
structure Disposition where
  slot : Nat
  attempt : Nat
  severity : Severity
  charged : Bool
  place : Place
  own : Bool
  deriving DecidableEq, Repr

/-- The on-chip device fault record (R198). -/
structure FaultRecord where
  valid : Bool
  overflow : Bool
  kind : FaultKind
  unit : Nat
  detail : Nat
  addr : Nat
  addrValid : Bool
  domain : Nat
  isWrite : Bool
  time : Word
  deriving DecidableEq, Repr

/-- The Damage Recorder: the mark lists of held slots, the device fault record, and dispositions whose mark writes have completed. -/
structure DamageRecorder where
  lists : List (Nat × SlotMarks)
  record : FaultRecord
  toSend : List Disposition
  deriving DecidableEq, Repr

/-! ### Store Port (chapter 2) -/

/-- What SP or the issuing block does when a transfer completes, after the data has been delivered. -/
inductive Notice where
  | alert (c : Cause)
  | page (r : PageReport)
  | iuIdle
  | pscDone
  | startWrite
  | markDone (d : Disposition)
  deriving DecidableEq, Repr

/-- What a transfer is for: who takes its data or its refusal. -/
inductive Purpose where
  | host
  | quiet
  | parse
  | order (slot : Nat)
  | fill (id slot attempt swath : Nat)
  | table
  | rowSet (pass j : Nat)
  deriving DecidableEq, Repr

/-- A read of some bytes or a write of given bytes (R28). -/
inductive XferOp where
  | read (len : Nat)
  | write (data : List Byte)
  deriving DecidableEq, Repr

/-- A transfer (R28, R32); host accesses and order record reads belong to no stream. -/
structure Transfer where
  client : Client
  stream : Option Stream
  addr : Nat
  op : XferOp
  purpose : Purpose
  notices : List Notice
  deriving DecidableEq, Repr

/-- A transfer served but not yet reported complete, with the bytes a read brought (R28). -/
structure Served where
  xfer : Transfer
  data : List Byte
  deriving DecidableEq, Repr

/-- An entry of the fence cache (R36). -/
structure CacheEntry where
  domain : Nat
  word : Nat
  value : FenceWord
  deriving DecidableEq, Repr

/-- A check that waits for its fence map word (R37); `keep` is clear when a FENCE_FLUSH came since the fetch was issued (R38). -/
structure PendingCheck where
  xfer : Transfer
  domain : Nat
  word : Nat
  value : FenceWord
  keep : Bool
  deriving DecidableEq, Repr

/-- The Store Port (2.6). `served` is oldest first. `posts` holds the writes of POST that follow host writes still waiting, each with the
number of HOST transfers ahead of it (R38, log 44). -/
structure StorePort where
  host : List Transfer
  hf : List Transfer
  br : List Transfer
  iu : List Transfer
  report : List Transfer
  served : List Served
  weightPos : Nat
  weight : Nat
  check : Option PendingCheck
  domains : List DomainSettings
  streams : List StreamMapping
  cache : List CacheEntry
  posts : List (Nat × Word)
  deriving DecidableEq, Repr

/-! ### Plate Scheduler (chapter 5) -/

/-- A position of an order (R87). -/
structure Position where
  key : PageKey
  across : Nat
  around : Nat
  deriving DecidableEq, Repr

/-- The order fields of the host part, as adjusted (R87, R90). -/
structure Order where
  plateId : Nat
  edition : Nat
  sep : Nat
  format : Nat
  deadline : Nat
  positions : List Position
  profile : Nat
  curve : Nat
  screenSet : Nat
  trim : Int
  budget : Nat
  actionBreak : Bool
  bin : Nat
  deriving DecidableEq, Repr

/-- Plate states of a held slot (5.3); a FREE slot has no plate. -/
inductive PlateState where
  | waiting | ready | preparing | imaging | finishing | closing | done | failed | cancelled | refused
  deriving DecidableEq, Repr

/-- Attempt status (R92). -/
inductive AttemptStatus where
  | notStarted | opened | ended
  deriving DecidableEq, Repr

/-- The flag of a BREAK (R19, 5.6). -/
inductive BreakFlag where
  | requeue | cancel
  deriving DecidableEq, Repr

/-- The outcome a plate is closed with (R100). -/
inductive Outcome where
  | failed | cancelled
  deriving DecidableEq, Repr

/-- A snapshot's record of one position: record number, version, and for a DERIVED position the base record, its version and key (R71). -/
structure PosSnap where
  idx : Nat
  version : Nat
  base : Option (Nat × Nat × PageKey)
  deriving DecidableEq, Repr

/-- What PSC holds for a held slot: the working state of R92 and the result part of R88. -/
structure Plate where
  order : Order
  state : PlateState
  refusal : Nat
  attempt : Nat
  status : AttemptStatus
  charged : Nat
  pinsHeld : Bool
  snapshot : List PosSnap
  snapNo : Nat
  prepNo : Nat
  breakPending : Option BreakFlag
  closing : Option Outcome
  drumReject : Bool
  carriersOut : Nat
  lateDone : Bool
  overdueDone : Bool
  exposed : Nat
  holds : Nat
  orderedTime : Word
  readyTime : Word
  imagingTime : Word
  finalTime : Word
  prepOrdinal : Nat
  deriving DecidableEq, Repr

/-- An input of PSC that has arrived and not yet been taken (5 intro). -/
inductive PscInput where
  | page (r : PageReport)
  | exposingEntry (slot attempt prep : Nat)
  | exposureEnd (slot attempt prep exposed holds : Nat)
  | renderFinished (slot attempt snapNo : Nat)
  | carrierCreated (slot : Option Nat) (attempt : Nat) (spoiled : Bool)
  | carrierRemoved (slot : Option Nat) (attempt : Nat) (spoiled : Bool)
  | disposition (d : Disposition)
  deriving DecidableEq, Repr

/-- What PSC still has to do of the input it is applying, in order. A step that records a mark is followed by the wait for its disposition
(R188). -/
inductive PscStep where
  /-- A mark is reported to DMR. -/
  | mark (m : MarkReport)
  /-- IU is asked about position n of the slot's order (R79). -/
  | look (slot n : Nat)
  /-- The plate's readiness is acted upon: as a return to the list (R108) or as an evaluation of R80. -/
  | settle (slot : Nat) (returned : Bool)
  /-- The plate becomes WAITING (R81, R106). -/
  | waiting (slot : Nat)
  /-- The LATE comparison with a value of PLANT_CLOCK (R110 (1)). -/
  | late (slot : Nat) (clock : Word)
  /-- The OVERDUE comparison with a value of PLANT_CLOCK (R110 (2)). -/
  | overdue (slot : Nat) (clock : Word)
  /-- The FAIL of a selection closes the plate (R96, R109). -/
  | fail (slot : Nat)
  /-- A BREAK of an IMAGING plate whose exposure has begun (R85, R104). -/
  | startBreak (slot : Nat) (f : BreakFlag)
  /-- The whole result part of a new order is written (R25 (4)). -/
  | result (slot : Nat)
  /-- The fields that differ from the plates given are written, and the news bits are set (R27, R88). -/
  | publish (old : List (Nat × Plate))
  deriving DecidableEq, Repr

/-- Inputs of PSC that wait for nothing but PSC: a change of PLANT_CLOCK (R110), and the entry into STOPPING (R10). -/
inductive PscEvent where
  | clock (v : Word)
  | stopping
  deriving DecidableEq, Repr

/-- The Plate Scheduler. `ordering`: the slot whose ORDER is taken and whose host part is being read (R25); `outstanding`: writes of
the input being applied that have not completed (R20); `ordinal`: the model's count of entries into PREPARING (log 24). `work`: the steps
left of the input being applied; `awaiting`: a mark of PSC's own waits for its disposition, which comes in `answer` (R188); `due`: inputs that
came meanwhile; `allReady`: the readiness found so far of the plate being evaluated; `newsDue`: slots whose news bit this input sets. -/
structure Scheduler where
  plates : List (Nat × Plate)
  holdMap : BitVec 512
  newsMap : BitVec 512
  ready : List Nat
  inbox : List PscInput
  ordering : Option Nat
  outstanding : Nat
  ordinal : Nat
  work : List PscStep
  awaiting : Bool
  answer : Option Disposition
  due : List PscEvent
  allReady : Bool
  newsDue : List Nat
  deriving DecidableEq, Repr

/-! ### Table Loader (chapter 7) -/

/-- A curve's content (R134). -/
structure Curve where
  knots : List Nat
  minDot : Nat
  maxDot : Nat
  deriving DecidableEq, Repr

/-- A screen's content (R135): thresholds in row order. -/
structure Screen where
  size : Nat
  thresholds : List Nat
  deriving DecidableEq, Repr

/-- A profile's content (R136). -/
structure Profile where
  rpm : Nat
  passes : Nat
  step : Nat
  deriving DecidableEq, Repr

/-- The on-chip copy of a table with its validity (R137). -/
structure Held (α : Type) where
  valid : Bool
  val : α
  deriving DecidableEq, Repr

/-- A pending pair; `due` as marked at a render reflection point (R142). -/
structure PendingTable where
  id : TableId
  due : Bool
  deriving DecidableEq, Repr

/-- The reload in progress (R140): spans still to read, bytes read, the outcome once it has come, and whether a reflection point waits for it. -/
structure Reload where
  id : TableId
  due : Bool
  reads : List (Nat × Nat)
  bytes : List Byte
  outcome : Option Bool
  deriving DecidableEq, Repr

/-- The Table Loader (R137, R139, R140). `point`: a render reflection point is in progress (R142). -/
structure TableLoader where
  pendingSet : List PendingTable
  reload : Option Reload
  point : Bool
  startNext : Nat
  curves : List (Held Curve)
  screens : List (Held Screen)
  screenSets : List (Held (List Nat))
  profiles : List (Held Profile)
  power : Held (List Nat)
  deriving DecidableEq, Repr

/-! ### Band Renderer (chapter 6) -/

/-- The band a buffer holds (R111). -/
structure Band where
  slot : Nat
  attempt : Nat
  swath : Nat
  deriving DecidableEq, Repr

/-- A band buffer record (R111). -/
inductive Buffer where
  | free
  | filling (b : Band)
  | full (b : Band)
  | draining (b : Band)
  deriving DecidableEq, Repr

/-- An entry of the render order (R113); `ordinal` places it by its plate's entry into PREPARING. -/
structure RenderEntry where
  slot : Nat
  attempt : Nat
  snapshot : List PosSnap
  snapNo : Nat
  format : PlateFormat
  sep : Nat
  curve : Nat
  screenSet : Nat
  trim : Int
  positions : List Position
  next : Nat
  begun : Bool
  stall : Bool
  finding : Bool
  ordinal : Nat
  deriving DecidableEq, Repr

/-- A PRESENT strip entry as read for a fill (R116): the record and key it came from, and its reference. -/
structure StripSource where
  idx : Nat
  key : PageKey
  cell : Nat
  off : Nat
  len : Nat
  deriving DecidableEq, Repr

/-- A PRESENT patch entry as read for a fill (R116). -/
structure PatchSource where
  idx : Nat
  key : PageKey
  p : Nat
  mode : Nat
  scale : Nat
  cell : Nat
  off : Nat
  len : Nat
  row0 : Nat
  dot0 : Nat
  w : Nat
  h : Nat
  deriving DecidableEq, Repr

/-- What a swath holds, as worked out at the beginning of its fill (R116, R127). `missing` lists the entries that are not PRESENT:
the key of the record read, and the patch number for a patch. -/
structure FillPlan where
  blank : Bool
  strip : Nat
  around : Nat
  pageDots : Nat
  line : Option StripSource
  patches : List PatchSource
  missing : List (PageKey × Option Nat)
  deriving DecidableEq, Repr

/-- A body that the fill decodes: the strip, or the covering patch at a place of the plan's list with the last image row needed (R126). -/
inductive FillItem where
  | line (s : StripSource)
  | patch (place : Nat) (s : PatchSource) (lastRow : Nat)
  deriving DecidableEq, Repr

/-- The fill in progress (R114–R117, R124–R128). `lines`: decoded rows as run lengths, white first; `images`: decoded image rows by
place in the plan's patch list; `done`: every row set write has completed. -/
structure Fill where
  id : Nat
  buffer : Nat
  slot : Nat
  attempt : Nat
  swath : Nat
  plan : FillPlan
  reads : List (Nat × Nat)
  items : List FillItem
  bytes : List Byte
  lines : List (List Nat)
  images : List (Nat × List (List Byte))
  nextSet : Nat
  done : Bool
  deriving DecidableEq, Repr

/-- The Band Renderer. `point`: the entry (slot, ordinal) that reached the render reflection point in progress (R115). -/
structure BandRenderer where
  buffers : List Buffer
  order : List RenderEntry
  fill : Option Fill
  fillSerial : Nat
  point : Option (Nat × Nat)
  deriving DecidableEq, Repr

/-! ### Imaging Controller, Drum Timing Unit and Head Feed (chapter 8) -/

/-- The imager states, codes 0–7 (8.3). -/
inductive ImagerState where
  | empty | loading | blank | settling | exposing | unloadWait | unloading | paused
  deriving DecidableEq, Repr

/-- A plate as handed to IMC at its entry into PREPARING (R96, R152). -/
structure PlateRef where
  slot : Nat
  attempt : Nat
  prep : Nat
  format : Nat
  profile : Nat
  deriving DecidableEq, Repr

/-- The condition of the plate on the drum (R152). -/
inductive Condition where
  | unexposed | exposed | spoiled
  deriving DecidableEq, Repr

/-- The drum record when a physical plate is on the drum (R152). -/
structure Drum where
  format : Nat
  owner : Option PlateRef
  cond : Condition
  confirmed : Bool
  deriving DecidableEq, Repr

/-- The LOAD in work: the blank's format and the plate it was issued for, none once that plate is withdrawn (R155, R156). -/
structure LoadInWork where
  format : Nat
  plate : Option PlateRef
  deriving DecidableEq, Repr

/-- The four profile values of R138 (2). -/
structure ProfileValues where
  rpm : Nat
  passes : Nat
  step : Nat
  level : Nat
  deriving DecidableEq, Repr

/-- The exposure record (R152), with the BREAK mark deferred to the end of an UNLOAD (R166). `entered`: the drum plate has entered EXPOSING, so
that it is no longer PREPARING (R152). -/
structure Exposure where
  cursor : Nat
  pass : Nat
  holds : Nat
  exposed : Nat
  begun : Bool
  breakRequest : Bool
  settle : Nat
  values : ProfileValues
  deferredBreak : Bool
  entered : Bool
  deriving DecidableEq, Repr

/-- The pause reasons outstanding (R152). -/
structure PauseReasons where
  supply : Bool
  handler : Bool
  head : Bool
  interlock : Bool
  deriving DecidableEq, Repr

/-- The pause reasons by name (R168). -/
inductive PauseReason where
  | supply | handler | head | interlock
  deriving DecidableEq, Repr

/-- The Imaging Controller (R152, R153); `headFault` is the channel of the head's last report, none for all clear. -/
structure ImagingController where
  state : ImagerState
  drum : Option Drum
  waiting : Option PlateRef
  load : Option LoadInWork
  exposure : Exposure
  pauses : PauseReasons
  headFault : Option (BitVec 6)
  drumTarget : Nat
  deriving DecidableEq, Repr

/-- The Drum Timing Unit (R147–R150). -/
structure DrumTiming where
  count : Int
  prev : Option EncoderEdge
  captureC : Int
  capturePeriod : Nat
  bufferedA : Nat
  bufferedB : Nat
  activeA : Nat
  activeB : Nat
  reference : Bool
  deriving DecidableEq, Repr

/-- A pass being fed (R31): its row sets still to fetch, reads under way, and the row sets in the prefetch. -/
structure Pass where
  id : Nat
  width : Nat
  buffer : Nat
  nextSet : Nat
  underway : Nat
  prefetch : List (Nat × List Byte)
  window : Bool
  dark : Bool
  deriving DecidableEq, Repr

/-- The Head Feed and what it drives: the 64 laser channels, the drive level and the head's position in swaths (R151, R158, R159). -/
structure HeadFeed where
  pass : Option Pass
  passSerial : Nat
  laser : BitVec 64
  level : Nat
  position : Nat
  deriving DecidableEq, Repr

/-! ### Handler Line Controller (chapter 9) -/

/-- Hold causes (R171). -/
inductive HoldCause where
  | offline | failure | processFault | binFull
  deriving DecidableEq, Repr

/-- Requests with their arguments (9.1); `work` is mode PUNCH or PROCESS, otherwise PASS. -/
inductive RequestKind where
  | clear
  | load (cassette : Nat)
  | unload
  | punch (work : Bool)
  | process (work : Bool)
  | route (bin : Nat)
  deriving DecidableEq, Repr

/-- A request with the slot and attempt of its tag (R171); its sequence number is set when it is first sent. -/
structure Request where
  kind : RequestKind
  slot : Option Nat
  attempt : Nat
  seq : Nat
  deriving DecidableEq, Repr

/-- The phase of a request in work (R171). -/
inductive ReqPhase where
  | sent | busyWait | taken
  deriving DecidableEq, Repr

/-- The state of a handling unit (R171). `again`: a repeat after silence or a sending after BUSY is due; `pollDue`: a poll is due.
A timer holds the time it was started with, none when stopped. -/
structure UnitState where
  hold : Option HoldCause
  work : Option (Request × ReqPhase)
  queue : List Request
  seq : Nat
  silent : Nat
  busy : Nat
  completion : Option Nat
  pollTimer : Option Nat
  again : Bool
  pollDue : Bool
  deriving DecidableEq, Repr

/-- Carrier stages (R183). -/
inductive Stage where
  | punch | process | route
  deriving DecidableEq, Repr

/-- A carrier (R183). -/
structure Carrier where
  slot : Option Nat
  attempt : Nat
  spoiled : Bool
  stage : Stage
  bin : Nat
  deriving DecidableEq, Repr

/-- The exchange on the line (R172): a request frame or a poll of a unit. -/
structure Exchange where
  unit : HUnit
  poll : Bool
  deriving DecidableEq, Repr

/-- The end of an UNLOAD by DONE (R183): none, held until PSC has taken the carrier report, or handed to IMC. -/
inductive UnloadEnd where
  | none | heldForPsc | handed
  deriving DecidableEq, Repr

/-- The Handler Line Controller. `cleared` counts the CLEARs of STARTING that answered DONE (R182). -/
structure HandlerLine where
  loader : UnitState
  punch : UnitState
  processor : UnitState
  sorter : UnitState
  line : Option Exchange
  carriers : List Carrier
  unloadEnd : UnloadEnd
  cleared : Nat
  deriving DecidableEq, Repr

/-! ### Registers, dispatcher, the whole -/

/-- The registers' stored fields (1.5) and the PCI Express side (R2, R23). START_FAIL is one field behind STATUS and FAULT. -/
structure Registers where
  run : Bool
  exposeEnable : Bool
  alert : BitVec 8
  alertEn : BitVec 8
  plantClock : Word
  startFail : Nat
  haltCause : Nat
  startUnit : Nat
  faultValid : Bool
  faultOverflow : Bool
  faultKind : FaultKind
  faultUnit : Nat
  linkUp : Bool
  msiEnabled : Bool
  messages : Nat
  hostReply : List Byte
  deriving DecidableEq, Repr

/-- The Post Dispatcher with the run state, STARTING's place, and the layout record as taken up (R3, R7, R18). -/
structure Dispatcher where
  runState : RunState
  phase : StartPhase
  startWrites : Nat
  postQueue : List Word
  layout : Option LayoutRecord
  deriving DecidableEq, Repr

/-- Everything on chip. `fresh` is the model's own counter, which free values are drawn with (log 24). -/
structure Chip where
  regs : Registers
  pd : Dispatcher
  sp : StorePort
  iu : IntakeUnit
  psc : Scheduler
  tl : TableLoader
  br : BandRenderer
  imc : ImagingController
  dtu : DrumTiming
  hf : HeadFeed
  hlc : HandlerLine
  dmr : DamageRecorder
  fresh : Nat
  deriving DecidableEq, Repr

/-- The whole machine: the commands waiting, the shared store, and the chip. -/
structure State where
  pending : List Instr
  store : Memory
  chip : Chip
  deriving DecidableEq, Repr

/-- Why the machine stops with a fault. -/
inductive Fault where
  /-- Raised by HOST_ACCESS alone, for bytes past the end of the 4 GiB store: no such address exists (R2, R4). Safe (log 22). -/
  | noSuchAddress
  deriving DecidableEq, Repr

/-- Why a command has no meaning. -/
inductive Refusal where
  /-- Raised by exec's arm of a command that has no meaning yet. Safe. No arm of this model raises it. -/
  | notModelled (mnemonic : String)
  deriving DecidableEq, Repr

/-- The three outcomes of a step of this machine. -/
abbrev Result := Host.Outcome State Fault Refusal

/-! ### Named updates -/

/-- The chip with another `regs`. -/
def Chip.setRegs (k : Chip) (x : Registers) : Chip := { k with regs := x }

/-- The chip with another `pd`. -/
def Chip.setPd (k : Chip) (x : Dispatcher) : Chip := { k with pd := x }

/-- The chip with another `sp`. -/
def Chip.setSp (k : Chip) (x : StorePort) : Chip := { k with sp := x }

/-- The chip with another `iu`. -/
def Chip.setIu (k : Chip) (x : IntakeUnit) : Chip := { k with iu := x }

/-- The chip with another `psc`. -/
def Chip.setPsc (k : Chip) (x : Scheduler) : Chip := { k with psc := x }

/-- The chip with another `tl`. -/
def Chip.setTl (k : Chip) (x : TableLoader) : Chip := { k with tl := x }

/-- The chip with another `br`. -/
def Chip.setBr (k : Chip) (x : BandRenderer) : Chip := { k with br := x }

/-- The chip with another `imc`. -/
def Chip.setImc (k : Chip) (x : ImagingController) : Chip := { k with imc := x }

/-- The chip with another `dtu`. -/
def Chip.setDtu (k : Chip) (x : DrumTiming) : Chip := { k with dtu := x }

/-- The chip with another `hf`. -/
def Chip.setHf (k : Chip) (x : HeadFeed) : Chip := { k with hf := x }

/-- The chip with another `hlc`. -/
def Chip.setHlc (k : Chip) (x : HandlerLine) : Chip := { k with hlc := x }

/-- The chip with another `dmr`. -/
def Chip.setDmr (k : Chip) (x : DamageRecorder) : Chip := { k with dmr := x }

/-- The chip with another `fresh`. -/
def Chip.setFresh (k : Chip) (x : Nat) : Chip := { k with fresh := x }

/-- The machine with another `pending`. -/
def State.setPending (s : State) (x : List Instr) : State := { s with pending := x }

/-- The machine with another `store`. -/
def State.setStore (s : State) (x : Memory) : State := { s with store := x }

/-- The machine with another `chip`. -/
def State.setChip (s : State) (x : Chip) : State := { s with chip := x }

/-! ### Reset values -/

/-- No note counted (R56). -/
def Notes.zero : Notes := ⟨0, 0, 0, 0, 0, 0⟩

/-- The device fault record after reset (R198). -/
def FaultRecord.clear : FaultRecord := ⟨false, false, .none, 0, 0, 0, false, 0, false, 0⟩

/-- A domain after reset or a failed START: not VALID (R33). Its PROTECT_OUTSIDE, base and exponent are the model's choice (log 24). -/
def DomainSettings.off : DomainSettings := ⟨false, false, 0, 0⟩

/-- A stream after reset or a failed START: unmapped (R33). Its domain number is the model's choice (log 24). -/
def StreamMapping.off : StreamMapping := ⟨false, 0⟩

/-- The Store Port after reset or a failed START (2.6). The arbiter weight of 0 is the model's choice: R30 gives the weight position alone (log 24). -/
def StorePort.reset : StorePort :=
  { host := [], hf := [], br := [], iu := [], report := [], served := [], weightPos := 0, weight := 0, check := none,
    domains := List.replicate 4 DomainSettings.off, streams := List.replicate 6 StreamMapping.off, cache := [], posts := [] }

/-- The Intake Unit after reset or a failed START (R67). -/
def IntakeUnit.reset : IntakeUnit :=
  { queue := [], parse := none, settling := false, dir := [], useCounts := [], holdMap := 0, floors := [] }

/-- The Plate Scheduler after reset or a failed START (R92). -/
def Scheduler.reset : Scheduler :=
  { plates := [], holdMap := 0, newsMap := 0, ready := [], inbox := [], ordering := none, outstanding := 0, ordinal := 0, work := [],
    awaiting := false, answer := none, due := [], allReady := false, newsDue := [] }

/-- Reset content of a curve (R137). -/
def Curve.reset : Curve := ⟨List.replicate 17 0, 0, 4095⟩

/-- Reset content of a screen (R137). -/
def Screen.reset : Screen := ⟨8, List.replicate 64 4095⟩

/-- Reset content of a profile (R137). -/
def Profile.reset : Profile := ⟨300, 1, 0⟩

/-- The Table Loader after reset or a failed START: every table INVALID with its reset content (R137, R139). -/
def TableLoader.reset : TableLoader :=
  { pendingSet := [], reload := none, point := false, startNext := 0
    curves := List.replicate 16 ⟨false, Curve.reset⟩
    screens := List.replicate 8 ⟨false, Screen.reset⟩
    screenSets := List.replicate 8 ⟨false, [0, 0, 0, 0]⟩
    profiles := List.replicate 16 ⟨false, Profile.reset⟩
    power := ⟨false, List.replicate 64 0⟩ }

/-- The Band Renderer after reset or a failed START (R111, R113). -/
def BandRenderer.reset : BandRenderer :=
  { buffers := List.replicate 16 .free, order := [], fill := none, fillSerial := 0, point := none }

/-- The cleared exposure record (R152). -/
def Exposure.clear : Exposure :=
  { cursor := 0, pass := 0, holds := 0, exposed := 0, begun := false, breakRequest := false, settle := 0,
    values := ⟨0, 0, 0, 0⟩, deferredBreak := false, entered := false }

/-- The Imaging Controller after reset or a failed START (R152). -/
def ImagingController.reset : ImagingController :=
  { state := .empty, drum := none, waiting := none, load := none, exposure := Exposure.clear,
    pauses := ⟨false, false, false, false⟩, headFault := none, drumTarget := 0 }

/-- The Drum Timing Unit after reset or a failed START (R147, R148, R150). -/
def DrumTiming.reset : DrumTiming :=
  { count := 0, prev := none, captureC := 0, capturePeriod := 0, bufferedA := 0, bufferedB := 0, activeA := 0, activeB := 0,
    reference := true }

/-- The Head Feed after reset or a failed START: no pass, every channel dark (R13, R31). -/
def HeadFeed.reset : HeadFeed := { pass := none, passSerial := 0, laser := 0, level := 0, position := 0 }

/-- A handling unit after reset (R171). -/
def UnitState.reset : UnitState :=
  { hold := none, work := none, queue := [], seq := 0, silent := 0, busy := 0, completion := none, pollTimer := none,
    again := false, pollDue := false }

/-- The Handler Line Controller after reset or a failed START (R171, R187). -/
def HandlerLine.reset : HandlerLine :=
  { loader := UnitState.reset, punch := UnitState.reset, processor := UnitState.reset, sorter := UnitState.reset
    line := none, carriers := [], unloadEnd := .none, cleared := 0 }

/-- The Damage Recorder after reset or a failed START (R201). -/
def DamageRecorder.reset : DamageRecorder := { lists := [], record := FaultRecord.clear, toSend := [] }

/-- The dispatcher after reset: OFF, the post queue empty, no layout record (R3, R13). -/
def Dispatcher.reset : Dispatcher := { runState := .off, phase := .idle, startWrites := 0, postQueue := [], layout := none }

/-- The registers after power-on reset (R1, R13). Link and message settings: log 17. -/
def Registers.reset : Registers :=
  { run := false, exposeEnable := false, alert := 0, alertEn := 0, plantClock := 0, startFail := 0, haltCause := 0
    startUnit := 0, faultValid := false, faultOverflow := false, faultKind := .none, faultUnit := 0
    linkUp := true, msiEnabled := false, messages := 0, hostReply := [] }

/-- Everything on chip after power-on reset. -/
def Chip.reset : Chip :=
  { regs := Registers.reset, pd := Dispatcher.reset, sp := StorePort.reset, iu := IntakeUnit.reset, psc := Scheduler.reset,
    tl := TableLoader.reset, br := BandRenderer.reset, imc := ImagingController.reset, dtu := DrumTiming.reset,
    hf := HeadFeed.reset, hlc := HandlerLine.reset, dmr := DamageRecorder.reset, fresh := 0 }

/-- The machine right after power-on reset: no command waiting, nothing listed in the store (log 1). -/
def State.reset : State := { pending := [], store := [], chip := Chip.reset }

end Sys2Proof.Machine
end

