-- ==== Sys2Proof/Machine/Flags.lean ====
section
/-! DEFINITION. Alert causes and the interrupt message (1.7), and the registers as the host reads them (1.5). -/

namespace Sys2Proof.Machine

/-- The bit of a cause in ALERT and ALERT_EN (1.5). -/
def Cause.bit : Cause → Nat
  | .news => 0
  | .cells => 1
  | .pages => 2
  | .pause => 3
  | .fault => 4
  | .postLost => 5
  | .postBad => 6
  | .startDone => 7

/-- ALERT with one cause set. -/
def Cause.mask (c : Cause) : BitVec 8 := 1#8 <<< c.bit

/-- Whether some enabled cause is set (R23). -/
def alertActive (alert en : BitVec 8) : Bool := alert &&& en != 0

/-- New values of ALERT and ALERT_EN, with the interrupt message that a change from no enabled set cause to one sends (R23). -/
def setAlerts (r : Registers) (alert en : BitVec 8) : Registers :=
  { r with
    alert := alert
    alertEn := en
    messages :=
      if !alertActive r.alert r.alertEn && alertActive alert en && r.msiEnabled then r.messages + 1 else r.messages }

/-- A cause's event sets its bit, whether or not it is already set (R22). -/
def raise (c : Cause) (k : Chip) : Chip :=
  k.setRegs (setAlerts k.regs (k.regs.alert ||| c.mask) k.regs.alertEn)

/-- STATUS.RUN_STATE (1.5). -/
def RunState.code : RunState → Nat
  | .off => 0
  | .starting => 1
  | .running => 2
  | .stopping => 3
  | .stopped => 4
  | .halted => 5

/-- STATUS.IMAGER (1.5, 8.3). -/
def ImagerState.code : ImagerState → Nat
  | .empty => 0
  | .loading => 1
  | .blank => 2
  | .settling => 3
  | .exposing => 4
  | .unloadWait => 5
  | .unloading => 6
  | .paused => 7

/-- FAULT.KIND and the kind byte of the device fault record (1.5, R198). -/
def FaultKind.code : FaultKind → Nat
  | .none => 0
  | .fence => 1
  | .slip => 2
  | .offline => 3
  | .handler => 4

/-- 1 for true. -/
def bit (b : Bool) : Nat := if b then 1 else 0

/-- STATUS.PAUSE: bit 0 SUPPLY, 1 HANDLER, 2 HEAD, 3 INTERLOCK of the field (1.5). -/
def PauseReasons.code (p : PauseReasons) : Nat :=
  bit p.supply + 2 * bit p.handler + 4 * bit p.head + 8 * bit p.interlock

/-- STATUS.POST_ROOM: 64 minus the words in the post queue (R15). -/
def postRoom (k : Chip) : Nat := 64 - k.pd.postQueue.length

/-- STATUS as it stands (R15). -/
def statusWord (k : Chip) : Word :=
  BitVec.ofNat 32 (k.pd.runState.code + 8 * k.imc.state.code + 256 * k.imc.pauses.code + 4096 * postRoom k +
    1048576 * k.regs.startFail + 16777216 * k.regs.haltCause)

/-- FAULT as it stands (R17). -/
def faultWord (k : Chip) : Word :=
  BitVec.ofNat 32 (bit k.regs.faultValid + 2 * bit k.regs.faultOverflow + 16 * k.regs.faultKind.code +
    256 * k.regs.faultUnit + 65536 * k.regs.startUnit + 1048576 * k.regs.startFail)

/-- CONTROL as it stands; ENGINE_RESET reads 0 (1.5). -/
def controlWord (k : Chip) : Word := BitVec.ofNat 32 (bit k.regs.run + 4 * bit k.regs.exposeEnable)

/-- The value of the register at an offset of the register window, 0 where there is none and for POST (R1). Reading changes no state, so it is
no command (log 42). -/
def readRegister (k : Chip) (offset : Nat) : Word :=
  if offset = 0x000 then 0x3A164001
  else if offset = 0x004 then controlWord k
  else if offset = 0x008 then statusWord k
  else if offset = 0x010 then k.regs.alert.setWidth 32
  else if offset = 0x014 then k.regs.alertEn.setWidth 32
  else if offset = 0x018 then k.regs.plantClock
  else if offset = 0x01C then faultWord k
  else 0

/-- What a read of `size` bytes at an offset of the register window returns: bytes of the values of the registers they lie in (R1). -/
def readWindow (k : Chip) (offset size : Nat) : List Byte :=
  (List.range size).map (fun i => (readRegister k (4 * ((offset + i) / 4))).extractLsb' (8 * ((offset + i) % 4)) 8)

end Sys2Proof.Machine
end

