-- ==== Sys2Proof/Machine/Ops.lean ====
section
/-! DEFINITION. The named operations shared by the blocks: addresses of the areas, issuing transfers, run states, resets, HALTED,
the device fault record, and the questions blocks answer one another at once. -/

namespace Sys2Proof.Machine

/-! ### The layout record as taken up -/

/-- The layout record while none has been taken up (R3). -/
def emptyLayout : LayoutRecord :=
  { formatWord := 0, cellBase := 0, cellCount := 0, pageBase := 0, slotBase := 0, slotCount := 0, bandBase := 0, tableBase := 0,
    mapBase := 0, statusBase := 0, fenceBase := 0, domains := [], streams := [], formats := [], slipTolerance := 0,
    speedWindow := 0, settleCount := 0, holdLimit := 0, lateLead := 0, weight := 0, units := [] }

/-- The layout record in force. -/
def Chip.lay (k : Chip) : LayoutRecord := k.pd.layout.getD emptyLayout

/-- A format of no size, for an index without a format. -/
def noFormat : PlateFormat := ⟨0, 0, 0, 0, false⟩

/-- Plate format `i` (R6). -/
def Chip.format (k : Chip) (i : Nat) : PlateFormat := k.lay.formats.getD i noFormat

/-- Settings of no unit, for a layout without units. -/
def noUnit : UnitSettings := ⟨0, 0, 0, 0, .fault⟩

/-- A unit's address, 1–4 (1.5). -/
def unitAddr : HUnit → Nat
  | .loader => 1
  | .punch => 2
  | .processor => 3
  | .sorter => 4

/-- A unit's settings (R3). -/
def Chip.unitSettings (k : Chip) (u : HUnit) : UnitSettings := k.lay.units.getD (unitAddr u - 1) noUnit

/-- The address of a cell (R4). -/
def Chip.cellAddr (k : Chip) (c : Nat) : Nat := k.lay.cellBase + 65536 * c

/-- The address of a page record (R4). -/
def Chip.pageAddr (k : Chip) (i : Nat) : Nat := k.lay.pageBase + 65536 * i

/-- The address of a plate slot (R4). -/
def Chip.slotAddr (k : Chip) (n : Nat) : Nat := k.lay.slotBase + 1024 * n

/-- The address of a band buffer (R4). -/
def Chip.bandAddr (k : Chip) (b : Nat) : Nat := k.lay.bandBase + 262144 * b

/-! ### Run states -/

/-- RUNNING, STOPPING and STOPPED, the states in which the blocks work (R11, R21, R129, R146, R170, R201). -/
def Chip.working (k : Chip) : Bool :=
  k.pd.runState = .running || k.pd.runState = .stopping || k.pd.runState = .stopped

/-- Another run state. -/
def Chip.setRun (k : Chip) (r : RunState) : Chip := k.setPd { k.pd with runState := r }

/-! ### Transfers -/

/-- A span split into transfers that do not cross a 4 KiB boundary (R28), with fuel. Addresses are 32 bits wide (log 21). -/
def piecesAux : Nat → Nat → Nat → List (Nat × Nat)
  | 0, _, _ => []
  | f + 1, a, n =>
    if n = 0 then [] else
      (a % storeSize, min n (4096 - a % 4096)) ::
        piecesAux f (a + min n (4096 - a % 4096)) (n - min n (4096 - a % 4096))

/-- The transfers of a span, as (address, length) in address order (R28). -/
def pieces (a n : Nat) : List (Nat × Nat) := piecesAux (n / 4096 + 2) a n

/-- The waiting transfers of a client, oldest first (R28). -/
def StorePort.waiting (p : StorePort) : Client → List Transfer
  | .host => p.host
  | .hf => p.hf
  | .br => p.br
  | .iu => p.iu
  | .report => p.report

/-- Another list of waiting transfers for a client. -/
def StorePort.setWaiting (p : StorePort) : Client → List Transfer → StorePort
  | .host, l => { p with host := l }
  | .hf, l => { p with hf := l }
  | .br, l => { p with br := l }
  | .iu, l => { p with iu := l }
  | .report, l => { p with report := l }

/-- A block issues a transfer: it joins the tail of its client's queue (R28). -/
def issue (t : Transfer) (k : Chip) : Chip :=
  k.setSp (k.sp.setWaiting t.client (k.sp.waiting t.client ++ [t]))

/-- Transfers issued in order. -/
def issueAll (ts : List Transfer) (k : Chip) : Chip := ts.foldl (fun k t => issue t k) k

/-- A write through IU-write (R32). -/
def iuWrite (addr : Nat) (data : List Byte) (notices : List Notice) : Transfer :=
  { client := .iu, stream := some .iuWrite, addr := addr, op := .write data, purpose := .quiet, notices := notices }

/-- A write through REPORT-write (R32). -/
def reportWrite (addr : Nat) (data : List Byte) (notices : List Notice) : Transfer :=
  { client := .report, stream := some .reportWrite, addr := addr, op := .write data, purpose := .quiet, notices := notices }

/-- A write of PSC's, which counts among the writes that applying its input waits for (R20). -/
def pscWrite (addr : Nat) (data : List Byte) (notices : List Notice) (k : Chip) : Chip :=
  issue (reportWrite addr data (notices ++ [.pscDone]))
    (k.setPsc { k.psc with outstanding := k.psc.outstanding + 1 })

/-- The last of a list of transfers gets further notices. -/
def withLastNotices (n : List Notice) : List Transfer → List Transfer
  | [] => []
  | [t] => [{ t with notices := t.notices ++ n }]
  | t :: ts => t :: withLastNotices n ts

/-! ### The device fault record (R198–R200) -/

/-- A fault offered to the record (R199). -/
structure FaultOffer where
  kind : FaultKind
  unit : Nat
  detail : Nat
  addr : Nat
  addrValid : Bool
  domain : Nat
  isWrite : Bool
  deriving DecidableEq, Repr

/-- Bytes 00h–13h of the status block (R198). -/
def faultBytes (r : FaultRecord) : List Byte :=
  flagByte r.valid ++ flagByte r.overflow ++ le 1 r.kind.code ++ le 1 r.unit ++ le 4 r.detail ++ le 4 r.addr ++
    flagByte r.addrValid ++ le 1 r.domain ++ flagByte r.isWrite ++ le 1 0 ++ le 4 r.time.toNat

/-- The record that latches an offer (R199 (1)). -/
def latchOffer (o : FaultOffer) (clock : Word) : FaultRecord :=
  { valid := true, overflow := false, kind := o.kind, unit := o.unit, detail := o.detail, addr := o.addr,
    addrValid := o.addrValid, domain := o.domain, isWrite := o.isWrite, time := clock }

/-- The on-chip record and FAULT after an offer (R199 (1)–(3)). -/
def takeOffer (o : FaultOffer) (k : Chip) : Chip :=
  if k.dmr.record.valid then
    (k.setDmr { k.dmr with record := { k.dmr.record with overflow := true } }).setRegs { k.regs with faultOverflow := true }
  else
    (k.setDmr { k.dmr with record := latchOffer o k.regs.plantClock }).setRegs
      { k.regs with faultValid := true, faultOverflow := false, faultKind := o.kind, faultUnit := o.unit }

/-- DMR takes an offer: the record and FAULT change, the status block is written, and ALERT.FAULT follows the write (R199). -/
def offerFault (o : FaultOffer) (k : Chip) : Chip :=
  let k' := takeOffer o k
  if k.dmr.record.valid then
    if k.dmr.record.overflow then raise .fault k'
    else issue (reportWrite (k.lay.statusBase + 1) [1] [.alert .fault]) k'
  else issue (reportWrite k.lay.statusBase (faultBytes k'.dmr.record) [.alert .fault]) k'

/-- A transfer whose completion no longer sets ALERT.FAULT. -/
def Transfer.withoutFault (t : Transfer) : Transfer :=
  { t with notices := t.notices.filter (fun n => decide (n ≠ .alert .fault)) }

/-- The outstanding writes of offers taken before a clear set ALERT.FAULT no more: of an offer taken first the alert ends clear (R200). -/
def StorePort.withoutFault (p : StorePort) : StorePort :=
  { p with
    report := p.report.map Transfer.withoutFault
    check := p.check.map (fun c => { c with xfer := c.xfer.withoutFault })
    served := p.served.map (fun x => { x with xfer := x.xfer.withoutFault }) }

/-- The host's write of 1 to ALERT.FAULT clears VALID and OVERFLOW on chip and in FAULT, and writes bytes 00h–01h of the status block
as 0, after the outstanding writes of earlier offers (R200). In HALTED, and with no layout taken up, there is no such write (R201, log 25). -/
def acknowledgeFault (k : Chip) : Chip :=
  let k' := (k.setDmr { k.dmr with record := { k.dmr.record with valid := false, overflow := false } }).setRegs
    { k.regs with faultValid := false, faultOverflow := false }
  if k.pd.runState = .halted || k.pd.layout.isNone then k'
  else issue (reportWrite k.lay.statusBase [0, 0] []) (k'.setSp k.sp.withoutFault)

/-! ### HALTED, failed START, resets -/

/-- The laser is switched off: every channel dark (R12, R13). -/
def darken (k : Chip) : Chip := k.setHf { k.hf with laser := 0 }

/-- Entry to HALTED on a refusal of IU-write (cause 1) or REPORT-write (cause 2): the refusal is offered without a write, ALERT.FAULT is
set at once, the laser and the drum stop, and every block stops where it is (R12, R42, R199). A halt in STARTING ends it (R9). -/
def haltPart (cause : Nat) (o : FaultOffer) (k : Chip) : Chip :=
  let k1 := raise .fault (takeOffer o k)
  let k2 := if k.pd.runState = .starting then raise .startDone k1 else k1
  let k3 := darken (k2.setImc { k2.imc with drumTarget := 0 })
  (k3.setRun .halted).setRegs { k3.regs with haltCause := cause }

/-- Every block at its reset value, with given registers (R13, R8). -/
def blocksReset (k : Chip) (r : Registers) : Chip := { Chip.reset with regs := r, fresh := k.fresh }

/-- Writes of POST still waiting behind a host transfer are dropped, each with ALERT.POST_LOST (R18, log 30). -/
def losePosts (k : Chip) : Chip := if k.sp.posts.isEmpty then k else raise .postLost k

/-- A START check fails: its number is recorded, RUN is cleared, every block takes its reset value, the registers and PLANT_CLOCK are
kept, the run state becomes OFF, and START_DONE is set (R8). `unit` is 0 but for check 8. Writes of POST that wait are lost (R18). An exchange
on the handler line is abandoned with the line idle, after a CLEAR too (R187 (2) against R182, log 62: DESIGN CHOICE). -/
def startFailed (check unit : Nat) (k : Chip) : Chip :=
  let r := (losePosts k).regs
  raise .startDone (blocksReset k { r with startFail := check, startUnit := unit, run := false })

/-- STARTING has succeeded (R9 (1)). -/
def startSucceeded (k : Chip) : Chip :=
  raise .startDone (k.setPd { k.pd with runState := if k.regs.run then .running else .stopped, phase := .idle })

/-- Engine reset: everything but PLANT_CLOCK; the PCI Express side is outside the part (R13, log 17). -/
def engineResetChip (k : Chip) : Chip :=
  blocksReset k { Registers.reset with
    plantClock := k.regs.plantClock
    linkUp := k.regs.linkUp
    msiEnabled := k.regs.msiEnabled
    messages := k.regs.messages
    hostReply := k.regs.hostReply }

/-! ### Questions answered at once -/

/-- IMC's answer on the exposure-begun flag (R152): set only when that slot and attempt is the drum plate and its flag is set. -/
def exposureBegun (k : Chip) (slot attempt : Nat) : Bool :=
  match k.imc.drum with
  | some d =>
    match d.owner with
    | some p => decide (p.slot = slot) && decide (p.attempt = attempt) && k.imc.exposure.begun
    | none => false
  | none => false

/-- The plate of a held slot, none when the slot is FREE. -/
def Chip.plate (k : Chip) (slot : Nat) : Option Plate := tblGet k.psc.plates slot

/-- Whether a report or disposition belongs to the plate's current attempt (R93). -/
def Plate.isCurrent (p : Plate) (attempt : Nat) : Bool := decide (p.attempt = attempt) && decide (p.status = .opened)

/-- PSC's answer whether the plate is in FINISHING with that attempt as its current attempt (R190). -/
def finishingCurrent (k : Chip) (slot attempt : Nat) : Bool :=
  match k.plate slot with
  | some p => decide (p.state = .finishing) && p.isCurrent attempt
  | none => false

/-- A report arrives at PSC (R70: PSC takes each report when it arrives). -/
def tellPsc (i : PscInput) (k : Chip) : Chip := k.setPsc { k.psc with inbox := k.psc.inbox ++ [i] }

/-- The state HLC holds for a unit. -/
def HandlerLine.unit (h : HandlerLine) : HUnit → UnitState
  | .loader => h.loader
  | .punch => h.punch
  | .processor => h.processor
  | .sorter => h.sorter

/-- Another state for a unit. -/
def HandlerLine.setUnit (h : HandlerLine) : HUnit → UnitState → HandlerLine
  | .loader, x => { h with loader := x }
  | .punch, x => { h with punch := x }
  | .processor, x => { h with processor := x }
  | .sorter, x => { h with sorter := x }

/-- Another state for a unit, on the chip. -/
def Chip.setUnit (k : Chip) (u : HUnit) (x : UnitState) : Chip := k.setHlc (k.hlc.setUnit u x)

/-- A request joins the tail of a unit's queue (R171). -/
def queueRequest (u : HUnit) (r : Request) (k : Chip) : Chip :=
  k.setUnit u { k.hlc.unit u with queue := (k.hlc.unit u).queue ++ [r] }

/-- A free value is drawn: the counter advances (log 24). -/
def drawFresh (k : Chip) : Chip := k.setFresh (k.fresh + 1)

end Sys2Proof.Machine
end

