-- ==== Sys2Proof/Machine/Damage.lean ====
section
/-! DEFINITION. The Damage Recorder (chapter 10): mark reports, severities and places, the plate mark list, dispositions. -/

namespace Sys2Proof.Machine

/-- The code of a mark kind (R189). -/
def MarkKind.code : MarkKind → Nat
  | .align => 1
  | .late => 2
  | .overdue => 3
  | .remade => 4
  | .outdated => 5
  | .lateBreak => 6
  | .timeout => 7
  | .nosep => 8
  | .base => 9
  | .decode => 10
  | .broken => 11
  | .interlock => 12
  | .underrun => 13
  | .speed => 14
  | .slip => 15
  | .channel => 16
  | .misreg => 17
  | .process => 18
  | .fence => 19
  | .table => 20
  | .attempts => 21

/-- BASE and DECODE are the hold kinds (R190). -/
def MarkKind.isHold : MarkKind → Bool
  | .base => true
  | .decode => true
  | _ => false

/-- The charged flag of a kind (R189). -/
def MarkKind.charged : MarkKind → Bool
  | .underrun => true
  | .speed => true
  | .slip => true
  | .channel => true
  | .misreg => true
  | .process => true
  | _ => false

/-- The severity of a kind, HOLD for the hold kinds before R190 is judged (R189). -/
def MarkKind.baseSeverity : MarkKind → Severity
  | .align => .note
  | .late => .note
  | .overdue => .note
  | .remade => .note
  | .outdated => .note
  | .lateBreak => .note
  | .timeout => .note
  | .nosep => .note
  | .base => .hold
  | .decode => .hold
  | .broken => .spoil
  | .interlock => .spoil
  | .underrun => .spoil
  | .speed => .spoil
  | .slip => .spoil
  | .channel => .spoil
  | .misreg => .spoil
  | .process => .spoil
  | .fence => .fail
  | .table => .fail
  | .attempts => .fail

/-- The two questions of R190: has exposure begun, or is the plate in FINISHING, for the slot and attempt. -/
def aluminiumExposed (k : Chip) (slot attempt : Nat) : Bool :=
  exposureBegun k slot attempt || finishingCurrent k slot attempt

/-- The severity DMR gives a mark when it takes the report (R189, R190). -/
def severityOf (k : Chip) (kind : MarkKind) (slot attempt : Nat) : Severity :=
  if kind.isHold && aluminiumExposed k slot attempt then .spoil else kind.baseSeverity

/-- The place of R191 (2) for a SPOIL or FAIL whose reporter names none. -/
def askedPlace (k : Chip) (slot attempt : Nat) : Place :=
  if exposureBegun k slot attempt then .drum
  else if finishingCurrent k slot attempt then .carrier
  else .none

/-- The place of a mark (R191). -/
def placeOf (k : Chip) (sev : Severity) (named : Option Place) (slot attempt : Nat) : Place :=
  match sev with
  | .note => .none
  | .hold => .none
  | .spoil => named.getD (askedPlace k slot attempt)
  | .fail => named.getD (askedPlace k slot attempt)

/-- The severity byte of a mark entry (R192). -/
def Severity.code : Severity → Nat
  | .note => 0
  | .hold => 1
  | .spoil => 2
  | .fail => 3

/-- The place byte of a mark entry (R192). -/
def Place.code : Place → Nat
  | .none => 0
  | .drum => 1
  | .carrier => 2

/-- Three bytes of a page key. -/
def keyBytes (k : PageKey) : List Byte := le 1 k.book ++ le 1 k.page ++ le 1 k.zone

/-- The key bytes of an absent page key. -/
def noKeyBytes : List Byte := [0, 0, 0]

/-- The 32 bytes of a mark entry (R192). -/
def markBytes (m : Mark) : List Byte :=
  le 1 m.kind.code ++ le 1 m.severity.code ++ le 1 (bit m.charged + 2 * bit m.key.isSome) ++ le 1 m.place.code ++
    le 1 m.attempt ++
    (match m.location with
      | .none => le 1 0 ++ le 2 0
      | .swath n => le 1 1 ++ le 2 n
      | .strip n => le 1 2 ++ le 2 n) ++
    (m.key.map keyBytes).getD noKeyBytes ++ le 1 0 ++ le 4 m.detail ++ le 4 m.time.toNat ++ List.replicate 12 0

/-- What DMR keeps for a slot at ORDER (R194, R195). -/
def SlotMarks.empty : SlotMarks := ⟨[], 0, 0, none, none⟩

/-- The marks of a held slot. -/
def Chip.marks (k : Chip) (slot : Nat) : SlotMarks := (tblGet k.dmr.lists slot).getD SlotMarks.empty

/-- A count that stops at 255 (R63, R193). -/
def sat255 (n : Nat) : Nat := min 255 n

/-- The place of the oldest NOTE in a list (R193 (3)). -/
def oldestNote : List Mark → Option Nat
  | [] => none
  | m :: ms => if m.severity = .note then some 0 else (oldestNote ms).map (· + 1)

/-- How a mark is stored: the new list, the lost-mark count, and the list places to write; none when the mark is not stored (R193). -/
def storeMark (sm : SlotMarks) (m : Mark) : SlotMarks × Option (List Nat) :=
  if sm.marks.length < 8 then ({ sm with marks := sm.marks ++ [m] }, some [sm.marks.length])
  else if m.severity = .note then ({ sm with lost := sat255 (sm.lost + 1) }, none)
  else
    match oldestNote sm.marks with
    | some n => ({ sm with marks := sm.marks.eraseIdx n ++ [m] }, some (List.range' n (8 - n)))
    | none => ({ sm with lost := sat255 (sm.lost + 1) }, none)

/-- Whether R195 suppresses a report: a second FENCE of an attempt, or a NOSEP already remembered for its position. -/
def suppressed (sm : SlotMarks) (m : MarkReport) : Bool :=
  (decide (m.kind = .fence) && decide (sm.fenceAttempt = m.attempt)) ||
    (decide (m.kind = .nosep) &&
      match m.nosep with
      | some (0, r, v) => decide (sm.nosep0 = some (r, v))
      | some (_, r, v) => decide (sm.nosep1 = some (r, v))
      | none => false)

/-- What DMR remembers of a FENCE or NOSEP mark (R195). -/
def remember (sm : SlotMarks) (m : MarkReport) : SlotMarks :=
  let sm := if m.kind = .fence then { sm with fenceAttempt := m.attempt } else sm
  match m.nosep with
  | some (0, r, v) => { sm with nosep0 := some (r, v) }
  | some (_, r, v) => { sm with nosep1 := some (r, v) }
  | none => sm

/-- The writes that recording a mark makes, in order: each changed list place, then the counts (R193). -/
def markWrites (slotBase : Nat) (sm : SlotMarks) : Option (List Nat) → List Transfer
  | some places =>
    places.map (fun n => reportWrite (slotBase + 0x140 + 32 * n) ((sm.marks[n]?).map markBytes |>.getD []) []) ++
      [reportWrite (slotBase + 0x138) (le 1 sm.marks.length ++ le 1 sm.lost) []]
  | none => [reportWrite (slotBase + 0x139) (le 1 sm.lost) []]

/-- DMR takes a mark report (R188, R193–R195). A report of a FREE slot leaves no trace, nor
does one of a slot whose order is still being read: the model's choice (log 71). After the writes DMR sends a disposition
(R196); for a mark that PSC itself reports, PSC waits for that disposition (R188). -/
def recordMark (byPsc : Bool) (m : MarkReport) (k : Chip) : Chip :=
  match k.plate m.slot with
  | none => k
  | some _ =>
    let sm := k.marks m.slot
    if suppressed sm m then k else
      let sev := severityOf k m.kind m.slot m.attempt
      let place := placeOf k sev m.place m.slot m.attempt
      let mark : Mark :=
        { kind := m.kind, severity := sev, charged := m.kind.charged, place := place, attempt := m.attempt,
          location := m.location, key := m.key, detail := m.detail, time := k.regs.plantClock }
      let (sm', places) := storeMark (remember sm m) mark
      let k1 := k.setDmr { k.dmr with lists := tblPut k.dmr.lists m.slot sm' }
      let done : Disposition :=
        { slot := m.slot, attempt := m.attempt, severity := sev, charged := m.kind.charged, place := place, own := byPsc }
      let k2 := if byPsc then k1.setPsc { k1.psc with awaiting := true } else k1
      issueAll (withLastNotices [.markDone done] (markWrites (k.slotAddr m.slot) sm' places)) k2

/-- A mark report of another block than PSC. -/
def reportMark (m : MarkReport) (k : Chip) : Chip := recordMark false m k

/-- DMR judges a hold kind recorded as HOLD again as it sends the disposition (R196). -/
def judgeAgain (k : Chip) (d : Disposition) : Disposition :=
  if d.severity = .hold && aluminiumExposed k d.slot d.attempt then
    { d with severity := .spoil, charged := false, place := askedPlace k d.slot d.attempt }
  else d

/-- A disposition reaches PSC: one that PSC waits for, or one among its inputs (R188). -/
def tellDisposition (d : Disposition) (k : Chip) : Chip :=
  if d.own then k.setPsc { k.psc with answer := some d } else tellPsc (.disposition d) k

/-- DISPOSITION_SEND (R196): the oldest disposition whose mark's writes have completed goes to PSC. -/
def sendDisposition (k : Chip) : Chip :=
  if k.working then
    match k.dmr.toSend with
    | [] => k
    | d :: ds => tellDisposition (judgeAgain k d) (k.setDmr { k.dmr with toSend := ds })
  else k

end Sys2Proof.Machine
end

