-- ==== Sys2Proof/Machine/Screening.lean ====
section
/-! DEFINITION. The Screener (7.1) and TL's answers to questions about its tables (R137, R138). -/

namespace Sys2Proof.Machine

/-! ### From pixel to dot -/

/-- The tone stage: pixel value v through the curve's 17 knots (R130). -/
def tone (c : Curve) (v : Nat) : Nat :=
  let i := if v = 255 then 15 else v / 16
  let w : Int := if i = 15 then 15 else 16
  let y0 : Int := c.knots.getD i 0
  let y1 : Int := c.knots.getD (i + 1) 0
  (y0 + Int.tdiv ((y1 - y0) * ((v : Int) - 16 * i)) w).toNat

/-- Step (2) of the trim stage: clamp to 0–4,095 (R131). -/
def clampTone (u : Int) : Nat := if u < 0 then 0 else if 4095 < u then 4095 else u.toNat

/-- Step (3) of the trim stage: minimum dot (R131). -/
def snapMin (minDot c : Nat) : Nat :=
  if 0 < c ∧ c < minDot then (if 2 * c < minDot then 0 else minDot) else c

/-- Step (4) of the trim stage: maximum dot (R131). -/
def snapMax (maxDot c : Nat) : Nat :=
  if maxDot < c ∧ c < 4095 then (if maxDot + 4095 < 2 * c then 4095 else maxDot) else c

/-- The screened value q (R130, R131). -/
def screened (c : Curve) (v : Nat) (trim : Int) : Nat :=
  snapMax c.maxDot (snapMin c.minDot (clampTone ((tone c v : Int) + trim)))

/-- The threshold at tile row P mod T and tile column d mod T (R132). -/
def threshold (s : Screen) (row dot : Nat) : Nat :=
  s.thresholds.getD (s.size * (row % s.size) + dot % s.size) 4095

/-- The Screener's answer S: exposed when q is at or above the threshold (R132). -/
def screenDot (c : Curve) (s : Screen) (v : Nat) (trim : Int) (row dot : Nat) : Bool :=
  decide (threshold s row dot ≤ screened c v trim)

/-! ### Table state -/

/-- The kind codes of the TABLE post word (R19). -/
def TableKind.code : TableKind → Nat
  | .curve => 0
  | .screen => 1
  | .screenSet => 2
  | .profile => 3
  | .power => 4

/-- The detail of a mark TABLE: bits 6:4 the kind, bits 3:0 the index (R138, R189). -/
def TableId.detail (t : TableId) : Nat := 16 * t.kind.code + t.idx

/-- The on-chip curve. -/
def Chip.curve (k : Chip) (i : Nat) : Held Curve := k.tl.curves.getD i ⟨false, Curve.reset⟩

/-- The on-chip screen. -/
def Chip.screen (k : Chip) (i : Nat) : Held Screen := k.tl.screens.getD i ⟨false, Screen.reset⟩

/-- The on-chip screen set. -/
def Chip.screenSet (k : Chip) (i : Nat) : Held (List Nat) := k.tl.screenSets.getD i ⟨false, [0, 0, 0, 0]⟩

/-- The on-chip profile. -/
def Chip.profile (k : Chip) (i : Nat) : Held Profile := k.tl.profiles.getD i ⟨false, Profile.reset⟩

/-- The screen that a screen set names for a separation (R136), from the on-chip copy whatever its validity (R137). -/
def Chip.screenOf (k : Chip) (set sep : Nat) : Nat := (k.screenSet set).val.getD sep 0

/-- TL's answer about a profile: none when VALID, otherwise the table found INVALID (R138 (1)). -/
def profileFault (k : Chip) (i : Nat) : Option TableId :=
  if !(k.profile i).valid then some ⟨.profile, i⟩
  else if !k.tl.power.valid then some ⟨.power, 0⟩
  else none

/-- The first INVALID of a plate's curve, screen set and screen, in that order (R96 (2), R115 (2)). -/
def renderFault (k : Chip) (curve set sep : Nat) : Option TableId :=
  if !(k.curve curve).valid then some ⟨.curve, curve⟩
  else if !(k.screenSet set).valid then some ⟨.screenSet, set⟩
  else if !(k.screen (k.screenOf set sep)).valid then some ⟨.screen, k.screenOf set sep⟩
  else none

/-- TL's answer to IMC's values question (R138 (2)). -/
def profileValues (k : Chip) (i : Nat) : ProfileValues :=
  let p := (k.profile i).val
  { rpm := p.rpm, passes := p.passes, step := p.step, level := k.tl.power.val.getD p.step 0 }

/-- Whether TL holds IMC at its entry into EXPOSING for a profile: the profile or POWER is pending, or either is being reloaded (R143). -/
def profileHeld (k : Chip) (i : Nat) : Bool :=
  k.tl.pendingSet.any (fun e => decide (e.id = ⟨.profile, i⟩) || decide (e.id.kind = .power)) ||
    (match k.tl.reload with
      | some r => decide (r.id = ⟨.profile, i⟩) || decide (r.id.kind = .power)
      | none => false)

end Sys2Proof.Machine
end

