-- ==== Sys2Proof/Machine/Imager.lean ====
section
/-! DEFINITION. The Imaging Controller, the Drum Timing Unit and the Head Feed (chapter 8, R31). -/

namespace Sys2Proof.Machine

/-! ### Imager state, drum target and laser gate (R152, R153) -/

/-- Whether a pause reason is outstanding. -/
def PauseReasons.any (p : PauseReasons) : Bool := p.supply || p.handler || p.head || p.interlock

/-- One reason recorded. -/
def PauseReasons.add (p : PauseReasons) : PauseReason → PauseReasons
  | .supply => { p with supply := true }
  | .handler => { p with handler := true }
  | .head => { p with head := true }
  | .interlock => { p with interlock := true }

/-- A new drum target; from 0 to a speed, the next index is a reference index (R148, R153). -/
def setTarget (rpm : Nat) (k : Chip) : Chip :=
  let k1 := if k.imc.drumTarget = 0 ∧ rpm ≠ 0 then k.setDtu { k.dtu with reference := true } else k
  k1.setImc { k1.imc with drumTarget := rpm }

/-- A change of imager state with the drum target it brings; leaving EXPOSING closes the laser gate (R153). -/
def goTo (st : ImagerState) (k : Chip) : Chip :=
  let k1 := k.setImc { k.imc with state := st }
  match st with
  | .settling => darken (setTarget k.imc.exposure.values.rpm k1)
  | .exposing => setTarget k.imc.exposure.values.rpm k1
  | .empty => darken (setTarget 0 k1)
  | .loading => darken (setTarget 0 k1)
  | .blank => darken (setTarget 0 k1)
  | .unloadWait => darken (setTarget 0 k1)
  | .unloading => darken (setTarget 0 k1)
  | .paused => darken (setTarget 0 k1)

/-- Whether the laser is permitted: EXPOSING with EXPOSE_ENABLE set, and not HALTED (R12, R153). -/
def laserPermitted (k : Chip) : Bool :=
  decide (k.imc.state = .exposing) && k.regs.exposeEnable && decide (k.pd.runState ≠ .halted)

/-- The plate that owns the physical plate on the drum (R152). -/
def drumPlate (k : Chip) : Option PlateRef :=
  match k.imc.drum with
  | some d => d.owner
  | none => none

/-- Another exposure record. -/
def setExposure (e : Exposure) (k : Chip) : Chip := k.setImc { k.imc with exposure := e }

/-- Another drum record. -/
def setDrum (d : Option Drum) (k : Chip) : Chip := k.setImc { k.imc with drum := d }

/-- Another waiting plate. -/
def setWaitingPlate (p : Option PlateRef) (k : Chip) : Chip := k.setImc { k.imc with waiting := p }

/-! ### Pauses (R168) -/

/-- A pause reason is recorded: its bit and ALERT.PAUSE, and PAUSED at once where R168 says so. -/
def recordPause (r : PauseReason) (k : Chip) : Chip :=
  let k1 := raise .pause (k.setImc { k.imc with pauses := k.imc.pauses.add r })
  match k.imc.state with
  | .empty => goTo .paused k1
  | .blank => goTo .paused k1
  | .settling => goTo .paused k1
  | .unloadWait => goTo .paused k1
  | .exposing => if r = .head ∨ r = .interlock then goTo .paused k1 else k1
  | .loading => k1
  | .unloading => k1
  | .paused => k1

/-! ### Getting a plate onto the drum (R154–R157) -/

/-- Entry to SETTLING: the profile values, the target, settle count 0 (R157). -/
def enterSettling (p : PlateRef) (k : Chip) : Chip :=
  goTo .settling (setExposure { k.imc.exposure with values := profileValues k p.profile, settle := 0 } k)

/-- IMC writes the buffered compare pair for a format (R150 (1)). -/
def writePair (format : Nat) (k : Chip) : Chip :=
  k.setDtu { k.dtu with
    bufferedA := (k.format format).lead
    bufferedB := (k.format format).lead + (k.format format).width }

/-- IMC takes the waiting plate up when the drum allows it (R154). -/
def takeUp (k : Chip) : Chip :=
  match k.imc.waiting with
  | none => k
  | some p =>
    if k.imc.pauses.any then k else
      match k.imc.drum with
      | none =>
        if k.imc.load.isSome then k else
          queueRequest .loader
            { kind := .load (k.format p.format).cassette, slot := some p.slot, attempt := p.attempt, seq := 0 }
            (goTo .loading ((setWaitingPlate none k).setImc
              { k.imc with waiting := none, load := some { format := p.format, plate := some p } }))
      | some d =>
        if d.cond = .unexposed ∧ d.owner = none then
          if d.format = p.format then
            enterSettling p (writePair p.format (setExposure { k.imc.exposure with entered := false }
              (setDrum (some { d with owner := some p }) (setWaitingPlate none k))))
          else goTo .unloadWait (setDrum (some { d with cond := .spoiled }) k)
        else k

/-- PSC hands IMC a plate entering PREPARING (R96, R154). -/
def handPlate (p : PlateRef) (k : Chip) : Chip := takeUp (setWaitingPlate (some p) k)

/-- The state that the drum record calls for when nothing holds the imager (R169). -/
def settleByDrum (k : Chip) : Chip :=
  match k.imc.drum with
  | none => takeUp (goTo .empty k)
  | some d =>
    match d.cond, d.owner with
    | .unexposed, none => takeUp (goTo .blank k)
    | .unexposed, some p => enterSettling p k
    | .exposed, _ => goTo .unloadWait k
    | .spoiled, _ => goTo .unloadWait k

/-- After a LOAD, an UNLOAD or a blank's plate has ended: PAUSED when a reason is outstanding, otherwise the state the drum record calls
for (R168). -/
def afterRequest (k : Chip) : Chip := if k.imc.pauses.any then goTo .paused k else settleByDrum k

/-- How HLC reports the end of a LOAD (R155). -/
inductive LoadEnd where
  | done | empty | failed
  deriving DecidableEq, Repr

/-- IMC takes the end of a LOAD (R155); the next index is a reference index (R148). -/
def loadEnd (r : LoadEnd) (k : Chip) : Chip :=
  match k.imc.load with
  | none => k
  | some l =>
    let k0 := k.setDtu { k.dtu with reference := true }
    let k1 := k0.setImc { k0.imc with load := none }
    match r with
    | .done =>
      let k2 := setDrum (some { format := l.format, owner := l.plate, cond := .unexposed, confirmed := false }) k1
      afterRequest (if l.plate.isSome then writePair l.format k2 else k2)
    | .empty =>
      recordPause .supply
        ((setWaitingPlate (l.plate.orElse (fun _ => k.imc.waiting)) k1).setImc
          { k1.imc with waiting := l.plate.orElse (fun _ => k.imc.waiting), state := .empty })
    | .failed => afterRequest (setWaitingPlate (l.plate.orElse (fun _ => k.imc.waiting)) k1)

/-! ### Head Feed: the prefetch of the draining band (R31) -/

/-- The row sets a pass needs: ⌈W / 512⌉ (R31). -/
def rowSets (width : Nat) : Nat := (width + 511) / 512

/-- HF issues the next row set's read while the prefetch has room for it (R31 (2), log 27). -/
def hfFetchOne (k : Chip) : Chip :=
  match k.hf.pass with
  | none => k
  | some ps =>
    if ps.prefetch.length + ps.underway < 2 ∧ ps.nextSet < rowSets ps.width then
      issue { client := .hf, stream := some .hfRead, addr := k.bandAddr ps.buffer + 4096 * ps.nextSet, op := .read 4096,
              purpose := .rowSet ps.id ps.nextSet, notices := [] }
        (k.setHf { k.hf with pass := some { ps with nextSet := ps.nextSet + 1, underway := ps.underway + 1 } })
    else k

/-- HF fetches as far as its 8 KiB allow. -/
def hfFetch (k : Chip) : Chip := hfFetchOne (hfFetchOne k)

/-- HF begins a pass: the prefetch empties and fetching begins from row set 0 (R31 (1)). -/
def startPass (buffer width : Nat) (k : Chip) : Chip :=
  hfFetch (k.setHf { k.hf with
    pass := some { id := k.hf.passSerial + 1, width := width, buffer := buffer, nextSet := 0, underway := 0, prefetch := [],
                   window := false, dark := false }
    passSerial := k.hf.passSerial + 1 })

/-- HF ends a pass: the prefetch empties, no further read is issued, every channel is dark (R31 (5), R151). -/
def endPass (k : Chip) : Chip := k.setHf { k.hf with pass := none, laser := 0 }

/-- A row set read completes: it enters the prefetch of the pass it was read for, and is discarded after that pass (R31). -/
def rowSetArrives (pass j : Nat) (data : List Byte) (k : Chip) : Chip :=
  match k.hf.pass with
  | none => k
  | some ps =>
    if ps.id = pass then
      hfFetch (k.setHf { k.hf with
        pass := some { ps with underway := ps.underway - 1, prefetch := ps.prefetch ++ [(j, data)] } })
    else k

/-- The 64 dots that a row set holds at dot i: band row c is bit (i mod 8) of byte 64c + i / 8 (R112). -/
def column (data : List Byte) (i : Nat) : BitVec 64 :=
  (List.range 64).foldl
    (fun acc c => if (data.getD (64 * c + i / 8) 0).getLsbD (i % 8) then acc ||| (1#64 <<< c) else acc) 0

/-- HF has precedence: its prefetch holds less than 2 KiB and row sets of the pass remain to be fetched (R31 (3)). A row set whose read is
under way still remains to be fetched here: the model's choice (log 27). -/
def hfPrecedence (k : Chip) : Bool :=
  match k.hf.pass with
  | none => false
  | some ps =>
    decide (4096 * ps.prefetch.length < 2048) && (decide (ps.nextSet < rowSets ps.width) || decide (0 < ps.underway))

/-! ### Ending exposure (R161–R163) -/

/-- A buffer after the DRAINING one has become FREE (R118 (2)). -/
def Buffer.endDraining : Buffer → Buffer
  | .draining _ => .free
  | .free => .free
  | .filling b => .filling b
  | .full b => .full b

/-- The DRAINING buffer becomes FREE (R118 (2)). -/
def freeDraining (k : Chip) : Chip := k.setBr { k.br with buffers := k.br.buffers.map Buffer.endDraining }

/-- A mark of IMC's own finding, at the swath cursor (R162 (5)). -/
def imcMark (p : PlateRef) (kind : MarkKind) (detail : Nat) (place : Place) (k : Chip) : Chip :=
  reportMark { slot := p.slot, attempt := p.attempt, kind := kind, location := .swath k.imc.exposure.cursor, key := none,
               detail := detail, place := some place, nosep := none } k

/-- The drum record with another condition and confirmed flag. -/
def condemn (cond : Condition) (confirmed : Bool) (k : Chip) : Chip :=
  match k.imc.drum with
  | some d => setDrum (some { d with cond := cond, confirmed := confirmed }) k
  | none => k

/-- IMC reports exposure end to PSC (R97, R161, R162). -/
def reportExposureEnd (p : PlateRef) (exposed holds : Nat) (k : Chip) : Chip :=
  tellPsc (.exposureEnd p.slot p.attempt p.prep exposed holds) k

/-- Exposure of the drum plate ends for another cause than completion (R162). `finding` is IMC's own finding with its detail; without
one the cause is PSC's own word and the spoil is confirmed. -/
def endExposure (p : PlateRef) (finding : Option (MarkKind × Nat)) (k : Chip) : Chip :=
  let k1 := condemn .spoiled finding.isNone (freeDraining (endPass k))
  let k2 := reportExposureEnd p k.imc.exposure.exposed k.imc.exposure.holds k1
  let k3 := match finding with
    | some (kind, detail) => imcMark p kind detail .drum k2
    | none => k2
  let k4 := setExposure { k3.imc.exposure with pass := 0, breakRequest := false } k3
  if k4.imc.pauses.any then goTo .paused k4 else goTo .unloadWait k4

/-- Exposure is complete (R161). The UNLOAD that follows is the step UNLOAD_ISSUE (log 11). -/
def exposureComplete (p : PlateRef) (k : Chip) : Chip :=
  let k1 := condemn .exposed false (endPass k)
  let k2 := reportExposureEnd p k.imc.exposure.exposed k.imc.exposure.holds k1
  if k2.imc.pauses.any then goTo .paused k2 else goTo .unloadWait k2

/-- A captured count as a 32-bit detail (R189, R198); a negative one in two's complement: the model's choice (log 70). -/
def countDetail (c : Int) : Nat := (BitVec.ofInt 32 c).toNat

/-- The detail of a reverse count (R189, R198). -/
def reverseDetail : Nat := 0xFFFFFFFF

/-- IMC offers a device fault of kind SLIP: unit 0, no address (R157, R163). -/
def offerSlip (detail : Nat) (k : Chip) : Chip :=
  offerFault { kind := .slip, unit := 0, detail := detail, addr := 0, addrValid := false, domain := 0, isWrite := false } k

/-- A reverse count while EXPOSING (R147 (2), R163). -/
def reverseCount (k : Chip) : Chip :=
  if k.working && decide (k.imc.state = .exposing) then
    match drumPlate k with
    | some p =>
      if k.imc.exposure.begun then endExposure p (some (.slip, reverseDetail)) k else offerSlip reverseDetail k
    | none => offerSlip reverseDetail k
  else k

/-- HF reports an underrun: every channel is dark, no further dot of the pass goes out, and IMC ends exposure (R31 (6), R151, R163). -/
def underrun (k : Chip) : Chip :=
  match drumPlate k with
  | some p => endExposure p (some (.underrun, 0)) k
  | none => endPass k

/-! ### The feed window (R150, R151) -/

/-- The dot due in an open feed window at count A + d goes to the head (R151). The row set that has been sent leaves the prefetch. -/
def feedDot (ps : Pass) (d : Nat) (k : Chip) : Chip :=
  match tblGet ps.prefetch (d / 512) with
  | none => underrun k
  | some data =>
    let k1 := k.setHf { k.hf with laser := if laserPermitted k then column data (d % 512) else 0 }
    if d % 512 = 511 ∨ d + 1 = ps.width then
      hfFetch (k1.setHf { k1.hf with pass := some { ps with prefetch := tblErase ps.prefetch (d / 512) } })
    else k1

/-- What the position count's new value brings in a revolution in which a pass runs: match A opens the window, match B closes it and
ends HF's pass, and between them a dot is due at each count (R150 (3), R151). -/
def feedAtCount (k : Chip) : Chip :=
  match k.hf.pass with
  | none => k
  | some ps =>
    if k.dtu.count = (k.dtu.activeB : Int) then endPass k
    else
      let ps := if k.dtu.count = (k.dtu.activeA : Int) then { ps with window := true } else ps
      if ps.window then
        feedDot ps (k.dtu.count - (k.dtu.activeA : Int)).toNat (k.setHf { k.hf with pass := some ps })
      else k

/-! ### The encoder (R147) -/

/-- How a transition stands to the one before it: the next in forward order, the next in reverse order, or neither (R147). -/
inductive Direction where
  | forward | reverse | neither
  deriving DecidableEq, Repr

/-- The direction of a transition after another: forward order is phase 1 rises, phase 2 rises, phase 1 falls, phase 2 falls (R147). -/
def directionOf : EncoderEdge → EncoderEdge → Direction
  | .phase1Rises, .phase2Rises => .forward
  | .phase2Rises, .phase1Falls => .forward
  | .phase1Falls, .phase2Falls => .forward
  | .phase2Falls, .phase1Rises => .forward
  | .phase2Rises, .phase1Rises => .reverse
  | .phase1Falls, .phase2Rises => .reverse
  | .phase2Falls, .phase1Falls => .reverse
  | .phase1Rises, .phase2Falls => .reverse
  | _, _ => .neither

/-- The position count holds at −32,768 and +65,535 (R147 (4)). -/
def clampCount (c : Int) : Int := if c < -32768 then -32768 else if 65535 < c then 65535 else c

/-- The count rises by one, and HF drives the dot due at the new count (R147, R151). -/
def countUp (k : Chip) : Chip := feedAtCount (k.setDtu { k.dtu with count := clampCount (k.dtu.count + 1) })

/-- The count falls by one, and a reverse count is reported to IMC (R147 (2)). -/
def countDown (k : Chip) : Chip := reverseCount (k.setDtu { k.dtu with count := clampCount (k.dtu.count - 1) })

/-- One transition of an encoder phase, or both at once (R147). The DTU stands still in HALTED. After both at once the transition held before
stays the previous one (log 59, DESIGN CHOICE). -/
def encoderEdge (e : EncoderEdge) (k : Chip) : Chip :=
  if k.pd.runState = .halted ∨ e = .bothChange then k else
    let k1 := k.setDtu { k.dtu with prev := some e }
    match k.dtu.prev with
    | none => k1
    | some q =>
      match directionOf q e with
      | .forward => countUp k1
      | .reverse => countDown k1
      | .neither => if Config.turnCountsUp k.fresh then countUp (drawFresh k1) else countDown (drawFresh k1)

/-! ### The index (R148, R149, R157–R160) -/

/-- A revolution's rating (R149). -/
structure Rating where
  inWindow : Bool
  slip : Bool
  deriving DecidableEq, Repr

/-- The rating of a revolution of period `period` and captured count `c` against the target in force (R149). -/
def rate (rpm period : Nat) (c : Int) (window tolerance : Nat) : Rating :=
  let target := 60000000 / rpm
  { inWindow := decide (((period : Int) - target).natAbs * 100 ≤ target * window)
    slip := decide (tolerance < (c - 32768).natAbs) }

/-- The period P_meas holds at 16,777,215 µs (R148 (1)). -/
def capPeriod (elapsed : Nat) : Nat := min 16777215 elapsed

/-- Whether an index is left unrated: a reference index, target 0, or a LOAD or UNLOAD in work (R148 (4)). -/
def unrated (k : Chip) : Bool :=
  k.dtu.reference || decide (k.imc.drumTarget = 0) || decide (k.imc.state = .loading) || decide (k.imc.state = .unloading)

/-- The rating IMC gets with an index (R148 (4)). -/
def ratingAt (k : Chip) (elapsed : Nat) : Option Rating :=
  if unrated k then none
  else some (rate k.imc.drumTarget (capPeriod elapsed) k.dtu.count k.lay.speedWindow k.lay.slipTolerance)

/-- What the DTU does at an index pulse: capture, clear, load the active pair (R148 (1)–(3)). -/
def captureIndex (k : Chip) (elapsed : Nat) : Chip :=
  k.setDtu { k.dtu with
    captureC := k.dtu.count, capturePeriod := capPeriod elapsed, count := 0
    activeA := k.dtu.bufferedA, activeB := k.dtu.bufferedB, reference := false }

/-- Entry into EXPOSING (R158). -/
def enterExposing (p : PlateRef) (k : Chip) : Chip :=
  let v := profileValues k p.profile
  let k1 := setExposure { Exposure.clear with values := v, settle := k.imc.exposure.settle, entered := true } k
  let k2 := goTo .exposing (k1.setHf { k1.hf with level := v.level, position := 0 })
  tellPsc (.exposingEntry p.slot p.attempt p.prep) k2

/-- The settle count after a rated index (R157). -/
def settleAfter (r : Rating) (count limit : Nat) : Nat :=
  if r.inWindow && !r.slip then min limit (count + 1) else 0

/-- IMC takes an index while SETTLING (R157, R158). -/
def settleIndex (p : PlateRef) (rating : Option Rating) (k : Chip) : Chip :=
  match rating with
  | none => k
  | some r =>
    if r.inWindow && !r.slip then
      if k.imc.exposure.settle = k.lay.settleCount then
        if k.regs.exposeEnable && !profileHeld k p.profile then enterExposing p k else k
      else setExposure { k.imc.exposure with settle := settleAfter r k.imc.exposure.settle k.lay.settleCount } k
    else
      let k1 := setExposure { k.imc.exposure with settle := 0 } k
      if r.slip then offerSlip (countDetail k.dtu.captureC) k1 else k1

/-- The lowest-numbered buffer that is FULL with a band. -/
def fullBuffer (bs : List Buffer) (b : Band) : Option Nat :=
  bs.findIdx? (fun x => decide (x = .full b))

/-- A hold, once exposure has begun: the count rises, and above the hold limit exposure ends (R160). -/
def countHold (p : PlateRef) (outOfWindow : Bool) (k : Chip) : Chip :=
  if k.imc.exposure.begun then
    let k1 := setExposure { k.imc.exposure with holds := k.imc.exposure.holds + 1 } k
    if k.lay.holdLimit < k.imc.exposure.holds + 1 then
      endExposure p (some (if outOfWindow then .speed else .underrun, 1)) k1
    else k1
  else k

/-- Step (4) of R159: the swath's first pass starts when the index is good, EXPOSE_ENABLE is set and the band is FULL. -/
def swathStart (p : PlateRef) (rating : Option Rating) (k : Chip) : Chip :=
  let good := match rating with
    | some r => r.inWindow && !r.slip
    | none => false
  let outOfWindow := match rating with
    | some r => !r.inWindow
    | none => false
  let band : Band := ⟨p.slot, p.attempt, k.imc.exposure.cursor⟩
  if good && k.regs.exposeEnable then
    match fullBuffer k.br.buffers band with
    | some b =>
      let k1 := k.setBr { k.br with buffers := k.br.buffers.set b (.draining band) }
      startPass b (k.format p.format).width (setExposure { k1.imc.exposure with pass := 1, begun := true } k1)
    | none => countHold p outOfWindow k
  else countHold p outOfWindow k

/-- The swath whose last pass an index ends is complete (R159 (3)). -/
def swathComplete (k : Chip) : Chip :=
  let k1 := setExposure { k.imc.exposure with
    exposed := k.imc.exposure.exposed + 1, cursor := k.imc.exposure.cursor + 1, pass := 0 } (freeDraining k)
  k1.setHf { k1.hf with position := k1.hf.position + 1 }

/-- The buffer that is DRAINING. -/
def drainingBuffer (bs : List Buffer) : Option Nat :=
  bs.findIdx? (fun x => match x with
    | .draining _ => true
    | .free => false
    | .filling _ => false
    | .full _ => false)

/-- Steps (3) and (4) of R159. -/
def passStep (p : PlateRef) (rating : Option Rating) (k : Chip) : Chip :=
  let outOfWindow := match rating with
    | some r => !r.inWindow
    | none => false
  if k.imc.exposure.pass = 0 then swathStart p rating k
  else if outOfWindow then endExposure p (some (.speed, 0)) k
  else if k.imc.exposure.pass < k.imc.exposure.values.passes then
    let k1 := setExposure { k.imc.exposure with pass := k.imc.exposure.pass + 1 } k
    match drainingBuffer k.br.buffers with
    | some b => startPass b (k.format p.format).width k1
    | none => k1
  else
    let k1 := swathComplete k
    if k1.imc.exposure.cursor = (k.format p.format).rows / 64 then exposureComplete p k1 else swathStart p rating k1

/-- Whether a break taken at this index finds the swath's last pass ending well, so that the swath still counts (R162, log 28). -/
def swathEndsWell (k : Chip) (rating : Option Rating) : Bool :=
  decide (k.imc.exposure.pass = k.imc.exposure.values.passes) && decide (0 < k.imc.exposure.pass) &&
    (match rating with
      | some r => r.inWindow && !r.slip
      | none => false)

/-- IMC takes an index in EXPOSING after the entry index (R159). -/
def exposeIndex (p : PlateRef) (rating : Option Rating) (k : Chip) : Chip :=
  if k.imc.exposure.breakRequest && k.imc.exposure.begun then
    endExposure p (some (.broken, 0)) (if swathEndsWell k rating then swathComplete k else k)
  else
    let slip := match rating with
      | some r => r.slip
      | none => false
    if slip && k.imc.exposure.begun then endExposure p (some (.slip, countDetail k.dtu.captureC)) k
    else if slip then swathStart p rating (offerSlip (countDetail k.dtu.captureC) k)
    else passStep p rating k

/-- IMC takes the index with its rating (R157–R160); it takes none outside the states in which it works (R170). -/
def imagerIndex (rating : Option Rating) (k : Chip) : Chip :=
  if k.working then
    match drumPlate k with
    | none => k
    | some p =>
      match k.imc.state with
      | .settling => settleIndex p rating k
      | .exposing => exposeIndex p rating k
      | .empty => k
      | .loading => k
      | .blank => k
      | .unloadWait => k
      | .unloading => k
      | .paused => k
  else k

/-- An index pulse (R148): capture, the feed window closes if it is still open (R150 (3)), and IMC takes the rating. With a lead of 0
match A falls on the index itself (log 35). -/
def indexPulse (elapsed : Nat) (k : Chip) : Chip :=
  if k.pd.runState = .halted then k
  else
    let rating := ratingAt k elapsed
    feedAtCount (imagerIndex rating (endPass (captureIndex k elapsed)))

/-! ### Head reports, interlock (R164, R165) -/

/-- A head channel fault report (R164). -/
def channelFault (ch : BitVec 6) (k : Chip) : Chip :=
  if k.working then
    let k1 := darken (k.setImc { k.imc with headFault := some ch })
    let k2 := match drumPlate k with
      | some p =>
        if decide (k.imc.state = .exposing) && k.imc.exposure.begun then endExposure p (some (.channel, ch.toNat)) k1 else k1
      | none => k1
    recordPause .head k2
  else k

/-- The head reports that all 64 channels are clear (R164, R169). -/
def headClear (k : Chip) : Chip := if k.working then k.setImc { k.imc with headFault := none } else k

/-- CONTROL.EXPOSE_ENABLE falls (R165): in EXPOSING reason INTERLOCK is recorded, and a begun exposure ends with mark INTERLOCK. -/
def interlockFall (k : Chip) : Chip :=
  let k0 := darken k
  if k.working && decide (k.imc.state = .exposing) then
    let k1 := match drumPlate k with
      | some p => if k.imc.exposure.begun then endExposure p (some (.interlock, 0)) k0 else k0
      | none => k0
    recordPause .interlock k1
  else k0

/-! ### Withdrawals and PSC's words (R156, R166) -/

/-- Whether a handed plate is this slot and attempt. -/
def PlateRef.isFor (p : PlateRef) (slot attempt : Nat) : Bool := decide (p.slot = slot) && decide (p.attempt = attempt)

/-- The drum plate loses its blank, which stays unassigned, and the imager becomes BLANK (R156 (3)), or PAUSED when a HANDLER reason
recorded in EXPOSING has waited for the imager to leave it (R168). -/
def releaseBlank (d : Drum) (k : Chip) : Chip :=
  afterRequest (setExposure Exposure.clear (setDrum (some { d with owner := none }) k))

/-- A withdrawal that finds the drum plate (R156 (3), (4)). A withdrawal that finds exposure begun spoils the plate without a mark and
without an owner (log 15). -/
def withdrawDrumPlate (d : Drum) (p : PlateRef) (k : Chip) : Chip :=
  if d.cond = .unexposed then
    match k.imc.state with
    | .settling => releaseBlank d k
    | .exposing =>
      if k.imc.exposure.begun then
        let k1 := endExposure p none k
        setDrum (k1.imc.drum.map (fun d => { d with owner := none })) k1
      else releaseBlank d (reportExposureEnd p 0 k.imc.exposure.holds k)
    | .empty => setDrum (some { d with owner := none }) k
    | .loading => setDrum (some { d with owner := none }) k
    | .blank => setDrum (some { d with owner := none }) k
    | .unloadWait => setDrum (some { d with owner := none }) k
    | .unloading => setDrum (some { d with owner := none }) k
    | .paused => setDrum (some { d with owner := none }) k
  else k

/-- PSC tells IMC that a plate is withdrawn (R156). -/
def imcWithdraw (slot attempt : Nat) (k : Chip) : Chip :=
  let k1 := match k.imc.waiting with
    | some w => if w.isFor slot attempt then setWaitingPlate none k else k
    | none => k
  let k2 := match k1.imc.load with
    | some l =>
      match l.plate with
      | some p => if p.isFor slot attempt then k1.setImc { k1.imc with load := some { l with plate := none } } else k1
      | none => k1
    | none => k1
  match k2.imc.drum with
  | some d =>
    match d.owner with
    | some p => if p.isFor slot attempt then withdrawDrumPlate d p k2 else k2
    | none => k2
  | none => k2

/-- The drum plate of a slot and attempt, unless its UNLOAD has already ended done (R166). -/
def drumPlateFor (k : Chip) (slot attempt : Nat) : Option (Drum × PlateRef) :=
  match k.imc.drum with
  | some d =>
    match d.owner with
    | some p => if p.isFor slot attempt && decide (k.hlc.unloadEnd = .none) then some (d, p) else none
    | none => none
  | none => none

/-- PSC's break request (R166). -/
def imcBreak (slot attempt : Nat) (k : Chip) : Chip :=
  match drumPlateFor k slot attempt with
  | none => k
  | some (d, p) =>
    match d.cond with
    | .unexposed =>
      if decide (k.imc.state = .exposing) && k.imc.exposure.begun then
        setExposure { k.imc.exposure with breakRequest := true } k
      else k
    | .exposed =>
      if k.imc.state = .unloading then
        setExposure { k.imc.exposure with deferredBreak := true } (condemn .spoiled false k)
      else imcMark p .broken 0 .drum (condemn .spoiled false k)
    | .spoiled => k

/-- PSC's spoiled or failed word (R166). A word that finds the blank unexposed withdraws it (log 16). -/
def imcSpoilWord (slot attempt : Nat) (k : Chip) : Chip :=
  match drumPlateFor k slot attempt with
  | none => k
  | some (d, p) =>
    match d.cond with
    | .unexposed =>
      if decide (k.imc.state = .exposing) && k.imc.exposure.begun then endExposure p none k
      else withdrawDrumPlate d p k
    | .exposed => condemn .spoiled true k
    | .spoiled => condemn .spoiled true k

/-- A re-snapshot of an IMAGING plate sets the hold count to 0 (R83, R160). -/
def clearHolds (k : Chip) : Chip := setExposure { k.imc.exposure with holds := 0 } k

/-! ### Unloading (R167) -/

/-- Whether the plate on the drum is to go off (R167). -/
def Drum.toGoOff (d : Drum) : Bool :=
  match d.cond, d.owner with
  | .unexposed, _ => false
  | .exposed, _ => true
  | .spoiled, some _ => d.confirmed
  | .spoiled, none => true

/-- UNLOAD_ISSUE (R167). -/
def issueUnload (k : Chip) : Chip :=
  match k.imc.drum with
  | none => k
  | some d =>
    if k.working && d.toGoOff && decide (k.hlc.carriers.length < 4) && k.imc.load.isNone &&
        decide (k.imc.state ≠ .unloading) && !k.imc.pauses.any then
      queueRequest .loader
        { kind := .unload, slot := d.owner.map (·.slot), attempt := (d.owner.map (·.attempt)).getD 0, seq := 0 }
        (goTo .unloading k)
    else k

/-- IMC reports the BREAK mark it had deferred to the end of an UNLOAD (R166, R167). -/
def reportDeferred (place : Place) (k : Chip) : Chip :=
  if k.imc.exposure.deferredBreak then
    match drumPlate k with
    | some p => setExposure { k.imc.exposure with deferredBreak := false } (imcMark p .broken 0 place k)
    | none => k
  else k

/-- An UNLOAD ends FAILED: the drum record is unchanged, and the plate goes off again after RESUME (R167 (2)). -/
def unloadFailed (k : Chip) : Chip :=
  let k1 := reportDeferred .drum (k.setDtu { k.dtu with reference := true })
  if k1.imc.pauses.any then goTo .paused k1 else goTo .unloadWait k1

/-- UNLOAD_END (R167 (1)): IMC takes the end of an UNLOAD that PSC's taking of the carrier report has set free (R183 (3)). -/
def takeUnloadEnd (k : Chip) : Chip :=
  if k.working && decide (k.hlc.unloadEnd = .handed) then
    let k1 := reportDeferred .carrier k
    let k2 := setExposure Exposure.clear (setDrum none k1)
    afterRequest (k2.setHlc { k2.hlc with unloadEnd := .none })
  else k

/-! ### RESUME (R169, R181) -/

/-- HLC releases a HELD unit: READY, silent count 0, the poll timer of a TAKEN request started again (R181). -/
def releaseUnit (pollInterval : Nat) (u : UnitState) : UnitState :=
  match u.hold with
  | none => u
  | some _ =>
    { u with
      hold := none
      silent := 0
      pollTimer := (match u.work with
        | some (_, .taken) => some pollInterval
        | some (_, .sent) => u.pollTimer
        | some (_, .busyWait) => u.pollTimer
        | none => u.pollTimer) }

/-- HLC releases every HELD unit (R181). -/
def releaseUnits (k : Chip) : Chip :=
  k.setHlc { k.hlc with
    loader := releaseUnit (k.unitSettings .loader).pollInterval k.hlc.loader
    punch := releaseUnit (k.unitSettings .punch).pollInterval k.hlc.punch
    processor := releaseUnit (k.unitSettings .processor).pollInterval k.hlc.processor
    sorter := releaseUnit (k.unitSettings .sorter).pollInterval k.hlc.sorter }

/-- The reasons left after a RESUME (R169): SUPPLY always clears, HANDLER after the release, HEAD when the head's last report is all
clear, INTERLOCK when EXPOSE_ENABLE is set. -/
def reasonsAfterResume (k : Chip) : PauseReasons :=
  { supply := false
    handler := false
    head := k.imc.pauses.head && k.imc.headFault.isSome
    interlock := k.imc.pauses.interlock && !k.regs.exposeEnable }

/-- IMC takes a RESUME word (R169, R181). -/
def applyResume (k : Chip) : Chip :=
  let k1 := releaseUnits k
  let k2 := k1.setImc { k1.imc with pauses := reasonsAfterResume k }
  if (reasonsAfterResume k).any then raise .pause k2
  else if k.imc.state = .paused then settleByDrum k2
  else k2

end Sys2Proof.Machine
end

