-- ==== Sys2Proof/Machine/Handler.lean ====
section
/-! DEFINITION. The Handler Line Controller: exchanges, request ends, holds, the carrier list (chapter 9). -/

namespace Sys2Proof.Machine

/-! ### What is due on the line (R173–R176, R187) -/

/-- Whether the run state permits exchanges: STARTING for CLEAR only, RUNNING, STOPPING, STOPPED (R187). -/
def lineActive (k : Chip) : Bool := k.working || (decide (k.pd.runState = .starting) && decide (k.pd.phase = .clears))

/-- A request frame is due: a first sending, or a repeat of the request in work (R173, R174, R176). A HELD unit is sent nothing. -/
def UnitState.requestDue (u : UnitState) : Bool :=
  u.hold.isNone &&
    (match u.work with
      | none => !u.queue.isEmpty
      | some (_, .sent) => u.again
      | some (_, .busyWait) => u.again
      | some (_, .taken) => false)

/-- A poll is due (R175). -/
def UnitState.pollIsDue (u : UnitState) : Bool :=
  u.hold.isNone && u.pollDue &&
    (match u.work with
      | some (_, .taken) => true
      | some (_, .sent) => false
      | some (_, .busyWait) => false
      | none => false)

/-- The units by rising address. -/
def unitsInOrder : List HUnit := [.loader, .punch, .processor, .sorter]

/-- HLC's choice of the next exchange: request frames before polls, the lowest address first (R176). -/
def chooseExchange (h : HandlerLine) : Option Exchange :=
  match unitsInOrder.find? (fun u => (h.unit u).requestDue) with
  | some u => some { unit := u, poll := false }
  | none => (unitsInOrder.find? (fun u => (h.unit u).pollIsDue)).map (fun u => { unit := u, poll := true })

/-- A unit's state as a request frame is sent: a first sending takes the head of the queue and the next sequence number, a repeat keeps
its tag (R171, R174, R176). The number in the tag is the one raised by this sending, so the first after reset is 1 (log 60, DEDUCED). -/
def UnitState.sendRequest (u : UnitState) : UnitState :=
  match u.work with
  | some (r, _) => { u with work := some (r, .sent), again := false }
  | none =>
    match u.queue with
    | [] => u
    | r :: rest =>
      { u with
        queue := rest, seq := (u.seq + 1) % 256, busy := 0, again := false
        work := some ({ r with seq := (u.seq + 1) % 256 }, .sent) }

/-- EXCHANGE_START (R176): the line is free, and the chosen frame is sent. -/
def exchangeStart (k : Chip) : Chip :=
  if lineActive k && k.hlc.line.isNone then
    match chooseExchange k.hlc with
    | none => k
    | some x =>
      let u := k.hlc.unit x.unit
      let k1 := k.setHlc { k.hlc with line := some x }
      k1.setUnit x.unit (if x.poll then { u with pollDue := false } else u.sendRequest)
  else k

/-! ### How a request ends (R178–R180) -/

/-- The ends of a request (R178). -/
inductive RequestEnd where
  | done
  | refused (reason : RefusalReason)
  | faulted (code : FaultCode)
  | timedOut
  | busyLimit
  | silent
  deriving DecidableEq, Repr

/-- A refusal reason as received. -/
def reasonByte : RefusalReason → Byte
  | .empty => Config.emptyCode
  | .other b => b

/-- A fault code as received. -/
def faultByte : FaultCode → Byte
  | .misreg => Config.misregCode
  | .binFull => Config.binFullCode
  | .other b => b

/-- The detail of a HANDLER fault and of marks MISREG and PROCESS: bits 7:0 the reason or code, bits 9:8 its source (R198). -/
def RequestEnd.detail : RequestEnd → Nat
  | .done => 0
  | .refused r => (reasonByte r).toNat
  | .faulted c => 256 + (faultByte c).toNat
  | .busyLimit => 512
  | .timedOut => 768
  | .silent => 0

/-- A unit is held for another cause than OFFLINE: it offers HANDLER and records pause reason HANDLER; a unit already HELD stays as it
is (R178). -/
def holdUnit (u : HUnit) (cause : HoldCause) (detail : Nat) (k : Chip) : Chip :=
  if (k.hlc.unit u).hold.isSome then k
  else
    recordPause .handler
      (offerFault { kind := .handler, unit := unitAddr u, detail := detail, addr := 0, addrValid := false, domain := 0, isWrite := false }
        (k.setUnit u { k.hlc.unit u with hold := some cause }))

/-- The request in work becomes none, and the unit's timers stop (R175, R178). -/
def UnitState.workEnds (u : UnitState) : UnitState :=
  { u with work := none, busy := 0, completion := none, pollTimer := none, again := false, pollDue := false }

/-- A request goes back to the head of its unit's queue (R173, R180). -/
def putBack (u : HUnit) (r : Request) (k : Chip) : Chip := k.setUnit u { k.hlc.unit u with queue := r :: (k.hlc.unit u).queue }

/-! ### Carriers (R183–R186) -/

/-- The place in the carrier list of the oldest carrier at a stage, the one whose request the stage's unit works (log 33). -/
def carrierAt (k : Chip) (st : Stage) : Option (Nat × Carrier) :=
  (k.hlc.carriers.zipIdx.find? (fun e => decide (e.1.stage = st))).map (fun e => (e.2, e.1))

/-- A carrier of the list changed. -/
def setCarrier (n : Nat) (c : Carrier) (k : Chip) : Chip := k.setHlc { k.hlc with carriers := k.hlc.carriers.set n c }

/-- A carrier's request. -/
def carrierRequest (kind : RequestKind) (c : Carrier) : Request := { kind := kind, slot := c.slot, attempt := c.attempt, seq := 0 }

/-- The bin a carrier goes to: its own when good, the reject bin 15 when spoiled (R184). -/
def Carrier.routeBin (c : Carrier) : Nat := if c.spoiled then 15 else c.bin

/-- A carrier's ROUTE stage ends: it leaves the list and is reported to PSC (R186). -/
def removeCarrier (n : Nat) (c : Carrier) (k : Chip) : Chip :=
  tellPsc (.carrierRemoved c.slot c.attempt c.spoiled) (k.setHlc { k.hlc with carriers := k.hlc.carriers.eraseIdx n })

/-- A carrier's stage ends (R184). -/
def stageEnd (st : Stage) (k : Chip) : Chip :=
  match carrierAt k st with
  | none => k
  | some (n, c) =>
    match st with
    | .punch =>
      queueRequest .processor (carrierRequest (.process (!c.spoiled)) c) (setCarrier n { c with stage := .process } k)
    | .process =>
      queueRequest .sorter (carrierRequest (.route c.routeBin) c) (setCarrier n { c with stage := .route } k)
    | .route => removeCarrier n c k

/-- A PUNCH MISREG or PROCESSOR fault makes a carrier spoiled, and marks a good carrier of a slot (R180). -/
def spoilAtStage (st : Stage) (kind : MarkKind) (detail : Nat) (k : Chip) : Chip :=
  match carrierAt k st with
  | none => k
  | some (n, c) =>
    let k1 := setCarrier n { c with spoiled := true } k
    match c.slot with
    | some s =>
      if c.spoiled then k1
      else
        reportMark { slot := s, attempt := c.attempt, kind := kind, location := .none, key := none, detail := detail,
                     place := some .carrier, nosep := none } k1
    | none => k1

/-- The waiting request of a carrier that has become spoiled (R185). -/
def RequestKind.toReject : RequestKind → RequestKind
  | .punch _ => .punch false
  | .process _ => .process false
  | .route _ => .route 15
  | .clear => .clear
  | .load c => .load c
  | .unload => .unload

/-- Waiting requests of a slot and attempt rewritten (R185). -/
def UnitState.rejectWaiting (slot attempt : Nat) (u : UnitState) : UnitState :=
  { u with queue := u.queue.map (fun r => if r.slot = some slot ∧ r.attempt = attempt then { r with kind := r.kind.toReject } else r) }

/-- PSC tells HLC that the carriers of a slot and attempt are spoiled (R185). -/
def spoilCarriers (slot attempt : Nat) (k : Chip) : Chip :=
  if k.hlc.carriers.any (fun c => decide (c.slot = some slot) && decide (c.attempt = attempt) && !c.spoiled) then
    k.setHlc { k.hlc with
      carriers := k.hlc.carriers.map (fun c =>
        if c.slot = some slot ∧ c.attempt = attempt then { c with spoiled := true } else c)
      punch := k.hlc.punch.rejectWaiting slot attempt
      processor := k.hlc.processor.rejectWaiting slot attempt
      sorter := k.hlc.sorter.rejectWaiting slot attempt }
  else k

/-- The effective route bin of a slot's order as PSC holds it (R183). -/
def routeBinOf (k : Chip) (slot : Nat) : Nat :=
  match k.plate slot with
  | some p => p.order.bin
  | none => 15

/-- The carrier that an UNLOAD's DONE makes from the drum record (R183 (1)). -/
def carrierFromDrum (k : Chip) (d : Drum) : Carrier :=
  { slot := d.owner.map (·.slot), attempt := (d.owner.map (·.attempt)).getD 0, spoiled := decide (d.cond ≠ .exposed), stage := .punch,
    bin := (d.owner.map (fun p => routeBinOf k p.slot)).getD 15 }

/-- An UNLOAD ends done: the carrier is made and reported; the end of the UNLOAD waits until PSC has taken the report, and the carrier's
PUNCH request with it (R183, log 12). The next index is a reference index (R148). -/
def unloadDone (k : Chip) : Chip :=
  match k.imc.drum with
  | none => k
  | some d =>
    let c := carrierFromDrum k d
    let k1 := k.setDtu { k.dtu with reference := true }
    tellPsc (.carrierCreated c.slot c.attempt c.spoiled)
      (k1.setHlc { k1.hlc with carriers := k1.hlc.carriers ++ [c], unloadEnd := .heldForPsc })

/-- PSC has taken the carrier report: the UNLOAD's end goes to IMC, and the carrier's PUNCH request joins its queue (R183 (3), (4)). -/
def carrierTaken (k : Chip) : Chip :=
  match k.hlc.carriers.getLast? with
  | none => k
  | some c =>
    queueRequest .punch (carrierRequest (.punch (!c.spoiled)) c) (k.setHlc { k.hlc with unloadEnd := .handed })

/-! ### Outcomes (R179, R180, R182) -/

/-- A CLEAR of STARTING ends: the fourth DONE ends STARTING well, any other end fails check 8 (R8, R9, R182). -/
def clearEnds (u : HUnit) (e : RequestEnd) (k : Chip) : Chip :=
  if e = .done then
    let k1 := k.setHlc { k.hlc with cleared := k.hlc.cleared + 1 }
    if k.hlc.cleared + 1 = 4 then startSucceeded k1 else k1
  else startFailed 8 (unitAddr u) k

/-- The end of a LOADER request (R179). -/
def loaderEnds (r : Request) (e : RequestEnd) (k : Chip) : Chip :=
  match r.kind, e with
  | .unload, .done => unloadDone k
  | .unload, _ => unloadFailed (holdUnit .loader .failure e.detail k)
  | _, .done => loadEnd .done k
  | _, .refused .empty => loadEnd .empty k
  | _, _ => loadEnd .failed (holdUnit .loader .failure e.detail k)

/-- The end of a PUNCH request (R180). -/
def punchEnds (r : Request) (e : RequestEnd) (k : Chip) : Chip :=
  match e with
  | .done => stageEnd .punch k
  | .faulted .misreg => stageEnd .punch (spoilAtStage .punch .misreg e.detail k)
  | _ => holdUnit .punch .failure e.detail (putBack .punch r k)

/-- The end of a PROCESSOR request (R180). That DMR hears of the mark before the fault is the model's choice (log 69). -/
def processorEnds (r : Request) (e : RequestEnd) (k : Chip) : Chip :=
  match e with
  | .done => stageEnd .process k
  | .faulted _ => holdUnit .processor .processFault e.detail (stageEnd .process (spoilAtStage .process .process e.detail k))
  | .timedOut => holdUnit .processor .processFault e.detail (stageEnd .process (spoilAtStage .process .process e.detail k))
  | _ => holdUnit .processor .failure e.detail (putBack .processor r k)

/-- The end of a SORTER request (R180). -/
def sorterEnds (r : Request) (e : RequestEnd) (k : Chip) : Chip :=
  match e with
  | .done => stageEnd .route k
  | .faulted .binFull => holdUnit .sorter .binFull e.detail (putBack .sorter r k)
  | _ => holdUnit .sorter .failure e.detail (putBack .sorter r k)

/-- The request in work of a unit ends (R178). -/
def endRequest (u : HUnit) (r : Request) (e : RequestEnd) (k : Chip) : Chip :=
  let k1 := k.setUnit u (k.hlc.unit u).workEnds
  if r.kind = .clear then clearEnds u e k1
  else
    match u with
    | .loader => loaderEnds r e k1
    | .punch => punchEnds r e k1
    | .processor => processorEnds r e k1
    | .sorter => sorterEnds r e k1

/-! ### Answers (R172, R174, R175) -/

/-- An answer counts when it arrived intact and names the unit asked (R172). -/
def answerValid (f : AnswerFrame) (u : HUnit) : Bool := f.intact && decide (f.addr = unitAddr u)

/-- The line becomes free. -/
def freeLine (k : Chip) : Chip := k.setHlc { k.hlc with line := none }

/-- A request frame was answered TAKEN (R172 (1)). -/
def takenBy (s : UnitSettings) (r : Request) (u : UnitState) : UnitState :=
  { u with
    work := some (r, .taken), silent := 0, busy := 0, completion := some s.timeout, pollTimer := some s.pollInterval
    again := false, pollDue := false }

/-- A request frame's answer is acted upon (R172, R174). -/
def answerRequest (u : HUnit) (r : Request) (a : RequestAnswer) (k : Chip) : Chip :=
  let st := { k.hlc.unit u with silent := 0 }
  match a with
  | .taken => k.setUnit u (takenBy (k.unitSettings u) r st)
  | .busy =>
    if st.busy + 1 < (k.unitSettings u).busyLimit then
      k.setUnit u { st with work := some (r, .busyWait), busy := st.busy + 1, again := false }
    else endRequest u r .busyLimit (k.setUnit u { st with busy := st.busy + 1 })
  | .refused why => endRequest u r (.refused why) (k.setUnit u st)

/-- REQUEST_ANSWER (R172). An answer that is damaged or names another unit is no answer: the window goes on. In HALTED an answer is
received and not acted upon (R187). -/
def requestAnswered (f : AnswerFrame) (a : RequestAnswer) (k : Chip) : Chip :=
  match k.hlc.line with
  | none => k
  | some x =>
    if x.poll || !answerValid f x.unit then k
    else
      let k1 := freeLine k
      if lineActive k then
        match (k.hlc.unit x.unit).work with
        | some (r, .sent) => answerRequest x.unit r a k1
        | some (_, .busyWait) => k1
        | some (_, .taken) => k1
        | none => k1
      else k1

/-- The poll timer starts again at the end of each poll exchange, while the request is still in work (R175). -/
def restartPoll (u : HUnit) (k : Chip) : Chip :=
  match (k.hlc.unit u).work with
  | some (_, .taken) => k.setUnit u { k.hlc.unit u with pollTimer := some (k.unitSettings u).pollInterval }
  | some (_, .sent) => k
  | some (_, .busyWait) => k
  | none => k

/-- Whether a tag is that of a request (R175). -/
def tagMatches (t : ReqTag) (r : Request) : Bool :=
  decide (t.slot = r.slot) && decide (t.attempt = r.attempt) && decide (t.seq = r.seq)

/-- A poll's answer is acted upon (R175). A DONE or FAULT of another tag is stale. -/
def answerPoll (u : HUnit) (a : PollAnswer) (k : Chip) : Chip :=
  match (k.hlc.unit u).work, a with
  | some (r, .taken), .done t => if tagMatches t r then endRequest u r .done k else k
  | some (r, .taken), .fault t c => if tagMatches t r then endRequest u r (.faulted c) k else k
  | _, _ => k

/-- POLL_ANSWER (R175). -/
def pollAnswered (f : AnswerFrame) (a : PollAnswer) (k : Chip) : Chip :=
  match k.hlc.line with
  | none => k
  | some x =>
    if !x.poll || !answerValid f x.unit then k
    else
      let k1 := freeLine k
      if lineActive k then answerPoll x.unit a (restartPoll x.unit (k1.setUnit x.unit { k1.hlc.unit x.unit with silent := 0 }))
      else k1

/-! ### Silence, expiries (R173–R175, R177) -/

/-- The frame that had no answer is due again (R173). -/
def UnitState.repeatFrame (u : UnitState) (poll : Bool) : UnitState := if poll then { u with pollDue := true } else { u with again := true }

/-- A unit goes OFFLINE: it is HELD with that cause, also when a request end has held it already, kind OFFLINE is offered and HANDLER
recorded (R173). The poll timer of a TAKEN request stops, and the release starts it again (R175, R181, log 61, DEDUCED). -/
def holdOffline (u : HUnit) (k : Chip) : Chip :=
  recordPause .handler
    (offerFault { kind := .offline, unit := unitAddr u, detail := 0, addr := 0, addrValid := false, domain := 0, isWrite := false }
      (k.setUnit u { k.hlc.unit u with hold := some .offline, pollTimer := none, pollDue := false, again := false }))

/-- What happens to the request in work of a unit gone OFFLINE (R173). -/
def offlineWork (u : HUnit) (k : Chip) : Chip :=
  match (k.hlc.unit u).work with
  | none => k
  | some (_, .taken) => k
  | some (r, _) =>
    if u = .loader then endRequest u r .silent k else putBack u r (k.setUnit u (k.hlc.unit u).workEnds)

/-- The third exchange in a row without an answer. -/
def goOffline (u : HUnit) (k : Chip) : Chip :=
  if k.pd.runState = .starting then startFailed 8 (unitAddr u) k else offlineWork u (holdOffline u k)

/-- ANSWER_WINDOW_EXPIRY (R173). -/
def windowExpires (k : Chip) : Chip :=
  match k.hlc.line with
  | none => k
  | some x =>
    let k1 := freeLine k
    if lineActive k then
      let u := k1.hlc.unit x.unit
      let k2 := k1.setUnit x.unit { u with silent := min 3 (u.silent + 1) }
      if u.silent + 1 < 3 then
        let k3 := if x.poll then restartPoll x.unit k2 else k2
        k3.setUnit x.unit ((k3.hlc.unit x.unit).repeatFrame x.poll)
      else goOffline x.unit k2
    else k1

/-- BUSY_RETRY_EXPIRY (R174): the request answered BUSY is due again. -/
def busyRetryExpires (u : HUnit) (k : Chip) : Chip :=
  if lineActive k then
    match (k.hlc.unit u).work with
    | some (_, .busyWait) => k.setUnit u { k.hlc.unit u with again := true }
    | some (_, .sent) => k
    | some (_, .taken) => k
    | none => k
  else k

/-- POLL_TIMER_EXPIRY (R175): a poll of a READY unit with a TAKEN request is due. -/
def pollTimerExpires (u : HUnit) (k : Chip) : Chip :=
  let st := k.hlc.unit u
  if lineActive k && st.pollTimer.isSome && st.hold.isNone then
    match st.work with
    | some (_, .taken) => k.setUnit u { st with pollTimer := none, pollDue := true }
    | some (_, .sent) => k
    | some (_, .busyWait) => k
    | none => k
  else k

/-- The mark of a request that ASSUME_DONE ends, for a request with a slot (R177 (2)). -/
def timeoutMark (u : HUnit) (r : Request) (k : Chip) : Chip :=
  match r.slot with
  | some s =>
    reportMark { slot := s, attempt := r.attempt, kind := .timeout, location := .none, key := none, detail := unitAddr u,
                 place := some .carrier, nosep := none } k
  | none => k

/-- COMPLETION_TIMEOUT (R177): the completion timer of a TAKEN request expires, also while the unit is HELD. A CLEAR fails STARTING
under either policy (R182). -/
def completionExpires (u : HUnit) (k : Chip) : Chip :=
  let st := k.hlc.unit u
  if lineActive k && st.completion.isSome then
    match st.work with
    | some (r, .taken) =>
      if (k.unitSettings u).policy = .assumeDone ∧ r.kind ≠ .clear then endRequest u r .done (timeoutMark u r k)
      else endRequest u r .timedOut k
    | some (_, .sent) => k
    | some (_, .busyWait) => k
    | none => k
  else k

end Sys2Proof.Machine
end

