-- ==== Sys2Proof/Machine/Operands.lean ====
section
/-! DEFINITION. What the host's bytes and words say: post words (R19), the CRC-32 (R47), fragments (R43–R46). -/

namespace Sys2Proof.Machine

/-! ### Post words (R19) -/

/-- A post word that passes PD's check. -/
inductive PostWord where
  | fragment (cell : Nat)
  | order (slot : Nat)
  | breakWord (slot : Nat) (flag : BreakFlag)
  | release (slot : Nat)
  | seen (slot : Nat)
  | drop (key : PageKey)
  | table (id : TableId)
  | resume
  | fenceFlush
  deriving DecidableEq, Repr

/-- Bits hi–lo of a post word as a number. -/
def field (w : Word) (lo len : Nat) : Nat := w.toNat / 2 ^ lo % 2 ^ len

/-- The on-chip table of a kind code and index, when the TABLE word names one (R19). -/
def tableIdOf (kind index : Nat) : Option TableId :=
  match kind with
  | 0 => if index < 16 then some ⟨.curve, index⟩ else none
  | 1 => if index < 8 then some ⟨.screen, index⟩ else none
  | 2 => if index < 8 then some ⟨.screenSet, index⟩ else none
  | 3 => if index < 16 then some ⟨.profile, index⟩ else none
  | 4 => if index = 0 then some ⟨.power, 0⟩ else none
  | _ => none

/-- A slot argument: bits 8:0, below the slot count, no other argument bit set. -/
def slotArg (w : Word) (slotCount : Nat) : Option Nat :=
  if field w 9 19 = 0 ∧ field w 0 9 < slotCount then some (field w 0 9) else none

/-- A BREAK word's slot and flag: slot in bits 8:0, flag in bit 27. -/
def breakArg (w : Word) (slotCount : Nat) : Option (Nat × BreakFlag) :=
  if field w 9 18 = 0 ∧ field w 0 9 < slotCount then
    some (field w 0 9, if field w 27 1 = 1 then .cancel else .requeue)
  else none

/-- The word that PD checks, none when it is dropped with POST_BAD (R19). -/
def decodePostWord (w : Word) (cellCount slotCount : Nat) : Option PostWord :=
  match field w 28 4 with
  | 1 => if field w 12 16 = 0 ∧ field w 0 12 < cellCount then some (.fragment (field w 0 12)) else none
  | 2 => (slotArg w slotCount).map .order
  | 3 => (breakArg w slotCount).map (fun a => .breakWord a.1 a.2)
  | 4 => (slotArg w slotCount).map .release
  | 5 => (slotArg w slotCount).map .seen
  | 6 =>
    if field w 18 10 = 0 ∧ field w 6 8 ≠ 0 then some (.drop ⟨field w 14 4, field w 6 8, field w 0 6⟩) else none
  | 7 => if field w 7 21 = 0 then (tableIdOf (field w 4 3) (field w 0 4)).map .table else none
  | 8 => if field w 0 28 = 0 then some .resume else none
  | 9 => if field w 0 28 = 0 then some .fenceFlush else none
  | _ => none

/-- The word that the host posts for a post word (R19): kind in bits 31:28, argument fields below it. -/
def postWordBits : PostWord → Word
  | .fragment c => BitVec.ofNat 32 (0x10000000 + c)
  | .order n => BitVec.ofNat 32 (0x20000000 + n)
  | .breakWord n .requeue => BitVec.ofNat 32 (0x30000000 + n)
  | .breakWord n .cancel => BitVec.ofNat 32 (0x38000000 + n)
  | .release n => BitVec.ofNat 32 (0x40000000 + n)
  | .seen n => BitVec.ofNat 32 (0x50000000 + n)
  | .drop key => BitVec.ofNat 32 (0x60000000 + 16384 * key.book + 64 * key.page + key.zone)
  | .table id => BitVec.ofNat 32 (0x70000000 + 16 * id.kind.code + id.idx)
  | .resume => 0x80000000#32
  | .fenceFlush => 0x90000000#32

/-- The legal values of a post word's argument fields (R19). -/
def PostWord.legal (cellCount slotCount : Nat) : PostWord → Bool
  | .fragment c => decide (c < cellCount)
  | .order n => decide (n < slotCount)
  | .breakWord n _ => decide (n < slotCount)
  | .release n => decide (n < slotCount)
  | .seen n => decide (n < slotCount)
  | .drop key => decide (key.book ≤ 15) && decide (1 ≤ key.page) && decide (key.page ≤ 255) && decide (key.zone ≤ 63)
  | .table id => decide (tableIdOf id.kind.code id.idx = some id)
  | .resume => true
  | .fenceFlush => true

/-! ### CRC-32 (R47) -/

/-- One shift of the CRC register. -/
def crcShift (r : Word) : Word := if r.getLsbD 0 then (r >>> 1) ^^^ 0xEDB88320#32 else r >>> 1

/-- One byte taken into the CRC register. -/
def crcByte (r : Word) (b : Byte) : Word :=
  crcShift (crcShift (crcShift (crcShift (crcShift (crcShift (crcShift (crcShift (r ^^^ b.setWidth 32))))))))

/-- The CRC-32 of a byte string. -/
def crc32 (bs : List Byte) : Word := ~~~(bs.foldl crcByte 0xFFFFFFFF#32)

/-- `n` bytes of a string from offset `i`. -/
def span (b : List Byte) (i n : Nat) : List Byte := (b.drop i).take n

/-- A four-byte field as a word. -/
def wordAt (b : List Byte) (i : Nat) : Word := BitVec.ofNat 32 (u32 b i)

/-- A three-byte page key. -/
def keyAt (b : List Byte) (i : Nat) : PageKey := ⟨u8 b i, u8 b (i + 1), u8 b (i + 2)⟩

/-- Whether a key lies in its ranges (00_scope.md 4.3). -/
def keyInRange (k : PageKey) : Bool := decide (k.book ≤ 15) && decide (k.page ≠ 0) && decide (k.zone ≤ 63)

/-! ### The fragment header (R43) -/

/-- The header stage's check of the 16-byte header. -/
def checkHeader (b : List Byte) : Except Rejection FragHeader :=
  let key := keyAt b 4
  let version := u16 b 8
  let h : FragHeader := { key := key, kind := u8 b 7, version := version, sep := u8 b 0x0A, len := u32 b 0x0C }
  if u32 b 0 = 0x00640F01 ∧ keyInRange key = true ∧ (h.kind = 1 ∨ h.kind = 2 ∨ h.kind = 3) ∧ version ≠ 0 ∧ h.sep ≤ 3 ∧
      u8 b 0x0B = 0 ∧ 1 ≤ h.len ∧ h.len ≤ 65520 then .ok h
  else .error (.malformedHeader (if keyInRange key && decide (version ≠ 0) then some (key, version) else none))

/-! ### MANIFEST (R44) -/

/-- Whether a strip lies in one of the ranges, first to last inclusive. -/
def inRanges (ranges : List (Nat × Nat)) (k : Nat) : Bool := ranges.any (fun r => decide (r.1 ≤ k) && decide (k ≤ r.2))

/-- The manifest's fields. -/
def manifestAt (b : List Byte) : Manifest :=
  { derived := decide (u8 b 0x10 = 2)
    seps := BitVec.ofNat 4 (u8 b 0x11)
    rows := u16 b 0x12
    dots := u16 b 0x14
    patchCounts := [u8 b 0x16, u8 b 0x17, u8 b 0x18, u8 b 0x19]
    base := keyAt b 0x1A
    ranges := (List.range (min 8 (u8 b 0x1D))).map (fun i => (u16 b (0x20 + 4 * i), u16 b (0x22 + 4 * i)))
    raw := span b 0x10 48 }

/-- Step (3) for every manifest. -/
def manifestFieldsGood (b : List Byte) (m : Manifest) : Bool :=
  (decide (u8 b 0x10 = 1) || decide (u8 b 0x10 = 2)) &&
  decide (64 ≤ m.rows) && decide (m.rows ≤ 49152) && decide (m.rows % 64 = 0) &&
  decide (64 ≤ m.dots) && decide (m.dots ≤ 32768) &&
  decide (u8 b 0x11 ≠ 0) && decide (u8 b 0x11 < 16) &&
  (List.range 4).all (fun x => decide (m.patchCounts.getD x 0 ≤ 32) && (m.seps.getLsbD x || decide (m.patchCounts.getD x 0 = 0)))

/-- Step (3) for a FULL manifest. -/
def fullManifestGood (b : List Byte) : Bool :=
  decide (u8 b 0x1D = 0) && (span b 0x1A 3).all (fun x => decide (x = 0)) && (span b 0x20 32).all (fun x => decide (x = 0))

/-- Step (3) for a DERIVED manifest of a page. -/
def derivedManifestGood (b : List Byte) (own : PageKey) (m : Manifest) : Bool :=
  decide (1 ≤ u8 b 0x1D) && decide (u8 b 0x1D ≤ 8) && keyInRange m.base && decide (m.base ≠ own) &&
  m.ranges.all (fun r => decide (r.1 ≤ r.2) && decide (r.2 < m.rows / 64)) &&
  (span b (0x20 + 4 * u8 b 0x1D) (32 - 4 * u8 b 0x1D)).all (fun x => decide (x = 0))

/-- Steps (2) and (3) once the whole body has been read. -/
def manifestChecked (h : FragHeader) (b : List Byte) : Verdict :=
  let m := manifestAt b
  if crc32 (span b 0x10 48) ≠ wordAt b 0x40 then .reject .crc
  else if manifestFieldsGood b m && (if m.derived then derivedManifestGood b h.key m else fullManifestGood b) then
    .content (.manifest m)
  else .reject .malformed

/-- The body stage of a MANIFEST. Step (1), the length, needs no body byte. -/
def manifestVerdict (h : FragHeader) (b : List Byte) : Option Verdict :=
  if h.len ≠ 52 then some (.reject .malformed)
  else if b.length < 68 then none
  else some (manifestChecked h b)

/-! ### STRIPS (R45) -/

/-- The strip body lengths that a STRIPS body lists. -/
def stripLens (b : List Byte) (n : Nat) : List Nat := (List.range n).map (fun i => u32 b (0x14 + 8 * i))

/-- The copies of a well-framed STRIPS fragment, each with the outcome of its own CRC: strip f + i has its body at cell offset
14h + 8n plus the lengths before it. -/
def stripCopies (cell f : Nat) (b : List Byte) : Nat → Nat → List Nat → List StripCopy
  | _, _, [] => []
  | i, off, len :: rest =>
    let crc := wordAt b (0x18 + 8 * i)
    { k := f + i, ref := { cell := cell, off := off, len := len, crc := crc }, sound := decide (crc32 (span b off len) = crc) } ::
      stripCopies cell f b (i + 1) (off + len) rest

/-- The body stage of a STRIPS fragment: framing as soon as its bytes are there, the strips when the last body byte is. -/
def stripsVerdict (cell : Nat) (h : FragHeader) (b : List Byte) : Option Verdict :=
  if h.len < 4 then some (.reject .malformed)
  else if b.length < 20 then none
  else
    let f := u16 b 0x10
    let n := u16 b 0x12
    if n = 0 ∨ 64 < n ∨ 768 ≤ f + n - 1 ∨ h.len < 4 + 8 * n then some (.reject .malformed)
    else if b.length < 20 + 8 * n then none
    else
      let lens := stripLens b n
      if lens.any (fun l => decide (l = 0)) ∨ h.len ≠ 4 + 8 * n + lens.sum then some (.reject .malformed)
      else if b.length < 16 + h.len then none
      else some (.content (.strips h.sep (stripCopies cell f b 0 (0x14 + 8 * n) lens)))

/-! ### PATCH (R46) -/

/-- The framing and fields of a PATCH body. -/
def patchFieldsGood (h : FragHeader) (b : List Byte) : Bool :=
  decide (u8 b 0x10 ≤ 31) && (decide (u8 b 0x11 = 1) || decide (u8 b 0x11 = 2)) && [1, 2, 4, 8, 16].contains (u8 b 0x12) &&
  decide (u8 b 0x13 = 0) && decide (1 ≤ u16 b 0x18) && decide (u16 b 0x18 ≤ 1024) && decide (1 ≤ u16 b 0x1A) &&
  decide (u16 b 0x1A ≤ 1024) && decide (u32 b 0x1C ≠ 0) && decide (h.len = 20 + u32 b 0x1C)

/-- The reference and data of the patch. -/
def patchRefAt (cell : Nat) (b : List Byte) : PatchRef :=
  { mode := u8 b 0x11, scale := u8 b 0x12, cell := cell, off := 0x24, len := u32 b 0x1C, crc := wordAt b 0x20,
    row0 := u16 b 0x14, dot0 := u16 b 0x16, w := u16 b 0x18, h := u16 b 0x1A }

/-- The body stage of a PATCH fragment. -/
def patchVerdict (cell : Nat) (h : FragHeader) (b : List Byte) : Option Verdict :=
  if h.len < 20 then some (.reject .malformed)
  else if b.length < 36 then none
  else if patchFieldsGood h b then
    if b.length < 16 + h.len then none
    else
      some (.content (.patch h.sep (u8 b 0x10) (patchRefAt cell b) (decide (crc32 (span b 0x24 (u32 b 0x1C)) = wordAt b 0x20))))
  else some (.reject .malformed)

/-- What the body bytes read so far decide, none while more are needed (R53). -/
def bodyVerdict (cell : Nat) (h : FragHeader) (b : List Byte) : Option Verdict :=
  if h.kind = 1 then manifestVerdict h b
  else if h.kind = 2 then stripsVerdict cell h b
  else patchVerdict cell h b

end Sys2Proof.Machine
end

