-- ==== Sys2Proof/Machine/Intake.lean ====
section
/-! DEFINITION. The Intake Unit: the parse, the page directory, versions, pins, DROP (chapters 3 and 4). -/

namespace Sys2Proof.Machine

/-! ### Records (R58–R63) -/

/-- The index of strip entry (x, k) (R61). -/
def stripIndex (x k : Nat) : Nat := 768 * x + k

/-- The index of patch entry (x, p) (R61). -/
def patchIndex (x p : Nat) : Nat := 32 * x + p

/-- Whether a strip lies inside the manifest (R58). -/
def stripInside (m : Manifest) (x k : Nat) : Bool :=
  m.seps.getLsbD x && decide (k < m.rows / 64) && (!m.derived || inRanges m.ranges k)

/-- Whether a patch lies inside the manifest (R58). -/
def patchInside (m : Manifest) (x p : Nat) : Bool := m.seps.getLsbD x && decide (p < m.patchCounts.getD x 0)

/-- Whether a strip entry is PRESENT. -/
def StripEntry.isPresent : StripEntry → Bool
  | .present _ => true
  | .bad => false

/-- Whether a patch entry is PRESENT. -/
def PatchEntry.isPresent : PatchEntry → Bool
  | .present _ => true
  | .bad => false

/-- Whether some entry of the record is BAD. -/
def PageRecord.anyBad (r : PageRecord) : Bool :=
  r.strips.any (fun e => !e.2.isPresent) || r.patches.any (fun e => !e.2.isPresent)

/-- Whether strip (x, k) is PRESENT. -/
def PageRecord.stripPresent (r : PageRecord) (x k : Nat) : Bool :=
  match tblGet r.strips (stripIndex x k) with
  | some (.present _) => true
  | some .bad => false
  | none => false

/-- Whether patch (x, p) is PRESENT. -/
def PageRecord.patchPresent (r : PageRecord) (x p : Nat) : Bool :=
  match tblGet r.patches (patchIndex x p) with
  | some (.present _) => true
  | some .bad => false
  | none => false

/-- Whether every required item of a record with manifest m is PRESENT (R62). -/
def PageRecord.allPresent (r : PageRecord) (m : Manifest) : Bool :=
  (List.range 4).all (fun x => !m.seps.getLsbD x ||
    ((List.range (m.rows / 64)).all (fun k => !stripInside m x k || r.stripPresent x k) &&
      (List.range (m.patchCounts.getD x 0)).all (fun p => r.patchPresent x p)))

/-- The state that R62 gives to a record that is ASSEMBLING, DAMAGED or COMPLETE. -/
def PageRecord.stateByEntries (r : PageRecord) : PageState :=
  if r.anyBad || r.baseFlag then .damaged
  else
    match r.manifest with
    | some m => if r.allPresent m then .complete else .assembling
    | none => .assembling

/-- The record with its state evaluated; SUPERSEDED stays (R62). -/
def PageRecord.evaluated (r : PageRecord) : PageRecord :=
  if r.state = .superseded then r else { r with state := r.stateByEntries }

/-- One note more of a kind, stopping at 255 (R63 (3)). -/
def Notes.add (n : Notes) : NoteKind → Notes
  | .malformed => { n with malformed := sat255 (n.malformed + 1) }
  | .stale => { n with stale := sat255 (n.stale + 1) }
  | .conflict => { n with conflict := sat255 (n.conflict + 1) }
  | .crc => { n with crc := sat255 (n.crc + 1) }
  | .fence => { n with fence := sat255 (n.fence + 1) }
  | .decode => { n with decode := sat255 (n.decode + 1) }

/-- A record under judgement, and whether a page mark (a note count rise or a flag setting) has come up (R63). -/
structure Judged where
  r : PageRecord
  mark : Bool
  deriving DecidableEq, Repr

/-- A note is counted in the record. -/
def Judged.note (j : Judged) (n : NoteKind) : Judged := { r := { j.r with notes := j.r.notes.add n }, mark := true }

/-- Whether a patch reaches past the page (R60). -/
def patchPastPage (m : Manifest) (p : PatchRef) : Bool :=
  decide (m.rows < p.row0 + p.h * p.scale) || decide (m.dots < p.dot0 + p.w * p.scale)

/-- CLIPPED is evaluated (R60); once set it stays. -/
def Judged.clip (j : Judged) : Judged :=
  match j.r.manifest with
  | none => j
  | some m =>
    if !j.r.clipped && j.r.patches.any (fun e => match e.2 with
        | .present p => patchPastPage m p
        | .bad => false) then
      { r := { j.r with clipped := true }, mark := true }
    else j

/-! ### Applying content (R57–R59) -/

/-- A strip copy is judged against its entry (R57, R58). -/
def judgeStrip (x : Nat) (c : StripCopy) (j : Judged) : Judged :=
  let outside := match j.r.manifest with
    | some m => !stripInside m x c.k
    | none => false
  let i := stripIndex x c.k
  if outside then j.note .malformed
  else
    match tblGet j.r.strips i with
    | some (.present old) =>
      if !c.sound then j.note .crc else if old.crc = c.ref.crc then j else j.note .conflict
    | some .bad =>
      if c.sound then { j with r := { j.r with strips := tblPut j.r.strips i (.present c.ref) } } else j.note .crc
    | none =>
      if c.sound then { j with r := { j.r with strips := tblPut j.r.strips i (.present c.ref) } }
      else ({ j with r := { j.r with strips := tblPut j.r.strips i .bad } } : Judged).note .crc

/-- Whether a patch copy equals the stored copy (R57). -/
def samePatch (a b : PatchRef) : Bool :=
  decide (a.crc = b.crc) && decide (a.row0 = b.row0) && decide (a.dot0 = b.dot0) && decide (a.w = b.w) && decide (a.h = b.h) &&
    decide (a.scale = b.scale) && decide (a.mode = b.mode)

/-- A patch copy is judged against its entry (R57, R58). -/
def judgePatch (x p : Nat) (c : PatchRef) (sound : Bool) (j : Judged) : Judged :=
  let outside := match j.r.manifest with
    | some m => !patchInside m x p
    | none => false
  let i := patchIndex x p
  if outside then j.note .malformed
  else
    match tblGet j.r.patches i with
    | some (.present old) => if !sound then j.note .crc else if samePatch old c then j else j.note .conflict
    | some .bad => if sound then { j with r := { j.r with patches := tblPut j.r.patches i (.present c) } } else j.note .crc
    | none =>
      if sound then { j with r := { j.r with patches := tblPut j.r.patches i (.present c) } }
      else ({ j with r := { j.r with patches := tblPut j.r.patches i .bad } } : Judged).note .crc

/-- One MALFORMED note for each of n items. -/
def noteMalformed : Nat → Judged → Judged
  | 0, j => j
  | n + 1, j => noteMalformed n (j.note .malformed)

/-- The first manifest: it is copied, and every entry outside it is made ABSENT with one MALFORMED each (R59 (1)). -/
def firstManifest (m : Manifest) (j : Judged) : Judged :=
  let strips := j.r.strips.filter (fun e => stripInside m (e.1 / 768) (e.1 % 768))
  let patches := j.r.patches.filter (fun e => patchInside m (e.1 / 32) (e.1 % 32))
  noteMalformed ((j.r.strips.length - strips.length) + (j.r.patches.length - patches.length))
    { j with r := { j.r with manifest := some m, strips := strips, patches := patches } }

/-- A MANIFEST is applied (R59). -/
def judgeManifest (m : Manifest) (j : Judged) : Judged :=
  match j.r.manifest with
  | none => firstManifest m j
  | some old => if old.raw = m.raw then j else j.note .conflict

/-- The content of a fragment is applied to its record, with CLIPPED, the state and the last fragment time (R55 (2), (3)). -/
def applyContent (c : Content) (clock : Word) (r : PageRecord) : Judged :=
  let j0 : Judged := ⟨r, false⟩
  let j1 := match c with
    | .manifest m => judgeManifest m j0
    | .strips x copies => copies.foldl (fun j s => judgeStrip x s j) j0
    | .patch x p ref sound => judgePatch x p ref sound j0
  let j2 := j1.clip
  { j2 with r := { j2.r with lastTime := clock }.evaluated }

/-! ### Bytes of a record (R61) -/

/-- The state byte of a page record (R61). -/
def PageState.code : PageState → Nat
  | .assembling => 1
  | .damaged => 2
  | .complete => 3
  | .superseded => 4

/-- The number of entries of separation x that satisfy a test, for tables with `per` entries a separation. -/
def countOf {α : Type} (t : List (Nat × α)) (per x : Nat) (f : α → Bool) : Nat :=
  (t.filter (fun e => decide (e.1 / per = x) && f e.2)).length

/-- The present count of a separation (R63 (1)). -/
def PageRecord.presentCount (r : PageRecord) (x : Nat) : Nat :=
  countOf r.strips 768 x StripEntry.isPresent + countOf r.patches 32 x PatchEntry.isPresent

/-- The bad count of a separation (R63 (1)). -/
def PageRecord.badCount (r : PageRecord) (x : Nat) : Nat :=
  countOf r.strips 768 x (fun e => !e.isPresent) + countOf r.patches 32 x (fun e => !e.isPresent)

/-- The lowest strip number that is BAD in any separation, or FFFFh (R63 (2)). -/
def PageRecord.firstBad (r : PageRecord) : Nat :=
  r.strips.foldl (fun m e => if e.2.isPresent then m else min m (e.1 % 768)) 0xFFFF

/-- Bytes of up to eight own ranges, the rest 0. -/
def rangeBytes (rs : List (Nat × Nat)) : List Byte :=
  rs.flatMap (fun r => le 2 r.1 ++ le 2 r.2) ++ List.replicate (32 - 4 * rs.length) 0

/-- The manifest of a record without one, for the header's fields: kind 0 and zeros. -/
def noManifest : Manifest :=
  { derived := false, seps := 0, rows := 0, dots := 0, patchCounts := [0, 0, 0, 0], base := ⟨0, 0, 0⟩, ranges := [], raw := [] }

/-- The kind byte of a page record: 0 no manifest, 1 FULL, 2 DERIVED. -/
def kindCode : Option Manifest → Nat
  | none => 0
  | some m => if m.derived then 2 else 1

/-- Bytes 0000h–005Fh of a page record (R61, log 7). -/
def headerBytes (r : PageRecord) : List Byte :=
  let m := r.manifest.getD noManifest
  le 1 r.state.code ++ le 1 (kindCode r.manifest) ++
    le 1 (bit r.clipped + 2 * bit r.dropped + 4 * bit r.baseFlag) ++ le 1 m.seps.toNat ++ keyBytes r.key ++
    le 1 m.ranges.length ++ le 2 r.version ++ le 2 m.rows ++ le 2 m.dots ++ le 2 r.firstBad ++
    (if m.derived then keyBytes m.base else noKeyBytes) ++ le 1 r.pins ++ m.patchCounts.flatMap (le 1) ++
    (List.range 4).flatMap (fun x => le 2 (r.presentCount x)) ++ (List.range 4).flatMap (fun x => le 2 (r.badCount x)) ++
    le 1 r.notes.malformed ++ le 1 r.notes.stale ++ le 1 r.notes.conflict ++ le 1 r.notes.crc ++ le 1 r.notes.fence ++
    le 1 r.notes.decode ++ le 2 0 ++ le 4 r.firstTime.toNat ++ le 4 r.lastTime.toNat ++ le 4 0 ++ le 4 0 ++ rangeBytes m.ranges

/-- The header of a RETIRED record: every field cleared (R64, log 29). -/
def retiredHeader : List Byte := List.replicate 96 0

/-- The 16 bytes of a strip entry (R61). -/
def stripEntryBytes : Option StripEntry → List Byte
  | none => List.replicate 16 0
  | some .bad => le 1 2 ++ List.replicate 15 0
  | some (.present r) => le 1 1 ++ le 1 0 ++ le 2 r.cell ++ le 2 r.off ++ le 2 0 ++ le 4 r.len ++ le 4 r.crc.toNat

/-- The 32 bytes of a patch entry (R61). -/
def patchEntryBytes : Option PatchEntry → List Byte
  | none => List.replicate 32 0
  | some .bad => le 1 2 ++ List.replicate 31 0
  | some (.present r) =>
    le 1 1 ++ le 1 r.mode ++ le 1 r.scale ++ le 1 0 ++ le 2 r.cell ++ le 2 r.off ++ le 4 r.len ++ le 4 r.crc.toNat ++
      le 2 r.row0 ++ le 2 r.dot0 ++ le 2 r.w ++ le 2 r.h ++ List.replicate 8 0

/-- The indexes at which two tables differ: those of the new table, then those only the old one has. -/
def changedIndexes {α : Type} [DecidableEq α] (old new : List (Nat × α)) : List Nat :=
  ((new.filter (fun e => decide (tblGet old e.1 ≠ some e.2))).map (·.1)) ++
    ((old.filter (fun e => (tblGet new e.1).isNone)).map (·.1))

/-- The writes of changed entries of a record (R55 (4)), strip entries first (log 53). -/
def entryWrites (addr : Nat) (old new : PageRecord) : List Transfer :=
  (changedIndexes old.strips new.strips).map
      (fun i => iuWrite (addr + 0x4000 + 16 * i) (stripEntryBytes (tblGet new.strips i)) []) ++
    (changedIndexes old.patches new.patches).map
      (fun i => iuWrite (addr + 0x1000 + 32 * i) (patchEntryBytes (tblGet new.patches i)) [])

/-- The writes of a newly founded record but for its header: the rest of the header page, both tables, and the gap between (R56, log 7). -/
def foundingWrites (addr : Nat) (new : PageRecord) : List Transfer :=
  [iuWrite (addr + 0x60) (List.replicate 0xFA0 0) [],
   iuWrite (addr + 0x1000) ((List.range 128).flatMap (fun i => patchEntryBytes (tblGet new.patches i))) [],
   iuWrite (addr + 0x2000) (List.replicate 4096 0) [],
   iuWrite (addr + 0x3000) (List.replicate 4096 0) []] ++
    (List.range 12).map (fun j =>
      iuWrite (addr + 0x4000 + 4096 * j)
        ((List.range 256).flatMap (fun i => stripEntryBytes (tblGet new.strips (256 * j + i)))) [])

/-! ### Use counts and cells (R50) -/

/-- The cells that a record's PRESENT entries name, once for each. -/
def PageRecord.cells (r : PageRecord) : List Nat :=
  (r.strips.filterMap (fun e => match e.2 with
      | .present p => some p.cell
      | .bad => none)) ++
    (r.patches.filterMap (fun e => match e.2 with
      | .present p => some p.cell
      | .bad => none))

/-- The use counts of a directory: for each cell the number of PRESENT entries that name it (R50). -/
def useCountsOf (dir : List (Nat × PageRecord)) : List (Nat × Nat) :=
  (dir.flatMap (fun e => e.2.cells)).foldl (fun t c => tblPut t c ((tblGet t c).getD 0 + 1)) []

/-- The Intake Unit with another directory; the use counts follow the entries (R50). -/
def IntakeUnit.setDir (u : IntakeUnit) (dir : List (Nat × PageRecord)) : IntakeUnit :=
  { u with dir := dir, useCounts := useCountsOf dir }

/-- Whether a cell stands in the input queue or is being parsed. -/
def IntakeUnit.cellBusy (u : IntakeUnit) (c : Nat) : Bool :=
  u.queue.contains (.fragment c) ||
    (match u.parse with
      | some p => decide (p.cell = c)
      | none => false)

/-- Whether a held cell is to be released (R50). -/
def IntakeUnit.releasable (u : IntakeUnit) (c : Nat) : Bool :=
  u.holdMap.getLsbD c && !u.cellBusy c && (tblGet u.useCounts c).isNone

/-- Hold bits of cells cleared. -/
def clearCells (u : IntakeUnit) (cs : List Nat) : IntakeUnit :=
  { u with holdMap := cs.foldl (fun m c => mapSet m c false) u.holdMap }

/-- A list without repeats, the first of equal entries standing. -/
def distinct (l : List Nat) : List Nat := l.foldl (fun a x => if a.contains x then a else a ++ [x]) []

/-- The writes of the cell hold map bytes that hold some cells' bits (R5). -/
def cellMapWrites (mapBase : Nat) (m : BitVec 4096) (cs : List Nat) : List Transfer :=
  (distinct (cs.map (· / 8))).map (fun i => iuWrite (mapBase + i) [mapByte m i] [])

/-! ### Events of the directory (R55 (4)–(6), R70) -/

/-- An event under way: the unit, the records whose header is to be written in order, the state changes, whether a page mark came up,
and the record founded. -/
structure IuEvent where
  u : IntakeUnit
  headers : List Nat
  reports : List PageReport
  pages : Bool
  founded : Option Nat
  deriving DecidableEq, Repr

/-- An event at its beginning. -/
def IuEvent.start (u : IntakeUnit) : IuEvent := ⟨u, [], [], false, none⟩

/-- IU's report of a record's state (R70). -/
def reportOf (i : Nat) (r : PageRecord) (st : Option PageState) : PageReport :=
  { idx := i, key := r.key, version := r.version, state := st
    kind := match r.manifest with
      | some m => if m.derived then .derived else .full
      | none => .none
    base := match r.manifest with
      | some m => if m.derived then some m.base else none
      | none => none
    again := decide (st = some .complete) && r.wasComplete }

/-- A record changes: its header is written, and a state change is reported and is a page change (R62, R70). One event writes a header once,
with its last contents, however often the event changes it or an unpin request names it (R73, log 54, DESIGN CHOICE); its place among the
headers is that of its first change (log 53). -/
def IuEvent.put (e : IuEvent) (i : Nat) (r : PageRecord) : IuEvent :=
  let changed := match tblGet e.u.dir i with
    | some old => decide (old.state ≠ r.state)
    | none => true
  { e with
    u := e.u.setDir (tblPut e.u.dir i { r with wasComplete := r.wasComplete || decide (r.state = .complete) })
    headers := if e.headers.contains i then e.headers else e.headers ++ [i]
    reports := if changed then e.reports ++ [reportOf i r (some r.state)] else e.reports
    pages := e.pages || changed }

/-- A record changes with a page mark. -/
def IuEvent.putMarked (e : IuEvent) (i : Nat) (j : Judged) : IuEvent :=
  { e.put i j.r with pages := (e.put i j.r).pages || j.mark }

/-- A record is retired (R64). -/
def IuEvent.retire (e : IuEvent) (i : Nat) : IuEvent :=
  match tblGet e.u.dir i with
  | none => e
  | some r =>
    { e with
      u := e.u.setDir (tblErase e.u.dir i)
      headers := if e.headers.contains i then e.headers else e.headers ++ [i]
      reports := e.reports ++ [reportOf i r none]
      pages := true }

/-- Retired when unpinned, SUPERSEDED otherwise (R56, R68). -/
def IuEvent.displace (e : IuEvent) (i : Nat) : IuEvent :=
  match tblGet e.u.dir i with
  | none => e
  | some r => if r.pins = 0 then e.retire i else e.put i { r with state := .superseded }

/-- The record numbers of a key with a further test. -/
def recordsOf (dir : List (Nat × PageRecord)) (key : PageKey) (f : PageRecord → Bool) : List Nat :=
  (dir.filter (fun e => decide (e.2.key = key) && f e.2)).map (·.1)

/-- Succession to the record that has become COMPLETE (R68). -/
def IuEvent.succession (e : IuEvent) (key : PageKey) (version : Nat) : IuEvent :=
  (recordsOf e.u.dir key (fun r => decide (r.version < version) && decide (r.state ≠ .superseded))).foldl
    IuEvent.displace e

/-- Equal geometry: rows, dots and separation set (R71 (d), R74). -/
def sameGeometry (a b : Manifest) : Bool :=
  decide (a.rows = b.rows) && decide (a.dots = b.dots) && decide (a.seps = b.seps)

/-- Whether a flagged record is bound to a base of this key and manifest that now fits it (R74). -/
def baseFits (base : PageKey) (m : Manifest) (r : PageRecord) : Bool :=
  r.baseFlag && !m.derived &&
    (match r.manifest with
      | some d => d.derived && decide (d.base = base) && sameGeometry d m
      | none => false)

/-- The BASE flag of one record is cleared; it may become COMPLETE, and succession applies to it (R74). -/
def IuEvent.clearBase (e : IuEvent) (i : Nat) : IuEvent :=
  match tblGet e.u.dir i with
  | none => e
  | some r =>
    let r' := { r with baseFlag := false }.evaluated
    let e1 := e.put i r'
    if decide (r'.state = .complete) && decide (r.state ≠ .complete) then e1.succession r.key r.version else e1

/-- What follows when record i has become COMPLETE: succession, then the BASE flags bound to its key (R68, R74). -/
def IuEvent.completed (e : IuEvent) (i : Nat) : IuEvent :=
  match tblGet e.u.dir i with
  | none => e
  | some r =>
    let e1 := e.succession r.key r.version
    match r.manifest with
    | none => e1
    | some m =>
      ((e1.u.dir.filter (fun x => baseFits r.key m x.2)).map (·.1)).foldl IuEvent.clearBase e1

/-- A note in a record (R54). -/
def IuEvent.note (e : IuEvent) (i : Nat) (n : NoteKind) : IuEvent :=
  match tblGet e.u.dir i with
  | none => e
  | some r => e.putMarked i ((⟨r, false⟩ : Judged).note n)

/-- A note in a record that may not exist. -/
def IuEvent.noteIf (e : IuEvent) (i : Option Nat) (n : NoteKind) : IuEvent :=
  match i with
  | some i => e.note i n
  | none => e

/-- The writes of an event to the page records: the changed entries first, those of a record that it retires among them, then headers, the
last of them followed by the alert and the reports in the order of the headers (R55, R61, R64, R70, R75). The rules give the entries before
the headers and no order among either: the order is the model's, that in which the event changed the records (log 53, DESIGN CHOICE). -/
def recordWrites (k : Chip) (e : IuEvent) : List Transfer :=
  let entries := e.headers.flatMap (fun i =>
    match tblGet e.u.dir i with
    | none =>
      match tblGet k.iu.dir i with
      | none => []
      | some old => entryWrites (k.pageAddr i) old { old with strips := [], patches := [] }
    | some r =>
      if e.founded = some i then foundingWrites (k.pageAddr i) r
      else
        match tblGet k.iu.dir i with
        | none => []
        | some old => entryWrites (k.pageAddr i) old r)
  let headers := e.headers.map (fun i =>
    iuWrite (k.pageAddr i) ((tblGet e.u.dir i).map headerBytes |>.getD retiredHeader) [])
  let notices := (if e.pages then [Notice.alert .pages] else []) ++
    (e.headers.flatMap (fun i => e.reports.filter (fun r => decide (r.idx = i)))).map Notice.page
  entries ++ withLastNotices notices headers

/-- The cells that an event releases: those it brought to a use count of 0, and the parsed cell (R50). Their order, and with it that of
the map writes, is the model's choice (log 66). -/
def releasedCells (k : Chip) (e : IuEvent) (parsed : Option Nat) : List Nat :=
  (distinct ((k.iu.useCounts.map (·.1)) ++ parsed.toList)).filter e.u.releasable

/-- An event ends: the directory stands, its writes are issued, and ALERT.CELLS (with ALERT.PAGES for DIRFULL) follows the map writes.
At a parse end or DROP (`settle`) IU takes its next word when the last write has completed (R49, R50, R55, R75). -/
def finishEvent (e : IuEvent) (parsed : Option Nat) (dirfull settle : Bool) (k : Chip) : Chip :=
  let cells := releasedCells k e parsed
  let u := clearCells e.u cells
  let maps := withLastNotices (Notice.alert .cells :: (if dirfull then [Notice.alert .pages] else []))
    (cellMapWrites k.lay.mapBase u.holdMap cells)
  let writes := recordWrites k e ++ maps
  if settle && !writes.isEmpty then
    issueAll (withLastNotices [.iuIdle] writes) (k.setIu { u with settling := true })
  else issueAll writes (k.setIu u)

/-! ### FRAGMENT, DROP words, the parse (R48–R56) -/

/-- IU takes a word for its input queue when the queue holds fewer than 4,160 words (R20, R49). -/
def iuHasRoom (k : Chip) : Bool := decide (k.iu.queue.length < 4160)

/-- IU takes a FRAGMENT word (R48). -/
def takeFragment (cell : Nat) (k : Chip) : Chip :=
  if k.iu.holdMap.getLsbD cell then raise .postBad k
  else
    let m := mapSet k.iu.holdMap cell true
    issueAll (cellMapWrites k.lay.mapBase m [cell])
      (k.setIu { k.iu with holdMap := m, queue := k.iu.queue ++ [.fragment cell] })

/-- IU takes a DROP word (R49). -/
def takeDrop (key : PageKey) (k : Chip) : Chip := k.setIu { k.iu with queue := k.iu.queue ++ [.drop key] }

/-- A read of a cell during a parse (R32, R53). -/
def parseRead (k : Chip) (cell off len : Nat) : Transfer :=
  { client := .iu, stream := some .iuRead, addr := k.cellAddr cell + off, op := .read len, purpose := .parse, notices := [] }

/-- PARSE_BEGIN (R49, R51): IU, idle, takes the FRAGMENT word at the head of its queue and reads the header. -/
def parseBegin (k : Chip) : Chip :=
  if k.working && k.iu.parse.isNone && !k.iu.settling then
    match k.iu.queue with
    | .fragment c :: rest =>
      issue (parseRead k c 0 16)
        (k.setIu { k.iu with
          queue := rest
          parse := some { cell := c, bytes := [], header := none, matching := none, verdict := none } })
    | .drop _ :: _ => k
    | [] => k
  else k

/-- The highest version among a key's records that are not RETIRED. -/
def highestVersion (dir : List (Nat × PageRecord)) (key : PageKey) : Option Nat :=
  (dir.filter (fun e => decide (e.2.key = key))).foldl (fun m e => some (max (m.getD 0) e.2.version)) none

/-- The record of a key with the highest version. -/
def newestRecord (dir : List (Nat × PageRecord)) (key : PageKey) : Option Nat :=
  match highestVersion dir key with
  | none => none
  | some v => (recordsOf dir key (fun r => decide (r.version = v))).head?

/-- The record of a key and version that is not RETIRED, a DROPPED one included (R54). -/
def recordNamed (dir : List (Nat × PageRecord)) (key : PageKey) (version : Nat) : Option Nat :=
  (recordsOf dir key (fun r => decide (r.version = version))).head?

/-- The drop floor of a key (R76). -/
def floorOf : List (PageKey × Nat) → PageKey → Option Nat
  | [], _ => none
  | (q, v) :: t, key => if q = key then some v else floorOf t key

/-- How a header matches the directory (R52); none is STALE. -/
def matchHeader (u : IntakeUnit) (h : FragHeader) : Option MatchCase :=
  match (recordsOf u.dir h.key (fun r => decide (r.version = h.version) && !r.dropped)).head? with
  | some i => some (.matched i)
  | none =>
    if (highestVersion u.dir h.key).any (fun v => decide (h.version ≤ v)) ||
        (floorOf u.floors h.key).any (fun v => decide (h.version ≤ v)) then none
    else some .founds

/-- The parse with what its bytes so far say: header stage, match, body stage (R51–R53). -/
def parseStep (u : IntakeUnit) (p : Parse) : Parse :=
  match p.header with
  | none =>
    match checkHeader p.bytes with
    | .error why => { p with verdict := some (.reject why) }
    | .ok h =>
      match matchHeader u h with
      | none => { p with header := some h, verdict := some (.reject .stale) }
      | some m => { p with header := some h, matching := some m, verdict := bodyVerdict p.cell h p.bytes }
  | some h => { p with verdict := bodyVerdict p.cell h p.bytes }

/-- Bytes of the cell arrive: they are checked, and the next bytes are read unless the parse has come to its end (R53). -/
def parseArrives (data : List Byte) (k : Chip) : Chip :=
  match k.iu.parse with
  | none => k
  | some p =>
    let p' := parseStep k.iu { p with bytes := p.bytes ++ data }
    let k1 := k.setIu { k.iu with parse := some p' }
    match p'.verdict, p'.header with
    | none, some h =>
      issue (parseRead k p'.cell p'.bytes.length (min (4096 - p'.bytes.length % 4096) (16 + h.len - p'.bytes.length))) k1
    | none, none => k1
    | some _, _ => k1

/-- A record as founded (R56 (3)). -/
def foundedRecord (h : FragHeader) (clock : Word) : PageRecord :=
  { state := .assembling, key := h.key, version := h.version, manifest := none, clipped := false, dropped := false,
    baseFlag := false, pins := 0, notes := Notes.zero, firstTime := clock, lastTime := clock, strips := [], patches := [],
    wasComplete := false }

/-- Whether a record is ASSEMBLING or DAMAGED. -/
def PageRecord.unfinished (r : PageRecord) : Bool := decide (r.state = .assembling) || decide (r.state = .damaged)

/-- The lowest-numbered RETIRED record. -/
def lowestRetired (dir : List (Nat × PageRecord)) : Option Nat :=
  (List.range 1024).find? (fun i => (tblGet dir i).isNone)

/-- A record is taken for a new version: succession takes the older unfinished records out of service, the lowest RETIRED record is set
up, and the key's drop floor is removed (R56, R76); none is DIRFULL. -/
def found (h : FragHeader) (u : IntakeUnit) : Option (IuEvent × Nat) :=
  let e := (recordsOf u.dir h.key PageRecord.unfinished).foldl IuEvent.displace (IuEvent.start u)
  match lowestRetired e.u.dir with
  | none => none
  | some i =>
    let e1 : IuEvent := { e with u := { e.u with floors := e.u.floors.filter (fun f => decide (f.1 ≠ h.key)) } }
    some ({ e1 with founded := some i }, i)

/-- The event in which a content is applied to a record in the directory (R55 (2), (3)). -/
def applyTo (i : Nat) (c : Content) (clock : Word) (e : IuEvent) : IuEvent :=
  match tblGet e.u.dir i with
  | none => e
  | some r =>
    let j := applyContent c clock r
    let e1 := e.putMarked i j
    if decide (j.r.state = .complete) && decide (r.state ≠ .complete) then e1.completed i else e1

/-- The event in which a content founds record i: the new record is reported in the state it is evaluated to (R56, R62). -/
def applyFounding (i : Nat) (h : FragHeader) (c : Content) (clock : Word) (e : IuEvent) : IuEvent :=
  let j := applyContent c clock (foundedRecord h clock)
  let e1 := e.putMarked i j
  if j.r.state = .complete then e1.completed i else e1

/-- The parse end, with the directory as it stands (R54, R55). A fragment rejected by its body keeps that finding when its matched record
was retired meanwhile (R65): the model's choice (log 65). -/
def parseEnd (k : Chip) : Chip :=
  match k.iu.parse with
  | none => k
  | some p =>
    match p.verdict with
    | none => k
    | some v =>
      if k.working then
        let u := { k.iu with parse := none }
        let e := IuEvent.start u
        let clock := k.regs.plantClock
        let rejected (e : IuEvent) : Chip := finishEvent e (some p.cell) false true k
        match v, p.header, p.matching with
        | .reject (.malformedHeader (some (key, version))), _, _ =>
          rejected (e.noteIf (recordNamed u.dir key version) .malformed)
        | .reject (.malformedHeader none), _, _ => rejected e
        | .reject .malformed, some h, _ => rejected (e.noteIf (recordNamed u.dir h.key h.version) .malformed)
        | .reject .crc, some _, some (.matched i) => rejected (e.note i .crc)
        | .reject .crc, _, _ => rejected e
        | .reject .stale, some h, _ => rejected (e.noteIf (newestRecord u.dir h.key) .stale)
        | .content c, some h, some (.matched i) =>
          if (tblGet u.dir i).isNone then rejected (e.noteIf (newestRecord u.dir h.key) .stale)
          else finishEvent (applyTo i c clock e) (some p.cell) false true k
        | .content c, some h, some .founds =>
          match found h u with
          | none => finishEvent e (some p.cell) true true k
          | some (e1, i) => finishEvent (applyFounding i h c clock e1) (some p.cell) false true k
        | .reject .malformed, none, _ => rejected e
        | .reject .stale, none, _ => rejected e
        | .content _, none, _ => rejected e
        | .content _, some _, none => rejected e
      else k

/-- An IU-read refusal ends the parse at once: FENCE is counted in the record that the header names, and the cell is released (R40). -/
def parseFenced (k : Chip) : Chip :=
  match k.iu.parse with
  | none => k
  | some p =>
    let e := IuEvent.start { k.iu with parse := none }
    let e1 := match p.header with
      | some h => e.noteIf (recordNamed k.iu.dir h.key h.version) .fence
      | none => e
    finishEvent e1 (some p.cell) false true k

/-! ### DROP (R75, R76) -/

/-- A floor in the table raised, keeping its place. -/
def raiseFloor (t : List (PageKey × Nat)) (key : PageKey) (v : Nat) : List (PageKey × Nat) :=
  t.map (fun f => if f.1 = key then (f.1, max f.2 v) else f)

/-- The drop floor table after a DROP (R76). -/
def recordFloor (t : List (PageKey × Nat)) (key : PageKey) (highest : Option Nat) : List (PageKey × Nat) :=
  match highest with
  | none => t
  | some v =>
    if (floorOf t key).isSome then raiseFloor t key v
    else (if t.length < 64 then t else t.drop 1) ++ [(key, v)]

/-- One record of a dropped key (R75). -/
def IuEvent.dropOne (e : IuEvent) (i : Nat) : IuEvent :=
  match tblGet e.u.dir i with
  | none => e
  | some r =>
    if r.pins = 0 then e.retire i
    else if r.state = .superseded ∧ r.dropped = true then e
    else e.putMarked i ⟨{ r with state := .superseded, dropped := true }, true⟩

/-- DROP_APPLY (R49, R75): IU, idle, takes the DROP word at the head of its queue and applies it in one step. -/
def dropApply (k : Chip) : Chip :=
  if k.working && k.iu.parse.isNone && !k.iu.settling then
    match k.iu.queue with
    | .drop key :: rest =>
      let u := { k.iu with queue := rest, floors := recordFloor k.iu.floors key (highestVersion k.iu.dir key) }
      finishEvent ((recordsOf u.dir key (fun _ => true)).foldl IuEvent.dropOne (IuEvent.start u)) none false true k
    | .fragment _ :: _ => k
    | [] => k
  else k

/-! ### Readiness, snapshots, pins (R71–R73, R79) -/

/-- How IU resolves a position (R71, R79). NOSEP names the COMPLETE record and its version; MISMATCH the derived record. -/
inductive Resolved where
  | ready (s : PosSnap)
  | notComplete
  | nosep (idx version : Nat)
  | mismatch (idx : Nat)
  deriving DecidableEq, Repr

/-- The COMPLETE record of a key. -/
def completeOf (dir : List (Nat × PageRecord)) (key : PageKey) : Option (Nat × PageRecord) :=
  dir.find? (fun e => decide (e.2.key = key) && decide (e.2.state = .complete))

/-- Checks (a) to (d) of R71 for one position key and separation. -/
def resolvePosition (dir : List (Nat × PageRecord)) (key : PageKey) (sep : Nat) : Resolved :=
  match completeOf dir key with
  | none => .notComplete
  | some (i, r) =>
    match r.manifest with
    | none => .notComplete
    | some m =>
      if !m.seps.getLsbD sep then .nosep i r.version
      else if !m.derived then .ready { idx := i, version := r.version, base := none }
      else
        match completeOf dir m.base with
        | none => .notComplete
        | some (bi, b) =>
          match b.manifest with
          | none => .notComplete
          | some bm =>
            if bm.derived || !sameGeometry bm m then .mismatch i
            else .ready { idx := i, version := r.version, base := some (bi, b.version, m.base) }

/-- IU's answer to a snapshot request (R71). -/
inductive SnapAnswer where
  | pinned (snapshot : List PosSnap)
  | notReady
  | nosep (position idx version : Nat)
  | base (position : Nat) (key : PageKey)
  deriving DecidableEq, Repr

/-- The first position that fails decides the answer; otherwise every position's record (R71). BASE gives the derived record to flag. -/
def resolveAll (dir : List (Nat × PageRecord)) (sep : Nat) : Nat → List Position → Except (SnapAnswer × Option Nat) (List PosSnap)
  | _, [] => .ok []
  | n, p :: ps =>
    match resolvePosition dir p.key sep with
    | .notComplete => .error (.notReady, none)
    | .nosep i v => .error (.nosep n i v, none)
    | .mismatch i => .error (.base n p.key, some i)
    | .ready s => (resolveAll dir sep (n + 1) ps).map (fun rest => s :: rest)

/-- The records a snapshot names, once for each pin (R71, R73). -/
def pinnedRecords (snap : List PosSnap) : List Nat :=
  snap.flatMap (fun s => s.idx :: (match s.base with
    | some (b, _, _) => [b]
    | none => []))

/-- One pin more on a record. -/
def IuEvent.pin (e : IuEvent) (i : Nat) : IuEvent :=
  match tblGet e.u.dir i with
  | none => e
  | some r => e.put i { r with pins := r.pins + 1 }

/-- One pin less on a record; a SUPERSEDED record that falls to 0 is retired, and a record already at 0 is left (R73). -/
def IuEvent.unpin (e : IuEvent) (i : Nat) : IuEvent :=
  match tblGet e.u.dir i with
  | none => e
  | some r =>
    if r.pins = 0 then e
    else if r.pins = 1 ∧ r.state = .superseded then e.retire i
    else e.put i { r with pins := r.pins - 1 }

/-- The BASE flag is set on the derived record that failed check (d) (R72). -/
def IuEvent.flagBase (e : IuEvent) (i : Nat) : IuEvent :=
  match tblGet e.u.dir i with
  | none => e
  | some r => e.putMarked i ⟨{ r with baseFlag := true }.evaluated, true⟩

/-- IU takes a snapshot request (R71, R72). -/
def snapshotRequest (sep : Nat) (positions : List Position) (k : Chip) : SnapAnswer × Chip :=
  match resolveAll k.iu.dir sep 0 positions with
  | .ok snap => (.pinned snap, finishEvent ((pinnedRecords snap).foldl IuEvent.pin (IuEvent.start k.iu)) none false false k)
  | .error (a, some i) => (a, finishEvent ((IuEvent.start k.iu).flagBase i) none false false k)
  | .error (a, none) => (a, k)

/-- IU takes an unpin request (R73). -/
def unpinRequest (snap : List PosSnap) (k : Chip) : Chip :=
  finishEvent ((pinnedRecords snap).foldl IuEvent.unpin (IuEvent.start k.iu)) none false false k

/-! ### Damage reports (R66) -/

/-- The record with the strip made BAD, when its entry is PRESENT and references that cell and offset. -/
def spoilStrip (r : PageRecord) (x n cell off : Nat) : Option PageRecord :=
  match tblGet r.strips (stripIndex x n) with
  | some (.present p) =>
    if p.cell = cell ∧ p.off = off then some { r with strips := tblPut r.strips (stripIndex x n) .bad } else none
  | some .bad => none
  | none => none

/-- The record with the patch made BAD, when its entry is PRESENT and references that cell and offset. -/
def spoilPatch (r : PageRecord) (x n cell off : Nat) : Option PageRecord :=
  match tblGet r.patches (patchIndex x n) with
  | some (.present p) =>
    if p.cell = cell ∧ p.off = off then some { r with patches := tblPut r.patches (patchIndex x n) .bad } else none
  | some .bad => none
  | none => none

/-- BR's damage report on a record's strip or patch, naming the cell and offset it decoded from (R66). A stale report leaves the record. -/
def damageReport (idx : Nat) (patch : Bool) (x n cell off : Nat) (k : Chip) : Chip :=
  match tblGet k.iu.dir idx with
  | none => k
  | some r =>
    match (if patch then spoilPatch r x n cell off else spoilStrip r x n cell off) with
    | none => k
    | some r' =>
      let j := (⟨r', false⟩ : Judged).note .decode
      finishEvent ((IuEvent.start k.iu).putMarked idx { j with r := j.r.evaluated }) none false false k

end Sys2Proof.Machine
end

