-- ==== Sys2Proof/Machine/Codecs.lean ====
section
/-! DEFINITION. The line codec and the patch codec (R124–R126), and the rendering of a row set (R112, R122, R123). -/

namespace Sys2Proof.Machine

/-- How decoding stands: finished, failed, or in need of bytes that have not been read yet. -/
inductive DecodeEnd where
  | complete | failed | more
  deriving DecidableEq, Repr

/-! ### Line codec (R124, R125) -/

/-- A run joins the row under way. The row ends when its sum is the page dots; none when the run passes them. -/
def addRun (dots : Nat) (cur : List Nat) (n : Nat) : Option (Bool × List Nat) :=
  if dots < cur.sum + n then none else some (decide (cur.sum + n = dots), cur ++ [n])

/-- The line decoder on the bytes read so far: `rows` are the rows decoded, `cur` the runs of the row under way. A row is its run
lengths, white first; BLANK is one white run. -/
def lineDecode (dots : Nat) : List Byte → List (List Nat) → List Nat → List (List Nat) × DecodeEnd
  | [], rows, _ => if rows.length = 64 then (rows, .complete) else (rows, .more)
  | b :: rest, rows, cur =>
    if rows.length = 64 then (rows, .failed)
    else if b.toNat < 0x80 then
      match addRun dots cur b.toNat with
      | none => (rows, .failed)
      | some (true, r) => lineDecode dots rest (rows ++ [r]) []
      | some (false, r) => lineDecode dots rest rows r
    else if b.toNat < 0xC0 then
      match rest with
      | [] => (rows, .more)
      | c :: rest' =>
        match addRun dots cur ((b.toNat - 0x80) * 256 + c.toNat) with
        | none => (rows, .failed)
        | some (true, r) => lineDecode dots rest' (rows ++ [r]) []
        | some (false, r) => lineDecode dots rest' rows r
    else if b.toNat < 0xE0 then
      match rest with
      | [] => (rows, .more)
      | [_] => (rows, .more)
      | c :: d :: rest' =>
        match addRun dots cur ((b.toNat - 0xC0) * 65536 + c.toNat * 256 + d.toNat) with
        | none => (rows, .failed)
        | some (true, r) => lineDecode dots rest' (rows ++ [r]) []
        | some (false, r) => lineDecode dots rest' rows r
    else if b = 0xE0 then
      match cur, rows.getLast? with
      | [], some r => lineDecode dots rest (rows ++ [r]) []
      | [], none => (rows, .failed)
      | _ :: _, _ => (rows, .failed)
    else if b = 0xE1 then
      match cur with
      | [] => lineDecode dots rest (rows ++ [[dots]]) []
      | _ :: _ => (rows, .failed)
    else (rows, .failed)

/-- How a strip body of a given length decodes with `bytes` of it read (R125). -/
def decodeStrip (dots len : Nat) (bytes : List Byte) : List (List Nat) × DecodeEnd :=
  let (rows, st) := lineDecode dots bytes [] []
  match st with
  | .failed => (rows, .failed)
  | .complete => (rows, if bytes.length < len then .failed else .complete)
  | .more => (rows, if bytes.length < len then .more else .failed)

/-- The bit at dot x of a row of runs, beginning with white; past the runs it is 0. -/
def runBit : List Nat → Bool → Nat → Bool
  | [], _, _ => false
  | n :: rest, colour, x => if x < n then colour else runBit rest (!colour) (x - n)

/-- A run in its shortest code (R124): 00h–7Fh, 80h–BFh with one byte more, C0h–DFh with two. -/
def runCode (n : Nat) : List Byte :=
  if n < 128 then [BitVec.ofNat 8 n]
  else if n < 16384 then [BitVec.ofNat 8 (0x80 + n / 256), BitVec.ofNat 8 n]
  else [BitVec.ofNat 8 (0xC0 + n / 65536), BitVec.ofNat 8 (n / 256), BitVec.ofNat 8 n]

/-- The runs of rows, one after another, in their shortest codes (R124). -/
def lineEncode (rows : List (List Nat)) : List Byte := rows.flatMap (fun r => r.flatMap runCode)

/-- A row of runs that ends where its sum reaches the page dots and not before, each run within 21 bits (R124). -/
def rowLegal (dots : Nat) (row : List Nat) : Bool :=
  decide (row ≠ []) && decide (row.sum = dots) && decide (row.dropLast.sum < dots) && row.all (fun n => decide (n < 2097152))

/-! ### Patch codec (R126) -/

/-- The patch decoder with fuel, up to `need` rows of w pixels: the rows decoded and the bytes left. -/
def patchDecodeAux (w need : Nat) : Nat → List Byte → List (List Byte) → List Byte → List (List Byte) × DecodeEnd × List Byte
  | 0, bs, rows, _ => (rows, .more, bs)
  | f + 1, bs, rows, cur =>
    if rows.length = need then (rows, .complete, bs)
    else
      match bs with
      | [] => (rows, .more, [])
      | n :: rest =>
        let (count, pixels, left, short) :=
          if n.toNat < 0x80 then
            (n.toNat + 1, rest.take (n.toNat + 1), rest.drop (n.toNat + 1), decide (rest.length < n.toNat + 1))
          else (n.toNat - 0x7F, List.replicate (n.toNat - 0x7F) (rest.headD 0), rest.drop 1, rest.isEmpty)
        if w < cur.length + count then (rows, .failed, left)
        else if short then (rows, .more, [])
        else if cur.length + count = w then patchDecodeAux w need f left (rows ++ [cur ++ pixels]) []
        else patchDecodeAux w need f left rows (cur ++ pixels)

/-- How a patch image of h rows and a given length decodes up to a last row needed, with `bytes` of it read. Remaining bytes are looked
for only when row h − 1 is needed (R126 (2), (3)); that every row keeps its pixels then is the model's choice (log 67). -/
def decodePatch (w h lastRow len : Nat) (bytes : List Byte) : List (List Byte) × DecodeEnd :=
  let (rows, st, left) := patchDecodeAux w (lastRow + 1) (bytes.length + 1) bytes [] []
  match st with
  | .failed => (rows, .failed)
  | .more => (rows, if bytes.length < len then .more else .failed)
  | .complete =>
    if lastRow + 1 = h ∧ (!left.isEmpty ∨ bytes.length < len) then (rows, .failed) else (rows, .complete)

/-- A code of a patch image (R126): a literal run of pixel values, or one pixel value n times. -/
inductive PatchCode where
  | literal (pixels : List Byte)
  | run (n : Nat) (v : Byte)
  deriving DecidableEq, Repr

/-- The pixels that a code stands for. -/
def PatchCode.pixels : PatchCode → List Byte
  | .literal l => l
  | .run n v => List.replicate n v

/-- The bytes of a code (R126): 00h–7Fh and the pixels, or 80h–FFh and the pixel value. -/
def PatchCode.bytes : PatchCode → List Byte
  | .literal l => BitVec.ofNat 8 (l.length - 1) :: l
  | .run n v => [BitVec.ofNat 8 (n + 0x7F), v]

/-- The pixels of a row of codes. -/
def patchRow (row : List PatchCode) : List Byte := row.flatMap PatchCode.pixels

/-- A row of w pixels in codes of 1 to 128 pixels each (R126). -/
def patchRowLegal (w : Nat) (row : List PatchCode) : Bool :=
  decide (row ≠ []) && decide ((patchRow row).length = w) &&
    row.all (fun c => decide (1 ≤ c.pixels.length) && decide (c.pixels.length ≤ 128))

/-- The bytes of rows of codes, one after another (R126). -/
def patchEncode (rows : List (List PatchCode)) : List Byte := rows.flatMap (fun r => r.flatMap PatchCode.bytes)

/-! ### One dot (R122, R123) -/

/-- Whether a patch covers dot (r, x) of the page (R123 (1)). -/
def patchCovers (s : PatchSource) (r x : Nat) : Bool :=
  decide (s.row0 ≤ r) && decide (r < s.row0 + s.h * s.scale) && decide (s.dot0 ≤ x) && decide (x < s.dot0 + s.w * s.scale)

/-- The pixel of a patch for dot (r, x), when its row has been decoded (R123 (2)). -/
def patchPixel (s : PatchSource) (rows : List (List Byte)) (r x : Nat) : Option Nat :=
  (rows[(r - s.row0) / s.scale]?).map (fun row => (row.getD ((x - s.dot0) / s.scale) 0).toNat)

/-- KNOCKOUT replaces the result, OVERPRINT adds to it (R123 (3)). Any other mode byte in an entry that the host has overwritten acts as
OVERPRINT: the model's choice (log 50). -/
def mergeDot (mode : Nat) (result s : Bool) : Bool := if mode = 1 then s else result || s

/-- The result of one patch on a dot that it covers; a row that did not decode contributes S = 0 (R126 (4)). -/
def patchDot (c : Curve) (scr : Screen) (trim : Int) (plateRow plateDot : Nat) (s : PatchSource) (rows : List (List Byte))
    (r x : Nat) (result : Bool) : Bool :=
  if patchCovers s r x then
    mergeDot s.mode result
      (match patchPixel s rows r x with
        | some v => screenDot c scr v trim plateRow plateDot
        | none => false)
  else result

/-- What rendering a dot needs besides the plan: the tables and the entry's fields. -/
structure RenderContext where
  curve : Curve
  screen : Screen
  trim : Int
  width : Nat
  reverse : Bool
  deriving DecidableEq, Repr

/-- Plate dot d of band row c of the fill's swath (R122, R123). -/
def renderDot (ctx : RenderContext) (f : Fill) (c d : Nat) : Bool :=
  if f.plan.blank || decide (d < f.plan.around) || decide (f.plan.pageDots ≤ d - f.plan.around) then false
  else
    let r := 64 * f.plan.strip + c
    let x := d - f.plan.around
    (f.plan.patches.zipIdx).foldl
      (fun result e => patchDot ctx.curve ctx.screen ctx.trim (64 * f.swath + c) d e.1 ((tblGet f.images e.2).getD []) r x result)
      (runBit (f.lines.getD c []) false x)

/-- Stored dot i of band row c: around-reverse mirrors the row, and dots from W on are 0 (R112, R123). -/
def storedDot (ctx : RenderContext) (f : Fill) (c i : Nat) : Bool :=
  if ctx.width ≤ i then false
  else renderDot ctx f c (if ctx.reverse then ctx.width - 1 - i else i)

/-- The byte that holds stored dots 8n to 8n + 7 of band row c. -/
def storedByte (ctx : RenderContext) (f : Fill) (c n : Nat) : Byte :=
  (List.range 8).foldl (fun b i => if storedDot ctx f c (8 * n + i) then b ||| (1#8 <<< i) else b) 0

/-- The 4 KiB of row set j: band row c at 64c, 512 stored dots each (R112). A blank swath is all 0 (R116). -/
def rowSetBytes (ctx : RenderContext) (f : Fill) (j : Nat) : List Byte :=
  if f.plan.blank then List.replicate 4096 0
  else (List.range 4096).map (fun m => storedByte ctx f (m / 64) (64 * j + m % 64))

end Sys2Proof.Machine
end

