-- ==== Sys2Proof/Machine/Renderer.lean ====
section
/-! DEFINITION. The Band Renderer: the band pool, the render order, fills, the render reflection point (chapter 6). -/

namespace Sys2Proof.Machine

/-! ### Band pool and render order (R111, R113) -/

/-- Whether a band belongs to a slot and attempt. -/
def Band.isFor (b : Band) (slot attempt : Nat) : Bool := decide (b.slot = slot) && decide (b.attempt = attempt)

/-- A buffer after its FULL or FILLING band of a slot and attempt has been given up; DRAINING stays (R119). -/
def Buffer.giveUp (slot attempt : Nat) : Buffer → Buffer
  | .free => .free
  | .filling b => if b.isFor slot attempt then .free else .filling b
  | .full b => if b.isFor slot attempt then .free else .full b
  | .draining b => .draining b

/-- A buffer after the fill in progress has been abandoned. -/
def Buffer.stopFilling : Buffer → Buffer
  | .free => .free
  | .filling _ => .free
  | .full b => .full b
  | .draining b => .draining b

/-- Whether an entry belongs to a slot and attempt. -/
def RenderEntry.isFor (e : RenderEntry) (slot attempt : Nat) : Bool := decide (e.slot = slot) && decide (e.attempt = attempt)

/-- Whether the fill in progress is for a slot and attempt. -/
def Fill.isFor (f : Fill) (slot attempt : Nat) : Bool := decide (f.slot = slot) && decide (f.attempt = attempt)

/-- The fill in progress is abandoned and its buffer becomes FREE (R119, R121). -/
def abandonFill (b : BandRenderer) : BandRenderer := { b with fill := none, buffers := b.buffers.map Buffer.stopFilling }

/-- The fill in progress is abandoned when it is for a slot and attempt. -/
def abandonFillOf (slot attempt : Nat) (b : BandRenderer) : BandRenderer :=
  match b.fill with
  | some f => if f.isFor slot attempt then abandonFill b else b
  | none => b

/-- The FULL and FILLING bands of a slot and attempt become FREE (R119, R120 (1)). -/
def freeBands (slot attempt : Nat) (b : BandRenderer) : BandRenderer :=
  let b1 := abandonFillOf slot attempt b
  { b1 with buffers := b1.buffers.map (Buffer.giveUp slot attempt) }

/-- A discard request (R119). -/
def discard (slot attempt : Nat) (k : Chip) : Chip :=
  let b := freeBands slot attempt k.br
  k.setBr { b with order := b.order.filter (fun e => !e.isFor slot attempt) }

/-- A plate entering PREPARING joins the tail of the render order (R96, R113). -/
def joinRender (e : RenderEntry) (k : Chip) : Chip := k.setBr { k.br with order := k.br.order ++ [e] }

/-- An entry put ahead of every entry whose plate entered PREPARING after it (R120 (2)). -/
def insertEntry (e : RenderEntry) : List RenderEntry → List RenderEntry
  | [] => [e]
  | x :: xs => if e.ordinal < x.ordinal then e :: x :: xs else x :: insertEntry e xs

/-- A later entry that has begun loses its fill in progress; its next swath is that fill's (R120 (3)). -/
def setBackLater (ordinal : Nat) (b : BandRenderer) : BandRenderer :=
  match b.fill with
  | some f =>
    if b.order.any (fun e => e.isFor f.slot f.attempt && decide (ordinal < e.ordinal)) then
      let b1 := abandonFill b
      { b1 with order := b1.order.map (fun e => if e.isFor f.slot f.attempt then { e with next := f.swath } else e) }
    else b
  | none => b

/-- A restart request (R120). `e` is the entry as the plate stands, with next swath 0 and its flags clear. -/
def restart (e : RenderEntry) (k : Chip) : Chip :=
  let b := freeBands e.slot e.attempt k.br
  let order :=
    if b.order.any (fun x => x.isFor e.slot e.attempt) then
      b.order.map (fun x => if x.isFor e.slot e.attempt then { e with ordinal := x.ordinal } else x)
    else insertEntry e b.order
  k.setBr (setBackLater e.ordinal { b with order := order })

/-- An entry of the render order changed. -/
def updateEntry (slot attempt : Nat) (g : RenderEntry → RenderEntry) (k : Chip) : Chip :=
  k.setBr { k.br with order := k.br.order.map (fun e => if e.isFor slot attempt then g e else e) }

/-! ### What a swath holds (R116, R127) -/

/-- The across offset of the position with the next higher offset, or the rows of the format (R90). -/
def bandEnd (positions : List Position) (p : Position) (rows : Nat) : Nat :=
  (positions.filter (fun q => decide (p.across < q.across))).foldl (fun m q => min m q.across) rows

/-- The position in whose band swath s lies, with its place (R90, R116). -/
def positionAt (positions : List Position) (rows s : Nat) : Option (Position × Nat) :=
  positions.zipIdx.find? (fun e => decide (e.1.across ≤ 64 * s) && decide (64 * s < bandEnd positions e.1 rows))

/-- The bytes of a page record's header in the shared store. -/
def headerAt (k : Chip) (m : Memory) (idx : Nat) : List Byte := m.readBytes (k.pageAddr idx) 0x60

/-- The own ranges that a header in the shared store gives. Of a range count above 8, which only the host can have written (R61), the model
takes 8 (log 57, DESIGN CHOICE). -/
def headerRanges (h : List Byte) : List (Nat × Nat) :=
  (List.range (min 8 (u8 h 7))).map (fun i => (u16 h (0x40 + 4 * i), u16 h (0x42 + 4 * i)))

/-- A strip entry in the shared store, when it is PRESENT. -/
def stripSourceAt (k : Chip) (m : Memory) (idx : Nat) (key : PageKey) (x strip : Nat) : Option StripSource :=
  let b := m.readBytes (k.pageAddr idx + 0x4000 + 16 * stripIndex x strip) 16
  if u8 b 0 = 1 then some { idx := idx, key := key, cell := u16 b 2, off := u16 b 4, len := u32 b 8 } else none

/-- A patch entry in the shared store, when it is PRESENT. -/
def patchSourceAt (k : Chip) (m : Memory) (idx : Nat) (key : PageKey) (x p : Nat) : Option PatchSource :=
  let b := m.readBytes (k.pageAddr idx + 0x1000 + 32 * patchIndex x p) 32
  if u8 b 0 = 1 then
    some { idx := idx, key := key, p := p, mode := u8 b 1, scale := u8 b 2, cell := u16 b 4, off := u16 b 6, len := u32 b 8,
           row0 := u16 b 0x10, dot0 := u16 b 0x12, w := u16 b 0x14, h := u16 b 0x16 }
  else none

/-- Whether a base patch's rows meet none of the derived record's own ranges (R78 (1)). A range whose first strip is above its last, which
only the host can have written, has no rows (DEDUCED, log 72). -/
def inheritable (ranges : List (Nat × Nat)) (s : PatchSource) : Bool :=
  ranges.all (fun r => decide (min (s.row0 + s.h * s.scale) (64 * r.2 + 64) ≤ max s.row0 (64 * r.1)))

/-- One patch entry examined: its source, or the finding that it is not PRESENT (R127). -/
def examinePatch (k : Chip) (m : Memory) (idx : Nat) (key : PageKey) (x p : Nat) :
    List PatchSource × List (PageKey × Option Nat) :=
  match patchSourceAt k m idx key x p with
  | some s => ([s], [])
  | none => ([], [(key, some p)])

/-- The patch entries of a record examined in ascending number. -/
def examinePatches (k : Chip) (m : Memory) (idx : Nat) (key : PageKey) (x count : Nat) :
    List PatchSource × List (PageKey × Option Nat) :=
  (List.range count).foldl
    (fun acc p => (acc.1 ++ (examinePatch k m idx key x p).1, acc.2 ++ (examinePatch k m idx key x p).2)) ([], [])

/-- The patch count of a separation in a header in the shared store; a record has 32 patch entries a separation. Of a count above 32, which
only the host can have written (R61, R203), the model takes 32 (log 57, DESIGN CHOICE). -/
def headerPatchCount (h : List Byte) (x : Nat) : Nat := min 32 (u8 h (0x14 + x))

/-- A blank swath (R116). -/
def FillPlan.empty : FillPlan := { blank := true, strip := 0, around := 0, pageDots := 0, line := none, patches := [], missing := [] }

/-- The plan of a swath that carries a strip of a page, with the entry reads it takes (R77, R78, R116, R127). Of several entries that are not
PRESENT the first of `missing` names the mark: the strip, then the base's patches, then the own ones, by number, the model's choice (log 51). -/
def planStrip (k : Chip) (m : Memory) (x around strip : Nat) (key : PageKey) (s : PosSnap) : FillPlan :=
  let own := headerAt k m s.idx
  let ranges := headerRanges own
  let source := match s.base with
    | some (b, _, bkey) => if inRanges ranges strip then (s.idx, key) else (b, bkey)
    | none => (s.idx, key)
  let line := stripSourceAt k m source.1 source.2 x strip
  let based := match s.base with
    | some (b, _, bkey) => examinePatches k m b bkey x (headerPatchCount (headerAt k m b) x)
    | none => ([], [])
  let owned := examinePatches k m s.idx key x (headerPatchCount own x)
  { blank := false
    strip := strip
    around := around
    pageDots := u16 own 0x0C
    line := line
    patches := based.1.filter (inheritable ranges) ++ owned.1
    missing := (if line.isNone then [(source.2, none)] else []) ++ based.2 ++ owned.2 }

/-- The page rows that a record's header in the shared store gives. -/
def headerRows (h : List Byte) : Nat := u16 h 0x0A

/-- What swath s of an entry holds (R116). -/
def planSwath (k : Chip) (m : Memory) (e : RenderEntry) (s : Nat) : FillPlan :=
  match positionAt e.positions e.format.rows s with
  | none => FillPlan.empty
  | some (p, n) =>
    match e.snapshot[n]? with
    | none => FillPlan.empty
    | some snap =>
      let strip := s - p.across / 64
      if headerRows (headerAt k m snap.idx) ≤ 64 * strip then FillPlan.empty
      else planStrip k m e.sep p.around strip p.key snap

/-- The reads of entries that a swath takes: the headers of the position's records, then the strip entry and the patch entries (R116). -/
def entryReads (k : Chip) (m : Memory) (e : RenderEntry) (s : Nat) : List (Nat × Nat) :=
  match positionAt e.positions e.format.rows s with
  | none => []
  | some (p, n) =>
    match e.snapshot[n]? with
    | none => []
    | some snap =>
      let own := headerAt k m snap.idx
      let strip := s - p.across / 64
      let patchReads (idx : Nat) : List (Nat × Nat) :=
        (List.range (headerPatchCount (headerAt k m idx) e.sep)).map
          (fun q => (k.pageAddr idx + 0x1000 + 32 * patchIndex e.sep q, 32))
      let stripRead (idx : Nat) : Nat × Nat := (k.pageAddr idx + 0x4000 + 16 * stripIndex e.sep strip, 16)
      let headers := (k.pageAddr snap.idx, 0x60) :: (match snap.base with
        | some (b, _, _) => [(k.pageAddr b, 0x60)]
        | none => [])
      if headerRows own ≤ 64 * strip then headers
      else
        headers ++
          (match snap.base with
            | some (b, _, _) => stripRead (if inRanges (headerRanges own) strip then snap.idx else b) :: patchReads b
            | none => [stripRead snap.idx]) ++ patchReads snap.idx

/-! ### A fill (R114, R117, R121, R128) -/

/-- Another fill in progress. -/
def setFill (f : Fill) (k : Chip) : Chip := k.setBr { k.br with fill := some f }

/-- A transfer of a fill. -/
def fillTransfer (f : Fill) (stream : Stream) (addr : Nat) (op : XferOp) : Transfer :=
  { client := .br, stream := some stream, addr := addr % storeSize, op := op, purpose := .fill f.id f.slot f.attempt f.swath,
    notices := [] }

/-- The entry that a fill renders. -/
def fillEntry (k : Chip) (f : Fill) : Option RenderEntry := k.br.order.find? (fun e => e.isFor f.slot f.attempt)

/-- A damage finding's mark: DECODE once for each render, under the entry's finding flag (R128 (2)). `patch` is none for a strip. -/
def findingMark (f : Fill) (key : PageKey) (patch : Option Nat) (k : Chip) : Chip :=
  match fillEntry k f with
  | none => k
  | some e =>
    if e.finding then k
    else
      reportMark
        { slot := f.slot, attempt := f.attempt, kind := .decode, location := .strip f.plan.strip, key := some key,
          detail := patch.getD 0xFF + 256 * e.sep, place := none, nosep := none }
        (updateEntry f.slot f.attempt (fun e => { e with finding := true }) k)

/-- A decode failure: IU's damage report, then the mark (R128 (1), (2)). -/
def decodeFinding (f : Fill) (it : FillItem) (sep : Nat) (k : Chip) : Chip :=
  match it with
  | .line s => findingMark f s.key none (damageReport s.idx false sep f.plan.strip s.cell s.off k)
  | .patch _ s _ => findingMark f s.key (some s.p) (damageReport s.idx true sep s.p s.cell s.off k)

/-- The dots of the page that are rendered: below the page dots and below W − o (R122 (2)). -/
def renderedDots (p : FillPlan) (width : Nat) : Nat := min p.pageDots (width - p.around)

/-- Whether a patch covers some rendered dot of the swath. -/
def coversSwath (p : FillPlan) (width : Nat) (s : PatchSource) : Bool :=
  decide (s.row0 ≤ 64 * p.strip + 63) && decide (64 * p.strip < s.row0 + s.h * s.scale) && decide (0 < s.w * s.scale) &&
    decide (s.dot0 < renderedDots p width)

/-- The last image row that a swath needs of a patch that covers it (R126 (3)). -/
def lastImageRow (p : FillPlan) (s : PatchSource) : Nat := (min (64 * p.strip + 63) (s.row0 + s.h * s.scale - 1) - s.row0) / s.scale

/-- The bodies that a fill decodes: the strip, then the covering patches in list order. That order, which decides what the fill's DECODE
mark names, is the model's choice (R128, log 68). -/
def planItems (p : FillPlan) (width : Nat) : List FillItem :=
  (match p.line with
    | some s => [FillItem.line s]
    | none => []) ++
    (p.patches.zipIdx.filter (fun e => coversSwath p width e.1)).map
      (fun e => FillItem.patch e.2 e.1 (lastImageRow p e.1))

/-- Where an item's body lies, as transfers (R28, R124, R126). -/
def itemReads (k : Chip) : FillItem → List (Nat × Nat)
  | .line s => pieces (k.cellAddr s.cell + s.off) s.len
  | .patch _ s _ => pieces (k.cellAddr s.cell + s.off) s.len

/-- The context in which an entry's dots are rendered. -/
def renderContext (k : Chip) (e : RenderEntry) : RenderContext :=
  { curve := (k.curve e.curve).val, screen := (k.screen (k.screenOf e.screenSet e.sep)).val, trim := e.trim,
    width := e.format.width, reverse := e.format.reverse }

/-- The next row set is rendered and its write issued; after the last one the fill is done (R117). -/
def nextRowSet (f : Fill) (k : Chip) : Chip :=
  match fillEntry k f with
  | none => setFill f k
  | some e =>
    if f.nextSet < rowSets e.format.width then
      issue (fillTransfer f .brWrite (k.bandAddr f.buffer + 4096 * f.nextSet) (.write (rowSetBytes (renderContext k e) f f.nextSet)))
        (setFill f k)
    else setFill { f with done := true } k

/-- The first of the reads outstanding is issued. -/
def nextRead (f : Fill) (a : Nat × Nat) (rest : List (Nat × Nat)) (k : Chip) : Chip :=
  issue (fillTransfer f .brRead a.1 (.read a.2)) (setFill { f with reads := rest } k)

/-- How the item under decode stands with the bytes read so far. -/
def itemDecode (p : FillPlan) (bytes : List Byte) : FillItem → DecodeEnd
  | .line s => (decodeStrip p.pageDots s.len bytes).2
  | .patch _ s last => (decodePatch s.w s.h last s.len bytes).2

/-- The rows that an item's decode brings to the fill. -/
def takeRows (f : Fill) : FillItem → Fill
  | .line s => { f with lines := (decodeStrip f.plan.pageDots s.len f.bytes).1 }
  | .patch place s last => { f with images := tblPut f.images place (decodePatch s.w s.h last s.len f.bytes).1 }

/-- The items from the next one on: reads of a body are issued one at a time; an item that has come to its end is taken, with its
finding when it failed. With no item left the row sets follow. -/
def runItems (sep : Nat) : List FillItem → Fill → Chip → Chip
  | [], f, k => nextRowSet { f with items := [], bytes := [], reads := [] } k
  | it :: rest, f, k =>
    match itemDecode f.plan f.bytes it, f.reads with
    | .more, a :: more => nextRead { f with items := it :: rest } a more k
    | st, _ =>
      let f1 := takeRows f it
      let k1 := if st = .complete then k else decodeFinding f1 it sep k
      let f2 := { f1 with bytes := [], reads := (match rest with
        | [] => []
        | nxt :: _ => itemReads k nxt) }
      runItems sep rest f2 k1

/-- The items begin once the entries have been examined. -/
def startItems (f : Fill) (k : Chip) : Chip :=
  match fillEntry k f with
  | none => setFill f k
  | some e =>
    let items := planItems f.plan e.format.width
    runItems e.sep items
      { f with items := items, bytes := [], reads := (match items with
        | [] => []
        | it :: _ => itemReads k it) } k

/-- The entries have been read: each that is not PRESENT is a finding (R127, R128). -/
def entriesRead (f : Fill) (k : Chip) : Chip :=
  startItems f (f.plan.missing.foldl (fun k e => findingMark f e.1 e.2 k) k)

/-- A transfer of the fill in progress completes (R117, R124, R126). A transfer of an abandoned fill is nobody's. One row set write is
outstanding at a time: the model's choice (log 6). -/
def fillArrives (id : Nat) (isWrite : Bool) (data : List Byte) (k : Chip) : Chip :=
  match k.br.fill with
  | none => k
  | some f =>
    if f.id ≠ id then k
    else if isWrite then nextRowSet { f with nextSet := f.nextSet + 1 } k
    else
      match f.items, f.reads with
      | [], a :: rest => nextRead f a rest k
      | [], [] => entriesRead f k
      | it :: rest, _ =>
        match fillEntry k f with
        | none => k
        | some e => runItems e.sep (it :: rest) { f with bytes := f.bytes ++ data } k

/-- The lowest-numbered FREE buffer. -/
def freeBuffer (bs : List Buffer) : Option Nat := bs.findIdx? (fun b => decide (b = .free))

/-- The conditions of R114 other than the reflection point's. -/
def mayFill (k : Chip) : Option RenderEntry :=
  match k.br.order with
  | [] => none
  | e :: _ =>
    if k.working && !e.stall && decide (e.next < e.format.rows / 64) && k.br.fill.isNone && k.br.point.isNone && !k.tl.point &&
        (freeBuffer k.br.buffers).isSome then some e
    else none

/-- Whether the head entry is to reach the render reflection point before its fill (R115). -/
def atPoint (k : Chip) (e : RenderEntry) : Bool :=
  decide (e.next = 0) && !e.begun && !(k.br.order.drop 1).any (fun x => x.begun)

/-- A fill of the head entry's next swath begins: the lowest FREE buffer becomes FILLING, and the swath's entries are read (R114, R116). -/
def beginFill (m : Memory) (e : RenderEntry) (k : Chip) : Chip :=
  match freeBuffer k.br.buffers with
  | none => k
  | some b =>
    let f : Fill :=
      { id := k.br.fillSerial + 1, buffer := b, slot := e.slot, attempt := e.attempt, swath := e.next, plan := planSwath k m e e.next,
        reads := entryReads k m e e.next, items := [], bytes := [], lines := [], images := [], nextSet := 0, done := false }
    let k1 := updateEntry e.slot e.attempt (fun e => { e with begun := true })
      (k.setBr { k.br with
        buffers := k.br.buffers.set b (.filling ⟨e.slot, e.attempt, e.next⟩), fillSerial := k.br.fillSerial + 1, fill := some f })
    match f.reads with
    | [] => nextRowSet f k1
    | a :: rest => nextRead f a rest k1

/-- FILL_BEGIN (R114). -/
def fillBegin (m : Memory) (k : Chip) : Chip :=
  match mayFill k with
  | none => k
  | some e => if atPoint k e then k else beginFill m e k

/-- FILL_END (R117): the buffer becomes FULL and the next swath rises; after the last swath the render has finished. -/
def fillEnd (k : Chip) : Chip :=
  match k.br.fill with
  | none => k
  | some f =>
    if k.working && f.done then
      let k1 := k.setBr { k.br with
        fill := none
        buffers := k.br.buffers.set f.buffer (.full ⟨f.slot, f.attempt, f.swath⟩) }
      match fillEntry k f with
      | none => k1
      | some e =>
        if e.next + 1 = e.format.rows / 64 then
          tellPsc (.renderFinished f.slot f.attempt e.snapNo)
            (k1.setBr { k1.br with order := k1.br.order.filter (fun x => !x.isFor f.slot f.attempt) })
        else updateEntry f.slot f.attempt (fun e => { e with next := e.next + 1 }) k1
    else k

/-- A refused BR-read or BR-write transfer of a fill: FENCE on the plate whose band was being filled, and the fill, when it is still in
progress, is abandoned and its entry stalled (R41 (1), R121). -/
def fillRefused (id slot attempt swath streamNo : Nat) (k : Chip) : Chip :=
  let k1 := match k.br.fill with
    | some f => if f.id = id then updateEntry slot attempt (fun e => { e with stall := true }) (k.setBr (abandonFill k.br)) else k
    | none => k
  reportMark
    { slot := slot, attempt := attempt, kind := .fence, location := .swath swath, key := none, detail := streamNo, place := none,
      nosep := none } k1

/-! ### The render reflection point (R115, R142) -/

/-- The render kinds: CURVE, SCREEN, SCREENSET (R142). -/
def TableKind.isRender : TableKind → Bool
  | .curve => true
  | .screen => true
  | .screenSet => true
  | .profile => false
  | .power => false

/-- RENDER_REFLECTION_POINT (R115 (1), R142): the head is to begin swath 0, and the render reloads pending are due. A reload already in
progress, of any kind, ends first. -/
def reachPoint (k : Chip) : Chip :=
  match mayFill k with
  | none => k
  | some e =>
    if atPoint k e then
      let k1 := k.setBr { k.br with point := some (e.slot, e.ordinal) }
      k1.setTl { k1.tl with
        point := true
        pendingSet := k1.tl.pendingSet.map (fun p => if p.id.kind.isRender then { p with due := true } else p)
        reload := k1.tl.reload.map (fun r => { r with due := true }) }
    else k

/-- TL's report that the point's reloads have ended: none is due and none due is in progress (R142). -/
def pointReady (k : Chip) : Bool :=
  k.tl.point && !k.tl.pendingSet.any (fun p => p.due) &&
    !(match k.tl.reload with
      | some r => r.due
      | none => false)

/-- A reflection point finds a table INVALID: mark TABLE, and the entry is stalled (R115 (3), R121). -/
def pointFailed (e : RenderEntry) (t : TableId) (k : Chip) : Chip :=
  reportMark
    { slot := e.slot, attempt := e.attempt, kind := .table, location := .none, key := none, detail := t.detail, place := none,
      nosep := none } (updateEntry e.slot e.attempt (fun e => { e with stall := true }) k)

/-- REFLECTION_POINT_END (R115 (2), (3)): the tables of the entry are checked, and swath 0 begins or the entry stalls. When the entry
that reached the point has left the head, the point just ends: R115 says so of a discard; of an entry that a restart has put ahead of it, and
of one restarted in its place, whose point goes on, it is the model's choice (R120, log 56, DESIGN CHOICE). -/
def pointEnd (m : Memory) (k : Chip) : Chip :=
  if k.working && pointReady k then
    let k1 := (k.setBr { k.br with point := none }).setTl { k.tl with point := false }
    match k.br.order with
    | [] => k1
    | e :: _ =>
      if k.br.point = some (e.slot, e.ordinal) then
        match renderFault k1 e.curve e.screenSet e.sep with
        | some t => pointFailed e t k1
        | none => if (mayFill k1).isSome then beginFill m e k1 else k1
      else k1
  else k

end Sys2Proof.Machine
end

