-- ==== Sys2Proof/Machine/Loader.lean ====
section
/-! DEFINITION. The Table Loader: the pending reload set, reloads, and IMC's part in a profile reload (7.2–7.5). -/

namespace Sys2Proof.Machine

/-! ### What the table area says (R133–R136) -/

/-- Where a table's bytes lie in the table area; for a screen the header, read first (R133, R135). -/
def tablePlace : TableId → Nat × Nat
  | ⟨.curve, i⟩ => (64 * i, 38)
  | ⟨.screenSet, i⟩ => (0x400 + 8 * i, 4)
  | ⟨.profile, i⟩ => (0x480 + 8 * i, 4)
  | ⟨.power, _⟩ => (0x500, 128)
  | ⟨.screen, i⟩ => (0x600 + 16 * i, 2)

/-- Where a screen's thresholds lie (R133). -/
def thresholdPlace (i t : Nat) : Nat × Nat := (0x100000 + 131072 * i, 2 * t * t)

/-- A tile size in range (R135). -/
def tileLegal (t : Nat) : Bool := decide (8 ≤ t) && decide (t ≤ 256)

/-- A value kept between two bounds. -/
def within (lo hi v : Nat) : Nat := max lo (min hi v)

/-- A curve as loaded (R134). -/
def curveAt (b : List Byte) : Curve :=
  { knots := (List.range 17).map (fun i => min 4095 (u16 b (2 * i)))
    minDot := min 409 (u16 b 0x22)
    maxDot := within 3686 4095 (u16 b 0x24) }

/-- A screen as loaded, from its header and thresholds (R135). -/
def screenAt (b : List Byte) : Screen :=
  { size := u16 b 0, thresholds := (List.range (u16 b 0 * u16 b 0)).map (fun i => within 1 4095 (u16 b (2 + 2 * i))) }

/-- A screen set's four screen indexes (R136 (1)). -/
def screenSetAt (b : List Byte) : List Nat := (List.range 4).map (fun i => u8 b i)

/-- A profile's fields (R136 (2)). -/
def profileAt (b : List Byte) : Profile := { rpm := u16 b 0, passes := u8 b 2, step := u8 b 3 }

/-- The power table as loaded (R136 (3)). -/
def powerAt (b : List Byte) : List Nat := (List.range 64).map (fun i => min 4095 (u16 b (2 * i)))

/-- A profile whose fields are in range (R136 (2)). -/
def profileLegal (p : Profile) : Bool :=
  decide (300 ≤ p.rpm) && decide (p.rpm ≤ 1200) && decide (1 ≤ p.passes) && decide (p.passes ≤ 4) && decide (p.step ≤ 63)

/-- Whether a table whose bytes have all been read ends VALID (R134–R136). -/
def tableChecks (id : TableId) (b : List Byte) : Bool :=
  match id.kind with
  | .curve => true
  | .screen => tileLegal (u16 b 0)
  | .screenSet => (screenSetAt b).all (fun i => decide (i ≤ 7))
  | .profile => profileLegal (profileAt b)
  | .power => true

/-! ### Installing (R137) -/

/-- A table's copy and validity after a reload: VALID installs the new content, INVALID leaves the copy (R137). -/
def Held.after {α : Type} (h : Held α) (valid : Bool) (new : α) : Held α := if valid then ⟨true, new⟩ else ⟨false, h.val⟩

/-- One place of a table list after a reload. -/
def installAt {α : Type} (l : List (Held α)) (i : Nat) (valid : Bool) (new : α) : List (Held α) :=
  l.modify i (fun h => h.after valid new)

/-- The on-chip tables after a reload of one table has ended (R137, R140 (3)). -/
def installTable (t : TableLoader) (id : TableId) (valid : Bool) (b : List Byte) : TableLoader :=
  match id.kind with
  | .curve => { t with curves := installAt t.curves id.idx valid (curveAt b) }
  | .screen => { t with screens := installAt t.screens id.idx valid (screenAt b) }
  | .screenSet => { t with screenSets := installAt t.screenSets id.idx valid (screenSetAt b) }
  | .profile => { t with profiles := installAt t.profiles id.idx valid (profileAt b) }
  | .power => { t with power := t.power.after valid (powerAt b) }

/-! ### Reloads (R139–R143, R145) -/

/-- TL takes a TABLE word (R139): a pair already in the set keeps its place. -/
def takeTable (id : TableId) (k : Chip) : Chip :=
  if k.tl.pendingSet.any (fun p => decide (p.id = id)) then k
  else k.setTl { k.tl with pendingSet := k.tl.pendingSet ++ [{ id := id, due := false }] }

/-- The order of the full reload of STARTING (R145). -/
def startTable (n : Nat) : TableId :=
  if n < 16 then ⟨.curve, n⟩
  else if n < 24 then ⟨.screen, n - 16⟩
  else if n < 32 then ⟨.screenSet, n - 24⟩
  else if n < 48 then ⟨.profile, n - 32⟩
  else ⟨.power, 0⟩

/-- The number of tables (R137). -/
def tableCount : Nat := 49

/-- Another reload in progress. -/
def setReload (r : Option Reload) (k : Chip) : Chip := k.setTl { k.tl with reload := r }

/-- The next read of a reload is issued (R32, R133). -/
def reloadRead (r : Reload) (a : Nat × Nat) (rest : List (Nat × Nat)) (k : Chip) : Chip :=
  issue { client := .br, stream := some .brRead, addr := a.1, op := .read a.2, purpose := .table, notices := [] }
    (setReload (some { r with reads := rest }) k)

/-- A reload goes on: its next read, or its outcome when every byte has been read (R140). -/
def reloadNext (r : Reload) (k : Chip) : Chip :=
  match r.reads with
  | a :: rest => reloadRead r a rest k
  | [] => setReload (some { r with outcome := some (tableChecks r.id r.bytes) }) k

/-- A place of the table area as transfers (R28). -/
def tableSpan (k : Chip) (place : Nat × Nat) : List (Nat × Nat) := pieces (k.lay.tableBase + place.1) place.2

/-- A reload begins (R140). -/
def beginReload (id : TableId) (due : Bool) (k : Chip) : Chip :=
  reloadNext { id := id, due := due, reads := tableSpan k (tablePlace id), bytes := [], outcome := none } k

/-- Bytes of the table under reload arrive. A screen's T is checked before any threshold is read (R135). -/
def reloadArrives (data : List Byte) (k : Chip) : Chip :=
  match k.tl.reload with
  | none => k
  | some r =>
    let bytes := r.bytes ++ data
    if decide (r.id.kind = .screen) && r.bytes.isEmpty then
      if tileLegal (u16 bytes 0) then
        reloadNext { r with bytes := bytes, reads := tableSpan k (thresholdPlace r.id.idx (u16 bytes 0)) } k
      else setReload (some { r with bytes := bytes, reads := [], outcome := some false }) k
    else reloadNext { r with bytes := bytes } k

/-- A read of the table under reload is refused: it ends INVALID (R41 (4), R140 (2)). -/
def reloadRefused (k : Chip) : Chip :=
  match k.tl.reload with
  | none => k
  | some r => setReload (some { r with reads := [], outcome := some false }) k

/-- Whether a pending entry may be reloaded now (R141–R143). -/
def mayReload (k : Chip) (p : PendingTable) : Bool :=
  if p.id.kind.isRender then p.due && k.tl.point else decide (k.imc.state ≠ .exposing)

/-- RELOAD_BEGIN (R141, R145): the next table of the full reload in STARTING, otherwise the oldest pending table that may be reloaded. -/
def reloadBegin (k : Chip) : Chip :=
  if k.tl.reload.isSome then k
  else if k.pd.runState = .starting ∧ k.pd.phase = .tables then
    if k.tl.startNext < tableCount then
      beginReload (startTable k.tl.startNext) false (k.setTl { k.tl with startNext := k.tl.startNext + 1 })
    else k
  else if k.working then
    match k.tl.pendingSet.find? (mayReload k) with
    | none => k
    | some p =>
      beginReload p.id p.due (k.setTl { k.tl with pendingSet := k.tl.pendingSet.filter (fun q => decide (q.id ≠ p.id)) })
  else k

/-! ### A profile reload at IMC (R144, R157) -/

/-- The plate in PREPARING that IMC holds: waiting, with its LOAD in work, or the drum plate until it has entered EXPOSING (R152). -/
def preparingPlate (k : Chip) : Option PlateRef :=
  match k.imc.waiting with
  | some p => some p
  | none =>
    match k.imc.load with
    | some l => l.plate
    | none =>
      match k.imc.drum with
      | some d => if decide (d.cond = .unexposed) && !k.imc.exposure.entered then d.owner else none
      | none => none

/-- IMC takes the new values of the drum plate's profile: a changed rpm is the new target at once and clears the settle count (R157). -/
def retakeValues (p : PlateRef) (k : Chip) : Chip :=
  if decide (k.imc.state = .settling) && decide (drumPlate k = some p) then
    let v := profileValues k p.profile
    if v.rpm = k.imc.exposure.values.rpm then setExposure { k.imc.exposure with values := v } k
    else setTarget v.rpm (setExposure { k.imc.exposure with values := v, settle := 0 } k)
  else k

/-- Whether a reload was of a plate's profile, or of the power table (R144). -/
def reloadConcerns (id : TableId) (p : PlateRef) : Bool := decide (id = ⟨.profile, p.profile⟩) || decide (id.kind = .power)

/-- Mark TABLE on the plate in PREPARING whose profile a reload has left INVALID (R144). IMC names no place for it (log 36). -/
def profileLost (id : TableId) (k : Chip) : Chip :=
  match preparingPlate k with
  | none => k
  | some p =>
    if reloadConcerns id p then
      match profileFault k p.profile with
      | some t =>
        reportMark
          { slot := p.slot, attempt := p.attempt, kind := .table, location := .none, key := none, detail := t.detail, place := none,
            nosep := none } k
      | none => k
    else k

/-- The drum plate in SETTLING takes its values again when its profile is still VALID (R144, R157). So does one in IMAGING that a pause has
brought back to SETTLING: R157 against the last sentence of R144 (log 58, DESIGN CHOICE). -/
def drumRetakes (id : TableId) (k : Chip) : Chip :=
  match drumPlate k with
  | none => k
  | some p => if reloadConcerns id p && (profileFault k p.profile).isNone then retakeValues p k else k

/-- TL reports a PROFILE or POWER reload to IMC (R144). -/
def profileReloaded (id : TableId) (k : Chip) : Chip := drumRetakes id (profileLost id k)

/-! ### CLEAR at the end of STARTING (R182) and the end of a reload -/

/-- The CLEAR request of STARTING: no slot, attempt 0 (R182). -/
def clearRequest : Request := { kind := .clear, slot := none, attempt := 0, seq := 0 }

/-- A CLEAR at the head of a unit's queue. -/
def queueClear (u : HUnit) (k : Chip) : Chip :=
  k.setUnit u { k.hlc.unit u with queue := clearRequest :: (k.hlc.unit u).queue }

/-- Step (7) of STARTING begins: a CLEAR at the head of each unit's queue (R7, R182). -/
def beginClears (k : Chip) : Chip :=
  queueClear .sorter (queueClear .processor (queueClear .punch (queueClear .loader
    (k.setPd { k.pd with phase := .clears }))))

/-- RELOAD_END (R140 (2), (3)). The reload of a profile of another plate that was in progress when the imager entered EXPOSING ends here, and
its copy is installed: the model's choice (log 52). -/
def reloadEnd (k : Chip) : Chip :=
  match k.tl.reload with
  | none => k
  | some r =>
    match r.outcome with
    | none => k
    | some valid =>
      let k1 := k.setTl { installTable k.tl r.id valid r.bytes with reload := none }
      if k.pd.runState = .starting then if k.tl.startNext = tableCount then beginClears k1 else k1
      else if k.working then if r.id.kind.isRender then k1 else profileReloaded r.id k1
      else k

end Sys2Proof.Machine
end

