-- ==== Sys2Proof/Machine/Scheduler.lean ====
section
/-! DEFINITION. The Plate Scheduler: orders, the ready list, selection, dispositions, remakes, BREAK, the slot maps (1.8, 4.5, 4.6,
chapter 5). -/

namespace Sys2Proof.Machine

/-! ### Plates and the ready list (R94) -/

/-- A plate of a held slot changed. -/
def setPlate (slot : Nat) (p : Plate) (k : Chip) : Chip := k.setPsc { k.psc with plates := tblPut k.psc.plates slot p }

/-- A plate of a held slot changed by a function. -/
def updPlate (slot : Nat) (g : Plate → Plate) (k : Chip) : Chip :=
  match k.plate slot with
  | some p => setPlate slot (g p) k
  | none => k

/-- The deadline of a slot's order. -/
def deadlineOf (k : Chip) (slot : Nat) : Nat :=
  match k.plate slot with
  | some p => p.order.deadline
  | none => 0

/-- A slot put at its place in a list ordered by deadline, then slot number (R94). -/
def insertReady (deadline : Nat → Nat) (slot : Nat) : List Nat → List Nat
  | [] => [slot]
  | x :: xs =>
    if deadline slot < deadline x ∨ (deadline slot = deadline x ∧ slot < x) then slot :: x :: xs
    else x :: insertReady deadline slot xs

/-- A slot leaves the ready list. -/
def leaveReady (slot : Nat) (k : Chip) : Chip := k.setPsc { k.psc with ready := k.psc.ready.filter (fun x => decide (x ≠ slot)) }

/-- Whether a plate state is terminal (R24). -/
def PlateState.terminal : PlateState → Bool
  | .done => true
  | .failed => true
  | .cancelled => true
  | .refused => true
  | .waiting => false
  | .ready => false
  | .preparing => false
  | .imaging => false
  | .finishing => false
  | .closing => false

/-- The attempt status becomes ENDED, which clears the LATE recorded flag (R93 (2), R110). -/
def Plate.endAttempt (p : Plate) : Plate := { p with status := .ended, lateDone := false }

/-! ### Marks PSC records (R188) -/

/-- The report of a mark of PSC's own. -/
def ownMark (slot attempt : Nat) (kind : MarkKind) (key : Option PageKey) (detail : Nat) : MarkReport :=
  { slot := slot, attempt := attempt, kind := kind, location := .none, key := key, detail := detail, place := none, nosep := none }

/-- PSC reports a mark of its own, and waits for its disposition unless DMR records none (R188, R195). -/
def pscMark (m : MarkReport) (k : Chip) : Chip := recordMark true m k

/-- The report of mark NOSEP for a position whose COMPLETE record lacks the separation (R80, R189). -/
def nosepMark (slot attempt position idx version : Nat) (key : PageKey) : MarkReport :=
  { slot := slot, attempt := attempt, kind := .nosep, location := .none, key := some key,
    detail := version * 65536 + position * 32768 + idx, place := none, nosep := some (position, idx, version) }

/-- The late threshold: the deadline minus the late lead, or 0 (R110). -/
def lateThreshold (k : Chip) (p : Plate) : Nat := p.order.deadline - k.lay.lateLead

/-- The attempt a plate waits for (R110). -/
def waitedAttempt (p : Plate) : Nat := if p.status = .ended then min 15 (p.attempt + 1) else p.attempt

/-- LATE for a WAITING plate, at a value of PLANT_CLOCK (R110 (1)). -/
def checkLate (slot : Nat) (clock : Word) (k : Chip) : Chip :=
  match k.plate slot with
  | none => k
  | some p =>
    if decide (p.state = .waiting) && !p.lateDone && decide (lateThreshold k p ≤ clock.toNat) then
      pscMark (ownMark slot (waitedAttempt p) .late none (lateThreshold k p)) (setPlate slot { p with lateDone := true } k)
    else k

/-- OVERDUE for a held plate that is not terminal, at a value of PLANT_CLOCK (R110 (2)). It names the plate's attempt number, also when that
attempt has ended: the model's choice (log 46). -/
def checkOverdue (slot : Nat) (clock : Word) (k : Chip) : Chip :=
  match k.plate slot with
  | none => k
  | some p =>
    if !p.state.terminal && !p.overdueDone && decide (p.order.deadline ≤ clock.toNat) then
      pscMark (ownMark slot p.attempt .overdue none p.order.deadline) (setPlate slot { p with overdueDone := true } k)
    else k

/-! ### Readiness (R79, R80, R108) -/

/-- Another finding on the readiness of the plate being evaluated. -/
def setAllReady (b : Bool) (k : Chip) : Chip := k.setPsc { k.psc with allReady := b }

/-- PSC asks IU about position n of a plate; NOSEP records its mark, which names the plate's attempt number, also when that attempt has ended:
the model's choice (R79, R80; log 46). -/
def lookAt (slot n : Nat) (k : Chip) : Chip :=
  let k1 := if n = 0 then setAllReady true k else k
  match k.plate slot with
  | none => k1
  | some p =>
    match p.order.positions[n]? with
    | none => k1
    | some pos =>
      match resolvePosition k.iu.dir pos.key p.order.sep with
      | .ready _ => k1
      | .notComplete => setAllReady false k1
      | .mismatch _ => setAllReady false k1
      | .nosep i v => pscMark (nosepMark slot p.attempt n i v pos.key) (setAllReady false k1)

/-- Entry to READY: its time, and its place in the ready list (R91, R94). -/
def enterReady (slot : Nat) (k : Chip) : Chip :=
  let k1 := updPlate slot (fun p => { p with state := .ready, readyTime := k.regs.plantClock }) k
  k1.setPsc { k1.psc with ready := insertReady (deadlineOf k1) slot k1.psc.ready }

/-- Entry to WAITING, with the LATE comparison (R110 (1)). -/
def enterWaiting (slot : Nat) (k : Chip) : Chip :=
  checkLate slot k.regs.plantClock (updPlate slot (fun p => { p with state := .waiting }) (leaveReady slot k))

/-- The readiness found is acted upon (R80, R108). `returned`: the plate returns to the list, READY or WAITING; otherwise a WAITING plate found
ready becomes READY, and a READY plate found not ready becomes WAITING. -/
def settleReadiness (slot : Nat) (returned : Bool) (k : Chip) : Chip :=
  match k.plate slot with
  | none => k
  | some p =>
    if k.psc.allReady then
      if returned || decide (p.state = .waiting) then enterReady slot (leaveReady slot k) else k
    else if returned || decide (p.state = .ready) then enterWaiting slot k else k

/-- The steps that evaluate a plate's readiness, position by position (R79). -/
def evaluation (slot : Nat) (returned : Bool) : List PscStep := [.look slot 0, .look slot 1, .settle slot returned]

/-- What applying an input comes to: what is done at once, and the steps that follow. -/
abbrev Plan := Chip × List PscStep

/-! ### Withdrawal and closing (R100, R101) -/

/-- Pins still held are given up (R101 (2), R107 (3)). -/
def giveUpPins (slot : Nat) (k : Chip) : Chip :=
  match k.plate slot with
  | none => k
  | some p => if p.pinsHeld then setPlate slot { p with pinsHeld := false } (unpinRequest p.snapshot k) else k

/-- A withdrawal (R101): bands discarded, pins given up, IMC told. -/
def withdraw (slot attempt : Nat) (k : Chip) : Chip := imcWithdraw slot attempt (giveUpPins slot (discard slot attempt k))

/-- The state an outcome is (R100). -/
def Outcome.state : Outcome → PlateState
  | .failed => .failed
  | .cancelled => .cancelled

/-- A plate is closed with an outcome, at once or through CLOSING (R100). -/
def closePlate (slot : Nat) (o : Outcome) (k : Chip) : Chip :=
  updPlate slot (fun p =>
    let q := { p with breakPending := none }.endAttempt
    if p.carriersOut = 0 ∧ p.drumReject = false then { q with state := o.state, finalTime := k.regs.plantClock }
    else { q with state := .closing, closing := some o }) (leaveReady slot k)

/-! ### The slot's shared-store content (R27, R88) -/

/-- The state code of the result part (R88). -/
def PlateState.code : PlateState → Nat
  | .waiting => 1
  | .ready => 2
  | .preparing => 3
  | .imaging => 4
  | .finishing => 5
  | .closing => 6
  | .done => 7
  | .failed => 8
  | .cancelled => 9
  | .refused => 10

/-- The closing outcome field: 0 none, 8 FAILED, 9 CANCELLED (R88). -/
def closingCode : Option Outcome → Nat
  | none => 0
  | some o => o.state.code

/-- Two bytes of a signed value. -/
def leSigned (v : Int) : List Byte := le 2 (BitVec.ofInt 16 v).toNat

/-- Eight bytes of the snapshot field for one position; FFFFh where there is none (R88). -/
def snapBytes : Option PosSnap → List Byte
  | none => List.replicate 8 0xFF
  | some s =>
    le 2 s.idx ++ le 2 s.version ++
      (match s.base with
        | some (b, v, _) => le 2 b ++ le 2 v
        | none => List.replicate 4 0xFF)

/-- The effective across offset of position n, 0 where there is none. -/
def acrossAt (o : Order) (n : Nat) : Nat := (o.positions[n]?.map (·.across)).getD 0

/-- The result fields but for the state, as (slot offset, bytes), in offset order (R88). -/
def resultFields (p : Plate) : List (Nat × List Byte) :=
  [(0x100, le 4 p.order.plateId), (0x104, le 2 p.order.edition), (0x107, le 1 p.refusal), (0x108, le 1 p.attempt),
   (0x109, le 1 p.charged), (0x10A, le 1 (closingCode p.closing)), (0x10B, le 1 p.order.budget), (0x10C, leSigned p.order.trim),
   (0x10E, le 2 p.exposed), (0x110, le 2 p.holds), (0x114, le 4 p.orderedTime.toNat), (0x118, le 4 p.readyTime.toNat),
   (0x11C, le 4 p.imagingTime.toNat), (0x120, le 4 p.finalTime.toNat),
   (0x124, le 2 (acrossAt p.order 0) ++ le 2 (acrossAt p.order 1)),
   (0x128, snapBytes p.snapshot[0]? ++ snapBytes p.snapshot[1]?)]

/-- The 768 bytes of the whole result part, with the mark counts and list as DMR holds them (R88, R194). -/
def resultPart (p : Plate) (m : SlotMarks) : List Byte :=
  le 4 p.order.plateId ++ le 2 p.order.edition ++ le 1 p.state.code ++ le 1 p.refusal ++ le 1 p.attempt ++ le 1 p.charged ++
    le 1 (closingCode p.closing) ++ le 1 p.order.budget ++ leSigned p.order.trim ++ le 2 p.exposed ++ le 2 p.holds ++ le 2 0 ++
    le 4 p.orderedTime.toNat ++ le 4 p.readyTime.toNat ++ le 4 p.imagingTime.toNat ++ le 4 p.finalTime.toNat ++
    le 2 (acrossAt p.order 0) ++ le 2 (acrossAt p.order 1) ++ snapBytes p.snapshot[0]? ++ snapBytes p.snapshot[1]? ++
    le 1 m.marks.length ++ le 1 m.lost ++ List.replicate 6 0 ++
    m.marks.flatMap markBytes ++ List.replicate (32 * (8 - m.marks.length)) 0 ++ List.replicate 448 0

/-- The byte of the news map that holds a slot's bit is written; an alert follows when the bit changed from 0 to 1 (R5, R27). -/
def writeNews (slot : Nat) (notices : List Notice) (k : Chip) : Chip :=
  pscWrite (k.lay.mapBase + 0x240 + slot / 8) [mapByte k.psc.newsMap (slot / 8)] notices k

/-- The byte of the plate hold map that holds a slot's bit is written (R5). -/
def writeHold (slot : Nat) (k : Chip) : Chip :=
  pscWrite (k.lay.mapBase + 0x200 + slot / 8) [mapByte k.psc.holdMap (slot / 8)] [] k

/-- The slot's news bit is set; only a change from 0 to 1 is written and sets ALERT.NEWS (R27). -/
def setNews (slot : Nat) (k : Chip) : Chip :=
  if k.psc.newsMap.getLsbD slot then k
  else writeNews slot [.alert .news] (k.setPsc { k.psc with newsMap := mapSet k.psc.newsMap slot true })

/-- The slot's news bit is cleared, without an alert (R26, R27). -/
def clearNews (slot : Nat) (k : Chip) : Chip :=
  if k.psc.newsMap.getLsbD slot then writeNews slot [] (k.setPsc { k.psc with newsMap := mapSet k.psc.newsMap slot false })
  else k

/-- The writes of the result fields that differ between two plates, the state last (R88). -/
def fieldWrites (slot : Nat) (old new : Plate) (k : Chip) : Chip :=
  let changed := ((resultFields old).zip (resultFields new)).filter (fun e => decide (e.1.2 ≠ e.2.2))
  let k1 := changed.foldl (fun k e => pscWrite (k.slotAddr slot + e.2.1) e.2.2 [] k) k
  if old.state = new.state then k1 else pscWrite (k1.slotAddr slot + 0x106) (le 1 new.state.code) [] k1

/-- One slot's changes since the plate given are written, and its news bit is set on a state change, and when the input sets it (R27, R88). -/
def publishSlot (slot : Nat) (old : Plate) (k : Chip) : Chip :=
  match k.plate slot with
  | none => k
  | some p =>
    let k1 := fieldWrites slot old p k
    if decide (old.state ≠ p.state) || k.psc.newsDue.contains slot then setNews slot k1 else k1

/-- In STOPPING, once no plate is PREPARING or IMAGING, the run state becomes STOPPED (R10). -/
def checkStopped (k : Chip) : Chip :=
  if decide (k.pd.runState = .stopping) &&
      !k.psc.plates.any (fun e => decide (e.2.state = .preparing) || decide (e.2.state = .imaging)) then
    k.setRun .stopped
  else k

/-- The news bits that the input in hand sets, from the slots given. -/
def setNewsDue (l : List Nat) (k : Chip) : Chip := k.setPsc { k.psc with newsDue := l }

/-- The end of an input: every slot's changes are written, and STOPPING may end (R10, R20, R27, R88). -/
def publish (old : List (Nat × Plate)) (k : Chip) : Chip :=
  checkStopped (setNewsDue [] (old.foldl (fun a e => publishSlot e.1 e.2 a) k))

/-- The whole result part is written, then the news bit is set (R25 (4), R88). -/
def writeResult (slot : Nat) (k : Chip) : Chip :=
  match k.plate slot with
  | none => k
  | some p => setNewsDue [] (setNews slot (pscWrite (k.slotAddr slot + 0x100) (resultPart p (k.marks slot)) [] k))

/-! ### Breaks of an exposure (R104) -/

/-- A pending BREAK's flag after another BREAK (R104 (1)). -/
def raiseBreak : Option BreakFlag → BreakFlag → BreakFlag
  | some .cancel, _ => .cancel
  | some .requeue, f => f
  | none, f => f

/-- BREAK in IMAGING with exposure begun (R104): the break pending, and on the first BREAK of the attempt the request to IMC. -/
def startBreak (slot : Nat) (f : BreakFlag) (k : Chip) : Chip :=
  match k.plate slot with
  | none => k
  | some p =>
    let k1 := setPlate slot { p with breakPending := some (raiseBreak p.breakPending f) } k
    if p.breakPending.isNone then imcBreak slot p.attempt k1 else k1

/-- A plate that is neither CLOSING nor terminal. -/
def PlateState.live (p : PlateState) : Bool := !(decide (p = .closing) || p.terminal)

/-- A step acts on its plate unless the plate has been closed meanwhile, as the FAIL of a mark closes it (R105, R109). -/
def whileLive (slot : Nat) (f : Chip → Chip) (k : Chip) : Chip :=
  match k.plate slot with
  | none => k
  | some p => if p.state.live then f k else k

/-! ### The steps of an input (R20, R188) -/

/-- PSC cannot go on: an order is being read, a write is outstanding, or a mark of its own waits for its disposition. -/
def pscBlocked (k : Chip) : Bool :=
  !k.working || k.psc.ordering.isSome || decide (k.psc.outstanding ≠ 0) || k.psc.awaiting

/-- One step. -/
def doStep : PscStep → Chip → Chip
  | .mark m, k => pscMark m k
  | .look slot n, k => lookAt slot n k
  | .settle slot returned, k => whileLive slot (settleReadiness slot returned) k
  | .waiting slot, k => whileLive slot (enterWaiting slot) k
  | .late slot clock, k => checkLate slot clock k
  | .overdue slot clock, k => checkOverdue slot clock k
  | .fail slot, k => whileLive slot (closePlate slot .failed) k
  | .startBreak slot f, k => startBreak slot f k
  | .result slot, k => checkStopped (writeResult slot k)
  | .publish old, k => publish old k

/-- Another list of steps left. -/
def setWork (l : List PscStep) (k : Chip) : Chip := k.setPsc { k.psc with work := l }

/-- The steps are done in order until PSC cannot go on. -/
def runSteps : List PscStep → Chip → Chip
  | [], k => setWork [] k
  | t :: ts, k => if pscBlocked k then setWork (t :: ts) k else runSteps ts (doStep t k)

/-- An input is begun: what it does at once, its steps, and the writes at its end. -/
def beginInput (plan : Chip → Plan) (k : Chip) : Chip :=
  let r := plan k
  runSteps (r.2 ++ [.publish k.psc.plates]) r.1

/-- LATE and OVERDUE of every held plate, at a change of PLANT_CLOCK (R110). -/
def planClock (v : Word) (k : Chip) : Plan :=
  (k, k.psc.plates.flatMap (fun e => [.late e.1 v, .overdue e.1 v]))

/-- A plate in PREPARING is returned on entry to STOPPING (R10): withdrawn, its attempt kept. One that waited for PSC is withdrawn
also when RUN has risen again meanwhile: the model's choice (log 64). -/
def planStopping (k : Chip) : Plan :=
  k.psc.plates.foldl (fun a e =>
    if e.2.state = .preparing then (withdraw e.1 e.2.attempt a.1, a.2 ++ evaluation e.1 true) else a) (k, [])

/-- What an event comes to. -/
def planEvent : PscEvent → Chip → Plan
  | .clock v, k => planClock v k
  | .stopping, k => planStopping k

/-- Another list of events that have come. -/
def setDue (l : List PscEvent) (k : Chip) : Chip := k.setPsc { k.psc with due := l }

/-- The events that came meanwhile are taken one after another. -/
def runDue : List PscEvent → Chip → Chip
  | [], k => setDue [] k
  | e :: es, k =>
    if pscBlocked k || !k.psc.work.isEmpty then setDue (e :: es) k else runDue es (beginInput (planEvent e) k)

/-- PSC goes on: with the input in hand, then with the events that came meanwhile. -/
def pscGo (k : Chip) : Chip :=
  let k1 := runSteps k.psc.work k
  runDue k1.psc.due k1

/-- PSC is free to take an input: it has finished applying the one before (R20). -/
def pscFree (k : Chip) : Bool := !pscBlocked k && k.psc.work.isEmpty && k.psc.due.isEmpty

/-- PSC takes an input. -/
def pscTake (plan : Chip → Plan) (k : Chip) : Chip := pscGo (beginInput plan k)

/-- An event reaches PSC, which takes it as soon as it is free. -/
def pscHear (e : PscEvent) (k : Chip) : Chip := pscGo (setDue (k.psc.due ++ [e]) k)

/-- LATE and OVERDUE of every held plate, at a change of PLANT_CLOCK (R110). -/
def clockMarks (v : Word) (k : Chip) : Chip := if k.working then pscHear (.clock v) k else k

/-- PSC takes the input at the head of its inbox (log 10). -/
def popInbox (k : Chip) : Chip := k.setPsc { k.psc with inbox := k.psc.inbox.drop 1 }

/-- The next input of PSC, when it is free to take one. -/
def nextInput (k : Chip) : Option PscInput := if pscFree k then k.psc.inbox.head? else none

/-! ### Re-snapshot and remakes (R82–R85) -/

/-- The render order entry of a plate as it stands (R113). -/
def renderEntryOf (k : Chip) (slot : Nat) (p : Plate) : RenderEntry :=
  { slot := slot, attempt := p.attempt, snapshot := p.snapshot, snapNo := p.snapNo, format := k.format p.order.format, sep := p.order.sep,
    curve := p.order.curve, screenSet := p.order.screenSet, trim := p.order.trim, positions := p.order.positions, next := 0,
    begun := false, stall := false, finding := false, ordinal := p.prepOrdinal }

/-- A HOLD withdraws the plate to WAITING, and its readiness is evaluated; the attempt stays OPEN (R106). -/
def holdWithdraw (slot attempt : Nat) (k : Chip) : Plan := (withdraw slot attempt k, .waiting slot :: evaluation slot false)

/-- The key of a position of an order. -/
def positionKey (p : Plate) (n : Nat) : PageKey := (p.order.positions[n]?.map (·.key)).getD ⟨0, 0, 0⟩

/-- A re-snapshot has been answered PINNED (R83 (2)). -/
def reSnapshotPinned (slot : Nat) (p : Plate) (snap : List PosSnap) (k : Chip) : Chip :=
  let k1 := if p.pinsHeld then unpinRequest p.snapshot k else k
  let q := { p with snapshot := snap, snapNo := (p.snapNo + 1) % 256, pinsHeld := true }
  let k2 := restart (renderEntryOf k1 slot q) (setPlate slot q k1)
  if p.state = .imaging then clearHolds k2 else k2

/-- A re-snapshot (R83, R84) of a plate in PREPARING, or in IMAGING before exposure, for the remade key and version. BASE is handled by its
HOLD. On NOT_READY and NOSEP the plate is withdrawn before its marks are recorded: the model's choice (log 48). -/
def reSnapshot (slot : Nat) (p : Plate) (key : PageKey) (version : Nat) (k : Chip) : Plan :=
  let (answer, k1) := snapshotRequest p.order.sep p.order.positions k
  let remade := PscStep.mark (ownMark slot p.attempt .remade (some key) version)
  match answer with
  | .pinned snap => (reSnapshotPinned slot p snap k1, [remade])
  | .base n bkey => (k1, [remade, .mark (ownMark slot p.attempt .base (some bkey) n)])
  | .notReady => (withdraw slot p.attempt k1, remade :: evaluation slot true)
  | .nosep n i v =>
    (withdraw slot p.attempt k1,
      remade :: .mark (nosepMark slot p.attempt n i v (positionKey p n)) :: evaluation slot true)

/-- Whether a snapshot names a record of a key with a lower version, as a position's record or as its base record (R82). -/
def namesOlder (p : Plate) (key : PageKey) (version : Nat) : Bool :=
  p.snapshot.zipIdx.any (fun e =>
    (decide (positionKey p e.2 = key) && decide (e.1.version < version)) ||
      (match e.1.base with
        | some (_, v, b) => decide (b = key) && decide (v < version)
        | none => false))

/-- The remake of one plate, judged as it and IMC's flag stand when the report is taken (R82, R85). -/
def remakePlate (slot : Nat) (p : Plate) (key : PageKey) (version : Nat) (k : Chip) : Plan :=
  let marked (kind : MarkKind) := PscStep.mark (ownMark slot p.attempt kind (some key) version)
  match p.state with
  | .preparing => reSnapshot slot p key version k
  | .imaging =>
    if !exposureBegun k slot p.attempt then reSnapshot slot p key version k
    else if p.order.actionBreak then (k, [marked .remade, .startBreak slot .requeue])
    else (k, [marked .outdated])
  | .finishing => (k, [marked .outdated])
  | .waiting => (k, [])
  | .ready => (k, [])
  | .closing => (k, [])
  | .done => (k, [])
  | .failed => (k, [])
  | .cancelled => (k, [])
  | .refused => (k, [])

/-- The held slots in ascending order. -/
def heldSlots (k : Chip) : List Nat := k.psc.plates.map (·.1)

/-- Whether a report remakes plates: a record has become COMPLETE for the first time (R82). -/
def PageReport.remakes (r : PageReport) : Bool := decide (r.state = some .complete) && !r.again

/-- The remakes of a report, plate by plate in ascending order of their slots: the model's choice (R82, log 45). -/
def remakes (r : PageReport) (k : Chip) : Plan :=
  k.psc.plates.foldl (fun a e =>
    if r.remakes && namesOlder e.2 r.key r.version then
      let b := remakePlate e.1 e.2 r.key r.version a.1
      (b.1, a.2 ++ b.2)
    else a) (k, [])

/-- A page report is applied: the remakes of a record that has become COMPLETE, and the readiness of WAITING and READY plates (R80, R82). -/
def planPageReport (r : PageReport) (k : Chip) : Plan :=
  let a := remakes r k
  (a.1, a.2 ++ k.psc.plates.flatMap (fun e =>
    if e.2.state = .waiting ∨ e.2.state = .ready then evaluation e.1 false else []))

/-! ### ORDER (R24, R25, R87–R91) -/

/-- PSC takes an ORDER word (R24, R25 (1), (2)): the hold bit, then the read of the host part. DMR's list is emptied (R194). -/
def takeOrder (slot : Nat) (k : Chip) : Chip :=
  if k.psc.holdMap.getLsbD slot then raise .postBad k
  else
    let k1 := k.setPsc { k.psc with holdMap := mapSet k.psc.holdMap slot true, ordering := some slot }
    let k2 := k1.setDmr { k1.dmr with lists := tblPut k1.dmr.lists slot SlotMarks.empty }
    issue { client := .report, stream := none, addr := k2.slotAddr slot, op := .read 256, purpose := .order slot, notices := [] }
      (writeHold slot k2)

/-- A position of the host part (R87). -/
def positionBytes (b : List Byte) (i : Nat) : Position := { key := keyAt b i, across := u16 b (i + 4), around := u16 b (i + 6) }

/-- The positions read: one or two (R87). -/
def positionsOf (b : List Byte) : List Position :=
  if u8 b 0x0C = 2 then [positionBytes b 0x18, positionBytes b 0x20] else [positionBytes b 0x18]

/-- A press trim as a signed value (R87). -/
def trimOf (b : List Byte) : Int := (BitVec.ofNat 16 (u16 b 0x10)).toInt

/-- An offset rounded down to a multiple of 64 (R90 (1)). -/
def alignDown (a : Nat) : Nat := 64 * (a / 64)

/-- Whether two positions have the same across offset after rounding (R89 check 12). -/
def sameBand : List Position → Bool
  | [p, q] => decide (alignDown p.across = alignDown q.across)
  | _ => false

/-- The number of the first check of R89 that fails, 0 when none does. -/
def orderCheck (b : List Byte) (formats : List PlateFormat) : Nat :=
  let f := formats.getD (u8 b 7) noFormat
  let ps := positionsOf b
  if u8 b 0x0C ≠ 1 ∧ u8 b 0x0C ≠ 2 then 1
  else if 3 < u8 b 6 then 2
  else if 7 < u8 b 7 then 3
  else if 15 < u8 b 0x0D then 4
  else if 15 < u8 b 0x0E then 5
  else if 7 < u8 b 0x0F then 6
  else if 1 < u8 b 0x13 then 7
  else if 14 < u8 b 0x14 then 8
  else if ps.any (fun p => !keyInRange p.key) then 9
  else if ps.any (fun p => decide (f.rows ≤ p.across)) then 10
  else if ps.any (fun p => decide (f.width ≤ p.around)) then 11
  else if sameBand ps then 12
  else 0

/-- A trim brought to −256 to +255 (R90 (2)). -/
def clampTrim (t : Int) : Int := if t < -256 then -256 else if 255 < t then 255 else t

/-- The order as adjusted (R90). -/
def orderOf (b : List Byte) : Order :=
  { plateId := u32 b 0, edition := u16 b 4, sep := u8 b 6, format := u8 b 7, deadline := u32 b 8
    positions := (positionsOf b).map (fun p => { p with across := alignDown p.across })
    profile := u8 b 0x0D, curve := u8 b 0x0E, screenSet := u8 b 0x0F, trim := clampTrim (trimOf b), budget := min 3 (u8 b 0x12)
    actionBreak := decide (u8 b 0x13 = 1), bin := u8 b 0x14 }

/-- The order of a REFUSED slot: plate id and edition copied, the effective fields 0 (R88, R89). -/
def refusedOrder (b : List Byte) : Order :=
  { plateId := u32 b 0, edition := u16 b 4, sep := 0, format := 0, deadline := 0, positions := [], profile := 0, curve := 0,
    screenSet := 0, trim := 0, budget := 0, actionBreak := false, bin := 0 }

/-- A plate at ORDER (R91, R92). -/
def Plate.atOrder (o : Order) (clock : Word) : Plate :=
  { order := o, state := .waiting, refusal := 0, attempt := 1, status := .notStarted, charged := 0, pinsHeld := false, snapshot := [],
    snapNo := 0, prepNo := 0, breakPending := none, closing := none, drumReject := false, carriersOut := 0, lateDone := false,
    overdueDone := false, exposed := 0, holds := 0, orderedTime := clock, readyTime := 0, imagingTime := 0, finalTime := 0,
    prepOrdinal := 0 }

/-- A REFUSED plate (R89). -/
def Plate.refusedWith (o : Order) (reason : Nat) (clock : Word) : Plate :=
  { Plate.atOrder o clock with state := .refused, refusal := reason, attempt := 0, finalTime := clock }

/-- ALIGN for each position that was rounded (R90 (1)). -/
def alignMarks (slot : Nat) (ps : List Position) : List PscStep :=
  (ps.zipIdx.filter (fun e => decide (e.1.across % 64 ≠ 0))).map
    (fun e => .mark (ownMark slot 1 .align (some e.1.key) e.2))

/-- The host part of an order: validation, adjustment, first state, the result part (R25 (3), (4), R89–R91). LATE and OVERDUE are compared with
PLANT_CLOCK as it stands here, at the arrival, also when the comparison waits for the disposition of an ALIGN or NOSEP mark (R110, log 55,
DESIGN CHOICE). -/
def planOrder (slot : Nat) (b : List Byte) (k : Chip) : Plan :=
  let check := orderCheck b k.lay.formats
  let clock := k.regs.plantClock
  if check = 0 then
    (setPlate slot (Plate.atOrder (orderOf b) clock) k,
      alignMarks slot (positionsOf b) ++ evaluation slot true ++ [.late slot clock, .overdue slot clock, .result slot])
  else (setPlate slot (Plate.refusedWith (refusedOrder b) check clock) k, [.result slot])

/-- The host part of an order has been read (R25 (3)). -/
def orderArrives (slot : Nat) (b : List Byte) (k : Chip) : Chip :=
  if k.psc.ordering = some slot then
    let r := planOrder slot b (k.setPsc { k.psc with ordering := none })
    pscGo (runSteps (r.2 ++ r.1.psc.work) r.1)
  else k

/-! ### RELEASE, SEEN, BREAK (R24, R26, R27, R102–R104) -/

/-- The slot's on-chip state and its mark list are discarded (R26 (4), R194). -/
def forgetSlot (slot : Nat) (k : Chip) : Chip :=
  (k.setPsc { k.psc with plates := tblErase k.psc.plates slot }).setDmr { k.dmr with lists := tblErase k.dmr.lists slot }

/-- RELEASE of a terminal slot (R26). -/
def releaseSlot (slot : Nat) (k : Chip) : Chip :=
  let k1 := clearNews slot (pscWrite (k.slotAddr slot + 0x106) [0] [] k)
  forgetSlot slot (writeHold slot (k1.setPsc { k1.psc with holdMap := mapSet k1.psc.holdMap slot false }))

/-- PSC takes a RELEASE word (R24). -/
def takeRelease (slot : Nat) (k : Chip) : Chip :=
  match k.plate slot with
  | some p => if p.state.terminal then releaseSlot slot k else raise .postBad k
  | none => raise .postBad k

/-- PSC takes a SEEN word (R27). -/
def takeSeen (slot : Nat) (k : Chip) : Chip := clearNews slot k

/-- BREAK in PREPARING, or in IMAGING before exposure (R103). -/
def breakWithdraw (slot : Nat) (p : Plate) (f : BreakFlag) (k : Chip) : Plan :=
  let k1 := withdraw slot p.attempt k
  match f with
  | .requeue => (updPlate slot Plate.endAttempt k1, evaluation slot true)
  | .cancel => (closePlate slot .cancelled k1, [])

/-- The detail of LATE_BREAK: 0 REQUEUE, 1 CANCEL (R189). -/
def BreakFlag.code : BreakFlag → Nat
  | .requeue => 0
  | .cancel => 1

/-- PSC takes a BREAK of a held plate (R102–R104). -/
def breakPlateOf (slot : Nat) (p : Plate) (f : BreakFlag) (k : Chip) : Plan :=
  match p.state with
  | .waiting => (if f = .cancel then closePlate slot .cancelled k else k, [])
  | .ready => (if f = .cancel then closePlate slot .cancelled k else k, [])
  | .preparing => breakWithdraw slot p f k
  | .imaging => if exposureBegun k slot p.attempt then (startBreak slot f k, []) else breakWithdraw slot p f k
  | .finishing => (k, [.mark (ownMark slot p.attempt .lateBreak none f.code)])
  | .closing => (k, [])
  | .done => (k, [])
  | .failed => (k, [])
  | .cancelled => (k, [])
  | .refused => (k, [])

/-- PSC takes a BREAK word (R24). -/
def takeBreak (slot : Nat) (f : BreakFlag) (k : Chip) : Chip :=
  match k.plate slot with
  | some p => pscTake (breakPlateOf slot p f) k
  | none => raise .postBad k

/-! ### Selection (R95, R96) -/

/-- Whether some plate is PREPARING. -/
def anyPreparing (k : Chip) : Bool := k.psc.plates.any (fun e => decide (e.2.state = .preparing))

/-- The conditions of R95 but for the last, for a PSC that has finished its input (R96). -/
def maySelect (k : Chip) : Bool :=
  pscFree k && decide (k.pd.runState = .running) && !anyPreparing k && decide (k.imc.state ≠ .paused)

/-- The attempt at an entry to PREPARING (R93 (1)). -/
def Plate.openAttempt (p : Plate) : Plate :=
  { p with attempt := if p.status = .ended then p.attempt + 1 else p.attempt, status := .opened }

/-- Entry to PREPARING with the snapshot returned (R96 (4)). -/
def enterPreparing (slot : Nat) (p : Plate) (snap : List PosSnap) (k : Chip) : Chip :=
  let q := { p.openAttempt with
    state := .preparing, snapshot := snap, snapNo := (p.snapNo + 1) % 256, prepNo := (p.prepNo + 1) % 256, pinsHeld := true
    prepOrdinal := k.psc.ordinal + 1 }
  let k1 := setPlate slot q (k.setPsc { k.psc with ordinal := k.psc.ordinal + 1 })
  handPlate { slot := slot, attempt := q.attempt, prep := q.prepNo, format := q.order.format, profile := q.order.profile }
    (joinRender (renderEntryOf k1 slot q) k1)

/-- The first table of an order that is INVALID (R96 (2)). -/
def selectionFault (k : Chip) (o : Order) : Option TableId :=
  match renderFault k o.curve o.screenSet o.sep with
  | some t => some t
  | none => profileFault k o.profile

/-- The plate at the head of the ready list is selected (R96, R81). The marks name the plate's attempt number, also when that attempt has ended:
the model's choice (log 46). BASE names the attempt the plate waits for, so that DMR judges it HOLD as R81 says (log 38). -/
def selectPlate (slot : Nat) (p : Plate) (k : Chip) : Plan :=
  let marked (attempt : Nat) (kind : MarkKind) (key : Option PageKey) (detail : Nat) := PscStep.mark (ownMark slot attempt kind key detail)
  if p.status = .ended ∧ p.attempt = 15 then (k, [marked p.attempt .attempts none 15, .fail slot])
  else
    match selectionFault k p.order with
    | some t => (k, [marked p.attempt .table none t.detail, .fail slot])
    | none =>
      let (answer, k1) := snapshotRequest p.order.sep p.order.positions k
      match answer with
      | .pinned snap => (enterPreparing slot p snap k1, [])
      | .notReady => (k1, [.waiting slot])
      | .nosep n i v => (k1, [.mark (nosepMark slot p.attempt n i v (positionKey p n)), .waiting slot])
      | .base n key => (k1, [marked (waitedAttempt p) .base (some key) n, .waiting slot])

/-- SELECTION (R95, R96). -/
def selection (k : Chip) : Chip :=
  if maySelect k then
    match k.psc.ready with
    | [] => k
    | slot :: rest =>
      match k.plate slot with
      | none => k
      | some p => pscTake (fun k => selectPlate slot p (k.setPsc { k.psc with ready := rest })) k
  else k

/-! ### Reports (R97–R99) -/

/-- IMC's report of entry into EXPOSING (R97). -/
def applyExposingEntry (slot attempt prep : Nat) (k : Chip) : Chip :=
  updPlate slot (fun p =>
    if p.state = .preparing ∧ p.isCurrent attempt = true ∧ p.prepNo = prep then
      { p with state := .imaging, imagingTime := k.regs.plantClock }
    else p) k

/-- Whether an exposure end report changes the plate's values (R97). -/
def exposureNews (k : Chip) (slot prep exposed holds : Nat) : Bool :=
  match k.plate slot with
  | some p => decide (p.prepNo = prep) && (decide (p.exposed ≠ exposed) || decide (p.holds ≠ holds))
  | none => false

/-- IMC's report of exposure end (R97). -/
def applyExposureEnd (slot prep exposed holds : Nat) (k : Chip) : Chip :=
  updPlate slot (fun p => if p.prepNo = prep then { p with exposed := exposed, holds := holds } else p) k

/-- BR's report that a render has finished (R97). -/
def applyRenderFinished (slot attempt snapNo : Nat) (k : Chip) : Chip :=
  match k.plate slot with
  | none => k
  | some p => if p.isCurrent attempt && decide (p.snapNo = snapNo) && p.pinsHeld then giveUpPins slot k else k

/-- A good carrier of the current attempt makes an IMAGING plate FINISHING; a pending break has come too late (R98). -/
def enterFinishing (slot : Nat) (k : Chip) : Plan :=
  match (giveUpPins slot k).plate slot with
  | none => (k, [])
  | some p =>
    (setPlate slot { p with state := .finishing, breakPending := none } (giveUpPins slot k),
      match p.breakPending with
      | some f => [.mark (ownMark slot p.attempt .lateBreak none f.code)]
      | none => [])

/-- HLC's report of a new carrier (R98). -/
def applyCarrierCreated (slot attempt : Nat) (spoiled : Bool) (k : Chip) : Plan :=
  match k.plate slot with
  | none => (k, [])
  | some p =>
    let k1 := setPlate slot
      { p with carriersOut := p.carriersOut + 1, drumReject := if spoiled then false else p.drumReject } k
    if !spoiled && p.isCurrent attempt && decide (p.state = .imaging) then enterFinishing slot k1 else (k1, [])

/-- A plate after a carrier of its slot has been removed (R99). -/
def Plate.afterRemoval (p : Plate) (attempt : Nat) (spoiled : Bool) (clock : Word) : Plate :=
  let q := { p with carriersOut := p.carriersOut - 1 }
  if p.state = .finishing ∧ spoiled = false ∧ p.isCurrent attempt = true then { q with state := .done, finalTime := clock }
  else if p.state = .closing ∧ q.carriersOut = 0 ∧ p.drumReject = false then
    { q with
      state := match p.closing with
        | some o => o.state
        | none => .failed
      finalTime := clock }
  else q

/-- HLC's report of a removed carrier (R99). -/
def applyCarrierRemoved (slot attempt : Nat) (spoiled : Bool) (k : Chip) : Chip :=
  updPlate slot (fun p => p.afterRemoval attempt spoiled k.regs.plantClock) k

/-! ### Dispositions (R105–R109) -/

/-- The place of a disposition as the plate stands: a drum plate that has become FINISHING is a carrier (R105). -/
def placeAsStands (p : Plate) (pl : Place) : Place := if p.state = .finishing ∧ pl = .drum then .carrier else pl

/-- The outcome of a SPOIL (R107 (4)). -/
def spoilOutcome (slot : Nat) (k : Chip) : Plan :=
  match k.plate slot with
  | none => (k, [])
  | some p =>
    if p.order.budget < p.charged then (closePlate slot .failed k, [])
    else if p.breakPending = some .cancel then (closePlate slot .cancelled k, [])
    else
      (updPlate slot (fun p => { p with breakPending := none }.endAttempt) (leaveReady slot k), evaluation slot true)

/-- A SPOIL of the current attempt (R107, R185). -/
def applySpoil (slot : Nat) (p : Plate) (charged : Bool) (pl : Place) (k : Chip) : Plan :=
  let k1 := setPlate slot
    { p with
      charged := if charged then p.charged + 1 else p.charged
      drumReject := p.drumReject || decide (pl = .drum) } k
  let k2 := discard slot p.attempt (giveUpPins slot (imcSpoilWord slot p.attempt k1))
  spoilOutcome slot (if pl = .carrier then spoilCarriers slot p.attempt k2 else k2)

/-- A HOLD of the current attempt (R106). -/
def applyHold (slot : Nat) (p : Plate) (k : Chip) : Plan :=
  match p.state with
  | .preparing => holdWithdraw slot p.attempt k
  | .imaging =>
    if exposureBegun k slot p.attempt then applySpoil slot p false .drum k else holdWithdraw slot p.attempt k
  | .finishing => applySpoil slot p false .carrier k
  | .waiting => (k, [])
  | .ready => (k, [])
  | .closing => (k, [])
  | .done => (k, [])
  | .failed => (k, [])
  | .cancelled => (k, [])
  | .refused => (k, [])

/-- A FAIL of the current attempt (R109). -/
def applyFail (slot : Nat) (p : Plate) (k : Chip) : Chip :=
  let k1 := match p.state with
    | .preparing => withdraw slot p.attempt k
    | .imaging =>
      if exposureBegun k slot p.attempt then
        discard slot p.attempt (giveUpPins slot (imcSpoilWord slot p.attempt (setPlate slot { p with drumReject := true } k)))
      else withdraw slot p.attempt k
    | .finishing => spoilCarriers slot p.attempt k
    | .waiting => k
    | .ready => k
    | .closing => k
    | .done => k
    | .failed => k
    | .cancelled => k
    | .refused => k
  closePlate slot .failed k1

/-- A disposition is applied (R105). -/
def applyDisposition (d : Disposition) (k : Chip) : Plan :=
  match k.plate d.slot with
  | none => (k, [])
  | some p =>
    if !p.isCurrent d.attempt || decide (p.state = .closing) || p.state.terminal then (k, [])
    else
      match d.severity with
      | .note => (k, [])
      | .hold => applyHold d.slot p k
      | .spoil => applySpoil d.slot p d.charged (placeAsStands p d.place) k
      | .fail => (applyFail d.slot p k, [])

/-- A slot whose news bit the input in hand sets. -/
def newsOf (slot : Nat) (k : Chip) : Chip := setNewsDue (k.psc.newsDue ++ [slot]) k

/-! ### The commands of PSC -/

/-- PAGE_REPORT (R80, R82). -/
def takePageReport (k : Chip) : Chip :=
  match nextInput k with
  | some (.page r) => pscTake (planPageReport r) (popInbox k)
  | _ => k

/-- EXPOSING_ENTRY_REPORT (R97). -/
def takeExposingEntry (k : Chip) : Chip :=
  match nextInput k with
  | some (.exposingEntry slot attempt prep) => pscTake (fun k => (applyExposingEntry slot attempt prep k, [])) (popInbox k)
  | _ => k

/-- EXPOSURE_END_REPORT (R97). -/
def takeExposureEnd (k : Chip) : Chip :=
  match nextInput k with
  | some (.exposureEnd slot _ prep exposed holds) =>
    pscTake (fun k =>
      (applyExposureEnd slot prep exposed holds (if exposureNews k slot prep exposed holds then newsOf slot k else k), []))
      (popInbox k)
  | _ => k

/-- RENDER_FINISHED (R97). -/
def takeRenderFinished (k : Chip) : Chip :=
  match nextInput k with
  | some (.renderFinished slot attempt snapNo) => pscTake (fun k => (applyRenderFinished slot attempt snapNo k, [])) (popInbox k)
  | _ => k

/-- CARRIER_CREATED (R98, R183). A carrier that names no slot is ignored by PSC. -/
def takeCarrierCreated (k : Chip) : Chip :=
  match nextInput k with
  | some (.carrierCreated (some slot) attempt spoiled) =>
    carrierTaken (pscTake (applyCarrierCreated slot attempt spoiled) (popInbox k))
  | some (.carrierCreated none _ _) => carrierTaken (popInbox k)
  | _ => k

/-- CARRIER_REMOVED (R99). A carrier that names no slot is ignored. -/
def takeCarrierRemoved (k : Chip) : Chip :=
  match nextInput k with
  | some (.carrierRemoved (some slot) attempt spoiled) =>
    pscTake (fun k => (applyCarrierRemoved slot attempt spoiled k, [])) (popInbox k)
  | some (.carrierRemoved none _ _) => popInbox k
  | _ => k

/-- A disposition with the news bit of its mark (R27). -/
def planDisposition (d : Disposition) (k : Chip) : Plan := applyDisposition d (newsOf d.slot k)

/-- The disposition that PSC waits for has come: it is applied, and PSC goes on with the step that raised the mark (R188). -/
def takeAnswer (d : Disposition) (k : Chip) : Chip :=
  let r := planDisposition d (k.setPsc { k.psc with awaiting := false, answer := none })
  pscGo (setWork (r.2 ++ r.1.psc.work) r.1)

/-- DISPOSITION_APPLY (R105): the disposition that PSC waits for, otherwise the next input. -/
def takeDisposition (k : Chip) : Chip :=
  if k.working && k.psc.awaiting then
    match k.psc.answer with
    | some d => takeAnswer d k
    | none => k
  else
    match nextInput k with
    | some (.disposition d) => pscTake (planDisposition d) (popInbox k)
    | _ => k

end Sys2Proof.Machine
end

