-- ==== Sys2Proof/Machine/StorePort.lean ====
section
/-! DEFINITION. The Store Port: the arbiter, the fence and its cache, serving, refusing and completing transfers (chapter 2). -/

namespace Sys2Proof.Machine

/-! ### Host accesses (R2, R28) -/

/-- A write's bytes split over the transfers of its span. -/
def splitData : List (Nat × Nat) → List Byte → List (Nat × List Byte)
  | [], _ => []
  | (a, n) :: rest, bs => (a, bs.take n) :: splitData rest (bs.drop n)

/-- A transfer of the HOST client, which belongs to no stream (R28, R32). -/
def hostTransfer (addr : Nat) (op : XferOp) : Transfer :=
  { client := .host, stream := none, addr := addr, op := op, purpose := .host, notices := [] }

/-- The transfers of a host access. -/
def hostTransfers : HostOp → List Transfer
  | .read a n => (pieces a.toNat n).map (fun p => hostTransfer p.1 (.read p.2))
  | .write a d => (splitData (pieces a.toNat d.length) d).map (fun p => hostTransfer p.1 (.write p.2))

/-- A host access runs past the end of the store (log 22). -/
def pastStore : HostOp → Bool
  | .read a n => decide (storeSize < a.toNat + n)
  | .write a d => decide (storeSize < a.toNat + d.length)

/-! ### Writes of POST behind host writes (R18, R38, log 44) -/

/-- Whether a transfer writes. -/
def XferOp.isWrite : XferOp → Bool
  | .read _ => false
  | .write _ => true

/-- How many HOST transfers are ahead of a write of POST: all up to the last write among them. -/
def writesAhead : List Transfer → Nat
  | [] => 0
  | t :: ts => if t.op.isWrite || decide (writesAhead ts ≠ 0) then writesAhead ts + 1 else 0

/-- A write of POST is taken (R18). -/
def takePost (w : Word) (k : Chip) : Chip :=
  if k.working && decide (k.pd.postQueue.length < 64) then k.setPd { k.pd with postQueue := k.pd.postQueue ++ [w] }
  else raise .postLost k

/-- One transfer fewer is ahead of each waiting write of POST. -/
def fewerAhead (l : List (Nat × Word)) : List (Nat × Word) := l.map (fun p => (p.1 - 1, p.2))

/-- A HOST transfer has been served: the writes of POST that waited for it last are taken, in order. -/
def hostServed (k : Chip) : Chip :=
  let ps := fewerAhead k.sp.posts
  (ps.filter (fun p => decide (p.1 = 0))).foldl (fun a p => takePost p.2 a)
    (k.setSp { k.sp with posts := ps.filter (fun p => decide (p.1 ≠ 0)) })

/-! ### The arbiter (R29, R30) -/

/-- The weight position after a choice between BR and IU when both wait (R30). -/
def nextWeightPos (p : Nat) : Nat := (p + 1) % 16

/-- The choice between BR and IU, with the weight position after it (R30). -/
def chooseLow (p : StorePort) : Option (Client × Nat) :=
  match p.br, p.iu with
  | [], [] => none
  | _ :: _, [] => some (.br, p.weightPos)
  | [], _ :: _ => some (.iu, p.weightPos)
  | _ :: _, _ :: _ => some (if p.weightPos < p.weight then .br else .iu, nextWeightPos p.weightPos)

/-- The arbiter's choice among the waiting clients, with the weight position after it (R29). -/
def arbitrate (p : StorePort) (hfFirst : Bool) : Option (Client × Nat) :=
  if hfFirst && !p.hf.isEmpty then some (.hf, p.weightPos)
  else if !p.host.isEmpty then some (.host, p.weightPos)
  else if !p.report.isEmpty then some (.report, p.weightPos)
  else if !p.hf.isEmpty then some (.hf, p.weightPos)
  else chooseLow p

/-- The choice in a run state: in HALTED the HOST client alone is served (R42). -/
def grantChoice (k : Chip) : Option (Client × Nat) :=
  if k.pd.runState = .halted then (if k.sp.host.isEmpty then none else some (.host, k.sp.weightPos))
  else arbitrate k.sp (hfPrecedence k)

/-! ### The fence (R33–R38) -/

/-- A stream's number (1.5, R32). -/
def streamNo : Stream → Nat
  | .iuRead => 0
  | .iuWrite => 1
  | .brRead => 2
  | .brWrite => 3
  | .hfRead => 4
  | .reportWrite => 5

/-- The domain of a stream: an unmapped stream uses domain 0 (R33). -/
def domainOf (p : StorePort) (s : Stream) : Nat :=
  let m := p.streams.getD (streamNo s) StreamMapping.off
  if m.mapped then m.domain else 0

/-- A domain's settings. -/
def StorePort.domain (p : StorePort) (d : Nat) : DomainSettings := p.domains.getD d DomainSettings.off

/-- The size of a window: 64 MiB × 2^n (R33). -/
def windowSize (d : DomainSettings) : Nat := 67108864 * 2 ^ d.exponent

/-- Whether an address lies inside a window (R35). -/
def inWindow (d : DomainSettings) (a : Nat) : Bool := decide (d.base ≤ a) && decide (a < d.base + windowSize d)

/-- The page index of an address inside a window (R35 (3)). -/
def pageIndex (d : DomainSettings) (a : Nat) : Nat := (a - d.base) / 4096

/-- Where fence map word k of domain d lies (R4, R34). -/
def fenceWordAddr (fenceBase d k : Nat) : Nat := fenceBase + 131072 * d + 8 * k

/-- The value of a cached fence map word (R37 (1)). -/
def cached (c : List CacheEntry) (d k : Nat) : Option FenceWord :=
  (c.find? (fun e => decide (e.domain = d) && decide (e.word = k))).map (·.value)

/-- A word inserted as the newest entry, the oldest leaving when the cache holds 64 (R37 (3)). -/
def cacheInsert (c : List CacheEntry) (e : CacheEntry) : List CacheEntry := (if c.length < 64 then c else c.drop 1) ++ [e]

/-- Whether a page is closed in its fence map word (R34). -/
def closedIn (w : FenceWord) (page : Nat) : Bool := w.getLsbD (page % 64)

/-- What the fence says of a transfer (R35): allowed, refused, or in need of a word that is not in the cache. -/
inductive FenceAnswer where
  | allow
  | refuse (domain : Nat)
  | fetch (domain word : Nat)
  deriving DecidableEq, Repr

/-- The check of a stream transfer (R35, R37). -/
def fenceCheck (p : StorePort) (s : Stream) (addr : Nat) : FenceAnswer :=
  let d := domainOf p s
  let dom := p.domain d
  if !dom.valid then .allow
  else if !inWindow dom addr then if dom.protectOutside then .refuse d else .allow
  else
    let page := pageIndex dom addr
    match cached p.cache d (page / 64) with
    | some w => if closedIn w page then .refuse d else .allow
    | none => .fetch d (page / 64)

/-! ### Serving and refusing (R28, R39–R42) -/

/-- The store after a transfer has been served (R28). -/
def serveStore (t : Transfer) (m : Memory) : Memory :=
  match t.op with
  | .read _ => m
  | .write d => m.write t.addr d

/-- The bytes a served transfer brings. -/
def servedData (t : Transfer) (m : Memory) : List Byte :=
  match t.op with
  | .read n => m.readBytes t.addr n
  | .write _ => []

/-- A transfer has been served: it waits for its completion (R28). -/
def noteServed (t : Transfer) (m : Memory) (k : Chip) : Chip :=
  k.setSp { k.sp with served := k.sp.served ++ [{ xfer := t, data := servedData t m }] }

/-- A granted transfer has been served; behind a HOST transfer the writes of POST that followed it come. -/
def serve (t : Transfer) (m : Memory) (k : Chip) : Chip :=
  if t.client = .host then hostServed (noteServed t m k) else noteServed t m k

/-- The fault offered for a refused transfer (R39, R198). -/
def fenceOffer (t : Transfer) (s : Stream) (domain : Nat) : FaultOffer :=
  { kind := .fence, unit := streamNo s, detail := 0, addr := t.addr, addrValid := true, domain := domain, isWrite := t.op.isWrite }

/-- A refused HF read: zeros enter the prefetch of its pass, and FENCE marks the drum plate (R41 (2)). -/
def hfRefused (pass j : Nat) (k : Chip) : Chip :=
  let k1 := rowSetArrives pass j (List.replicate 4096 0) k
  match drumPlate k1 with
  | some p => imcMark p .fence 4 .drum k1
  | none => k1

/-- What the refusal of a stream's transfer brings to the block that issued it (R40–R42). The refusal is offered to the device fault
record; that of IU-write or REPORT-write halts the part. -/
def refuse (t : Transfer) (s : Stream) (domain : Nat) (k : Chip) : Chip :=
  let o := fenceOffer t s domain
  match s with
  | .iuWrite => haltPart 1 o k
  | .reportWrite => haltPart 2 o k
  | .iuRead => parseFenced (offerFault o k)
  | .brRead =>
    match t.purpose with
    | .fill id slot attempt swath => fillRefused id slot attempt swath 2 (offerFault o k)
    | .table => reloadRefused (offerFault o k)
    | _ => offerFault o k
  | .brWrite =>
    match t.purpose with
    | .fill id slot attempt swath => fillRefused id slot attempt swath 3 (offerFault o k)
    | _ => offerFault o k
  | .hfRead =>
    match t.purpose with
    | .rowSet pass j => hfRefused pass j (offerFault o k)
    | _ => offerFault o k

/-- A chosen transfer leaves its queue, and the weight position moves (R29, R30). -/
def dequeue (c : Client) (pos : Nat) (k : Chip) : Chip :=
  let p := k.sp.setWaiting c ((k.sp.waiting c).drop 1)
  k.setSp { p with weightPos := pos }

/-- A check whose fence map word is not in the cache: the word is fetched as the store holds it (R37 (2)). -/
def beginFetch (t : Transfer) (domain word : Nat) (m : Memory) (k : Chip) : Chip :=
  k.setSp { k.sp with
    check := some { xfer := t, domain := domain, word := word,
                    value := fenceWordAt (m.readBytes (fenceWordAddr k.lay.fenceBase domain word) 8), keep := true } }

/-- What the fence says of a transfer; a transfer of no stream is not checked (R2, R32, R35). -/
def checkTransfer (k : Chip) (t : Transfer) : FenceAnswer :=
  match t.stream with
  | none => .allow
  | some s => fenceCheck k.sp s t.addr

/-- A refused transfer is handled; one of no stream is never refused. -/
def refuseTransfer (t : Transfer) (domain : Nat) (k : Chip) : Chip :=
  match t.stream with
  | none => k
  | some s => refuse t s domain k

/-- A chosen transfer on chip: served, refused, or waiting for its fence map word (R35). -/
def grantChip (t : Transfer) (m : Memory) (k : Chip) : Chip :=
  match checkTransfer k t with
  | .allow => serve t m k
  | .refuse d => refuseTransfer t d k
  | .fetch d w => beginFetch t d w m k

/-- A chosen transfer in the store: an allowed write is performed (R39). -/
def grantStore (t : Transfer) (m : Memory) (k : Chip) : Memory :=
  match checkTransfer k t with
  | .allow => serveStore t m
  | .refuse _ => m
  | .fetch _ _ => m

/-- The transfer that a grant serves: none while SP makes a read of its own (R28) or no client waits. -/
def granted (k : Chip) : Option (Transfer × Client × Nat) :=
  if k.sp.check.isSome || decide (k.pd.phase = .layoutRead) then none
  else
    match grantChoice k with
    | none => none
    | some (c, pos) => ((k.sp.waiting c).head?).map (fun t => (t, c, pos))

/-- TRANSFER_GRANT (R29). -/
def grant (s : State) : State :=
  match granted s.chip with
  | none => s
  | some (t, c, pos) =>
    let k := dequeue c pos s.chip
    (s.setStore (grantStore t s.store k)).setChip (grantChip t s.store k)

/-- The fence cache after a fetched word has come: inserted as the newest entry unless a FENCE_FLUSH was taken since (R37, R38). -/
def keepWord (c : PendingCheck) (cache : List CacheEntry) : List CacheEntry :=
  if c.keep then cacheInsert cache { domain := c.domain, word := c.word, value := c.value } else cache

/-- Whether the transfer of a waiting check is refused by the word fetched for it (R35 (3)). -/
def fetchCloses (p : StorePort) (c : PendingCheck) : Bool := closedIn c.value (pageIndex (p.domain c.domain) c.xfer.addr)

/-- FENCE_MAP_FETCH_COMPLETE (R37, R38): the check is decided. SP serves nothing of its own streams in HALTED. -/
def fetchComplete (s : State) : State :=
  match s.chip.sp.check with
  | none => s
  | some c =>
    let k := s.chip.setSp { s.chip.sp with check := none, cache := keepWord c s.chip.sp.cache }
    if fetchCloses s.chip.sp c then s.setChip (refuseTransfer c.xfer c.domain k)
    else (s.setStore (serveStore c.xfer s.store)).setChip (noteServed c.xfer s.store k)

/-- FENCE_FLUSH is taken (R38). A fetch under way keeps its check and loses its place in the cache. -/
def fenceFlush (k : Chip) : Chip :=
  k.setSp { k.sp with cache := [], check := k.sp.check.map (fun c => { c with keep := false }) }

/-! ### Completion (R28) -/

/-- One write of PSC's has completed; after the last one PSC goes on with what came meanwhile (R20). -/
def pscWriteDone (k : Chip) : Chip := pscGo (k.setPsc { k.psc with outstanding := k.psc.outstanding - 1 })

/-- One write of step (5) of STARTING has completed; after the last one TL begins the full reload (R7). -/
def startWriteDone (k : Chip) : Chip :=
  k.setPd { k.pd with
    startWrites := k.pd.startWrites - 1
    phase := if k.pd.startWrites = 1 ∧ k.pd.phase = .writes then .tables else k.pd.phase }

/-- What a transfer's completion announces. -/
def deliverNotice (n : Notice) (k : Chip) : Chip :=
  match n with
  | .alert c => raise c k
  | .page r => tellPsc (.page r) k
  | .iuIdle => k.setIu { k.iu with settling := false }
  | .pscDone => pscWriteDone k
  | .startWrite => startWriteDone k
  | .markDone d => k.setDmr { k.dmr with toSend := k.dmr.toSend ++ [d] }

/-- A completed transfer's data goes to the block that issued it (R28). -/
def deliverData (t : Transfer) (data : List Byte) (k : Chip) : Chip :=
  match t.purpose with
  | .host => if t.op.isWrite then k else k.setRegs { k.regs with hostReply := data }
  | .quiet => k
  | .parse => parseArrives data k
  | .order slot => orderArrives slot data k
  | .fill id _ _ _ => fillArrives id t.op.isWrite data k
  | .table => reloadArrives data k
  | .rowSet pass j => rowSetArrives pass j data k

/-- The oldest served transfer of a client, with the others. -/
def takeServed (c : Client) : List Served → Option (Served × List Served)
  | [] => none
  | x :: xs => if x.xfer.client = c then some (x, xs) else (takeServed c xs).map (fun r => (r.1, x :: r.2))

/-- TRANSFER_COMPLETE: the oldest served transfer of a client completes (R28, log 5). In HALTED no block but the host is told (R42). -/
def transferComplete (c : Client) (k : Chip) : Chip :=
  match takeServed c k.sp.served with
  | none => k
  | some (x, rest) =>
    let k1 := k.setSp { k.sp with served := rest }
    if k.pd.runState = .halted ∧ c ≠ .host then k1
    else x.xfer.notices.foldl (fun a n => deliverNotice n a) (deliverData x.xfer x.data k1)

end Sys2Proof.Machine
end

