-- ==== Sys2Proof/Machine/Control.lean ====
section
/-! DEFINITION. The run states, CONTROL, the resets, the START checks, the register writes, and the post queue (chapter 1). -/

namespace Sys2Proof.Machine

/-! ### CONTROL (R7, R10, R14) -/

/-- Entry to STARTING (R7 (1), (2)): the START fields are cleared and SP reads the layout record. -/
def enterStarting (k : Chip) : Chip :=
  (k.setPd { k.pd with runState := .starting, phase := .layoutRead }).setRegs
    { k.regs with startFail := 0, haltCause := 0, startUnit := 0 }

/-- Entry to STOPPING (R10): the PREPARING plate, if any, is returned as soon as PSC takes the event, and STOPPED follows when no plate is
PREPARING or IMAGING. -/
def enterStopping (k : Chip) : Chip :=
  let k1 := k.setRun .stopping
  if anyPreparing k1 then pscHear .stopping k1 else checkStopped k1

/-- RUN is stored and acts by the run state (R14 (2)). -/
def writeRun (run : Bool) (k : Chip) : Chip :=
  let k1 := k.setRegs { k.regs with run := run }
  if run && !k.regs.run then
    match k.pd.runState with
    | .off => enterStarting k1
    | .stopping => k1.setRun .running
    | .stopped => k1.setRun .running
    | .starting => k1
    | .running => k1
    | .halted => k1
  else if !run && k.regs.run then
    match k.pd.runState with
    | .running => enterStopping k1
    | .off => k1
    | .starting => k1
    | .stopping => k1
    | .stopped => k1
    | .halted => k1
  else k1

/-- EXPOSE_ENABLE is stored; its fall closes the laser gate (R14 (3), R165). In HALTED it is only held (R12). -/
def writeExposeEnable (en : Bool) (k : Chip) : Chip :=
  let k1 := k.setRegs { k.regs with exposeEnable := en }
  if k.regs.exposeEnable && !en && decide (k.pd.runState ≠ .halted) then interlockFall k1 else k1

/-- A write of CONTROL (R14); EXPOSE_ENABLE is taken before RUN (log 20). The window is reached while the link is up (R2). -/
def controlWrite (v : Word) (k : Chip) : Chip :=
  if !k.regs.linkUp then k
  else if v.getLsbD 1 then engineResetChip k
  else writeRun (v.getLsbD 0) (writeExposeEnable (v.getLsbD 2) k)

/-! ### Resets (R13) -/

/-- Power-on reset: every on-chip state at its reset value; the free values to come are fresh ones (log 24). -/
def powerOnChip (k : Chip) : Chip := Chip.reset.setFresh (k.fresh + 1)

/-- The store after power-on reset: whatever the memory came up with (R2, log 2). -/
def powerUpStore (k : Chip) : Memory := Memory.ofCells (Config.powerUpCells k.fresh)

/-- A PCI Express hot reset takes the link down and acts as an engine reset (R2, R13). -/
def hotResetChip (k : Chip) : Chip :=
  let k1 := engineResetChip k
  k1.setRegs { k1.regs with linkUp := false }

/-! ### The START checks on the layout record (R3–R6, R8) -/

/-- The nine areas, as (base, size) (R4). -/
def areas (r : LayoutRecord) : List (Nat × Nat) :=
  [(0, 4096), (r.cellBase, 65536 * r.cellCount), (r.pageBase, 67108864), (r.slotBase, 4096 * ((1024 * r.slotCount + 4095) / 4096)),
   (r.bandBase, 4194304), (r.tableBase, 2097152), (r.mapBase, 4096), (r.statusBase, 4096), (r.fenceBase, 524288)]

/-- Whether two areas share a byte. -/
def overlap (a b : Nat × Nat) : Bool := decide (a.1 < b.1 + b.2) && decide (b.1 < a.1 + a.2)

/-- Whether two areas of a list share a byte. -/
def anyOverlap : List (Nat × Nat) → Bool
  | [] => false
  | a :: rest => rest.any (overlap a) || anyOverlap rest

/-- A number in a range, both ends included. -/
def inRange (lo hi v : Nat) : Bool := decide (lo ≤ v) && decide (v ≤ hi)

/-- Check 2: the counts and settings in their ranges (R3). -/
def settingsInRange (r : LayoutRecord) : Bool :=
  inRange 1 4096 r.cellCount && inRange 1 512 r.slotCount && inRange 0 15 r.slipTolerance && inRange 1 5 r.speedWindow &&
    inRange 1 15 r.settleCount && inRange 0 255 r.holdLimit && inRange 0 3600 r.lateLead && inRange 1 15 r.weight

/-- Check 3: every area aligned to 4 KiB and inside 4 GiB. -/
def areasLegal (r : LayoutRecord) : Bool := (areas r).all (fun a => decide (a.1 % 4096 = 0) && decide (a.1 + a.2 ≤ storeSize))

/-- A valid plate format (R6). -/
def formatValid (f : PlateFormat) : Bool :=
  inRange 8192 32768 f.width && decide (f.width % 64 = 0) && inRange 64 49152 f.rows && decide (f.rows % 64 = 0) &&
    inRange 0 24576 f.lead && decide (f.lead + f.width ≤ 32768) && inRange 0 7 f.cassette

/-- Check 6 for one unit; the LOADER and the PUNCH may not have ASSUME_DONE. -/
def unitLegal (u : UnitSettings) (assumeAllowed : Bool) : Bool :=
  inRange 10 1000 u.pollInterval && inRange 10 1000 u.busyRetry && inRange 1 255 u.busyLimit && inRange 1 600 u.timeout &&
    (match u.policy with
      | .fault => true
      | .assumeDone => assumeAllowed
      | .other _ => false)

/-- Check 7 for one domain; a domain without VALID is not checked. -/
def domainLegal (d : DomainSettings) : Bool :=
  !d.valid || (decide (d.base % 67108864 = 0) && decide (d.exponent ≤ 6) && decide (d.base + windowSize d ≤ storeSize))

/-- Check 7 for one stream. -/
def streamLegal (m : StreamMapping) : Bool := !m.mapped || decide (m.domain ≤ 3)

/-- The number of the first of START checks 1 to 7 that fails, 0 when none does (R8). -/
def startCheck (r : LayoutRecord) : Nat :=
  if r.formatWord ≠ 0x00640C01#32 then 1
  else if !settingsInRange r then 2
  else if !areasLegal r then 3
  else if anyOverlap (areas r) then 4
  else if !r.formats.all formatValid then 5
  else if !(r.units.zipIdx.all (fun e => unitLegal e.1 (decide (2 ≤ e.2)))) then 6
  else if !(r.domains.all domainLegal && r.streams.all streamLegal) then 7
  else 0

/-- The number of bytes that hold n bits of a map. -/
def mapBytes (n : Nat) : Nat := (n + 7) / 8

/-- A write of step (5) of STARTING (R7). -/
def startWrite (t : Transfer) : Transfer := { t with notices := t.notices ++ [.startWrite] }

/-- The writes of step (5) of STARTING: the empty maps, 1,024 RETIRED page record headers, the device fault record (R7 (5), R201). -/
def startWrites (r : LayoutRecord) (f : FaultRecord) : List Transfer :=
  ([iuWrite r.mapBase (List.replicate (mapBytes r.cellCount) 0) []] ++
    (List.range 1024).map (fun i => iuWrite (r.pageBase + 65536 * i) retiredHeader []) ++
    [reportWrite (r.mapBase + 0x200) (List.replicate (mapBytes r.slotCount) 0) [],
     reportWrite (r.mapBase + 0x240) (List.replicate (mapBytes r.slotCount) 0) [],
     reportWrite r.statusBase (faultBytes f) []]).map startWrite

/-- Steps (4) and (5) of STARTING (R7, R30, R33, R36): the record is taken up, and the empty state is written. -/
def takeUpLayout (r : LayoutRecord) (k : Chip) : Chip :=
  let f := { k.dmr.record with valid := false, overflow := false }
  let ts := startWrites r f
  let k1 := k.setPd { k.pd with layout := some r, phase := .writes, startWrites := ts.length }
  let k2 := k1.setSp { k1.sp with domains := r.domains, streams := r.streams, weight := r.weight, weightPos := 0, cache := [] }
  let k3 := (k2.setDmr { k2.dmr with record := f }).setRegs { k2.regs with faultValid := false, faultOverflow := false }
  issueAll ts k3

/-- LAYOUT_READ_COMPLETE (R7 (3)–(5), R8): the layout read of STARTING has brought the record. -/
def layoutRead (r : LayoutRecord) (k : Chip) : Chip :=
  if k.pd.runState = .starting ∧ k.pd.phase = .layoutRead then
    if startCheck r = 0 then takeUpLayout r k else startFailed (startCheck r) 0 k
  else k

/-! ### Register writes (R16, R22, R23, R200) -/

/-- The host clears causes (R22); a 1 to ALERT.FAULT also acknowledges the device fault record (R17, R200). -/
def alertWrite (v : Word) (k : Chip) : Chip :=
  if !k.regs.linkUp then k
  else
    let k1 := k.setRegs (setAlerts k.regs (k.regs.alert &&& ~~~(v.setWidth 8)) k.regs.alertEn)
    if v.getLsbD 4 then acknowledgeFault k1 else k1

/-- ALERT_EN is written whole (R23). -/
def alertEnWrite (v : Word) (k : Chip) : Chip :=
  if !k.regs.linkUp then k else k.setRegs (setAlerts k.regs k.regs.alert (v.setWidth 8))

/-- PLANT_CLOCK takes another value, and PSC compares the deadlines as soon as it takes the change (R16, R110). -/
def setClock (v : Word) (k : Chip) : Chip := clockMarks v (k.setRegs { k.regs with plantClock := v })

/-- The host writes PLANT_CLOCK (R16). -/
def clockWrite (v : Word) (k : Chip) : Chip := if !k.regs.linkUp then k else setClock v k

/-- A second ends (R16); FFFFFFFFh is followed by 0. -/
def clockTick (k : Chip) : Chip := setClock (k.regs.plantClock + 1) k

/-! ### The post queue (R18–R21) -/

/-- A write of POST: a host write still waiting at the HOST client is ahead of it, and it is taken when the last of these has been served
(R18, R38, log 44). It holds back no later write of another register, and the run state and the room that R18 asks for are those at that
moment: the model's choice (log 63). -/
def postWrite (w : Word) (k : Chip) : Chip :=
  if !k.regs.linkUp then k
  else if writesAhead k.sp.host = 0 then takePost w k
  else k.setSp { k.sp with posts := k.sp.posts ++ [(writesAhead k.sp.host, w)] }

/-- What the word at the head of the post queue says: nothing to dispatch, a word that fails PD's check, or a checked word. -/
inductive HeadWord where
  | nothing
  | bad
  | word (w : PostWord)
  deriving DecidableEq, Repr

/-- PD's check of the word at the head of the post queue, in the run states in which it dispatches (R19, R21). -/
def headWord (k : Chip) : HeadWord :=
  if k.working then
    match k.pd.postQueue with
    | [] => .nothing
    | w :: _ =>
      match decodePostWord w k.lay.cellCount k.lay.slotCount with
      | some p => .word p
      | none => .bad
  else .nothing

/-- PD removes the word at the head of the post queue (R20). -/
def popPost (k : Chip) : Chip := k.setPd { k.pd with postQueue := k.pd.postQueue.drop 1 }

/-- POST_BAD_WORD (R19). -/
def dropBadWord (k : Chip) : Chip :=
  match headWord k with
  | .bad => raise .postBad (popPost k)
  | .nothing => k
  | .word _ => k

/-- The FRAGMENT at the head goes to IU (R20, R48). -/
def dispatchFragment (k : Chip) : Chip :=
  match headWord k with
  | .word (.fragment c) => if iuHasRoom k then takeFragment c (popPost k) else k
  | _ => k

/-- The DROP at the head goes to IU (R20, R49). -/
def dispatchDrop (k : Chip) : Chip :=
  match headWord k with
  | .word (.drop key) => if iuHasRoom k then takeDrop key (popPost k) else k
  | _ => k

/-- The ORDER at the head goes to PSC (R20, R24, R25). -/
def dispatchOrder (k : Chip) : Chip :=
  match headWord k with
  | .word (.order slot) => if pscFree k then takeOrder slot (popPost k) else k
  | _ => k

/-- The BREAK at the head goes to PSC (R20, R24, R102–R104). -/
def dispatchBreak (k : Chip) : Chip :=
  match headWord k with
  | .word (.breakWord slot f) => if pscFree k then takeBreak slot f (popPost k) else k
  | _ => k

/-- The RELEASE at the head goes to PSC (R20, R24, R26). -/
def dispatchRelease (k : Chip) : Chip :=
  match headWord k with
  | .word (.release slot) => if pscFree k then takeRelease slot (popPost k) else k
  | _ => k

/-- The SEEN at the head goes to PSC (R20, R24, R27). -/
def dispatchSeen (k : Chip) : Chip :=
  match headWord k with
  | .word (.seen slot) => if pscFree k then takeSeen slot (popPost k) else k
  | _ => k

/-- The TABLE at the head goes to TL, which takes it at once (R20, R139). -/
def dispatchTable (k : Chip) : Chip :=
  match headWord k with
  | .word (.table id) => takeTable id (popPost k)
  | _ => k

/-- The RESUME at the head goes to IMC, which takes it at once (R20, R169). -/
def dispatchResume (k : Chip) : Chip :=
  match headWord k with
  | .word .resume => applyResume (popPost k)
  | _ => k

/-- The FENCE_FLUSH at the head goes to SP, which takes it at once (R20, R38). -/
def dispatchFlush (k : Chip) : Chip :=
  match headWord k with
  | .word .fenceFlush => fenceFlush (popPost k)
  | _ => k

/-- The host has retrained the link (R2). -/
def retrainLink (k : Chip) : Chip := k.setRegs { k.regs with linkUp := true }

/-- The host enables or disables message-signalled interrupts (R23). A change that occurred meanwhile is not sent later. -/
def setMsi (en : Bool) (k : Chip) : Chip := k.setRegs { k.regs with msiEnabled := en }

end Sys2Proof.Machine
end

