-- ==== Sys2Proof/Machine/HostCommands.lean ====
section
/-! DEFINITION. The meanings of the commands of the host's register writes, the resets, the link. A command whose own condition is unmet changes nothing (log 4). -/

namespace Sys2Proof.Machine

/-- A command that changes the chip alone. -/
def onChip (f : Chip → Chip) (s : State) : Result := .next (s.setChip (f s.chip))

/-- POWER_ON_RESET (R13): every on-chip state at its reset value, and the store as the memory came up (R2). -/
def execPowerOnReset (s : State) : Result :=
  .next ((s.setStore (powerUpStore s.chip)).setChip (powerOnChip s.chip))

/-- ENGINE_RESET (R13, R14 (1)). -/
def execEngineReset (control : Word) (s : State) : Result :=
  onChip (controlWrite control) s

/-- HOT_RESET (R2, R13). -/
def execHotReset (s : State) : Result :=
  onChip hotResetChip s

/-- RUN_SET (R7, R10, R11, R14). -/
def execRunSet (control : Word) (s : State) : Result :=
  onChip (controlWrite control) s

/-- RUN_CLEAR (R9, R10, R14). -/
def execRunClear (control : Word) (s : State) : Result :=
  onChip (controlWrite control) s

/-- EXPOSE_ENABLE_SET (R14 (3), R165). -/
def execExposeEnableSet (control : Word) (s : State) : Result :=
  onChip (controlWrite control) s

/-- EXPOSE_ENABLE_CLEAR (R14 (3), R165). -/
def execExposeEnableClear (control : Word) (s : State) : Result :=
  onChip (controlWrite control) s

/-- ALERT_WRITE (R22, R200). -/
def execAlertWrite (value : Word) (s : State) : Result :=
  onChip (alertWrite value) s

/-- ALERT_EN_WRITE (R23). -/
def execAlertEnWrite (value : Word) (s : State) : Result :=
  onChip (alertEnWrite value) s

/-- PLANT_CLOCK_WRITE (R16, R110). -/
def execPlantClockWrite (value : Word) (s : State) : Result :=
  onChip (clockWrite value) s

/-- PLANT_CLOCK_TICK (R16, R110). -/
def execPlantClockTick (s : State) : Result :=
  onChip clockTick s

/-- REGISTER_WRITE_IGNORED (R1, R15, R17): nothing changes. -/
def execRegisterWriteIgnored (_offset : Nat) (_size : Nat) (_value : Word) (s : State) : Result :=
  .next s

/-- POST (R18). -/
def execPost (word : Word) (s : State) : Result :=
  onChip (postWrite word) s

/-- LINK_RETRAIN (R2). -/
def execLinkRetrain (s : State) : Result :=
  onChip retrainLink s

/-- MSI_ENABLE_CHANGE (R23). -/
def execMsiEnableChange (enabled : Bool) (s : State) : Result :=
  onChip (setMsi enabled) s

end Sys2Proof.Machine
end

