-- ==== Sys2Proof/Machine/HandlerCommands.lean ====
section
/-! DEFINITION. The meanings of the commands of the handler line. A command whose own condition is unmet changes nothing (log 4). -/

namespace Sys2Proof.Machine

/-- EXCHANGE_START (R176). -/
def execExchangeStart (s : State) : Result :=
  onChip exchangeStart s

/-- REQUEST_ANSWER (R172, R174). -/
def execRequestAnswer (frame : AnswerFrame) (answer : RequestAnswer) (s : State) : Result :=
  onChip (requestAnswered frame answer) s

/-- POLL_ANSWER (R175). -/
def execPollAnswer (frame : AnswerFrame) (answer : PollAnswer) (s : State) : Result :=
  onChip (pollAnswered frame answer) s

/-- ANSWER_WINDOW_EXPIRY (R173). -/
def execAnswerWindowExpiry (s : State) : Result :=
  onChip windowExpires s

/-- BUSY_RETRY_EXPIRY (R174). -/
def execBusyRetryExpiry (unit : HUnit) (s : State) : Result :=
  onChip (busyRetryExpires unit) s

/-- POLL_TIMER_EXPIRY (R175). -/
def execPollTimerExpiry (unit : HUnit) (s : State) : Result :=
  onChip (pollTimerExpires unit) s

/-- COMPLETION_TIMEOUT (R177). -/
def execCompletionTimeout (unit : HUnit) (s : State) : Result :=
  onChip (completionExpires unit) s

end Sys2Proof.Machine
end

