-- ==== Sys2Proof/Machine/ImagingCommands.lean ====
section
/-! DEFINITION. The meanings of the commands of the drum, the head and the imager. A command whose own condition is unmet changes nothing (log 4). -/

namespace Sys2Proof.Machine

/-- ENCODER_TRANSITION (R147, R151). -/
def execEncoderTransition (edge : EncoderEdge) (s : State) : Result :=
  onChip (encoderEdge edge) s

/-- INDEX (R148, R157–R160); `elapsed` is the time since the last index in microseconds. -/
def execIndex (elapsed : Nat) (s : State) : Result :=
  onChip (indexPulse elapsed) s

/-- HEAD_CHANNEL_FAULT (R164). -/
def execHeadChannelFault (channel : BitVec 6) (s : State) : Result :=
  onChip (channelFault channel) s

/-- HEAD_ALL_CLEAR (R169). -/
def execHeadAllClear (s : State) : Result :=
  onChip headClear s

/-- UNLOAD_ISSUE (R167). -/
def execUnloadIssue (s : State) : Result :=
  onChip issueUnload s

/-- UNLOAD_END (R167). -/
def execUnloadEnd (s : State) : Result :=
  onChip takeUnloadEnd s

end Sys2Proof.Machine
end

