-- ==== Sys2Proof/Machine/IntakeCommands.lean ====
section
/-! DEFINITION. The meanings of the commands of the Intake Unit. A command whose own condition is unmet changes nothing (log 4). -/

namespace Sys2Proof.Machine

/-- PARSE_BEGIN (R49, R51). -/
def execParseBegin (s : State) : Result :=
  onChip parseBegin s

/-- PARSE_END (R55). -/
def execParseEnd (s : State) : Result :=
  onChip parseEnd s

/-- DROP_APPLY (R75). -/
def execDropApply (s : State) : Result :=
  onChip dropApply s

end Sys2Proof.Machine
end

