-- ==== Sys2Proof/Machine/PlateCommands.lean ====
section
/-! DEFINITION. The meanings of the commands of the Plate Scheduler and the Damage Recorder. A command whose own condition is unmet changes nothing (log 4). -/

namespace Sys2Proof.Machine

/-- PAGE_REPORT (R80, R82). -/
def execPageReport (s : State) : Result :=
  onChip takePageReport s

/-- SELECTION (R95, R96). -/
def execSelection (s : State) : Result :=
  onChip selection s

/-- EXPOSING_ENTRY_REPORT (R97). -/
def execExposingEntryReport (s : State) : Result :=
  onChip takeExposingEntry s

/-- EXPOSURE_END_REPORT (R97). -/
def execExposureEndReport (s : State) : Result :=
  onChip takeExposureEnd s

/-- RENDER_FINISHED (R97). -/
def execRenderFinished (s : State) : Result :=
  onChip takeRenderFinished s

/-- CARRIER_CREATED (R98, R183). -/
def execCarrierCreated (s : State) : Result :=
  onChip takeCarrierCreated s

/-- CARRIER_REMOVED (R99). -/
def execCarrierRemoved (s : State) : Result :=
  onChip takeCarrierRemoved s

/-- DISPOSITION_SEND (R196). -/
def execDispositionSend (s : State) : Result :=
  onChip sendDisposition s

/-- DISPOSITION_APPLY (R105). -/
def execDispositionApply (s : State) : Result :=
  onChip takeDisposition s

end Sys2Proof.Machine
end

