-- ==== Sys2Proof/Machine/PostCommands.lean ====
section
/-! DEFINITION. The meanings of the commands of the dispatch of post words by PD. A command whose own condition is unmet changes nothing (log 4). -/

namespace Sys2Proof.Machine

/-- POST_BAD_WORD (R19). -/
def execPostBadWord (s : State) : Result :=
  onChip dropBadWord s

/-- FRAGMENT (R20, R48). -/
def execFragment (s : State) : Result :=
  onChip dispatchFragment s

/-- ORDER (R24, R25). -/
def execOrder (s : State) : Result :=
  onChip dispatchOrder s

/-- BREAK (R24, R102–R104). -/
def execBreakPlate (s : State) : Result :=
  onChip dispatchBreak s

/-- RELEASE (R24, R26). -/
def execRelease (s : State) : Result :=
  onChip dispatchRelease s

/-- SEEN (R24, R27). -/
def execSeen (s : State) : Result :=
  onChip dispatchSeen s

/-- DROP (R20, R49). -/
def execDrop (s : State) : Result :=
  onChip dispatchDrop s

/-- TABLE (R139). -/
def execTable (s : State) : Result :=
  onChip dispatchTable s

/-- RESUME (R169, R181). -/
def execResume (s : State) : Result :=
  onChip dispatchResume s

/-- FENCE_FLUSH (R38). -/
def execFenceFlush (s : State) : Result :=
  onChip dispatchFlush s

end Sys2Proof.Machine
end

