-- ==== Sys2Proof/Machine/RenderCommands.lean ====
section
/-! DEFINITION. The meanings of the commands of the Band Renderer and the Table Loader. A command whose own condition is unmet changes nothing (log 4). -/

namespace Sys2Proof.Machine

/-- FILL_BEGIN (R114, R116). -/
def execFillBegin (s : State) : Result :=
  onChip (fillBegin s.store) s

/-- RENDER_REFLECTION_POINT (R115, R142). -/
def execRenderReflectionPoint (s : State) : Result :=
  onChip reachPoint s

/-- REFLECTION_POINT_END (R115, R142). -/
def execReflectionPointEnd (s : State) : Result :=
  onChip (pointEnd s.store) s

/-- FILL_END (R117). -/
def execFillEnd (s : State) : Result :=
  onChip fillEnd s

/-- RELOAD_BEGIN (R141, R145). -/
def execReloadBegin (s : State) : Result :=
  onChip reloadBegin s

/-- RELOAD_END (R140, R144). -/
def execReloadEnd (s : State) : Result :=
  onChip reloadEnd s

end Sys2Proof.Machine
end

