-- ==== Sys2Proof/Machine/StoreCommands.lean ====
section
/-! DEFINITION. The meanings of the commands of the Store Port. A command whose own condition is unmet changes nothing (log 4). -/

namespace Sys2Proof.Machine

/-- HOST_ACCESS (R2, R28): the access joins the HOST client. Bytes past 4 GiB do not exist (log 22). -/
def execHostAccess (op : HostOp) (s : State) : Result :=
  if !s.chip.regs.linkUp then .next s
  else if pastStore op then .fault .noSuchAddress
  else .next (s.setChip (issueAll (hostTransfers op) s.chip))

/-- TRANSFER_GRANT (R29–R42). -/
def execTransferGrant (s : State) : Result :=
  .next (grant s)

/-- TRANSFER_COMPLETE (R28). -/
def execTransferComplete (client : Client) (s : State) : Result :=
  onChip (transferComplete client) s

/-- FENCE_MAP_FETCH_COMPLETE (R37, R38). -/
def execFenceMapFetchComplete (s : State) : Result :=
  .next (fetchComplete s)

/-- LAYOUT_READ_COMPLETE (R7, R8). -/
def execLayoutReadComplete (record : LayoutRecord) (s : State) : Result :=
  onChip (layoutRead record) s

end Sys2Proof.Machine
end

