-- ==== Sys2Proof/Machine/Dispatch.lean ====
section
/-! DEFINITION. One arm per command: its meaning, by name. -/

namespace Sys2Proof.Machine

def exec (i : Instr) (s : State) : Host.Outcome State Fault Refusal :=
  match i with
  | .powerOnReset => Sys2Proof.Machine.execPowerOnReset s
  | .engineReset control => Sys2Proof.Machine.execEngineReset control s
  | .hotReset => Sys2Proof.Machine.execHotReset s
  | .runSet control => Sys2Proof.Machine.execRunSet control s
  | .runClear control => Sys2Proof.Machine.execRunClear control s
  | .exposeEnableSet control => Sys2Proof.Machine.execExposeEnableSet control s
  | .exposeEnableClear control => Sys2Proof.Machine.execExposeEnableClear control s
  | .alertWrite value => Sys2Proof.Machine.execAlertWrite value s
  | .alertEnWrite value => Sys2Proof.Machine.execAlertEnWrite value s
  | .plantClockWrite value => Sys2Proof.Machine.execPlantClockWrite value s
  | .plantClockTick => Sys2Proof.Machine.execPlantClockTick s
  | .registerWriteIgnored offset size value => Sys2Proof.Machine.execRegisterWriteIgnored offset size value s
  | .post word => Sys2Proof.Machine.execPost word s
  | .postBadWord => Sys2Proof.Machine.execPostBadWord s
  | .fragment => Sys2Proof.Machine.execFragment s
  | .order => Sys2Proof.Machine.execOrder s
  | .breakPlate => Sys2Proof.Machine.execBreakPlate s
  | .release => Sys2Proof.Machine.execRelease s
  | .seen => Sys2Proof.Machine.execSeen s
  | .drop => Sys2Proof.Machine.execDrop s
  | .table => Sys2Proof.Machine.execTable s
  | .resume => Sys2Proof.Machine.execResume s
  | .fenceFlush => Sys2Proof.Machine.execFenceFlush s
  | .hostAccess op => Sys2Proof.Machine.execHostAccess op s
  | .transferGrant => Sys2Proof.Machine.execTransferGrant s
  | .transferComplete client => Sys2Proof.Machine.execTransferComplete client s
  | .parseBegin => Sys2Proof.Machine.execParseBegin s
  | .parseEnd => Sys2Proof.Machine.execParseEnd s
  | .dropApply => Sys2Proof.Machine.execDropApply s
  | .pageReport => Sys2Proof.Machine.execPageReport s
  | .selection => Sys2Proof.Machine.execSelection s
  | .exposingEntryReport => Sys2Proof.Machine.execExposingEntryReport s
  | .exposureEndReport => Sys2Proof.Machine.execExposureEndReport s
  | .renderFinished => Sys2Proof.Machine.execRenderFinished s
  | .carrierCreated => Sys2Proof.Machine.execCarrierCreated s
  | .carrierRemoved => Sys2Proof.Machine.execCarrierRemoved s
  | .dispositionSend => Sys2Proof.Machine.execDispositionSend s
  | .dispositionApply => Sys2Proof.Machine.execDispositionApply s
  | .fillBegin => Sys2Proof.Machine.execFillBegin s
  | .renderReflectionPoint => Sys2Proof.Machine.execRenderReflectionPoint s
  | .reflectionPointEnd => Sys2Proof.Machine.execReflectionPointEnd s
  | .fillEnd => Sys2Proof.Machine.execFillEnd s
  | .reloadBegin => Sys2Proof.Machine.execReloadBegin s
  | .reloadEnd => Sys2Proof.Machine.execReloadEnd s
  | .encoderTransition edge => Sys2Proof.Machine.execEncoderTransition edge s
  | .index elapsed => Sys2Proof.Machine.execIndex elapsed s
  | .headChannelFault channel => Sys2Proof.Machine.execHeadChannelFault channel s
  | .headAllClear => Sys2Proof.Machine.execHeadAllClear s
  | .unloadIssue => Sys2Proof.Machine.execUnloadIssue s
  | .unloadEnd => Sys2Proof.Machine.execUnloadEnd s
  | .exchangeStart => Sys2Proof.Machine.execExchangeStart s
  | .requestAnswer frame answer => Sys2Proof.Machine.execRequestAnswer frame answer s
  | .pollAnswer frame answer => Sys2Proof.Machine.execPollAnswer frame answer s
  | .answerWindowExpiry => Sys2Proof.Machine.execAnswerWindowExpiry s
  | .busyRetryExpiry unit => Sys2Proof.Machine.execBusyRetryExpiry unit s
  | .pollTimerExpiry unit => Sys2Proof.Machine.execPollTimerExpiry unit s
  | .completionTimeout unit => Sys2Proof.Machine.execCompletionTimeout unit s
  | .linkRetrain => Sys2Proof.Machine.execLinkRetrain s
  | .msiEnableChange enabled => Sys2Proof.Machine.execMsiEnableChange enabled s
  | .fenceMapFetchComplete => Sys2Proof.Machine.execFenceMapFetchComplete s
  | .layoutReadComplete record => Sys2Proof.Machine.execLayoutReadComplete record s

end Sys2Proof.Machine
end

