-- ==== Sys2Proof/Safety.lean ====
section
/-! DEFINITION. What counts as a safe state of the machine, in the terms that the statements use. -/

namespace Sys2Proof.Machine

/-- The laser is dark, or it is permitted (R151, R153): EXPOSING, EXPOSE_ENABLE set, not HALTED. -/
def Chip.laserSafe (k : Chip) : Prop := k.hf.laser = 0 ∨ laserPermitted k = true

/-- The post queue holds at most 64 words, and none in OFF and STARTING (R18, R21). -/
def Chip.postQueueSound (k : Chip) : Prop :=
  k.pd.postQueue.length ≤ 64 ∧ ((k.pd.runState = .off ∨ k.pd.runState = .starting) → k.pd.postQueue = [])

/-- The fence cache holds at most 64 entries, no two for the same word of the same domain, and none for the word that a waiting check
is fetching (R36, R37). -/
def Chip.fenceCacheSound (k : Chip) : Prop :=
  k.sp.cache.length ≤ 64 ∧ (k.sp.cache.map (fun e => (e.domain, e.word))).Nodup ∧
    ∀ c, k.sp.check = some c → ∀ e ∈ k.sp.cache, ¬(e.domain = c.domain ∧ e.word = c.word)

/-- A transfer of a host access: it belongs to no stream, and nobody but the host is told of it (R2, R28). -/
def Transfer.ofHost (t : Transfer) : Prop := t.stream = none ∧ t.purpose = .host ∧ t.notices = []

/-- Every transfer waits in its own client's queue, the HOST queue and the served HOST transfers are host accesses, no check waits for
a HOST transfer, and in HALTED none waits at all (R28, R32, R42). -/
def Chip.hostQueueSound (k : Chip) : Prop :=
  (∀ c, ∀ t ∈ k.sp.waiting c, t.client = c) ∧ (∀ t ∈ k.sp.host, t.ofHost) ∧
    (∀ x ∈ k.sp.served, x.xfer.client = .host → x.xfer.ofHost) ∧
    (∀ c, k.sp.check = some c → c.xfer.client ≠ .host) ∧ (k.pd.runState = .halted → k.sp.check = none)

end Sys2Proof.Machine

namespace Sys2Proof

/-- A command of the host that writes CONTROL. -/
def Instr.isControlWrite : Instr → Prop
  | .runSet _ | .runClear _ | .exposeEnableSet _ | .exposeEnableClear _ => True
  | _ => False

/-- A command that resets the part (R13). -/
def Instr.isReset : Instr → Prop
  | .powerOnReset | .engineReset _ | .hotReset => True
  | _ => False

/-- A command by which PD takes the word at the head of the post queue. -/
def Instr.isDispatch : Instr → Prop
  | .postBadWord | .fragment | .order | .breakPlate | .release | .seen | .drop | .table | .resume | .fenceFlush => True
  | _ => False

end Sys2Proof

namespace Sys2Proof.Machine

/-- The command by which a checked post word is taken (R20). -/
def PostWord.command : PostWord → Instr
  | .fragment _ => .fragment
  | .order _ => .order
  | .breakWord _ _ => .breakPlate
  | .release _ => .release
  | .seen _ => .seen
  | .drop _ => .drop
  | .table _ => .table
  | .resume => .resume
  | .fenceFlush => .fenceFlush

/-- PD dispatches, and the word at the head of the post queue passes its check as `p`, with `q` behind it (R19, R20, R21). -/
def State.headIs (s : State) (p : PostWord) (q : List Word) : Prop :=
  s.chip.working = true ∧ ∃ w, s.chip.pd.postQueue = w :: q ∧
    decodePostWord w s.chip.lay.cellCount s.chip.lay.slotCount = some p

/-- The chip with the head word removed, `q` being what stood behind it (R20). -/
def Chip.popped (k : Chip) (q : List Word) : Chip := { k with pd := { k.pd with postQueue := q } }

/-- A step that ends an input of PSC. -/
def PscStep.isEnd : PscStep → Prop
  | .publish _ | .result _ => True
  | _ => False

/-- PSC's input in hand is in order: a wait for a disposition, and every input, has an end before it; a news bit is due only within an input; and
in STOPPING, with no input in hand, a plate is still PREPARING or IMAGING (R10). -/
def Chip.inputSound (k : Chip) : Prop :=
  (k.psc.awaiting = true → k.psc.work ≠ []) ∧ (∀ ts t, k.psc.work = ts ++ [t] → t.isEnd) ∧ (k.psc.work = [] → k.psc.newsDue = []) ∧
    (k.pd.runState = .stopping → k.psc.work = [] → k.psc.due = [] →
      ∃ e ∈ k.psc.plates, e.2.state = .preparing ∨ e.2.state = .imaging)

/-- The plates of the held slots are in order: one for each slot, and a slot's hold bit is 1 exactly when it has a plate or its order is being
read (R24); the ready list holds READY plates, each once, and every one of them but one that PSC is just selecting or returning (R94, R96); no
attempt number exceeds 15, no plate has more than two positions (R87), and charged spoils exceed the budget only in a plate that is FAILED or is
to become so (R107). -/
def Chip.platesSound (k : Chip) : Prop :=
  (k.psc.plates.map (·.1)).Pairwise (· < ·) ∧
    (∀ n, k.psc.holdMap.getLsbD n = true ↔ ((k.plate n).isSome = true ∨ k.psc.ordering = some n)) ∧
    (∀ n, k.psc.ordering = some n → k.plate n = none) ∧ k.psc.ready.Nodup ∧
    (∀ n ∈ k.psc.ready, ∃ p, k.plate n = some p ∧ p.state = .ready) ∧
    (∀ n p, k.plate n = some p → p.state = .ready →
      n ∈ k.psc.ready ∨ .waiting n ∈ k.psc.work ∨ .fail n ∈ k.psc.work ∨ .settle n true ∈ k.psc.work) ∧
    ∀ n p, k.plate n = some p → p.attempt ≤ 15 ∧ p.order.positions.length ≤ 2 ∧
      (p.charged ≤ p.order.budget ∨ p.state = .failed ∨ (p.state = .closing ∧ p.closing ≠ some .cancelled))

/-- PSC has finished its inputs, and it and its plates are in order: it takes the next input at once. -/
def Chip.pscReady (k : Chip) : Prop := pscFree k = true ∧ k.inputSound ∧ k.platesSound

/-- The page directory is in order (R68): one record for each number; the records of a key have different versions, and below a COMPLETE one
every record of its key is SUPERSEDED. A record that is COMPLETE has been noted as such (log 47). A parse that is to found a record has a version above every record of
its key (R52 (3)). -/
def Chip.pagesSound (k : Chip) : Prop :=
  (k.iu.dir.map (·.1)).Pairwise (· < ·) ∧
  (∀ i j r q, tblGet k.iu.dir i = some r → tblGet k.iu.dir j = some q → r.key = q.key → r.version = q.version → i = j) ∧
    (∀ i j r q, tblGet k.iu.dir i = some r → tblGet k.iu.dir j = some q → r.key = q.key → r.state = .complete →
      q.version < r.version → q.state = .superseded) ∧
    (∀ i r, tblGet k.iu.dir i = some r → r.state = .complete → r.wasComplete = true) ∧
    ∀ p h, k.iu.parse = some p → p.header = some h → p.matching = some .founds →
      ∀ i r, tblGet k.iu.dir i = some r → r.key = h.key → r.version < h.version

/-! ### Pins (R71, R73) -/

/-- How many pins a snapshot holds on record i: one for each position that names it, as the position's record or as its base record (R71). -/
def namings (snap : List PosSnap) (i : Nat) : Nat :=
  (snap.map (fun s => (if s.idx = i then 1 else 0) + (match s.base with
    | some (b, _, _) => if b = i then 1 else 0
    | none => 0))).sum

/-- From `dir` to `dir'` the records that a snapshot names have been pinned, once for each naming, and nothing else of the directory differs
(R71), but that a record which is COMPLETE is noted as having been so (the model's own field, log 47). -/
def pinnedBy (snap : List PosSnap) (dir dir' : List (Nat × PageRecord)) : Prop :=
  ∀ i, tblGet dir' i = (tblGet dir i).map (fun r =>
    { r with
      pins := r.pins + namings snap i
      wasComplete := r.wasComplete || decide (0 < namings snap i ∧ r.state = .complete) })

/-- From `dir` to `dir'` the pins of a snapshot have been given up, one for each naming: a count of 0 is left, a SUPERSEDED record that comes to
0 is retired, and nothing else of the directory differs (R73; log 47 for the model's own field). -/
def unpinnedBy (snap : List PosSnap) (dir dir' : List (Nat × PageRecord)) : Prop :=
  ∀ i, tblGet dir' i = (match tblGet dir i with
    | none => none
    | some r =>
      if r.state = .superseded ∧ 0 < r.pins ∧ r.pins ≤ namings snap i then none
      else some { r with
        pins := r.pins - namings snap i
        wasComplete := r.wasComplete || decide (0 < namings snap i ∧ 0 < r.pins ∧ r.state = .complete) })

/-- The pins that a plate holds, if it holds any, have been given up (R73, R101 (2)). -/
def Plate.pinsGivenUp (p : Plate) (dir dir' : List (Nat × PageRecord)) : Prop :=
  if p.pinsHeld = true then unpinnedBy p.snapshot dir dir' else dir' = dir

/-- BR holds nothing of an attempt any more: no entry of the render order, and no band that is FULL or FILLING (R101 (1), R119). -/
def Chip.discarded (k : Chip) (slot attempt : Nat) : Prop :=
  (∀ e ∈ k.br.order, ¬(e.slot = slot ∧ e.attempt = attempt)) ∧
    ∀ b ∈ k.br.buffers, ∀ n, b ≠ .full ⟨slot, attempt, n⟩ ∧ b ≠ .filling ⟨slot, attempt, n⟩

/-! ### Bytes in the shared store (R61, R88, R192) -/

/-- The bytes from one offset up to another are 0. -/
def zeroBytes (b : List Byte) (i j : Nat) : Prop := ∀ n, i ≤ n → n < j → u8 b n = 0

/-- The header of a page record, by R61's table up to 005Fh (log 7). -/
def PageRecord.headerIs (r : PageRecord) (b : List Byte) : Prop :=
  let entries (bad : Bool) (x : Nat) : Nat :=
    (r.strips.filter (fun e => decide (e.1 / 768 = x) && (decide (e.2 = .bad) == bad))).length +
      (r.patches.filter (fun e => decide (e.1 / 32 = x) && (decide (e.2 = .bad) == bad))).length
  let m : Manifest := r.manifest.getD noManifest
  m.patchCounts.length = 4 → m.ranges.length ≤ 8 → b.length = 96 ∧
    u8 b 0x00 = (match r.state with
      | .assembling => 1
      | .damaged => 2
      | .complete => 3
      | .superseded => 4) ∧
    u8 b 0x01 = (if r.manifest = none then 0 else if m.derived = true then 2 else 1) ∧
    u8 b 0x02 = (if r.clipped = true then 1 else 0) + (if r.dropped = true then 2 else 0) + (if r.baseFlag = true then 4 else 0) ∧
    u8 b 0x03 = m.seps.toNat ∧
    u8 b 0x04 = r.key.book % 256 ∧ u8 b 0x05 = r.key.page % 256 ∧ u8 b 0x06 = r.key.zone % 256 ∧
    u8 b 0x07 = m.ranges.length ∧ u16 b 0x08 = r.version % 65536 ∧ u16 b 0x0A = m.rows % 65536 ∧ u16 b 0x0C = m.dots % 65536 ∧
    ((∀ e ∈ r.strips, e.2 ≠ .bad) → u16 b 0x0E = 0xFFFF) ∧
    (∀ e ∈ r.strips, e.2 = .bad → u16 b 0x0E ≤ e.1 % 768 ∧ ∃ x ∈ r.strips, x.2 = .bad ∧ u16 b 0x0E = x.1 % 768) ∧
    (m.derived = true → u8 b 0x10 = m.base.book % 256 ∧ u8 b 0x11 = m.base.page % 256 ∧ u8 b 0x12 = m.base.zone % 256) ∧
    (m.derived = false → zeroBytes b 0x10 0x13) ∧ u8 b 0x13 = r.pins % 256 ∧
    (∀ x < 4, u8 b (0x14 + x) = m.patchCounts.getD x 0 % 256 ∧ u16 b (0x18 + 2 * x) = entries false x % 65536 ∧
      u16 b (0x20 + 2 * x) = entries true x % 65536) ∧
    u8 b 0x28 = r.notes.malformed % 256 ∧ u8 b 0x29 = r.notes.stale % 256 ∧ u8 b 0x2A = r.notes.conflict % 256 ∧
    u8 b 0x2B = r.notes.crc % 256 ∧ u8 b 0x2C = r.notes.fence % 256 ∧ u8 b 0x2D = r.notes.decode % 256 ∧ zeroBytes b 0x2E 0x30 ∧
    u32 b 0x30 = r.firstTime.toNat ∧ u32 b 0x34 = r.lastTime.toNat ∧ zeroBytes b 0x38 0x40 ∧
    (∀ i q, m.ranges[i]? = some q → u16 b (0x40 + 4 * i) = q.1 % 65536 ∧ u16 b (0x42 + 4 * i) = q.2 % 65536) ∧
    zeroBytes b (0x40 + 4 * m.ranges.length) 0x60

/-- The 16 bytes of a strip entry, by R61's table. -/
def stripEntryIs (e : Option StripEntry) (b : List Byte) : Prop :=
  b.length = 16 ∧ match e with
    | none => zeroBytes b 0 16
    | some .bad => u8 b 0 = 2 ∧ zeroBytes b 1 16
    | some (.present r) => u8 b 0 = 1 ∧ u8 b 1 = 0 ∧ u16 b 2 = r.cell % 65536 ∧ u16 b 4 = r.off % 65536 ∧ u16 b 6 = 0 ∧
        u32 b 8 = r.len % 4294967296 ∧ u32 b 0x0C = r.crc.toNat

/-- The 32 bytes of a patch entry, by R61's table. -/
def patchEntryIs (e : Option PatchEntry) (b : List Byte) : Prop :=
  b.length = 32 ∧ match e with
    | none => zeroBytes b 0 32
    | some .bad => u8 b 0 = 2 ∧ zeroBytes b 1 32
    | some (.present r) => u8 b 0 = 1 ∧ u8 b 1 = r.mode % 256 ∧ u8 b 2 = r.scale % 256 ∧ u8 b 3 = 0 ∧ u16 b 4 = r.cell % 65536 ∧
        u16 b 6 = r.off % 65536 ∧ u32 b 8 = r.len % 4294967296 ∧ u32 b 0x0C = r.crc.toNat ∧ u16 b 0x10 = r.row0 % 65536 ∧
        u16 b 0x12 = r.dot0 % 65536 ∧ u16 b 0x14 = r.w % 65536 ∧ u16 b 0x16 = r.h % 65536 ∧ zeroBytes b 0x18 32

/-- From `k` to `t`, `ws` are the writes of one event of IU (R50, R55 (4), (5), R56, R61, R64): through IU-write, first each changed strip and
patch entry, and the whole tables of a record that was `founded`, then the header of each changed record, each once, then the cell hold map
bytes of the cells released, each once. The order within each of the three parts is the model's choice (logs 53, 66). -/
def Chip.intakeWrites (k t : Chip) (founded : Option Nat) (ws : List Transfer) : Prop :=
  let strip (c : Chip) (i n : Nat) : Option StripEntry := (tblGet c.iu.dir i).bind (fun r => tblGet r.strips n)
  let patch (c : Chip) (i n : Nat) : Option PatchEntry := (tblGet c.iu.dir i).bind (fun r => tblGet r.patches n)
  let page (i : Nat) : Nat := k.lay.pageBase + 65536 * i
  ∃ es hs ms : List (Nat × List Byte),
    let holds (a : Nat) (b : List Byte) := ∃ x ∈ es, ∃ n, x.1 + n = a ∧ (x.2.drop n).take b.length = b
    ws.map (fun w => (w.client, w.stream, w.purpose, w.addr, w.op)) =
      (es ++ hs ++ ms).map (fun x => (Client.iu, some Stream.iuWrite, Purpose.quiet, x.1, XferOp.write x.2)) ∧
    (∀ i n, (founded ≠ some i ∧ strip k i n ≠ strip t i n) ∨ (founded = some i ∧ n < 3072) →
      ∃ b, stripEntryIs (strip t i n) b ∧ holds (page i + 0x4000 + 16 * n) b) ∧
    (∀ i n, (founded ≠ some i ∧ patch k i n ≠ patch t i n) ∨ (founded = some i ∧ n < 128) →
      ∃ b, patchEntryIs (patch t i n) b ∧ holds (page i + 0x1000 + 32 * n) b) ∧
    (∀ i, founded = some i → holds (page i + 0x60) (List.replicate 0xFA0 0)) ∧
    (∀ x ∈ es, ∃ i, (∃ n, x.1 = page i + 0x4000 + 16 * n ∧ stripEntryIs (strip t i n) x.2) ∨
      (∃ n, x.1 = page i + 0x1000 + 32 * n ∧ patchEntryIs (patch t i n) x.2) ∨
      (founded = some i ∧ page i + 0x60 ≤ x.1 ∧ x.1 + x.2.length ≤ page i + 65536)) ∧
    (hs.map (·.1)).Nodup ∧ (∀ i, tblGet k.iu.dir i ≠ tblGet t.iu.dir i → ∃ x ∈ hs, x.1 = page i) ∧
    (∀ x ∈ hs, ∃ i, x.1 = page i ∧ (tblGet t.iu.dir i = none → x.2 = List.replicate 96 0) ∧
      ∀ r, tblGet t.iu.dir i = some r → r.headerIs x.2) ∧
    (ms.map (·.1)).Nodup ∧
    (∀ c, k.iu.holdMap.getLsbD c ≠ t.iu.holdMap.getLsbD c → ∃ x ∈ ms, x.1 = k.lay.mapBase + c / 8) ∧
    ∀ x ∈ ms, ∃ i, x = (k.lay.mapBase + i, [t.iu.holdMap.extractLsb' (8 * i) 8])

/-- The 32 bytes of a mark entry, by R192's table, with the kind codes of R189. -/
def Mark.entryIs (m : Mark) (b : List Byte) : Prop :=
  b.length = 32 ∧
    u8 b 0x00 = (match m.kind with
      | .align => 1
      | .late => 2
      | .overdue => 3
      | .remade => 4
      | .outdated => 5
      | .lateBreak => 6
      | .timeout => 7
      | .nosep => 8
      | .base => 9
      | .decode => 10
      | .broken => 11
      | .interlock => 12
      | .underrun => 13
      | .speed => 14
      | .slip => 15
      | .channel => 16
      | .misreg => 17
      | .process => 18
      | .fence => 19
      | .table => 20
      | .attempts => 21) ∧
    u8 b 0x01 = (match m.severity with
      | .note => 0
      | .hold => 1
      | .spoil => 2
      | .fail => 3) ∧
    u8 b 0x02 = (if m.charged = true then 1 else 0) + (if m.key = none then 0 else 2) ∧
    u8 b 0x03 = (match m.place with
      | .none => 0
      | .drum => 1
      | .carrier => 2) ∧
    u8 b 0x04 = m.attempt % 256 ∧
    (match m.location with
      | .none => u8 b 0x05 = 0 ∧ u16 b 0x06 = 0
      | .swath n => u8 b 0x05 = 1 ∧ u16 b 0x06 = n % 65536
      | .strip n => u8 b 0x05 = 2 ∧ u16 b 0x06 = n % 65536) ∧
    (m.key = none → zeroBytes b 0x08 0x0B) ∧
    (∀ q, m.key = some q → u8 b 0x08 = q.book % 256 ∧ u8 b 0x09 = q.page % 256 ∧ u8 b 0x0A = q.zone % 256) ∧
    u8 b 0x0B = 0 ∧ u32 b 0x0C = m.detail % 4294967296 ∧ u32 b 0x10 = m.time.toNat ∧ zeroBytes b 0x14 32

/-- The 768 bytes of a plate's result part, with its mark list, by R88's table; slot offset 100h is byte 0. -/
def Plate.resultIs (p : Plate) (ms : SlotMarks) (b : List Byte) : Prop :=
  let across (n : Nat) : Nat := (match p.order.positions[n]? with
    | some q => q.across
    | none => 0)
  ms.marks.length ≤ 8 → b.length = 768 ∧
    u32 b 0x00 = p.order.plateId % 4294967296 ∧ u16 b 0x04 = p.order.edition % 65536 ∧
    u8 b 0x06 = (match p.state with
      | .waiting => 1
      | .ready => 2
      | .preparing => 3
      | .imaging => 4
      | .finishing => 5
      | .closing => 6
      | .done => 7
      | .failed => 8
      | .cancelled => 9
      | .refused => 10) ∧
    u8 b 0x07 = p.refusal % 256 ∧ u8 b 0x08 = p.attempt % 256 ∧ u8 b 0x09 = p.charged % 256 ∧
    u8 b 0x0A = (match p.closing with
      | none => 0
      | some .failed => 8
      | some .cancelled => 9) ∧
    u8 b 0x0B = p.order.budget % 256 ∧ u16 b 0x0C = (BitVec.ofInt 16 p.order.trim).toNat ∧
    u16 b 0x0E = p.exposed % 65536 ∧ u16 b 0x10 = p.holds % 65536 ∧ u16 b 0x12 = 0 ∧
    u32 b 0x14 = p.orderedTime.toNat ∧ u32 b 0x18 = p.readyTime.toNat ∧ u32 b 0x1C = p.imagingTime.toNat ∧
    u32 b 0x20 = p.finalTime.toNat ∧ u16 b 0x24 = across 0 % 65536 ∧ u16 b 0x26 = across 1 % 65536 ∧
    (∀ n < 2, let at_ := 0x28 + 8 * n
      (p.snapshot[n]? = none → u32 b at_ = 0xFFFFFFFF ∧ u32 b (at_ + 4) = 0xFFFFFFFF) ∧
      ∀ x, p.snapshot[n]? = some x → u16 b at_ = x.idx % 65536 ∧ u16 b (at_ + 2) = x.version % 65536 ∧
        (x.base = none → u32 b (at_ + 4) = 0xFFFFFFFF) ∧
        ∀ i v q, x.base = some (i, v, q) → u16 b (at_ + 4) = i % 65536 ∧ u16 b (at_ + 6) = v % 65536) ∧
    u8 b 0x38 = ms.marks.length ∧ u8 b 0x39 = ms.lost % 256 ∧ zeroBytes b 0x3A 0x40 ∧
    (∀ (n : Nat) (m : Mark), ms.marks[n]? = some m → m.entryIs ((b.drop (0x40 + 32 * n)).take 32)) ∧
    zeroBytes b (0x40 + 32 * ms.marks.length) 768

/-- The number of the first of numbered checks that fails; 0 when none does. -/
def firstFailing (fails : Nat → Prop) (n : Nat) : Prop := (n = 0 ∧ ∀ i, ¬fails i) ∨ (fails n ∧ ∀ i < n, ¬fails i)

/-- Every position of an order is ready in a directory (R79). -/
def Order.allReady (o : Order) (dir : List (Nat × PageRecord)) : Prop :=
  ∀ pos ∈ o.positions, ∃ snap, resolvePosition dir pos.key o.sep = .ready snap

/-- No position of an order lacks its separation in a directory: the evaluation of readiness records no NOSEP (R80). -/
def Order.nosepFree (o : Order) (dir : List (Nat × PageRecord)) : Prop :=
  ∀ pos ∈ o.positions, ∀ idx version, resolvePosition dir pos.key o.sep ≠ .nosep idx version

/-- LATE is due for a plate at a value of PLANT_CLOCK (R110 (1)). -/
def Plate.lateDue (p : Plate) (k : Chip) (clock : Word) : Prop :=
  p.state = .waiting ∧ p.lateDone = false ∧ p.order.deadline - k.lay.lateLead ≤ clock.toNat

/-- OVERDUE is due for a plate at a value of PLANT_CLOCK (R110 (2)). -/
def Plate.overdueDue (p : Plate) (clock : Word) : Prop :=
  p.state.terminal = false ∧ p.overdueDone = false ∧ p.order.deadline ≤ clock.toNat

/-- PSC has reported a mark of its own for a slot and waits for its disposition: from `k` to `t` DMR recorded it as the last of its list, when
there is room for it. Only a mark of severity FAIL may have a place (R188, R189, R191, R193). -/
def Chip.pscMarked (k t : Chip) (slot : Nat) (kind : MarkKind) (severity : Severity) (attempt : Nat) (key : Option PageKey)
    (detail : Nat) : Prop :=
  t.psc.awaiting = true ∧ ((k.marks slot).marks.length < 8 → ∃ place, (severity ≠ .fail → place = .none) ∧
    (t.marks slot).marks = (k.marks slot).marks ++
      [{ kind := kind, severity := severity, charged := false, place := place, attempt := attempt, location := .none, key := key,
         detail := detail, time := t.regs.plantClock }])

/-- From `k` to `t`, exposure of the drum plate `p` on the drum record `d` has ended with a mark of IMC's own finding (R162): the laser gate
closed and the pass ended, the DRAINING buffer FREE, the drum record SPOILED and not confirmed, exposure end reported to PSC, the mark
reported with the swath cursor as location and place drum, and the imager out of EXPOSING with the drum target 0. Nothing else differs. Of
the kinds that IMC finds, UNDERRUN, SPEED, SLIP and CHANNEL are charged, BREAK is not (R189). -/
def Chip.spoiledFrom (k t : Chip) (d : Drum) (p : PlateRef) (kind : MarkKind) (detail : Nat) : Prop :=
  t = { k with
    hf := { k.hf with pass := none, laser := 0 }
    br := { k.br with buffers := k.br.buffers.map Buffer.endDraining }
    psc := { k.psc with inbox := k.psc.inbox ++
      [.exposureEnd p.slot p.attempt p.prep k.imc.exposure.exposed k.imc.exposure.holds] }
    imc := { k.imc with
      state := (if k.imc.pauses.any = true then .paused else .unloadWait)
      drum := some { d with cond := .spoiled, confirmed := false }
      drumTarget := 0
      exposure := { k.imc.exposure with pass := 0, breakRequest := false } }
    dmr := { k.dmr with lists := t.dmr.lists }
    sp := { k.sp with report := t.sp.report } } ∧
  (∀ n, n ≠ p.slot → t.marks n = k.marks n) ∧
  ((k.plate p.slot).isSome = true → (k.marks p.slot).marks.length < 8 →
    (t.marks p.slot).marks = (k.marks p.slot).marks ++
      [{ kind := kind, severity := .spoil, place := .drum, attempt := p.attempt,
         charged := decide (kind = .underrun ∨ kind = .speed ∨ kind = .slip ∨ kind = .channel),
         location := .swath k.imc.exposure.cursor, key := none, detail := detail, time := k.regs.plantClock }])

/-- The chip after the captures of an index pulse (R148 (1)–(3)), with the window of the revolution before closed (R150 (3)). -/
def Chip.captured (k : Chip) (elapsed : Nat) : Chip :=
  { k with
    dtu := { k.dtu with
      captureC := k.dtu.count, capturePeriod := min 16777215 elapsed, count := 0, activeA := k.dtu.bufferedA
      activeB := k.dtu.bufferedB, reference := false }
    hf := { k.hf with pass := none, laser := 0 } }

/-- The chip with the swath under exposure counted as complete (R159 (3)). -/
def Chip.swathCounted (k : Chip) : Chip :=
  { k with
    br := { k.br with buffers := k.br.buffers.map Buffer.endDraining }
    imc := { k.imc with exposure := { k.imc.exposure with
      exposed := k.imc.exposure.exposed + 1, cursor := k.imc.exposure.cursor + 1, pass := 0 } }
    hf := { k.hf with position := k.hf.position + 1 } }

/-- The chip with pass `p` in progress, for which HF has issued the reads of the next row sets: as many as remain to be fetched, while fewer than
two row sets are held and under way together (R31 (2); that reads under way count as held is DEDUCED by the model, log 27). -/
def Chip.fetchesFor (k : Chip) (p : Pass) : Chip :=
  let n := min (2 - (p.prefetch.length + p.underway)) ((p.width + 511) / 512 - p.nextSet)
  { k with
    hf := { k.hf with pass := some { p with nextSet := p.nextSet + n, underway := p.underway + n } }
    sp := { k.sp with hf := k.sp.hf ++ (List.range n).map (fun j =>
      { client := .hf, stream := some .hfRead, addr := k.lay.bandBase + 262144 * p.buffer + 4096 * (p.nextSet + j), op := .read 4096,
        purpose := .rowSet p.id (p.nextSet + j), notices := [] }) } }

/-- From `k` to `t`, HF begins a pass over buffer `b` of a plate of width `w`: the prefetch is empty and the reads of the first row sets, two at
most, are issued (R31 (1), (2)). -/
def Chip.passBegins (k t : Chip) (b w : Nat) : Prop :=
  let n := min 2 ((w + 511) / 512)
  t.hf = { k.hf with
    pass := some { id := k.hf.passSerial + 1, width := w, buffer := b, nextSet := n, underway := n, prefetch := [], window := false,
                   dark := false }
    passSerial := k.hf.passSerial + 1 } ∧
  t.sp = { k.sp with hf := k.sp.hf ++ (List.range n).map (fun j =>
    { client := .hf, stream := some .hfRead, addr := k.lay.bandBase + 262144 * b + 4096 * j, op := .read 4096,
      purpose := .rowSet (k.hf.passSerial + 1) j, notices := [] }) }

/-- From `k` to `t`, a transfer `x` of stream `m`, which has left its queue, has been refused for domain `d` (R39). The refusal is offered to the
device fault record (R199). A refusal of IU-write or REPORT-write halts the part, with START_DONE when it was STARTING (R9 (3), R12, R42).
One of IU-read ends the parse: the record that the header names counts FENCE, and the cell is released (R40). One of a table read makes the
table INVALID, one of a fill abandons it, and one of HF-read brings zeros to the prefetch; the latter two mark FENCE, once for each attempt
(R41, R121, R191, R195). -/
def Chip.refused (k t : Chip) (x : Transfer) (m : Stream) (d : Nat) : Prop :=
  let r := k.dmr.record
  let isWrite := match x.op with
    | .read _ => false
    | .write _ => true
  let finishing (slot a : Nat) := ∃ p, k.plate slot = some p ∧ p.state = .finishing ∧ p.attempt = a ∧ p.status = .opened
  let fenced (slot a : Nat) (loc : Location) (detail : Nat) (named : Option Place) :=
    (k.plate slot).isSome = true →
      ((k.marks slot).fenceAttempt = a → t.marks slot = k.marks slot) ∧
      ((k.marks slot).fenceAttempt ≠ a → (k.marks slot).marks.length < 8 → ∃ place,
        (t.marks slot).marks = (k.marks slot).marks ++
          [{ kind := .fence, severity := .fail, charged := false, place := place, attempt := a, location := loc, key := none,
             detail := detail, time := k.regs.plantClock }] ∧
        (t.marks slot).fenceAttempt = a ∧ (∀ p, named = some p → place = p) ∧
        (named = none → (exposureBegun k slot a = true → place = .drum) ∧
          (exposureBegun k slot a = false → finishing slot a → place = .carrier) ∧
          (exposureBegun k slot a = false → ¬finishing slot a → place = .none)))
  t.dmr.record = (if r.valid = true then { r with overflow := true }
    else { valid := true, overflow := false, kind := .fence, unit := streamNo m, detail := 0, addr := x.addr, addrValid := true,
           domain := d, isWrite := isWrite, time := k.regs.plantClock }) ∧
  t.regs.faultValid = (k.regs.faultValid || !r.valid) ∧
  (r.valid = false → t.regs.faultKind = .fence ∧ t.regs.faultUnit = streamNo m) ∧
  (m = .iuWrite ∨ m = .reportWrite →
    t.pd = { k.pd with runState := .halted } ∧ t.regs.haltCause = (if m = .iuWrite then 1 else 2) ∧
    t.regs.alert = k.regs.alert ||| 16#8 ||| (if k.pd.runState = .starting then 128#8 else 0#8) ∧
    t.hf = { k.hf with laser := 0 } ∧ t.imc = { k.imc with drumTarget := 0 } ∧ t.iu = k.iu ∧ t.psc = k.psc ∧ t.br = k.br ∧
    t.tl = k.tl ∧ t.hlc = k.hlc ∧ t.dmr.lists = k.dmr.lists ∧ t.sp = k.sp) ∧
  (m ≠ .iuWrite → m ≠ .reportWrite → t.pd = k.pd) ∧
  (m = .iuRead → (k.iu.parse = none → t.iu = k.iu) ∧
    ∀ p, k.iu.parse = some p → t.iu.parse = none ∧ t.iu.queue = k.iu.queue ∧
      (p.cell < 4096 → tblGet t.iu.useCounts p.cell = none → .fragment p.cell ∉ k.iu.queue → t.iu.holdMap.getLsbD p.cell = false) ∧
      (∃ ws, t.sp.iu = k.sp.iu ++ ws ∧ k.intakeWrites t none ws ∧ (ws ≠ [] → t.iu.settling = true)) ∧
      (p.header = none → t.iu.dir = k.iu.dir) ∧
      ∀ h, p.header = some h →
        ((∀ e ∈ k.iu.dir, ¬(e.2.key = h.key ∧ e.2.version = h.version)) → t.iu.dir = k.iu.dir) ∧
        ∀ i q, k.pagesSound → tblGet k.iu.dir i = some q → q.key = h.key → q.version = h.version →
          tblGet t.iu.dir i = some { q with notes := { q.notes with fence := min 255 (q.notes.fence + 1) } } ∧
          (∀ j, j ≠ i → tblGet t.iu.dir j = tblGet k.iu.dir j) ∧ ∃ w ∈ t.sp.iu, .alert .pages ∈ w.notices) ∧
  (m = .brRead → x.purpose = .table → ∀ y, k.tl.reload = some y →
    t.tl.reload = some { y with reads := [], outcome := some false }) ∧
  (∀ id slot a sw, m = .brRead ∨ m = .brWrite → x.purpose = .fill id slot a sw →
    (∀ f, k.br.fill = some f → f.id = id → t.br = { k.br with
      fill := none
      buffers := k.br.buffers.map (fun b => match b with
        | .filling _ => .free
        | b => b)
      order := k.br.order.map (fun e => if e.slot = slot ∧ e.attempt = a then { e with stall := true } else e) }) ∧
    ((∀ f, k.br.fill = some f → f.id ≠ id) → t.br = k.br) ∧
    fenced slot a (.swath sw) (if m = .brRead then 2 else 3) none) ∧
  ∀ j y, m = .hfRead → x.purpose = .rowSet y.id j → k.hf.pass = some y →
    (let got : Pass := { y with underway := y.underway - 1, prefetch := y.prefetch ++ [(j, List.replicate 4096 0)] }
     t.hf = (k.fetchesFor got).hf ∧ t.sp.hf = (k.fetchesFor got).sp.hf) ∧
    ∀ dr p, k.imc.drum = some dr → dr.owner = some p →
      fenced p.slot p.attempt (.swath k.imc.exposure.cursor) 4 (some .drum)

end Sys2Proof.Machine
end

