-- ==== Sys2Proof/WellFormed.lean ====
section
/-! DEFINITION. When a command's operands are those its row names. exec is total: it gives an ill-formed command a meaning too. -/

namespace Sys2Proof

/-- A word written to CONTROL with ENGINE_RESET clear (R14). -/
def controlKeepsRunning (v : Word) : Bool := !v.getLsbD 1

/-- A register write that R1, R15 and R17 ignore: anything but a write of four bytes to CONTROL, POST, ALERT, ALERT_EN or PLANT_CLOCK. -/
def ignoredWrite (offset size : Nat) : Bool :=
  decide (1 ≤ size) && decide (size ≤ 4) && decide (offset + size ≤ 4096) &&
    !(decide (size = 4) && [0x004, 0x00C, 0x010, 0x014, 0x018].contains offset)

/-- A layout record with the numbers of domains, streams, formats and units that R3 gives. -/
def LayoutRecord.shaped (r : LayoutRecord) : Bool :=
  decide (r.domains.length = 4) && decide (r.streams.length = 6) && decide (r.formats.length = 8) &&
    decide (r.units.length = 4)

/-- A host access that lies inside the 4 GiB store and names at least one byte (R2, R28). -/
def HostOp.inStore : HostOp → Bool
  | .read a n => decide (1 ≤ n) && decide (a.toNat + n ≤ 4294967296)
  | .write a d => decide (1 ≤ d.length) && decide (a.toNat + d.length ≤ 4294967296)

/-- The operands of each row. -/
def Instr.wellFormed : Instr → Bool
  | .powerOnReset => true
  | .engineReset v => v.getLsbD 1
  | .hotReset => true
  | .runSet v => controlKeepsRunning v && v.getLsbD 0
  | .runClear v => controlKeepsRunning v && !v.getLsbD 0
  | .exposeEnableSet v => controlKeepsRunning v && v.getLsbD 2
  | .exposeEnableClear v => controlKeepsRunning v && !v.getLsbD 2
  | .alertWrite _ => true
  | .alertEnWrite _ => true
  | .plantClockWrite _ => true
  | .plantClockTick => true
  | .registerWriteIgnored o n _ => ignoredWrite o n
  | .post _ => true
  | .postBadWord => true
  | .fragment => true
  | .order => true
  | .breakPlate => true
  | .release => true
  | .seen => true
  | .drop => true
  | .table => true
  | .resume => true
  | .fenceFlush => true
  | .hostAccess op => op.inStore
  | .transferGrant => true
  | .transferComplete _ => true
  | .parseBegin => true
  | .parseEnd => true
  | .dropApply => true
  | .pageReport => true
  | .selection => true
  | .exposingEntryReport => true
  | .exposureEndReport => true
  | .renderFinished => true
  | .carrierCreated => true
  | .carrierRemoved => true
  | .dispositionSend => true
  | .dispositionApply => true
  | .fillBegin => true
  | .renderReflectionPoint => true
  | .reflectionPointEnd => true
  | .fillEnd => true
  | .reloadBegin => true
  | .reloadEnd => true
  | .encoderTransition _ => true
  | .index _ => true
  | .headChannelFault _ => true
  | .headAllClear => true
  | .unloadIssue => true
  | .unloadEnd => true
  | .exchangeStart => true
  | .requestAnswer _ _ => true
  | .pollAnswer _ _ => true
  | .answerWindowExpiry => true
  | .busyRetryExpiry _ => true
  | .pollTimerExpiry _ => true
  | .completionTimeout _ => true
  | .linkRetrain => true
  | .msiEnableChange _ => true
  | .fenceMapFetchComplete => true
  | .layoutReadComplete r => r.shaped

end Sys2Proof
end

