-- ==== Sys2Proof/Certificates/Slice0/Obligations.lean ====
section
/-! DEFINITION. The statements: what the commands and the machine do, by the rules of spec/. -/

open Sys2Proof Sys2Proof.Machine

/-! ### The step and the outcomes -/

/-- One step runs the command at the front of the queue with the rest of the queue; on an empty queue the block idles (log 4). -/
def Obligations.StepRunsFront : Prop :=
  (∀ (c : Instr) (rest : List Instr) (s : State), s.pending = c :: rest → step s = exec c (s.setPending rest)) ∧
    ∀ s : State, s.pending = [] → step s = .next s

/-- Every command answers a next state that leaves the queue alone, but for a host access past the end of the store (log 22). -/
def Obligations.ExecLeavesQueue : Prop :=
  ∀ (c : Instr) (s : State), (∃ t, exec c s = .next t ∧ t.pending = s.pending) ∨
    ∃ op, c = .hostAccess op ∧ s.chip.regs.linkUp = true ∧ pastStore op = true ∧ exec c s = .fault .noSuchAddress

/-! ### Resets -/

/-- Power-on reset: every on-chip state at its reset value, the registers as R1's table gives them, and the store as the memory came up
with, in canonical form. A read of the register window returns the bytes of these values that it covers (R1, R2, R13; log 2 for the store, log
17 for the PCI Express side, log 24 for the counter and what no rule gives, log 26 for the message count, the host's data, the drive level
and the head position, log 42). -/
def Obligations.PowerOnReset : Prop :=
  ∀ s : State, ∃ t, exec .powerOnReset s = .next t ∧ t.pending = s.pending ∧
    t.chip = { State.reset.chip with fresh := s.chip.fresh + 1 } ∧ Memory.wf t.store = true ∧
    readRegister t.chip 0x000 = 0x3A164001 ∧ readRegister t.chip 0x004 = 0 ∧ readRegister t.chip 0x008 = 0x00040000 ∧
    readRegister t.chip 0x00C = 0 ∧ readRegister t.chip 0x010 = 0 ∧ readRegister t.chip 0x014 = 0 ∧
    readRegister t.chip 0x018 = 0 ∧ readRegister t.chip 0x01C = 0 ∧ readWindow t.chip 0x000 4 = [0x01, 0x40, 0x16, 0x3A] ∧
    readWindow t.chip 0x001 2 = [0x40, 0x16] ∧ readWindow t.chip 0x00A 1 = [0x04] ∧ readWindow t.chip 0x009 1 = [0x00]

/-- Engine reset and hot reset: every on-chip state at its reset value but PLANT_CLOCK; the store is kept. The PCI Express side keeps its
settings with the message count and the host's data (the model's choice: logs 17, 26), and a hot reset takes the link down. An engine reset
is a write of CONTROL, which a link that is down does not carry (log 43). A retrained link is up; the message setting takes its value without
a message; a register write that is ignored changes nothing (R1, R2, R13, R14 (1), R15, R17, R23). -/
def Obligations.ResetsAndLink : Prop :=
  ∀ s : State,
    let kept (up : Bool) : Chip := { State.reset.chip with
      regs := { State.reset.chip.regs with
        plantClock := s.chip.regs.plantClock, linkUp := up, msiEnabled := s.chip.regs.msiEnabled,
        messages := s.chip.regs.messages, hostReply := s.chip.regs.hostReply }
      fresh := s.chip.fresh }
    exec .hotReset s = .next { s with chip := kept false } ∧
    (∀ o n w, exec (.registerWriteIgnored o n w) s = .next s) ∧
    exec .linkRetrain s = .next { s with chip := { s.chip with regs := { s.chip.regs with linkUp := true } } } ∧
    (∀ en, exec (.msiEnableChange en) s = .next { s with chip := { s.chip with regs := { s.chip.regs with msiEnabled := en } } }) ∧
    ∀ v : Word, v.getLsbD 1 = true →
      exec (.engineReset v) s = .next (if s.chip.regs.linkUp = true then { s with chip := kept true } else s)

/-! ### CONTROL -/

/-- A write of CONTROL that sets RUN, with EXPOSE_ENABLE not falling: RUN acts in OFF, STOPPING and STOPPED, and is only stored in any other
state (R7, R10, R11, R14 (2)). -/
def Obligations.RunSetActs : Prop :=
  ∀ (s : State) (v : Word), s.chip.regs.linkUp = true → v.getLsbD 1 = false → v.getLsbD 0 = true →
    (s.chip.regs.exposeEnable = true → v.getLsbD 2 = true) →
    exec (.runSet v) s = .next { s with chip :=
      let r := { s.chip.regs with run := true, exposeEnable := v.getLsbD 2 }
      if s.chip.regs.run = true then { s.chip with regs := r }
      else
        match s.chip.pd.runState with
        | .off => { s.chip with
            pd := { s.chip.pd with runState := .starting, phase := .layoutRead }
            regs := { r with startFail := 0, haltCause := 0, startUnit := 0 } }
        | .stopping => { s.chip with pd := { s.chip.pd with runState := .running }, regs := r }
        | .stopped => { s.chip with pd := { s.chip.pd with runState := .running }, regs := r }
        | .starting => { s.chip with regs := r }
        | .running => { s.chip with regs := r }
        | .halted => { s.chip with regs := r } }

/-- A write of CONTROL that clears RUN, with EXPOSE_ENABLE not falling. In RUNNING it leads to STOPPED, or to STOPPING while a plate is
IMAGING. A PREPARING plate is returned uncharged with its attempt kept: its bands are discarded, its pins given up, and it is READY with every
position ready, WAITING otherwise. PSC takes this event when it is free (log 10); a NOSEP or LATE mark of the return makes it wait once more,
the run state being STOPPING. In every other state RUN is only stored (R9, R10, R14 (2), R73, R101, R108, R110, R188). -/
def Obligations.RunClearActs : Prop :=
  ∀ (s : State) (v : Word), s.chip.regs.linkUp = true → v.getLsbD 1 = false → v.getLsbD 0 = false →
    (s.chip.regs.exposeEnable = true → v.getLsbD 2 = true) →
    let r := { s.chip.regs with run := false, exposeEnable := v.getLsbD 2 }
    let entered (st : RunState) : Chip := { s.chip with regs := r, pd := { s.chip.pd with runState := st } }
    let ended : RunState := if ∃ e ∈ s.chip.psc.plates, e.2.state = .imaging then .stopping else .stopped
    (s.chip.regs.run = false ∨ s.chip.pd.runState ≠ .running →
      exec (.runClear v) s = .next { s with chip := { s.chip with regs := r } }) ∧
    (s.chip.regs.run = true → s.chip.pd.runState = .running →
      ((∀ e ∈ s.chip.psc.plates, e.2.state ≠ .preparing) → exec (.runClear v) s = .next (s.setChip (entered ended))) ∧
      ((∃ e ∈ s.chip.psc.plates, e.2.state = .preparing) → pscBlocked s.chip = true →
        exec (.runClear v) s = .next (s.setChip
          { entered .stopping with psc := { s.chip.psc with due := s.chip.psc.due ++ [.stopping] } })) ∧
      ∀ slot p, s.chip.pscReady → s.chip.plate slot = some p → p.state = .preparing →
        (∀ n x, n ≠ slot → s.chip.plate n = some x → x.state ≠ .preparing) →
        let late := Plate.lateDue { p with state := .waiting } s.chip s.chip.regs.plantClock
        ∃ t q, exec (.runClear v) s = .next t ∧ t.store = s.store ∧ t.pending = s.pending ∧ t.chip.regs = r ∧ t.chip.tl = s.chip.tl ∧
          t.chip.pd = { s.chip.pd with runState := t.chip.pd.runState } ∧
          t.chip.plate slot = some q ∧ q.attempt = p.attempt ∧ q.status = p.status ∧ q.charged = p.charged ∧ q.pinsHeld = false ∧
          q.order = p.order ∧ p.pinsGivenUp s.chip.iu.dir t.chip.iu.dir ∧ t.chip.discarded slot p.attempt ∧
          (∀ n, n ≠ slot → t.chip.plate n = s.chip.plate n) ∧
          (p.order.allReady t.chip.iu.dir → q.state = .ready ∧ q.readyTime = s.chip.regs.plantClock ∧ slot ∈ t.chip.psc.ready ∧
            t.chip.pd.runState = ended) ∧
          (¬p.order.allReady t.chip.iu.dir → p.order.nosepFree t.chip.iu.dir → q.state = .waiting ∧
            (¬late → t.chip.pd.runState = ended) ∧
            (late → t.chip.pd.runState = .stopping ∧ q.lateDone = true ∧
              s.chip.pscMarked t.chip slot .late .note (waitedAttempt p) none (p.order.deadline - s.chip.lay.lateLead))))

/-- EXPOSE_ENABLE rises and falls with RUN as it was. Its fall darkens the laser; in EXPOSING it records pause reason INTERLOCK, and a begun
exposure ends SPOILED with mark INTERLOCK. In HALTED it is only stored (R12, R14 (3), R153, R162, R165). DESIGN CHOICE of the model (log 20): a
write that changes RUN with it acts as the change of EXPOSE_ENABLE followed by the change of RUN. -/
def Obligations.ExposeEnableActs : Prop :=
  (∀ (s : State) (v w : Word), s.chip.regs.linkUp = true → v.getLsbD 1 = false → w.getLsbD 1 = false →
    w.getLsbD 0 = s.chip.regs.run → w.getLsbD 2 = v.getLsbD 2 →
    ∃ t, exec (.exposeEnableClear w) s = .next t ∧ exec (.exposeEnableSet w) s = .next t ∧
      exec (.runSet v) s = exec (.runSet v) t ∧ exec (.runClear v) s = exec (.runClear v) t) ∧
  ∀ (s : State) (v : Word), s.chip.regs.linkUp = true → v.getLsbD 1 = false → v.getLsbD 0 = s.chip.regs.run →
    (v.getLsbD 2 = true →
      exec (.exposeEnableSet v) s = .next { s with chip := { s.chip with regs := { s.chip.regs with exposeEnable := true } } }) ∧
    (v.getLsbD 2 = false →
      let r := { s.chip.regs with exposeEnable := false }
      (s.chip.regs.exposeEnable = false ∨ s.chip.pd.runState = .halted →
        exec (.exposeEnableClear v) s = .next { s with chip := { s.chip with regs := r } }) ∧
      (s.chip.regs.exposeEnable = true → s.chip.pd.runState ≠ .halted →
        (s.chip.working = false ∨ s.chip.imc.state ≠ .exposing →
          exec (.exposeEnableClear v) s = .next { s with chip := { s.chip with regs := r, hf := { s.chip.hf with laser := 0 } } }) ∧
        (s.chip.working = true → s.chip.imc.state = .exposing →
          ∃ t, exec (.exposeEnableClear v) s = .next t ∧ t.store = s.store ∧ t.chip.hf.laser = 0 ∧ t.chip.imc.state = .paused ∧
            t.chip.imc.pauses = { s.chip.imc.pauses with interlock := true } ∧ t.chip.imc.drumTarget = 0 ∧
            t.chip.regs.alert = s.chip.regs.alert ||| 8#8 ∧ t.chip.regs.exposeEnable = false ∧
            t.chip.pd = s.chip.pd ∧ t.chip.iu = s.chip.iu ∧ t.chip.tl = s.chip.tl ∧ t.chip.hlc = s.chip.hlc ∧
            (s.chip.imc.exposure.begun = false →
              t.chip.sp = s.chip.sp ∧ t.chip.psc = s.chip.psc ∧ t.chip.dmr = s.chip.dmr ∧ t.chip.br = s.chip.br ∧
                t.chip.imc.drum = s.chip.imc.drum) ∧
            (s.chip.imc.exposure.begun = true → ∀ d p, s.chip.imc.drum = some d → d.owner = some p →
              t.chip.imc.drum = some { d with cond := .spoiled, confirmed := false } ∧ t.chip.hf.pass = none ∧
              t.chip.psc = { s.chip.psc with inbox := s.chip.psc.inbox ++
                [.exposureEnd p.slot p.attempt p.prep s.chip.imc.exposure.exposed s.chip.imc.exposure.holds] } ∧
              ((s.chip.plate p.slot).isSome = true → (s.chip.marks p.slot).marks.length < 8 →
                (t.chip.marks p.slot).marks = (s.chip.marks p.slot).marks ++
                  [{ kind := .interlock, severity := .spoil, charged := false, place := .drum, attempt := p.attempt,
                     location := .swath s.chip.imc.exposure.cursor, key := none, detail := 0,
                     time := s.chip.regs.plantClock }])))))

/-! ### The other registers -/

/-- Writes of ALERT and ALERT_EN. A write of ALERT clears the bits written as 1 and sends no message; a 1 to ALERT.FAULT also clears VALID and
OVERFLOW in FAULT and in the record, and writes them 0 in the status block behind the writes of earlier offers, whose completions no longer
set ALERT.FAULT, unless the part is HALTED or has no layout (R17, R22, R23, R200; log 25). A write of ALERT_EN, and a cause's event, which sets its bit whether or
not it is set, send one message when the enabled, set causes change from none to some while messages are enabled. -/
def Obligations.AlertRegisters : Prop :=
  (∀ (c : Cause) (k : Chip),
    let m : BitVec 8 := match c with
      | .news => 1 | .cells => 2 | .pages => 4 | .pause => 8 | .fault => 16 | .postLost => 32 | .postBad => 64 | .startDone => 128
    raise c k = { k with regs := { k.regs with
      alert := k.regs.alert ||| m
      messages :=
        if k.regs.alert &&& k.regs.alertEn = 0 ∧ (k.regs.alert ||| m) &&& k.regs.alertEn ≠ 0 ∧ k.regs.msiEnabled = true
        then k.regs.messages + 1 else k.regs.messages } }) ∧
  ∀ (s : State) (v : Word), s.chip.regs.linkUp = true →
    (let a := s.chip.regs.alert &&& ~~~(v.setWidth 8)
     let r := s.chip.dmr.record
     let quiet (t : Transfer) : Transfer := { t with notices := t.notices.filter (fun n => decide (n ≠ .alert .fault)) }
     let acknowledged : Chip := { s.chip with
       regs := { s.chip.regs with alert := a, faultValid := false, faultOverflow := false }
       dmr := { s.chip.dmr with record := { r with valid := false, overflow := false } } }
     (v.getLsbD 4 = false →
        exec (.alertWrite v) s = .next { s with chip := { s.chip with regs := { s.chip.regs with alert := a } } }) ∧
     (v.getLsbD 4 = true → s.chip.pd.runState = .halted ∨ s.chip.pd.layout = none →
        exec (.alertWrite v) s = .next { s with chip := acknowledged }) ∧
     ∀ lay, v.getLsbD 4 = true → s.chip.pd.runState ≠ .halted → s.chip.pd.layout = some lay →
        exec (.alertWrite v) s = .next { s with chip := { acknowledged with sp := { s.chip.sp with
          report := s.chip.sp.report.map quiet ++
            [{ client := .report, stream := some .reportWrite, addr := lay.statusBase, op := .write [0, 0], purpose := .quiet,
               notices := [] }]
          check := s.chip.sp.check.map (fun c => { c with xfer := quiet c.xfer })
          served := s.chip.sp.served.map (fun x => { x with xfer := quiet x.xfer }) } } }) ∧
    exec (.alertEnWrite v) s = .next { s with chip := { s.chip with regs := { s.chip.regs with
      alertEn := v.setWidth 8
      messages :=
        if s.chip.regs.alert &&& s.chip.regs.alertEn = 0 ∧ s.chip.regs.alert &&& v.setWidth 8 ≠ 0 ∧ s.chip.regs.msiEnabled = true
        then s.chip.regs.messages + 1 else s.chip.regs.messages } } }

/-- PLANT_CLOCK takes the written value while the link is up, and a tick is one more at any time, FFFFFFFFh being followed by 0. Outside
RUNNING, STOPPING and STOPPED nothing else changes. In them PSC compares the held plates in the order of their slots as soon as it is free
(log 10 for both): with no plate due nothing else changes; the first that is due gets its flag and its mark, LATE before OVERDUE, DMR writes
the mark and its counts, and PSC waits for the disposition before it compares the next. OVERDUE names the plate's attempt number A, also while
its attempt status is ENDED: the model's choice (log 46). How DMR records any mark: a list of fewer than eight takes it at its end; a full one
counts a NOTE lost, up to 255; HOLD, SPOIL or FAIL displaces the oldest NOTE of a full list, the entries after it move up, and every place from
there on is written, or is counted lost where there is no NOTE. A list entry has the 32 bytes of R192's table. In every case the
disposition follows the last write. A report of a FREE slot,
a second FENCE of an attempt, and a NOSEP already remembered for its position leave no trace (R16, R110, R188, R189, R190, R191, R192, R193,
R195, R196). -/
def Obligations.PlantClockMoves : Prop :=
  (∀ (s : State) (c : Instr) (v : Word),
    (c = .plantClockWrite v ∧ s.chip.regs.linkUp = true) ∨ (c = .plantClockTick ∧ v = s.chip.regs.plantClock + 1) →
    let moved : Chip := { s.chip with regs := { s.chip.regs with plantClock := v } }
    let due (p : Plate) := p.lateDue s.chip v ∨ p.overdueDue v
    (s.chip.working = false → exec c s = .next (s.setChip moved)) ∧
    (s.chip.working = true → pscBlocked s.chip = true →
      exec c s = .next (s.setChip { moved with psc := { s.chip.psc with due := s.chip.psc.due ++ [.clock v] } })) ∧
    (s.chip.pscReady →
      ((∀ slot p, s.chip.plate slot = some p → ¬due p) → exec c s = .next (s.setChip moved)) ∧
      ∀ a slot p b, s.chip.psc.plates = a ++ (slot, p) :: b → (∀ e ∈ a, ¬due e.2) → due p →
        let list := s.chip.marks slot
        let after : List PscStep := b.flatMap (fun e => [.late e.1 v, .overdue e.1 v]) ++ [.publish s.chip.psc.plates]
        ∃ t, exec c s = .next t ∧ t.store = s.store ∧ t.pending = s.pending ∧
          t.chip = { moved with
            psc := t.chip.psc, dmr := { s.chip.dmr with lists := t.chip.dmr.lists }
            sp := { s.chip.sp with report := t.chip.sp.report } } ∧
          (∀ n, n ≠ slot → t.chip.marks n = s.chip.marks n) ∧
          (p.lateDue s.chip v →
            t.chip.psc = { s.chip.psc with
              plates := a ++ (slot, { p with lateDone := true }) :: b, awaiting := true, work := .overdue slot v :: after } ∧
            s.chip.pscMarked t.chip slot .late .note (waitedAttempt p) none (p.order.deadline - s.chip.lay.lateLead)) ∧
          (¬p.lateDue s.chip v →
            t.chip.psc = { s.chip.psc with
              plates := a ++ (slot, { p with overdueDone := true }) :: b, awaiting := true, work := after } ∧
            s.chip.pscMarked t.chip slot .overdue .note p.attempt none p.order.deadline) ∧
          let write (at_ : Nat) (b : List Byte) (n : List Notice) : Transfer :=
            { client := .report, stream := some .reportWrite, addr := s.chip.lay.slotBase + 1024 * slot + at_, op := .write b,
              purpose := .quiet, notices := n }
          let done (attempt : Nat) : List Notice :=
            [.markDone { slot := slot, attempt := attempt, severity := .note, charged := false, place := .none, own := true }]
          (∀ m, (t.chip.marks slot).marks = list.marks ++ [m] → list.marks.length < 8 →
            t.chip.sp.report = s.chip.sp.report ++
              [write (0x140 + 32 * list.marks.length) (markBytes m) [],
               write 0x138 (le 1 (list.marks.length + 1) ++ le 1 list.lost) (done m.attempt)]) ∧
          (list.marks.length = 8 →
            let lost := min 255 (list.lost + 1)
            t.chip.marks slot = { list with lost := lost } ∧ ∃ attempt,
              (p.lateDue s.chip v → attempt = waitedAttempt p) ∧ (¬p.lateDue s.chip v → attempt = p.attempt) ∧
              t.chip.sp.report = s.chip.sp.report ++ [write 0x139 (le 1 lost) (done attempt)]))) ∧
  ∀ (byPsc : Bool) (m : MarkReport) (k : Chip),
    let old := k.marks m.slot
    let again := (m.kind = .fence ∧ old.fenceAttempt = m.attempt) ∨ (m.kind = .nosep ∧
      ((∃ q, m.nosep = some (0, q) ∧ old.nosep0 = some q) ∨ ∃ pos q, pos ≠ 0 ∧ m.nosep = some (pos, q) ∧ old.nosep1 = some q))
    (k.plate m.slot = none ∨ again → recordMark byPsc m k = k) ∧
    ∀ p, k.plate m.slot = some p → ¬again →
      let begun := exposureBegun k m.slot m.attempt = true
      let finishing := p.state = .finishing ∧ p.attempt = m.attempt ∧ p.status = .opened
      let severity : Severity :=
        if m.kind = .align ∨ m.kind = .late ∨ m.kind = .overdue ∨ m.kind = .remade ∨ m.kind = .outdated ∨ m.kind = .lateBreak ∨
          m.kind = .timeout ∨ m.kind = .nosep then .note
        else if m.kind = .base ∨ m.kind = .decode then (if begun ∨ finishing then .spoil else .hold)
        else if m.kind = .fence ∨ m.kind = .table ∨ m.kind = .attempts then .fail else .spoil
      let charged := decide (m.kind = .underrun ∨ m.kind = .speed ∨ m.kind = .slip ∨ m.kind = .channel ∨ m.kind = .misreg ∨
        m.kind = .process)
      let place : Place :=
        if severity = .note ∨ severity = .hold then .none
        else m.place.getD (if begun then .drum else if finishing then .carrier else .none)
      let new : Mark :=
        { kind := m.kind, severity := severity, charged := charged, place := place, attempt := m.attempt, location := m.location
          key := m.key, detail := m.detail, time := k.regs.plantClock }
      let write (at_ : Nat) (b : List Byte) (n : List Notice) : Transfer :=
        { client := .report, stream := some .reportWrite, addr := k.lay.slotBase + 1024 * m.slot + at_, op := .write b
          purpose := .quiet, notices := n }
      let entries (first : Nat) (ms : List Mark) := ms.zipIdx.map (fun e => write (0x140 + 32 * (first + e.2)) (markBytes e.1) [])
      let counts (at_ : Nat) (b : List Byte) := write at_ b
        [.markDone { slot := m.slot, attempt := m.attempt, severity := severity, charged := charged, place := place, own := byPsc }]
      let kept (marks : List Mark) (lost : Nat) : SlotMarks :=
        { marks := marks, lost := lost
          fenceAttempt := if m.kind = .fence then m.attempt else old.fenceAttempt
          nosep0 := (match m.nosep with
            | some (0, q) => some q
            | _ => old.nosep0)
          nosep1 := (match m.nosep with
            | some (_ + 1, q) => some q
            | _ => old.nosep1) }
      let records (marks : List Mark) (lost : Nat) (writes : List Transfer) := recordMark byPsc m k = { k with
        dmr := { k.dmr with lists := tblPut k.dmr.lists m.slot (kept marks lost) }
        psc := if byPsc = true then { k.psc with awaiting := true } else k.psc
        sp := { k.sp with report := k.sp.report ++ writes } }
      let more := min 255 (old.lost + 1)
      (old.marks.length < 8 → records (old.marks ++ [new]) old.lost
        (entries old.marks.length [new] ++ [counts 0x138 (le 1 (old.marks.length + 1) ++ le 1 old.lost)])) ∧
      (old.marks.length = 8 →
        (severity = .note ∨ (∀ x ∈ old.marks, x.severity ≠ .note) → records old.marks more [counts 0x139 (le 1 more)]) ∧
        ∀ a x b, old.marks = a ++ x :: b → x.severity = .note → (∀ y ∈ a, y.severity ≠ .note) → severity ≠ .note →
          records (a ++ b ++ [new]) old.lost (entries a.length (b ++ [new]) ++ [counts 0x138 (le 1 8 ++ le 1 old.lost)])) ∧
      new.entryIs (markBytes new)

/-! ### POST and the post queue -/

/-- A write of POST joins the tail of the queue in RUNNING, STOPPING and STOPPED while it holds fewer than 64 words, and POST_ROOM falls by one;
otherwise it is dropped, and ALERT.POST_LOST is set. The queue never grows past 64 words. DEDUCED by the model (log 44): behind writes of the
host that still wait at the HOST client the word is held, with the number of transfers up to the last of them (R18, R38). -/
def Obligations.HostPost : Prop :=
  ∀ (s : State) (w : Word), s.chip.regs.linkUp = true →
    let open_ := s.chip.pd.runState = .running ∨ s.chip.pd.runState = .stopping ∨ s.chip.pd.runState = .stopped
    let writes (t : Transfer) := ∃ d, t.op = .write d
    ((∀ t ∈ s.chip.sp.host, ¬writes t) →
      (open_ → s.chip.pd.postQueue.length < 64 →
        ∃ t, exec (.post w) s = .next t ∧
          t = { s with chip := { s.chip with pd := { s.chip.pd with postQueue := s.chip.pd.postQueue ++ [w] } } } ∧
          postRoom s.chip = postRoom t.chip + 1 ∧ t.chip.pd.postQueue.length ≤ 64) ∧
      (¬open_ ∨ 64 ≤ s.chip.pd.postQueue.length →
        exec (.post w) s = .next { s with chip := raise .postLost s.chip })) ∧
    ∀ a t b, s.chip.sp.host = a ++ t :: b → writes t → (∀ x ∈ b, ¬writes x) →
      exec (.post w) s = .next { s with chip := { s.chip with sp := { s.chip.sp with
        posts := s.chip.sp.posts ++ [(a.length + 1, w)] } } }

/-- PD takes nothing from the queue in OFF, STARTING and HALTED; in RUNNING, STOPPING and STOPPED it takes the head word: a word that
fails the check is removed, and ALERT.POST_BAD is set (R19, R21). Both resets leave the queue empty. -/
def Obligations.PdDispatches : Prop :=
  (∀ (c : Instr) (s : State), c.isDispatch →
    s.chip.pd.runState = .off ∨ s.chip.pd.runState = .starting ∨ s.chip.pd.runState = .halted → exec c s = .next s) ∧
  (∀ (s : State) (w : Word) (q : List Word),
    s.chip.pd.runState = .running ∨ s.chip.pd.runState = .stopping ∨ s.chip.pd.runState = .stopped →
    s.chip.pd.postQueue = w :: q → decodePostWord w s.chip.lay.cellCount s.chip.lay.slotCount = none →
    exec .postBadWord s = .next { s with chip := raise .postBad { s.chip with pd := { s.chip.pd with postQueue := q } } }) ∧
  ∀ (s t : State) (v : Word), v.getLsbD 1 = true → s.chip.regs.linkUp = true →
    exec (.engineReset v) s = .next t ∨ exec .hotReset s = .next t ∨ exec .powerOnReset s = .next t → t.chip.pd.postQueue = []

/-- Every post word decodes to itself, and every word that passes the check is the word of what it decodes to, with its argument fields legal:
no bit is dropped (R19). -/
def Obligations.PostWordRoundTrip : Prop :=
  ∀ cells slots : Nat, cells ≤ 4096 → slots ≤ 512 →
    (∀ p : PostWord, p.legal cells slots = true → decodePostWord (postWordBits p) cells slots = some p) ∧
    ∀ (w : Word) (p : PostWord), decodePostWord w cells slots = some p → postWordBits p = w ∧ p.legal cells slots = true

/-- PD waits with the word at the head while its owner cannot take it, and no other command takes it. PSC can take one when it has finished its
input: no order being read, no write of its own outstanding, no disposition of its own mark awaited, no step left, no event heard (R20, R188;
which of its inputs PSC takes next is the model's choice, log 10). -/
def Obligations.HeadWordWaits : Prop :=
  ∀ (s : State) (p : PostWord) (q : List Word), s.headIs p q →
    (∀ c : Instr, c.isDispatch → c ≠ p.command → exec c s = .next s) ∧
    (p.command = .fragment ∨ p.command = .drop → 4160 ≤ s.chip.iu.queue.length → exec p.command s = .next s) ∧
    (pscFree s.chip = true ↔ s.chip.psc.ordering = none ∧ s.chip.psc.outstanding = 0 ∧ s.chip.psc.awaiting = false ∧
      s.chip.psc.work = [] ∧ s.chip.psc.due = []) ∧
    (p.command = .order ∨ p.command = .breakPlate ∨ p.command = .release ∨ p.command = .seen → pscFree s.chip = false →
      exec p.command s = .next s)

/-- IU takes a FRAGMENT word: a cell that is held is refused with POST_BAD; otherwise the hold bit is set, the map byte is written, and the
word joins the tail of the input queue (R20, R48). -/
def Obligations.FragmentWord : Prop :=
  ∀ (s : State) (c : Nat) (q : List Word), s.headIs (.fragment c) q → s.chip.iu.queue.length < 4160 →
    exec .fragment s = .next (s.setChip
      (if s.chip.iu.holdMap.getLsbD c = true then raise .postBad (s.chip.popped q)
      else
        let m := s.chip.iu.holdMap ||| (1#4096 <<< c)
        { s.chip.popped q with
          iu := { s.chip.iu with holdMap := m, queue := s.chip.iu.queue ++ [.fragment c] }
          sp := { s.chip.sp with iu := s.chip.sp.iu ++
            [{ client := .iu, stream := some .iuWrite, addr := s.chip.lay.mapBase + c / 8,
               op := .write [m.extractLsb' (8 * (c / 8)) 8], purpose := .quiet, notices := [] }] } }))

/-- DROP joins IU's input queue; TABLE joins the pending reload set, where a pair already in it keeps its place; FENCE_FLUSH empties the fence
cache, and a fetch under way loses its place in it (R20, R38, R49, R139). -/
def Obligations.DropTableFlushWords : Prop :=
  ∀ (s : State) (q : List Word),
    (∀ key, s.headIs (.drop key) q → s.chip.iu.queue.length < 4160 →
      exec .drop s = .next { s with chip := { s.chip.popped q with
        iu := { s.chip.iu with queue := s.chip.iu.queue ++ [.drop key] } } }) ∧
    (∀ id, s.headIs (.table id) q →
      exec .table s = .next (s.setChip
        (if ∃ p ∈ s.chip.tl.pendingSet, p.id = id then s.chip.popped q
        else { s.chip.popped q with
          tl := { s.chip.tl with pendingSet := s.chip.tl.pendingSet ++ [{ id := id, due := false }] } }))) ∧
    (s.headIs .fenceFlush q →
      exec .fenceFlush s = .next { s with chip := { s.chip.popped q with
        sp := { s.chip.sp with cache := [], check := s.chip.sp.check.map (fun c => { c with keep := false }) } } })

/-- The ORDER word, and the slot words that PSC refuses. An ORDER of a FREE slot sets the hold bit and writes its map byte, empties DMR's list, and
reads the 256 bytes of the host part through REPORT. ORDER of a held slot, BREAK of a FREE slot, RELEASE of a FREE slot or of one whose plate is
not terminal are refused with POST_BAD and change nothing else; BREAK of a terminal plate is ignored without POST_BAD
(R24, R25 (1), (2), R32, R194). -/
def Obligations.SlotWords : Prop :=
  (∀ (s : State) (slot : Nat) (q : List Word), s.headIs (.order slot) q → pscFree s.chip = true →
    s.chip.psc.holdMap.getLsbD slot = false →
    let m := s.chip.psc.holdMap ||| (1#512 <<< slot)
    exec .order s = .next { s with chip := { s.chip.popped q with
      psc := { s.chip.psc with holdMap := m, ordering := some slot, outstanding := 1 }
      dmr := { s.chip.dmr with lists := tblPut s.chip.dmr.lists slot SlotMarks.empty }
      sp := { s.chip.sp with report := s.chip.sp.report ++
        [{ client := .report, stream := some .reportWrite, addr := s.chip.lay.mapBase + 0x200 + slot / 8,
           op := .write [m.extractLsb' (8 * (slot / 8)) 8], purpose := .quiet, notices := [.pscDone] },
         { client := .report, stream := none, addr := s.chip.lay.slotBase + 1024 * slot, op := .read 256,
           purpose := .order slot, notices := [] }] } } }) ∧
  ∀ (s : State) (slot : Nat) (q : List Word), s.chip.pscReady →
    (s.headIs (.order slot) q → s.chip.psc.holdMap.getLsbD slot = true →
      exec .order s = .next { s with chip := raise .postBad (s.chip.popped q) }) ∧
    (s.headIs (.release slot) q → (∀ p, s.chip.plate slot = some p → p.state.terminal = false) →
      exec .release s = .next { s with chip := raise .postBad (s.chip.popped q) }) ∧
    ∀ f, s.headIs (.breakWord slot f) q →
      (s.chip.plate slot = none → exec .breakPlate s = .next { s with chip := raise .postBad (s.chip.popped q) }) ∧
      ∀ p, s.chip.plate slot = some p → p.state.terminal = true →
        exec .breakPlate s = .next { s with chip := s.chip.popped q }

/-- PSC takes a RELEASE of a terminal slot: FREE is written, the news bit and then the hold bit are cleared and written, and the plate and its
marks are discarded, without an alert. SEEN clears the news bit, and changes nothing when it is 0 (R24, R26, R27). -/
def Obligations.ReleaseAndSeen : Prop :=
  ∀ (s : State) (slot : Nat) (q : List Word), pscFree s.chip = true →
    let hold := s.chip.psc.holdMap &&& ~~~(1#512 <<< slot)
    let news := s.chip.psc.newsMap &&& ~~~(1#512 <<< slot)
    let isSet := s.chip.psc.newsMap.getLsbD slot
    let write (addr : Nat) (b : Byte) : Transfer :=
      { client := .report, stream := some .reportWrite, addr := addr, op := .write [b], purpose := .quiet, notices := [.pscDone] }
    let newsWrite := write (s.chip.lay.mapBase + 0x240 + slot / 8) (news.extractLsb' (8 * (slot / 8)) 8)
    (∀ p, s.headIs (.release slot) q → s.chip.plate slot = some p → p.state.terminal = true →
      exec .release s = .next { s with chip := { s.chip.popped q with
        psc := { s.chip.psc with
          plates := tblErase s.chip.psc.plates slot, holdMap := hold
          newsMap := if isSet = true then news else s.chip.psc.newsMap
          outstanding := if isSet = true then 3 else 2 }
        dmr := { s.chip.dmr with lists := tblErase s.chip.dmr.lists slot }
        sp := { s.chip.sp with report := s.chip.sp.report ++ [write (s.chip.lay.slotBase + 1024 * slot + 0x106) 0] ++
          (if isSet = true then [newsWrite] else []) ++
          [write (s.chip.lay.mapBase + 0x200 + slot / 8) (hold.extractLsb' (8 * (slot / 8)) 8)] } } }) ∧
    (s.headIs (.seen slot) q →
      exec .seen s = .next (s.setChip
        (if isSet = true then { s.chip.popped q with
          psc := { s.chip.psc with newsMap := news, outstanding := 1 }
          sp := { s.chip.sp with report := s.chip.sp.report ++ [newsWrite] } }
        else s.chip.popped q)))

/-- PSC takes a BREAK of a plate that is not terminal. REQUEUE of a WAITING or READY plate changes nothing. CANCEL closes a plate of these
states, and one that is PREPARING or IMAGING before exposure, as CANCELLED, or as CLOSING while a carrier of it is out or its drum plate
was rejected; REQUEUE of the latter two ends the attempt uncharged and returns the plate, READY or WAITING. Either flag withdraws the latter
two: their bands are discarded and their pins given up. In IMAGING with exposure begun the break is pending, and the first BREAK of the attempt
asks IMC. In FINISHING it comes too late: mark LATE_BREAK, whose disposition PSC awaits (R73, R100, R101, R102, R103, R104, R108, R166,
R188). -/
def Obligations.BreakWord : Prop :=
  ∀ (s : State) (slot : Nat) (f : BreakFlag) (q : List Word) (p : Plate),
    s.headIs (.breakWord slot f) q → s.chip.pscReady → s.chip.plate slot = some p →
    let begun := exposureBegun s.chip slot p.attempt
    let early := p.state = .waiting ∨ p.state = .ready
    let drawn := p.state = .preparing ∨ (p.state = .imaging ∧ begun = false)
    ∃ t, exec .breakPlate s = .next t ∧ t.store = s.store ∧ t.chip.regs = s.chip.regs ∧ t.chip.tl = s.chip.tl ∧
      t.chip.pd.postQueue = q ∧ (∀ n, n ≠ slot → t.chip.plate n = s.chip.plate n) ∧
      (early → f = .requeue → t.chip = s.chip.popped q) ∧ (early → t.chip.iu = s.chip.iu ∧ t.chip.br = s.chip.br) ∧
      (drawn → p.pinsGivenUp s.chip.iu.dir t.chip.iu.dir ∧ t.chip.discarded slot p.attempt) ∧
      (early ∨ drawn → f = .cancel → ∃ r, t.chip.plate slot = some r ∧ r.status = .ended ∧ r.breakPending = none ∧
        r.charged = p.charged ∧ slot ∉ t.chip.psc.ready ∧
        (p.carriersOut = 0 → p.drumReject = false → r.state = .cancelled ∧ r.finalTime = s.chip.regs.plantClock) ∧
        (p.carriersOut ≠ 0 ∨ p.drumReject = true → r.state = .closing ∧ r.closing = some .cancelled)) ∧
      (drawn → f = .requeue → ∃ r, t.chip.plate slot = some r ∧ r.status = .ended ∧ r.charged = p.charged ∧ r.attempt = p.attempt ∧
        r.pinsHeld = false ∧
        (p.order.allReady t.chip.iu.dir → r.state = .ready ∧ slot ∈ t.chip.psc.ready) ∧
        (¬p.order.allReady t.chip.iu.dir → p.order.nosepFree t.chip.iu.dir → r.state = .waiting ∧ slot ∉ t.chip.psc.ready)) ∧
      (p.state = .imaging → begun = true →
        t.chip.plate slot = some { p with breakPending :=
          (if p.breakPending = some .cancel ∨ f = .cancel then some .cancel else some .requeue) } ∧
        (p.breakPending.isSome = true → t.chip.imc = s.chip.imc) ∧
        ∀ d, p.breakPending = none → s.chip.imc.drum = some d → d.cond = .unexposed → s.chip.imc.state = .exposing →
          s.chip.hlc.unloadEnd = .none →
          t.chip.imc = { s.chip.imc with exposure := { s.chip.imc.exposure with breakRequest := true } }) ∧
      (p.state = .finishing → t.chip.plate slot = some p ∧ t.chip.imc = s.chip.imc ∧
        s.chip.pscMarked t.chip slot .lateBreak .note p.attempt none (if f = .cancel then 1 else 0)) ∧
      (p.state = .closing → t.chip = s.chip.popped q)

/-- IMC takes a RESUME word. SUPPLY and HANDLER clear, HEAD when the head's last report is all clear, INTERLOCK when EXPOSE_ENABLE is set, and
every handling unit is released. With a reason left ALERT.PAUSE is set and the imager stays; with none left a PAUSED imager goes where
the drum record calls it: EMPTY, BLANK, with the waiting plate taken up, SETTLING, or UNLOAD_WAIT, from which the UNLOAD is issued by a step of
its own (log 11). A blank of another format than the waiting plate's is given up as SPOILED (R154, R157, R169, R181). -/
def Obligations.ResumeWord : Prop :=
  ∀ (s : State) (q : List Word), s.headIs .resume q →
    ∃ t, exec .resume s = .next t ∧ t.store = s.store ∧ t.chip.pd = { s.chip.pd with postQueue := q } ∧
      t.chip.iu = s.chip.iu ∧ t.chip.psc = s.chip.psc ∧ t.chip.br = s.chip.br ∧ t.chip.tl = s.chip.tl ∧ t.chip.dmr = s.chip.dmr ∧
      t.chip.sp = s.chip.sp ∧
      (∀ u, (t.chip.hlc.unit u).hold = none ∧ (t.chip.hlc.unit u).work = (s.chip.hlc.unit u).work ∧
        ((s.chip.hlc.unit u).hold.isSome = true → (t.chip.hlc.unit u).silent = 0)) ∧
      (let left : PauseReasons :=
        { supply := false, handler := false, head := s.chip.imc.pauses.head && s.chip.imc.headFault.isSome,
          interlock := s.chip.imc.pauses.interlock && !s.chip.regs.exposeEnable }
       t.chip.imc.pauses = left ∧
       (left.head = true ∨ left.interlock = true →
         t.chip.imc = { s.chip.imc with pauses := left } ∧ t.chip.regs = (raise .pause s.chip).regs) ∧
       (left.head = false → left.interlock = false →
         t.chip.regs = s.chip.regs ∧
         (s.chip.imc.state ≠ .paused → t.chip.imc = { s.chip.imc with pauses := left }) ∧
         (s.chip.imc.state = .paused →
           (s.chip.imc.drum = none → s.chip.imc.waiting = none → t.chip.imc.state = .empty ∧ t.chip.imc.drumTarget = 0) ∧
           (∀ w, s.chip.imc.drum = none → s.chip.imc.load = none → s.chip.imc.waiting = some w →
             t.chip.imc.state = .loading ∧ t.chip.imc.waiting = none ∧
             t.chip.imc.load = some { format := w.format, plate := some w }) ∧
           (∀ d, s.chip.imc.drum = some d → d.cond = .unexposed → d.owner = none →
             (s.chip.imc.waiting = none → t.chip.imc.state = .blank ∧ t.chip.imc.drumTarget = 0 ∧ t.chip.imc.drum = some d) ∧
             ∀ w, s.chip.imc.waiting = some w →
               (d.format = w.format → t.chip.imc.state = .settling ∧ t.chip.imc.waiting = none ∧ t.chip.imc.exposure.settle = 0 ∧
                 t.chip.imc.drum = some { d with owner := some w } ∧
                 t.chip.imc.drumTarget = (s.chip.profile w.profile).val.rpm ∧ t.chip.dtu.bufferedA = (s.chip.format w.format).lead ∧
                 t.chip.dtu.bufferedB = (s.chip.format w.format).lead + (s.chip.format w.format).width) ∧
               (d.format ≠ w.format → t.chip.imc.state = .unloadWait ∧ t.chip.imc.drumTarget = 0 ∧ t.chip.imc.waiting = some w ∧
                 t.chip.imc.drum = some { d with cond := .spoiled })) ∧
           (∀ d w, s.chip.imc.drum = some d → d.cond = .unexposed → d.owner = some w →
             t.chip.imc.state = .settling ∧ t.chip.imc.exposure.settle = 0 ∧
             t.chip.imc.drumTarget = (s.chip.profile w.profile).val.rpm) ∧
           ∀ d, s.chip.imc.drum = some d → d.cond ≠ .unexposed → t.chip.imc.state = .unloadWait ∧ t.chip.imc.drumTarget = 0)))

/-! ### The Store Port -/

/-- The arbiter's choice: the chosen client waits, and no client above it in the list does; between BR and IU the weight position decides
when both wait: BR is served when p < w, p moves on by one modulo 16, and each run of sixteen such choices serves BR w times and IU 16 − w
times. A choice with one of them waiting leaves p. p is 0 after reset and once the layout record is taken up. Nothing is chosen exactly
when no client waits. A grant takes the head of the chosen client's queue: nothing while a fence map word or the layout record is being read,
in HALTED of the HOST client alone, and otherwise by this choice, HF first while its prefetch holds less than 2 KiB and row sets of the pass
remain to be fetched; that one whose read is under way still remains is DEDUCED by the model (log 27) (R28, R29, R30, R31, R37, R42). -/
def Obligations.ArbiterChooses : Prop :=
  (∀ (p : StorePort) (hfFirst : Bool),
    (arbitrate p hfFirst = none ↔ p.hf = [] ∧ p.host = [] ∧ p.report = [] ∧ p.br = [] ∧ p.iu = []) ∧
    ∀ c pos, arbitrate p hfFirst = some (c, pos) →
      p.waiting c ≠ [] ∧
      (c = .hf → hfFirst = true ∨ (p.host = [] ∧ p.report = [])) ∧
      (c ≠ .hf → hfFirst = true → p.hf = []) ∧
      (c = .report → p.host = []) ∧
      (c = .br ∨ c = .iu → p.host = [] ∧ p.report = [] ∧ p.hf = []) ∧
      (c = .br → p.iu = [] ∨ p.weightPos < p.weight) ∧
      (c = .iu → p.br = [] ∨ p.weight ≤ p.weightPos)) ∧
  (∀ p : StorePort, p.br ≠ [] → p.iu ≠ [] → p.weightPos < 16 → p.weight ≤ 15 →
    let at_ (i : Nat) : StorePort := { p with weightPos := (p.weightPos + i) % 16 }
    (∀ i, chooseLow (at_ i) = some (if (at_ i).weightPos < p.weight then .br else .iu, (at_ (i + 1)).weightPos)) ∧
    ((List.range 16).filter (fun i => decide ((chooseLow (at_ i)).map (·.1) = some .br))).length = p.weight ∧
    ((List.range 16).filter (fun i => decide ((chooseLow (at_ i)).map (·.1) = some .iu))).length = 16 - p.weight) ∧
  (∀ (p : StorePort) (c : Client) (pos : Nat), p.br = [] ∨ p.iu = [] → chooseLow p = some (c, pos) → pos = p.weightPos) ∧
  State.reset.chip.sp.weightPos = 0 ∧
  (∀ (s t : State) (r : LayoutRecord), s.chip.pd.runState = .starting → s.chip.pd.phase = .layoutRead →
    exec (.layoutReadComplete r) s = .next t → t.chip.sp.weightPos = 0) ∧
  ∀ k : Chip,
    let queue (c : Client) : List Transfer := match c with
      | .hf => k.sp.hf
      | .host => k.sp.host
      | .report => k.sp.report
      | .br => k.sp.br
      | .iu => k.sp.iu
    (hfPrecedence k = true ↔ ∃ ps, k.hf.pass = some ps ∧ 4096 * ps.prefetch.length < 2048 ∧
      (ps.nextSet < (ps.width + 511) / 512 ∨ 0 < ps.underway)) ∧
    (k.sp.check.isSome = true ∨ k.pd.phase = .layoutRead → granted k = none) ∧
    (k.sp.check = none → k.pd.phase ≠ .layoutRead →
      (k.pd.runState = .halted →
        (k.sp.host = [] → granted k = none) ∧
        ∀ t rest, k.sp.host = t :: rest → granted k = some (t, .host, k.sp.weightPos)) ∧
      (k.pd.runState ≠ .halted →
        (arbitrate k.sp (hfPrecedence k) = none → granted k = none) ∧
        ∀ c pos, arbitrate k.sp (hfPrecedence k) = some (c, pos) →
          ∃ t rest, queue c = t :: rest ∧ granted k = some (t, c, pos)))

/-- What the fence says of a transfer of a stream, step by step: a domain that is not VALID allows; outside the window PROTECT_OUTSIDE
decides; inside it the bit of the page in its fence map word, which is fetched when it is not in the cache. An unmapped stream uses
domain 0. A granted transfer of a stream is judged so by its address, and one of no stream, the host's, is allowed unchecked (R2, R32, R33,
R34, R35, R37). -/
def Obligations.FenceCheckRule : Prop :=
  (∀ (k : Chip) (t : Transfer),
    (t.stream = none → checkTransfer k t = .allow) ∧
    ∀ m, t.stream = some m → checkTransfer k t = fenceCheck k.sp m t.addr) ∧
  ∀ (p : StorePort) (m : Stream) (addr : Nat),
    let map := p.streams.getD (streamNo m) ⟨false, 0⟩
    let d := if map.mapped = true then map.domain else 0
    let dom := p.domains.getD d ⟨false, false, 0, 0⟩
    let inside := dom.base ≤ addr ∧ addr < dom.base + 67108864 * 2 ^ dom.exponent
    let page := (addr - dom.base) / 4096
    (dom.valid = false → fenceCheck p m addr = .allow) ∧
    (dom.valid = true → ¬inside → fenceCheck p m addr = if dom.protectOutside = true then .refuse d else .allow) ∧
    (dom.valid = true → inside → (∀ e ∈ p.cache, ¬(e.domain = d ∧ e.word = page / 64)) →
      fenceCheck p m addr = .fetch d (page / 64)) ∧
    ∀ e ∈ p.cache, dom.valid = true → inside → e.domain = d → e.word = page / 64 →
      (∀ x ∈ p.cache, x.domain = d → x.word = page / 64 → x = e) →
      fenceCheck p m addr = if e.value.getLsbD (page % 64) = true then .refuse d else .allow

/-- A granted transfer that the fence allows, or that belongs to no stream, leaves its client's queue and waits for its completion with the
bytes it read: data moves at the grant (DEDUCED by the model, log 5). A write changes exactly its own bytes of the store; a read changes none.
Behind a HOST transfer the writes of POST that waited for it last are taken, in order (log 44). Where the fence needs a fence map word, the
transfer leaves its queue too and waits for the word, which is read as the store holds it then, and nothing else changes. With nothing to
grant the command changes nothing (R2, R18, R28, R29, R34, R35, R37, R38). -/
def Obligations.GrantServes : Prop :=
  (∀ s : State, granted s.chip = none → exec .transferGrant s = .next s) ∧
  (∀ (s : State) (t : Transfer) (c : Client) (pos d w : Nat), granted s.chip = some (t, c, pos) → checkTransfer s.chip t = .fetch d w →
    ∃ word : FenceWord,
      (∀ i < 64, word.getLsbD i = (Memory.read s.store (s.chip.lay.fenceBase + 131072 * d + 8 * w + i / 8)).getLsbD (i % 8)) ∧
      exec .transferGrant s = .next (s.setChip { s.chip with sp := { s.chip.sp.setWaiting c ((s.chip.sp.waiting c).drop 1) with
        weightPos := pos, check := some { xfer := t, domain := d, word := w, value := word, keep := true } } })) ∧
  ∀ (s : State) (t : Transfer) (c : Client) (pos : Nat), granted s.chip = some (t, c, pos) → checkTransfer s.chip t = .allow →
    let k : Chip := { s.chip with sp := { s.chip.sp.setWaiting c ((s.chip.sp.waiting c).drop 1) with
      weightPos := pos
      served := s.chip.sp.served ++ [{ xfer := t, data := (match t.op with
        | .read n => (List.range n).map (fun i => Memory.read s.store (t.addr + i))
        | .write _ => []) }] } }
    let nearer (l : List (Nat × Word)) := l.map (fun p => (p.1 - 1, p.2))
    let posts (l : List (Nat × Word)) : Chip := { k with sp := { k.sp with posts := l } }
    ∃ u, exec .transferGrant s = .next u ∧ u.pending = s.pending ∧
      (t.client ≠ .host → u.chip = k) ∧
      (t.client = .host → (∀ p ∈ s.chip.sp.posts, 2 ≤ p.1) → u.chip = posts (nearer s.chip.sp.posts)) ∧
      (∀ ws rest, t.client = .host → s.chip.sp.posts = ws.map (fun w => (1, w)) ++ rest → (∀ p ∈ rest, 2 ≤ p.1) →
        s.chip.working = true → s.chip.pd.postQueue.length + ws.length ≤ 64 →
        u.chip = { posts (nearer rest) with pd := { s.chip.pd with postQueue := s.chip.pd.postQueue ++ ws } }) ∧
      (∀ w rest, t.client = .host → s.chip.sp.posts = (1, w) :: rest → (∀ p ∈ rest, 2 ≤ p.1) →
        s.chip.working = false ∨ 64 ≤ s.chip.pd.postQueue.length → u.chip = raise .postLost (posts (nearer rest))) ∧
      ∀ a, Memory.read u.store a = match t.op with
        | .read _ => Memory.read s.store a
        | .write d => if t.addr ≤ a ∧ a < t.addr + d.length then d.getD (a - t.addr) 0 else Memory.read s.store a

/-- A granted transfer that the fence refuses changes no byte of the store, and its refusal is offered to the device fault record: latched
while the record is not VALID, otherwise as OVERFLOW. A refusal of IU-write or REPORT-write halts the part at once with its cause, the
laser dark and the drum target 0, in STARTING with START_DONE, and every block stays as it is. A refusal of IU-read ends the parse: the record
that the header names counts FENCE, the cell is released and the record's header is written. A refusal of a table read ends the reload. One of
a fill abandons it, its buffer FREE and its entry stalled, and one of HF-read brings zeros to the prefetch, the next row set's read following;
both mark FENCE, once for each attempt (R9, R12, R31, R39, R40, R41, R42, R121, R191, R195, R199). -/
def Obligations.RefusalOfTransfer : Prop :=
  ∀ (s : State) (t : Transfer) (c : Client) (pos d : Nat) (m : Stream), granted s.chip = some (t, c, pos) →
    t.stream = some m → checkTransfer s.chip t = .refuse d →
    let k : Chip := { s.chip with sp := { s.chip.sp.setWaiting c ((s.chip.sp.waiting c).drop 1) with weightPos := pos } }
    ∃ u, exec .transferGrant s = .next u ∧ u.store = s.store ∧ u.pending = s.pending ∧ k.refused u.chip t m d

/-- A check that waits for its fence map word is decided when the word comes: the word joins the cache as its newest entry, the oldest leaving
when it holds 64, unless a FENCE_FLUSH came since. An open page lets the transfer be served, with its data moved at once (DEDUCED by the model,
log 5). A closed one refuses it, and the store stays: the refusal is offered to the fault record and halts the part, ends the parse or the
reload, abandons the fill or brings zeros to the prefetch, with mark FENCE, by its stream, as a refusal at the grant does (R9, R12, R35 (3),
R37, R38, R39, R40, R41, R42, R121, R195, R199). -/
def Obligations.FetchDecides : Prop :=
  ∀ (s : State) (c : PendingCheck), s.chip.sp.check = some c →
    let cache := if c.keep = true then (if s.chip.sp.cache.length < 64 then s.chip.sp.cache else s.chip.sp.cache.drop 1) ++
      [{ domain := c.domain, word := c.word, value := c.value }] else s.chip.sp.cache
    let dom := s.chip.sp.domains.getD c.domain ⟨false, false, 0, 0⟩
    let k : Chip := { s.chip with sp := { s.chip.sp with check := none, cache := cache } }
    ∃ u, exec .fenceMapFetchComplete s = .next u ∧ u.pending = s.pending ∧
      if c.value.getLsbD ((c.xfer.addr - dom.base) / 4096 % 64) = true then
        u.store = s.store ∧ u.chip.sp.cache = cache ∧ u.chip.sp.check = none ∧ (c.xfer.stream = none → u.chip = k) ∧
          ∀ m, c.xfer.stream = some m → k.refused u.chip c.xfer m c.domain
      else
        u.chip = { k with sp := { k.sp with
          served := s.chip.sp.served ++ [{ xfer := c.xfer, data := (match c.xfer.op with
            | .read n => (List.range n).map (fun i => Memory.read s.store (c.xfer.addr + i))
            | .write _ => []) }] } } ∧
        ∀ a, Memory.read u.store a = match c.xfer.op with
          | .read _ => Memory.read s.store a
          | .write d => if c.xfer.addr ≤ a ∧ a < c.xfer.addr + d.length then d.getD (a - c.xfer.addr) 0 else Memory.read s.store a

/-- The oldest served transfer of a client completes, with the data of its grant (DEDUCED by the model, log 5). A host read brings its bytes to the
host. A write of a block brings its notices, one after another: an alert, a page report, the end of PSC's wait, after which it goes on, a mark's
disposition, IU's idleness, a write of STARTING. In HALTED no block is told (R7, R20, R22, R28, R42, R70, R196). -/
def Obligations.CompletionDelivers : Prop :=
  ∀ (s : State) (c : Client),
    (takeServed c s.chip.sp.served = none → exec (.transferComplete c) s = .next s) ∧
    ∀ x rest, takeServed c s.chip.sp.served = some (x, rest) →
      let k : Chip := { s.chip with sp := { s.chip.sp with served := rest } }
      let told (n : Notice) (k : Chip) : Chip := match n with
        | .alert a => raise a k
        | .page r => { k with psc := { k.psc with inbox := k.psc.inbox ++ [.page r] } }
        | .iuIdle => { k with iu := { k.iu with settling := false } }
        | .pscDone => pscGo { k with psc := { k.psc with outstanding := k.psc.outstanding - 1 } }
        | .startWrite => { k with pd := { k.pd with
            startWrites := k.pd.startWrites - 1
            phase := (if k.pd.startWrites = 1 ∧ k.pd.phase = .writes then .tables else k.pd.phase) } }
        | .markDone d => { k with dmr := { k.dmr with toSend := k.dmr.toSend ++ [d] } }
      (s.chip.pd.runState = .halted → c ≠ .host → exec (.transferComplete c) s = .next (s.setChip k)) ∧
      (c = .host → x.xfer.ofHost →
        exec (.transferComplete c) s = .next (s.setChip (match x.xfer.op with
          | .read _ => { k with regs := { k.regs with hostReply := x.data } }
          | .write _ => k))) ∧
      (s.chip.pd.runState ≠ .halted → x.xfer.purpose = .quiet →
        exec (.transferComplete c) s = .next (s.setChip (x.xfer.notices.foldl (fun a n => told n a) k)) ∧
        (x.xfer.notices = [.pscDone] → 2 ≤ s.chip.psc.outstanding ∨ (s.chip.psc.work = [] ∧ s.chip.psc.due = []) →
          exec (.transferComplete c) s = .next (s.setChip
            { k with psc := { k.psc with outstanding := k.psc.outstanding - 1 } })))

/-- What a completed read brings, with the data of its grant (DEDUCED by the model, log 5). To the parse: a header that R43 finds malformed
rejects it, one that matches nothing is STALE, and the body is read on, up to 4 KiB at a time (log 6), until it decides. To the reload: the
next read or the verdict of R134 to R136. To the fill, if it is still the one in progress: the next read, or, after a row set's write, the
next row set's (log 6) until the fill is done. Once the entries are read, one that is not PRESENT is a finding, and the bodies follow: the
strip, then each patch that covers a rendered dot of the swath, down to the last image row needed (their order: log 68); a body that is decoded
brings its rows and the next body's first read, or the first row set; one whose decode fails is a finding too, with the rows that it gave, and
makes its entry BAD while the entry is PRESENT with its cell and offset. To HF's prefetch: the row set, if the pass is still that of the read,
and the reads of the next row sets while fewer than two are held and under way together: that reads under way count as held is DEDUCED by the
model (log 27). That the addresses of reads and writes wrap at 4 GiB is the model's choice (log 21) (R31, R43, R51, R53, R117, R124, R126,
R127, R128, R134, R135, R136). -/
def Obligations.DataArrives : Prop :=
  ∀ (s : State) (c : Client) (x : Served) (rest : List Served), takeServed c s.chip.sp.served = some (x, rest) →
    s.chip.pd.runState ≠ .halted → x.xfer.notices = [] →
    let k : Chip := { s.chip with sp := { s.chip.sp with served := rest } }
    let done (t : Chip) := exec (.transferComplete c) s = .next (s.setChip t)
    let read (cl : Client) (m : Stream) (addr n : Nat) : Transfer :=
      { client := cl, stream := some m, addr := addr, op := .read n, purpose := x.xfer.purpose, notices := [] }
    (x.xfer.purpose = .parse →
      (k.iu.parse = none → done k) ∧
      ∀ p, k.iu.parse = some p →
        let b := p.bytes ++ x.data
        let parse (h : Option FragHeader) (m : Option MatchCase) (v : Option Verdict) : IntakeUnit :=
          { k.iu with parse := some { p with bytes := b, header := h, matching := m, verdict := v } }
        let body (h : FragHeader) (m : Option MatchCase) :=
          (∀ v, bodyVerdict p.cell h b = some v → done { k with iu := parse (some h) m (some v) }) ∧
          (bodyVerdict p.cell h b = none → done { k with
            iu := parse (some h) m none
            sp := { k.sp with iu := k.sp.iu ++
              [read .iu .iuRead (k.lay.cellBase + 65536 * p.cell + b.length)
                (min (4096 - b.length % 4096) (16 + h.len - b.length))] } })
        (∀ h, p.header = some h → body h p.matching) ∧
        (p.header = none →
          let h : FragHeader :=
            { key := ⟨u8 b 4, u8 b 5, u8 b 6⟩, kind := u8 b 7, version := u16 b 8, sep := u8 b 10, len := u32 b 12 }
          let key := h.key.book ≤ 15 ∧ h.key.page ≠ 0 ∧ h.key.zone ≤ 63
          let sound := u32 b 0 = 0x00640F01 ∧ key ∧ 1 ≤ h.kind ∧ h.kind ≤ 3 ∧ h.version ≠ 0 ∧ h.sep ≤ 3 ∧ u8 b 11 = 0 ∧
            1 ≤ h.len ∧ h.len ≤ 65520
          (¬sound → done { k with iu := parse none p.matching (some (.reject (.malformedHeader
            (if key ∧ h.version ≠ 0 then some (h.key, h.version) else none)))) }) ∧
          (sound → matchHeader k.iu h = none → done { k with iu := parse (some h) p.matching (some (.reject .stale)) }) ∧
          ∀ m, sound → matchHeader k.iu h = some m → body h (some m))) ∧
    (x.xfer.purpose = .table →
      (k.tl.reload = none → done k) ∧
      ∀ r, k.tl.reload = some r →
        let b := r.bytes ++ x.data
        let reload (y : Reload) : TableLoader := { k.tl with reload := some y }
        let tile := 8 ≤ u16 b 0 ∧ u16 b 0 ≤ 256
        let legal := match r.id.kind with
          | .curve => True
          | .screen => tile
          | .screenSet => ∀ i < 4, u8 b i ≤ 7
          | .profile => 300 ≤ u16 b 0 ∧ u16 b 0 ≤ 1200 ∧ 1 ≤ u8 b 2 ∧ u8 b 2 ≤ 4 ∧ u8 b 3 ≤ 63
          | .power => True
        (r.id.kind = .screen → r.bytes = [] →
          (¬tile → done { k with tl := reload { r with bytes := b, reads := [], outcome := some false } }) ∧
          (tile → k.lay.tableBase % 4096 = 0 → ∃ more, done { k with
            tl := reload { r with bytes := b, reads := more }
            sp := { k.sp with br := k.sp.br ++
              [read .br .brRead ((k.lay.tableBase + 0x100000 + 131072 * r.id.idx) % 4294967296)
                (min (2 * u16 b 0 * u16 b 0) 4096)] } })) ∧
        (r.id.kind ≠ .screen ∨ r.bytes ≠ [] →
          (∀ a more, r.reads = a :: more → done { k with
            tl := reload { r with bytes := b, reads := more }
            sp := { k.sp with br := k.sp.br ++ [read .br .brRead a.1 a.2] } }) ∧
          (r.reads = [] → ∃ v, done { k with tl := reload { r with bytes := b, outcome := some v } } ∧ (v = true ↔ legal)))) ∧
    (∀ id slot a sw, x.xfer.purpose = .fill id slot a sw →
      ((∀ f, k.br.fill = some f → f.id ≠ id) → done k) ∧
      ∀ f e order, k.br.fill = some f → f.id = id → f.slot = slot → f.attempt = a → f.swath = sw → k.br.order = e :: order →
        e.slot = slot → e.attempt = a →
        let fill (g : Fill) : BandRenderer := { k.br with fill := some g }
        let sets := (e.format.width + 511) / 512
        let writes (g : Fill) (t : Chip) : Chip := { t with
          br := { t.br with fill := some g }
          sp := { t.sp with br := t.sp.br ++
            [{ client := .br, stream := some .brWrite, addr := (k.lay.bandBase + 262144 * f.buffer + 4096 * g.nextSet) % 4294967296
               op := .write (rowSetBytes (renderContext k e) g g.nextSet), purpose := x.xfer.purpose, notices := [] }] } }
        let reading (g : Fill) (r : Nat × Nat) (t : Chip) : Chip := { t with
          br := { t.br with fill := some g }, sp := { t.sp with br := t.sp.br ++ [read .br .brRead (r.1 % 4294967296) r.2] } }
        let body (i : FillItem) : Nat × Nat := match i with
          | .line src => (k.lay.cellBase + 65536 * src.cell + src.off, src.len)
          | .patch _ src _ => (k.lay.cellBase + 65536 * src.cell + src.off, src.len)
        let goOn (its : List FillItem) (g : Fill) (t : Chip) : Chip := match its with
          | [] => writes { g with items := [], bytes := [], reads := [] } t
          | i :: _ =>
            reading { g with items := its, bytes := [], reads := (pieces (body i).1 (body i).2).drop 1 }
              ((body i).1, min (body i).2 (4096 - (body i).1 % 4096)) t
        let ready (its : List FillItem) : Prop := match its with
          | [] => f.nextSet < sets
          | i :: _ => 0 < (body i).2
        let marked (u : Chip) (key : PageKey) (low : Nat) :=
          u.psc = k.psc ∧ u.imc = k.imc ∧ u.tl = k.tl ∧ u.hf = k.hf ∧ u.sp.br = k.sp.br ∧
          (e.finding = true → u.br = k.br) ∧
          (e.finding = false → u.br = { k.br with
            order := k.br.order.map (fun y => if y.slot = slot ∧ y.attempt = a then { y with finding := true } else y) }) ∧
          ((e.finding = true ∨ k.plate slot = none) → ∀ m, u.marks m = k.marks m) ∧
          (e.finding = false → (k.plate slot).isSome = true → (k.marks slot).marks.length < 8 → ∃ m,
            (u.marks slot).marks = (k.marks slot).marks ++ [m] ∧ m.kind = .decode ∧ m.attempt = a ∧ m.charged = false ∧
            m.key = some key ∧ m.location = .strip f.plan.strip ∧ m.detail = low + 256 * e.sep ∧
            m.severity = (if aluminiumExposed k slot a = true then .spoil else .hold))
        (∀ d, x.xfer.op = .write d →
          (f.nextSet + 1 < sets → done (writes { f with nextSet := f.nextSet + 1 } k)) ∧
          (sets ≤ f.nextSet + 1 → done { k with br := fill { f with nextSet := f.nextSet + 1, done := true } })) ∧
        ∀ n, x.xfer.op = .read n →
          (f.items = [] →
            (∀ r more, f.reads = r :: more → done (reading { f with reads := more } r k)) ∧
            (f.reads = [] →
              let covers (src : PatchSource) : Bool :=
                decide (src.row0 ≤ 64 * f.plan.strip + 63 ∧ 64 * f.plan.strip < src.row0 + src.h * src.scale ∧ 0 < src.w * src.scale ∧
                  src.dot0 < min f.plan.pageDots (e.format.width - f.plan.around))
              let items : List FillItem :=
                (match f.plan.line with
                  | none => []
                  | some src => [.line src]) ++
                (f.plan.patches.zipIdx.filter (fun y => covers y.1)).map (fun y =>
                  .patch y.2 y.1 ((min (64 * f.plan.strip + 63) (y.1.row0 + y.1.h * y.1.scale - 1) - y.1.row0) / y.1.scale))
              ready items →
                (f.plan.missing = [] → done (goOn items f k)) ∧
                ∀ key patch others, f.plan.missing = (key, patch) :: others →
                  ∃ u, done (goOn items f u) ∧ u.iu = k.iu ∧ marked u key (patch.getD 255))) ∧
          ∀ it its, f.items = it :: its →
            let b := f.bytes ++ x.data
            let st := match it with
              | .line src => (decodeStrip f.plan.pageDots src.len b).2
              | .patch _ src last => (decodePatch src.w src.h last src.len b).2
            let g : Fill := match it with
              | .line src => { f with lines := (decodeStrip f.plan.pageDots src.len b).1 }
              | .patch place src last => { f with images := tblPut f.images place (decodePatch src.w src.h last src.len b).1 }
            let source := match it with
              | .line src => (src.idx, src.key, 255)
              | .patch _ src _ => (src.idx, src.key, src.p)
            let presents (q : PageRecord) := match it with
              | .line src => ∃ ref, tblGet q.strips (768 * e.sep + f.plan.strip) = some (.present ref) ∧ ref.cell = src.cell ∧
                  ref.off = src.off
              | .patch _ src _ => ∃ ref, tblGet q.patches (32 * e.sep + src.p) = some (.present ref) ∧ ref.cell = src.cell ∧
                  ref.off = src.off
            let isBad (q : PageRecord) := match it with
              | .line _ => tblGet q.strips (768 * e.sep + f.plan.strip) = some .bad
              | .patch _ src _ => tblGet q.patches (32 * e.sep + src.p) = some .bad
            (∀ r more, st = .more → f.reads = r :: more → done (reading { f with bytes := b, reads := more } r k)) ∧
            (st = .complete → ready its → done (goOn its g k)) ∧
            (st = .failed → ready its → ∃ u, done (goOn its g u) ∧ marked u source.2.1 source.2.2 ∧
              (∀ i, i ≠ source.1 → tblGet u.iu.dir i = tblGet k.iu.dir i) ∧
              ∀ q, tblGet k.iu.dir source.1 = some q →
                (¬presents q → tblGet u.iu.dir source.1 = some q) ∧
                (presents q → ∃ q', tblGet u.iu.dir source.1 = some q' ∧ isBad q' ∧
                  q'.notes = { q.notes with decode := min 255 (q.notes.decode + 1) } ∧ q'.pins = q.pins ∧
                  (q.state ≠ .superseded → q'.state = .damaged)))) ∧
    ∀ id j, x.xfer.purpose = .rowSet id j →
      ((∀ p, k.hf.pass = some p → p.id ≠ id) → done k) ∧
      ∀ p, k.hf.pass = some p → p.id = id →
        done (k.fetchesFor { p with underway := p.underway - 1, prefetch := p.prefetch ++ [(j, x.data)] })

/-- A host access inside the store joins the HOST client as transfers that do not cross a 4 KiB boundary and together cover its bytes in address
order; nothing else changes. With the link down nothing happens. An access past 4 GiB faults (log 22). Every span inside the store is split
so: its first transfer ends at the next 4 KiB boundary, or with the span (R2, R28). -/
def Obligations.HostAccessJoins : Prop :=
  (∀ a n : Nat, a + n ≤ 4294967296 →
    (∀ x ∈ pieces a n, 0 < x.2 ∧ x.1 % 4096 + x.2 ≤ 4096) ∧ (pieces a n).flatMap (fun x => List.range' x.1 x.2) = List.range' a n ∧
      (0 < n → (pieces a n).head? = some (a, min n (4096 - a % 4096)))) ∧
  (∀ (s : State) (op : HostOp), s.chip.regs.linkUp = false → exec (.hostAccess op) s = .next s) ∧
  (∀ (s : State) (a : Word) (n : Nat), s.chip.regs.linkUp = true → 4294967296 < a.toNat + n →
    exec (.hostAccess (.read a n)) s = .fault .noSuchAddress) ∧
  (∀ (s : State) (a : Word) (d : List Byte), s.chip.regs.linkUp = true → 4294967296 < a.toNat + d.length →
    exec (.hostAccess (.write a d)) s = .fault .noSuchAddress) ∧
  (∀ (s : State) (a : Word) (n : Nat), s.chip.regs.linkUp = true → a.toNat + n ≤ 4294967296 →
    ∃ ps : List (Nat × Nat),
      (let ts : List Transfer := ps.map
        (fun x => { client := .host, stream := none, addr := x.1, op := .read x.2, purpose := .host, notices := [] })
       exec (.hostAccess (.read a n)) s =
        .next { s with chip := { s.chip with sp := { s.chip.sp with host := s.chip.sp.host ++ ts } } }) ∧
      (∀ x ∈ ps, 0 < x.2 ∧ x.1 % 4096 + x.2 ≤ 4096) ∧ ps.flatMap (fun x => List.range' x.1 x.2) = List.range' a.toNat n) ∧
  ∀ (s : State) (a : Word) (d : List Byte), s.chip.regs.linkUp = true → a.toNat + d.length ≤ 4294967296 →
    ∃ ps : List (Nat × List Byte),
      (let ts : List Transfer := ps.map
        (fun x => { client := .host, stream := none, addr := x.1, op := .write x.2, purpose := .host, notices := [] })
       exec (.hostAccess (.write a d)) s =
        .next { s with chip := { s.chip with sp := { s.chip.sp with host := s.chip.sp.host ++ ts } } }) ∧
      (∀ x ∈ ps, x.2 ≠ [] ∧ x.1 % 4096 + x.2.length ≤ 4096) ∧
      ps.flatMap (fun x => List.range' x.1 x.2.length) = List.range' a.toNat d.length ∧ ps.flatMap (·.2) = d

/-- The layout read of STARTING. The first of START checks 1 to 7 that fails ends START with its number, and every block takes its reset
value, the registers kept; the transfers of the host that wait are dropped with SP's state (the model's choice, log 30), and the writes of
POST behind them (log 44) with POST_LOST. A record that passes them all is taken up, and the empty state is written: the cell map, 1,024
RETIRED page headers, of 96 bytes (log 7) and all 0 (log 29), both slot maps and the status block (R3, R4, R5, R6, R7 (3)–(5), R8, R18, R30,
R33, R36, R61, R201). -/
def Obligations.LayoutReadEnds : Prop :=
  (∀ r : LayoutRecord,
    let area : List (Nat × Nat) := [(0, 4096), (r.cellBase, 65536 * r.cellCount), (r.pageBase, 67108864),
      (r.slotBase, (1024 * r.slotCount + 4095) / 4096 * 4096), (r.bandBase, 4194304), (r.tableBase, 2097152), (r.mapBase, 4096),
      (r.statusBase, 4096), (r.fenceBase, 524288)]
    let fails : Nat → Prop := fun n => match n with
      | 1 => r.formatWord ≠ 0x00640C01#32
      | 2 => ¬(1 ≤ r.cellCount ∧ r.cellCount ≤ 4096 ∧ 1 ≤ r.slotCount ∧ r.slotCount ≤ 512 ∧ r.slipTolerance ≤ 15 ∧
          1 ≤ r.speedWindow ∧ r.speedWindow ≤ 5 ∧ 1 ≤ r.settleCount ∧ r.settleCount ≤ 15 ∧ r.holdLimit ≤ 255 ∧ r.lateLead ≤ 3600 ∧
          1 ≤ r.weight ∧ r.weight ≤ 15)
      | 3 => ∃ a ∈ area, a.1 % 4096 ≠ 0 ∨ 4294967296 < a.1 + a.2
      | 4 => ¬area.Pairwise (fun a b => a.1 + a.2 ≤ b.1 ∨ b.1 + b.2 ≤ a.1)
      | 5 => ∃ f ∈ r.formats, ¬(8192 ≤ f.width ∧ f.width ≤ 32768 ∧ f.width % 64 = 0 ∧ 64 ≤ f.rows ∧ f.rows ≤ 49152 ∧
          f.rows % 64 = 0 ∧ f.lead ≤ 24576 ∧ f.lead + f.width ≤ 32768 ∧ f.cassette ≤ 7)
      | 6 => ∃ i u, r.units[i]? = some u ∧ ¬(10 ≤ u.pollInterval ∧ u.pollInterval ≤ 1000 ∧ 10 ≤ u.busyRetry ∧ u.busyRetry ≤ 1000 ∧
          1 ≤ u.busyLimit ∧ u.busyLimit ≤ 255 ∧ 1 ≤ u.timeout ∧ u.timeout ≤ 600 ∧
          (u.policy = .fault ∨ (u.policy = .assumeDone ∧ 2 ≤ i)))
      | 7 => (∃ d ∈ r.domains, d.valid = true ∧ ¬(d.base % 67108864 = 0 ∧ d.exponent ≤ 6 ∧
          d.base + 67108864 * 2 ^ d.exponent ≤ 4294967296)) ∨ ∃ m ∈ r.streams, m.mapped = true ∧ 3 < m.domain
      | _ => False
    firstFailing fails (startCheck r)) ∧
  ∀ (s : State) (r : LayoutRecord),
    (¬(s.chip.pd.runState = .starting ∧ s.chip.pd.phase = .layoutRead) → exec (.layoutReadComplete r) s = .next s) ∧
    (s.chip.pd.runState = .starting → s.chip.pd.phase = .layoutRead →
      (startCheck r ≠ 0 →
        let kept := if s.chip.sp.posts = [] then s.chip else raise .postLost s.chip
        exec (.layoutReadComplete r) s = .next { s with chip := raise .startDone { State.reset.chip with
          regs := { kept.regs with startFail := startCheck r, startUnit := 0, run := false }, fresh := s.chip.fresh } }) ∧
      (startCheck r = 0 →
        ∃ t, exec (.layoutReadComplete r) s = .next t ∧ t.store = s.store ∧ t.pending = s.pending ∧
          t.chip.pd = { s.chip.pd with layout := some r, phase := .writes, startWrites := 1028 } ∧
          t.chip.regs = { s.chip.regs with faultValid := false, faultOverflow := false } ∧
          t.chip.dmr = { s.chip.dmr with record := { s.chip.dmr.record with valid := false, overflow := false } } ∧
          t.chip.iu = s.chip.iu ∧ t.chip.psc = s.chip.psc ∧ t.chip.tl = s.chip.tl ∧ t.chip.br = s.chip.br ∧ t.chip.imc = s.chip.imc ∧
          t.chip.dtu = s.chip.dtu ∧ t.chip.hf = s.chip.hf ∧ t.chip.hlc = s.chip.hlc ∧
          (let write (c : Client) (m : Stream) (addr : Nat) (b : List Byte) : Transfer :=
            { client := c, stream := some m, addr := addr, op := .write b, purpose := .quiet, notices := [.startWrite] }
           let map := write .iu .iuWrite r.mapBase (List.replicate ((r.cellCount + 7) / 8) 0)
           let pages := (List.range 1024).map (fun i => write .iu .iuWrite (r.pageBase + 65536 * i) (List.replicate 96 0))
           let maps := [write .report .reportWrite (r.mapBase + 0x200) (List.replicate ((r.slotCount + 7) / 8) 0),
             write .report .reportWrite (r.mapBase + 0x240) (List.replicate ((r.slotCount + 7) / 8) 0),
             write .report .reportWrite r.statusBase (faultBytes t.chip.dmr.record)]
           t.chip.sp = { s.chip.sp with
            domains := r.domains, streams := r.streams, weight := r.weight, weightPos := 0, cache := []
            iu := s.chip.sp.iu ++ map :: pages
            report := s.chip.sp.report ++ maps })))

/-! ### What every step keeps -/

/-- The store keeps its canonical form at every step. -/
def Obligations.StoreStaysCanonical : Prop :=
  ∀ s t : State, Memory.wf s.store = true → step s = .next t → Memory.wf t.store = true

/-- The post queue holds at most 64 words, and none in OFF and STARTING, at every step (R18, R21). -/
def Obligations.PostQueueStaysSound : Prop :=
  ∀ s t : State, s.chip.postQueueSound → step s = .next t → t.chip.postQueueSound

/-- The laser drives no channel unless the imager is EXPOSING with EXPOSE_ENABLE set and the part is not HALTED, at every step (R12, R151, R153). -/
def Obligations.LaserStaysSafe : Prop :=
  ∀ s t : State, s.chip.laserSafe → step s = .next t → t.chip.laserSafe

/-- The fence cache holds at most 64 entries, no two for the same word of the same domain, at every step (R36, R37, R38). -/
def Obligations.FenceCacheStaysSound : Prop :=
  ∀ s t : State, s.chip.fenceCacheSound → step s = .next t → t.chip.fenceCacheSound

/-- The transfers of the HOST client belong to no stream and are nobody's but the host's, and no check waits in HALTED, at every step
(R2, R28, R32, R42). -/
def Obligations.HostQueueStaysSound : Prop :=
  ∀ s t : State, s.chip.hostQueueSound → step s = .next t → t.chip.hostQueueSound

/-- Of every plate slot, at every step: the hold bit says whether it is held, the ready list holds the READY plates, but for one in selection or
return, the attempt number stays at most 15, and charged spoils exceed the budget only in a plate that is FAILED or closing as FAILED. Of
PSC's input in hand: its steps end with its writes, and STOPPING lasts no longer than a plate is PREPARING or IMAGING (R10, R24, R94, R107). -/
def Obligations.PlatesStaySound : Prop :=
  ∀ s t : State, s.chip.platesSound → s.chip.inputSound → step s = .next t → t.chip.platesSound ∧ t.chip.inputSound

/-- Of every page key, at every step: its records have different versions, and below a COMPLETE one every record is SUPERSEDED; so at most one
record of a key is COMPLETE (R52, R56, R68). -/
def Obligations.PagesStaySound : Prop :=
  (∀ s t : State, s.chip.pagesSound → step s = .next t → t.chip.pagesSound) ∧
    ∀ k : Chip, k.pagesSound → ∀ i j r q, tblGet k.iu.dir i = some r → tblGet k.iu.dir j = some q → r.key = q.key →
      r.state = .complete → q.state = .complete → i = j

/-- The machine right after reset has every one of these invariants. -/
def Obligations.ResetHasInvariants : Prop :=
  Memory.wf State.reset.store = true ∧ State.reset.chip.postQueueSound ∧ State.reset.chip.laserSafe ∧
    State.reset.chip.fenceCacheSound ∧ State.reset.chip.hostQueueSound ∧ State.reset.chip.platesSound ∧
    State.reset.chip.inputSound ∧ State.reset.chip.pagesSound ∧ State.reset.chip.iu.useCounts = useCountsOf State.reset.chip.iu.dir

/-- HALTED is left by a reset alone, and until then every block stays where it is: page records, plates, mark lists, tables, bands, the imager,
the drum, the head, the carriers and the units, the post queue and the waiting transfers of the blocks. Of the handler line only the
exchange under way ends (R12, R21, R42, R187). -/
def Obligations.HaltedStandsStill : Prop :=
  ∀ (c : Instr) (s t : State), s.chip.hostQueueSound → s.chip.pd.runState = .halted → c.wellFormed = true → ¬c.isReset →
    exec c s = .next t →
    t.chip.pd = s.chip.pd ∧ t.chip.iu = s.chip.iu ∧ t.chip.psc = s.chip.psc ∧ t.chip.tl = s.chip.tl ∧ t.chip.br = s.chip.br ∧
      t.chip.imc = s.chip.imc ∧ t.chip.dtu = s.chip.dtu ∧ t.chip.hf = s.chip.hf ∧
      t.chip.hlc = { s.chip.hlc with line := t.chip.hlc.line } ∧ (t.chip.hlc.line = s.chip.hlc.line ∨ t.chip.hlc.line = none) ∧
      t.chip.dmr.lists = s.chip.dmr.lists ∧ t.chip.dmr.toSend = s.chip.dmr.toSend ∧
      t.chip.sp.hf = s.chip.sp.hf ∧ t.chip.sp.br = s.chip.sp.br ∧ t.chip.sp.iu = s.chip.sp.iu ∧
      t.chip.sp.report = s.chip.sp.report ∧ (c ≠ .transferGrant → t.store = s.store)

/-- What only the host changes: EXPOSE_ENABLE, PLANT_CLOCK (with its ticks), ALERT_EN, the message setting, and RUN, which a failed START also
clears. The layout record taken up stays until a failed START (R3, R8, R14, R16, R23). Resets apart. -/
def Obligations.HostSettingsStay : Prop :=
  ∀ (c : Instr) (s t : State), c.wellFormed = true → ¬c.isReset → exec c s = .next t →
    (¬c.isControlWrite → t.chip.regs.exposeEnable = s.chip.regs.exposeEnable ∧
      (t.chip.regs.run = s.chip.regs.run ∨
        (t.chip.regs.run = false ∧ t.chip.pd.runState = .off ∧ t.chip.regs.startFail ≠ 0))) ∧
    ((∀ v, c ≠ .plantClockWrite v) → c ≠ .plantClockTick → t.chip.regs.plantClock = s.chip.regs.plantClock) ∧
    ((∀ v, c ≠ .alertEnWrite v) → t.chip.regs.alertEn = s.chip.regs.alertEn) ∧
    ((∀ b, c ≠ .msiEnableChange b) → t.chip.regs.msiEnabled = s.chip.regs.msiEnabled) ∧
    (c ≠ .linkRetrain → t.chip.regs.linkUp = s.chip.regs.linkUp) ∧
    ∀ r, s.chip.pd.layout = some r → (∀ x, c ≠ .layoutReadComplete x) →
      t.chip.pd.layout = some r ∨ t.chip.pd.runState = .off

/-! ### Page Intake -/

/-- IU, idle, takes the FRAGMENT word at the head of its input queue: the parse begins with the read of the header through IU-read. With a
parse or its writes under way, or another word at the head, nothing happens (R49, R51, R53). -/
def Obligations.ParseBegins : Prop :=
  ∀ s : State, s.chip.working = true →
    (∀ c rest, s.chip.iu.parse = none → s.chip.iu.settling = false → s.chip.iu.queue = .fragment c :: rest →
      exec .parseBegin s = .next { s with chip := { s.chip with
        iu := { s.chip.iu with
          queue := rest, parse := some { cell := c, bytes := [], header := none, matching := none, verdict := none } }
        sp := { s.chip.sp with iu := s.chip.sp.iu ++
          [{ client := .iu, stream := some .iuRead, addr := s.chip.lay.cellBase + 65536 * c, op := .read 16, purpose := .parse,
             notices := [] }] } } }) ∧
    (s.chip.iu.parse.isSome = true ∨ s.chip.iu.settling = true ∨ s.chip.iu.queue = [] ∨
      (∃ key rest, s.chip.iu.queue = .drop key :: rest) → exec .parseBegin s = .next s)

/-- A header matches a record of its key and version that is not DROPPED; without one it is STALE when its version is at or below that of some
record of the key, or at or below the key's drop floor; in every other case it founds a record. A body is decided as soon as the bytes read
decide it: a MANIFEST by its length, its CRC and its fields, STRIPS by their framing, each strip against its own CRC, a PATCH by its fields
(R44, R45, R46, R52, R53). -/
def Obligations.HeaderMatches : Prop :=
  (∀ (u : IntakeUnit) (h : FragHeader),
    let fits (r : PageRecord) := r.key = h.key ∧ r.version = h.version ∧ r.dropped = false
    let old := (∃ e ∈ u.dir, e.2.key = h.key ∧ h.version ≤ e.2.version) ∨ ∃ v, floorOf u.floors h.key = some v ∧ h.version ≤ v
    ((∃ i, matchHeader u h = some (.matched i)) ↔ ∃ e ∈ u.dir, fits e.2) ∧
    (∀ i, matchHeader u h = some (.matched i) → ∃ r, (i, r) ∈ u.dir ∧ fits r) ∧
    (matchHeader u h = none ↔ (¬∃ e ∈ u.dir, fits e.2) ∧ old) ∧
    (matchHeader u h = some .founds ↔ (¬∃ e ∈ u.dir, fits e.2) ∧ ¬old)) ∧
  ∀ (cell : Nat) (h : FragHeader) (b : List Byte),
    let decides (v : Verdict) := bodyVerdict cell h b = some v
    let bytes (i n : Nat) := (b.drop i).take n
    let crcIs (i n at_ : Nat) := crc32 (bytes i n) = BitVec.ofNat 32 (u32 b at_)
    let zero (i j : Nat) := ∀ n, i ≤ n → n < j → u8 b n = 0
    (h.kind = 1 →
      (h.len ≠ 52 → decides (.reject .malformed)) ∧
      (h.len = 52 → b.length < 68 → bodyVerdict cell h b = none) ∧
      (h.len = 52 → 68 ≤ b.length →
        let rows := u16 b 0x12
        let base : PageKey := ⟨u8 b 0x1A, u8 b 0x1B, u8 b 0x1C⟩
        let n := u8 b 0x1D
        let good := (u8 b 0x10 = 1 ∨ u8 b 0x10 = 2) ∧ 64 ≤ rows ∧ rows ≤ 49152 ∧ rows % 64 = 0 ∧ 64 ≤ u16 b 0x14 ∧
          u16 b 0x14 ≤ 32768 ∧ u8 b 0x11 ≠ 0 ∧ u8 b 0x11 < 16 ∧
          (∀ x < 4, u8 b (0x16 + x) ≤ 32 ∧ (u8 b 0x11 / 2 ^ x % 2 = 0 → u8 b (0x16 + x) = 0)) ∧
          (u8 b 0x10 = 1 → n = 0 ∧ zero 0x1A 0x1D ∧ zero 0x20 0x40) ∧
          (u8 b 0x10 = 2 → 1 ≤ n ∧ n ≤ 8 ∧ base.book ≤ 15 ∧ base.page ≠ 0 ∧ base.zone ≤ 63 ∧ base ≠ h.key ∧
            (∀ i < n, u16 b (0x20 + 4 * i) ≤ u16 b (0x22 + 4 * i) ∧ u16 b (0x22 + 4 * i) < rows / 64) ∧ zero (0x20 + 4 * n) 0x40)
        (¬crcIs 0x10 48 0x40 → decides (.reject .crc)) ∧
        (crcIs 0x10 48 0x40 → ¬good → decides (.reject .malformed)) ∧
        (crcIs 0x10 48 0x40 → good → decides (.content (.manifest
          { derived := decide (u8 b 0x10 = 2), seps := BitVec.ofNat 4 (u8 b 0x11), rows := rows, dots := u16 b 0x14
            patchCounts := [u8 b 0x16, u8 b 0x17, u8 b 0x18, u8 b 0x19], base := base
            ranges := (List.range n).map (fun i => (u16 b (0x20 + 4 * i), u16 b (0x22 + 4 * i))), raw := bytes 0x10 48 }))))) ∧
    (h.kind = 2 →
      let f := u16 b 0x10
      let n := u16 b 0x12
      let len (i : Nat) := u32 b (0x14 + 8 * i)
      let before (i : Nat) := ((List.range i).map len).sum
      let framed := 1 ≤ n ∧ n ≤ 64 ∧ f + n ≤ 768 ∧ 4 + 8 * n ≤ h.len
      (h.len < 4 → decides (.reject .malformed)) ∧
      (4 ≤ h.len → b.length < 20 → bodyVerdict cell h b = none) ∧
      (4 ≤ h.len → 20 ≤ b.length →
        (¬framed → decides (.reject .malformed)) ∧
        (framed → b.length < 20 + 8 * n → bodyVerdict cell h b = none) ∧
        (framed → 20 + 8 * n ≤ b.length →
          let sized := (∀ i < n, len i ≠ 0) ∧ h.len = 4 + 8 * n + before n
          (¬sized → decides (.reject .malformed)) ∧
          (sized → b.length < 16 + h.len → bodyVerdict cell h b = none) ∧
          (sized → 16 + h.len ≤ b.length → ∃ cs, decides (.content (.strips h.sep cs)) ∧ cs.length = n ∧
            ∀ i < n, ∃ c, cs[i]? = some c ∧ c.k = f + i ∧
              c.ref = ⟨cell, 0x14 + 8 * n + before i, len i, BitVec.ofNat 32 (u32 b (0x18 + 8 * i))⟩ ∧
              (c.sound = true ↔ crcIs (0x14 + 8 * n + before i) (len i) (0x18 + 8 * i)))))) ∧
    (h.kind = 3 →
      let s := u8 b 0x12
      let good := u8 b 0x10 ≤ 31 ∧ (u8 b 0x11 = 1 ∨ u8 b 0x11 = 2) ∧ (s = 1 ∨ s = 2 ∨ s = 4 ∨ s = 8 ∨ s = 16) ∧ u8 b 0x13 = 0 ∧
        1 ≤ u16 b 0x18 ∧ u16 b 0x18 ≤ 1024 ∧ 1 ≤ u16 b 0x1A ∧ u16 b 0x1A ≤ 1024 ∧ u32 b 0x1C ≠ 0 ∧ h.len = 20 + u32 b 0x1C
      (h.len < 20 → decides (.reject .malformed)) ∧
      (20 ≤ h.len → b.length < 36 → bodyVerdict cell h b = none) ∧
      (20 ≤ h.len → 36 ≤ b.length →
        (¬good → decides (.reject .malformed)) ∧
        (good → b.length < 16 + h.len → bodyVerdict cell h b = none) ∧
        (good → 16 + h.len ≤ b.length → ∃ sound, decides (.content (.patch h.sep (u8 b 0x10)
            ⟨u8 b 0x11, s, cell, 0x24, u32 b 0x1C, BitVec.ofNat 32 (u32 b 0x20), u16 b 0x14, u16 b 0x16, u16 b 0x18, u16 b 0x1A⟩
            sound)) ∧
          (sound = true ↔ crcIs 0x24 (u32 b 0x1C) 0x20))))

/-- What a fragment's content does to its record. A strip or patch copy inside the manifest, or before one, is judged by the table of R57
against its entry as the entry stands, a patch being equal when image CRC, place, size, scale and mode are; one outside it is a MALFORMED note
alone. The first manifest is copied, and each entry outside it becomes ABSENT with a MALFORMED note; an identical one is dropped, and another
one is a CONFLICT note. CLIPPED is set, as a page mark, when a PRESENT patch reaches past the page, and stays. The copies of a fragment are
taken in order, and CLIPPED, the last fragment time and the state follow (R55, R57, R58, R59, R60, R62, R63). -/
def Obligations.StripCopyJudged : Prop :=
  (∀ (m : Manifest) (x k : Nat),
    (stripInside m x k = true ↔ m.seps.getLsbD x = true ∧ k < m.rows / 64 ∧ (m.derived = true → ∃ r ∈ m.ranges, r.1 ≤ k ∧ k ≤ r.2)) ∧
    (patchInside m x k = true ↔ m.seps.getLsbD x = true ∧ k < m.patchCounts.getD x 0)) ∧
  (∀ (x : Nat) (c : StripCopy) (j : Judged),
    let entry := tblGet j.r.strips (768 * x + c.k)
    let outside := ∃ m, j.r.manifest = some m ∧ stripInside m x c.k = false
    let put (e : StripEntry) (n : Notes) : PageRecord :=
      { j.r with strips := tblPut j.r.strips (768 * x + c.k) e, notes := n }
    let crcNote : Notes := { j.r.notes with crc := min 255 (j.r.notes.crc + 1) }
    (outside → judgeStrip x c j =
      { r := { j.r with notes := { j.r.notes with malformed := min 255 (j.r.notes.malformed + 1) } }, mark := true }) ∧
    (¬outside →
      (entry = none → c.sound = true → judgeStrip x c j = { j with r := put (.present c.ref) j.r.notes }) ∧
      (entry = none → c.sound = false → judgeStrip x c j = { r := put .bad crcNote, mark := true }) ∧
      (entry = some .bad → c.sound = true → judgeStrip x c j = { j with r := put (.present c.ref) j.r.notes }) ∧
      (entry ≠ none → c.sound = false → judgeStrip x c j = { r := { j.r with notes := crcNote }, mark := true }) ∧
      ∀ old, entry = some (.present old) → c.sound = true →
        judgeStrip x c j = if old.crc = c.ref.crc then j
          else { r := { j.r with notes := { j.r.notes with conflict := min 255 (j.r.notes.conflict + 1) } }, mark := true })) ∧
  (∀ (x p : Nat) (c : PatchRef) (sound : Bool) (j : Judged),
    let entry := tblGet j.r.patches (32 * x + p)
    let outside := ∃ m, j.r.manifest = some m ∧ patchInside m x p = false
    let put (e : PatchEntry) (n : Notes) : PageRecord := { j.r with patches := tblPut j.r.patches (32 * x + p) e, notes := n }
    let crcNote : Notes := { j.r.notes with crc := min 255 (j.r.notes.crc + 1) }
    (outside → judgePatch x p c sound j =
      { r := { j.r with notes := { j.r.notes with malformed := min 255 (j.r.notes.malformed + 1) } }, mark := true }) ∧
    (¬outside →
      (entry = none → sound = true → judgePatch x p c sound j = { j with r := put (.present c) j.r.notes }) ∧
      (entry = none → sound = false → judgePatch x p c sound j = { r := put .bad crcNote, mark := true }) ∧
      (entry = some .bad → sound = true → judgePatch x p c sound j = { j with r := put (.present c) j.r.notes }) ∧
      (entry ≠ none → sound = false → judgePatch x p c sound j = { r := { j.r with notes := crcNote }, mark := true }) ∧
      ∀ old, entry = some (.present old) → sound = true → judgePatch x p c sound j =
        if old.crc = c.crc ∧ old.row0 = c.row0 ∧ old.dot0 = c.dot0 ∧ old.w = c.w ∧ old.h = c.h ∧ old.scale = c.scale ∧ old.mode = c.mode
        then j
        else { r := { j.r with notes := { j.r.notes with conflict := min 255 (j.r.notes.conflict + 1) } }, mark := true })) ∧
  (∀ (m : Manifest) (j : Judged),
    let strips := j.r.strips.partition (fun e => stripInside m (e.1 / 768) (e.1 % 768))
    let patches := j.r.patches.partition (fun e => patchInside m (e.1 / 32) (e.1 % 32))
    let gone := strips.2.length + patches.2.length
    (j.r.manifest = none → judgeManifest m j =
      { r := { j.r with
          manifest := some m, strips := strips.1, patches := patches.1
          notes := if gone = 0 then j.r.notes else { j.r.notes with malformed := min 255 (j.r.notes.malformed + gone) } }
        mark := (j.mark || decide (gone ≠ 0)) }) ∧
    ∀ old, j.r.manifest = some old → judgeManifest m j = if old.raw = m.raw then j
      else { r := { j.r with notes := { j.r.notes with conflict := min 255 (j.r.notes.conflict + 1) } }, mark := true }) ∧
  (∀ j : Judged,
    let past (p : PatchRef) := ∃ m, j.r.manifest = some m ∧ (m.rows < p.row0 + p.h * p.scale ∨ m.dots < p.dot0 + p.w * p.scale)
    let reaches := ∃ i p, (i, PatchEntry.present p) ∈ j.r.patches ∧ past p
    (reaches → j.r.clipped = false → j.clip = { r := { j.r with clipped := true }, mark := true }) ∧
    (j.r.clipped = true ∨ ¬reaches → j.clip = j)) ∧
  ∀ (c : Content) (clock : Word) (r : PageRecord),
    let j : Judged := Judged.clip (match c with
      | .manifest m => judgeManifest m ⟨r, false⟩
      | .strips x copies => copies.foldl (fun j c => judgeStrip x c j) ⟨r, false⟩
      | .patch x p ref sound => judgePatch x p ref sound ⟨r, false⟩)
    applyContent c clock r = { j with r := PageRecord.evaluated { j.r with lastTime := clock } }

/-- The use counts that IU holds are those of its directory, at every step: the use count of a cell is the number of PRESENT entries that name
it (R50). -/
def Obligations.UseCountsCountEntries : Prop :=
  (∀ s t : State, s.chip.iu.useCounts = useCountsOf s.chip.iu.dir → step s = .next t →
    t.chip.iu.useCounts = useCountsOf t.chip.iu.dir) ∧
  ∀ (dir : List (Nat × PageRecord)) (c : Nat),
    let n := (dir.map (fun e =>
      (e.2.strips.filter (fun x => match x.2 with
        | .present r => decide (r.cell = c)
        | .bad => false)).length +
      (e.2.patches.filter (fun x => match x.2 with
        | .present r => decide (r.cell = c)
        | .bad => false)).length)).sum
    tblGet (useCountsOf dir) c = if n = 0 then none else some n

/-- At the parse end the whole outcome is applied at once, and IU waits for its writes. A rejected fragment adds one note to the record that R54
chooses, if there is one, and changes no record else. Content goes into its record, or founds one, and the key's older unfinished records are
retired, or SUPERSEDED while pinned; the founded record is the lowest RETIRED one, the key's drop floor is removed, and with no record to take
the directory stays. A record that becomes COMPLETE does so to all its older ones, and its new base clears the BASE flags that it fits. A cell
that nothing names is released. The writes, with the bytes of R61's tables: the changed entries, of a founded record both tables whole, then
the header of each changed record, then the hold map bytes of the released cells (their order within each: logs 53, 66) (R50, R54, R55, R56,
R57, R61, R62, R64, R68, R74, R76). -/
def Obligations.ParseEnds : Prop :=
  ∀ (s : State) (p : Parse) (v : Verdict), s.chip.working = true → s.chip.iu.parse = some p → p.verdict = some v → s.chip.pagesSound →
    let dir := s.chip.iu.dir
    let displaced (r : PageRecord) (x : Option PageRecord) :=
      (r.pins = 0 → x = none) ∧ (r.pins ≠ 0 → x = some { r with state := .superseded })
    let completes (t : State) (i : Nat) (new : PageRecord) := new.state = .complete →
      tblGet t.chip.iu.dir i = some { new with wasComplete := true } ∧
      ((∀ e ∈ dir, e.2.baseFlag = false) → ∀ j r, j ≠ i → tblGet dir j = some r →
        (r.key = new.key → r.version < new.version → r.state ≠ .superseded → displaced r (tblGet t.chip.iu.dir j)) ∧
        (r.key ≠ new.key ∨ new.version < r.version ∨ r.state = .superseded → tblGet t.chip.iu.dir j = some r)) ∧
      ∀ j r m d, tblGet dir j = some r → r.key ≠ new.key → r.baseFlag = true → (∀ e ∈ dir, e.2.baseFlag = true → e.1 = j) →
        r.manifest = some d → d.derived = true → d.base = new.key → new.manifest = some m →
        (m.derived = false → m.rows = d.rows → m.dots = d.dots → m.seps = d.seps →
          ∃ x, tblGet t.chip.iu.dir j = some { PageRecord.evaluated { r with baseFlag := false } with wasComplete := x }) ∧
        (m.derived = true ∨ m.rows ≠ d.rows ∨ m.dots ≠ d.dots ∨ m.seps ≠ d.seps → tblGet t.chip.iu.dir j = some r)
    ∃ t ws founded, exec .parseEnd s = .next t ∧ t.store = s.store ∧ t.pending = s.pending ∧
      t.chip = { s.chip with iu := t.chip.iu, sp := { s.chip.sp with iu := s.chip.sp.iu ++ ws } } ∧
      t.chip.iu.parse = none ∧ t.chip.iu.queue = s.chip.iu.queue ∧
      s.chip.intakeWrites t.chip founded ws ∧ (ws ≠ [] → t.chip.iu.settling = true) ∧
      (p.cell < 4096 → tblGet t.chip.iu.useCounts p.cell = none → .fragment p.cell ∉ s.chip.iu.queue →
        t.chip.iu.holdMap.getLsbD p.cell = false) ∧
      (∀ why, v = .reject why → founded = none ∧
        let noted (i : Nat) (g : Notes → Notes) := ∀ r, tblGet dir i = some r →
          tblGet t.chip.iu.dir i = some { r with notes := g r.notes } ∧ ∀ j, j ≠ i → tblGet t.chip.iu.dir j = tblGet dir j
        let isNamed (key : PageKey) (version : Nat) (r : PageRecord) := r.key = key ∧ r.version = version
        let malformed (key : PageKey) (version : Nat) :=
          (∀ i r, tblGet dir i = some r → isNamed key version r →
            noted i (fun n => { n with malformed := min 255 (n.malformed + 1) })) ∧
          ((∀ e ∈ dir, ¬isNamed key version e.2) → t.chip.iu.dir = dir)
        (∀ key version, why = .malformedHeader (some (key, version)) → malformed key version) ∧
        (why = .malformedHeader none → t.chip.iu.dir = dir) ∧
        ∀ h, p.header = some h →
          (why = .malformed → malformed h.key h.version) ∧
          (∀ i, why = .crc → p.matching = some (.matched i) → noted i (fun n => { n with crc := min 255 (n.crc + 1) })) ∧
          (why = .crc → p.matching = some .founds → t.chip.iu.dir = dir) ∧
          (why = .stale →
            (∀ i r, tblGet dir i = some r → r.key = h.key → (∀ e ∈ dir, e.2.key = h.key → e.2.version ≤ r.version) →
              noted i (fun n => { n with stale := min 255 (n.stale + 1) })) ∧
            ((∀ e ∈ dir, e.2.key ≠ h.key) → t.chip.iu.dir = dir))) ∧
      ∀ h c, v = .content c → p.header = some h →
        (∀ i r, p.matching = some (.matched i) → tblGet dir i = some r →
          let new := (applyContent c s.chip.regs.plantClock r).r
          founded = none ∧
          (new.state ≠ .complete ∨ r.state = .complete →
            tblGet t.chip.iu.dir i = some new ∧ ∀ j, j ≠ i → tblGet t.chip.iu.dir j = tblGet dir j) ∧
          (r.state ≠ .complete → completes t i new)) ∧
        (∀ i, p.matching = some (.matched i) → tblGet dir i = none → founded = none ∧
          ∀ j r, tblGet dir j = some r → r.key = h.key → (∀ e ∈ dir, e.2.key = h.key → e.2.version ≤ r.version) →
            tblGet t.chip.iu.dir j = some { r with notes := { r.notes with stale := min 255 (r.notes.stale + 1) } }) ∧
        (p.matching = some .founds →
          let new := (applyContent c s.chip.regs.plantClock
            { state := .assembling, key := h.key, version := h.version, manifest := none, clipped := false, dropped := false,
              baseFlag := false, pins := 0, notes := ⟨0, 0, 0, 0, 0, 0⟩, firstTime := s.chip.regs.plantClock,
              lastTime := s.chip.regs.plantClock, strips := [], patches := [], wasComplete := false }).r
          let older (r : PageRecord) := r.key = h.key ∧ (r.state = .assembling ∨ r.state = .damaged)
          let available (i : Nat) := tblGet dir i = none ∨ ∃ r, tblGet dir i = some r ∧ older r ∧ r.pins = 0
          ((∀ i < 1024, ¬available i) → founded = none ∧ t.chip.iu.dir = dir ∧ t.chip.iu.floors = s.chip.iu.floors) ∧
          ∀ i < 1024, available i → (∀ j < i, ¬available j) →
            founded = some i ∧ floorOf t.chip.iu.floors h.key = none ∧
            (new.state ≠ .complete → tblGet t.chip.iu.dir i = some new ∧
              ∀ j r, j ≠ i → tblGet dir j = some r →
                (older r → displaced r (tblGet t.chip.iu.dir j)) ∧ (¬older r → tblGet t.chip.iu.dir j = some r)) ∧
            completes t i new)

/-- A DROP word taken by the idle IU retires the records of its key that are not pinned, and those that are stay, SUPERSEDED and DROPPED; the
records of other keys stay. The writes are the cleared entries, the changed headers and the hold map bytes of the cells released, with the bytes
of R61's tables (their order: logs 53, 66). The drop floor becomes the highest version the key had: raised in its place, or inserted as the
newest of at most 64 with the oldest leaving (R50, R61, R64, R75, R76). -/
def Obligations.DropApplies : Prop :=
  ∀ (s : State) (key : PageKey) (rest : List IuWord), s.chip.working = true → s.chip.iu.parse = none → s.chip.iu.settling = false →
    s.chip.iu.queue = .drop key :: rest →
    ∃ t ws, exec .dropApply s = .next t ∧ t.store = s.store ∧ t.pending = s.pending ∧
      t.chip = { s.chip with iu := t.chip.iu, sp := { s.chip.sp with iu := s.chip.sp.iu ++ ws } } ∧ t.chip.iu.queue = rest ∧
      s.chip.intakeWrites t.chip none ws ∧ (ws ≠ [] → t.chip.iu.settling = true) ∧
      (∀ i r, tblGet t.chip.iu.dir i = some r → r.key = key → r.state = .superseded ∧ r.dropped = true ∧ r.pins ≠ 0) ∧
      (∀ i r, tblGet s.chip.iu.dir i = some r → r.key = key →
        (r.pins = 0 → tblGet t.chip.iu.dir i = none) ∧
        (r.pins ≠ 0 → tblGet t.chip.iu.dir i = some { r with state := .superseded, dropped := true })) ∧
      (∀ i r, tblGet s.chip.iu.dir i = some r → (∀ e ∈ s.chip.iu.dir, e.1 = i → e.2.key ≠ key) →
        tblGet t.chip.iu.dir i = some r) ∧
      ((∀ e ∈ s.chip.iu.dir, e.2.key ≠ key) → t.chip.iu.floors = s.chip.iu.floors ∧ t.chip.iu.dir = s.chip.iu.dir) ∧
      ∀ e ∈ s.chip.iu.dir, e.2.key = key → (∀ x ∈ s.chip.iu.dir, x.2.key = key → x.2.version ≤ e.2.version) →
        (floorOf s.chip.iu.floors key = none → t.chip.iu.floors =
          (if s.chip.iu.floors.length < 64 then s.chip.iu.floors else s.chip.iu.floors.drop 1) ++ [(key, e.2.version)]) ∧
        ∀ f, floorOf s.chip.iu.floors key = some f →
          floorOf t.chip.iu.floors key = some (max f e.2.version) ∧ t.chip.iu.floors.length = s.chip.iu.floors.length ∧
          ∀ q, q ≠ key → floorOf t.chip.iu.floors q = floorOf s.chip.iu.floors q

/-! ### Plates -/

/-- The host part of an order has been read. The first of the twelve checks of R89 that fails refuses the order with its number, attempt 0 and
the times set. An order that passes all of them is taken as adjusted, at attempt 1. For each position that was rounded PSC marks ALIGN, and
waits for its disposition; then the plate is READY when every position is ready, WAITING otherwise; LATE and OVERDUE are compared, and the
result part is written, with the bytes of R88's table, then the news map byte when the news bit rises. The plates of other slots stay (R25, R27,
R87, R88, R89, R90, R91, R92, R108, R110, R188). -/
def Obligations.OrderArrives : Prop :=
  (∀ (b : List Byte) (formats : List PlateFormat),
    let f := formats.getD (u8 b 7) ⟨0, 0, 0, 0, false⟩
    let n := if u8 b 0x0C = 2 then 2 else 1
    let at_ (i : Nat) := 0x18 + 8 * i
    let fails : Nat → Prop := fun c => match c with
      | 1 => u8 b 0x0C ≠ 1 ∧ u8 b 0x0C ≠ 2
      | 2 => 3 < u8 b 6
      | 3 => 7 < u8 b 7
      | 4 => 15 < u8 b 0x0D
      | 5 => 15 < u8 b 0x0E
      | 6 => 7 < u8 b 0x0F
      | 7 => u8 b 0x13 ≠ 0 ∧ u8 b 0x13 ≠ 1
      | 8 => 14 < u8 b 0x14
      | 9 => ∃ i < n, 15 < u8 b (at_ i) ∨ u8 b (at_ i + 1) = 0 ∨ 63 < u8 b (at_ i + 2)
      | 10 => ∃ i < n, f.rows ≤ u16 b (at_ i + 4)
      | 11 => ∃ i < n, f.width ≤ u16 b (at_ i + 6)
      | 12 => n = 2 ∧ u16 b 0x1C / 64 = u16 b 0x24 / 64
      | _ => False
    firstFailing fails (orderCheck b formats)) ∧
  ∀ (s : State) (x : Served) (rest : List Served) (slot : Nat), s.chip.working = true →
    takeServed .report s.chip.sp.served = some (x, rest) → x.xfer.purpose = .order slot → x.xfer.notices = [] →
    s.chip.psc.ordering = some slot → s.chip.psc.outstanding = 0 → s.chip.psc.awaiting = false → s.chip.psc.work = [] →
    s.chip.psc.due = [] → s.chip.inputSound → s.chip.platesSound → (s.chip.marks slot).marks = [] →
    let b := x.data
    let n := orderCheck b s.chip.lay.formats
    let clock := s.chip.regs.plantClock
    let count := if u8 b 0x0C = 2 then 2 else 1
    let at_ (i : Nat) := 0x18 + 8 * i
    let pos (i : Nat) : Position :=
      { key := ⟨u8 b (at_ i), u8 b (at_ i + 1), u8 b (at_ i + 2)⟩, across := u16 b (at_ i + 4) / 64 * 64, around := u16 b (at_ i + 6) }
    let order : Order :=
      { plateId := u32 b 0, edition := u16 b 4, sep := u8 b 6, format := u8 b 7, deadline := u32 b 8
        positions := (List.range count).map pos, profile := u8 b 0x0D, curve := u8 b 0x0E, screenSet := u8 b 0x0F
        trim := max (-256) (min 255 (BitVec.ofNat 16 (u16 b 0x10)).toInt), budget := min 3 (u8 b 0x12)
        actionBreak := decide (u8 b 0x13 = 1), bin := u8 b 0x14 }
    let aligned := ∀ i < count, u16 b (at_ i + 4) % 64 = 0
    let ready := order.allReady s.chip.iu.dir
    let late := order.deadline - s.chip.lay.lateLead ≤ clock.toNat
    let overdue := order.deadline ≤ clock.toNat
    let resultWritten (t : Chip) (q : Plate) : Prop := ∃ result, q.resultIs (t.marks slot) result ∧
      let write (a : Nat) (b : List Byte) (n : List Notice) : Transfer :=
        { client := .report, stream := some .reportWrite, addr := a, op := .write b, purpose := .quiet, notices := n }
      t.sp = { s.chip.sp with
        served := rest
        report := s.chip.sp.report ++ write (s.chip.lay.slotBase + 1024 * slot + 0x100) result [.pscDone] ::
          (if s.chip.psc.newsMap.getLsbD slot = true then []
          else [write (s.chip.lay.mapBase + 0x240 + slot / 8) [t.psc.newsMap.extractLsb' (8 * (slot / 8)) 8]
            [.alert .news, .pscDone]]) }
    ∃ t q, exec (.transferComplete .report) s = .next t ∧ t.store = s.store ∧ t.chip.regs = s.chip.regs ∧ t.chip.pd = s.chip.pd ∧
      t.chip.iu = s.chip.iu ∧ t.chip.br = s.chip.br ∧ t.chip.tl = s.chip.tl ∧ t.chip.imc = s.chip.imc ∧ t.chip.hlc = s.chip.hlc ∧
      t.chip.psc.ordering = none ∧ t.chip.psc.holdMap = s.chip.psc.holdMap ∧ (t.chip.psc.awaiting = false → resultWritten t.chip q) ∧
      (∀ m, m ≠ slot → t.chip.plate m = s.chip.plate m) ∧
      t.chip.plate slot = some q ∧ q.orderedTime = clock ∧ q.charged = 0 ∧ q.status = .notStarted ∧ q.snapshot = [] ∧
      (n ≠ 0 → q.state = .refused ∧ q.refusal = n ∧ q.attempt = 0 ∧ q.finalTime = clock ∧ q.order.plateId = u32 b 0 ∧
        q.order.edition = u16 b 4 ∧ q.order.positions = [] ∧ t.chip.psc.ready = s.chip.psc.ready ∧ t.chip.dmr = s.chip.dmr ∧
        (slot < 512 → t.chip.psc.newsMap.getLsbD slot = true)) ∧
      (n = 0 → q.order = order ∧ q.attempt = 1 ∧ q.refusal = 0 ∧
        (∀ i < count, u16 b (at_ i + 4) % 64 ≠ 0 → (∀ j < i, u16 b (at_ j + 4) % 64 = 0) →
          q.state = .waiting ∧ s.chip.pscMarked t.chip slot .align .note 1 (some (pos i).key) i) ∧
        (aligned → ready → q.state = .ready ∧ q.readyTime = clock ∧ slot ∈ t.chip.psc.ready ∧
          (overdue → q.overdueDone = true ∧ s.chip.pscMarked t.chip slot .overdue .note 1 none order.deadline) ∧
          (¬overdue → q.overdueDone = false ∧ t.chip.psc.awaiting = false ∧ t.chip.psc.work = [] ∧ t.chip.dmr = s.chip.dmr ∧
            (slot < 512 → t.chip.psc.newsMap.getLsbD slot = true))) ∧
        (aligned → ¬ready → order.nosepFree s.chip.iu.dir → q.state = .waiting ∧ slot ∉ t.chip.psc.ready ∧
          (late → q.lateDone = true ∧
            s.chip.pscMarked t.chip slot .late .note 1 none (order.deadline - s.chip.lay.lateLead)) ∧
          (¬late → q.lateDone = false ∧ t.chip.psc.awaiting = false ∧ t.chip.psc.work = [] ∧ t.chip.dmr = s.chip.dmr ∧
            (slot < 512 → t.chip.psc.newsMap.getLsbD slot = true))))

/-- Selection takes the head of the ready list while the part is RUNNING, no plate is PREPARING, the imager is not PAUSED and PSC has finished its
input; whether it comes before a report that has arrived is left to the order of the commands (log 10). A plate at attempt 15 whose attempt
has ended gets mark ATTEMPTS, and one whose tables are not VALID mark TABLE; its disposition awaited, it is closed. With every position
resolved the plate enters PREPARING: its attempt opens, its snapshot and numbers are set, each record that the snapshot names gains one pin for
each naming and has its header written, BR gets its entry, and IMC gets the plate, which issues a LOAD when the drum is free. With a position
unresolved it goes back to WAITING, after a mark NOSEP or BASE where the snapshot's answer calls for one (the attempts that these marks name:
logs 38, 46). A position is resolved by checks (a) to (d) on the directory, the first position that fails decides the answer, and the tables
are looked at in the order curve, screen set, screen, profile with POWER. A slot joins the ready list at its place, so that the list stays
ordered by deadline, then slot number (R71, R72, R79, R81, R93, R94, R95, R96, R113, R138, R154, R188). -/
def Obligations.SelectionTakesHead : Prop :=
  (∀ (deadline : Nat → Nat) (slot : Nat) (l : List Nat),
    let before (a b : Nat) := deadline a < deadline b ∨ (deadline a = deadline b ∧ a < b)
    l.Pairwise before → slot ∉ l →
    (insertReady deadline slot l).Pairwise before ∧ (insertReady deadline slot l).Perm (slot :: l)) ∧
  (∀ (dir : List (Nat × PageRecord)) (key : PageKey) (sep : Nat),
    let complete (q : PageKey) (i : Nat) (r : PageRecord) := (i, r) ∈ dir ∧ r.key = q ∧ r.state = .complete
    let answer := resolvePosition dir key sep
    ((∀ i r, ¬complete key i r) → answer = .notComplete) ∧
    ∀ i r m, (∀ q j x l y, complete q j x → complete q l y → j = l ∧ x = y) → complete key i r → r.manifest = some m →
      (m.seps.getLsbD sep = false → answer = .nosep i r.version) ∧
      (m.seps.getLsbD sep = true → m.derived = false → answer = .ready { idx := i, version := r.version, base := none }) ∧
      (m.seps.getLsbD sep = true → m.derived = true →
        ((∀ j b, ¬complete m.base j b) → answer = .notComplete) ∧
        ∀ j b n, complete m.base j b → b.manifest = some n →
          (n.derived = false → n.rows = m.rows → n.dots = m.dots → n.seps = m.seps →
            answer = .ready { idx := i, version := r.version, base := some (j, b.version, m.base) }) ∧
          (n.derived = true ∨ n.rows ≠ m.rows ∨ n.dots ≠ m.dots ∨ n.seps ≠ m.seps → answer = .mismatch i))) ∧
  (∀ (dir : List (Nat × PageRecord)) (sep first : Nat) (ps : List Position),
    let resolved (p : Position) := resolvePosition dir p.key sep
    let answer := resolveAll dir sep first ps
    (∀ snap, ps.map resolved = snap.map Resolved.ready → answer = .ok snap) ∧
    ∀ a p b, ps = a ++ p :: b → (∀ x ∈ a, ∃ y, resolved x = .ready y) →
      (resolved p = .notComplete → answer = .error (.notReady, none)) ∧
      (∀ i v, resolved p = .nosep i v → answer = .error (.nosep (first + a.length) i v, none)) ∧
      ∀ i, resolved p = .mismatch i → answer = .error (.base (first + a.length) p.key, some i)) ∧
  (∀ (k : Chip) (o : Order),
    let screen := (k.screenSet o.screenSet).val.getD o.sep 0
    selectionFault k o =
      if (k.curve o.curve).valid = false then some ⟨.curve, o.curve⟩
      else if (k.screenSet o.screenSet).valid = false then some ⟨.screenSet, o.screenSet⟩
      else if (k.screen screen).valid = false then some ⟨.screen, screen⟩
      else if (k.profile o.profile).valid = false then some ⟨.profile, o.profile⟩
      else if k.tl.power.valid = false then some ⟨.power, 0⟩
      else none) ∧
  ∀ s : State,
    let selects := s.chip.pd.runState = .running ∧ (∀ e ∈ s.chip.psc.plates, e.2.state ≠ .preparing) ∧ s.chip.imc.state ≠ .paused ∧
      s.chip.psc.ready ≠ []
    (¬selects ∨ pscFree s.chip = false → exec .selection s = .next s) ∧
    ∀ slot rest p, selects → s.chip.pscReady → s.chip.psc.ready = slot :: rest → s.chip.plate slot = some p →
      ∃ t q, exec .selection s = .next t ∧ t.store = s.store ∧ t.chip.regs = s.chip.regs ∧ t.chip.pd = s.chip.pd ∧
        t.chip.tl = s.chip.tl ∧ (∀ n, n ≠ slot → t.chip.plate n = s.chip.plate n) ∧ t.chip.plate slot = some q ∧
        t.chip.psc.ready = rest ∧
        let failing (kind : MarkKind) (detail : Nat) := q = p ∧ s.chip.pscMarked t.chip slot kind .fail p.attempt none detail ∧
          t.chip.psc.work = [.fail slot, .publish s.chip.psc.plates] ∧ t.chip.iu = s.chip.iu ∧ t.chip.br = s.chip.br ∧
          t.chip.imc = s.chip.imc
        (p.status = .ended → p.attempt = 15 → failing .attempts 15) ∧
        (¬(p.status = .ended ∧ p.attempt = 15) →
          (∀ tid, selectionFault s.chip p.order = some tid → failing .table (16 * tid.kind.code + tid.idx)) ∧
          (selectionFault s.chip p.order = none →
            let answer := resolveAll s.chip.iu.dir p.order.sep 0 p.order.positions
            let late := Plate.lateDue { p with state := .waiting } s.chip s.chip.regs.plantClock
            (answer = .error (.notReady, none) → q.state = .waiting ∧ t.chip.iu = s.chip.iu ∧ t.chip.br = s.chip.br ∧
              t.chip.imc = s.chip.imc ∧
              (¬late → q = { p with state := .waiting }) ∧
              (late → q = { p with state := .waiting, lateDone := true } ∧
                s.chip.pscMarked t.chip slot .late .note (waitedAttempt p) none (p.order.deadline - s.chip.lay.lateLead))) ∧
            (∀ n i v pos, answer = .error (.nosep n i v, none) → p.order.positions[n]? = some pos →
              (if n = 0 then (s.chip.marks slot).nosep0 else (s.chip.marks slot).nosep1) ≠ some (i, v) →
              q = p ∧ t.chip.iu = s.chip.iu ∧ t.chip.psc.work = [.waiting slot, .publish s.chip.psc.plates] ∧
              s.chip.pscMarked t.chip slot .nosep .note p.attempt (some pos.key) (v * 65536 + n * 32768 + i)) ∧
            (∀ n key i, answer = .error (.base n key, some i) → aluminiumExposed s.chip slot (waitedAttempt p) = false →
              q = p ∧ t.chip.psc.work = [.waiting slot, .publish s.chip.psc.plates] ∧
              (∃ r, tblGet t.chip.iu.dir i = some r ∧ r.baseFlag = true ∧ (r.state = .damaged ∨ r.state = .superseded)) ∧
              s.chip.pscMarked t.chip slot .base .hold (waitedAttempt p) (some key) n) ∧
            ∀ snap, answer = .ok snap →
              q = { p with
                state := .preparing, attempt := (if p.status = .ended then p.attempt + 1 else p.attempt), status := .opened
                snapshot := snap, snapNo := (p.snapNo + 1) % 256, prepNo := (p.prepNo + 1) % 256, pinsHeld := true
                prepOrdinal := s.chip.psc.ordinal + 1 } ∧
              pinnedBy snap s.chip.iu.dir t.chip.iu.dir ∧
              (∃ ws, t.chip.sp.iu = s.chip.sp.iu ++ ws ∧ s.chip.intakeWrites t.chip none ws) ∧
              (∃ e, t.chip.br.order = s.chip.br.order ++ [e] ∧ e.slot = slot ∧ e.attempt = q.attempt ∧ e.snapshot = snap ∧
                e.snapNo = q.snapNo ∧ e.next = 0 ∧ e.begun = false ∧ e.stall = false) ∧
              (let ref : PlateRef := { slot := slot, attempt := q.attempt, prep := q.prepNo, format := p.order.format,
                                       profile := p.order.profile }
               (s.chip.imc.pauses.any = true → t.chip.imc = { s.chip.imc with waiting := some ref }) ∧
               (s.chip.imc.pauses.any = false → s.chip.imc.drum = none → s.chip.imc.load = none →
                  t.chip.imc.state = .loading ∧ t.chip.imc.waiting = none ∧
                  t.chip.imc.load = some { format := p.order.format, plate := some ref } ∧
                  t.chip.hlc.loader.queue = s.chip.hlc.loader.queue ++
                    [{ kind := .load (s.chip.format p.order.format).cassette, slot := some slot, attempt := q.attempt, seq := 0 }]))))

/-- The reports of IMC, BR and HLC move the plate they name: entry into EXPOSING makes a PREPARING plate of that attempt and preparation IMAGING; the
end of exposure brings its values; the end of a render gives up the pins; a good carrier of the current attempt makes an IMAGING plate
FINISHING, its pins given up, with mark LATE_BREAK when a break was pending, and its removal makes it DONE; the last carrier of a CLOSING plate
brings its outcome. Pins that are given up lower the count of each record by one for each naming, down to 0, and a SUPERSEDED record that comes
to 0 is retired, with the headers and entries written. A report that finds anything else, and one that names no slot, moves no plate and keeps
the directory. With a new carrier's report HLC hands IMC the end of the UNLOAD and queues the carrier's PUNCH request (R64, R73, R97, R98, R99,
R183). -/
def Obligations.ReportsMovePlates : Prop :=
  ∀ (s : State) (rest : List PscInput), pscFree s.chip = true →
    let clock := s.chip.regs.plantClock
    let handed (c : Carrier) : HandlerLine := { s.chip.hlc with
      unloadEnd := .handed
      punch := { s.chip.hlc.punch with queue := s.chip.hlc.punch.queue ++
        [{ kind := .punch (!c.spoiled), slot := c.slot, attempt := c.attempt, seq := 0 }] } }
    let moves (c : Instr) (slot : Nat) (gives : Plate → Prop) (f : Plate → Plate) := ∃ t, exec c s = .next t ∧ t.store = s.store ∧
      t.chip.regs = s.chip.regs ∧ t.chip.imc = s.chip.imc ∧ t.chip.br = s.chip.br ∧ t.chip.tl = s.chip.tl ∧
      t.chip.psc.inbox = rest ∧ t.chip.plate slot = (s.chip.plate slot).map f ∧
      (∀ n, n ≠ slot → t.chip.plate n = s.chip.plate n) ∧
      ((∀ p, s.chip.plate slot = some p → ¬gives p) → t.chip.iu = s.chip.iu) ∧
      ∀ p, s.chip.plate slot = some p → gives p → p.pinsGivenUp s.chip.iu.dir t.chip.iu.dir ∧
        ∃ ws, t.chip.sp.iu = s.chip.sp.iu ++ ws ∧ s.chip.intakeWrites t.chip none ws
    let keeps : Plate → Prop := fun _ => False
    (∀ slot a prep, s.chip.psc.inbox = .exposingEntry slot a prep :: rest →
      moves .exposingEntryReport slot keeps (fun p =>
        if p.state = .preparing ∧ p.attempt = a ∧ p.status = .opened ∧ p.prepNo = prep then
          { p with state := .imaging, imagingTime := clock } else p)) ∧
    (∀ slot a prep exposed holds, s.chip.psc.inbox = .exposureEnd slot a prep exposed holds :: rest →
      moves .exposureEndReport slot keeps (fun p => if p.prepNo = prep then { p with exposed := exposed, holds := holds } else p)) ∧
    (∀ slot a n, s.chip.psc.inbox = .renderFinished slot a n :: rest →
      moves .renderFinished slot (fun p => p.attempt = a ∧ p.status = .opened ∧ p.snapNo = n) (fun p =>
        if p.attempt = a ∧ p.status = .opened ∧ p.snapNo = n then { p with pinsHeld := false } else p)) ∧
    (∀ slot a spoiled, s.chip.psc.inbox = .carrierCreated (some slot) a spoiled :: rest →
      moves .carrierCreated slot (fun p => spoiled = false ∧ p.attempt = a ∧ p.status = .opened ∧ p.state = .imaging) (fun p =>
        let q := { p with carriersOut := p.carriersOut + 1, drumReject := (if spoiled = true then false else p.drumReject) }
        if spoiled = false ∧ p.attempt = a ∧ p.status = .opened ∧ p.state = .imaging then
          { q with state := .finishing, breakPending := none, pinsHeld := false } else q)) ∧
    (∀ slot a spoiled c cs, s.chip.psc.inbox = .carrierCreated slot a spoiled :: rest → s.chip.hlc.carriers = cs ++ [c] →
      ∃ t, exec .carrierCreated s = .next t ∧ t.chip.hlc = handed c ∧
        (slot = none → t = { s with chip := { s.chip with
          psc := { s.chip.psc with inbox := rest }, hlc := handed c } }) ∧
        ∀ n p f, slot = some n → spoiled = false → s.chip.plate n = some p → p.attempt = a → p.status = .opened → p.state = .imaging →
          p.breakPending = some f →
          s.chip.pscMarked t.chip n .lateBreak .note a none (if f = .cancel then 1 else 0)) ∧
    (∀ slot a spoiled, s.chip.psc.inbox = .carrierRemoved (some slot) a spoiled :: rest →
      moves .carrierRemoved slot keeps (fun p =>
        let q := { p with carriersOut := p.carriersOut - 1 }
        if p.state = .finishing ∧ spoiled = false ∧ p.attempt = a ∧ p.status = .opened then
          { q with state := .done, finalTime := clock }
        else if p.state = .closing ∧ p.carriersOut ≤ 1 ∧ p.drumReject = false then
          { q with state := (if p.closing = some .cancelled then .cancelled else .failed), finalTime := clock }
        else q)) ∧
    (∀ a spoiled, s.chip.psc.inbox = .carrierRemoved none a spoiled :: rest →
      exec .carrierRemoved s = .next { s with chip := { s.chip with psc := { s.chip.psc with inbox := rest } } })

/-- A page report evaluates every WAITING and READY plate, in the order of their slots: a WAITING plate with every position ready becomes
READY, a READY one without becomes WAITING, and a position whose COMPLETE record lacks the separation is marked NOSEP once. A record that has
become COMPLETE for the first time remakes each plate that names an older version: with exposure begun it is marked REMADE and broken, or
OUTDATED, by its order, and FINISHING OUTDATED; before exposure it is marked REMADE and takes a new snapshot, whose records are pinned before
the old pins are given up, its render beginning again, or it is withdrawn, its pins given up, and goes back to the list when a position is not
ready. The marks follow what is done at once (logs 45, 48), and PSC waits for the disposition of each. NOSEP names the plate's attempt number A,
also while its attempt status is ENDED: the model's choice (log 46) (R73, R79, R80, R82, R83, R84, R85, R101, R110, R120, R188, R189). -/
def Obligations.PageReportTaken : Prop :=
  ∀ (s : State) (r : PageReport) (rest : List PscInput), s.chip.pscReady → s.chip.psc.inbox = .page r :: rest →
    let dir := s.chip.iu.dir
    let listed (p : Plate) := p.state = .waiting ∨ p.state = .ready
    let remade (p : Plate) := r.state = some .complete ∧ r.again = false ∧ namesOlder p r.key r.version = true
    let late (p : Plate) := Plate.lateDue { p with state := .waiting } s.chip s.chip.regs.plantClock
    ∃ t, exec .pageReport s = .next t ∧ t.store = s.store ∧ t.chip.regs = s.chip.regs ∧ t.chip.tl = s.chip.tl ∧
      t.chip.dtu = s.chip.dtu ∧ t.chip.psc.inbox = rest ∧
      ((∀ slot p, s.chip.plate slot = some p → ¬remade p) →
        t.chip.iu = s.chip.iu ∧ t.chip.br = s.chip.br ∧ t.chip.imc = s.chip.imc ∧ t.chip.hf = s.chip.hf ∧ t.chip.hlc = s.chip.hlc ∧
        ((∀ slot p, s.chip.plate slot = some p → listed p → p.order.nosepFree dir ∧
            (p.state = .ready → ¬p.order.allReady dir → ¬late p)) →
          t.chip.dmr = s.chip.dmr ∧ t.chip.psc.awaiting = false ∧ t.chip.psc.work = [] ∧
          ∀ slot, match s.chip.plate slot with
            | none => t.chip.plate slot = none
            | some p =>
              (p.state = .waiting → p.order.allReady dir →
                t.chip.plate slot = some { p with state := .ready, readyTime := s.chip.regs.plantClock } ∧ slot ∈ t.chip.psc.ready) ∧
              (p.state = .ready → ¬p.order.allReady dir →
                t.chip.plate slot = some { p with state := .waiting } ∧ slot ∉ t.chip.psc.ready) ∧
              ((p.state = .waiting → ¬p.order.allReady dir) → (p.state = .ready → p.order.allReady dir) →
                t.chip.plate slot = some p)) ∧
        ∀ a slot p b n i v pos, s.chip.psc.plates = a ++ (slot, p) :: b → (∀ e ∈ a, ¬listed e.2) → listed p →
          p.order.positions[n]? = some pos → resolvePosition dir pos.key p.order.sep = .nosep i v →
          (∀ j q x y, j < n → p.order.positions[j]? = some q → resolvePosition dir q.key p.order.sep ≠ .nosep x y) →
          (if n = 0 then (s.chip.marks slot).nosep0 else (s.chip.marks slot).nosep1) ≠ some (i, v) →
          t.chip.psc.plates = s.chip.psc.plates ∧
            s.chip.pscMarked t.chip slot .nosep .note p.attempt (some pos.key) (v * 65536 + n * 32768 + i)) ∧
      ∀ slot p, s.chip.plate slot = some p → remade p → (∀ n q, n ≠ slot → s.chip.plate n = some q → ¬remade q) → ¬listed p →
        let begun := exposureBegun s.chip slot p.attempt
        let marked (kind : MarkKind) := s.chip.pscMarked t.chip slot kind .note p.attempt (some r.key) r.version
        let answer := resolveAll dir p.order.sep 0 p.order.positions
        (∀ n, n ≠ slot → t.chip.plate n = s.chip.plate n) ∧
        ((p.state = .imaging ∧ begun = true ∧ p.order.actionBreak = false) ∨ p.state = .finishing →
          t.chip.plate slot = some p ∧ t.chip.imc = s.chip.imc ∧ t.chip.br = s.chip.br ∧ marked .outdated) ∧
        (p.state = .imaging → begun = true → p.order.actionBreak = true →
          t.chip.plate slot = some p ∧ t.chip.imc = s.chip.imc ∧ t.chip.br = s.chip.br ∧ marked .remade ∧
          t.chip.psc.work.head? = some (.startBreak slot .requeue)) ∧
        (p.state = .preparing ∨ (p.state = .imaging ∧ begun = false) →
          marked .remade ∧
          (∀ snap, answer = .ok snap →
            t.chip.plate slot = some { p with snapshot := snap, snapNo := (p.snapNo + 1) % 256, pinsHeld := true } ∧
            (∃ pinned, pinnedBy snap dir pinned ∧ p.pinsGivenUp pinned t.chip.iu.dir) ∧
            (∃ e ∈ t.chip.br.order, e.slot = slot ∧ e.attempt = p.attempt ∧ e.snapshot = snap ∧ e.next = 0 ∧ e.begun = false ∧
              e.stall = false ∧ e.finding = false) ∧
            (∀ x ∈ t.chip.br.buffers, ∀ n, x ≠ .full ⟨slot, p.attempt, n⟩ ∧ x ≠ .filling ⟨slot, p.attempt, n⟩) ∧
            (p.state = .imaging → t.chip.imc = { s.chip.imc with exposure := { s.chip.imc.exposure with holds := 0 } })) ∧
          (∀ n key i, answer = .error (.base n key, some i) → t.chip.plate slot = some p ∧ t.chip.br = s.chip.br ∧
            ∃ m, t.chip.psc.work.head? = some (.mark m) ∧ m.slot = slot ∧ m.attempt = p.attempt ∧ m.kind = .base ∧ m.key = some key ∧
              m.detail = n) ∧
          (∀ a, answer = .error (a, none) → (∃ q, t.chip.plate slot = some q ∧ q.pinsHeld = false ∧ q.attempt = p.attempt ∧
              q.status = p.status ∧ q.charged = p.charged) ∧
            p.pinsGivenUp dir t.chip.iu.dir ∧ t.chip.discarded slot p.attempt ∧
            (a = .notReady → ∃ l, t.chip.psc.work = .look slot 0 :: .look slot 1 :: .settle slot true :: l)))

/-- DMR sends the oldest disposition whose mark's writes have completed, a HOLD judged again: that of PSC's own mark as the one PSC waits for, any
other as an input. While PSC waits for it, it takes no other input; with it PSC goes on with its steps. A disposition changes no plate of
another attempt, and none that is CLOSING or terminal. A NOTE changes none, nor does a HOLD in WAITING and READY. A SPOIL, and uncharged a HOLD
once exposure has begun or in FINISHING, raises the charged spoils when charged, gives up the pins and the bands, sets the drum reject flag when
the physical plate is on the drum, and closes the plate as FAILED above its budget, as CANCELLED with that break pending, and otherwise ends the
attempt and returns the plate. A FAIL closes it, through CLOSING when its drum plate is rejected, with its pins and bands given up before
FINISHING. A HOLD before exposure withdraws it with its attempt open. IMC takes the word of a spoil or fail, and where the physical plate
is a carrier, HLC makes the carriers spoiled and rewrites their waiting requests. The slot's news bit is set at the end of the input
(R27, R73, R100, R101, R105, R106, R107, R109, R166, R185, R188, R196). -/
def Obligations.DispositionsMovePlates : Prop :=
  (∀ (s : State) (d : Disposition) (ds : List Disposition), s.chip.working = true → s.chip.dmr.toSend = d :: ds →
    let exposed := exposureBegun s.chip d.slot d.attempt
    let finishing := ∃ p, s.chip.plate d.slot = some p ∧ p.state = .finishing ∧ p.attempt = d.attempt ∧ p.status = .opened
    ∃ e, exec .dispositionSend s = .next { s with chip := { s.chip with
        dmr := { s.chip.dmr with toSend := ds }
        psc := (if d.own = true then { s.chip.psc with answer := some e }
          else { s.chip.psc with inbox := s.chip.psc.inbox ++ [.disposition e] }) } } ∧
      e.slot = d.slot ∧ e.attempt = d.attempt ∧ e.own = d.own ∧
      (d.severity ≠ .hold ∨ (exposed = false ∧ ¬finishing) → e = d) ∧
      (d.severity = .hold → exposed = true ∨ finishing →
        e.severity = .spoil ∧ e.charged = false ∧ e.place = if exposed = true then .drum else .carrier)) ∧
  (∀ (s : State) (c : Instr), pscFree s.chip = false →
    c = .selection ∨ c = .pageReport ∨ c = .exposingEntryReport ∨ c = .exposureEndReport ∨ c = .renderFinished ∨ c = .carrierCreated ∨
      c = .carrierRemoved ∨ (c = .dispositionApply ∧ (s.chip.psc.awaiting = false ∨ s.chip.psc.answer = none)) →
    exec c s = .next s) ∧
  (∀ (s : State) (d : Disposition), s.chip.working = true → s.chip.psc.awaiting = true → s.chip.psc.answer = some d →
    (∀ p, s.chip.plate d.slot = some p → d.severity = .note ∨ p.attempt ≠ d.attempt ∨ p.status ≠ .opened ∨ p.state = .closing ∨
      p.state.terminal = true) →
    let k : Chip := { s.chip with psc := { s.chip.psc with awaiting := false, answer := none, newsDue := s.chip.psc.newsDue ++ [d.slot] } }
    exec .dispositionApply s = .next (s.setChip (pscGo k)) ∧
    ∀ old slot p, s.chip.psc.ordering = none → s.chip.psc.outstanding = 0 → s.chip.psc.due = [] → s.chip.psc.newsDue = [] →
      (∀ e ∈ old, s.chip.plate e.1 = some e.2) → (slot, p) ∈ old → d.slot = slot → slot < 512 → s.chip.platesSound →
      s.chip.pd.runState ≠ .stopping →
      (s.chip.psc.work = [.publish old] →
        (pscGo k).psc.newsMap.getLsbD slot = true ∧ (pscGo k).psc.plates = s.chip.psc.plates ∧ (pscGo k).psc.work = []) ∧
      (s.chip.psc.work = [.fail slot, .publish old] → p.state = .ready → ∃ q, (pscGo k).plate slot = some q ∧ q.status = .ended ∧
        (p.carriersOut = 0 → p.drumReject = false → q.state = .failed ∧ q.finalTime = s.chip.regs.plantClock) ∧
        (p.carriersOut ≠ 0 ∨ p.drumReject = true → q.state = .closing ∧ q.closing = some .failed)) ∧
      (s.chip.psc.work = [.waiting slot, .publish old] → p.state = .ready → ¬Plate.lateDue { p with state := .waiting } s.chip s.chip.regs.plantClock →
        (pscGo k).plate slot = some { p with state := .waiting } ∧ slot ∉ (pscGo k).psc.ready) ∧
      (s.chip.psc.work = [.startBreak slot .requeue, .publish old] → p.state = .imaging →
        (pscGo k).plate slot = some { p with breakPending :=
          (if p.breakPending = some .cancel then some .cancel else some .requeue) })) ∧
  ∀ (s : State) (d : Disposition) (rest : List PscInput) (p : Plate), s.chip.pscReady →
    s.chip.psc.inbox = .disposition d :: rest → s.chip.plate d.slot = some p →
    ∃ t q, exec .dispositionApply s = .next t ∧ t.store = s.store ∧ t.chip.tl = s.chip.tl ∧ t.chip.regs = s.chip.regs ∧
      (∀ n, n ≠ d.slot → t.chip.plate n = s.chip.plate n) ∧ t.chip.plate d.slot = some q ∧ q.order = p.order ∧
      (d.slot < 512 → t.chip.psc.newsMap.getLsbD d.slot = true ∨ (t.chip.psc.awaiting = true ∧ d.slot ∈ t.chip.psc.newsDue)) ∧
      let applies := p.attempt = d.attempt ∧ p.status = .opened ∧ p.state ≠ .closing ∧ p.state.terminal = false
      let begun := exposureBegun s.chip d.slot p.attempt
      let drawn := p.state = .preparing ∨ (p.state = .imaging ∧ begun = false)
      let spoils := d.severity = .spoil ∨ (d.severity = .hold ∧ ((p.state = .imaging ∧ begun = true) ∨ p.state = .finishing))
      let charged := p.charged + (if d.severity = .spoil ∧ d.charged = true then 1 else 0)
      let rejected := (d.severity = .spoil ∧ d.place = .drum ∧ p.state ≠ .finishing) ∨
        ((d.severity = .hold ∨ d.severity = .fail) ∧ p.state = .imaging ∧ begun = true)
      let carried := (d.severity = .spoil ∧ (d.place = .carrier ∨ (d.place = .drum ∧ p.state = .finishing))) ∨
        ((d.severity = .hold ∨ d.severity = .fail) ∧ p.state = .finishing)
      let closedAs (o : Outcome) (st : PlateState) := q.status = .ended ∧ q.breakPending = none ∧
        (p.carriersOut = 0 → p.drumReject = false → ¬rejected → q.state = st ∧ q.finalTime = s.chip.regs.plantClock) ∧
        (p.carriersOut ≠ 0 ∨ p.drumReject = true ∨ rejected → q.state = .closing ∧ q.closing = some o)
      let byReadiness := (p.order.allReady t.chip.iu.dir → q.state = .ready ∧ d.slot ∈ t.chip.psc.ready) ∧
        (¬p.order.allReady t.chip.iu.dir → p.order.nosepFree t.chip.iu.dir → q.state = .waiting ∧ d.slot ∉ t.chip.psc.ready)
      let givenUp := q.pinsHeld = false ∧ p.pinsGivenUp s.chip.iu.dir t.chip.iu.dir ∧ t.chip.discarded d.slot p.attempt
      let h := s.chip.hlc
      let ofPlate (c : Carrier) := c.slot = some d.slot ∧ c.attempt = p.attempt
      let rejects (l : List Request) : List Request := l.map (fun r =>
        if r.slot = some d.slot ∧ r.attempt = p.attempt then
          match r.kind with
          | .punch _ => { r with kind := .punch false }
          | .process _ => { r with kind := .process false }
          | .route _ => { r with kind := .route 15 }
          | _ => r
        else r)
      (¬applies ∨ d.severity = .note ∨ (d.severity = .hold ∧ (p.state = .waiting ∨ p.state = .ready)) →
        q = p ∧ t.chip.iu = s.chip.iu ∧ t.chip.br = s.chip.br ∧ t.chip.imc = s.chip.imc ∧ t.chip.hlc = s.chip.hlc) ∧
      (applies → spoils → q.charged = charged ∧ givenUp ∧ (q.drumReject = true ↔ p.drumReject = true ∨ rejected) ∧
        (p.order.budget < charged → closedAs .failed .failed) ∧
        (charged ≤ p.order.budget → p.breakPending = some .cancel → closedAs .cancelled .cancelled) ∧
        (charged ≤ p.order.budget → p.breakPending ≠ some .cancel →
          q.status = .ended ∧ q.breakPending = none ∧ q.attempt = p.attempt ∧ byReadiness)) ∧
      (applies → d.severity = .fail → q.charged = p.charged ∧ closedAs .failed .failed ∧
        (p.state = .preparing ∨ p.state = .imaging → givenUp) ∧
        (p.state = .waiting ∨ p.state = .ready ∨ p.state = .finishing → t.chip.iu = s.chip.iu ∧ t.chip.br = s.chip.br)) ∧
      (applies → d.severity = .hold → drawn →
        q.status = .opened ∧ q.attempt = p.attempt ∧ q.charged = p.charged ∧ givenUp ∧
        (Plate.lateDue { p with state := .waiting } s.chip s.chip.regs.plantClock → q.state = .waiting ∧
          s.chip.pscMarked t.chip d.slot .late .note p.attempt none (p.order.deadline - s.chip.lay.lateLead)) ∧
        (¬Plate.lateDue { p with state := .waiting } s.chip s.chip.regs.plantClock → byReadiness)) ∧
      (∀ dr w, applies → spoils ∨ (d.severity = .fail ∧ p.state = .imaging ∧ begun = true) →
        s.chip.imc.drum = some dr → dr.owner = some w → w.slot = d.slot → w.attempt = p.attempt → h.unloadEnd = .none →
        dr.cond ≠ .unexposed ∨ (s.chip.imc.state = .exposing ∧ s.chip.imc.exposure.begun = true) →
        t.chip.imc.drum = some { dr with cond := .spoiled, confirmed := true }) ∧
      (applies → carried → (∃ c ∈ h.carriers, ofPlate c ∧ c.spoiled = false) →
        t.chip.hlc.carriers = h.carriers.map (fun c =>
          if c.slot = some d.slot ∧ c.attempt = p.attempt then { c with spoiled := true } else c) ∧
        t.chip.hlc.punch = { h.punch with queue := rejects h.punch.queue } ∧
        t.chip.hlc.processor = { h.processor with queue := rejects h.processor.queue } ∧
        t.chip.hlc.sorter = { h.sorter with queue := rejects h.sorter.queue }) ∧
      (¬carried ∨ (∀ c ∈ h.carriers, ofPlate c → c.spoiled = true) →
        t.chip.hlc.carriers = h.carriers ∧ t.chip.hlc.punch = h.punch ∧ t.chip.hlc.processor = h.processor ∧
          t.chip.hlc.sorter = h.sorter)

/-! ### Rendering and tables -/

/-- BR's steps for the head entry. A fill begins on the lowest FREE buffer, which becomes FILLING, with the first read of the swath's entries,
or with the first row set of a swath that no position covers, which is all 0. Before swath 0, with no entry begun, the reflection point is
reached first; it ends when no due reload is left, with the fill, or with mark TABLE and the entry stalled. What the swath holds is worked out as
the store stands at the fill's begin: the position in whose band it lies, blank above the page rows, the strip from the own record inside
its own ranges and from the base otherwise, the base's patches whose rows meet no own range before the own ones, by number, and the entries not
PRESENT, which are the findings (their order: log 51). The reads go through the headers, the strip entry and the patch entries. A fill that is
done makes its buffer FULL and the next swath rise; after the last swath render finished is reported. That a fill begins with one read of 96
bytes, or with one row set written, and that a fill and a point begin by steps of their own, is the model's choice (logs 6, 7, 8, 21), and so
is what a header that the host has overwritten gives (logs 57, 72) and a point whose entry has left the head by a restart (log 56) (R77, R78,
R90, R112, R113, R114, R115, R116, R117, R127, R142). -/
def Obligations.RenderSteps : Prop :=
  (∀ (ps : List Position) (rows swath : Nat),
    let inBand (p : Position) := p.across ≤ 64 * swath ∧ 64 * swath < rows ∧ ∀ q ∈ ps, p.across < q.across → 64 * swath < q.across
    (∀ p n, positionAt ps rows swath = some (p, n) → ps[n]? = some p ∧ inBand p) ∧
    (positionAt ps rows swath = none → ∀ p ∈ ps, ¬inBand p)) ∧
  ∀ (s : State) (e : RenderEntry) (rest : List RenderEntry), s.chip.working = true → s.chip.br.order = e :: rest →
    let k := s.chip
    let change (g : RenderEntry → RenderEntry) : List RenderEntry :=
      k.br.order.map (fun x => if x.slot = e.slot ∧ x.attempt = e.attempt then g x else x)
    let first := e.next = 0 ∧ e.begun = false ∧ ∀ x ∈ rest, x.begun = false
    let fits (b : Nat) := e.stall = false ∧ e.next < e.format.rows / 64 ∧ 0 < e.format.width ∧ k.br.fill = none ∧
      k.br.buffers[b]? = some .free ∧ ∀ a < b, k.br.buffers[a]? ≠ some .free
    let byte (a : Nat) : Nat := (Memory.read s.store a).toNat
    let half (a : Nat) : Nat := byte a + 256 * byte (a + 1)
    let word (a : Nat) : Nat := half a + 65536 * half (a + 2)
    let page (i : Nat) : Nat := k.lay.pageBase + 65536 * i
    let header (i : Nat) : List Nat := (List.range 96).map (fun n => byte (page i + n))
    let entries (i : Nat) : List Nat := List.range (min 32 ((header i).getD (0x14 + e.sep) 0))
    let patchAt (i n : Nat) : Nat := page i + 0x1000 + 32 * (32 * e.sep + n)
    let patch (r : Nat × PageKey) (n : Nat) : Option PatchSource :=
      let a := patchAt r.1 n
      if byte a = 1 then
        some { idx := r.1, key := r.2, p := n, mode := byte (a + 1), scale := byte (a + 2), cell := half (a + 4), off := half (a + 6)
               len := word (a + 8), row0 := half (a + 0x10), dot0 := half (a + 0x12), w := half (a + 0x14), h := half (a + 0x16) }
      else none
    let blank (g : FillPlan) := g.blank = true ∧ g.line = none ∧ g.patches = [] ∧ g.missing = []
    let begins (c : Instr) (b : Nat) := ∃ t f x, exec c s = .next t ∧ t.store = s.store ∧ t.pending = s.pending ∧
      t.chip = { k with
        tl := { k.tl with point := false }
        sp := { k.sp with br := k.sp.br ++ [x] }
        br := { k.br with
          buffers := k.br.buffers.set b (.filling ⟨e.slot, e.attempt, e.next⟩)
          order := change (fun y => { y with begun := true })
          fill := some f, fillSerial := k.br.fillSerial + 1, point := none } } ∧
      f.id = k.br.fillSerial + 1 ∧ f.buffer = b ∧ f.slot = e.slot ∧ f.attempt = e.attempt ∧ f.swath = e.next ∧ f.nextSet = 0 ∧
      f.done = false ∧ f.lines = [] ∧ x.client = .br ∧ x.purpose = .fill f.id e.slot e.attempt e.next ∧ x.notices = [] ∧
      (positionAt e.positions e.format.rows e.next = none →
        x.stream = some .brWrite ∧ x.addr = (k.lay.bandBase + 262144 * b) % 4294967296 ∧ x.op = .write (List.replicate 4096 0)) ∧
      f.items = [] ∧ f.bytes = [] ∧ f.images = [] ∧
      (positionAt e.positions e.format.rows e.next = none → blank f.plan ∧ f.reads = []) ∧
      ∀ p n snap, positionAt e.positions e.format.rows e.next = some (p, n) → e.snapshot[n]? = some snap →
        x.stream = some .brRead ∧ x.addr = (k.lay.pageBase + 65536 * snap.idx) % 4294967296 ∧ x.op = .read 96 ∧
        let own := page snap.idx
        let strip := e.next - p.across / 64
        let ranges := (List.range (min 8 (byte (own + 7)))).map (fun i => (half (own + 0x40 + 4 * i), half (own + 0x42 + 4 * i)))
        let inherits (q : PatchSource) : Bool := ranges.all (fun r =>
          (List.range' q.row0 (q.h * q.scale)).all (fun row => !decide (64 * r.1 ≤ row ∧ row < 64 * r.2 + 64)))
        let source : Nat × PageKey := match snap.base with
          | none => (snap.idx, p.key)
          | some (b, _, key) => if ∃ r ∈ ranges, r.1 ≤ strip ∧ strip ≤ r.2 then (snap.idx, p.key) else (b, key)
        let line := page source.1 + 0x4000 + 16 * (768 * e.sep + strip)
        let base := match snap.base with
          | none => []
          | some (b, _, key) => [(b, key)]
        f.reads = base.map (fun b => (page b.1, 96)) ++ (if half (own + 0x0A) ≤ 64 * strip then []
          else (line, 16) :: (base ++ [(snap.idx, p.key)]).flatMap (fun r => (entries r.1).map (fun n => (patchAt r.1 n, 32)))) ∧
        (half (own + 0x0A) ≤ 64 * strip → blank f.plan) ∧
        (64 * strip < half (own + 0x0A) → f.plan =
          { blank := false, strip := strip, around := p.around, pageDots := half (own + 0x0C)
            line := if byte line = 1 then
              some { idx := source.1, key := source.2, cell := half (line + 2), off := half (line + 4), len := word (line + 8) }
              else none
            patches := (base.flatMap (fun r => (entries r.1).filterMap (patch r))).filter inherits ++
              (entries snap.idx).filterMap (patch (snap.idx, p.key))
            missing := (if byte line = 1 then [] else [(source.2, none)]) ++ (base ++ [(snap.idx, p.key)]).flatMap (fun r =>
              ((entries r.1).filter (fun n => decide (byte (patchAt r.1 n) ≠ 1))).map (fun n => (r.2, some n))) })
    let set := k.screenSet e.screenSet
    let invalid : Option TableId :=
      if (k.curve e.curve).valid = false then some ⟨.curve, e.curve⟩
      else if set.valid = false then some ⟨.screenSet, e.screenSet⟩
      else if (k.screen (set.val.getD e.sep 0)).valid = false then some ⟨.screen, set.val.getD e.sep 0⟩
      else none
    (e.stall = true ∨ e.format.rows / 64 ≤ e.next ∨ k.br.fill.isSome = true ∨ k.br.point.isSome = true ∨ k.tl.point = true ∨
        (∀ b ∈ k.br.buffers, b ≠ .free) →
      exec .fillBegin s = .next s ∧ exec .renderReflectionPoint s = .next s) ∧
    (∀ b, fits b → k.br.point = none → k.tl.point = false →
      (¬first → begins .fillBegin b ∧ exec .renderReflectionPoint s = .next s) ∧
      (first → exec .fillBegin s = .next s ∧
        exec .renderReflectionPoint s = .next (s.setChip { k with
          br := { k.br with point := some (e.slot, e.ordinal) }
          tl := { k.tl with
            point := true
            reload := k.tl.reload.map (fun r => { r with due := true })
            pendingSet := k.tl.pendingSet.map (fun p =>
              if p.id.kind = .curve ∨ p.id.kind = .screen ∨ p.id.kind = .screenSet then { p with due := true } else p) } }))) ∧
    (k.tl.point = true →
      ((∃ p ∈ k.tl.pendingSet, p.due = true) ∨ (∃ r, k.tl.reload = some r ∧ r.due = true) →
        exec .reflectionPointEnd s = .next s) ∧
      ((∀ p ∈ k.tl.pendingSet, p.due = false) → (∀ r, k.tl.reload = some r → r.due = false) →
        (k.br.point ≠ some (e.slot, e.ordinal) →
          exec .reflectionPointEnd s = .next (s.setChip { k with
            br := { k.br with point := none }, tl := { k.tl with point := false } })) ∧
        (k.br.point = some (e.slot, e.ordinal) →
          (∀ b, invalid = none → fits b → begins .reflectionPointEnd b) ∧
          ∀ tid, invalid = some tid → ∃ t, exec .reflectionPointEnd s = .next t ∧ t.store = s.store ∧ t.pending = s.pending ∧
            t.chip = { k with
              tl := { k.tl with point := false }
              br := { k.br with point := none, order := change (fun y => { y with stall := true }) }
              dmr := { k.dmr with lists := t.chip.dmr.lists }
              sp := { k.sp with report := t.chip.sp.report } } ∧
            ((k.plate e.slot).isSome = true → (k.marks e.slot).marks.length < 8 →
              ∃ m, (t.chip.marks e.slot).marks = (k.marks e.slot).marks ++ [m] ∧ m.kind = .table ∧ m.severity = .fail ∧
                m.charged = false ∧ m.attempt = e.attempt ∧ m.detail = 16 * tid.kind.code + tid.idx)))) ∧
    ∀ f, k.br.fill = some f → f.slot = e.slot → f.attempt = e.attempt →
      (f.done = false → exec .fillEnd s = .next s) ∧
      (f.done = true →
        let bufs := k.br.buffers.set f.buffer (.full ⟨f.slot, f.attempt, f.swath⟩)
        (e.next + 1 ≠ e.format.rows / 64 → exec .fillEnd s = .next (s.setChip { k with
          br := { k.br with fill := none, buffers := bufs, order := change (fun y => { y with next := y.next + 1 }) } })) ∧
        (e.next + 1 = e.format.rows / 64 → exec .fillEnd s = .next (s.setChip { k with
          br := { k.br with
            fill := none, buffers := bufs
            order := k.br.order.filter (fun x => !(decide (x.slot = e.slot) && decide (x.attempt = e.attempt))) }
          psc := { k.psc with inbox := k.psc.inbox ++ [.renderFinished e.slot e.attempt e.snapNo] } })))

/-- TL reloads one table at a time: the oldest entry of the pending set that may be reloaded, a render table when it is due at a reflection
point, another when the imager is not EXPOSING; in STARTING all 49 tables in their order. A reload that ends installs the new content VALID,
or leaves the copy and makes it INVALID; the last one of STARTING puts a CLEAR at the head of each unit's queue. A PROFILE or POWER reload
that leaves the profile of the plate in PREPARING INVALID marks it TABLE: the waiting plate, the plate of the LOAD, or the drum plate that has
not entered EXPOSING; one that has is IMAGING and is not affected. A drum plate in SETTLING whose profile is VALID takes its values again,
whatever waits, one in IMAGING too (log 58). That IMC's mark names no place is log 36, that a reload may end in EXPOSING log 52 (R133, R134,
R136, R137, R140, R141, R142, R143, R144, R145, R157, R182). -/
def Obligations.TableReloads : Prop :=
  ∀ s : State,
    let k := s.chip
    let render (t : TableKind) := t = .curve ∨ t = .screen ∨ t = .screenSet
    let allowed (p : PendingTable) := (render p.id.kind → p.due = true ∧ k.tl.point = true) ∧
      (¬render p.id.kind → k.imc.state ≠ .exposing)
    let place (id : TableId) : Nat × Nat := match id.kind with
      | .curve => (64 * id.idx, 38)
      | .screen => (0x600 + 16 * id.idx, 2)
      | .screenSet => (0x400 + 8 * id.idx, 4)
      | .profile => (0x480 + 8 * id.idx, 4)
      | .power => (0x500, 128)
    let begun (id : TableId) (due : Bool) (tl : TableLoader) : State := s.setChip { k with
      tl := { tl with reload := some { id := id, due := due, reads := [], bytes := [], outcome := none } }
      sp := { k.sp with br := k.sp.br ++
        [{ client := .br, stream := some .brRead, addr := (k.lay.tableBase + (place id).1) % 4294967296, op := .read (place id).2,
           purpose := .table, notices := [] }] } }
    let all : List TableId := (List.range 16).map (⟨.curve, ·⟩) ++ (List.range 8).map (⟨.screen, ·⟩) ++
      (List.range 8).map (⟨.screenSet, ·⟩) ++ (List.range 16).map (⟨.profile, ·⟩) ++ [⟨.power, 0⟩]
    (k.tl.reload.isSome = true → exec .reloadBegin s = .next s) ∧
    (k.tl.reload = none → k.working = true →
      ((∀ p ∈ k.tl.pendingSet, ¬allowed p) → exec .reloadBegin s = .next s) ∧
      ∀ a p b, k.tl.pendingSet = a ++ p :: b → (∀ x ∈ a, ¬allowed x) → allowed p → p.id.idx < 16 → k.lay.tableBase % 4096 = 0 →
        exec .reloadBegin s =
          .next (begun p.id p.due { k.tl with pendingSet := k.tl.pendingSet.filter (fun q => decide (q.id ≠ p.id)) })) ∧
    (k.tl.reload = none → k.pd.runState = .starting → k.pd.phase = .tables →
      (49 ≤ k.tl.startNext → exec .reloadBegin s = .next s) ∧
      ∀ id, all[k.tl.startNext]? = some id → k.lay.tableBase % 4096 = 0 →
        exec .reloadBegin s = .next (begun id false { k.tl with startNext := k.tl.startNext + 1 })) ∧
    ∀ r valid, k.tl.reload = some r → r.outcome = some valid →
      let b := r.bytes
      let i := r.id.idx
      let tl0 : TableLoader := { k.tl with reload := none }
      let tl : TableLoader := match r.id.kind with
        | .curve => { tl0 with curves := k.tl.curves.modify i (fun h => if valid = true then
            ⟨true, ⟨(List.range 17).map (fun n => min 4095 (u16 b (2 * n))), min 409 (u16 b 0x22), max 3686 (min 4095 (u16 b 0x24))⟩⟩
            else ⟨false, h.val⟩) }
        | .screen => { tl0 with screens := k.tl.screens.modify i (fun h => if valid = true then
            ⟨true, ⟨u16 b 0, (List.range (u16 b 0 * u16 b 0)).map (fun n => max 1 (min 4095 (u16 b (2 + 2 * n))))⟩⟩
            else ⟨false, h.val⟩) }
        | .screenSet => { tl0 with screenSets := k.tl.screenSets.modify i (fun h => if valid = true then
            ⟨true, [u8 b 0, u8 b 1, u8 b 2, u8 b 3]⟩ else ⟨false, h.val⟩) }
        | .profile => { tl0 with profiles := k.tl.profiles.modify i (fun h => if valid = true then
            ⟨true, ⟨u16 b 0, u8 b 2, u8 b 3⟩⟩ else ⟨false, h.val⟩) }
        | .power => { tl0 with power := if valid = true then
            ⟨true, (List.range 64).map (fun n => min 4095 (u16 b (2 * n)))⟩ else ⟨false, k.tl.power.val⟩ }
      let clear (u : UnitState) : UnitState :=
        { u with queue := { kind := .clear, slot := none, attempt := 0, seq := 0 } :: u.queue }
      (k.pd.runState = .starting → k.tl.startNext ≠ 49 → exec .reloadEnd s = .next (s.setChip { k with tl := tl })) ∧
      (k.pd.runState = .starting → k.tl.startNext = 49 → exec .reloadEnd s = .next (s.setChip { k with
        tl := tl
        pd := { k.pd with phase := .clears }
        hlc := { k.hlc with loader := clear k.hlc.loader, punch := clear k.hlc.punch, processor := clear k.hlc.processor,
                            sorter := clear k.hlc.sorter } })) ∧
      (k.working = true → render r.id.kind ∨ (k.imc.waiting = none ∧ k.imc.load = none ∧ k.imc.drum = none) →
        exec .reloadEnd s = .next (s.setChip { k with tl := tl })) ∧
      (k.working = true → ¬render r.id.kind →
        let held (p : PlateRef) := tl.profiles.getD p.profile ⟨false, Profile.reset⟩
        let lost (p : PlateRef) := (held p).valid = false ∨ tl.power.valid = false
        let concerns (p : PlateRef) := r.id = ⟨.profile, p.profile⟩ ∨ r.id.kind = .power
        let preparing (p : PlateRef) := k.imc.waiting = some p ∨
          (k.imc.waiting = none ∧ ∃ l, k.imc.load = some l ∧ l.plate = some p) ∨
          (k.imc.waiting = none ∧ k.imc.load = none ∧
            ∃ d, k.imc.drum = some d ∧ d.cond = .unexposed ∧ d.owner = some p ∧ k.imc.exposure.entered = false)
        let settles (p : PlateRef) := k.imc.state = .settling ∧ ∃ d, k.imc.drum = some d ∧ d.owner = some p
        ∃ t, exec .reloadEnd s = .next t ∧ t.store = s.store ∧ t.pending = s.pending ∧
          t.chip = { k with
            tl := tl, imc := t.chip.imc, dtu := t.chip.dtu
            dmr := { k.dmr with lists := t.chip.dmr.lists }, sp := { k.sp with report := t.chip.sp.report } } ∧
          ((∀ p, preparing p → ¬(concerns p ∧ lost p)) → t.chip.dmr = k.dmr ∧ t.chip.sp = k.sp) ∧
          (∀ p, preparing p → concerns p → lost p → (k.plate p.slot).isSome = true → (k.marks p.slot).marks.length < 8 →
            ∃ m, (t.chip.marks p.slot).marks = (k.marks p.slot).marks ++ [m] ∧ m.kind = .table ∧ m.severity = .fail ∧
              m.charged = false ∧ m.attempt = p.attempt ∧
              (exposureBegun k p.slot p.attempt = false → (∀ x, k.plate p.slot = some x → x.state ≠ .finishing) → m.place = .none) ∧
              m.detail = if (held p).valid = false then 48 + p.profile else 64) ∧
          ((∀ p, settles p → ¬concerns p ∨ lost p) → t.chip.imc = k.imc ∧ t.chip.dtu = k.dtu) ∧
          ∀ p, settles p → concerns p → ¬lost p → t.chip.imc = { k.imc with
            drumTarget := (if (held p).val.rpm = k.imc.exposure.values.rpm then k.imc.drumTarget else (held p).val.rpm)
            exposure := { k.imc.exposure with
              values := ⟨(held p).val.rpm, (held p).val.passes, (held p).val.step, tl.power.val.getD (held p).val.step 0⟩
              settle := (if (held p).val.rpm = k.imc.exposure.values.rpm then k.imc.exposure.settle else 0) } })

/-- A strip body made of the shortest codes of its 64 rows decodes to these rows and to nothing else; a BLANK row is one white run of the page
dots, a REPEAT row is the row before it; a REPEAT with no row before it, a byte from E2h up and a run past the page dots fail (R124, R125). The
codes of the image rows of a patch decode to their pixels: up to the last row needed whatever follows, and to the whole image when nothing
does. Bytes left after the image's last row are a failure that keeps every row (log 67). An image that stops within a row brings the rows before
it, and fails when no more of it is to come; a code that would pass the row's w pixels fails with the rows before its own (R126). -/
def Obligations.CodecsRoundTrip : Prop :=
  (∀ (w h last : Nat) (rows : List (List PatchCode)), rows.length = last + 1 → last < h → (∀ r ∈ rows, patchRowLegal w r = true) →
    let image := patchEncode rows
    let upTo (i : Nat) := (patchEncode (rows.take i)).length
    (last + 1 < h → ∀ len more, decodePatch w h last len (image ++ more) = (rows.map patchRow, .complete)) ∧
    (last + 1 = h → decodePatch w h last image.length image = (rows.map patchRow, .complete) ∧
      ∀ len more, more ≠ [] ∨ image.length < len → decodePatch w h last len (image ++ more) = (rows.map patchRow, .failed)) ∧
    (∀ i n len, i ≤ last → upTo i ≤ n → n < upTo (i + 1) →
      decodePatch w h last len (image.take n) = ((rows.take i).map patchRow, if n < len then .more else .failed)) ∧
    ∀ i len cur code more, i ≤ last → (∀ c ∈ code :: cur, 1 ≤ c.pixels.length ∧ c.pixels.length ≤ 128) →
      (patchRow cur).length < w → w < (patchRow cur).length + code.pixels.length →
      decodePatch w h last len (patchEncode (rows.take i ++ [cur ++ [code]]) ++ more) = ((rows.take i).map patchRow, .failed)) ∧
  (∀ (dots : Nat) (rows : List (List Nat)), rows.length = 64 → (∀ r ∈ rows, rowLegal dots r = true) →
    decodeStrip dots (lineEncode rows).length (lineEncode rows) = (rows, .complete)) ∧
  ∀ (dots : Nat) (rest : List Byte) (rows : List (List Nat)), rows.length < 64 →
    lineDecode dots (0xE1 :: rest) rows [] = lineDecode dots rest (rows ++ [[dots]]) [] ∧
    (∀ r, lineDecode dots (0xE0 :: rest) (rows ++ [r]) [] =
      if rows.length = 63 then (rows ++ [r], .failed) else lineDecode dots rest (rows ++ [r] ++ [r]) []) ∧
    lineDecode dots (0xE0 :: rest) [] [] = ([], .failed) ∧
    (∀ (n : Nat) (cur : List Nat), n < 2097152 → dots < cur.sum + n → lineDecode dots (runCode n ++ rest) rows cur = (rows, .failed)) ∧
    ∀ (b : Byte) (cur : List Nat), 0xE2 ≤ b.toNat → lineDecode dots (b :: rest) rows cur = (rows, .failed)

/-- From pixel to dot. The tone lies on the curve's knots and between neighbours of them, divided toward zero; the trimmed tone is clamped and
snapped to the minimum and maximum dot, so that every screened value is 0, 4,095 or between the two; a dot is exposed when that value is at or
above the threshold of the tile, never at 0 and always at 4,095. A higher trim never gives a lower value (R130, R131, R132). -/
def Obligations.ScreenedValue : Prop :=
  ∀ (c : Curve) (v : Nat) (trim : Int), c.knots.length = 17 → (∀ y ∈ c.knots, y ≤ 4095) → c.minDot ≤ 409 → 3686 ≤ c.maxDot →
    c.maxDot ≤ 4095 → v ≤ 255 →
    let q := screened c v trim
    let u : Int := tone c v + trim
    let knot (i : Nat) : Nat := c.knots.getD i 0
    (∀ i < 16, 16 * i ≤ v → v ≤ 16 * i + 15 →
      (tone c v : Int) = knot i + Int.tdiv (((knot (i + 1) : Int) - knot i) * (v - 16 * i)) (if i = 15 then 15 else 16) ∧
      min (knot i) (knot (i + 1)) ≤ tone c v ∧ tone c v ≤ max (knot i) (knot (i + 1))) ∧
    tone c 255 = knot 16 ∧
    (u ≤ 0 → q = 0) ∧
    (4095 ≤ u → q = 4095) ∧
    (0 < u → u < c.minDot → q = if 2 * u < c.minDot then 0 else c.minDot) ∧
    (c.minDot ≤ u → u ≤ c.maxDot → (q : Int) = u) ∧
    (c.maxDot < u → u < 4095 → q = if c.maxDot + 4095 < 2 * u then 4095 else c.maxDot) ∧
    (q = 0 ∨ q = 4095 ∨ (c.minDot ≤ q ∧ q ≤ c.maxDot)) ∧
    (∀ more : Int, trim ≤ more → q ≤ screened c v more) ∧
    ∀ (scr : Screen) (row dot : Nat), 8 ≤ scr.size → scr.thresholds.length = scr.size * scr.size →
      (∀ θ ∈ scr.thresholds, 1 ≤ θ ∧ θ ≤ 4095) →
      ∃ θ, scr.thresholds[scr.size * (row % scr.size) + dot % scr.size]? = some θ ∧
        (screenDot c scr v trim row dot = true ↔ θ ≤ q) ∧ (q = 0 → screenDot c scr v trim row dot = false) ∧
        (q = 4095 → screenDot c scr v trim row dot = true) ∧
        screenDot c scr v trim (row + scr.size) dot = screenDot c scr v trim row dot ∧
        screenDot c scr v trim row (dot + scr.size) = screenDot c scr v trim row dot

/-- A row set holds, at bit i mod 8 of byte 64c + i / 8, stored dot 512j + i of band row c, and that is what the head gets for channel c: 0 from the
format's width on, and otherwise the plate dot in its place, mirrored under around-reverse. Outside the page a dot is 0; where no patch covers
it, it is the strip's. The patches act in list order, each on the result of those before it: one that does not cover the dot leaves that result,
a KNOCKOUT patch gives its own dot, screened at the plate's row and dot, and an OVERPRINT patch adds its own to the result. A row of a patch
that was not decoded gives 0 (R112, R122, R123, R126, R151). -/
def Obligations.RowSetColumns : Prop :=
  ∀ (ctx : RenderContext) (f : Fill) (j i c : Nat), i < 512 → c < 64 →
    let d := 512 * j + i
    let at_ := if ctx.reverse = true then ctx.width - 1 - d else d
    let x := at_ - f.plan.around
    let r := 64 * f.plan.strip + c
    (rowSetBytes ctx f j).length = 4096 ∧
    (column (rowSetBytes ctx f j) i).getLsbD c = ((rowSetBytes ctx f j).getD (64 * c + i / 8) 0).getLsbD (i % 8) ∧
    (column (rowSetBytes ctx f j) i).getLsbD c = (decide (d < ctx.width) && renderDot ctx f c at_) ∧
    (f.plan.blank = true ∨ at_ < f.plan.around ∨ f.plan.pageDots ≤ x → renderDot ctx f c at_ = false) ∧
    (f.plan.blank = false → f.plan.around ≤ at_ → x < f.plan.pageDots →
      ((∀ p ∈ f.plan.patches, ¬(p.row0 ≤ r ∧ r < p.row0 + p.h * p.scale ∧ p.dot0 ≤ x ∧ x < p.dot0 + p.w * p.scale)) →
        renderDot ctx f c at_ = runBit (f.lines.getD c []) false x) ∧
      ∀ ps p, f.plan.patches = ps ++ [p] →
        let before := renderDot ctx { f with plan := { f.plan with patches := ps } } c at_
        let covers := p.row0 ≤ r ∧ r < p.row0 + p.h * p.scale ∧ p.dot0 ≤ x ∧ x < p.dot0 + p.w * p.scale
        let rows := (tblGet f.images ps.length).getD []
        (¬covers → renderDot ctx f c at_ = before) ∧
        (covers → rows[(r - p.row0) / p.scale]? = none →
          (p.mode = 1 → renderDot ctx f c at_ = false) ∧ (p.mode = 2 → renderDot ctx f c at_ = before)) ∧
        ∀ row, covers → rows[(r - p.row0) / p.scale]? = some row →
          let own := screenDot ctx.curve ctx.screen (row.getD ((x - p.dot0) / p.scale) 0).toNat ctx.trim (64 * f.swath + c) at_
          (p.mode = 1 → renderDot ctx f c at_ = own) ∧ (p.mode = 2 → renderDot ctx f c at_ = (before || own)))

/-! ### The drum and the head -/

/-- A transition of an encoder phase. The first is held; one in forward order adds one to the count, one in reverse order takes one away,
within the range; of one in neither order only the direction is free (log 13). Both phases at once, and any in HALTED, change nothing; that
the transition held stays the previous one is the model's choice (log 59). In a pass, match B ends it, and in the window the dot due drives
the 64 channels when the laser is permitted; a missing row set is an underrun. With its last dot, dot 511 or the last one of the width, the row
set leaves the prefetch, and HF issues the reads of the next row sets, while fewer than two are held and under way together: that those under
way count as held is DEDUCED by the model (log 27). A reverse count in EXPOSING ends a begun exposure with mark SLIP, and otherwise offers a
device fault (R31, R147, R150, R151, R162, R163, R199). -/
def Obligations.EncoderCounts : Prop :=
  ∀ (s : State) (e : EncoderEdge),
    let k := s.chip
    let c := Instr.encoderTransition e
    let next (a b : EncoderEdge) := (a = .phase1Rises ∧ b = .phase2Rises) ∨ (a = .phase2Rises ∧ b = .phase1Falls) ∨
      (a = .phase1Falls ∧ b = .phase2Falls) ∨ (a = .phase2Falls ∧ b = .phase1Rises)
    let counted (n : Int) : Chip := { k with dtu := { k.dtu with prev := some e, count := max (-32768) (min 65535 n) } }
    let up := counted (k.dtu.count + 1)
    let down := counted (k.dtu.count - 1)
    let exposing := k.working = true ∧ k.imc.state = .exposing
    (k.pd.runState = .halted ∨ e = .bothChange → exec c s = .next s) ∧
    (k.pd.runState ≠ .halted → e ≠ .bothChange →
      (k.dtu.prev = none → exec c s = .next (s.setChip { k with dtu := { k.dtu with prev := some e } })) ∧
      ∀ q, k.dtu.prev = some q →
        (next q e → k.hf.pass = none → exec c s = .next (s.setChip up)) ∧
        (next e q → ¬exposing → exec c s = .next (s.setChip down)) ∧
        (¬next q e → ¬next e q → k.hf.pass = none → ¬exposing →
          exec c s = .next (s.setChip { up with fresh := k.fresh + 1 }) ∨
            exec c s = .next (s.setChip { down with fresh := k.fresh + 1 })) ∧
        (∀ ps, next q e → k.hf.pass = some ps →
          (up.dtu.count = k.dtu.activeB →
            exec c s = .next (s.setChip { up with hf := { k.hf with pass := none, laser := 0 } })) ∧
          (up.dtu.count ≠ k.dtu.activeB → up.dtu.count ≠ k.dtu.activeA → ps.window = false →
            exec c s = .next (s.setChip up)) ∧
          ∀ d : Nat, up.dtu.count ≠ k.dtu.activeB → up.dtu.count = k.dtu.activeA + d → ps.window = true ∨ d = 0 →
            (∀ data, tblGet ps.prefetch (d / 512) = some data →
              let lit := if k.imc.state = .exposing ∧ k.regs.exposeEnable = true then column data (d % 512) else 0
              ∃ t, exec c s = .next t ∧ t.store = s.store ∧ t.chip.dtu = up.dtu ∧ t.chip.hf.laser = lit ∧ t.chip.imc = k.imc ∧
                t.chip.regs = k.regs ∧
                (d % 512 ≠ 511 → d + 1 ≠ ps.width →
                  t.chip = { up with hf := { k.hf with pass := some { ps with window := true }, laser := lit } }) ∧
                (d % 512 = 511 ∨ d + 1 = ps.width →
                  t.chip = ({ up with hf := { k.hf with laser := lit } } : Chip).fetchesFor
                    { ps with window := true, prefetch := ps.prefetch.filter (fun x => decide (x.1 ≠ d / 512)) })) ∧
            (∀ dr p, tblGet ps.prefetch (d / 512) = none → k.imc.drum = some dr → dr.owner = some p →
              ∃ t, exec c s = .next t ∧ t.store = s.store ∧ up.spoiledFrom t.chip dr p .underrun 0)) ∧
        (next e q → exposing →
          (∀ dr p, k.imc.drum = some dr → dr.owner = some p → k.imc.exposure.begun = true →
            ∃ t, exec c s = .next t ∧ t.store = s.store ∧ down.spoiledFrom t.chip dr p .slip 0xFFFFFFFF) ∧
          (k.imc.exposure.begun = false → k.dmr.record.valid = false →
            ∃ t, exec c s = .next t ∧ t.store = s.store ∧ t.chip.dtu = down.dtu ∧ t.chip.imc = k.imc ∧ t.chip.hf = k.hf ∧
              t.chip.dmr = { k.dmr with record :=
                { valid := true, overflow := false, kind := .slip, unit := 0, detail := 0xFFFFFFFF, addr := 0, addrValid := false,
                  domain := 0, isWrite := false, time := k.regs.plantClock } })))

/-- An index pulse captures the count and the period, clears the count and loads the active pair. While SETTLING the rated index moves the settle
count, and a slip offers a device fault; settling complete before it, a good index with EXPOSE_ENABLE set enters EXPOSING, unless the
profile or POWER is pending or being reloaded. In the other states but EXPOSING the captures are all (R143, R148, R149, R150, R157, R158). -/
def Obligations.IndexSettles : Prop :=
  ∀ (s : State) (elapsed : Nat),
    let k := s.chip
    let i := Instr.index elapsed
    let c := k.captured elapsed
    let target := 60000000 / k.imc.drumTarget
    let rated := k.dtu.reference = false ∧ k.imc.drumTarget ≠ 0
    let inWindow := (((min 16777215 elapsed : Nat) : Int) - target).natAbs * 100 ≤ target * k.lay.speedWindow
    let slip := k.lay.slipTolerance < (k.dtu.count - 32768).natAbs
    let settled (n : Nat) : Chip := { c with imc := { k.imc with exposure := { k.imc.exposure with settle := n } } }
    (k.pd.runState = .halted → exec i s = .next s) ∧
    (k.pd.runState ≠ .halted →
      (k.working = false ∨ k.imc.drum = none ∨ (k.imc.state ≠ .settling ∧ k.imc.state ≠ .exposing) →
        exec i s = .next (s.setChip c)) ∧
      ∀ d p, k.working = true → k.imc.drum = some d → d.owner = some p → k.imc.state = .settling →
        let prof := (k.profile p.profile).val
        let held := (∃ q ∈ k.tl.pendingSet, q.id = ⟨.profile, p.profile⟩ ∨ q.id.kind = .power) ∨
          ∃ r, k.tl.reload = some r ∧ (r.id = ⟨.profile, p.profile⟩ ∨ r.id.kind = .power)
        (¬rated → exec i s = .next (s.setChip c)) ∧
        (rated → ¬inWindow → ¬slip → exec i s = .next (s.setChip (settled 0))) ∧
        (rated → slip → ∃ t, exec i s = .next t ∧ t.store = s.store ∧ t.chip.imc = (settled 0).imc ∧ t.chip.dtu = c.dtu ∧
          t.chip.hf = c.hf ∧ t.chip.psc = k.psc ∧ t.chip.br = k.br ∧ t.chip.hlc = k.hlc ∧
          (k.dmr.record.valid = false → t.chip.dmr = { k.dmr with record :=
            { valid := true, overflow := false, kind := .slip, unit := 0, detail := (BitVec.ofInt 32 k.dtu.count).toNat, addr := 0,
              addrValid := false, domain := 0, isWrite := false, time := k.regs.plantClock } })) ∧
        (rated → inWindow → ¬slip →
          (k.imc.exposure.settle ≠ k.lay.settleCount →
            exec i s = .next (s.setChip (settled (min k.lay.settleCount (k.imc.exposure.settle + 1))))) ∧
          (k.imc.exposure.settle = k.lay.settleCount →
            (k.regs.exposeEnable = false ∨ held → exec i s = .next (s.setChip c)) ∧
            (k.regs.exposeEnable = true → ¬held → exec i s = .next (s.setChip { c with
              imc := { k.imc with
                state := .exposing
                drumTarget := prof.rpm
                exposure :=
                  { cursor := 0, pass := 0, holds := 0, exposed := 0, begun := false, breakRequest := false
                    settle := k.imc.exposure.settle, deferredBreak := false, entered := true
                    values := ⟨prof.rpm, prof.passes, prof.step, k.tl.power.val.getD prof.step 0⟩ } }
              hf := { k.hf with pass := none, laser := 0, level := k.tl.power.val.getD prof.step 0, position := 0 }
              psc := { k.psc with inbox := k.psc.inbox ++ [.exposingEntry p.slot p.attempt p.prep] } })))))

/-- A rated index in EXPOSING. A break request ends a begun exposure with mark BREAK, counting the swath whose last pass ends well at it
(log 28); a slip ends it with mark SLIP; a pass that ran out of window ends it with SPEED. Otherwise the next pass of the swath starts, or
the swath is complete; with the last one exposure is complete, and the imager waits in UNLOAD_WAIT for the step that issues the UNLOAD (log 11).
A swath starts when the index is good, EXPOSE_ENABLE is set and its band is FULL, which becomes DRAINING; else a begun exposure counts a hold,
and ends above the hold limit. A pass begins with the reads of two row sets at most (log 27). With a lead of 0 its dot 0 is due at the index
itself, with no row set fetched: an underrun (log 35) (R31, R118, R150, R159, R160, R161, R162). -/
def Obligations.IndexExposes : Prop :=
  ∀ (s : State) (elapsed : Nat) (d : Drum) (p : PlateRef), s.chip.working = true → s.chip.imc.drum = some d → d.owner = some p →
    s.chip.imc.state = .exposing → s.chip.dtu.reference = false → s.chip.imc.drumTarget ≠ 0 →
    s.chip.dtu.bufferedB ≠ 0 →
    let k := s.chip
    let e := k.imc.exposure
    let c := k.captured elapsed
    let target := 60000000 / k.imc.drumTarget
    let inWindow := (((min 16777215 elapsed : Nat) : Int) - target).natAbs * 100 ≤ target * k.lay.speedWindow
    let slip := k.lay.slipTolerance < (k.dtu.count - 32768).natAbs
    let w := (k.format p.format).width
    let band (n : Nat) : Buffer := .full ⟨p.slot, p.attempt, n⟩
    let starts (b : Chip) (t : Chip) :=
      let held : Chip := { b with imc := { b.imc with exposure := { b.imc.exposure with holds := b.imc.exposure.holds + 1 } } }
      let full (n : Nat) := b.br.buffers[n]? = some (band b.imc.exposure.cursor) ∧
        ∀ m < n, b.br.buffers[m]? ≠ some (band b.imc.exposure.cursor)
      (∀ n, inWindow → ¬slip → k.regs.exposeEnable = true → full n →
        b.passBegins t n w ∧
        t = { b with
          hf := t.hf
          sp := t.sp
          br := { b.br with buffers := b.br.buffers.set n (.draining ⟨p.slot, p.attempt, b.imc.exposure.cursor⟩) }
          imc := { b.imc with exposure := { b.imc.exposure with pass := 1, begun := true } } }) ∧
      (¬inWindow ∨ slip ∨ k.regs.exposeEnable = false ∨ (∀ n, ¬full n) →
        (b.imc.exposure.begun = false → t = b) ∧
        (b.imc.exposure.begun = true → b.imc.exposure.holds < k.lay.holdLimit → t = held) ∧
        (b.imc.exposure.begun = true → k.lay.holdLimit ≤ b.imc.exposure.holds →
          (inWindow → held.spoiledFrom t d p .underrun 1) ∧ (¬inWindow → held.spoiledFrom t d p .speed 1)))
    ∃ t : Chip,
      (k.dtu.bufferedA ≠ 0 ∨ t.hf.pass = none → exec (.index elapsed) s = .next (s.setChip t)) ∧
      (k.dtu.bufferedA = 0 → t.hf.pass.isSome = true →
        ∃ u, exec (.index elapsed) s = .next u ∧ u.store = s.store ∧ u.pending = s.pending ∧ t.spoiledFrom u.chip d p .underrun 0) ∧
      (e.breakRequest = true → e.begun = true →
        (e.pass = 0 ∨ e.pass ≠ e.values.passes ∨ ¬inWindow ∨ slip → c.spoiledFrom t d p .broken 0) ∧
        (e.pass ≠ 0 → e.pass = e.values.passes → inWindow → ¬slip → c.swathCounted.spoiledFrom t d p .broken 0)) ∧
      (e.breakRequest = false ∨ e.begun = false →
        (slip → e.begun = true → c.spoiledFrom t d p .slip (BitVec.ofInt 32 k.dtu.count).toNat) ∧
        (slip → e.begun = false → e.pass = 0 → t.imc = k.imc ∧ t.br = k.br ∧ t.hf = c.hf ∧
          (k.dmr.record.valid = false → t.dmr = { k.dmr with record :=
            { valid := true, overflow := false, kind := .slip, unit := 0, detail := (BitVec.ofInt 32 k.dtu.count).toNat, addr := 0,
              addrValid := false, domain := 0, isWrite := false, time := k.regs.plantClock } })) ∧
        (¬slip → e.pass = 0 → starts c t) ∧
        (¬slip → e.pass ≠ 0 →
          (¬inWindow → c.spoiledFrom t d p .speed 0) ∧
          (inWindow → e.pass < e.values.passes → ∀ n b, k.br.buffers[n]? = some (.draining b) →
            (∀ m < n, ∀ x, k.br.buffers[m]? ≠ some (.draining x)) →
            c.passBegins t n w ∧
            t = { c with
              hf := t.hf, sp := t.sp, imc := { k.imc with exposure := { e with pass := e.pass + 1 } } }) ∧
          (inWindow → e.values.passes ≤ e.pass →
            (e.cursor + 1 ≠ (k.format p.format).rows / 64 → starts c.swathCounted t) ∧
            (e.cursor + 1 = (k.format p.format).rows / 64 →
              t = { c.swathCounted with
                psc := { k.psc with inbox := k.psc.inbox ++ [.exposureEnd p.slot p.attempt p.prep (e.exposed + 1) e.holds] }
                imc := { c.swathCounted.imc with
                  drum := some { d with cond := .exposed, confirmed := false }
                  state := (if k.imc.pauses.any = true then .paused else .unloadWait)
                  drumTarget := 0 } }))))

/-- The head's reports and the UNLOAD. A channel fault darkens the laser and records pause reason HEAD; a begun exposure ends with mark CHANNEL.
All clear is remembered. UNLOAD is issued for a plate that is to go off, with room in the carrier list, no request in work and no pause. When
PSC has taken the carrier report, the drum record and the exposure record are cleared, and a waiting plate is taken up. That head reports are
ignored outside RUNNING, STOPPING and STOPPED is log 18, that a deferred BREAK mark is reported also after a later word of PSC log 41
(R154, R164, R166, R167, R168, R183). -/
def Obligations.HeadAndUnload : Prop :=
  ∀ (s : State) (ch : BitVec 6),
    let k := s.chip
    let withHead : PauseReasons := { k.imc.pauses with head := true }
    let off (d : Drum) := d.cond = .exposed ∨ (d.cond = .spoiled ∧ (d.owner = none ∨ d.confirmed = true))
    let fits := k.hlc.carriers.length < 4 ∧ k.imc.load = none ∧ k.imc.state ≠ .unloading ∧ k.imc.pauses = ⟨false, false, false, false⟩
    let empty : Exposure := { cursor := 0, pass := 0, holds := 0, exposed := 0, begun := false, breakRequest := false, settle := 0,
                              values := ⟨0, 0, 0, 0⟩, deferredBreak := false, entered := false }
    (k.working = false → exec (.headChannelFault ch) s = .next s ∧ exec .headAllClear s = .next s ∧ exec .unloadIssue s = .next s ∧
      exec .unloadEnd s = .next s) ∧
    (k.working = true →
      exec .headAllClear s = .next (s.setChip { k with imc := { k.imc with headFault := none } }) ∧
      (k.imc.state ≠ .exposing ∨ k.imc.exposure.begun = false ∨ k.imc.drum = none →
        let busy := k.imc.state = .loading ∨ k.imc.state = .unloading ∨ k.imc.state = .paused
        exec (.headChannelFault ch) s = .next (s.setChip { k with
          regs := (raise .pause k).regs
          hf := { k.hf with laser := 0 }
          imc := { k.imc with
            headFault := some ch
            pauses := withHead
            state := (if busy then k.imc.state else .paused)
            drumTarget := (if busy then k.imc.drumTarget else 0) } })) ∧
      (∀ d p, k.imc.state = .exposing → k.imc.exposure.begun = true → k.imc.drum = some d → d.owner = some p →
        ∃ (t : State) (u : Chip), exec (.headChannelFault ch) s = .next t ∧ t.store = s.store ∧
          Chip.spoiledFrom { k with imc := { k.imc with headFault := some ch } } u d p .channel ch.toNat ∧
          t.chip = { u with
            regs := (raise .pause k).regs, imc := { u.imc with state := .paused, pauses := withHead } }) ∧
      (∀ d, k.imc.drum = some d → off d → fits → exec .unloadIssue s = .next (s.setChip { k with
        imc := { k.imc with state := .unloading, drumTarget := 0 }
        hf := { k.hf with laser := 0 }
        hlc := { k.hlc with loader := { k.hlc.loader with queue := k.hlc.loader.queue ++
          [{ kind := .unload, slot := d.owner.map (·.slot), attempt := (d.owner.map (·.attempt)).getD 0, seq := 0 }] } } })) ∧
      ((∀ d, k.imc.drum = some d → ¬off d) ∨ ¬fits → exec .unloadIssue s = .next s) ∧
      (k.hlc.unloadEnd ≠ .handed → exec .unloadEnd s = .next s) ∧
      (k.hlc.unloadEnd = .handed → k.imc.exposure.deferredBreak = false →
        let cleared (st : ImagerState) : Chip := { k with
          imc := { k.imc with state := st, drum := none, drumTarget := 0, exposure := empty }
          hf := { k.hf with laser := 0 }
          hlc := { k.hlc with unloadEnd := .none } }
        (k.imc.pauses ≠ ⟨false, false, false, false⟩ → exec .unloadEnd s = .next (s.setChip (cleared .paused))) ∧
        (k.imc.pauses = ⟨false, false, false, false⟩ →
          (k.imc.waiting = none → exec .unloadEnd s = .next (s.setChip (cleared .empty))) ∧
          ∀ w, k.imc.waiting = some w → k.imc.load = none →
            exec .unloadEnd s = .next (s.setChip { cleared .loading with
              imc := { (cleared .loading).imc with waiting := none, load := some { format := w.format, plate := some w } }
              hlc := { k.hlc with
                unloadEnd := .none
                loader := { k.hlc.loader with queue := k.hlc.loader.queue ++
                  [{ kind := .load (k.format w.format).cassette, slot := some w.slot, attempt := w.attempt, seq := 0 }] } } }))) ∧
      (∀ d p, k.hlc.unloadEnd = .handed → k.imc.exposure.deferredBreak = true → k.imc.drum = some d → d.owner = some p →
        (k.plate p.slot).isSome = true → (k.marks p.slot).marks.length < 8 →
        ∃ t m, exec .unloadEnd s = .next t ∧ t.store = s.store ∧ t.chip.imc.drum = none ∧ t.chip.imc.exposure.deferredBreak = false ∧
          (t.chip.marks p.slot).marks = (k.marks p.slot).marks ++ [m] ∧ m.kind = .broken ∧ m.severity = .spoil ∧
          m.place = .carrier ∧ m.attempt = p.attempt))

/-! ### The handler line -/

/-- The exchanges of the handler line. When the line is free, a due request frame goes before a due poll and the lowest address first; a first
sending takes the head of the queue and the next sequence number, as raised (log 60). TAKEN starts the timers; BUSY below the limit waits for
a retry; an answer NONE or a stale one restarts the poll timer; an answer that is damaged or names another unit is none (log 39). A window
that closes on silence makes the frame due again, and the third in a row holds the unit OFFLINE, a HELD one too: the polls of a TAKEN request
stop (log 61), one that was not taken goes back to its queue, and the loader's ends as failed; in STARTING it fails check 8, which drops what
waits of the host, writes of POST with POST_LOST (log 30). The retry and poll timers make their frame due (R8, R171, R172, R173, R174, R175,
R176, R179, R182, R187). -/
def Obligations.HandlerExchanges : Prop :=
  ∀ (s : State) (u : HUnit),
    let k := s.chip
    let unit (v : HUnit) := k.hlc.unit v
    let active := k.working = true ∨ (k.pd.runState = .starting ∧ k.pd.phase = .clears)
    let due (v : HUnit) := (unit v).hold = none ∧
      (((unit v).work = none ∧ (unit v).queue ≠ []) ∨ ∃ r ph, (unit v).work = some (r, ph) ∧ ph ≠ .taken ∧ (unit v).again = true)
    let polled (v : HUnit) := (unit v).hold = none ∧ (unit v).pollDue = true ∧ ∃ r, (unit v).work = some (r, .taken)
    let put (l : Option Exchange) (x : UnitState) : State :=
      s.setChip { k with hlc := HandlerLine.setUnit { k.hlc with line := l } u x }
    let freed : State := s.setChip { k with hlc := { k.hlc with line := none } }
    let asked (poll : Bool) := k.hlc.line = some { unit := u, poll := poll }
    let set := k.unitSettings u
    (¬active ∨ k.hlc.line.isSome = true ∨ (∀ v, ¬due v ∧ ¬polled v) → exec .exchangeStart s = .next s) ∧
    (active → k.hlc.line = none → due u → (∀ v, unitAddr v < unitAddr u → ¬due v) →
      (∀ r rest, (unit u).work = none → (unit u).queue = r :: rest →
        exec .exchangeStart s = .next (put (some ⟨u, false⟩) { unit u with
          queue := rest, seq := ((unit u).seq + 1) % 256, busy := 0, again := false
          work := some ({ r with seq := ((unit u).seq + 1) % 256 }, .sent) })) ∧
      ∀ r ph, (unit u).work = some (r, ph) →
        exec .exchangeStart s = .next (put (some ⟨u, false⟩) { unit u with work := some (r, .sent), again := false })) ∧
    (active → k.hlc.line = none → (∀ v, ¬due v) → polled u → (∀ v, unitAddr v < unitAddr u → ¬polled v) →
      exec .exchangeStart s = .next (put (some ⟨u, true⟩) { unit u with pollDue := false })) ∧
    (∀ fr a, asked false → fr.intact = false ∨ fr.addr ≠ unitAddr u → exec (.requestAnswer fr a) s = .next s) ∧
    (∀ fr a, asked true → fr.intact = false ∨ fr.addr ≠ unitAddr u → exec (.pollAnswer fr a) s = .next s) ∧
    (∀ fr a, asked true ∨ k.hlc.line = none → exec (.requestAnswer fr a) s = .next s) ∧
    (∀ fr a, asked false ∨ k.hlc.line = none → exec (.pollAnswer fr a) s = .next s) ∧
    (∀ fr : AnswerFrame, fr.intact = true → fr.addr = unitAddr u →
      (∀ a, ¬active → asked false → exec (.requestAnswer fr a) s = .next freed) ∧
      (∀ a, ¬active → asked true → exec (.pollAnswer fr a) s = .next freed) ∧
      (∀ r, active → asked false → (unit u).work = some (r, .sent) →
        exec (.requestAnswer fr .taken) s = .next (put none { unit u with
          silent := 0, busy := 0, work := some (r, .taken), completion := some set.timeout, pollTimer := some set.pollInterval
          again := false, pollDue := false }) ∧
        ((unit u).busy + 1 < set.busyLimit →
          exec (.requestAnswer fr .busy) s = .next (put none { unit u with
            silent := 0, busy := (unit u).busy + 1, work := some (r, .busyWait), again := false }))) ∧
      ∀ r a, active → asked true → (unit u).work = some (r, .taken) →
        (∀ t, a = .done t ∨ (∃ code, a = .fault t code) → ¬(t.slot = r.slot ∧ t.attempt = r.attempt ∧ t.seq = r.seq)) →
        exec (.pollAnswer fr a) s = .next (put none { unit u with silent := 0, pollTimer := some set.pollInterval })) ∧
    (k.hlc.line = none → exec .answerWindowExpiry s = .next s) ∧
    (∀ poll, ¬active → asked poll → exec .answerWindowExpiry s = .next freed) ∧
    (∀ r ph, active → (unit u).silent < 2 → (unit u).work = some (r, ph) →
      (asked false → ph ≠ .taken →
        exec .answerWindowExpiry s = .next (put none { unit u with silent := (unit u).silent + 1, again := true })) ∧
      (asked true → ph = .taken →
        exec .answerWindowExpiry s = .next (put none { unit u with
          silent := (unit u).silent + 1, pollDue := true, pollTimer := some set.pollInterval }))) ∧
    (∀ r ph poll, k.working = true → asked poll → 2 ≤ (unit u).silent → (unit u).work = some (r, ph) →
      u ≠ .loader ∨ ph = .taken →
      ∃ t, exec .answerWindowExpiry s = .next t ∧ t.store = s.store ∧ t.chip.hlc.line = none ∧ (t.chip.hlc.unit u).hold = some .offline ∧
        (∀ v, v ≠ u → t.chip.hlc.unit v = unit v) ∧ t.chip.hlc.carriers = k.hlc.carriers ∧ t.chip.imc.pauses.handler = true ∧
        t.chip.regs.alert.getLsbD 3 = true ∧
        (k.dmr.record.valid = false → t.chip.dmr.record =
          { valid := true, overflow := false, kind := .offline, unit := unitAddr u, detail := 0, addr := 0, addrValid := false,
            domain := 0, isWrite := false, time := k.regs.plantClock }) ∧
        (ph = .taken → (t.chip.hlc.unit u).work = some (r, .taken) ∧ (t.chip.hlc.unit u).completion = (unit u).completion ∧
          (t.chip.hlc.unit u).pollTimer = none) ∧
        (ph ≠ .taken → (t.chip.hlc.unit u).work = none ∧ (t.chip.hlc.unit u).queue = r :: (unit u).queue)) ∧
    (∀ r ph poll, k.working = true → asked poll → 2 ≤ (unit u).silent → (unit u).work = some (r, ph) → u = .loader → ph ≠ .taken → r.kind ≠ .clear →
      ∃ t, exec .answerWindowExpiry s = .next t ∧ t.store = s.store ∧ t.chip.hlc.line = none ∧ (t.chip.hlc.unit u).hold = some .offline ∧
        (t.chip.hlc.unit u).work = none ∧ (t.chip.hlc.unit u).queue = (unit u).queue ∧ (∀ v, v ≠ u → t.chip.hlc.unit v = unit v) ∧
        t.chip.hlc.carriers = k.hlc.carriers ∧ t.chip.imc.pauses.handler = true ∧ t.chip.regs.alert.getLsbD 3 = true ∧
        t.chip.imc.drum = k.imc.drum ∧
        (r.kind = .unload → t.chip.imc.state = .paused) ∧
        ∀ n l p, r.kind = .load n → k.imc.load = some l → l.plate = some p →
          t.chip.imc.state = .paused ∧ t.chip.imc.load = none ∧ t.chip.imc.waiting = some p) ∧
    (∀ poll, k.pd.runState = .starting → k.pd.phase = .clears → asked poll → 2 ≤ (unit u).silent →
      let kept := if k.sp.posts = [] then k else raise .postLost k
      exec .answerWindowExpiry s = .next (s.setChip (raise .startDone { State.reset.chip with
        regs := { kept.regs with startFail := 8, startUnit := unitAddr u, run := false }, fresh := k.fresh }))) ∧
    (∀ r, active → (unit u).work = some (r, .busyWait) →
      exec (.busyRetryExpiry u) s = .next (s.setChip (k.setUnit u { unit u with again := true }))) ∧
    (¬active ∨ (∀ r, (unit u).work ≠ some (r, .busyWait)) → exec (.busyRetryExpiry u) s = .next s) ∧
    (∀ r, active → (unit u).hold = none → (unit u).pollTimer.isSome = true → (unit u).work = some (r, .taken) →
      exec (.pollTimerExpiry u) s = .next (s.setChip (k.setUnit u { unit u with pollTimer := none, pollDue := true }))) ∧
    (¬active ∨ (unit u).hold.isSome = true ∨ (unit u).pollTimer = none → exec (.pollTimerExpiry u) s = .next s)

/-- How requests end. DONE or FAULT with the request's own tag, REFUSED, BUSY at the limit and the completion timeout end the request in work,
the timeout as DONE with mark TIMEOUT under ASSUME_DONE and as a fault otherwise. The outcome is by unit: a stage that ends moves its oldest
carrier to the next unit, or off the list with a report to PSC (log 33); MISREG at the PUNCH and a fault of the PROCESSOR spoil the carrier;
any other end that is not DONE puts the request back and holds the unit, with the detail's source and code; LOAD and UNLOAD report to IMC. An
UNLOAD's DONE makes the carrier, whose PUNCH request waits for PSC (log 12). The fourth CLEAR ends STARTING, and a CLEAR that fails ends it
with check 8, which drops the HOST transfers too, the writes of POST behind them with POST_LOST (log 30), and frees the line (log 62) (R8,
R155, R172, R174, R175, R177, R178, R179, R180, R182, R183, R198). -/
def Obligations.HandlerOutcomes : Prop :=
  (∀ (s : State) (u : HUnit) (r : Request) (ph : ReqPhase),
    let k := s.chip
    let st := k.hlc.unit u
    let active := k.working = true ∨ (k.pd.runState = .starting ∧ k.pd.phase = .clears)
    let ends (c : Instr) (x : UnitState) (l : Option Exchange) (e : RequestEnd) :=
      exec c s = .next (s.setChip (endRequest u r e { k with hlc := HandlerLine.setUnit { k.hlc with line := l } u x }))
    active → st.work = some (r, ph) →
      (∀ fr : AnswerFrame, fr.intact = true → fr.addr = unitAddr u →
        (ph = .taken → k.hlc.line = some { unit := u, poll := true } →
          let x : UnitState := { st with silent := 0, pollTimer := some (k.unitSettings u).pollInterval }
          ends (.pollAnswer fr (.done ⟨r.slot, r.attempt, r.seq⟩)) x none .done ∧
          ∀ code, ends (.pollAnswer fr (.fault ⟨r.slot, r.attempt, r.seq⟩ code)) x none (.faulted code)) ∧
        (ph = .sent → k.hlc.line = some { unit := u, poll := false } →
          (∀ why, ends (.requestAnswer fr (.refused why)) { st with silent := 0 } none (.refused why)) ∧
          ((k.unitSettings u).busyLimit ≤ st.busy + 1 →
            ends (.requestAnswer fr .busy) { st with silent := 0, busy := st.busy + 1 } none .busyLimit))) ∧
      (ph = .taken → st.completion.isSome = true →
        ((k.unitSettings u).policy ≠ .assumeDone ∨ r.kind = .clear → ends (.completionTimeout u) st k.hlc.line .timedOut) ∧
        ((k.unitSettings u).policy = .assumeDone → r.kind ≠ .clear → ∃ k',
          exec (.completionTimeout u) s = .next (s.setChip (endRequest u r .done k')) ∧
          k' = { k with dmr := { k.dmr with lists := k'.dmr.lists }, sp := { k.sp with report := k'.sp.report } } ∧
          (r.slot = none → k' = k) ∧
          ∀ n, r.slot = some n → (k.plate n).isSome = true → (k.marks n).marks.length < 8 →
            (k'.marks n).marks = (k.marks n).marks ++
              [{ kind := .timeout, severity := .note, charged := false, place := .none, attempt := r.attempt, location := .none,
                 key := none, detail := unitAddr u, time := k.regs.plantClock }])) ∧
      (ph ≠ .taken → exec (.completionTimeout u) s = .next s)) ∧
  ∀ (k : Chip) (r : Request),
    let ended (u : HUnit) : UnitState :=
      { k.hlc.unit u with work := none, busy := 0, completion := none, pollTimer := none, again := false, pollDue := false }
    let request (kind : RequestKind) (c : Carrier) : Request := { kind := kind, slot := c.slot, attempt := c.attempt, seq := 0 }
    let oldest (stage : Stage) (a : List Carrier) (c : Carrier) (b : List Carrier) :=
      k.hlc.carriers = a ++ c :: b ∧ (∀ x ∈ a, x.stage ≠ stage) ∧ c.stage = stage
    let heldFor (u : HUnit) (cause : HoldCause) (detail : Nat) (t : Chip) := (k.hlc.unit u).hold = none →
      (t.hlc.unit u).hold = some cause ∧ t.imc.pauses.handler = true ∧ t.regs.alert.getLsbD 3 = true ∧
      (k.dmr.record.valid = false → t.dmr.record =
        { valid := true, overflow := false, kind := .handler, unit := unitAddr u, detail := detail, addr := 0, addrValid := false,
          domain := 0, isWrite := false, time := k.regs.plantClock })
    let putBack (u : HUnit) (cause : HoldCause) (detail : Nat) (e : RequestEnd) :=
      let t := endRequest u r e k
      t.hlc.carriers = k.hlc.carriers ∧ (t.hlc.unit u).work = none ∧ (t.hlc.unit u).queue = r :: (k.hlc.unit u).queue ∧
        (∀ v, v ≠ u → t.hlc.unit v = k.hlc.unit v) ∧ t.psc = k.psc ∧ heldFor u cause detail t
    let marked (kind : MarkKind) (detail : Nat) (c : Carrier) (t : Chip) := ∀ n, c.slot = some n → c.spoiled = false →
      (k.plate n).isSome = true → (k.marks n).marks.length < 8 →
      (t.marks n).marks = (k.marks n).marks ++
        [{ kind := kind, severity := .spoil, charged := true, place := .carrier, attempt := c.attempt, location := .none, key := none,
           detail := detail, time := k.regs.plantClock }]
    (r.kind = .clear → ∀ u,
      (k.hlc.cleared ≠ 3 → endRequest u r .done k = (k.setUnit u (ended u)).setHlc
        { k.hlc.setUnit u (ended u) with cleared := k.hlc.cleared + 1 }) ∧
      (k.hlc.cleared = 3 → (endRequest u r .done k).pd =
        { k.pd with runState := (if k.regs.run = true then .running else .stopped), phase := .idle } ∧
        (endRequest u r .done k).regs = (raise .startDone k).regs) ∧
      ∀ e, e ≠ .done →
        let kept := if k.sp.posts = [] then k else raise .postLost k
        endRequest u r e k = raise .startDone { State.reset.chip with
          regs := { kept.regs with startFail := 8, startUnit := unitAddr u, run := false }, fresh := k.fresh }) ∧
    (r.kind ≠ .clear →
      (∀ a c b, oldest .punch a c b →
        endRequest .punch r .done k = k.setHlc { k.hlc with
          punch := ended .punch, carriers := a ++ { c with stage := .process } :: b
          processor := { k.hlc.processor with queue := k.hlc.processor.queue ++ [request (.process (!c.spoiled)) c] } } ∧
        (let t := endRequest .punch r (.faulted .misreg) k
         t.hlc = { k.hlc with
          punch := ended .punch, carriers := a ++ { c with stage := .process, spoiled := true } :: b
          processor := { k.hlc.processor with queue := k.hlc.processor.queue ++ [request (.process false) c] } } ∧
         marked .misreg (256 + Config.misregCode.toNat) c t)) ∧
      (∀ a c b, oldest .process a c b →
        endRequest .processor r .done k = k.setHlc { k.hlc with
          processor := ended .processor, carriers := a ++ { c with stage := .route } :: b
          sorter := { k.hlc.sorter with queue := k.hlc.sorter.queue ++
            [request (.route (if c.spoiled = true then 15 else c.bin)) c] } } ∧
        ∀ e detail, (∃ code, e = .faulted code ∧ detail = 256 + (faultByte code).toNat) ∨ (e = .timedOut ∧ detail = 768) →
          let t := endRequest .processor r e k
          t.hlc.carriers = a ++ { c with stage := .route, spoiled := true } :: b ∧
          t.hlc.sorter = { k.hlc.sorter with queue := k.hlc.sorter.queue ++ [request (.route 15) c] } ∧
          (t.hlc.unit .processor).work = none ∧ marked .process detail c t ∧ heldFor .processor .processFault detail t) ∧
      (∀ a c b, oldest .route a c b →
        endRequest .sorter r .done k =
          { k with
            hlc := { k.hlc with sorter := ended .sorter, carriers := a ++ b }
            psc := { k.psc with inbox := k.psc.inbox ++ [.carrierRemoved c.slot c.attempt c.spoiled] } }) ∧
      putBack .sorter .binFull (256 + Config.binFullCode.toNat) (.faulted .binFull) ∧
      (∀ code, code ≠ .misreg → putBack .punch .failure (256 + (faultByte code).toNat) (.faulted code)) ∧
      (∀ code, code ≠ .binFull → putBack .sorter .failure (256 + (faultByte code).toNat) (.faulted code)) ∧
      (∀ u, u ≠ .loader → putBack u .failure 512 .busyLimit ∧
        ∀ why, putBack u .failure (reasonByte why).toNat (.refused why)) ∧
      putBack .punch .failure 768 .timedOut ∧ putBack .sorter .failure 768 .timedOut ∧
      (∀ l n, r.kind = .load n → k.imc.load = some l → k.imc.state = .loading → k.imc.pauses = ⟨false, false, false, false⟩ →
        (l.plate = none → k.imc.waiting = none → (endRequest .loader r .done k).imc =
          { k.imc with state := .blank, load := none, drumTarget := 0
                       drum := some { format := l.format, owner := none, cond := .unexposed, confirmed := false } }) ∧
        (∀ p, l.plate = some p →
          let t := endRequest .loader r .done k
          t.imc.state = .settling ∧ t.imc.load = none ∧ t.imc.exposure.settle = 0 ∧
            t.imc.drum = some { format := l.format, owner := some p, cond := .unexposed, confirmed := false } ∧
            t.imc.drumTarget = (k.profile p.profile).val.rpm ∧ t.dtu.reference = true ∧
            t.dtu.bufferedA = (k.format l.format).lead ∧ t.dtu.bufferedB = (k.format l.format).lead + (k.format l.format).width) ∧
        (let t := endRequest .loader r (.refused .empty) k
         t.imc.state = .paused ∧ t.imc.load = none ∧ t.imc.pauses = ⟨true, false, false, false⟩ ∧ t.imc.drum = k.imc.drum ∧
           (∀ p, l.plate = some p → t.imc.waiting = some p) ∧ t.hlc.loader = ended .loader) ∧
        ((k.hlc.loader).hold = none → ∀ e, e ≠ .done → e ≠ .refused .empty →
          let t := endRequest .loader r e k
          t.imc.state = .paused ∧ t.imc.load = none ∧ t.imc.drum = k.imc.drum ∧ (∀ p, l.plate = some p → t.imc.waiting = some p) ∧
            heldFor .loader .failure e.detail t)) ∧
      ∀ d, r.kind = .unload → k.imc.drum = some d →
        (let t := endRequest .loader r .done k
         let bin := match d.owner with
          | none => 15
          | some p => match k.plate p.slot with
            | none => 15
            | some x => x.order.bin
         let c : Carrier :=
          { slot := d.owner.map (·.slot), attempt := (d.owner.map (·.attempt)).getD 0, stage := .punch, bin := bin
            spoiled := decide (d.cond ≠ .exposed) }
         t = { k with
          dtu := { k.dtu with reference := true }
          hlc := { k.hlc with loader := ended .loader, carriers := k.hlc.carriers ++ [c], unloadEnd := .heldForPsc }
          psc := { k.psc with inbox := k.psc.inbox ++ [.carrierCreated c.slot c.attempt c.spoiled] } }) ∧
        ∀ e, e ≠ .done → k.hlc.loader.hold = none →
          let t := endRequest .loader r e k
          t.imc.drum = k.imc.drum ∧ t.imc.state = .paused ∧ t.hlc.carriers = k.hlc.carriers ∧ heldFor .loader .failure e.detail t)
end

