-- ==== Sys2Proof/Laws/State.lean ====
section
/-! SUPPORT. One lemma per field per named update of the state, true by rfl. -/

namespace Sys2Proof.Machine

@[simp] theorem Chip.setRegs_regs (k : Chip) (x : Registers) : (k.setRegs x).regs = x := rfl
@[simp] theorem Chip.setRegs_pd (k : Chip) (x : Registers) : (k.setRegs x).pd = k.pd := rfl
@[simp] theorem Chip.setRegs_sp (k : Chip) (x : Registers) : (k.setRegs x).sp = k.sp := rfl
@[simp] theorem Chip.setRegs_iu (k : Chip) (x : Registers) : (k.setRegs x).iu = k.iu := rfl
@[simp] theorem Chip.setRegs_psc (k : Chip) (x : Registers) : (k.setRegs x).psc = k.psc := rfl
@[simp] theorem Chip.setRegs_tl (k : Chip) (x : Registers) : (k.setRegs x).tl = k.tl := rfl
@[simp] theorem Chip.setRegs_br (k : Chip) (x : Registers) : (k.setRegs x).br = k.br := rfl
@[simp] theorem Chip.setRegs_imc (k : Chip) (x : Registers) : (k.setRegs x).imc = k.imc := rfl
@[simp] theorem Chip.setRegs_dtu (k : Chip) (x : Registers) : (k.setRegs x).dtu = k.dtu := rfl
@[simp] theorem Chip.setRegs_hf (k : Chip) (x : Registers) : (k.setRegs x).hf = k.hf := rfl
@[simp] theorem Chip.setRegs_hlc (k : Chip) (x : Registers) : (k.setRegs x).hlc = k.hlc := rfl
@[simp] theorem Chip.setRegs_dmr (k : Chip) (x : Registers) : (k.setRegs x).dmr = k.dmr := rfl
@[simp] theorem Chip.setRegs_fresh (k : Chip) (x : Registers) : (k.setRegs x).fresh = k.fresh := rfl
@[simp] theorem Chip.setRegs_twice (k : Chip) (x y : Registers) : (k.setRegs x).setRegs y = k.setRegs y := rfl

@[simp] theorem Chip.setPd_regs (k : Chip) (x : Dispatcher) : (k.setPd x).regs = k.regs := rfl
@[simp] theorem Chip.setPd_pd (k : Chip) (x : Dispatcher) : (k.setPd x).pd = x := rfl
@[simp] theorem Chip.setPd_sp (k : Chip) (x : Dispatcher) : (k.setPd x).sp = k.sp := rfl
@[simp] theorem Chip.setPd_iu (k : Chip) (x : Dispatcher) : (k.setPd x).iu = k.iu := rfl
@[simp] theorem Chip.setPd_psc (k : Chip) (x : Dispatcher) : (k.setPd x).psc = k.psc := rfl
@[simp] theorem Chip.setPd_tl (k : Chip) (x : Dispatcher) : (k.setPd x).tl = k.tl := rfl
@[simp] theorem Chip.setPd_br (k : Chip) (x : Dispatcher) : (k.setPd x).br = k.br := rfl
@[simp] theorem Chip.setPd_imc (k : Chip) (x : Dispatcher) : (k.setPd x).imc = k.imc := rfl
@[simp] theorem Chip.setPd_dtu (k : Chip) (x : Dispatcher) : (k.setPd x).dtu = k.dtu := rfl
@[simp] theorem Chip.setPd_hf (k : Chip) (x : Dispatcher) : (k.setPd x).hf = k.hf := rfl
@[simp] theorem Chip.setPd_hlc (k : Chip) (x : Dispatcher) : (k.setPd x).hlc = k.hlc := rfl
@[simp] theorem Chip.setPd_dmr (k : Chip) (x : Dispatcher) : (k.setPd x).dmr = k.dmr := rfl
@[simp] theorem Chip.setPd_fresh (k : Chip) (x : Dispatcher) : (k.setPd x).fresh = k.fresh := rfl
@[simp] theorem Chip.setPd_twice (k : Chip) (x y : Dispatcher) : (k.setPd x).setPd y = k.setPd y := rfl

@[simp] theorem Chip.setSp_regs (k : Chip) (x : StorePort) : (k.setSp x).regs = k.regs := rfl
@[simp] theorem Chip.setSp_pd (k : Chip) (x : StorePort) : (k.setSp x).pd = k.pd := rfl
@[simp] theorem Chip.setSp_sp (k : Chip) (x : StorePort) : (k.setSp x).sp = x := rfl
@[simp] theorem Chip.setSp_iu (k : Chip) (x : StorePort) : (k.setSp x).iu = k.iu := rfl
@[simp] theorem Chip.setSp_psc (k : Chip) (x : StorePort) : (k.setSp x).psc = k.psc := rfl
@[simp] theorem Chip.setSp_tl (k : Chip) (x : StorePort) : (k.setSp x).tl = k.tl := rfl
@[simp] theorem Chip.setSp_br (k : Chip) (x : StorePort) : (k.setSp x).br = k.br := rfl
@[simp] theorem Chip.setSp_imc (k : Chip) (x : StorePort) : (k.setSp x).imc = k.imc := rfl
@[simp] theorem Chip.setSp_dtu (k : Chip) (x : StorePort) : (k.setSp x).dtu = k.dtu := rfl
@[simp] theorem Chip.setSp_hf (k : Chip) (x : StorePort) : (k.setSp x).hf = k.hf := rfl
@[simp] theorem Chip.setSp_hlc (k : Chip) (x : StorePort) : (k.setSp x).hlc = k.hlc := rfl
@[simp] theorem Chip.setSp_dmr (k : Chip) (x : StorePort) : (k.setSp x).dmr = k.dmr := rfl
@[simp] theorem Chip.setSp_fresh (k : Chip) (x : StorePort) : (k.setSp x).fresh = k.fresh := rfl
@[simp] theorem Chip.setSp_twice (k : Chip) (x y : StorePort) : (k.setSp x).setSp y = k.setSp y := rfl

@[simp] theorem Chip.setIu_regs (k : Chip) (x : IntakeUnit) : (k.setIu x).regs = k.regs := rfl
@[simp] theorem Chip.setIu_pd (k : Chip) (x : IntakeUnit) : (k.setIu x).pd = k.pd := rfl
@[simp] theorem Chip.setIu_sp (k : Chip) (x : IntakeUnit) : (k.setIu x).sp = k.sp := rfl
@[simp] theorem Chip.setIu_iu (k : Chip) (x : IntakeUnit) : (k.setIu x).iu = x := rfl
@[simp] theorem Chip.setIu_psc (k : Chip) (x : IntakeUnit) : (k.setIu x).psc = k.psc := rfl
@[simp] theorem Chip.setIu_tl (k : Chip) (x : IntakeUnit) : (k.setIu x).tl = k.tl := rfl
@[simp] theorem Chip.setIu_br (k : Chip) (x : IntakeUnit) : (k.setIu x).br = k.br := rfl
@[simp] theorem Chip.setIu_imc (k : Chip) (x : IntakeUnit) : (k.setIu x).imc = k.imc := rfl
@[simp] theorem Chip.setIu_dtu (k : Chip) (x : IntakeUnit) : (k.setIu x).dtu = k.dtu := rfl
@[simp] theorem Chip.setIu_hf (k : Chip) (x : IntakeUnit) : (k.setIu x).hf = k.hf := rfl
@[simp] theorem Chip.setIu_hlc (k : Chip) (x : IntakeUnit) : (k.setIu x).hlc = k.hlc := rfl
@[simp] theorem Chip.setIu_dmr (k : Chip) (x : IntakeUnit) : (k.setIu x).dmr = k.dmr := rfl
@[simp] theorem Chip.setIu_fresh (k : Chip) (x : IntakeUnit) : (k.setIu x).fresh = k.fresh := rfl
@[simp] theorem Chip.setIu_twice (k : Chip) (x y : IntakeUnit) : (k.setIu x).setIu y = k.setIu y := rfl

@[simp] theorem Chip.setPsc_regs (k : Chip) (x : Scheduler) : (k.setPsc x).regs = k.regs := rfl
@[simp] theorem Chip.setPsc_pd (k : Chip) (x : Scheduler) : (k.setPsc x).pd = k.pd := rfl
@[simp] theorem Chip.setPsc_sp (k : Chip) (x : Scheduler) : (k.setPsc x).sp = k.sp := rfl
@[simp] theorem Chip.setPsc_iu (k : Chip) (x : Scheduler) : (k.setPsc x).iu = k.iu := rfl
@[simp] theorem Chip.setPsc_psc (k : Chip) (x : Scheduler) : (k.setPsc x).psc = x := rfl
@[simp] theorem Chip.setPsc_tl (k : Chip) (x : Scheduler) : (k.setPsc x).tl = k.tl := rfl
@[simp] theorem Chip.setPsc_br (k : Chip) (x : Scheduler) : (k.setPsc x).br = k.br := rfl
@[simp] theorem Chip.setPsc_imc (k : Chip) (x : Scheduler) : (k.setPsc x).imc = k.imc := rfl
@[simp] theorem Chip.setPsc_dtu (k : Chip) (x : Scheduler) : (k.setPsc x).dtu = k.dtu := rfl
@[simp] theorem Chip.setPsc_hf (k : Chip) (x : Scheduler) : (k.setPsc x).hf = k.hf := rfl
@[simp] theorem Chip.setPsc_hlc (k : Chip) (x : Scheduler) : (k.setPsc x).hlc = k.hlc := rfl
@[simp] theorem Chip.setPsc_dmr (k : Chip) (x : Scheduler) : (k.setPsc x).dmr = k.dmr := rfl
@[simp] theorem Chip.setPsc_fresh (k : Chip) (x : Scheduler) : (k.setPsc x).fresh = k.fresh := rfl
@[simp] theorem Chip.setPsc_twice (k : Chip) (x y : Scheduler) : (k.setPsc x).setPsc y = k.setPsc y := rfl

@[simp] theorem Chip.setTl_regs (k : Chip) (x : TableLoader) : (k.setTl x).regs = k.regs := rfl
@[simp] theorem Chip.setTl_pd (k : Chip) (x : TableLoader) : (k.setTl x).pd = k.pd := rfl
@[simp] theorem Chip.setTl_sp (k : Chip) (x : TableLoader) : (k.setTl x).sp = k.sp := rfl
@[simp] theorem Chip.setTl_iu (k : Chip) (x : TableLoader) : (k.setTl x).iu = k.iu := rfl
@[simp] theorem Chip.setTl_psc (k : Chip) (x : TableLoader) : (k.setTl x).psc = k.psc := rfl
@[simp] theorem Chip.setTl_tl (k : Chip) (x : TableLoader) : (k.setTl x).tl = x := rfl
@[simp] theorem Chip.setTl_br (k : Chip) (x : TableLoader) : (k.setTl x).br = k.br := rfl
@[simp] theorem Chip.setTl_imc (k : Chip) (x : TableLoader) : (k.setTl x).imc = k.imc := rfl
@[simp] theorem Chip.setTl_dtu (k : Chip) (x : TableLoader) : (k.setTl x).dtu = k.dtu := rfl
@[simp] theorem Chip.setTl_hf (k : Chip) (x : TableLoader) : (k.setTl x).hf = k.hf := rfl
@[simp] theorem Chip.setTl_hlc (k : Chip) (x : TableLoader) : (k.setTl x).hlc = k.hlc := rfl
@[simp] theorem Chip.setTl_dmr (k : Chip) (x : TableLoader) : (k.setTl x).dmr = k.dmr := rfl
@[simp] theorem Chip.setTl_fresh (k : Chip) (x : TableLoader) : (k.setTl x).fresh = k.fresh := rfl
@[simp] theorem Chip.setTl_twice (k : Chip) (x y : TableLoader) : (k.setTl x).setTl y = k.setTl y := rfl

@[simp] theorem Chip.setBr_regs (k : Chip) (x : BandRenderer) : (k.setBr x).regs = k.regs := rfl
@[simp] theorem Chip.setBr_pd (k : Chip) (x : BandRenderer) : (k.setBr x).pd = k.pd := rfl
@[simp] theorem Chip.setBr_sp (k : Chip) (x : BandRenderer) : (k.setBr x).sp = k.sp := rfl
@[simp] theorem Chip.setBr_iu (k : Chip) (x : BandRenderer) : (k.setBr x).iu = k.iu := rfl
@[simp] theorem Chip.setBr_psc (k : Chip) (x : BandRenderer) : (k.setBr x).psc = k.psc := rfl
@[simp] theorem Chip.setBr_tl (k : Chip) (x : BandRenderer) : (k.setBr x).tl = k.tl := rfl
@[simp] theorem Chip.setBr_br (k : Chip) (x : BandRenderer) : (k.setBr x).br = x := rfl
@[simp] theorem Chip.setBr_imc (k : Chip) (x : BandRenderer) : (k.setBr x).imc = k.imc := rfl
@[simp] theorem Chip.setBr_dtu (k : Chip) (x : BandRenderer) : (k.setBr x).dtu = k.dtu := rfl
@[simp] theorem Chip.setBr_hf (k : Chip) (x : BandRenderer) : (k.setBr x).hf = k.hf := rfl
@[simp] theorem Chip.setBr_hlc (k : Chip) (x : BandRenderer) : (k.setBr x).hlc = k.hlc := rfl
@[simp] theorem Chip.setBr_dmr (k : Chip) (x : BandRenderer) : (k.setBr x).dmr = k.dmr := rfl
@[simp] theorem Chip.setBr_fresh (k : Chip) (x : BandRenderer) : (k.setBr x).fresh = k.fresh := rfl
@[simp] theorem Chip.setBr_twice (k : Chip) (x y : BandRenderer) : (k.setBr x).setBr y = k.setBr y := rfl

@[simp] theorem Chip.setImc_regs (k : Chip) (x : ImagingController) : (k.setImc x).regs = k.regs := rfl
@[simp] theorem Chip.setImc_pd (k : Chip) (x : ImagingController) : (k.setImc x).pd = k.pd := rfl
@[simp] theorem Chip.setImc_sp (k : Chip) (x : ImagingController) : (k.setImc x).sp = k.sp := rfl
@[simp] theorem Chip.setImc_iu (k : Chip) (x : ImagingController) : (k.setImc x).iu = k.iu := rfl
@[simp] theorem Chip.setImc_psc (k : Chip) (x : ImagingController) : (k.setImc x).psc = k.psc := rfl
@[simp] theorem Chip.setImc_tl (k : Chip) (x : ImagingController) : (k.setImc x).tl = k.tl := rfl
@[simp] theorem Chip.setImc_br (k : Chip) (x : ImagingController) : (k.setImc x).br = k.br := rfl
@[simp] theorem Chip.setImc_imc (k : Chip) (x : ImagingController) : (k.setImc x).imc = x := rfl
@[simp] theorem Chip.setImc_dtu (k : Chip) (x : ImagingController) : (k.setImc x).dtu = k.dtu := rfl
@[simp] theorem Chip.setImc_hf (k : Chip) (x : ImagingController) : (k.setImc x).hf = k.hf := rfl
@[simp] theorem Chip.setImc_hlc (k : Chip) (x : ImagingController) : (k.setImc x).hlc = k.hlc := rfl
@[simp] theorem Chip.setImc_dmr (k : Chip) (x : ImagingController) : (k.setImc x).dmr = k.dmr := rfl
@[simp] theorem Chip.setImc_fresh (k : Chip) (x : ImagingController) : (k.setImc x).fresh = k.fresh := rfl
@[simp] theorem Chip.setImc_twice (k : Chip) (x y : ImagingController) : (k.setImc x).setImc y = k.setImc y := rfl

@[simp] theorem Chip.setDtu_regs (k : Chip) (x : DrumTiming) : (k.setDtu x).regs = k.regs := rfl
@[simp] theorem Chip.setDtu_pd (k : Chip) (x : DrumTiming) : (k.setDtu x).pd = k.pd := rfl
@[simp] theorem Chip.setDtu_sp (k : Chip) (x : DrumTiming) : (k.setDtu x).sp = k.sp := rfl
@[simp] theorem Chip.setDtu_iu (k : Chip) (x : DrumTiming) : (k.setDtu x).iu = k.iu := rfl
@[simp] theorem Chip.setDtu_psc (k : Chip) (x : DrumTiming) : (k.setDtu x).psc = k.psc := rfl
@[simp] theorem Chip.setDtu_tl (k : Chip) (x : DrumTiming) : (k.setDtu x).tl = k.tl := rfl
@[simp] theorem Chip.setDtu_br (k : Chip) (x : DrumTiming) : (k.setDtu x).br = k.br := rfl
@[simp] theorem Chip.setDtu_imc (k : Chip) (x : DrumTiming) : (k.setDtu x).imc = k.imc := rfl
@[simp] theorem Chip.setDtu_dtu (k : Chip) (x : DrumTiming) : (k.setDtu x).dtu = x := rfl
@[simp] theorem Chip.setDtu_hf (k : Chip) (x : DrumTiming) : (k.setDtu x).hf = k.hf := rfl
@[simp] theorem Chip.setDtu_hlc (k : Chip) (x : DrumTiming) : (k.setDtu x).hlc = k.hlc := rfl
@[simp] theorem Chip.setDtu_dmr (k : Chip) (x : DrumTiming) : (k.setDtu x).dmr = k.dmr := rfl
@[simp] theorem Chip.setDtu_fresh (k : Chip) (x : DrumTiming) : (k.setDtu x).fresh = k.fresh := rfl
@[simp] theorem Chip.setDtu_twice (k : Chip) (x y : DrumTiming) : (k.setDtu x).setDtu y = k.setDtu y := rfl

@[simp] theorem Chip.setHf_regs (k : Chip) (x : HeadFeed) : (k.setHf x).regs = k.regs := rfl
@[simp] theorem Chip.setHf_pd (k : Chip) (x : HeadFeed) : (k.setHf x).pd = k.pd := rfl
@[simp] theorem Chip.setHf_sp (k : Chip) (x : HeadFeed) : (k.setHf x).sp = k.sp := rfl
@[simp] theorem Chip.setHf_iu (k : Chip) (x : HeadFeed) : (k.setHf x).iu = k.iu := rfl
@[simp] theorem Chip.setHf_psc (k : Chip) (x : HeadFeed) : (k.setHf x).psc = k.psc := rfl
@[simp] theorem Chip.setHf_tl (k : Chip) (x : HeadFeed) : (k.setHf x).tl = k.tl := rfl
@[simp] theorem Chip.setHf_br (k : Chip) (x : HeadFeed) : (k.setHf x).br = k.br := rfl
@[simp] theorem Chip.setHf_imc (k : Chip) (x : HeadFeed) : (k.setHf x).imc = k.imc := rfl
@[simp] theorem Chip.setHf_dtu (k : Chip) (x : HeadFeed) : (k.setHf x).dtu = k.dtu := rfl
@[simp] theorem Chip.setHf_hf (k : Chip) (x : HeadFeed) : (k.setHf x).hf = x := rfl
@[simp] theorem Chip.setHf_hlc (k : Chip) (x : HeadFeed) : (k.setHf x).hlc = k.hlc := rfl
@[simp] theorem Chip.setHf_dmr (k : Chip) (x : HeadFeed) : (k.setHf x).dmr = k.dmr := rfl
@[simp] theorem Chip.setHf_fresh (k : Chip) (x : HeadFeed) : (k.setHf x).fresh = k.fresh := rfl
@[simp] theorem Chip.setHf_twice (k : Chip) (x y : HeadFeed) : (k.setHf x).setHf y = k.setHf y := rfl

@[simp] theorem Chip.setHlc_regs (k : Chip) (x : HandlerLine) : (k.setHlc x).regs = k.regs := rfl
@[simp] theorem Chip.setHlc_pd (k : Chip) (x : HandlerLine) : (k.setHlc x).pd = k.pd := rfl
@[simp] theorem Chip.setHlc_sp (k : Chip) (x : HandlerLine) : (k.setHlc x).sp = k.sp := rfl
@[simp] theorem Chip.setHlc_iu (k : Chip) (x : HandlerLine) : (k.setHlc x).iu = k.iu := rfl
@[simp] theorem Chip.setHlc_psc (k : Chip) (x : HandlerLine) : (k.setHlc x).psc = k.psc := rfl
@[simp] theorem Chip.setHlc_tl (k : Chip) (x : HandlerLine) : (k.setHlc x).tl = k.tl := rfl
@[simp] theorem Chip.setHlc_br (k : Chip) (x : HandlerLine) : (k.setHlc x).br = k.br := rfl
@[simp] theorem Chip.setHlc_imc (k : Chip) (x : HandlerLine) : (k.setHlc x).imc = k.imc := rfl
@[simp] theorem Chip.setHlc_dtu (k : Chip) (x : HandlerLine) : (k.setHlc x).dtu = k.dtu := rfl
@[simp] theorem Chip.setHlc_hf (k : Chip) (x : HandlerLine) : (k.setHlc x).hf = k.hf := rfl
@[simp] theorem Chip.setHlc_hlc (k : Chip) (x : HandlerLine) : (k.setHlc x).hlc = x := rfl
@[simp] theorem Chip.setHlc_dmr (k : Chip) (x : HandlerLine) : (k.setHlc x).dmr = k.dmr := rfl
@[simp] theorem Chip.setHlc_fresh (k : Chip) (x : HandlerLine) : (k.setHlc x).fresh = k.fresh := rfl
@[simp] theorem Chip.setHlc_twice (k : Chip) (x y : HandlerLine) : (k.setHlc x).setHlc y = k.setHlc y := rfl

@[simp] theorem Chip.setDmr_regs (k : Chip) (x : DamageRecorder) : (k.setDmr x).regs = k.regs := rfl
@[simp] theorem Chip.setDmr_pd (k : Chip) (x : DamageRecorder) : (k.setDmr x).pd = k.pd := rfl
@[simp] theorem Chip.setDmr_sp (k : Chip) (x : DamageRecorder) : (k.setDmr x).sp = k.sp := rfl
@[simp] theorem Chip.setDmr_iu (k : Chip) (x : DamageRecorder) : (k.setDmr x).iu = k.iu := rfl
@[simp] theorem Chip.setDmr_psc (k : Chip) (x : DamageRecorder) : (k.setDmr x).psc = k.psc := rfl
@[simp] theorem Chip.setDmr_tl (k : Chip) (x : DamageRecorder) : (k.setDmr x).tl = k.tl := rfl
@[simp] theorem Chip.setDmr_br (k : Chip) (x : DamageRecorder) : (k.setDmr x).br = k.br := rfl
@[simp] theorem Chip.setDmr_imc (k : Chip) (x : DamageRecorder) : (k.setDmr x).imc = k.imc := rfl
@[simp] theorem Chip.setDmr_dtu (k : Chip) (x : DamageRecorder) : (k.setDmr x).dtu = k.dtu := rfl
@[simp] theorem Chip.setDmr_hf (k : Chip) (x : DamageRecorder) : (k.setDmr x).hf = k.hf := rfl
@[simp] theorem Chip.setDmr_hlc (k : Chip) (x : DamageRecorder) : (k.setDmr x).hlc = k.hlc := rfl
@[simp] theorem Chip.setDmr_dmr (k : Chip) (x : DamageRecorder) : (k.setDmr x).dmr = x := rfl
@[simp] theorem Chip.setDmr_fresh (k : Chip) (x : DamageRecorder) : (k.setDmr x).fresh = k.fresh := rfl
@[simp] theorem Chip.setDmr_twice (k : Chip) (x y : DamageRecorder) : (k.setDmr x).setDmr y = k.setDmr y := rfl

@[simp] theorem Chip.setFresh_regs (k : Chip) (x : Nat) : (k.setFresh x).regs = k.regs := rfl
@[simp] theorem Chip.setFresh_pd (k : Chip) (x : Nat) : (k.setFresh x).pd = k.pd := rfl
@[simp] theorem Chip.setFresh_sp (k : Chip) (x : Nat) : (k.setFresh x).sp = k.sp := rfl
@[simp] theorem Chip.setFresh_iu (k : Chip) (x : Nat) : (k.setFresh x).iu = k.iu := rfl
@[simp] theorem Chip.setFresh_psc (k : Chip) (x : Nat) : (k.setFresh x).psc = k.psc := rfl
@[simp] theorem Chip.setFresh_tl (k : Chip) (x : Nat) : (k.setFresh x).tl = k.tl := rfl
@[simp] theorem Chip.setFresh_br (k : Chip) (x : Nat) : (k.setFresh x).br = k.br := rfl
@[simp] theorem Chip.setFresh_imc (k : Chip) (x : Nat) : (k.setFresh x).imc = k.imc := rfl
@[simp] theorem Chip.setFresh_dtu (k : Chip) (x : Nat) : (k.setFresh x).dtu = k.dtu := rfl
@[simp] theorem Chip.setFresh_hf (k : Chip) (x : Nat) : (k.setFresh x).hf = k.hf := rfl
@[simp] theorem Chip.setFresh_hlc (k : Chip) (x : Nat) : (k.setFresh x).hlc = k.hlc := rfl
@[simp] theorem Chip.setFresh_dmr (k : Chip) (x : Nat) : (k.setFresh x).dmr = k.dmr := rfl
@[simp] theorem Chip.setFresh_fresh (k : Chip) (x : Nat) : (k.setFresh x).fresh = x := rfl
@[simp] theorem Chip.setFresh_twice (k : Chip) (x y : Nat) : (k.setFresh x).setFresh y = k.setFresh y := rfl

@[simp] theorem State.setPending_pending (s : State) (x : List Instr) : (s.setPending x).pending = x := rfl
@[simp] theorem State.setPending_store (s : State) (x : List Instr) : (s.setPending x).store = s.store := rfl
@[simp] theorem State.setPending_chip (s : State) (x : List Instr) : (s.setPending x).chip = s.chip := rfl

@[simp] theorem State.setStore_pending (s : State) (x : Memory) : (s.setStore x).pending = s.pending := rfl
@[simp] theorem State.setStore_store (s : State) (x : Memory) : (s.setStore x).store = x := rfl
@[simp] theorem State.setStore_chip (s : State) (x : Memory) : (s.setStore x).chip = s.chip := rfl

@[simp] theorem State.setChip_pending (s : State) (x : Chip) : (s.setChip x).pending = s.pending := rfl
@[simp] theorem State.setChip_store (s : State) (x : Chip) : (s.setChip x).store = s.store := rfl
@[simp] theorem State.setChip_chip (s : State) (x : Chip) : (s.setChip x).chip = x := rfl

end Sys2Proof.Machine
end

