-- ==== Sys2Proof/Laws/Frames.lean ====
section
/-! SUPPORT. What the operations of the blocks leave alone: the run state, the post queue, the layout record, the registers that only
the host's writes, the resets and START change, and of the Store Port everything but the tails of the block clients' queues. -/

namespace Sys2Proof.Machine

/-- The registers' fields that no block's work changes: RUN, EXPOSE_ENABLE, PLANT_CLOCK, ALERT_EN, the link and message settings. -/
def Registers.plain (r : Registers) : Bool × Bool × Word × BitVec 8 × Bool × Bool :=
  (r.run, r.exposeEnable, r.plantClock, r.alertEn, r.linkUp, r.msiEnabled)

/-- What of the Store Port no block's work changes: the HOST queue and the posts behind it, the served transfers, the fence and the weight. -/
def StorePort.core (p : StorePort) : List Transfer × List Served × Option PendingCheck × List DomainSettings × List StreamMapping ×
    List CacheEntry × Nat × Nat × List (Nat × Word) :=
  (p.host, p.served, p.check, p.domains, p.streams, p.cache, p.weight, p.weightPos, p.posts)

/-- Every waiting transfer stands in its own client's queue. -/
def StorePort.sorted (p : StorePort) : Prop := ∀ c, ∀ t ∈ p.waiting c, t.client = c

/-- The run state, the post queue, the layout record, the plain registers, and the Store Port but for the block clients' queues. -/
def Chip.ctl (k : Chip) : (RunState × List Word × Option LayoutRecord) × (Bool × Bool × Word × BitVec 8 × Bool × Bool) ×
    (List Transfer × List Served × Option PendingCheck × List DomainSettings × List StreamMapping × List CacheEntry × Nat × Nat ×
      List (Nat × Word)) × Prop :=
  ((k.pd.runState, k.pd.postQueue, k.pd.layout), k.regs.plain, k.sp.core, k.sp.sorted)

theorem Chip.setRegs_ctl (k : Chip) (x : Registers) (h : x.plain = k.regs.plain) : (k.setRegs x).ctl = k.ctl := by
  simp [Chip.ctl, h]

theorem Chip.setPd_ctl (k : Chip) (x : Dispatcher) (h1 : x.runState = k.pd.runState) (h2 : x.postQueue = k.pd.postQueue)
    (h3 : x.layout = k.pd.layout) : (k.setPd x).ctl = k.ctl := by
  simp [Chip.ctl, h1, h2, h3]

@[simp] theorem Chip.setIu_ctl (k : Chip) (x : IntakeUnit) : (k.setIu x).ctl = k.ctl := rfl
@[simp] theorem Chip.setPsc_ctl (k : Chip) (x : Scheduler) : (k.setPsc x).ctl = k.ctl := rfl
@[simp] theorem Chip.setTl_ctl (k : Chip) (x : TableLoader) : (k.setTl x).ctl = k.ctl := rfl
@[simp] theorem Chip.setBr_ctl (k : Chip) (x : BandRenderer) : (k.setBr x).ctl = k.ctl := rfl
@[simp] theorem Chip.setImc_ctl (k : Chip) (x : ImagingController) : (k.setImc x).ctl = k.ctl := rfl
@[simp] theorem Chip.setDtu_ctl (k : Chip) (x : DrumTiming) : (k.setDtu x).ctl = k.ctl := rfl
@[simp] theorem Chip.setHf_ctl (k : Chip) (x : HeadFeed) : (k.setHf x).ctl = k.ctl := rfl
@[simp] theorem Chip.setHlc_ctl (k : Chip) (x : HandlerLine) : (k.setHlc x).ctl = k.ctl := rfl
@[simp] theorem Chip.setDmr_ctl (k : Chip) (x : DamageRecorder) : (k.setDmr x).ctl = k.ctl := rfl
@[simp] theorem Chip.setFresh_ctl (k : Chip) (x : Nat) : (k.setFresh x).ctl = k.ctl := rfl

/-- A fold of operations that keep a projection keeps it. -/
theorem foldl_keeps {α β γ : Type} (P : β → γ) (f : β → α → β) (h : ∀ b a, P (f b a) = P b) (l : List α) (b : β) :
    P (l.foldl f b) = P b := by
  induction l generalizing b with
  | nil => rfl
  | cons a l ih => simp [ih, h]

/-! ### Flags -/

@[simp] theorem raise_ctl (c : Cause) (k : Chip) : (raise c k).ctl = k.ctl := rfl

/-! ### Ops -/

/-- A transfer of a block joins its client's queue, and the rest of the Store Port stays. -/
theorem issue_ctl (t : Transfer) (k : Chip) (h : t.client ≠ .host) : (issue t k).ctl = k.ctl := by
  have hs : (k.sp.setWaiting t.client (k.sp.waiting t.client ++ [t])).sorted = k.sp.sorted := by
    refine propext ⟨fun g c x hx => ?_, fun g c x hx => ?_⟩
    · refine g c x ?_
      revert hx
      cases hc : t.client <;> cases c <;> simp_all [StorePort.setWaiting, StorePort.waiting]
    · revert hx
      have hg := g c x
      revert hg
      cases hc : t.client <;> cases c <;> simp_all [StorePort.setWaiting, StorePort.waiting] <;>
        (rintro hg (hx | rfl); exacts [hg hx, hc])
  have hc : (k.sp.setWaiting t.client (k.sp.waiting t.client ++ [t])).core = k.sp.core := by
    cases hc : t.client <;> first | exact absurd hc h | rfl
  simp [issue, Chip.ctl, hs, hc]

theorem issueAll_ctl (ts : List Transfer) (k : Chip) (h : ∀ t ∈ ts, t.client ≠ .host) : (issueAll ts k).ctl = k.ctl := by
  induction ts generalizing k with
  | nil => rfl
  | cons t ts ih =>
    have := ih (issue t k) (fun x hx => h x (by simp [hx]))
    simpa [issueAll, issue_ctl t k (h t (by simp))] using this

@[simp] theorem issue_hf_ctl (m : Option Stream) (a : Nat) (op : XferOp) (p : Purpose) (n : List Notice) (k : Chip) :
    (issue ⟨.hf, m, a, op, p, n⟩ k).ctl = k.ctl := issue_ctl _ _ (by simp)
@[simp] theorem issue_br_ctl (m : Option Stream) (a : Nat) (op : XferOp) (p : Purpose) (n : List Notice) (k : Chip) :
    (issue ⟨.br, m, a, op, p, n⟩ k).ctl = k.ctl := issue_ctl _ _ (by simp)
@[simp] theorem issue_order_ctl (m : Option Stream) (a : Nat) (op : XferOp) (p : Purpose) (n : List Notice) (k : Chip) :
    (issue ⟨.report, m, a, op, p, n⟩ k).ctl = k.ctl := issue_ctl _ _ (by simp)
@[simp] theorem issue_report_ctl (a : Nat) (d : List Byte) (n : List Notice) (k : Chip) : (issue (reportWrite a d n) k).ctl = k.ctl :=
  issue_ctl _ _ (by simp [reportWrite])
@[simp] theorem issue_parseRead_ctl (q : Chip) (c o n : Nat) (k : Chip) : (issue (parseRead q c o n) k).ctl = k.ctl :=
  issue_ctl _ _ (by simp [parseRead])
@[simp] theorem issue_fill_ctl (f : Fill) (m : Stream) (a : Nat) (op : XferOp) (k : Chip) :
    (issue (fillTransfer f m a op) k).ctl = k.ctl := issue_ctl _ _ (by simp [fillTransfer])
@[simp] theorem reportWrite_client (a : Nat) (d : List Byte) (n : List Notice) : (reportWrite a d n).client = .report := rfl
@[simp] theorem iuWrite_client (a : Nat) (d : List Byte) (n : List Notice) : (iuWrite a d n).client = .iu := rfl
@[simp] theorem parseRead_client (k : Chip) (c o n : Nat) : (parseRead k c o n).client = .iu := rfl
@[simp] theorem fillTransfer_client (f : Fill) (m : Stream) (a : Nat) (op : XferOp) : (fillTransfer f m a op).client = .br := rfl

theorem withLastNotices_client {n : List Notice} {c : Client} {ts : List Transfer} (h : ∀ t ∈ ts, t.client = c) :
    ∀ t ∈ withLastNotices n ts, t.client = c := by
  induction ts with
  | nil => exact h
  | cons t ts ih =>
    cases ts with
    | nil => simpa [withLastNotices] using h
    | cons u us =>
      intro x hx
      simp only [withLastNotices, List.mem_cons] at hx
      rcases hx with rfl | hx
      · exact h _ (by simp)
      · exact ih (fun y hy => h y (by simp_all)) x hx

theorem markWrites_client (b : Nat) (sm : SlotMarks) (ps : Option (List Nat)) : ∀ t ∈ markWrites b sm ps, t.client = .report := by
  cases ps <;> simp +contextual [markWrites, or_imp]

theorem cellMapWrites_client (b : Nat) (m : BitVec 4096) (cs : List Nat) : ∀ t ∈ cellMapWrites b m cs, t.client = .iu := by
  simp [cellMapWrites]

theorem entryWrites_client (a : Nat) (x y : PageRecord) : ∀ t ∈ entryWrites a x y, t.client = .iu := by
  simp only [entryWrites, List.mem_append, List.mem_map]
  rintro t (⟨_, _, rfl⟩ | ⟨_, _, rfl⟩) <;> rfl

theorem foundingWrites_client (a : Nat) (y : PageRecord) : ∀ t ∈ foundingWrites a y, t.client = .iu := by
  simp only [foundingWrites, List.mem_append, List.mem_map, List.mem_cons, List.not_mem_nil, or_false]
  rintro t ((rfl | rfl | rfl | rfl) | ⟨_, _, rfl⟩) <;> rfl

theorem recordWrites_client (k : Chip) (e : IuEvent) : ∀ t ∈ recordWrites k e, t.client = .iu := by
  intro t ht
  simp only [recordWrites, List.mem_append, List.mem_flatMap] at ht
  rcases ht with ⟨i, _, hx⟩ | hx
  · split at hx
    · split at hx
      · simp at hx
      · exact entryWrites_client _ _ _ t hx
    · split at hx
      · exact foundingWrites_client _ _ t hx
      · split at hx
        · simp at hx
        · exact entryWrites_client _ _ _ t hx
  · exact withLastNotices_client (by simp) t hx

@[simp] theorem issueAll_mark_ctl (n : List Notice) (b : Nat) (sm : SlotMarks) (ps : Option (List Nat)) (k : Chip) :
    (issueAll (withLastNotices n (markWrites b sm ps)) k).ctl = k.ctl :=
  issueAll_ctl _ _ (fun t ht => by simp [withLastNotices_client (markWrites_client b sm ps) t ht])

@[simp] theorem issueAll_cell_ctl (b : Nat) (m : BitVec 4096) (cs : List Nat) (k : Chip) :
    (issueAll (cellMapWrites b m cs) k).ctl = k.ctl :=
  issueAll_ctl _ _ (fun t ht => by simp [cellMapWrites_client b m cs t ht])

@[simp] theorem pscWrite_ctl (addr : Nat) (data : List Byte) (notices : List Notice) (k : Chip) :
    (pscWrite addr data notices k).ctl = k.ctl := by
  unfold pscWrite
  simp only [Chip.setPsc_ctl, issue_report_ctl]

@[simp] theorem takeOffer_ctl (o : FaultOffer) (k : Chip) : (takeOffer o k).ctl = k.ctl := by
  unfold takeOffer; split <;> rfl

@[simp] theorem offerFault_ctl (o : FaultOffer) (k : Chip) :
    (offerFault o k).ctl = k.ctl := by
  unfold offerFault
  simp only [raise_ctl, issue_report_ctl, takeOffer_ctl, apply_ite Chip.ctl, ite_self]

/-- The acknowledgement of the fault record leaves the dispatcher and the host's settings alone. -/
theorem acknowledgeFault_host (k : Chip) : (acknowledgeFault k).pd = k.pd ∧ (acknowledgeFault k).regs.plain = k.regs.plain := by
  unfold acknowledgeFault; dsimp only
  split <;> exact ⟨rfl, rfl⟩

@[simp] theorem darken_ctl (k : Chip) :
    (darken k).ctl = k.ctl := by
  unfold darken
  simp only [Chip.setHf_ctl]

@[simp] theorem tellPsc_ctl (i : PscInput) (k : Chip) :
    (tellPsc i k).ctl = k.ctl := by
  unfold tellPsc
  simp only [Chip.setPsc_ctl]

@[simp] theorem Chip.setUnit_ctl (k : Chip) (u : HUnit) (x : UnitState) :
    (Chip.setUnit k u x).ctl = k.ctl := by
  unfold Chip.setUnit
  simp only [Chip.setHlc_ctl]

@[simp] theorem queueRequest_ctl (u : HUnit) (r : Request) (k : Chip) :
    (queueRequest u r k).ctl = k.ctl := by
  unfold queueRequest
  simp only [Chip.setUnit_ctl]

@[simp] theorem drawFresh_ctl (k : Chip) :
    (drawFresh k).ctl = k.ctl := by
  unfold drawFresh
  simp only [Chip.setFresh_ctl]

/-! ### Damage -/

@[simp] theorem recordMark_ctl (byPsc : Bool) (m : MarkReport) (k : Chip) :
    (recordMark byPsc m k).ctl = k.ctl := by
  unfold recordMark
  repeat' (first | simp only [Chip.setPsc_ctl, Chip.setDmr_ctl, issueAll_mark_ctl, apply_ite Chip.ctl, ite_self] | split)

@[simp] theorem reportMark_ctl (m : MarkReport) (k : Chip) :
    (reportMark m k).ctl = k.ctl := by
  unfold reportMark
  simp only [recordMark_ctl]

@[simp] theorem tellDisposition_ctl (d : Disposition) (k : Chip) :
    (tellDisposition d k).ctl = k.ctl := by
  unfold tellDisposition
  simp only [Chip.setPsc_ctl, tellPsc_ctl, apply_ite Chip.ctl, ite_self]

@[simp] theorem sendDisposition_ctl (k : Chip) :
    (sendDisposition k).ctl = k.ctl := by
  unfold sendDisposition
  repeat' (first | simp only [Chip.setDmr_ctl, tellDisposition_ctl, apply_ite Chip.ctl] | split)

/-! ### Intake -/

@[simp] theorem finishEvent_ctl (e : IuEvent) (parsed : Option Nat) (dirfull settle : Bool) (k : Chip) :
    (finishEvent e parsed dirfull settle k).ctl = k.ctl := by
  have hw : ∀ (n : List Notice) (b : Nat) (m : BitVec 4096) (cs : List Nat),
      ∀ t ∈ recordWrites k e ++ withLastNotices n (cellMapWrites b m cs), t.client = .iu := by
    intro n b m cs t ht
    rcases List.mem_append.mp ht with h | h
    · exact recordWrites_client k e t h
    · exact withLastNotices_client (cellMapWrites_client b m cs) t h
  have ha : ∀ (n m : List Notice) (b : Nat) (c : BitVec 4096) (cs : List Nat) (x : Chip),
      (issueAll (withLastNotices m (recordWrites k e ++ withLastNotices n (cellMapWrites b c cs))) x).ctl = x.ctl :=
    fun n m b c cs x => issueAll_ctl _ _ (fun t ht => by simp [withLastNotices_client (hw n b c cs) t ht])
  have hb : ∀ (n : List Notice) (b : Nat) (c : BitVec 4096) (cs : List Nat) (x : Chip),
      (issueAll (recordWrites k e ++ withLastNotices n (cellMapWrites b c cs)) x).ctl = x.ctl :=
    fun n b c cs x => issueAll_ctl _ _ (fun t ht => by simp [hw n b c cs t ht])
  unfold finishEvent
  simp only [Chip.setIu_ctl, ha, hb, apply_ite Chip.ctl, ite_self]

@[simp] theorem takeFragment_ctl (cell : Nat) (k : Chip) :
    (takeFragment cell k).ctl = k.ctl := by
  unfold takeFragment
  simp only [Chip.setIu_ctl, raise_ctl, issueAll_cell_ctl, apply_ite Chip.ctl, ite_self]

@[simp] theorem takeDrop_ctl (key : PageKey) (k : Chip) :
    (takeDrop key k).ctl = k.ctl := by
  unfold takeDrop
  simp only [Chip.setIu_ctl]

@[simp] theorem parseBegin_ctl (k : Chip) :
    (parseBegin k).ctl = k.ctl := by
  unfold parseBegin
  repeat' (first | simp only [Chip.setIu_ctl, issue_parseRead_ctl, apply_ite Chip.ctl] | split)

@[simp] theorem parseArrives_ctl (data : List Byte) (k : Chip) :
    (parseArrives data k).ctl = k.ctl := by
  unfold parseArrives
  repeat' (first | simp only [Chip.setIu_ctl, issue_parseRead_ctl] | split)

@[simp] theorem parseEnd_ctl (k : Chip) :
    (parseEnd k).ctl = k.ctl := by
  unfold parseEnd
  repeat' (first | simp only [finishEvent_ctl, apply_ite Chip.ctl, ite_self] | split)

@[simp] theorem parseFenced_ctl (k : Chip) :
    (parseFenced k).ctl = k.ctl := by
  unfold parseFenced
  repeat' (first | simp only [finishEvent_ctl] | split)

@[simp] theorem dropApply_ctl (k : Chip) :
    (dropApply k).ctl = k.ctl := by
  unfold dropApply
  repeat' (first | simp only [finishEvent_ctl, apply_ite Chip.ctl] | split)

@[simp] theorem snapshotRequest_ctl (sep : Nat) (positions : List Position) (k : Chip) :
    (snapshotRequest sep positions k).2.ctl = k.ctl := by
  unfold snapshotRequest
  split <;> simp only [finishEvent_ctl]

@[simp] theorem unpinRequest_ctl (snap : List PosSnap) (k : Chip) : (unpinRequest snap k).ctl = k.ctl := by
  unfold unpinRequest
  simp only [finishEvent_ctl]

@[simp] theorem damageReport_ctl (idx : Nat) (patch : Bool) (x n cell off : Nat) (k : Chip) :
    (damageReport idx patch x n cell off k).ctl = k.ctl := by
  unfold damageReport
  repeat' (first | simp only [finishEvent_ctl] | split)

/-! ### Imager -/

@[simp] theorem setTarget_ctl (rpm : Nat) (k : Chip) :
    (setTarget rpm k).ctl = k.ctl := by
  unfold setTarget
  simp only [Chip.setImc_ctl, Chip.setDtu_ctl, apply_ite Chip.ctl, ite_self]

@[simp] theorem goTo_ctl (st : ImagerState) (k : Chip) :
    (goTo st k).ctl = k.ctl := by
  unfold goTo
  repeat' (first | simp only [Chip.setImc_ctl, darken_ctl, setTarget_ctl] | split)

@[simp] theorem setExposure_ctl (e : Exposure) (k : Chip) :
    (setExposure e k).ctl = k.ctl := by
  unfold setExposure
  simp only [Chip.setImc_ctl]

@[simp] theorem setDrum_ctl (d : Option Drum) (k : Chip) :
    (setDrum d k).ctl = k.ctl := by
  unfold setDrum
  simp only [Chip.setImc_ctl]

@[simp] theorem setWaitingPlate_ctl (p : Option PlateRef) (k : Chip) :
    (setWaitingPlate p k).ctl = k.ctl := by
  unfold setWaitingPlate
  simp only [Chip.setImc_ctl]

@[simp] theorem recordPause_ctl (r : PauseReason) (k : Chip) :
    (recordPause r k).ctl = k.ctl := by
  unfold recordPause
  repeat' (first | simp only [Chip.setImc_ctl, raise_ctl, goTo_ctl, apply_ite Chip.ctl, ite_self] | split)

@[simp] theorem enterSettling_ctl (p : PlateRef) (k : Chip) :
    (enterSettling p k).ctl = k.ctl := by
  unfold enterSettling
  simp only [goTo_ctl, setExposure_ctl]

@[simp] theorem writePair_ctl (format : Nat) (k : Chip) :
    (writePair format k).ctl = k.ctl := by
  unfold writePair
  simp only [Chip.setDtu_ctl]

@[simp] theorem takeUp_ctl (k : Chip) :
    (takeUp k).ctl = k.ctl := by
  unfold takeUp
  repeat' (first | simp only [Chip.setImc_ctl, queueRequest_ctl, goTo_ctl, setDrum_ctl, setWaitingPlate_ctl, enterSettling_ctl, setExposure_ctl, writePair_ctl, apply_ite Chip.ctl, ite_self] | split)

@[simp] theorem handPlate_ctl (p : PlateRef) (k : Chip) :
    (handPlate p k).ctl = k.ctl := by
  unfold handPlate
  simp only [setWaitingPlate_ctl, takeUp_ctl]

@[simp] theorem settleByDrum_ctl (k : Chip) :
    (settleByDrum k).ctl = k.ctl := by
  unfold settleByDrum
  repeat' (first | simp only [goTo_ctl, enterSettling_ctl, takeUp_ctl] | split)

@[simp] theorem afterRequest_ctl (k : Chip) :
    (afterRequest k).ctl = k.ctl := by
  unfold afterRequest
  simp only [goTo_ctl, settleByDrum_ctl, apply_ite Chip.ctl, ite_self]

@[simp] theorem loadEnd_ctl (r : LoadEnd) (k : Chip) :
    (loadEnd r k).ctl = k.ctl := by
  unfold loadEnd
  repeat' (first | simp only [Chip.setImc_ctl, Chip.setDtu_ctl, setDrum_ctl, setWaitingPlate_ctl, recordPause_ctl, writePair_ctl, afterRequest_ctl, apply_ite Chip.ctl, ite_self] | split)

@[simp] theorem hfFetchOne_ctl (k : Chip) :
    (hfFetchOne k).ctl = k.ctl := by
  unfold hfFetchOne
  repeat' (first | simp only [Chip.setHf_ctl, issue_hf_ctl, apply_ite Chip.ctl, ite_self] | split)

@[simp] theorem hfFetch_ctl (k : Chip) :
    (hfFetch k).ctl = k.ctl := by
  unfold hfFetch
  simp only [hfFetchOne_ctl]

@[simp] theorem startPass_ctl (buffer width : Nat) (k : Chip) :
    (startPass buffer width k).ctl = k.ctl := by
  unfold startPass
  simp only [Chip.setHf_ctl, hfFetch_ctl]

@[simp] theorem endPass_ctl (k : Chip) :
    (endPass k).ctl = k.ctl := by
  unfold endPass
  simp only [Chip.setHf_ctl]

@[simp] theorem rowSetArrives_ctl (pass j : Nat) (data : List Byte) (k : Chip) :
    (rowSetArrives pass j data k).ctl = k.ctl := by
  unfold rowSetArrives
  repeat' (first | simp only [Chip.setHf_ctl, hfFetch_ctl, apply_ite Chip.ctl, ite_self] | split)

@[simp] theorem freeDraining_ctl (k : Chip) :
    (freeDraining k).ctl = k.ctl := by
  unfold freeDraining
  simp only [Chip.setBr_ctl]

@[simp] theorem imcMark_ctl (p : PlateRef) (kind : MarkKind) (detail : Nat) (place : Place) (k : Chip) :
    (imcMark p kind detail place k).ctl = k.ctl := by
  unfold imcMark
  simp only [reportMark_ctl]

@[simp] theorem condemn_ctl (cond : Condition) (confirmed : Bool) (k : Chip) :
    (condemn cond confirmed k).ctl = k.ctl := by
  unfold condemn
  repeat' (first | simp only [setDrum_ctl] | split)

@[simp] theorem reportExposureEnd_ctl (p : PlateRef) (exposed holds : Nat) (k : Chip) :
    (reportExposureEnd p exposed holds k).ctl = k.ctl := by
  unfold reportExposureEnd
  simp only [tellPsc_ctl]

@[simp] theorem endExposure_ctl (p : PlateRef) (finding : Option (MarkKind × Nat)) (k : Chip) :
    (endExposure p finding k).ctl = k.ctl := by
  unfold endExposure
  repeat' (first | simp only [goTo_ctl, setExposure_ctl, endPass_ctl, freeDraining_ctl, imcMark_ctl, condemn_ctl, reportExposureEnd_ctl, apply_ite Chip.ctl, ite_self] | split)

@[simp] theorem exposureComplete_ctl (p : PlateRef) (k : Chip) :
    (exposureComplete p k).ctl = k.ctl := by
  unfold exposureComplete
  simp only [goTo_ctl, endPass_ctl, condemn_ctl, reportExposureEnd_ctl, apply_ite Chip.ctl, ite_self]

@[simp] theorem offerSlip_ctl (detail : Nat) (k : Chip) :
    (offerSlip detail k).ctl = k.ctl := by
  unfold offerSlip
  simp only [offerFault_ctl]

@[simp] theorem reverseCount_ctl (k : Chip) :
    (reverseCount k).ctl = k.ctl := by
  unfold reverseCount
  repeat' (first | simp only [endExposure_ctl, offerSlip_ctl, apply_ite Chip.ctl, ite_self] | split)

@[simp] theorem underrun_ctl (k : Chip) :
    (underrun k).ctl = k.ctl := by
  unfold underrun
  repeat' (first | simp only [endPass_ctl, endExposure_ctl] | split)

@[simp] theorem feedDot_ctl (ps : Pass) (d : Nat) (k : Chip) :
    (feedDot ps d k).ctl = k.ctl := by
  unfold feedDot
  repeat' (first | simp only [Chip.setHf_ctl, hfFetch_ctl, underrun_ctl, apply_ite Chip.ctl, ite_self] | split)

@[simp] theorem feedAtCount_ctl (k : Chip) :
    (feedAtCount k).ctl = k.ctl := by
  unfold feedAtCount
  repeat' (first | simp only [Chip.setHf_ctl, endPass_ctl, feedDot_ctl, apply_ite Chip.ctl, ite_self] | split)

@[simp] theorem countUp_ctl (k : Chip) :
    (countUp k).ctl = k.ctl := by
  unfold countUp
  simp only [Chip.setDtu_ctl, feedAtCount_ctl]

@[simp] theorem countDown_ctl (k : Chip) :
    (countDown k).ctl = k.ctl := by
  unfold countDown
  simp only [Chip.setDtu_ctl, reverseCount_ctl]

@[simp] theorem encoderEdge_ctl (e : EncoderEdge) (k : Chip) :
    (encoderEdge e k).ctl = k.ctl := by
  unfold encoderEdge
  repeat' (first | simp only [Chip.setDtu_ctl, drawFresh_ctl, countUp_ctl, countDown_ctl, apply_ite Chip.ctl, ite_self] | split)

@[simp] theorem captureIndex_ctl (k : Chip) (elapsed : Nat) :
    (captureIndex k elapsed).ctl = k.ctl := by
  unfold captureIndex
  simp only [Chip.setDtu_ctl]

@[simp] theorem enterExposing_ctl (p : PlateRef) (k : Chip) :
    (enterExposing p k).ctl = k.ctl := by
  unfold enterExposing
  simp only [Chip.setHf_ctl, tellPsc_ctl, goTo_ctl, setExposure_ctl]

@[simp] theorem settleIndex_ctl (p : PlateRef) (rating : Option Rating) (k : Chip) :
    (settleIndex p rating k).ctl = k.ctl := by
  unfold settleIndex
  repeat' (first | simp only [setExposure_ctl, offerSlip_ctl, enterExposing_ctl, apply_ite Chip.ctl, ite_self] | split)

@[simp] theorem countHold_ctl (p : PlateRef) (outOfWindow : Bool) (k : Chip) :
    (countHold p outOfWindow k).ctl = k.ctl := by
  unfold countHold
  simp only [setExposure_ctl, endExposure_ctl, apply_ite Chip.ctl, ite_self]

@[simp] theorem swathStart_ctl (p : PlateRef) (rating : Option Rating) (k : Chip) :
    (swathStart p rating k).ctl = k.ctl := by
  unfold swathStart
  repeat' (first | simp only [Chip.setBr_ctl, setExposure_ctl, startPass_ctl, countHold_ctl, apply_ite Chip.ctl] | split)

@[simp] theorem swathComplete_ctl (k : Chip) :
    (swathComplete k).ctl = k.ctl := by
  unfold swathComplete
  simp only [Chip.setHf_ctl, setExposure_ctl, freeDraining_ctl]

@[simp] theorem passStep_ctl (p : PlateRef) (rating : Option Rating) (k : Chip) :
    (passStep p rating k).ctl = k.ctl := by
  unfold passStep
  repeat' (first | simp only [setExposure_ctl, startPass_ctl, endExposure_ctl, exposureComplete_ctl, swathStart_ctl, swathComplete_ctl, apply_ite Chip.ctl, ite_self] | split)

@[simp] theorem exposeIndex_ctl (p : PlateRef) (rating : Option Rating) (k : Chip) :
    (exposeIndex p rating k).ctl = k.ctl := by
  unfold exposeIndex
  simp only [endExposure_ctl, offerSlip_ctl, swathStart_ctl, swathComplete_ctl, passStep_ctl, apply_ite Chip.ctl, ite_self]

@[simp] theorem imagerIndex_ctl (rating : Option Rating) (k : Chip) :
    (imagerIndex rating k).ctl = k.ctl := by
  unfold imagerIndex
  repeat' (first | simp only [settleIndex_ctl, exposeIndex_ctl, apply_ite Chip.ctl] | split)

@[simp] theorem indexPulse_ctl (elapsed : Nat) (k : Chip) :
    (indexPulse elapsed k).ctl = k.ctl := by
  unfold indexPulse
  simp only [endPass_ctl, feedAtCount_ctl, captureIndex_ctl, imagerIndex_ctl, apply_ite Chip.ctl, ite_self]

@[simp] theorem channelFault_ctl (ch : BitVec 6) (k : Chip) :
    (channelFault ch k).ctl = k.ctl := by
  unfold channelFault
  repeat' (first | simp only [Chip.setImc_ctl, darken_ctl, recordPause_ctl, endExposure_ctl, apply_ite Chip.ctl, ite_self] | split)

@[simp] theorem headClear_ctl (k : Chip) :
    (headClear k).ctl = k.ctl := by
  unfold headClear
  simp only [Chip.setImc_ctl, apply_ite Chip.ctl, ite_self]

@[simp] theorem interlockFall_ctl (k : Chip) :
    (interlockFall k).ctl = k.ctl := by
  unfold interlockFall
  repeat' (first | simp only [darken_ctl, recordPause_ctl, endExposure_ctl, apply_ite Chip.ctl, ite_self] | split)

@[simp] theorem releaseBlank_ctl (d : Drum) (k : Chip) :
    (releaseBlank d k).ctl = k.ctl := by
  unfold releaseBlank
  simp only [setExposure_ctl, setDrum_ctl, afterRequest_ctl]

@[simp] theorem withdrawDrumPlate_ctl (d : Drum) (p : PlateRef) (k : Chip) :
    (withdrawDrumPlate d p k).ctl = k.ctl := by
  unfold withdrawDrumPlate
  repeat' (first | simp only [setDrum_ctl, reportExposureEnd_ctl, endExposure_ctl, releaseBlank_ctl, apply_ite Chip.ctl, ite_self] | split)

@[simp] theorem imcWithdraw_ctl (slot attempt : Nat) (k : Chip) :
    (imcWithdraw slot attempt k).ctl = k.ctl := by
  unfold imcWithdraw
  repeat' (first | simp only [Chip.setImc_ctl, setWaitingPlate_ctl, withdrawDrumPlate_ctl, apply_ite Chip.ctl, ite_self] | split)

@[simp] theorem imcBreak_ctl (slot attempt : Nat) (k : Chip) :
    (imcBreak slot attempt k).ctl = k.ctl := by
  unfold imcBreak
  repeat' (first | simp only [setExposure_ctl, imcMark_ctl, condemn_ctl, apply_ite Chip.ctl, ite_self] | split)

@[simp] theorem imcSpoilWord_ctl (slot attempt : Nat) (k : Chip) :
    (imcSpoilWord slot attempt k).ctl = k.ctl := by
  unfold imcSpoilWord
  repeat' (first | simp only [condemn_ctl, endExposure_ctl, withdrawDrumPlate_ctl, apply_ite Chip.ctl, ite_self] | split)

@[simp] theorem clearHolds_ctl (k : Chip) :
    (clearHolds k).ctl = k.ctl := by
  unfold clearHolds
  simp only [setExposure_ctl]

@[simp] theorem issueUnload_ctl (k : Chip) :
    (issueUnload k).ctl = k.ctl := by
  unfold issueUnload
  repeat' (first | simp only [queueRequest_ctl, goTo_ctl, apply_ite Chip.ctl, ite_self] | split)

@[simp] theorem reportDeferred_ctl (place : Place) (k : Chip) :
    (reportDeferred place k).ctl = k.ctl := by
  unfold reportDeferred
  repeat' (first | simp only [setExposure_ctl, imcMark_ctl, apply_ite Chip.ctl] | split)

@[simp] theorem unloadFailed_ctl (k : Chip) :
    (unloadFailed k).ctl = k.ctl := by
  unfold unloadFailed
  simp only [Chip.setDtu_ctl, goTo_ctl, reportDeferred_ctl, apply_ite Chip.ctl, ite_self]

@[simp] theorem takeUnloadEnd_ctl (k : Chip) :
    (takeUnloadEnd k).ctl = k.ctl := by
  unfold takeUnloadEnd
  simp only [Chip.setHlc_ctl, setExposure_ctl, setDrum_ctl, afterRequest_ctl, reportDeferred_ctl, apply_ite Chip.ctl, ite_self]

@[simp] theorem releaseUnits_ctl (k : Chip) :
    (releaseUnits k).ctl = k.ctl := by
  unfold releaseUnits
  simp only [Chip.setHlc_ctl]

@[simp] theorem applyResume_ctl (k : Chip) :
    (applyResume k).ctl = k.ctl := by
  unfold applyResume
  simp only [Chip.setImc_ctl, raise_ctl, settleByDrum_ctl, releaseUnits_ctl, apply_ite Chip.ctl, ite_self]

/-! ### Renderer -/

@[simp] theorem discard_ctl (slot attempt : Nat) (k : Chip) :
    (discard slot attempt k).ctl = k.ctl := by
  unfold discard
  simp only [Chip.setBr_ctl]

@[simp] theorem joinRender_ctl (e : RenderEntry) (k : Chip) :
    (joinRender e k).ctl = k.ctl := by
  unfold joinRender
  simp only [Chip.setBr_ctl]

@[simp] theorem restart_ctl (e : RenderEntry) (k : Chip) :
    (restart e k).ctl = k.ctl := by
  unfold restart
  simp only [Chip.setBr_ctl]

@[simp] theorem updateEntry_ctl (slot attempt : Nat) (g : RenderEntry → RenderEntry) (k : Chip) :
    (updateEntry slot attempt g k).ctl = k.ctl := by
  unfold updateEntry
  simp only [Chip.setBr_ctl]

@[simp] theorem setFill_ctl (f : Fill) (k : Chip) :
    (setFill f k).ctl = k.ctl := by
  unfold setFill
  simp only [Chip.setBr_ctl]

@[simp] theorem findingMark_ctl (f : Fill) (key : PageKey) (patch : Option Nat) (k : Chip) :
    (findingMark f key patch k).ctl = k.ctl := by
  unfold findingMark
  repeat' (first | simp only [reportMark_ctl, updateEntry_ctl, apply_ite Chip.ctl, ite_self] | split)

@[simp] theorem decodeFinding_ctl (f : Fill) (it : FillItem) (sep : Nat) (k : Chip) :
    (decodeFinding f it sep k).ctl = k.ctl := by
  unfold decodeFinding
  repeat' (first | simp only [damageReport_ctl, findingMark_ctl] | split)

@[simp] theorem nextRowSet_ctl (f : Fill) (k : Chip) :
    (nextRowSet f k).ctl = k.ctl := by
  unfold nextRowSet
  repeat' (first | simp only [issue_fill_ctl, setFill_ctl, apply_ite Chip.ctl, ite_self] | split)

@[simp] theorem nextRead_ctl (f : Fill) (a : Nat × Nat) (rest : List (Nat × Nat)) (k : Chip) :
    (nextRead f a rest k).ctl = k.ctl := by
  unfold nextRead
  simp only [issue_fill_ctl, setFill_ctl]

@[simp] theorem runItems_ctl (sep : Nat) (its : List FillItem) (f : Fill) (k : Chip) :
    (runItems sep its f k).ctl = k.ctl := by
  induction its generalizing f k with
  | nil => simp only [runItems, nextRowSet_ctl]
  | cons it rest ih =>
    unfold runItems
    split
    · simp only [nextRead_ctl]
    · dsimp only
      rw [ih]
      split <;> simp only [decodeFinding_ctl]

@[simp] theorem startItems_ctl (f : Fill) (k : Chip) : (startItems f k).ctl = k.ctl := by
  unfold startItems
  split
  · simp only [setFill_ctl]
  · dsimp only
    rw [runItems_ctl]

@[simp] theorem entriesRead_ctl (f : Fill) (k : Chip) : (entriesRead f k).ctl = k.ctl := by
  unfold entriesRead
  rw [startItems_ctl]
  exact foldl_keeps Chip.ctl _ (fun b e => by simp) _ k

@[simp] theorem fillArrives_ctl (id : Nat) (isWrite : Bool) (data : List Byte) (k : Chip) :
    (fillArrives id isWrite data k).ctl = k.ctl := by
  unfold fillArrives
  repeat' (first | simp only [nextRowSet_ctl, nextRead_ctl, entriesRead_ctl, runItems_ctl] | split)

@[simp] theorem beginFill_ctl (m : Memory) (e : RenderEntry) (k : Chip) :
    (beginFill m e k).ctl = k.ctl := by
  unfold beginFill
  repeat' (first | simp only [Chip.setBr_ctl, updateEntry_ctl, nextRowSet_ctl, nextRead_ctl] | split)

@[simp] theorem fillBegin_ctl (m : Memory) (k : Chip) :
    (fillBegin m k).ctl = k.ctl := by
  unfold fillBegin
  repeat' (first | simp only [beginFill_ctl, apply_ite Chip.ctl, ite_self] | split)

@[simp] theorem fillEnd_ctl (k : Chip) :
    (fillEnd k).ctl = k.ctl := by
  unfold fillEnd
  repeat' (first | simp only [Chip.setBr_ctl, tellPsc_ctl, updateEntry_ctl, apply_ite Chip.ctl, ite_self] | split)

@[simp] theorem fillRefused_ctl (id slot attempt swath streamNo : Nat) (k : Chip) :
    (fillRefused id slot attempt swath streamNo k).ctl = k.ctl := by
  unfold fillRefused
  repeat' (first | simp only [Chip.setBr_ctl, reportMark_ctl, updateEntry_ctl, apply_ite Chip.ctl, ite_self] | split)

@[simp] theorem reachPoint_ctl (k : Chip) :
    (reachPoint k).ctl = k.ctl := by
  unfold reachPoint
  repeat' (first | simp only [Chip.setTl_ctl, Chip.setBr_ctl, apply_ite Chip.ctl, ite_self] | split)

@[simp] theorem pointFailed_ctl (e : RenderEntry) (t : TableId) (k : Chip) :
    (pointFailed e t k).ctl = k.ctl := by
  unfold pointFailed
  simp only [reportMark_ctl, updateEntry_ctl]

@[simp] theorem pointEnd_ctl (m : Memory) (k : Chip) :
    (pointEnd m k).ctl = k.ctl := by
  unfold pointEnd
  repeat' (first | simp only [Chip.setTl_ctl, Chip.setBr_ctl, beginFill_ctl, pointFailed_ctl, apply_ite Chip.ctl, ite_self] | split)

/-! ### Loader -/

@[simp] theorem takeTable_ctl (id : TableId) (k : Chip) :
    (takeTable id k).ctl = k.ctl := by
  unfold takeTable
  simp only [Chip.setTl_ctl, apply_ite Chip.ctl, ite_self]

@[simp] theorem setReload_ctl (r : Option Reload) (k : Chip) :
    (setReload r k).ctl = k.ctl := by
  unfold setReload
  simp only [Chip.setTl_ctl]

@[simp] theorem reloadRead_ctl (r : Reload) (a : Nat × Nat) (rest : List (Nat × Nat)) (k : Chip) :
    (reloadRead r a rest k).ctl = k.ctl := by
  unfold reloadRead
  simp only [issue_br_ctl, setReload_ctl]

@[simp] theorem reloadNext_ctl (r : Reload) (k : Chip) :
    (reloadNext r k).ctl = k.ctl := by
  unfold reloadNext
  repeat' (first | simp only [setReload_ctl, reloadRead_ctl] | split)

@[simp] theorem beginReload_ctl (id : TableId) (due : Bool) (k : Chip) :
    (beginReload id due k).ctl = k.ctl := by
  unfold beginReload
  simp only [reloadNext_ctl]

@[simp] theorem reloadArrives_ctl (data : List Byte) (k : Chip) :
    (reloadArrives data k).ctl = k.ctl := by
  unfold reloadArrives
  repeat' (first | simp only [setReload_ctl, reloadNext_ctl, apply_ite Chip.ctl, ite_self] | split)

@[simp] theorem reloadRefused_ctl (k : Chip) :
    (reloadRefused k).ctl = k.ctl := by
  unfold reloadRefused
  repeat' (first | simp only [setReload_ctl] | split)

@[simp] theorem reloadBegin_ctl (k : Chip) :
    (reloadBegin k).ctl = k.ctl := by
  unfold reloadBegin
  repeat' (first | simp only [Chip.setTl_ctl, beginReload_ctl, apply_ite Chip.ctl, ite_self] | split)

@[simp] theorem retakeValues_ctl (p : PlateRef) (k : Chip) :
    (retakeValues p k).ctl = k.ctl := by
  unfold retakeValues
  simp only [setTarget_ctl, setExposure_ctl, apply_ite Chip.ctl, ite_self]

@[simp] theorem profileLost_ctl (id : TableId) (k : Chip) :
    (profileLost id k).ctl = k.ctl := by
  unfold profileLost
  repeat' (first | simp only [reportMark_ctl] | split)

@[simp] theorem drumRetakes_ctl (id : TableId) (k : Chip) :
    (drumRetakes id k).ctl = k.ctl := by
  unfold drumRetakes
  repeat' (first | simp only [retakeValues_ctl, apply_ite Chip.ctl, ite_self] | split)

@[simp] theorem profileReloaded_ctl (id : TableId) (k : Chip) :
    (profileReloaded id k).ctl = k.ctl := by
  unfold profileReloaded
  simp only [drumRetakes_ctl, profileLost_ctl]

@[simp] theorem queueClear_ctl (u : HUnit) (k : Chip) :
    (queueClear u k).ctl = k.ctl := by
  unfold queueClear
  simp only [Chip.setUnit_ctl]

@[simp] theorem beginClears_ctl (k : Chip) : (beginClears k).ctl = k.ctl := by
  unfold beginClears
  simp only [queueClear_ctl]
  rfl

@[simp] theorem reloadEnd_ctl (k : Chip) :
    (reloadEnd k).ctl = k.ctl := by
  unfold reloadEnd
  repeat' (first | simp only [Chip.setTl_ctl, profileReloaded_ctl, beginClears_ctl, apply_ite Chip.ctl, ite_self] | split)

/-! ### Handler -/

@[simp] theorem exchangeStart_ctl (k : Chip) :
    (exchangeStart k).ctl = k.ctl := by
  unfold exchangeStart
  repeat' (first | simp only [Chip.setHlc_ctl, Chip.setUnit_ctl, apply_ite Chip.ctl] | split)

@[simp] theorem holdUnit_ctl (u : HUnit) (cause : HoldCause) (detail : Nat) (k : Chip) :
    (holdUnit u cause detail k).ctl = k.ctl := by
  unfold holdUnit
  simp only [offerFault_ctl, Chip.setUnit_ctl, recordPause_ctl, apply_ite Chip.ctl, ite_self]

@[simp] theorem putBack_ctl (u : HUnit) (r : Request) (k : Chip) :
    (putBack u r k).ctl = k.ctl := by
  unfold putBack
  simp only [Chip.setUnit_ctl]

@[simp] theorem setCarrier_ctl (n : Nat) (c : Carrier) (k : Chip) :
    (setCarrier n c k).ctl = k.ctl := by
  unfold setCarrier
  simp only [Chip.setHlc_ctl]

@[simp] theorem removeCarrier_ctl (n : Nat) (c : Carrier) (k : Chip) :
    (removeCarrier n c k).ctl = k.ctl := by
  unfold removeCarrier
  simp only [Chip.setHlc_ctl, tellPsc_ctl]

@[simp] theorem stageEnd_ctl (st : Stage) (k : Chip) :
    (stageEnd st k).ctl = k.ctl := by
  unfold stageEnd
  repeat' (first | simp only [queueRequest_ctl, setCarrier_ctl, removeCarrier_ctl] | split)

@[simp] theorem spoilAtStage_ctl (st : Stage) (kind : MarkKind) (detail : Nat) (k : Chip) :
    (spoilAtStage st kind detail k).ctl = k.ctl := by
  unfold spoilAtStage
  repeat' (first | simp only [reportMark_ctl, setCarrier_ctl, apply_ite Chip.ctl, ite_self] | split)

@[simp] theorem spoilCarriers_ctl (slot attempt : Nat) (k : Chip) :
    (spoilCarriers slot attempt k).ctl = k.ctl := by
  unfold spoilCarriers
  simp only [Chip.setHlc_ctl, apply_ite Chip.ctl, ite_self]

@[simp] theorem unloadDone_ctl (k : Chip) :
    (unloadDone k).ctl = k.ctl := by
  unfold unloadDone
  repeat' (first | simp only [Chip.setDtu_ctl, Chip.setHlc_ctl, tellPsc_ctl] | split)

@[simp] theorem carrierTaken_ctl (k : Chip) :
    (carrierTaken k).ctl = k.ctl := by
  unfold carrierTaken
  repeat' (first | simp only [Chip.setHlc_ctl, queueRequest_ctl] | split)

@[simp] theorem punchEnds_ctl (r : Request) (e : RequestEnd) (k : Chip) :
    (punchEnds r e k).ctl = k.ctl := by
  unfold punchEnds
  repeat' (first | simp only [holdUnit_ctl, putBack_ctl, stageEnd_ctl, spoilAtStage_ctl] | split)

@[simp] theorem processorEnds_ctl (r : Request) (e : RequestEnd) (k : Chip) :
    (processorEnds r e k).ctl = k.ctl := by
  unfold processorEnds
  repeat' (first | simp only [holdUnit_ctl, putBack_ctl, stageEnd_ctl, spoilAtStage_ctl] | split)

@[simp] theorem sorterEnds_ctl (r : Request) (e : RequestEnd) (k : Chip) :
    (sorterEnds r e k).ctl = k.ctl := by
  unfold sorterEnds
  repeat' (first | simp only [holdUnit_ctl, putBack_ctl, stageEnd_ctl] | split)

@[simp] theorem freeLine_ctl (k : Chip) :
    (freeLine k).ctl = k.ctl := by
  unfold freeLine
  simp only [Chip.setHlc_ctl]

@[simp] theorem restartPoll_ctl (u : HUnit) (k : Chip) :
    (restartPoll u k).ctl = k.ctl := by
  unfold restartPoll
  repeat' (first | simp only [Chip.setUnit_ctl] | split)

@[simp] theorem holdOffline_ctl (u : HUnit) (k : Chip) :
    (holdOffline u k).ctl = k.ctl := by
  unfold holdOffline
  simp only [offerFault_ctl, Chip.setUnit_ctl, recordPause_ctl]

@[simp] theorem busyRetryExpires_ctl (u : HUnit) (k : Chip) :
    (busyRetryExpires u k).ctl = k.ctl := by
  unfold busyRetryExpires
  repeat' (first | simp only [Chip.setUnit_ctl, apply_ite Chip.ctl] | split)

@[simp] theorem pollTimerExpires_ctl (u : HUnit) (k : Chip) :
    (pollTimerExpires u k).ctl = k.ctl := by
  unfold pollTimerExpires
  repeat' (first | simp only [Chip.setUnit_ctl, apply_ite Chip.ctl] | split)

@[simp] theorem timeoutMark_ctl (u : HUnit) (r : Request) (k : Chip) :
    (timeoutMark u r k).ctl = k.ctl := by
  unfold timeoutMark
  repeat' (first | simp only [reportMark_ctl] | split)

/-! ### Scheduler -/

@[simp] theorem setPlate_ctl (slot : Nat) (p : Plate) (k : Chip) :
    (setPlate slot p k).ctl = k.ctl := by
  unfold setPlate
  simp only [Chip.setPsc_ctl]

@[simp] theorem updPlate_ctl (slot : Nat) (g : Plate → Plate) (k : Chip) :
    (updPlate slot g k).ctl = k.ctl := by
  unfold updPlate
  repeat' (first | simp only [setPlate_ctl] | split)

@[simp] theorem leaveReady_ctl (slot : Nat) (k : Chip) :
    (leaveReady slot k).ctl = k.ctl := by
  unfold leaveReady
  simp only [Chip.setPsc_ctl]

@[simp] theorem pscMark_ctl (m : MarkReport) (k : Chip) :
    (pscMark m k).ctl = k.ctl := by
  unfold pscMark
  simp only [recordMark_ctl]

@[simp] theorem checkLate_ctl (slot : Nat) (clock : Word) (k : Chip) :
    (checkLate slot clock k).ctl = k.ctl := by
  unfold checkLate
  repeat' (first | simp only [setPlate_ctl, pscMark_ctl, apply_ite Chip.ctl, ite_self] | split)

@[simp] theorem checkOverdue_ctl (slot : Nat) (clock : Word) (k : Chip) :
    (checkOverdue slot clock k).ctl = k.ctl := by
  unfold checkOverdue
  repeat' (first | simp only [setPlate_ctl, pscMark_ctl, apply_ite Chip.ctl, ite_self] | split)

@[simp] theorem setAllReady_ctl (b : Bool) (k : Chip) :
    (setAllReady b k).ctl = k.ctl := by
  unfold setAllReady
  simp only [Chip.setPsc_ctl]

@[simp] theorem lookAt_ctl (slot n : Nat) (k : Chip) :
    (lookAt slot n k).ctl = k.ctl := by
  unfold lookAt
  repeat' (first | simp only [setAllReady_ctl, pscMark_ctl, apply_ite Chip.ctl, ite_self] | split)

@[simp] theorem enterReady_ctl (slot : Nat) (k : Chip) :
    (enterReady slot k).ctl = k.ctl := by
  unfold enterReady
  simp only [Chip.setPsc_ctl, updPlate_ctl]

@[simp] theorem enterWaiting_ctl (slot : Nat) (k : Chip) :
    (enterWaiting slot k).ctl = k.ctl := by
  unfold enterWaiting
  simp only [updPlate_ctl, checkLate_ctl, leaveReady_ctl]

@[simp] theorem settleReadiness_ctl (slot : Nat) (returned : Bool) (k : Chip) :
    (settleReadiness slot returned k).ctl = k.ctl := by
  unfold settleReadiness
  repeat' (first | simp only [enterReady_ctl, leaveReady_ctl, enterWaiting_ctl, apply_ite Chip.ctl, ite_self] | split)

@[simp] theorem giveUpPins_ctl (slot : Nat) (k : Chip) :
    (giveUpPins slot k).ctl = k.ctl := by
  unfold giveUpPins
  repeat' (first | simp only [unpinRequest_ctl, setPlate_ctl, apply_ite Chip.ctl, ite_self] | split)

@[simp] theorem withdraw_ctl (slot attempt : Nat) (k : Chip) :
    (withdraw slot attempt k).ctl = k.ctl := by
  unfold withdraw
  simp only [imcWithdraw_ctl, discard_ctl, giveUpPins_ctl]

@[simp] theorem closePlate_ctl (slot : Nat) (o : Outcome) (k : Chip) :
    (closePlate slot o k).ctl = k.ctl := by
  unfold closePlate
  simp only [updPlate_ctl, leaveReady_ctl]

@[simp] theorem writeNews_ctl (slot : Nat) (notices : List Notice) (k : Chip) :
    (writeNews slot notices k).ctl = k.ctl := by
  unfold writeNews
  simp only [pscWrite_ctl]

@[simp] theorem writeHold_ctl (slot : Nat) (k : Chip) :
    (writeHold slot k).ctl = k.ctl := by
  unfold writeHold
  simp only [pscWrite_ctl]

@[simp] theorem setNews_ctl (slot : Nat) (k : Chip) :
    (setNews slot k).ctl = k.ctl := by
  unfold setNews
  simp only [Chip.setPsc_ctl, writeNews_ctl, apply_ite Chip.ctl, ite_self]

@[simp] theorem clearNews_ctl (slot : Nat) (k : Chip) :
    (clearNews slot k).ctl = k.ctl := by
  unfold clearNews
  simp only [Chip.setPsc_ctl, writeNews_ctl, apply_ite Chip.ctl, ite_self]

@[simp] theorem fieldWrites_ctl (slot : Nat) (old new : Plate) (k : Chip) : (fieldWrites slot old new k).ctl = k.ctl := by
  have h : ∀ l : List ((Nat × List Byte) × (Nat × List Byte)),
      (l.foldl (fun k e => pscWrite (k.slotAddr slot + e.2.1) e.2.2 [] k) k).ctl = k.ctl :=
    fun l => foldl_keeps Chip.ctl _ (fun _ _ => pscWrite_ctl ..) l k
  unfold fieldWrites
  split <;> simp only [pscWrite_ctl, h]

@[simp] theorem publishSlot_ctl (slot : Nat) (old : Plate) (k : Chip) :
    (publishSlot slot old k).ctl = k.ctl := by
  unfold publishSlot
  repeat' (first | simp only [setNews_ctl, fieldWrites_ctl, apply_ite Chip.ctl, ite_self] | split)

@[simp] theorem setNewsDue_ctl (l : List Nat) (k : Chip) :
    (setNewsDue l k).ctl = k.ctl := by
  unfold setNewsDue
  simp only [Chip.setPsc_ctl]

@[simp] theorem writeResult_ctl (slot : Nat) (k : Chip) :
    (writeResult slot k).ctl = k.ctl := by
  unfold writeResult
  repeat' (first | simp only [setNewsDue_ctl, pscWrite_ctl, setNews_ctl] | split)

@[simp] theorem startBreak_ctl (slot : Nat) (f : BreakFlag) (k : Chip) :
    (startBreak slot f k).ctl = k.ctl := by
  unfold startBreak
  repeat' (first | simp only [imcBreak_ctl, setPlate_ctl, apply_ite Chip.ctl, ite_self] | split)

theorem whileLive_ctl (slot : Nat) (f : Chip → Chip) (k : Chip) (h : (f k).ctl = k.ctl) : (whileLive slot f k).ctl = k.ctl := by
  unfold whileLive
  repeat' (first | simp only [h] | split)

@[simp] theorem setWork_ctl (l : List PscStep) (k : Chip) :
    (setWork l k).ctl = k.ctl := by
  unfold setWork
  simp only [Chip.setPsc_ctl]

@[simp] theorem setDue_ctl (l : List PscEvent) (k : Chip) :
    (setDue l k).ctl = k.ctl := by
  unfold setDue
  simp only [Chip.setPsc_ctl]

@[simp] theorem popInbox_ctl  (k : Chip) :
    (popInbox k).ctl = k.ctl := by
  unfold popInbox
  simp only [Chip.setPsc_ctl]

@[simp] theorem planClock_ctl (v : Word) (k : Chip) : (planClock v k).1.ctl = k.ctl := rfl

@[simp] theorem planStopping_ctl (k : Chip) : (planStopping k).1.ctl = k.ctl :=
  foldl_keeps (fun a : Plan => a.1.ctl) _ (fun _ _ => by split <;> simp only [withdraw_ctl]) _ _

@[simp] theorem planEvent_ctl (e : PscEvent) (k : Chip) : (planEvent e k).1.ctl = k.ctl := by
  cases e <;> simp only [planEvent, planClock_ctl, planStopping_ctl]

@[simp] theorem holdWithdraw_ctl (slot attempt : Nat) (k : Chip) :
    (holdWithdraw slot attempt k).1.ctl = k.ctl := by
  unfold holdWithdraw
  repeat' (first | rfl | simp only [withdraw_ctl] | split)

@[simp] theorem reSnapshotPinned_ctl (slot : Nat) (p : Plate) (snap : List PosSnap) (k : Chip) :
    (reSnapshotPinned slot p snap k).ctl = k.ctl := by
  unfold reSnapshotPinned
  simp only [unpinRequest_ctl, clearHolds_ctl, restart_ctl, setPlate_ctl, apply_ite Chip.ctl, ite_self]

@[simp] theorem reSnapshot_ctl (slot : Nat) (p : Plate) (key : PageKey) (version : Nat) (k : Chip) :
    (reSnapshot slot p key version k).1.ctl = k.ctl := by
  unfold reSnapshot
  repeat' (first | rfl | simp only [snapshotRequest_ctl, withdraw_ctl, reSnapshotPinned_ctl] | split)

@[simp] theorem remakePlate_ctl (slot : Nat) (p : Plate) (key : PageKey) (version : Nat) (k : Chip) :
    (remakePlate slot p key version k).1.ctl = k.ctl := by
  unfold remakePlate
  repeat' (first | rfl | simp only [reSnapshot_ctl] | split)

@[simp] theorem remakes_ctl (r : PageReport) (k : Chip) : (remakes r k).1.ctl = k.ctl :=
  foldl_keeps (fun a : Plan => a.1.ctl) _ (fun _ _ => by split <;> simp only [remakePlate_ctl]) _ _

@[simp] theorem planPageReport_ctl (r : PageReport) (k : Chip) : (planPageReport r k).1.ctl = k.ctl := remakes_ctl r k

@[simp] theorem takeOrder_ctl (slot : Nat) (k : Chip) :
    (takeOrder slot k).ctl = k.ctl := by
  unfold takeOrder
  simp only [Chip.setPsc_ctl, Chip.setDmr_ctl, raise_ctl, issue_order_ctl, writeHold_ctl, apply_ite Chip.ctl, ite_self]

@[simp] theorem planOrder_ctl (slot : Nat) (b : List Byte) (k : Chip) :
    (planOrder slot b k).1.ctl = k.ctl := by
  unfold planOrder
  repeat' (first | rfl | simp only [ite_self] | split)

@[simp] theorem forgetSlot_ctl (slot : Nat) (k : Chip) :
    (forgetSlot slot k).ctl = k.ctl := by
  unfold forgetSlot
  simp only [Chip.setPsc_ctl, Chip.setDmr_ctl]

@[simp] theorem releaseSlot_ctl (slot : Nat) (k : Chip) :
    (releaseSlot slot k).ctl = k.ctl := by
  unfold releaseSlot
  simp only [Chip.setPsc_ctl, pscWrite_ctl, writeHold_ctl, clearNews_ctl, forgetSlot_ctl]

@[simp] theorem takeRelease_ctl (slot : Nat) (k : Chip) :
    (takeRelease slot k).ctl = k.ctl := by
  unfold takeRelease
  repeat' (first | simp only [raise_ctl, releaseSlot_ctl, apply_ite Chip.ctl, ite_self] | split)

@[simp] theorem takeSeen_ctl (slot : Nat) (k : Chip) :
    (takeSeen slot k).ctl = k.ctl := by
  unfold takeSeen
  simp only [clearNews_ctl]

@[simp] theorem breakWithdraw_ctl (slot : Nat) (p : Plate) (f : BreakFlag) (k : Chip) :
    (breakWithdraw slot p f k).1.ctl = k.ctl := by
  unfold breakWithdraw
  repeat' (first | rfl | simp only [updPlate_ctl, withdraw_ctl, closePlate_ctl] | split)

@[simp] theorem breakPlateOf_ctl (slot : Nat) (p : Plate) (f : BreakFlag) (k : Chip) :
    (breakPlateOf slot p f k).1.ctl = k.ctl := by
  unfold breakPlateOf
  repeat' (first | rfl | simp only [closePlate_ctl, startBreak_ctl, breakWithdraw_ctl, apply_ite Chip.ctl, ite_self] | split)

@[simp] theorem enterPreparing_ctl (slot : Nat) (p : Plate) (snap : List PosSnap) (k : Chip) :
    (enterPreparing slot p snap k).ctl = k.ctl := by
  unfold enterPreparing
  simp only [Chip.setPsc_ctl, handPlate_ctl, joinRender_ctl, setPlate_ctl]

@[simp] theorem selectPlate_ctl (slot : Nat) (p : Plate) (k : Chip) :
    (selectPlate slot p k).1.ctl = k.ctl := by
  unfold selectPlate
  repeat' (first | rfl | simp only [snapshotRequest_ctl, enterPreparing_ctl] | split)

@[simp] theorem applyExposingEntry_ctl (slot attempt prep : Nat) (k : Chip) :
    (applyExposingEntry slot attempt prep k).ctl = k.ctl := by
  unfold applyExposingEntry
  simp only [updPlate_ctl]

@[simp] theorem applyExposureEnd_ctl (slot prep exposed holds : Nat) (k : Chip) :
    (applyExposureEnd slot prep exposed holds k).ctl = k.ctl := by
  unfold applyExposureEnd
  simp only [updPlate_ctl]

@[simp] theorem applyRenderFinished_ctl (slot attempt snapNo : Nat) (k : Chip) :
    (applyRenderFinished slot attempt snapNo k).ctl = k.ctl := by
  unfold applyRenderFinished
  repeat' (first | simp only [giveUpPins_ctl, apply_ite Chip.ctl, ite_self] | split)

@[simp] theorem enterFinishing_ctl (slot : Nat) (k : Chip) :
    (enterFinishing slot k).1.ctl = k.ctl := by
  unfold enterFinishing
  repeat' (first | rfl | simp only [setPlate_ctl, giveUpPins_ctl] | split)

@[simp] theorem applyCarrierCreated_ctl (slot attempt : Nat) (spoiled : Bool) (k : Chip) :
    (applyCarrierCreated slot attempt spoiled k).1.ctl = k.ctl := by
  unfold applyCarrierCreated
  repeat' (first | rfl | simp only [setPlate_ctl, enterFinishing_ctl] | split)

@[simp] theorem applyCarrierRemoved_ctl (slot attempt : Nat) (spoiled : Bool) (k : Chip) :
    (applyCarrierRemoved slot attempt spoiled k).ctl = k.ctl := by
  unfold applyCarrierRemoved
  simp only [updPlate_ctl]

@[simp] theorem spoilOutcome_ctl (slot : Nat) (k : Chip) :
    (spoilOutcome slot k).1.ctl = k.ctl := by
  unfold spoilOutcome
  repeat' (first | rfl | simp only [updPlate_ctl, leaveReady_ctl, closePlate_ctl] | split)

@[simp] theorem applySpoil_ctl (slot : Nat) (p : Plate) (charged : Bool) (pl : Place) (k : Chip) :
    (applySpoil slot p charged pl k).1.ctl = k.ctl := by
  unfold applySpoil
  repeat' (first | rfl | simp only [imcSpoilWord_ctl, discard_ctl, spoilCarriers_ctl, setPlate_ctl, giveUpPins_ctl, spoilOutcome_ctl, apply_ite Chip.ctl, ite_self] | split)

@[simp] theorem applyHold_ctl (slot : Nat) (p : Plate) (k : Chip) :
    (applyHold slot p k).1.ctl = k.ctl := by
  unfold applyHold
  repeat' (first | rfl | simp only [holdWithdraw_ctl, applySpoil_ctl] | split)

@[simp] theorem applyFail_ctl (slot : Nat) (p : Plate) (k : Chip) :
    (applyFail slot p k).ctl = k.ctl := by
  unfold applyFail
  repeat' (first | simp only [imcSpoilWord_ctl, discard_ctl, spoilCarriers_ctl, setPlate_ctl, giveUpPins_ctl, withdraw_ctl, closePlate_ctl, apply_ite Chip.ctl, ite_self] | split)

@[simp] theorem applyDisposition_ctl (d : Disposition) (k : Chip) :
    (applyDisposition d k).1.ctl = k.ctl := by
  unfold applyDisposition
  repeat' (first | rfl | simp only [applySpoil_ctl, applyHold_ctl, applyFail_ctl] | split)

@[simp] theorem newsOf_ctl (slot : Nat) (k : Chip) :
    (newsOf slot k).ctl = k.ctl := by
  unfold newsOf
  simp only [setNewsDue_ctl]

@[simp] theorem planDisposition_ctl (d : Disposition) (k : Chip) :
    (planDisposition d k).1.ctl = k.ctl := by
  unfold planDisposition
  repeat' (first | rfl | simp only [applyDisposition_ctl, newsOf_ctl] | split)

/-! ### PSC's steps: the control state stays, but for the passage from STOPPING to STOPPED (R10) -/

/-- The control state has stayed, or STOPPING has become STOPPED. -/
def Chip.stops (k t : Chip) : Prop :=
  t.ctl = k.ctl ∨ (k.pd.runState = .stopping ∧ t.ctl = (k.setRun .stopped).ctl)

theorem Chip.stops_of_ctl {k t : Chip} (h : t.ctl = k.ctl) : k.stops t := .inl h

theorem Chip.runState_of_ctl {k t : Chip} (h : t.ctl = k.ctl) : t.pd.runState = k.pd.runState := congrArg (fun x => x.1.1) h

theorem Chip.setRun_ctl_of_ctl {k t : Chip} (r : RunState) (h : t.ctl = k.ctl) : (t.setRun r).ctl = (k.setRun r).ctl := by
  simp only [Chip.ctl, Prod.mk.injEq] at h ⊢
  obtain ⟨⟨-, h1, h2⟩, h3, h4, h5⟩ := h
  exact ⟨⟨rfl, h1, h2⟩, h3, h4, h5⟩

theorem Chip.stops_trans {a b c : Chip} (h : a.stops b) (g : b.stops c) : a.stops c := by
  rcases h with h | ⟨ha, h⟩
  · rcases g with g | ⟨hb, g⟩
    · exact .inl (g.trans h)
    · exact .inr ⟨(Chip.runState_of_ctl h) ▸ hb, g.trans (Chip.setRun_ctl_of_ctl _ h)⟩
  · rcases g with g | ⟨hb, g⟩
    · exact .inr ⟨ha, g.trans h⟩
    · rw [Chip.runState_of_ctl h] at hb
      exact absurd hb (by simp [Chip.setRun, Chip.setPd])

theorem checkStopped_stops (k : Chip) : k.stops (checkStopped k) := by
  unfold checkStopped
  split
  · rename_i h
    simp only [Bool.and_eq_true, decide_eq_true_eq] at h
    exact .inr ⟨h.1, rfl⟩
  · exact .inl rfl

theorem publish_stops (old : List (Nat × Plate)) (k : Chip) : k.stops (publish old k) := by
  unfold publish
  refine Chip.stops_trans (Chip.stops_of_ctl ?_) (checkStopped_stops _)
  rw [setNewsDue_ctl, foldl_keeps Chip.ctl _ (fun _ _ => publishSlot_ctl ..)]

theorem doStep_stops (t : PscStep) (k : Chip) : k.stops (doStep t k) := by
  cases t <;> simp only [doStep]
  case publish old => exact publish_stops old k
  case result slot => exact Chip.stops_trans (Chip.stops_of_ctl (by simp)) (checkStopped_stops _)
  case settle slot returned => exact Chip.stops_of_ctl (whileLive_ctl _ _ _ (by simp))
  case waiting slot => exact Chip.stops_of_ctl (whileLive_ctl _ _ _ (by simp))
  case fail slot => exact Chip.stops_of_ctl (whileLive_ctl _ _ _ (by simp))
  all_goals exact Chip.stops_of_ctl (by simp)

theorem runSteps_stops (l : List PscStep) (k : Chip) : k.stops (runSteps l k) := by
  induction l generalizing k with
  | nil => exact Chip.stops_of_ctl (by simp [runSteps])
  | cons t ts ih =>
    unfold runSteps
    split
    · exact Chip.stops_of_ctl (by simp)
    · exact Chip.stops_trans (doStep_stops t k) (ih _)

theorem beginInput_stops (plan : Chip → Plan) (k : Chip) (h : (plan k).1.ctl = k.ctl) : k.stops (beginInput plan k) :=
  Chip.stops_trans (Chip.stops_of_ctl h) (runSteps_stops _ _)

theorem runDue_stops (l : List PscEvent) (k : Chip) : k.stops (runDue l k) := by
  induction l generalizing k with
  | nil => exact Chip.stops_of_ctl (by simp [runDue])
  | cons e es ih =>
    unfold runDue
    split
    · exact Chip.stops_of_ctl (by simp)
    · exact Chip.stops_trans (beginInput_stops _ _ (by simp)) (ih _)

/-- PSC going on keeps the control state, but for the passage from STOPPING to STOPPED. -/
theorem pscGo_stops (k : Chip) : k.stops (pscGo k) := Chip.stops_trans (runSteps_stops _ _) (runDue_stops _ _)

theorem pscTake_stops (plan : Chip → Plan) (k : Chip) (h : (plan k).1.ctl = k.ctl) : k.stops (pscTake plan k) :=
  Chip.stops_trans (beginInput_stops plan k h) (pscGo_stops _)

theorem pscHear_stops (e : PscEvent) (k : Chip) : k.stops (pscHear e k) :=
  Chip.stops_trans (Chip.stops_of_ctl (by simp)) (pscGo_stops _)

theorem orderArrives_stops (slot : Nat) (b : List Byte) (k : Chip) : k.stops (orderArrives slot b k) := by
  unfold orderArrives
  split
  · refine Chip.stops_trans (Chip.stops_of_ctl ?_) (Chip.stops_trans (runSteps_stops _ _) (pscGo_stops _))
    simp
  · exact .inl rfl

theorem takeAnswer_stops (d : Disposition) (k : Chip) : k.stops (takeAnswer d k) :=
  Chip.stops_trans (Chip.stops_of_ctl (by simp)) (pscGo_stops _)

/-- All that a failed START does: every field of the part is at reset but the registers and the free values' counter, and of the registers
START_FAIL, START_UNIT, RUN, ALERT and the count of messages may differ (R8, R18, R23). -/
theorem startFailed_spec (check unit : Nat) (k : Chip) :
    startFailed check unit k = raise .startDone { Chip.reset with
      regs := { (if k.sp.posts = [] then k else raise .postLost k).regs with startFail := check, startUnit := unit, run := false }
      fresh := k.fresh } := by
  cases h : k.sp.posts <;> simp [startFailed, losePosts, blocksReset, h]

end Sys2Proof.Machine
end

