-- ==== Sys2Proof/Laws/Layouts.lean ====
section
/-! SUPPORT. The bytes that IU, PSC and DMR write are those of the tables of the rules: page headers and entries, marks, the result part (R61, R88,
R192). -/

namespace Sys2Proof.Machine

/-! ### Reading bytes -/

theorem le_length (n v : Nat) : (le n v).length = n := by
  induction n generalizing v with
  | zero => rfl
  | succ n ih => simp [le, ih]

theorem u8_replicate (n i : Nat) : u8 (List.replicate n 0) i = 0 := by
  simp only [u8, List.getD_eq_getElem?_getD, List.getElem?_replicate]; split <;> rfl

theorem u8_append (a b : List Byte) (i : Nat) : u8 (a ++ b) i = if i < a.length then u8 a i else u8 b (i - a.length) := by
  simp only [u8, List.getD_eq_getElem?_getD, List.getElem?_append]; split <;> rfl

theorem u8_le (n v i : Nat) : u8 (le n v) i = if i < n then v / 256 ^ i % 256 else 0 := by
  induction n generalizing v i with
  | zero => simp [le, u8]
  | succ n ih =>
    cases i with
    | zero => simp [le, u8]
    | succ i =>
      have : u8 (le (n + 1) v) (i + 1) = u8 (le n (v / 256)) i := by simp [u8, le]
      rw [this, ih, Nat.div_div_eq_div_mul, Nat.pow_succ, Nat.mul_comm (256 ^ i) 256]
      simp

theorem u16_append (a b : List Byte) (i : Nat) (h : a.length ≤ i) : u16 (a ++ b) i = u16 b (i - a.length) := by
  simp only [u16, u8_append, if_neg (Nat.not_lt.2 h), if_neg (show ¬i + 1 < a.length by omega)]
  rw [show i + 1 - a.length = i - a.length + 1 by omega]

theorem zeroBytes_right (a : List Byte) (n i j : Nat) (h : a.length ≤ i) : zeroBytes (a ++ List.replicate n 0) i j := by
  intro m h1 h2; rw [u8_append, if_neg (by omega), u8_replicate]

/-- Bytes that are given as fields: each a width and a value. -/
def fieldBytes (fs : List (Nat × Nat)) : List Byte := fs.flatMap (fun f => le f.1 f.2)

/-- Where field k of a list of fields begins. -/
def fieldOffset (fs : List (Nat × Nat)) (k : Nat) : Nat := ((fs.take k).map (·.1)).sum

theorem fieldBytes_length (fs : List (Nat × Nat)) : (fieldBytes fs).length = (fs.map (·.1)).sum := by
  induction fs with
  | nil => rfl
  | cons f fs ih => simp only [fieldBytes, List.flatMap_cons, List.length_append, le_length, List.map_cons, List.sum_cons] at ih ⊢; omega

/-- A byte of a field. -/
theorem u8_fieldByte (fs : List (Nat × Nat)) (t : List Byte) (k w v j : Nat) (h : fs[k]? = some (w, v)) (hj : j < w) :
    u8 (fieldBytes fs ++ t) (fieldOffset fs k + j) = v / 256 ^ j % 256 := by
  induction fs generalizing k with
  | nil => simp at h
  | cons f fs ih =>
    rw [show fieldBytes (f :: fs) = le f.1 f.2 ++ fieldBytes fs from rfl, List.append_assoc]
    cases k with
    | zero =>
      simp only [List.getElem?_cons_zero, Option.some.injEq] at h
      subst h
      rw [show fieldOffset ((w, v) :: fs) 0 = 0 from rfl, Nat.zero_add, u8_append, le_length, if_pos hj, u8_le, if_pos hj]
    | succ k =>
      rw [show fieldOffset (f :: fs) (k + 1) = f.1 + fieldOffset fs k by simp [fieldOffset], u8_append, le_length,
        if_neg (by omega), Nat.add_assoc, Nat.add_sub_cancel_left]
      exact ih k h

theorem u8_field (fs : List (Nat × Nat)) (t : List Byte) (k v : Nat) (h : fs[k]? = some (1, v)) :
    u8 (fieldBytes fs ++ t) (fieldOffset fs k) = v % 256 := by
  simpa using u8_fieldByte fs t k 1 v 0 h (by omega)

theorem u16_field (fs : List (Nat × Nat)) (t : List Byte) (k v : Nat) (h : fs[k]? = some (2, v)) :
    u16 (fieldBytes fs ++ t) (fieldOffset fs k) = v % 65536 := by
  have h0 := u8_fieldByte fs t k 2 v 0 h (by omega)
  have h1 := u8_fieldByte fs t k 2 v 1 h (by omega)
  simp only [Nat.add_zero, Nat.pow_zero, Nat.div_one, Nat.pow_one] at h0 h1
  rw [u16, h0, h1]; omega

theorem u32_field (fs : List (Nat × Nat)) (t : List Byte) (k v : Nat) (h : fs[k]? = some (4, v)) :
    u32 (fieldBytes fs ++ t) (fieldOffset fs k) = v % 4294967296 := by
  have h0 := u8_fieldByte fs t k 4 v 0 h (by omega)
  have h1 := u8_fieldByte fs t k 4 v 1 h (by omega)
  have h2 := u8_fieldByte fs t k 4 v 2 h (by omega)
  have h3 := u8_fieldByte fs t k 4 v 3 h (by omega)
  simp only [Nat.add_zero, Nat.pow_zero, Nat.div_one, Nat.pow_one, Nat.reducePow] at h0 h1 h2 h3
  rw [u32, u16, u16, h0, h1, h2, Nat.add_assoc, h3]; omega

/-- A field of zeros. -/
theorem zeroBytes_field (fs : List (Nat × Nat)) (t : List Byte) (k w : Nat) (h : fs[k]? = some (w, 0)) :
    zeroBytes (fieldBytes fs ++ t) (fieldOffset fs k) (fieldOffset fs k + w) := by
  intro n h1 h2
  rw [show n = fieldOffset fs k + (n - fieldOffset fs k) by omega, u8_fieldByte fs t k w 0 _ h (by omega)]
  simp

/-! ### Page records (R61) -/

theorem stripEntryBytes_is (e : Option StripEntry) : stripEntryIs e (stripEntryBytes e) := by
  rcases e with _ | _ | r
  · exact ⟨rfl, fun n _ _ => u8_replicate 16 n⟩
  · exact ⟨by simp [stripEntryBytes, le_length], by simp [stripEntryBytes, u8_append, u8_le, le_length],
      zeroBytes_right _ _ _ _ (by simp [le_length])⟩
  · have := r.crc.isLt
    simp [stripEntryIs, stripEntryBytes, u16, u32, u8_append, u8_le, le_length]
    omega

theorem patchEntryBytes_is (e : Option PatchEntry) : patchEntryIs e (patchEntryBytes e) := by
  rcases e with _ | _ | r
  · exact ⟨rfl, fun n _ _ => u8_replicate 32 n⟩
  · exact ⟨by simp [patchEntryBytes, le_length], by simp [patchEntryBytes, u8_append, u8_le, le_length],
      zeroBytes_right _ _ _ _ (by simp [le_length])⟩
  · have := r.crc.isLt
    have hz : zeroBytes (patchEntryBytes (some (.present r))) 0x18 32 := zeroBytes_right _ _ _ _ (by simp [le_length])
    refine ⟨by simp [patchEntryBytes, le_length], ?_⟩
    simp only [hz, and_true]
    simp [patchEntryBytes, u16, u32, u8_append, u8_le, le_length]
    omega

theorem rangeBytes_length (rs : List (Nat × Nat)) (h : rs.length ≤ 8) : (rangeBytes rs).length = 32 := by
  have : ∀ l : List (Nat × Nat), (l.flatMap (fun r => le 2 r.1 ++ le 2 r.2)).length = 4 * l.length := by
    intro l
    induction l with
    | nil => rfl
    | cons a l ih => simp only [List.flatMap_cons, List.length_append, ih, le_length, List.length_cons]; omega
  simp only [rangeBytes, List.length_append, this, List.length_replicate]; omega

theorem rangeBytes_at (rs : List (Nat × Nat)) (i : Nat) (q : Nat × Nat) (h : rs[i]? = some q) :
    u16 (rangeBytes rs) (4 * i) = q.1 % 65536 ∧ u16 (rangeBytes rs) (4 * i + 2) = q.2 % 65536 := by
  suffices ∀ (rs : List (Nat × Nat)) (t : List Byte) (i : Nat), rs[i]? = some q →
      u16 (rs.flatMap (fun r => le 2 r.1 ++ le 2 r.2) ++ t) (4 * i) = q.1 % 65536 ∧
        u16 (rs.flatMap (fun r => le 2 r.1 ++ le 2 r.2) ++ t) (4 * i + 2) = q.2 % 65536 from this rs _ i h
  clear h
  intro rs t i h
  induction rs generalizing i with
  | nil => simp at h
  | cons r rs ih =>
    rw [List.flatMap_cons]
    cases i with
    | zero =>
      simp only [List.getElem?_cons_zero, Option.some.injEq] at h
      subst h
      simp [u16, u8_append, u8_le, le_length]; omega
    | succ i =>
      have hl : (le 2 r.1 ++ le 2 r.2).length = 4 := by simp [le_length]
      have g (j : Nat) : u16 ((le 2 r.1 ++ le 2 r.2) ++ (rs.flatMap (fun r => le 2 r.1 ++ le 2 r.2) ++ t)) (j + 4) =
          u16 (rs.flatMap (fun r => le 2 r.1 ++ le 2 r.2) ++ t) j := by
        rw [u16_append _ _ _ (by omega), hl, Nat.add_sub_cancel]
      rw [List.append_assoc, show 4 * (i + 1) = 4 * i + 4 by omega, show 4 * i + 4 + 2 = 4 * i + 2 + 4 by omega, g, g]
      exact ih i (by simpa using h)

theorem rangeBytes_zero (rs : List (Nat × Nat)) (i : Nat) (h : 4 * rs.length ≤ i) : u8 (rangeBytes rs) i = 0 := by
  have : ∀ l : List (Nat × Nat), (l.flatMap (fun r => le 2 r.1 ++ le 2 r.2)).length = 4 * l.length := by
    intro l
    induction l with
    | nil => rfl
    | cons a l ih => simp only [List.flatMap_cons, List.length_append, ih, le_length, List.length_cons]; omega
  rw [rangeBytes, u8_append, if_neg (by rw [this]; omega), u8_replicate]

theorem firstBad_le (l : List (Nat × StripEntry)) (m : Nat) :
    let f := l.foldl (fun m e => if e.2.isPresent then m else min m (e.1 % 768)) m
    f ≤ m ∧ (∀ e ∈ l, e.2 = .bad → f ≤ e.1 % 768) ∧ (f = m ∨ ∃ e ∈ l, e.2 = .bad ∧ f = e.1 % 768) := by
  induction l generalizing m with
  | nil => simp
  | cons e l ih =>
    obtain ⟨i, x⟩ := e
    cases x with
    | bad =>
      obtain ⟨h1, h2, h3⟩ := ih (min m (i % 768))
      rw [List.foldl_cons, show (if StripEntry.bad.isPresent = true then m else min m (i % 768)) = min m (i % 768) from rfl]
      refine ⟨Nat.le_trans h1 (Nat.min_le_left _ _), ?_, ?_⟩
      · rintro e he hb
        rcases List.mem_cons.1 he with rfl | he
        · exact Nat.le_trans h1 (Nat.min_le_right _ _)
        · exact h2 e he hb
      · rcases h3 with h3 | ⟨e, he, hb, h3⟩
        · rcases Nat.le_total m (i % 768) with h | h
          · exact .inl (h3.trans (Nat.min_eq_left h))
          · exact .inr ⟨_, .head _, rfl, h3.trans (Nat.min_eq_right h)⟩
        · exact .inr ⟨e, .tail _ he, hb, h3⟩
    | present p =>
      obtain ⟨h1, h2, h3⟩ := ih m
      rw [List.foldl_cons, show (if (StripEntry.present p).isPresent = true then m else min m (i % 768)) = m from rfl]
      refine ⟨h1, ?_, ?_⟩
      · rintro e he hb
        rcases List.mem_cons.1 he with rfl | he
        · cases hb
        · exact h2 e he hb
      · rcases h3 with h3 | ⟨e, he, hb, h3⟩
        · exact .inl h3
        · exact .inr ⟨e, .tail _ he, hb, h3⟩

/-- Bytes 00h to 3Fh of a page record. -/
def headerFields (r : PageRecord) (m : Manifest) : List (Nat × Nat) :=
  [(1, r.state.code), (1, kindCode r.manifest), (1, bit r.clipped + 2 * bit r.dropped + 4 * bit r.baseFlag), (1, m.seps.toNat),
   (1, r.key.book), (1, r.key.page), (1, r.key.zone), (1, m.ranges.length), (2, r.version), (2, m.rows), (2, m.dots), (2, r.firstBad),
   (1, if m.derived then m.base.book else 0), (1, if m.derived then m.base.page else 0), (1, if m.derived then m.base.zone else 0),
   (1, r.pins), (1, m.patchCounts.getD 0 0), (1, m.patchCounts.getD 1 0), (1, m.patchCounts.getD 2 0), (1, m.patchCounts.getD 3 0),
   (2, r.presentCount 0), (2, r.presentCount 1), (2, r.presentCount 2), (2, r.presentCount 3),
   (2, r.badCount 0), (2, r.badCount 1), (2, r.badCount 2), (2, r.badCount 3),
   (1, r.notes.malformed), (1, r.notes.stale), (1, r.notes.conflict), (1, r.notes.crc), (1, r.notes.fence), (1, r.notes.decode), (2, 0),
   (4, r.firstTime.toNat), (4, r.lastTime.toNat), (4, 0), (4, 0)]

theorem headerBytes_fields (r : PageRecord) (h : (r.manifest.getD noManifest).patchCounts.length = 4) :
    headerBytes r = fieldBytes (headerFields r (r.manifest.getD noManifest)) ++ rangeBytes (r.manifest.getD noManifest).ranges := by
  unfold headerBytes
  dsimp only
  generalize r.manifest.getD noManifest = m at *
  obtain ⟨p0, p1, p2, p3, hp⟩ : ∃ p0 p1 p2 p3, m.patchCounts = [p0, p1, p2, p3] := by
    rcases hq : m.patchCounts with _ | ⟨a, _ | ⟨b, _ | ⟨c, _ | ⟨d, _ | _⟩⟩⟩⟩ <;> simp [hq] at h
    exact ⟨a, b, c, d, rfl⟩
  have hb : (if m.derived then keyBytes m.base else noKeyBytes) = le 1 (if m.derived then m.base.book else 0) ++
      (le 1 (if m.derived then m.base.page else 0) ++ le 1 (if m.derived then m.base.zone else 0)) := by
    cases m.derived <;> rfl
  rw [hb]
  simp only [headerFields, fieldBytes, hp, keyBytes, show List.range 4 = [0, 1, 2, 3] from rfl, List.flatMap_cons, List.flatMap_nil,
    List.append_nil, List.append_assoc, List.getD_cons_zero, List.getD_cons_succ]

/-- The widths of those fields. -/
def headerWidths : List Nat := [1, 1, 1, 1, 1, 1, 1, 1, 2, 2, 2, 2, 1, 1, 1, 1, 1, 1, 1, 1, 2, 2, 2, 2, 2, 2, 2, 2, 1, 1, 1, 1, 1, 1, 2, 4, 4, 4, 4]

theorem headerFields_widths (r : PageRecord) (m : Manifest) : (headerFields r m).map (·.1) = headerWidths := rfl

theorem headerFields_length (r : PageRecord) (m : Manifest) : (fieldBytes (headerFields r m)).length = 64 := by
  rw [fieldBytes_length, headerFields_widths]; decide

theorem headerFields_offset (r : PageRecord) (m : Manifest) (k : Nat) : fieldOffset (headerFields r m) k = (headerWidths.take k).sum := by
  rw [fieldOffset, List.map_take, headerFields_widths]

section
variable (r : PageRecord) (m : Manifest) (t : List Byte) (k o : Nat) {v w : Nat}

theorem header_u8 (h : (headerFields r m)[k]? = some (1, v)) (ho : (headerWidths.take k).sum = o := by decide) :
    u8 (fieldBytes (headerFields r m) ++ t) o = v % 256 := by
  rw [← ho, ← headerFields_offset r m]; exact u8_field _ _ _ _ h

theorem header_u16 (h : (headerFields r m)[k]? = some (2, v)) (ho : (headerWidths.take k).sum = o := by decide) :
    u16 (fieldBytes (headerFields r m) ++ t) o = v % 65536 := by
  rw [← ho, ← headerFields_offset r m]; exact u16_field _ _ _ _ h

theorem header_u32 (h : (headerFields r m)[k]? = some (4, v)) (ho : (headerWidths.take k).sum = o := by decide) :
    u32 (fieldBytes (headerFields r m) ++ t) o = v % 4294967296 := by
  rw [← ho, ← headerFields_offset r m]; exact u32_field _ _ _ _ h

theorem header_zero (h : (headerFields r m)[k]? = some (w, 0)) (ho : (headerWidths.take k).sum = o := by decide) :
    zeroBytes (fieldBytes (headerFields r m) ++ t) o (o + w) := by
  rw [← ho, ← headerFields_offset r m]; exact zeroBytes_field _ _ _ _ h

end

theorem header_ranges (r : PageRecord) (m : Manifest) (h : m.ranges.length ≤ 8) :
    let b := fieldBytes (headerFields r m) ++ rangeBytes m.ranges
    b.length = 96 ∧
      (∀ i q, m.ranges[i]? = some q → u16 b (0x40 + 4 * i) = q.1 % 65536 ∧ u16 b (0x42 + 4 * i) = q.2 % 65536) ∧
      zeroBytes b (0x40 + 4 * m.ranges.length) 0x60 := by
  have hl := headerFields_length r m
  refine ⟨by rw [List.length_append, hl, rangeBytes_length _ h], fun i q hq => ?_, fun n h1 h2 => ?_⟩
  · obtain ⟨g1, g2⟩ := rangeBytes_at _ i q hq
    rw [u16_append _ _ _ (by omega), u16_append _ _ _ (by omega), hl, show 0x40 + 4 * i - 64 = 4 * i by omega,
      show 0x42 + 4 * i - 64 = 4 * i + 2 by omega]
    exact ⟨g1, g2⟩
  · rw [u8_append, if_neg (by omega), hl]
    exact rangeBytes_zero _ _ (by omega)

/-- The counts of PRESENT and of BAD entries (R61). -/
theorem presentCount_eq (r : PageRecord) (x : Nat) : r.presentCount x =
    (r.strips.filter (fun e => decide (e.1 / 768 = x) && (decide (e.2 = .bad) == false))).length +
      (r.patches.filter (fun e => decide (e.1 / 32 = x) && (decide (e.2 = .bad) == false))).length := by
  simp only [PageRecord.presentCount, countOf]
  congr 3 <;> funext e <;> rcases e with ⟨_, _ | _⟩ <;> simp [StripEntry.isPresent, PatchEntry.isPresent]

theorem badCount_eq (r : PageRecord) (x : Nat) : r.badCount x =
    (r.strips.filter (fun e => decide (e.1 / 768 = x) && (decide (e.2 = .bad) == true))).length +
      (r.patches.filter (fun e => decide (e.1 / 32 = x) && (decide (e.2 = .bad) == true))).length := by
  simp only [PageRecord.badCount, countOf]
  congr 3 <;> funext e <;> rcases e with ⟨_, _ | _⟩ <;> simp [StripEntry.isPresent, PatchEntry.isPresent]

theorem header_separations (r : PageRecord) (m : Manifest) (t : List Byte) (x : Nat) (h : x < 4) :
    let b := fieldBytes (headerFields r m) ++ t
    u8 b (0x14 + x) = m.patchCounts.getD x 0 % 256 ∧ u16 b (0x18 + 2 * x) = r.presentCount x % 65536 ∧
      u16 b (0x20 + 2 * x) = r.badCount x % 65536 := by
  rcases x with _ | _ | _ | _ | x
  · exact ⟨header_u8 r m t 16 0x14 rfl, header_u16 r m t 20 0x18 rfl, header_u16 r m t 24 0x20 rfl⟩
  · exact ⟨header_u8 r m t 17 0x15 rfl, header_u16 r m t 21 0x1A rfl, header_u16 r m t 25 0x22 rfl⟩
  · exact ⟨header_u8 r m t 18 0x16 rfl, header_u16 r m t 22 0x1C rfl, header_u16 r m t 26 0x24 rfl⟩
  · exact ⟨header_u8 r m t 19 0x17 rfl, header_u16 r m t 23 0x1E rfl, header_u16 r m t 27 0x26 rfl⟩
  · omega

theorem header_base (r : PageRecord) (m : Manifest) (t : List Byte) :
    let b := fieldBytes (headerFields r m) ++ t
    (m.derived = true → u8 b 0x10 = m.base.book % 256 ∧ u8 b 0x11 = m.base.page % 256 ∧ u8 b 0x12 = m.base.zone % 256) ∧
      (m.derived = false → zeroBytes b 0x10 0x13) := by
  have h1 := header_u8 r m t 12 0x10 rfl
  have h2 := header_u8 r m t 13 0x11 rfl
  have h3 := header_u8 r m t 14 0x12 rfl
  refine ⟨fun h => ?_, fun h n g1 g2 => ?_⟩
  · rw [h1, h2, h3, h]; exact ⟨rfl, rfl, rfl⟩
  · obtain rfl | rfl | rfl : n = 0x10 ∨ n = 0x11 ∨ n = 0x12 := by omega
    · rw [h1, h]; rfl
    · rw [h2, h]; rfl
    · rw [h3, h]; rfl

/-- The header of a page record has the bytes of R61's table. -/
theorem headerBytes_is (r : PageRecord) : r.headerIs (headerBytes r) := by
  unfold PageRecord.headerIs
  intro entries m h1 h2
  obtain ⟨hf1, hf2, hf3⟩ : r.firstBad ≤ 0xFFFF ∧ (∀ e ∈ r.strips, e.2 = .bad → r.firstBad ≤ e.1 % 768) ∧
    (r.firstBad = 0xFFFF ∨ ∃ e ∈ r.strips, e.2 = .bad ∧ r.firstBad = e.1 % 768) := firstBad_le r.strips 0xFFFF
  have hk : kindCode r.manifest = if r.manifest = none then 0 else if m.derived = true then 2 else 1 := by
    cases hm : r.manifest with
    | none => rfl
    | some q => simp [kindCode, show m = q by simp only [m, hm]; rfl]
  have hk3 : kindCode r.manifest < 3 := by rw [hk]; split <;> [omega; split] <;> omega
  have hse : m.seps.toNat < 16 := m.seps.isLt
  have h0E := (header_u16 r m (rangeBytes m.ranges) 11 0x0E rfl).trans (Nat.mod_eq_of_lt (by omega : r.firstBad < 65536))
  obtain ⟨hl, hr, hz⟩ := header_ranges r m h2
  obtain ⟨hb1, hb2⟩ := header_base r m (rangeBytes m.ranges)
  rw [headerBytes_fields r h1]
  refine ⟨hl, (header_u8 r m _ 0 0x00 rfl).trans (by cases r.state <;> rfl), (header_u8 r m _ 1 0x01 rfl).trans (by omega),
    (header_u8 r m _ 2 0x02 rfl).trans (by cases r.clipped <;> cases r.dropped <;> cases r.baseFlag <;> rfl),
    (header_u8 r m _ 3 0x03 rfl).trans (by omega), header_u8 r m _ 4 0x04 rfl, header_u8 r m _ 5 0x05 rfl,
    header_u8 r m _ 6 0x06 rfl, (header_u8 r m _ 7 0x07 rfl).trans (by omega), header_u16 r m _ 8 0x08 rfl,
    header_u16 r m _ 9 0x0A rfl, header_u16 r m _ 10 0x0C rfl, fun h => h0E.trans ?_, fun e he hb => ?_, hb1, hb2,
    header_u8 r m _ 15 0x13 rfl, fun x hx => ?_, header_u8 r m _ 28 0x28 rfl, header_u8 r m _ 29 0x29 rfl,
    header_u8 r m _ 30 0x2A rfl, header_u8 r m _ 31 0x2B rfl, header_u8 r m _ 32 0x2C rfl, header_u8 r m _ 33 0x2D rfl,
    header_zero r m _ 34 0x2E rfl, (header_u32 r m _ 35 0x30 rfl).trans (Nat.mod_eq_of_lt r.firstTime.isLt),
    (header_u32 r m _ 36 0x34 rfl).trans (Nat.mod_eq_of_lt r.lastTime.isLt), fun n g1 g2 => ?_, hr, hz⟩
  · rcases hf3 with g | ⟨e, he, hb, -⟩
    · exact g
    · exact absurd hb (h e he)
  · have := hf2 e he hb
    rw [h0E]
    refine ⟨this, ?_⟩
    rcases hf3 with g | g
    · exact absurd (Nat.lt_of_le_of_lt this (Nat.mod_lt _ (by decide))) (by omega)
    · exact g
  · simp only [entries, ← presentCount_eq, ← badCount_eq]
    exact header_separations r m _ x hx
  · by_cases g : n < 0x3C
    · exact header_zero r m _ 37 0x38 rfl (by decide) n g1 g
    · exact header_zero r m _ 38 0x3C rfl (by decide) n (by omega) g2

/-! ### Marks and the result part (R88, R192) -/

/-- The fields of a mark entry before its zeros. -/
def markFields (m : Mark) : List (Nat × Nat) :=
  [(1, m.kind.code), (1, m.severity.code), (1, bit m.charged + 2 * bit m.key.isSome), (1, m.place.code), (1, m.attempt),
   (1, match m.location with
     | .none => 0
     | .swath _ => 1
     | .strip _ => 2),
   (2, match m.location with
     | .none => 0
     | .swath n => n
     | .strip n => n),
   (1, (m.key.map (·.book)).getD 0), (1, (m.key.map (·.page)).getD 0), (1, (m.key.map (·.zone)).getD 0), (1, 0), (4, m.detail),
   (4, m.time.toNat)]

/-- The widths of those fields. -/
def markWidths : List Nat := [1, 1, 1, 1, 1, 1, 2, 1, 1, 1, 1, 4, 4]

theorem markFields_widths (m : Mark) : (markFields m).map (·.1) = markWidths := rfl

theorem markBytes_fields (m : Mark) : markBytes m = fieldBytes (markFields m) ++ List.replicate 12 0 := by
  rcases m with ⟨_, _, _, _, _, _ | _ | _, _ | _, _, _⟩ <;>
    simp only [markBytes, markFields, fieldBytes, noKeyBytes, List.flatMap_cons, List.flatMap_nil, List.append_nil,
      List.append_assoc] <;> rfl

/-- A mark entry has the bytes of R192's table. -/
theorem markBytes_is (m : Mark) : m.entryIs (markBytes m) := by
  rw [markBytes_fields]
  have ho (k : Nat) : fieldOffset (markFields m) k = (markWidths.take k).sum := by rw [fieldOffset, List.map_take, markFields_widths]
  have f8 (k o : Nat) {v : Nat} (h : (markFields m)[k]? = some (1, v)) (g : (markWidths.take k).sum = o := by decide) :
      u8 (fieldBytes (markFields m) ++ List.replicate 12 0) o = v % 256 := by rw [← g, ← ho]; exact u8_field _ _ _ _ h
  have f16 (k o : Nat) {v : Nat} (h : (markFields m)[k]? = some (2, v)) (g : (markWidths.take k).sum = o := by decide) :
      u16 (fieldBytes (markFields m) ++ List.replicate 12 0) o = v % 65536 := by rw [← g, ← ho]; exact u16_field _ _ _ _ h
  have f32 (k o : Nat) {v : Nat} (h : (markFields m)[k]? = some (4, v)) (g : (markWidths.take k).sum = o := by decide) :
      u32 (fieldBytes (markFields m) ++ List.replicate 12 0) o = v % 4294967296 := by rw [← g, ← ho]; exact u32_field _ _ _ _ h
  have hl : (fieldBytes (markFields m)).length = 20 := by rw [fieldBytes_length, markFields_widths]; decide
  refine ⟨by rw [List.length_append, hl, List.length_replicate], (f8 0 0x00 rfl).trans (by cases m.kind <;> rfl),
    (f8 1 0x01 rfl).trans (by cases m.severity <;> rfl), (f8 2 0x02 rfl).trans (by cases m.charged <;> cases m.key <;> rfl),
    (f8 3 0x03 rfl).trans (by cases m.place <;> rfl), f8 4 0x04 rfl, ?_, fun h n g1 g2 => ?_, fun q h => ?_, f8 10 0x0B rfl,
    f32 11 0x0C rfl, (f32 12 0x10 rfl).trans (Nat.mod_eq_of_lt m.time.isLt), zeroBytes_right _ _ _ _ (by omega)⟩
  · have h5 := f8 5 0x05 rfl
    have h6 := f16 6 0x06 rfl
    cases hm : m.location <;> rw [hm] at h5 h6 <;> exact ⟨h5, h6⟩
  · have h7 := f8 7 0x08 rfl
    have h8 := f8 8 0x09 rfl
    have h9 := f8 9 0x0A rfl
    rw [h] at h7 h8 h9
    obtain rfl | rfl | rfl : n = 0x08 ∨ n = 0x09 ∨ n = 0x0A := by omega
    exacts [h7, h8, h9]
  · have h7 := f8 7 0x08 rfl
    have h8 := f8 8 0x09 rfl
    have h9 := f8 9 0x0A rfl
    rw [h] at h7 h8 h9
    exact ⟨h7, h8, h9⟩

/-- The four fields of a snapshot entry. -/
def snapField (x : Option PosSnap) (j : Nat) : Nat :=
  match x with
  | none => 0xFFFF
  | some s =>
    match j, s.base with
    | 0, _ => s.idx
    | 1, _ => s.version
    | 2, some (b, _, _) => b
    | _, some (_, v, _) => v
    | _, none => 0xFFFF

theorem snapBytes_fields (x : Option PosSnap) :
    snapBytes x = le 2 (snapField x 0) ++ (le 2 (snapField x 1) ++ (le 2 (snapField x 2) ++ le 2 (snapField x 3))) := by
  rcases x with _ | ⟨_, _, _ | _⟩ <;> simp only [snapBytes, snapField, List.append_assoc] <;> rfl

/-- The fields of the result part up to its marks. -/
def resultHead (p : Plate) (m : SlotMarks) : List (Nat × Nat) :=
  [(4, p.order.plateId), (2, p.order.edition), (1, p.state.code), (1, p.refusal), (1, p.attempt), (1, p.charged),
   (1, closingCode p.closing), (1, p.order.budget), (2, (BitVec.ofInt 16 p.order.trim).toNat), (2, p.exposed), (2, p.holds), (2, 0),
   (4, p.orderedTime.toNat), (4, p.readyTime.toNat), (4, p.imagingTime.toNat), (4, p.finalTime.toNat), (2, acrossAt p.order 0),
   (2, acrossAt p.order 1), (2, snapField p.snapshot[0]? 0), (2, snapField p.snapshot[0]? 1), (2, snapField p.snapshot[0]? 2),
   (2, snapField p.snapshot[0]? 3), (2, snapField p.snapshot[1]? 0), (2, snapField p.snapshot[1]? 1), (2, snapField p.snapshot[1]? 2),
   (2, snapField p.snapshot[1]? 3), (1, m.marks.length), (1, m.lost), (6, 0)]

/-- The widths of those fields. -/
def resultWidths : List Nat := [4, 2, 1, 1, 1, 1, 1, 1, 2, 2, 2, 2, 4, 4, 4, 4, 2, 2, 2, 2, 2, 2, 2, 2, 2, 2, 1, 1, 6]

theorem resultHead_widths (p : Plate) (m : SlotMarks) : (resultHead p m).map (·.1) = resultWidths := rfl

theorem resultPart_fields (p : Plate) (m : SlotMarks) : resultPart p m = fieldBytes (resultHead p m) ++
    (m.marks.flatMap markBytes ++ (List.replicate (32 * (8 - m.marks.length)) 0 ++ List.replicate 448 0)) := by
  unfold resultPart
  simp only [snapBytes_fields, leSigned, List.append_assoc]
  unfold resultHead fieldBytes
  simp only [List.flatMap_cons, List.flatMap_nil, List.append_nil, List.append_assoc]
  rw [show le 6 0 = List.replicate 6 0 by decide]

theorem flatMap_markBytes_length (l : List Mark) : (l.flatMap markBytes).length = 32 * l.length := by
  induction l with
  | nil => rfl
  | cons m l ih => rw [List.flatMap_cons, List.length_append, ih, (markBytes_is m).1, List.length_cons]; omega

theorem flatMap_markBytes_at (l : List Mark) (t : List Byte) (n : Nat) (m : Mark) (h : l[n]? = some m) :
    ((l.flatMap markBytes ++ t).drop (32 * n)).take 32 = markBytes m := by
  induction l generalizing n with
  | nil => simp at h
  | cons x l ih =>
    rw [List.flatMap_cons, List.append_assoc]
    have hx : (markBytes x).length = 32 := (markBytes_is x).1
    cases n with
    | zero =>
      simp only [List.getElem?_cons_zero, Option.some.injEq] at h
      subst h
      rw [Nat.mul_zero, List.drop_zero, List.take_append_of_le_length (by omega), List.take_of_length_le (by omega)]
    | succ n =>
      rw [show 32 * (n + 1) = (markBytes x).length + 32 * n by omega, List.drop_append]
      rw [List.drop_eq_nil_of_le (by omega), List.nil_append, Nat.add_sub_cancel_left]
      exact ih n (by simpa using h)

/-- The result part has the bytes of R88's table. -/
theorem resultPart_is (p : Plate) (m : SlotMarks) : p.resultIs m (resultPart p m) := by
  unfold Plate.resultIs
  intro across hm
  have hl : (fieldBytes (resultHead p m)).length = 64 := by rw [fieldBytes_length, resultHead_widths]; decide
  rw [resultPart_fields]
  have hz := fun n (g : 0x40 + 32 * m.marks.length ≤ n) => show u8 (fieldBytes (resultHead p m) ++
      (m.marks.flatMap markBytes ++ (List.replicate (32 * (8 - m.marks.length)) 0 ++ List.replicate 448 0))) n = 0 by
    rw [u8_append, if_neg (by omega), hl, u8_append, if_neg (by rw [flatMap_markBytes_length]; omega), u8_append, u8_replicate, u8_replicate,
      ite_self]
  have hmk := fun n (x : Mark) (g : m.marks[n]? = some x) => show x.entryIs (((fieldBytes (resultHead p m) ++
      (m.marks.flatMap markBytes ++ (List.replicate (32 * (8 - m.marks.length)) 0 ++ List.replicate 448 0))).drop (0x40 + 32 * n)).take 32) by
    rw [List.drop_append, hl, List.drop_eq_nil_of_le (by omega), List.nil_append, show 0x40 + 32 * n - 64 = 32 * n by omega,
      flatMap_markBytes_at _ _ _ _ g]
    exact markBytes_is x
  have hlen : (fieldBytes (resultHead p m) ++
      (m.marks.flatMap markBytes ++ (List.replicate (32 * (8 - m.marks.length)) 0 ++ List.replicate 448 0))).length = 768 := by
    simp only [List.length_append, hl, flatMap_markBytes_length, List.length_replicate]; omega
  generalize m.marks.flatMap markBytes ++ (List.replicate (32 * (8 - m.marks.length)) 0 ++ List.replicate 448 0) = t at *
  have ho (k : Nat) : fieldOffset (resultHead p m) k = (resultWidths.take k).sum := by rw [fieldOffset, List.map_take, resultHead_widths]
  have f8 (k o : Nat) {v : Nat} (h : (resultHead p m)[k]? = some (1, v)) (g : (resultWidths.take k).sum = o := by decide) :
      u8 (fieldBytes (resultHead p m) ++ t) o = v % 256 := by rw [← g, ← ho]; exact u8_field _ _ _ _ h
  have f16 (k o : Nat) {v : Nat} (h : (resultHead p m)[k]? = some (2, v)) (g : (resultWidths.take k).sum = o := by decide) :
      u16 (fieldBytes (resultHead p m) ++ t) o = v % 65536 := by rw [← g, ← ho]; exact u16_field _ _ _ _ h
  have f32 (k o : Nat) {v : Nat} (h : (resultHead p m)[k]? = some (4, v)) (g : (resultWidths.take k).sum = o := by decide) :
      u32 (fieldBytes (resultHead p m) ++ t) o = v % 4294967296 := by rw [← g, ← ho]; exact u32_field _ _ _ _ h
  have hac (n : Nat) : across n = acrossAt p.order n := by
    simp only [across, acrossAt]; cases p.order.positions[n]? <;> rfl
  refine ⟨hlen, f32 0 0x00 rfl, f16 1 0x04 rfl, (f8 2 0x06 rfl).trans (by cases p.state <;> rfl), f8 3 0x07 rfl, f8 4 0x08 rfl,
    f8 5 0x09 rfl, (f8 6 0x0A rfl).trans (by rcases p.closing with _ | _ | _ <;> rfl), f8 7 0x0B rfl,
    (f16 8 0x0C rfl).trans (Nat.mod_eq_of_lt (BitVec.isLt _)), f16 9 0x0E rfl, f16 10 0x10 rfl, f16 11 0x12 rfl,
    (f32 12 0x14 rfl).trans (Nat.mod_eq_of_lt (BitVec.isLt _)), (f32 13 0x18 rfl).trans (Nat.mod_eq_of_lt (BitVec.isLt _)),
    (f32 14 0x1C rfl).trans (Nat.mod_eq_of_lt (BitVec.isLt _)), (f32 15 0x20 rfl).trans (Nat.mod_eq_of_lt (BitVec.isLt _)),
    (f16 16 0x24 rfl).trans (by rw [hac]), (f16 17 0x26 rfl).trans (by rw [hac]), fun n hn => ?_,
    (f8 26 0x38 rfl).trans (by omega), f8 27 0x39 rfl, fun n g1 g2 => ?_, hmk, fun n g1 g2 => hz n g1⟩
  · have snap (k o : Nat) (x : Option PosSnap) (h : ∀ j < 4, (resultHead p m)[k + j]? = some (2, snapField x j))
        (g : ∀ j < 4, (resultWidths.take (k + j)).sum = o + 2 * j) :
        let b := fieldBytes (resultHead p m) ++ t
        (x = none → u32 b o = 0xFFFFFFFF ∧ u32 b (o + 4) = 0xFFFFFFFF) ∧
          ∀ s, x = some s → u16 b o = s.idx % 65536 ∧ u16 b (o + 2) = s.version % 65536 ∧
            (s.base = none → u32 b (o + 4) = 0xFFFFFFFF) ∧
            ∀ i v q, s.base = some (i, v, q) → u16 b (o + 4) = i % 65536 ∧ u16 b (o + 6) = v % 65536 := by
      have e0 := f16 (k + 0) o (h 0 (by omega)) (g 0 (by omega))
      have e1 := f16 (k + 1) (o + 2) (h 1 (by omega)) (g 1 (by omega))
      have e2 := f16 (k + 2) (o + 4) (h 2 (by omega)) (g 2 (by omega))
      have e3 := f16 (k + 3) (o + 4 + 2) (h 3 (by omega)) (g 3 (by omega))
      dsimp only
      rcases x with _ | ⟨idx, ver, _ | ⟨b, v, q⟩⟩ <;> simp only [snapField] at e0 e1 e2 e3 <;> simp [u32, e0, e1, e2, e3]
    obtain rfl | rfl : n = 0 ∨ n = 1 := by omega
    · refine snap 18 0x28 _ (fun j hj => ?_) (by decide)
      obtain rfl | rfl | rfl | rfl : j = 0 ∨ j = 1 ∨ j = 2 ∨ j = 3 := by omega
      all_goals rfl
    · refine snap 22 0x30 _ (fun j hj => ?_) (by decide)
      obtain rfl | rfl | rfl | rfl : j = 0 ∨ j = 1 ∨ j = 2 ∨ j = 3 := by omega
      all_goals rfl
  · have := zeroBytes_field (resultHead p m) t 28 6 rfl
    rw [ho] at this
    exact this n g1 g2

end Sys2Proof.Machine
end

