-- ==== Sys2Proof/Laws/Store.lean ====
section
/-! SUPPORT. The shared store: every operation keeps the canonical form, a read after a write gives the byte written, and every other
byte keeps its value. -/

namespace Sys2Proof.Machine

/-- Strictly rising addresses, as a relation between all entries. -/
theorem Memory.rising_iff (m : Memory) : Memory.rising m = true ↔ m.Pairwise (fun x y => x.1 < y.1) := by
  induction m with
  | nil => simp [Memory.rising]
  | cons x m ih =>
    cases m with
    | nil => simp [Memory.rising]
    | cons y m =>
      simp only [Memory.rising, Bool.and_eq_true, decide_eq_true_eq, ih, List.pairwise_cons, List.mem_cons, forall_eq_or_imp]
      constructor
      · rintro ⟨h, g, t⟩
        exact ⟨⟨h, fun z hz => lt_trans h (g z hz)⟩, g, t⟩
      · rintro ⟨⟨h, _⟩, g, t⟩
        exact ⟨h, g, t⟩

/-- The canonical form, as relations. -/
theorem Memory.wf_iff (m : Memory) :
    Memory.wf m = true ↔ m.Pairwise (fun x y => x.1 < y.1) ∧ ∀ c ∈ m, c.2 ≠ unlistedByte := by
  simp [Memory.wf, Memory.rising_iff]

/-- Every cell that written bytes leave lies among them and differs from an unlisted byte. -/
theorem mem_cellsOf (a : Nat) (bs : List Byte) (c : Host.Cell) (h : c ∈ cellsOf a bs) :
    a ≤ c.1 ∧ c.1 < a + bs.length ∧ c.2 ≠ unlistedByte := by
  induction bs generalizing a with
  | nil => simp [cellsOf] at h
  | cons b bs ih =>
    simp only [cellsOf] at h
    split at h
    · obtain ⟨h1, h2, h3⟩ := ih (a + 1) h
      exact ⟨by omega, by simp only [List.length_cons]; omega, h3⟩
    · rcases List.mem_cons.mp h with rfl | h
      · simp_all
      · obtain ⟨h1, h2, h3⟩ := ih (a + 1) h
        exact ⟨by omega, by simp only [List.length_cons]; omega, h3⟩

theorem cellsOf_rising (a : Nat) (bs : List Byte) : (cellsOf a bs).Pairwise (fun x y => x.1 < y.1) := by
  induction bs generalizing a with
  | nil => simp [cellsOf]
  | cons b bs ih =>
    simp only [cellsOf]
    split
    · exact ih _
    · exact List.pairwise_cons.mpr ⟨fun c hc => by have := mem_cellsOf _ _ c hc; omega, ih _⟩

/-- A write keeps the canonical form. -/
theorem Memory.write_wf (m : Memory) (a : Nat) (bs : List Byte) (h : Memory.wf m = true) :
    Memory.wf (Memory.write m a bs) = true := by
  rw [Memory.wf_iff] at h ⊢
  obtain ⟨hr, hv⟩ := h
  refine ⟨?_, ?_⟩
  · simp only [Memory.write, List.pairwise_append]
    refine ⟨⟨hr.filter _, cellsOf_rising a bs, ?_⟩, hr.filter _, ?_⟩
    · intro x hx y hy
      have := mem_cellsOf _ _ y hy
      simp only [List.mem_filter, decide_eq_true_eq] at hx
      omega
    · intro x hx y hy
      simp only [List.mem_append, List.mem_filter, decide_eq_true_eq] at hx hy
      rcases hx with hx | hx
      · omega
      · have := mem_cellsOf _ _ x hx
        omega
  · intro c hc
    simp only [Memory.write, List.mem_append, List.mem_filter] at hc
    rcases hc with (hc | hc) | hc
    · exact hv c hc.1
    · exact (mem_cellsOf _ _ c hc).2.2
    · exact hv c hc.1

/-- Reading past cells at other addresses. -/
theorem Memory.read_append (m n : Memory) (a : Nat) (h : ∀ c ∈ m, c.1 ≠ a) : Memory.read (m ++ n) a = Memory.read n a := by
  induction m with
  | nil => rfl
  | cons c m ih =>
    have hc : c.1 ≠ a := h c (by simp)
    simpa [Memory.read, hc] using ih (fun x hx => h x (by simp [hx]))

/-- Dropping cells at other addresses changes no read. -/
theorem Memory.read_filter (m : Memory) (f : Host.Cell → Bool) (a : Nat) (h : ∀ c ∈ m, c.1 = a → f c = true) :
    Memory.read (m.filter f) a = Memory.read m a := by
  induction m with
  | nil => rfl
  | cons c m ih =>
    have ih := ih (fun x hx => h x (by simp [hx]))
    by_cases hc : c.1 = a
    · simp [Memory.read, h c (by simp) hc, hc]
    · by_cases hf : f c = true
      · simp [Memory.read, hf, hc, ih]
      · simp [Memory.read, hf, hc, ih]

/-- Reading among written bytes, with nothing else listed there. -/
theorem Memory.read_cellsOf (a : Nat) (bs : List Byte) (n : Memory) (x : Nat) (hx : a ≤ x) (hn : ∀ c ∈ n, c.1 ≠ x) :
    Memory.read (cellsOf a bs ++ n) x = bs.getD (x - a) unlistedByte := by
  induction bs generalizing a with
  | nil =>
    have : Memory.read n x = unlistedByte := by
      have := Memory.read_append n [] x hn
      simpa [Memory.read] using this
    simpa [cellsOf] using this
  | cons b bs ih =>
    rcases Nat.eq_or_lt_of_le hx with rfl | hlt
    · simp only [Nat.sub_self, List.getD_cons_zero, cellsOf]
      split
      · rename_i hb
        have : Memory.read (cellsOf (a + 1) bs ++ n) a = Memory.read n a :=
          Memory.read_append _ _ _ (fun c hc => by have := mem_cellsOf _ _ c hc; omega)
        rw [this, hb]
        have := Memory.read_append n [] a hn
        simpa [Memory.read] using this
      · simp [Memory.read]
    · have ih := ih (a + 1) hlt
      have hs : x - a = (x - (a + 1)) + 1 := by omega
      rw [hs, List.getD_cons_succ, ← ih]
      simp only [cellsOf]
      split
      · rfl
      · simp [Memory.read, Nat.ne_of_lt hlt]

/-- What a byte reads as after a write: the byte written there, and everywhere else what it read before (R28). -/
theorem Memory.read_write (m : Memory) (a : Nat) (bs : List Byte) (x : Nat) :
    Memory.read (Memory.write m a bs) x =
      if a ≤ x ∧ x < a + bs.length then bs.getD (x - a) unlistedByte else Memory.read m x := by
  simp only [Memory.write, List.append_assoc]
  by_cases h1 : x < a
  · rw [if_neg (by omega)]
    have key : ∀ l n : Memory, (∀ c ∈ n, c.1 ≠ x) →
        Memory.read (l.filter (fun c => decide (c.1 < a)) ++ n) x = Memory.read l x := by
      intro l n hn
      induction l with
      | nil =>
        have := Memory.read_append n [] x hn
        simpa [Memory.read] using this
      | cons c l ih =>
        by_cases hc : c.1 = x
        · simp [Memory.read, hc, h1]
        · by_cases hf : c.1 < a
          · simp [Memory.read, hf, hc, ih]
          · simp [Memory.read, hf, hc, ih]
    refine key _ _ (fun c hc => ?_)
    simp only [List.mem_append, List.mem_filter, decide_eq_true_eq] at hc
    rcases hc with hc | hc
    · have := mem_cellsOf _ _ c hc; omega
    · omega
  · rw [Memory.read_append _ _ _ (fun c hc => by simp only [List.mem_filter, decide_eq_true_eq] at hc; omega)]
    by_cases h2 : x < a + bs.length
    · rw [if_pos (by omega), Memory.read_cellsOf _ _ _ _ (by omega)]
      intro c hc
      simp only [List.mem_filter, decide_eq_true_eq] at hc
      omega
    · rw [if_neg (by omega), Memory.read_append _ _ _ (fun c hc => by have := mem_cellsOf _ _ c hc; omega)]
      exact Memory.read_filter _ _ _ (fun c _ hc => by simp; omega)

/-- The store that a power-up content gives is canonical. -/
theorem Memory.ofCells_wf (cs : List (Nat × Byte)) : Memory.wf (Memory.ofCells cs) = true := by
  have key : ∀ m : Memory, Memory.wf m = true →
      Memory.wf (cs.foldl (fun m c => if c.1 < storeSize then Memory.write m c.1 [c.2] else m) m) = true := by
    induction cs with
    | nil => exact fun m h => h
    | cons c cs ih =>
      intro m h
      simp only [List.foldl_cons]
      split
      · exact ih _ (Memory.write_wf _ _ _ h)
      · exact ih _ h
  exact key [] (by decide)

/-- Serving a transfer keeps the canonical form. -/
theorem serveStore_wf (t : Transfer) (m : Memory) (h : Memory.wf m = true) : Memory.wf (serveStore t m) = true := by
  unfold serveStore
  split
  · exact h
  · exact Memory.write_wf _ _ _ h

/-- A grant keeps the canonical form. -/
theorem grantStore_wf (t : Transfer) (m : Memory) (k : Chip) (h : Memory.wf m = true) : Memory.wf (grantStore t m k) = true := by
  unfold grantStore
  split
  · exact serveStore_wf t m h
  · exact h
  · exact h

/-! ### Sparse tables -/

/-- The value just put. -/
theorem tblGet_tblPut_self {α : Type} (t : List (Nat × α)) (i : Nat) (x : α) : tblGet (tblPut t i x) i = some x := by
  induction t with
  | nil => simp [tblPut, tblGet]
  | cons e t ih =>
    obtain ⟨j, v⟩ := e
    simp only [tblPut]
    split
    · simp [tblGet]
    · split
      · simp [tblGet]
      · rename_i h1 h2
        simp [tblGet, Ne.symm h2, ih]

/-- A put leaves every other index. -/
theorem tblGet_tblPut_ne {α : Type} (t : List (Nat × α)) (i j : Nat) (x : α) (h : j ≠ i) :
    tblGet (tblPut t i x) j = tblGet t j := by
  induction t with
  | nil => simp [tblPut, tblGet, Ne.symm h]
  | cons e t ih =>
    obtain ⟨n, v⟩ := e
    simp only [tblPut]
    split
    · simp [tblGet, Ne.symm h]
    · split
      · rename_i h1 h2
        subst h2
        simp [tblGet, Ne.symm h]
      · simp only [tblGet]
        split
        · rfl
        · exact ih

/-- An index erased. -/
theorem tblGet_tblErase_self {α : Type} (t : List (Nat × α)) (i : Nat) : tblGet (tblErase t i) i = none := by
  induction t with
  | nil => rfl
  | cons e t ih =>
    obtain ⟨n, v⟩ := e
    by_cases h : n = i
    · simpa [tblErase, h] using ih
    · simpa [tblErase, tblGet, h] using ih

/-- An erasure leaves every other index. -/
theorem tblGet_tblErase_ne {α : Type} (t : List (Nat × α)) (i j : Nat) (h : j ≠ i) : tblGet (tblErase t i) j = tblGet t j := by
  induction t with
  | nil => rfl
  | cons e t ih =>
    obtain ⟨n, v⟩ := e
    by_cases hn : n = i
    · have : n ≠ j := fun g => h (g ▸ hn)
      simp only [tblErase, List.filter_cons, hn, ne_eq, not_true_eq_false, decide_false, Bool.false_eq_true, if_false, tblGet,
        Ne.symm h] at ih ⊢
      simpa [tblErase, hn] using ih
    · by_cases hj : n = j
      · simp [tblErase, tblGet, hj, h]
      · simpa [tblErase, tblGet, hn, hj] using ih

end Sys2Proof.Machine
end

