-- ==== Sys2Proof/Laws/Intake.lean ====
section
/-! SUPPORT. What an event of IU leaves: the directory, the pins of a snapshot, and the writes with their bytes (R50, R55, R61, R71, R73); and
the reads that HF issues (R31). -/

namespace Sys2Proof.Machine

theorem tblGet_tblPut {α : Type} (t : List (Nat × α)) (i j : Nat) (x : α) :
    tblGet (tblPut t i x) j = if j = i then some x else tblGet t j := by
  split
  · next h => rw [h, tblGet_tblPut_self]
  · next h => exact tblGet_tblPut_ne t i j x h

theorem tblGet_tblErase {α : Type} (t : List (Nat × α)) (i j : Nat) :
    tblGet (tblErase t i) j = if j = i then none else tblGet t j := by
  split
  · next h => rw [h, tblGet_tblErase_self]
  · next h => exact tblGet_tblErase_ne t i j h

/-! ### The end of an event -/

theorem issueAll_iu (ts : List Transfer) (k : Chip) (h : ∀ t ∈ ts, t.client = .iu) :
    issueAll ts k = k.setSp { k.sp with iu := k.sp.iu ++ ts } := by
  induction ts generalizing k with
  | nil => simp [issueAll, Chip.setSp]
  | cons t ts ih =>
    have ht : t.client = .iu := h t (by simp)
    rw [show issueAll (t :: ts) k = issueAll ts (issue t k) from rfl, ih _ (fun x hx => h x (by simp [hx]))]
    simp [issue, ht, StorePort.setWaiting, StorePort.waiting, Chip.setSp]

/-- A transfer but for what its completion announces. -/
def Transfer.quietly (t : Transfer) : Transfer := { t with notices := [] }

theorem withLastNotices_quietly (n : List Notice) (ts : List Transfer) :
    (withLastNotices n ts).map Transfer.quietly = ts.map Transfer.quietly := by
  induction ts with
  | nil => rfl
  | cons t ts ih =>
    cases ts with
    | nil => rfl
    | cons u us => simpa [withLastNotices] using ih

theorem withLastNotices_eq_nil (n : List Notice) (ts : List Transfer) : withLastNotices n ts = [] ↔ ts = [] := by
  rcases ts with _ | ⟨t, _ | ⟨u, us⟩⟩ <;> simp [withLastNotices]

/-- The writes of an event of IU, but for their notices. -/
def eventWrites (k : Chip) (e : IuEvent) (parsed : Option Nat) : List Transfer :=
  let cells := releasedCells k e parsed
  recordWrites k e ++ cellMapWrites k.lay.mapBase (clearCells e.u cells).holdMap cells

/-- An event ends with its directory and with its writes at the tail of the IU queue; it changes nothing but IU and that queue (R55). -/
theorem finishEvent_spec (e : IuEvent) (parsed : Option Nat) (dirfull settle : Bool) (k : Chip) :
    ∃ ws, ws.map Transfer.quietly = (eventWrites k e parsed).map Transfer.quietly ∧
      finishEvent e parsed dirfull settle k =
        { k with
          iu := { clearCells e.u (releasedCells k e parsed) with settling := e.u.settling || (settle && !ws.isEmpty) }
          sp := { k.sp with iu := k.sp.iu ++ ws } } := by
  have hc : ∀ n c, ∀ t ∈ recordWrites k e ++
      withLastNotices n (cellMapWrites k.lay.mapBase (clearCells e.u c).holdMap c), t.client = .iu := by
    intro n c t ht
    rcases List.mem_append.mp ht with h | h
    · exact recordWrites_client k e t h
    · exact withLastNotices_client (cellMapWrites_client _ _ _) t h
  unfold finishEvent
  dsimp only
  generalize Notice.alert .cells :: (if dirfull = true then [Notice.alert .pages] else []) = n
  have hw : ∀ x : List Transfer, x = recordWrites k e ++ withLastNotices n
      (cellMapWrites k.lay.mapBase (clearCells e.u (releasedCells k e parsed)).holdMap (releasedCells k e parsed)) →
      x.map Transfer.quietly = (eventWrites k e parsed).map Transfer.quietly ∧ ∀ t ∈ x, t.client = .iu := by
    rintro x rfl
    refine ⟨?_, hc _ _⟩
    rw [List.map_append, withLastNotices_quietly, ← List.map_append]; rfl
  generalize hx : recordWrites k e ++ withLastNotices n
      (cellMapWrites k.lay.mapBase (clearCells e.u (releasedCells k e parsed)).holdMap (releasedCells k e parsed)) = x at hw ⊢
  obtain ⟨h1, h2⟩ := hw x rfl
  split
  · next h =>
    simp only [Bool.and_eq_true, Bool.not_eq_true', List.isEmpty_eq_false_iff] at h
    rw [issueAll_iu _ _ (withLastNotices_client h2)]
    refine ⟨withLastNotices [.iuIdle] x, (withLastNotices_quietly _ _).trans h1, ?_⟩
    simp [Chip.setSp, Chip.setIu, h.1, List.isEmpty_eq_false_iff.2 ((withLastNotices_eq_nil [Notice.iuIdle] x).not.2 h.2)]
  · next h =>
    rw [issueAll_iu _ _ h2]
    refine ⟨x, h1, ?_⟩
    simp only [Bool.not_eq_true] at h
    simp [Chip.setSp, Chip.setIu, h, clearCells]

@[simp] theorem clearCells_dir (u : IntakeUnit) (cs : List Nat) : (clearCells u cs).dir = u.dir := rfl

@[simp] theorem finishEvent_dir (e : IuEvent) (parsed : Option Nat) (dirfull settle : Bool) (k : Chip) :
    (finishEvent e parsed dirfull settle k).iu.dir = e.u.dir := by
  obtain ⟨ws, -, h⟩ := finishEvent_spec e parsed dirfull settle k
  rw [h]; rfl

/-! ### Pins (R71, R73) -/

theorem IuEvent.pin_dir (e : IuEvent) (i j : Nat) :
    tblGet (e.pin i).u.dir j = if j = i then
      (tblGet e.u.dir i).map (fun r => { r with pins := r.pins + 1, wasComplete := r.wasComplete || decide (r.state = .complete) })
    else tblGet e.u.dir j := by
  unfold IuEvent.pin
  split
  · next h => split
              · next g => rw [g, h]; rfl
              · rfl
  · next r h => simp only [IuEvent.put, IntakeUnit.setDir, tblGet_tblPut, h, Option.map]

theorem IuEvent.unpin_dir (e : IuEvent) (i j : Nat) :
    tblGet (e.unpin i).u.dir j = if j = i then
      (match tblGet e.u.dir i with
      | none => none
      | some r =>
        if r.pins = 0 then some r
        else if r.pins = 1 ∧ r.state = .superseded then none
        else some { r with pins := r.pins - 1, wasComplete := r.wasComplete || decide (r.state = .complete) })
    else tblGet e.u.dir j := by
  unfold IuEvent.unpin
  by_cases g : j = i
  · subst g
    cases h : tblGet e.u.dir j with
    | none => simp [h]
    | some r =>
      simp only [if_true]
      split
      · exact h
      · split
        · simp [IuEvent.retire, h, IntakeUnit.setDir, tblGet_tblErase]
        · simp [IuEvent.put, IntakeUnit.setDir, tblGet_tblPut]
  · cases h : tblGet e.u.dir i with
    | none => simp [g]
    | some r =>
      simp only [if_neg g]
      split
      · rfl
      · split
        · simp [IuEvent.retire, h, IntakeUnit.setDir, tblGet_tblErase, g]
        · simp [IuEvent.put, IntakeUnit.setDir, tblGet_tblPut, g]

/-- How often a record stands in a list of record numbers. -/
theorem pinnedRecords_count (snap : List PosSnap) (i : Nat) : (pinnedRecords snap).count i = namings snap i := by
  induction snap with
  | nil => rfl
  | cons s snap ih =>
    have : pinnedRecords (s :: snap) = (s.idx :: (match s.base with
      | some (b, _, _) => [b]
      | none => [])) ++ pinnedRecords snap := rfl
    rw [this, List.count_append, ih]
    have hn : namings (s :: snap) i = ((if s.idx = i then 1 else 0) + (match s.base with
      | some (b, _, _) => if b = i then 1 else 0
      | none => 0)) + namings snap i := rfl
    rw [hn]
    congr 1
    cases s.base with
    | none => simp [List.count_cons]
    | some b => simp [List.count_cons, Nat.add_comm]

theorem foldl_pin_dir (l : List Nat) (e : IuEvent) (i : Nat) :
    tblGet (l.foldl IuEvent.pin e).u.dir i = (tblGet e.u.dir i).map (fun r =>
      { r with pins := r.pins + l.count i, wasComplete := r.wasComplete || decide (0 < l.count i ∧ r.state = .complete) }) := by
  induction l generalizing e with
  | nil => cases h : tblGet e.u.dir i <;> simp [h]
  | cons j l ih =>
    rw [List.foldl_cons, ih, IuEvent.pin_dir]
    by_cases h : i = j
    · subst h
      cases tblGet e.u.dir i with
      | none => simp
      | some r =>
        simp only [if_true, Option.map, List.count_cons_self, Option.some.injEq, PageRecord.mk.injEq, true_and]
        refine ⟨by omega, ?_⟩
        cases r.wasComplete <;> by_cases hs : r.state = .complete <;> simp [hs]
    · rw [if_neg h, List.count_cons_of_ne (Ne.symm h)]

theorem foldl_unpin_dir (l : List Nat) (e : IuEvent) (i : Nat) :
    tblGet (l.foldl IuEvent.unpin e).u.dir i = (match tblGet e.u.dir i with
    | none => none
    | some r =>
      if r.state = .superseded ∧ 0 < r.pins ∧ r.pins ≤ l.count i then none
      else some { r with
        pins := r.pins - l.count i
        wasComplete := r.wasComplete || decide (0 < l.count i ∧ 0 < r.pins ∧ r.state = .complete) }) := by
  induction l generalizing e with
  | nil => cases h : tblGet e.u.dir i with
    | none => simp [h]
    | some r => simp [h]; omega
  | cons j l ih =>
    rw [List.foldl_cons, ih, IuEvent.unpin_dir]
    by_cases h : i = j
    · subst h
      cases tblGet e.u.dir i with
      | none => simp
      | some r =>
        simp only [if_true, List.count_cons_self]
        by_cases h0 : r.pins = 0
        · simp [h0]
        · rw [if_neg h0]
          by_cases h1 : r.pins = 1 ∧ r.state = .superseded
          · simp [h1]
          · rw [if_neg h1]
            simp only
            by_cases hs : r.state = .superseded
            · by_cases hp : r.pins ≤ l.count i + 1
              · have h2 : r.pins ≠ 1 := fun g => h1 ⟨g, hs⟩
                rw [if_pos ⟨hs, by omega, by omega⟩, if_pos ⟨hs, by omega, by omega⟩]
              · rw [if_neg (fun g => by omega), if_neg (fun g => by omega)]
                simp [hs]; omega
            · simp only [hs]
              simp
              refine ⟨by omega, ?_⟩
              cases r.wasComplete <;> by_cases hc : r.state = .complete <;> (simp [hc]; try omega)
    · rw [if_neg h, List.count_cons_of_ne (Ne.symm h)]

/-- A snapshot pins each record that it names, once for each naming (R71). -/
theorem snapshotRequest_pins (sep : Nat) (ps : List Position) (k : Chip) (snap : List PosSnap)
    (h : resolveAll k.iu.dir sep 0 ps = .ok snap) :
    (snapshotRequest sep ps k).1 = .pinned snap ∧ pinnedBy snap k.iu.dir (snapshotRequest sep ps k).2.iu.dir := by
  simp only [snapshotRequest, h]
  refine ⟨trivial, fun i => ?_⟩
  rw [finishEvent_dir, foldl_pin_dir, pinnedRecords_count]; rfl

/-- An unpin request gives up each pin of a snapshot (R73). -/
theorem unpinRequest_unpins (snap : List PosSnap) (k : Chip) : unpinnedBy snap k.iu.dir (unpinRequest snap k).iu.dir := by
  intro i
  simp only [unpinRequest, finishEvent_dir, foldl_unpin_dir, pinnedRecords_count]; rfl

/-! ### The bytes that an event writes (R61) -/

/-- What an event of IU keeps while it goes on: every record that it has changed is among its headers, each once, and it has added no record but
the one it founds. -/
structure IuEvent.sound (k : Chip) (e : IuEvent) : Prop where
  nodup : e.headers.Nodup
  changed : ∀ i, tblGet k.iu.dir i ≠ tblGet e.u.dir i → i ∈ e.headers
  hold : e.u.holdMap = k.iu.holdMap
  founded : ∀ i, e.founded = some i → i ∈ e.headers ∧ (tblGet e.u.dir i).isSome = true
  added : ∀ i, (tblGet e.u.dir i).isSome = true → e.founded ≠ some i → (tblGet k.iu.dir i).isSome = true

theorem mem_changedIndexes {α : Type} [DecidableEq α] (old new : List (Nat × α)) (i : Nat) (h : tblGet old i ≠ tblGet new i) :
    i ∈ changedIndexes old new := by
  have mem : ∀ (t : List (Nat × α)) (v : α), tblGet t i = some v → (i, v) ∈ t := by
    intro t v
    induction t with
    | nil => intro h; cases h
    | cons e t ih =>
      obtain ⟨j, w⟩ := e
      simp only [tblGet]
      split
      · next g => intro h; cases h; simp [g]
      · intro h; exact .tail _ (ih h)
  simp only [changedIndexes, List.mem_append, List.mem_map, List.mem_filter, decide_eq_true_eq]
  cases hn : tblGet new i with
  | none =>
    cases ho : tblGet old i with
    | none => exact absurd (ho.trans hn.symm) h
    | some v => exact .inr ⟨(i, v), ⟨mem old v ho, by simp [hn]⟩, rfl⟩
  | some v => exact .inl ⟨(i, v), ⟨mem new v hn, fun g => h (g.trans hn.symm)⟩, rfl⟩

/-- Blocks of one length, one after another. -/
theorem blocks_length {w : Nat} (f : Nat → List Byte) (hf : ∀ i, (f i).length = w) (n : Nat) :
    ((List.range n).flatMap f).length = w * n := by
  induction n with
  | zero => rfl
  | succ n ih => rw [List.range_succ, List.flatMap_append, List.length_append, ih]; simp [hf, Nat.mul_succ]

theorem blocks_at {w : Nat} (f : Nat → List Byte) (hf : ∀ i, (f i).length = w) (n i : Nat) (h : i < n) :
    (((List.range n).flatMap f).drop (w * i)).take w = f i := by
  induction n with
  | zero => omega
  | succ n ih =>
    have hl := blocks_length f hf n
    rw [List.range_succ, List.flatMap_append, List.flatMap_cons, List.flatMap_nil, List.append_nil]
    by_cases g : i < n
    · have : w * i + w ≤ w * n := by rw [← Nat.mul_succ]; exact Nat.mul_le_mul_left w g
      rw [List.drop_append_of_le_length (by omega), List.take_append_of_le_length (by rw [List.length_drop]; omega), ih g]
    · obtain rfl : i = n := by omega
      rw [← hl, List.drop_left, List.take_of_length_le (Nat.le_of_eq (hf _))]

/-- The address and the bytes of a write. -/
def Transfer.written (t : Transfer) : Nat × List Byte := (t.addr, match t.op with
  | .read _ => []
  | .write b => b)

/-- The entry writes of an event for one record. -/
def entryPart (k : Chip) (e : IuEvent) (i : Nat) : List Transfer :=
  match tblGet e.u.dir i with
  | none =>
    match tblGet k.iu.dir i with
    | none => []
    | some old => entryWrites (k.pageAddr i) old { old with strips := [], patches := [] }
  | some r =>
    if e.founded = some i then foundingWrites (k.pageAddr i) r
    else
      match tblGet k.iu.dir i with
      | none => []
      | some old => entryWrites (k.pageAddr i) old r

/-- A strip entry of a record, as the directory has it. -/
def stripOf (dir : List (Nat × PageRecord)) (i n : Nat) : Option StripEntry := (tblGet dir i).bind (fun r => tblGet r.strips n)

/-- A patch entry of a record, as the directory has it. -/
def patchOf (dir : List (Nat × PageRecord)) (i n : Nat) : Option PatchEntry := (tblGet dir i).bind (fun r => tblGet r.patches n)

theorem entryPart_strip (k : Chip) (e : IuEvent) (h : e.sound k) (i n : Nat) (hf : e.founded ≠ some i)
    (hn : stripOf k.iu.dir i n ≠ stripOf e.u.dir i n) :
    iuWrite (k.pageAddr i + 0x4000 + 16 * n) (stripEntryBytes (stripOf e.u.dir i n)) [] ∈ entryPart k e i := by
  simp only [entryPart, if_neg hf]
  cases hk : tblGet k.iu.dir i with
  | none =>
    cases hu : tblGet e.u.dir i with
    | none => simp [stripOf, hk, hu] at hn
    | some r => have := h.added i (by simp [hu]) hf; simp [hk] at this
  | some old =>
    cases hu : tblGet e.u.dir i with
    | none =>
      refine List.mem_append_left _ (List.mem_map.2 ⟨n, mem_changedIndexes _ _ _ ?_, by simp [stripOf, hu, tblGet]⟩)
      simpa [stripOf, hk, hu, tblGet] using hn
    | some r =>
      refine List.mem_append_left _ (List.mem_map.2 ⟨n, mem_changedIndexes _ _ _ ?_, by simp [stripOf, hu]⟩)
      simpa [stripOf, hk, hu] using hn

theorem entryPart_patch (k : Chip) (e : IuEvent) (h : e.sound k) (i n : Nat) (hf : e.founded ≠ some i)
    (hn : patchOf k.iu.dir i n ≠ patchOf e.u.dir i n) :
    iuWrite (k.pageAddr i + 0x1000 + 32 * n) (patchEntryBytes (patchOf e.u.dir i n)) [] ∈ entryPart k e i := by
  simp only [entryPart, if_neg hf]
  cases hk : tblGet k.iu.dir i with
  | none =>
    cases hu : tblGet e.u.dir i with
    | none => simp [patchOf, hk, hu] at hn
    | some r => have := h.added i (by simp [hu]) hf; simp [hk] at this
  | some old =>
    cases hu : tblGet e.u.dir i with
    | none =>
      refine List.mem_append_right _ (List.mem_map.2 ⟨n, mem_changedIndexes _ _ _ ?_, by simp [patchOf, hu, tblGet]⟩)
      simpa [patchOf, hk, hu, tblGet] using hn
    | some r =>
      refine List.mem_append_right _ (List.mem_map.2 ⟨n, mem_changedIndexes _ _ _ ?_, by simp [patchOf, hu]⟩)
      simpa [patchOf, hk, hu] using hn

/-- Whether bytes are written at an address by one of a list of writes. -/
def writtenAt (ts : List Transfer) (a : Nat) (b : List Byte) : Prop :=
  ∃ x ∈ ts.map Transfer.written, ∃ n, x.1 + n = a ∧ (x.2.drop n).take b.length = b

theorem writtenAt_self {ts : List Transfer} {a : Nat} {b : List Byte} {n : List Notice} (h : iuWrite a b n ∈ ts) : writtenAt ts a b :=
  ⟨(a, b), List.mem_map.2 ⟨_, h, rfl⟩, 0, rfl, by simp⟩

theorem foundingWrites_strip (addr : Nat) (r : PageRecord) (n : Nat) (h : n < 3072) :
    writtenAt (foundingWrites addr r) (addr + 0x4000 + 16 * n) (stripEntryBytes (tblGet r.strips n)) := by
  have hl (i : Nat) : (stripEntryBytes (tblGet r.strips (256 * (n / 256) + i))).length = 16 := (stripEntryBytes_is _).1
  refine ⟨_, List.mem_map.2 ⟨_, List.mem_append_right _ (List.mem_map.2 ⟨n / 256, List.mem_range.2 (by omega), rfl⟩), rfl⟩,
    16 * (n % 256), by simp only [Transfer.written, iuWrite]; omega, ?_⟩
  rw [(stripEntryBytes_is _).1]
  refine (blocks_at _ hl 256 (n % 256) (Nat.mod_lt _ (by decide))).trans ?_
  rw [Nat.div_add_mod]

theorem foundingWrites_patch (addr : Nat) (r : PageRecord) (n : Nat) (h : n < 128) :
    writtenAt (foundingWrites addr r) (addr + 0x1000 + 32 * n) (patchEntryBytes (tblGet r.patches n)) := by
  refine ⟨_, List.mem_map.2 ⟨_, List.mem_append_left _ (.tail _ (.head _)), rfl⟩, 32 * n, rfl, ?_⟩
  rw [(patchEntryBytes_is _).1]
  exact blocks_at _ (fun i => (patchEntryBytes_is _).1) 128 n h

theorem foundingWrites_within (addr : Nat) (r : PageRecord) :
    ∀ x ∈ (foundingWrites addr r).map Transfer.written, addr + 0x60 ≤ x.1 ∧ x.1 + x.2.length ≤ addr + 65536 := by
  intro x hx
  obtain ⟨t, ht, rfl⟩ := List.mem_map.1 hx
  rcases List.mem_append.1 ht with ht | ht
  · have hp := blocks_length (fun i => patchEntryBytes (tblGet r.patches i)) (fun i => (patchEntryBytes_is _).1) 128
    simp only [List.mem_cons, List.not_mem_nil, or_false] at ht
    rcases ht with rfl | rfl | rfl | rfl <;>
      simp only [Transfer.written, iuWrite, List.length_replicate, hp] <;> omega
  · obtain ⟨j, hj, rfl⟩ := List.mem_map.1 ht
    have hs := blocks_length (fun i => stripEntryBytes (tblGet r.strips (256 * j + i))) (fun i => (stripEntryBytes_is _).1) 256
    have := List.mem_range.1 hj
    simp only [Transfer.written, iuWrite, hs]
    omega

theorem entryPart_each (k : Chip) (e : IuEvent) (i : Nat) : ∀ x ∈ (entryPart k e i).map Transfer.written,
    (∃ n, x.1 = k.pageAddr i + 0x4000 + 16 * n ∧ stripEntryIs (stripOf e.u.dir i n) x.2) ∨
    (∃ n, x.1 = k.pageAddr i + 0x1000 + 32 * n ∧ patchEntryIs (patchOf e.u.dir i n) x.2) ∨
    (e.founded = some i ∧ k.pageAddr i + 0x60 ≤ x.1 ∧ x.1 + x.2.length ≤ k.pageAddr i + 65536) := by
  have entries (old new : PageRecord) (hs : ∀ n, tblGet new.strips n = stripOf e.u.dir i n)
      (hp : ∀ n, tblGet new.patches n = patchOf e.u.dir i n) : ∀ x ∈ (entryWrites (k.pageAddr i) old new).map Transfer.written,
      (∃ n, x.1 = k.pageAddr i + 0x4000 + 16 * n ∧ stripEntryIs (stripOf e.u.dir i n) x.2) ∨
      (∃ n, x.1 = k.pageAddr i + 0x1000 + 32 * n ∧ patchEntryIs (patchOf e.u.dir i n) x.2) := by
    intro x hx
    obtain ⟨t, ht, rfl⟩ := List.mem_map.1 hx
    rcases List.mem_append.1 ht with ht | ht <;> obtain ⟨n, -, rfl⟩ := List.mem_map.1 ht
    · exact .inl ⟨n, rfl, by rw [← hs]; exact stripEntryBytes_is _⟩
    · exact .inr ⟨n, rfl, by rw [← hp]; exact patchEntryBytes_is _⟩
  intro x hx
  unfold entryPart at hx
  cases hu : tblGet e.u.dir i with
  | none =>
    rw [hu] at hx
    cases hk : tblGet k.iu.dir i with
    | none => simp [hk] at hx
    | some old =>
      rw [hk] at hx
      rcases entries _ _ (fun n => by simp [stripOf, hu, tblGet]) (fun n => by simp [patchOf, hu, tblGet]) x hx with h | h
      exacts [.inl h, .inr (.inl h)]
  | some r =>
    rw [hu] at hx
    by_cases hf : e.founded = some i
    · simp only [if_pos hf] at hx
      exact .inr (.inr ⟨hf, foundingWrites_within _ _ x hx⟩)
    · simp only [if_neg hf] at hx
      cases hk : tblGet k.iu.dir i with
      | none => simp [hk] at hx
      | some old =>
        rw [hk] at hx
        rcases entries _ _ (fun n => by simp [stripOf, hu]) (fun n => by simp [patchOf, hu]) x hx with h | h
        exacts [.inl h, .inr (.inl h)]

theorem distinct_spec (l : List Nat) : (distinct l).Nodup ∧ ∀ x, x ∈ distinct l ↔ x ∈ l := by
  suffices ∀ (l a : List Nat), a.Nodup → (l.foldl (fun a x => if a.contains x then a else a ++ [x]) a).Nodup ∧
      ∀ x, x ∈ l.foldl (fun a x => if a.contains x then a else a ++ [x]) a ↔ x ∈ a ∨ x ∈ l by
    simpa [distinct] using this l [] List.nodup_nil
  intro l
  induction l with
  | nil => intro a ha; simp [ha]
  | cons y l ih =>
    intro a ha
    rw [List.foldl_cons]
    by_cases hy : y ∈ a
    · rw [if_pos (by simpa using hy)]
      refine ⟨(ih a ha).1, fun x => ((ih a ha).2 x).trans ?_⟩
      simp only [List.mem_cons]
      constructor
      · rintro (h | h); exacts [.inl h, .inr (.inr h)]
      · rintro (h | rfl | h); exacts [.inl h, .inl hy, .inr h]
    · rw [if_neg (by simpa using hy)]
      have hn : (a ++ [y]).Nodup := by simp [List.nodup_append, ha]; exact fun x hx => by rintro rfl; exact hy hx
      refine ⟨(ih _ hn).1, fun x => ((ih _ hn).2 x).trans ?_⟩
      simp only [List.mem_append, List.mem_cons, List.not_mem_nil, or_false]
      tauto

theorem clearCells_other (u : IntakeUnit) (cs : List Nat) (c : Nat) (h : c ∉ cs) :
    (clearCells u cs).holdMap.getLsbD c = u.holdMap.getLsbD c := by
  simp only [clearCells]
  generalize u.holdMap = m
  induction cs generalizing m with
  | nil => rfl
  | cons x cs ih =>
    rw [List.foldl_cons, ih (fun g => h (.tail _ g))]
    have hx : c ≠ x := fun g => h (g ▸ .head _)
    simp only [mapSet, Bool.false_eq_true, if_false, BitVec.getLsbD_and, BitVec.getLsbD_not, BitVec.getLsbD_shiftLeft]
    by_cases hc : c < 4096
    · simp [hc]; omega
    · simp [BitVec.getLsbD_of_ge _ _ (Nat.le_of_not_lt hc)]

/-- What a write is, but for its notices. -/
def Transfer.act (t : Transfer) : Client × Option Stream × Purpose × Nat × XferOp := (t.client, t.stream, t.purpose, t.addr, t.op)

theorem act_of_quietly {a b : List Transfer} (h : a.map Transfer.quietly = b.map Transfer.quietly) : a.map Transfer.act = b.map Transfer.act := by
  have := congrArg (List.map Transfer.act) h
  rwa [List.map_map, List.map_map, show Transfer.act ∘ Transfer.quietly = Transfer.act from rfl] at this

/-- The writes of IU have nothing of their own but their address, bytes and notices. -/
def Transfer.plain (t : Transfer) : Prop := t.act = (.iu, some .iuWrite, .quiet, t.written.1, .write t.written.2)

theorem entryPart_plain (k : Chip) (e : IuEvent) (i : Nat) : ∀ t ∈ entryPart k e i, t.plain := by
  have entries (a : Nat) (old new : PageRecord) : ∀ t ∈ entryWrites a old new, t.plain := by
    intro t ht
    rcases List.mem_append.1 ht with ht | ht <;> obtain ⟨n, -, rfl⟩ := List.mem_map.1 ht <;> rfl
  intro t ht
  unfold entryPart at ht
  split at ht
  · split at ht
    · cases ht
    · exact entries _ _ _ t ht
  · split at ht
    · rcases List.mem_append.1 ht with ht | ht
      · simp only [List.mem_cons, List.not_mem_nil, or_false] at ht
        rcases ht with rfl | rfl | rfl | rfl <;> rfl
      · obtain ⟨j, -, rfl⟩ := List.mem_map.1 ht; rfl
    · split at ht
      · cases ht
      · exact entries _ _ _ t ht

/-- What a sound event writes: its changed entries, its headers and its cell map bytes (R50, R55, R56, R61). -/
theorem eventWrites_are (k t : Chip) (e : IuEvent) (parsed : Option Nat) (h : e.sound k) (hd : t.iu.dir = e.u.dir)
    (hm : t.iu.holdMap = (clearCells e.u (releasedCells k e parsed)).holdMap) (ws : List Transfer)
    (hw : ws.map Transfer.quietly = (eventWrites k e parsed).map Transfer.quietly) : k.intakeWrites t e.founded ws := by
  have hmem (i : Nat) {a : Nat} {b : List Byte} (hi : i ∈ e.headers) (hx : writtenAt (entryPart k e i) a b) :
      writtenAt (e.headers.flatMap (entryPart k e)) a b := by
    obtain ⟨x, hx, g⟩ := hx
    obtain ⟨y, hy, rfl⟩ := List.mem_map.1 hx
    exact ⟨_, List.mem_map.2 ⟨y, List.mem_flatMap.2 ⟨i, hi, hy⟩, rfl⟩, g⟩
  have hchange (i : Nat) (g : ¬i ∈ e.headers) : tblGet k.iu.dir i = tblGet e.u.dir i := by
    by_contra g1; exact g (h.changed i g1)
  have hinj : ∀ a b : Nat, k.pageAddr a = k.pageAddr b → a = b := by intro a b; simp only [Chip.pageAddr]; omega
  refine ⟨(e.headers.flatMap (entryPart k e)).map Transfer.written,
    e.headers.map (fun i => (k.pageAddr i, (tblGet e.u.dir i).map headerBytes |>.getD retiredHeader)),
    (distinct ((releasedCells k e parsed).map (· / 8))).map (fun i => (k.lay.mapBase + i, [mapByte t.iu.holdMap i])),
    ?_, ?_, ?_, ?_, ?_, ?_, ?_, ?_, ?_, ?_, ?_⟩
  · refine (act_of_quietly hw).trans ?_
    have hq : (recordWrites k e).map Transfer.act = (e.headers.flatMap (entryPart k e) ++ e.headers.map (fun i =>
        iuWrite (k.pageAddr i) ((tblGet e.u.dir i).map headerBytes |>.getD retiredHeader) [])).map Transfer.act := by
      refine act_of_quietly ?_
      simp only [recordWrites, List.map_append, withLastNotices_quietly]
      rfl
    have he : (e.headers.flatMap (entryPart k e)).map Transfer.act = ((e.headers.flatMap (entryPart k e)).map Transfer.written).map
        (fun x => (Client.iu, some Stream.iuWrite, Purpose.quiet, x.1, XferOp.write x.2)) := by
      rw [List.map_map]
      refine List.map_congr_left (fun y hy => ?_)
      obtain ⟨i, -, hy⟩ := List.mem_flatMap.1 hy
      exact entryPart_plain k e i y hy
    simp only [eventWrites, List.map_append, hq, he]
    congr 1
    · congr 1
      rw [List.map_map, List.map_map]; rfl
    · rw [hm, cellMapWrites, List.map_map, List.map_map]; rfl
  · intro i n hn
    refine ⟨stripEntryBytes (stripOf e.u.dir i n), (congrArg (stripEntryIs · _) (by rw [stripOf, ← hd])).mp (stripEntryBytes_is _), ?_⟩
    rcases hn with ⟨hf, hn⟩ | ⟨hf, hn⟩
    · have hn' : stripOf k.iu.dir i n ≠ stripOf e.u.dir i n := by rw [← hd]; exact hn
      have hi : i ∈ e.headers := by
        by_contra g; exact hn' (by simp only [stripOf, hchange i g])
      exact hmem i hi (writtenAt_self (entryPart_strip k e h i n hf hn'))
    · obtain ⟨hi, hs⟩ := h.founded i hf
      obtain ⟨r, hr⟩ := Option.isSome_iff_exists.1 hs
      refine hmem i hi ?_
      simp only [entryPart, hr, if_pos hf, stripOf, Option.bind_some]
      exact foundingWrites_strip _ r n hn
  · intro i n hn
    refine ⟨patchEntryBytes (patchOf e.u.dir i n), (congrArg (patchEntryIs · _) (by rw [patchOf, ← hd])).mp (patchEntryBytes_is _), ?_⟩
    rcases hn with ⟨hf, hn⟩ | ⟨hf, hn⟩
    · have hn' : patchOf k.iu.dir i n ≠ patchOf e.u.dir i n := by rw [← hd]; exact hn
      have hi : i ∈ e.headers := by
        by_contra g; exact hn' (by simp only [patchOf, hchange i g])
      exact hmem i hi (writtenAt_self (entryPart_patch k e h i n hf hn'))
    · obtain ⟨hi, hs⟩ := h.founded i hf
      obtain ⟨r, hr⟩ := Option.isSome_iff_exists.1 hs
      refine hmem i hi ?_
      simp only [entryPart, hr, if_pos hf, patchOf, Option.bind_some]
      exact foundingWrites_patch _ r n hn
  · intro i hf
    obtain ⟨hi, hs⟩ := h.founded i hf
    obtain ⟨r, hr⟩ := Option.isSome_iff_exists.1 hs
    refine hmem i hi (writtenAt_self (n := []) ?_)
    simp only [entryPart, hr, if_pos hf]
    exact .head _
  · intro x hx
    obtain ⟨y, hy, rfl⟩ := List.mem_map.1 hx
    obtain ⟨i, -, hy⟩ := List.mem_flatMap.1 hy
    refine ⟨i, ?_⟩
    have := entryPart_each k e i _ (List.mem_map.2 ⟨y, hy, rfl⟩)
    rwa [← hd] at this
  · rw [List.map_map]
    exact h.nodup.map (fun a b g => hinj a b g)
  · intro i hi
    exact ⟨_, List.mem_map.2 ⟨i, h.changed i (by rw [← hd]; exact hi), rfl⟩, rfl⟩
  · intro x hx
    obtain ⟨i, -, rfl⟩ := List.mem_map.1 hx
    refine ⟨i, rfl, fun g => ?_, fun r g => ?_⟩ <;> rw [hd] at g <;> simp only [g]
    · rfl
    · exact headerBytes_is r
  · rw [List.map_map]
    exact (distinct_spec _).1.map (fun a b g => by simpa using g)
  · intro c hc
    refine ⟨_, List.mem_map.2 ⟨c / 8, ((distinct_spec _).2 _).2 (List.mem_map.2 ⟨c, ?_, rfl⟩), rfl⟩, rfl⟩
    by_contra g
    exact hc (by rw [hm, clearCells_other _ _ _ g, h.hold])
  · intro x hx
    obtain ⟨i, -, rfl⟩ := List.mem_map.1 hx
    exact ⟨i, rfl⟩

/-! ### The parts of an event keep it sound -/

theorem IuEvent.sound_start (k : Chip) : (IuEvent.start k.iu).sound k where
  nodup := List.nodup_nil
  changed _ h := absurd rfl h
  hold := rfl
  founded _ h := nomatch h
  added _ h _ := h

theorem mem_headers {l : List Nat} {i j : Nat} : j ∈ (if l.contains i then l else l ++ [i]) ↔ j ∈ l ∨ j = i := by
  by_cases h : i ∈ l
  · rw [if_pos (by simpa using h)]
    exact ⟨.inl, fun g => g.elim id (fun g => g ▸ h)⟩
  · rw [if_neg (by simpa using h)]; simp

theorem nodup_headers {l : List Nat} {i : Nat} (h : l.Nodup) : (if l.contains i then l else l ++ [i]).Nodup := by
  by_cases g : i ∈ l
  · rwa [if_pos (by simpa using g)]
  · rw [if_neg (by simpa using g)]
    simp [List.nodup_append, h]; exact fun x hx => by rintro rfl; exact g hx

theorem IuEvent.sound_put {k : Chip} {e : IuEvent} (h : e.sound k) (i : Nat) (r : PageRecord) (hi : (tblGet e.u.dir i).isSome = true) :
    (e.put i r).sound k := by
  have hd (j : Nat) : tblGet (e.put i r).u.dir j =
      if j = i then some { r with wasComplete := r.wasComplete || decide (r.state = .complete) } else tblGet e.u.dir j := by
    simp only [IuEvent.put, IntakeUnit.setDir, tblGet_tblPut]
  refine ⟨nodup_headers h.nodup, fun j hj => mem_headers.2 ?_, h.hold, fun j hj => ⟨mem_headers.2 (.inl (h.founded j hj).1), ?_⟩,
    fun j hj hf => ?_⟩
  · by_cases g : j = i
    · exact .inr g
    · rw [hd, if_neg g] at hj; exact .inl (h.changed j hj)
  · rw [hd]; split
    · rfl
    · exact (h.founded j hj).2
  · rw [hd] at hj
    by_cases g : j = i
    · rw [g] at hf ⊢; exact h.added i hi hf
    · rw [if_neg g] at hj; exact h.added j hj hf

theorem IuEvent.sound_retire {k : Chip} {e : IuEvent} (h : e.sound k) (i : Nat) (hf : e.founded ≠ some i) : (e.retire i).sound k := by
  unfold IuEvent.retire
  split
  · exact h
  · have hd (j : Nat) : tblGet (e.u.setDir (tblErase e.u.dir i)).dir j = if j = i then none else tblGet e.u.dir j := by
      simp only [IntakeUnit.setDir, tblGet_tblErase]
    refine ⟨nodup_headers h.nodup, fun j hj => mem_headers.2 ?_, h.hold, fun j hj => ⟨mem_headers.2 (.inl (h.founded j hj).1), ?_⟩,
      fun j hj g => ?_⟩
    · by_cases g : j = i
      · exact .inr g
      · dsimp only at hj; rw [hd, if_neg g] at hj; exact .inl (h.changed j hj)
    · dsimp only at hj ⊢
      rw [hd, if_neg (by rintro rfl; exact hf hj)]; exact (h.founded j hj).2
    · dsimp only at hj
      rw [hd] at hj
      by_cases g1 : j = i
      · rw [if_pos g1] at hj; cases hj
      · rw [if_neg g1] at hj; exact h.added j hj g

theorem IuEvent.sound_pin {k : Chip} {e : IuEvent} (h : e.sound k) (i : Nat) : (e.pin i).sound k := by
  unfold IuEvent.pin
  split
  · exact h
  · next r hr => exact IuEvent.sound_put h i _ (by simp [hr])

theorem IuEvent.sound_unpin {k : Chip} {e : IuEvent} (h : e.sound k) (hf : e.founded = none) (i : Nat) :
    (e.unpin i).sound k ∧ (e.unpin i).founded = none := by
  unfold IuEvent.unpin
  split
  · exact ⟨h, hf⟩
  · next r hr =>
    split
    · exact ⟨h, hf⟩
    · split
      · refine ⟨IuEvent.sound_retire h i (by simp [hf]), ?_⟩
        unfold IuEvent.retire; split <;> exact hf
      · exact ⟨IuEvent.sound_put h i _ (by simp [hr]), hf⟩

theorem foldl_pin_sound {k : Chip} (l : List Nat) {e : IuEvent} (h : e.sound k) (hf : e.founded = none) :
    (l.foldl IuEvent.pin e).sound k ∧ (l.foldl IuEvent.pin e).founded = none := by
  induction l generalizing e with
  | nil => exact ⟨h, hf⟩
  | cons i l ih => exact ih (IuEvent.sound_pin h i) (by unfold IuEvent.pin; split <;> exact hf)

theorem foldl_unpin_sound {k : Chip} (l : List Nat) {e : IuEvent} (h : e.sound k) (hf : e.founded = none) :
    (l.foldl IuEvent.unpin e).sound k ∧ (l.foldl IuEvent.unpin e).founded = none := by
  induction l generalizing e with
  | nil => exact ⟨h, hf⟩
  | cons i l ih => exact ih (IuEvent.sound_unpin h hf i).1 (IuEvent.sound_unpin h hf i).2

/-- The end of a sound event: its writes stand behind the IU queue (R55). -/
theorem finishEvent_writes (k : Chip) (e : IuEvent) (parsed : Option Nat) (dirfull settle : Bool) (h : e.sound k) :
    ∃ ws, (finishEvent e parsed dirfull settle k).sp = { k.sp with iu := k.sp.iu ++ ws } ∧
      k.intakeWrites (finishEvent e parsed dirfull settle k) e.founded ws := by
  obtain ⟨ws, hw, ht⟩ := finishEvent_spec e parsed dirfull settle k
  refine ⟨ws, by rw [ht], eventWrites_are k _ e parsed h (finishEvent_dir ..) (by rw [ht]) ws hw⟩

/-- The writes of a snapshot request that pins (R71, R73). -/
theorem snapshotRequest_writes (sep : Nat) (ps : List Position) (k : Chip) (snap : List PosSnap)
    (h : resolveAll k.iu.dir sep 0 ps = .ok snap) :
    ∃ ws, (snapshotRequest sep ps k).2.sp = { k.sp with iu := k.sp.iu ++ ws } ∧ k.intakeWrites (snapshotRequest sep ps k).2 none ws := by
  simp only [snapshotRequest, h]
  obtain ⟨hs, hf⟩ := foldl_pin_sound (pinnedRecords snap) (IuEvent.sound_start k) rfl
  simpa only [hf] using finishEvent_writes k _ none false false hs

/-- The writes of an unpin request (R73). -/
theorem unpinRequest_writes (snap : List PosSnap) (k : Chip) :
    ∃ ws, (unpinRequest snap k).sp = { k.sp with iu := k.sp.iu ++ ws } ∧ k.intakeWrites (unpinRequest snap k) none ws := by
  obtain ⟨hs, hf⟩ := foldl_unpin_sound (pinnedRecords snap) (IuEvent.sound_start k) rfl
  rw [← hf]
  exact finishEvent_writes k _ none false false hs

/-! ### HF's reads (R31) -/

/-- With a pass in progress HF fetches as many row sets as it has room for. -/
theorem hfFetch_eq (k : Chip) (p : Pass) (h : k.hf.pass = some p) : hfFetch k = k.fetchesFor p := by
  have next (k : Chip) (p : Pass) (h : k.hf.pass = some p) (hp : p.prefetch.length + p.underway < 2 ∧ p.nextSet < rowSets p.width) :
      hfFetchOne k = { k with
        hf := { k.hf with pass := some { p with nextSet := p.nextSet + 1, underway := p.underway + 1 } }
        sp := { k.sp with hf := k.sp.hf ++
          [{ client := .hf, stream := some .hfRead, addr := k.bandAddr p.buffer + 4096 * p.nextSet, op := .read 4096
             purpose := .rowSet p.id p.nextSet, notices := [] }] } } := by
    rw [hfFetchOne, h]; exact if_pos hp
  have stop (k : Chip) (p : Pass) (h : k.hf.pass = some p)
      (hp : ¬(p.prefetch.length + p.underway < 2 ∧ p.nextSet < rowSets p.width)) : hfFetchOne k = k := by
    rw [hfFetchOne, h]; exact if_neg hp
  by_cases h1 : p.prefetch.length + p.underway < 2 ∧ p.nextSet < rowSets p.width
  · rw [hfFetch, next k p h h1]
    by_cases h2 : p.prefetch.length + (p.underway + 1) < 2 ∧ p.nextSet + 1 < rowSets p.width
    · have hn : min (2 - (p.prefetch.length + p.underway)) ((p.width + 511) / 512 - p.nextSet) = 2 := by
        simp only [rowSets] at h1 h2; omega
      rw [next _ _ rfl h2]
      simp [Chip.fetchesFor, hn, Chip.bandAddr, Chip.lay, List.range_succ]
    · have hn : min (2 - (p.prefetch.length + p.underway)) ((p.width + 511) / 512 - p.nextSet) = 1 := by
        simp only [rowSets] at h1 h2; omega
      rw [stop _ _ rfl h2]
      simp [Chip.fetchesFor, hn, Chip.bandAddr, List.range_succ]
  · have hn : min (2 - (p.prefetch.length + p.underway)) ((p.width + 511) / 512 - p.nextSet) = 0 := by
      simp only [rowSets] at h1; omega
    rw [hfFetch, stop k p h h1, stop k p h h1]
    simp [Chip.fetchesFor, hn, ← h]

end Sys2Proof.Machine
end

