-- ==== Sys2Proof/Laws/Laser.lean ====
section
/-! SUPPORT. The operations that leave the laser and the imager state alone. -/

namespace Sys2Proof.Machine

@[simp] theorem Chip.setSp_laserSafe (k : Chip) (x : StorePort) : (k.setSp x).laserSafe = k.laserSafe := rfl
@[simp] theorem Chip.setIu_laserSafe (k : Chip) (x : IntakeUnit) : (k.setIu x).laserSafe = k.laserSafe := rfl
@[simp] theorem Chip.setPsc_laserSafe (k : Chip) (x : Scheduler) : (k.setPsc x).laserSafe = k.laserSafe := rfl
@[simp] theorem Chip.setTl_laserSafe (k : Chip) (x : TableLoader) : (k.setTl x).laserSafe = k.laserSafe := rfl
@[simp] theorem Chip.setBr_laserSafe (k : Chip) (x : BandRenderer) : (k.setBr x).laserSafe = k.laserSafe := rfl
@[simp] theorem Chip.setDtu_laserSafe (k : Chip) (x : DrumTiming) : (k.setDtu x).laserSafe = k.laserSafe := rfl
@[simp] theorem Chip.setHlc_laserSafe (k : Chip) (x : HandlerLine) : (k.setHlc x).laserSafe = k.laserSafe := rfl
@[simp] theorem Chip.setDmr_laserSafe (k : Chip) (x : DamageRecorder) : (k.setDmr x).laserSafe = k.laserSafe := rfl
@[simp] theorem Chip.setFresh_laserSafe (k : Chip) (x : Nat) : (k.setFresh x).laserSafe = k.laserSafe := rfl

theorem Chip.setRegs_laserSafe (k : Chip) (x : Registers) (h : x.exposeEnable = k.regs.exposeEnable) :
    (k.setRegs x).laserSafe = k.laserSafe := by
  unfold Chip.laserSafe laserPermitted
  rw [show (k.setRegs x).regs.exposeEnable = k.regs.exposeEnable from h]
  rfl

theorem Chip.setPd_laserSafe (k : Chip) (x : Dispatcher) (h : x.runState = k.pd.runState) :
    (k.setPd x).laserSafe = k.laserSafe := by
  unfold Chip.laserSafe laserPermitted
  rw [show (k.setPd x).pd.runState = k.pd.runState from h]
  rfl

theorem Chip.setImc_laserSafe (k : Chip) (x : ImagingController) (h : x.state = k.imc.state) :
    (k.setImc x).laserSafe = k.laserSafe := by
  unfold Chip.laserSafe laserPermitted
  rw [show (k.setImc x).imc.state = k.imc.state from h]
  rfl

theorem Chip.setHf_laserSafe (k : Chip) (x : HeadFeed) (h : x.laser = k.hf.laser) : (k.setHf x).laserSafe = k.laserSafe := by
  unfold Chip.laserSafe laserPermitted
  rw [show (k.setHf x).hf.laser = k.hf.laser from h]
  rfl

/-! ### Flags -/

@[simp] theorem raise_laserSafe (c : Cause) (k : Chip) : (raise c k).laserSafe = k.laserSafe := rfl

/-! ### Ops -/

@[simp] theorem issue_laserSafe (t : Transfer) (k : Chip) :
    (issue t k).laserSafe = k.laserSafe := by
  unfold issue
  simp only [Chip.setSp_laserSafe]

@[simp] theorem issueAll_laserSafe (ts : List Transfer) (k : Chip) : (issueAll ts k).laserSafe = k.laserSafe :=
  foldl_keeps Chip.laserSafe _ (fun b t => by simp) ts k

@[simp] theorem pscWrite_laserSafe (addr : Nat) (data : List Byte) (notices : List Notice) (k : Chip) :
    (pscWrite addr data notices k).laserSafe = k.laserSafe := by
  unfold pscWrite
  simp only [Chip.setPsc_laserSafe, issue_laserSafe]

@[simp] theorem takeOffer_laserSafe (o : FaultOffer) (k : Chip) : (takeOffer o k).laserSafe = k.laserSafe := by
  unfold takeOffer; split <;> rfl

@[simp] theorem offerFault_laserSafe (o : FaultOffer) (k : Chip) :
    (offerFault o k).laserSafe = k.laserSafe := by
  unfold offerFault
  simp only [raise_laserSafe, issue_laserSafe, takeOffer_laserSafe, apply_ite Chip.laserSafe, ite_self]

@[simp] theorem acknowledgeFault_laserSafe (k : Chip) : (acknowledgeFault k).laserSafe = k.laserSafe := by
  unfold acknowledgeFault; dsimp only; split <;> rfl

@[simp] theorem tellPsc_laserSafe (i : PscInput) (k : Chip) :
    (tellPsc i k).laserSafe = k.laserSafe := by
  unfold tellPsc
  simp only [Chip.setPsc_laserSafe]

@[simp] theorem Chip.setUnit_laserSafe (k : Chip) (u : HUnit) (x : UnitState) :
    (Chip.setUnit k u x).laserSafe = k.laserSafe := by
  unfold Chip.setUnit
  simp only [Chip.setHlc_laserSafe]

@[simp] theorem queueRequest_laserSafe (u : HUnit) (r : Request) (k : Chip) :
    (queueRequest u r k).laserSafe = k.laserSafe := by
  unfold queueRequest
  simp only [Chip.setUnit_laserSafe]

@[simp] theorem drawFresh_laserSafe (k : Chip) :
    (drawFresh k).laserSafe = k.laserSafe := by
  unfold drawFresh
  simp only [Chip.setFresh_laserSafe]

/-! ### Damage -/

@[simp] theorem recordMark_laserSafe (byPsc : Bool) (m : MarkReport) (k : Chip) :
    (recordMark byPsc m k).laserSafe = k.laserSafe := by
  unfold recordMark
  repeat' (first | simp only [Chip.setPsc_laserSafe, Chip.setDmr_laserSafe, issueAll_laserSafe, apply_ite Chip.laserSafe, ite_self] | split)

@[simp] theorem reportMark_laserSafe (m : MarkReport) (k : Chip) :
    (reportMark m k).laserSafe = k.laserSafe := by
  unfold reportMark
  simp only [recordMark_laserSafe]

@[simp] theorem tellDisposition_laserSafe (d : Disposition) (k : Chip) : (tellDisposition d k).laserSafe = k.laserSafe := by
  unfold tellDisposition
  split <;> simp only [Chip.setPsc_laserSafe, tellPsc_laserSafe]

@[simp] theorem sendDisposition_laserSafe (k : Chip) :
    (sendDisposition k).laserSafe = k.laserSafe := by
  unfold sendDisposition
  repeat' (first | simp only [Chip.setDmr_laserSafe, tellDisposition_laserSafe, apply_ite Chip.laserSafe] | split)

/-! ### Intake -/

@[simp] theorem finishEvent_laserSafe (e : IuEvent) (parsed : Option Nat) (dirfull settle : Bool) (k : Chip) :
    (finishEvent e parsed dirfull settle k).laserSafe = k.laserSafe := by
  unfold finishEvent
  simp only [Chip.setIu_laserSafe, issueAll_laserSafe, apply_ite Chip.laserSafe, ite_self]

@[simp] theorem takeFragment_laserSafe (cell : Nat) (k : Chip) :
    (takeFragment cell k).laserSafe = k.laserSafe := by
  unfold takeFragment
  simp only [Chip.setIu_laserSafe, raise_laserSafe, issueAll_laserSafe, apply_ite Chip.laserSafe, ite_self]

@[simp] theorem takeDrop_laserSafe (key : PageKey) (k : Chip) :
    (takeDrop key k).laserSafe = k.laserSafe := by
  unfold takeDrop
  simp only [Chip.setIu_laserSafe]

@[simp] theorem parseBegin_laserSafe (k : Chip) :
    (parseBegin k).laserSafe = k.laserSafe := by
  unfold parseBegin
  repeat' (first | simp only [Chip.setIu_laserSafe, issue_laserSafe, apply_ite Chip.laserSafe] | split)

@[simp] theorem parseArrives_laserSafe (data : List Byte) (k : Chip) :
    (parseArrives data k).laserSafe = k.laserSafe := by
  unfold parseArrives
  repeat' (first | simp only [Chip.setIu_laserSafe, issue_laserSafe] | split)

@[simp] theorem parseEnd_laserSafe (k : Chip) :
    (parseEnd k).laserSafe = k.laserSafe := by
  unfold parseEnd
  repeat' (first | simp only [finishEvent_laserSafe, apply_ite Chip.laserSafe, ite_self] | split)

@[simp] theorem parseFenced_laserSafe (k : Chip) :
    (parseFenced k).laserSafe = k.laserSafe := by
  unfold parseFenced
  repeat' (first | simp only [finishEvent_laserSafe] | split)

@[simp] theorem dropApply_laserSafe (k : Chip) :
    (dropApply k).laserSafe = k.laserSafe := by
  unfold dropApply
  repeat' (first | simp only [finishEvent_laserSafe, apply_ite Chip.laserSafe] | split)

@[simp] theorem snapshotRequest_laserSafe (sep : Nat) (positions : List Position) (k : Chip) :
    (snapshotRequest sep positions k).2.laserSafe = k.laserSafe := by
  unfold snapshotRequest
  split <;> simp only [finishEvent_laserSafe]

@[simp] theorem unpinRequest_laserSafe (snap : List PosSnap) (k : Chip) : (unpinRequest snap k).laserSafe = k.laserSafe := by
  unfold unpinRequest
  simp only [finishEvent_laserSafe]

@[simp] theorem damageReport_laserSafe (idx : Nat) (patch : Bool) (x n cell off : Nat) (k : Chip) :
    (damageReport idx patch x n cell off k).laserSafe = k.laserSafe := by
  unfold damageReport
  repeat' (first | simp only [finishEvent_laserSafe] | split)

/-! ### Imager -/

@[simp] theorem setTarget_laserSafe (rpm : Nat) (k : Chip) :
    (setTarget rpm k).laserSafe = k.laserSafe := by
  unfold setTarget
  simp only [Chip.setImc_laserSafe, Chip.setDtu_laserSafe, apply_ite Chip.laserSafe, ite_self]

@[simp] theorem setExposure_laserSafe (e : Exposure) (k : Chip) :
    (setExposure e k).laserSafe = k.laserSafe := by
  unfold setExposure
  simp only [Chip.setImc_laserSafe]

@[simp] theorem setDrum_laserSafe (d : Option Drum) (k : Chip) :
    (setDrum d k).laserSafe = k.laserSafe := by
  unfold setDrum
  simp only [Chip.setImc_laserSafe]

@[simp] theorem setWaitingPlate_laserSafe (p : Option PlateRef) (k : Chip) :
    (setWaitingPlate p k).laserSafe = k.laserSafe := by
  unfold setWaitingPlate
  simp only [Chip.setImc_laserSafe]

@[simp] theorem writePair_laserSafe (format : Nat) (k : Chip) :
    (writePair format k).laserSafe = k.laserSafe := by
  unfold writePair
  simp only [Chip.setDtu_laserSafe]

@[simp] theorem hfFetchOne_laserSafe (k : Chip) :
    (hfFetchOne k).laserSafe = k.laserSafe := by
  unfold hfFetchOne
  repeat' (first | simp only [Chip.setHf_laserSafe, issue_laserSafe, apply_ite Chip.laserSafe, ite_self] | split)

@[simp] theorem hfFetch_laserSafe (k : Chip) :
    (hfFetch k).laserSafe = k.laserSafe := by
  unfold hfFetch
  simp only [hfFetchOne_laserSafe]

@[simp] theorem startPass_laserSafe (buffer width : Nat) (k : Chip) :
    (startPass buffer width k).laserSafe = k.laserSafe := by
  unfold startPass
  simp only [Chip.setHf_laserSafe, hfFetch_laserSafe]

@[simp] theorem rowSetArrives_laserSafe (pass j : Nat) (data : List Byte) (k : Chip) :
    (rowSetArrives pass j data k).laserSafe = k.laserSafe := by
  unfold rowSetArrives
  repeat' (first | simp only [Chip.setHf_laserSafe, hfFetch_laserSafe, apply_ite Chip.laserSafe, ite_self] | split)

@[simp] theorem freeDraining_laserSafe (k : Chip) :
    (freeDraining k).laserSafe = k.laserSafe := by
  unfold freeDraining
  simp only [Chip.setBr_laserSafe]

@[simp] theorem imcMark_laserSafe (p : PlateRef) (kind : MarkKind) (detail : Nat) (place : Place) (k : Chip) :
    (imcMark p kind detail place k).laserSafe = k.laserSafe := by
  unfold imcMark
  simp only [reportMark_laserSafe]

@[simp] theorem condemn_laserSafe (cond : Condition) (confirmed : Bool) (k : Chip) :
    (condemn cond confirmed k).laserSafe = k.laserSafe := by
  unfold condemn
  repeat' (first | simp only [setDrum_laserSafe] | split)

@[simp] theorem reportExposureEnd_laserSafe (p : PlateRef) (exposed holds : Nat) (k : Chip) :
    (reportExposureEnd p exposed holds k).laserSafe = k.laserSafe := by
  unfold reportExposureEnd
  simp only [tellPsc_laserSafe]

@[simp] theorem offerSlip_laserSafe (detail : Nat) (k : Chip) :
    (offerSlip detail k).laserSafe = k.laserSafe := by
  unfold offerSlip
  simp only [offerFault_laserSafe]

@[simp] theorem captureIndex_laserSafe (k : Chip) (elapsed : Nat) :
    (captureIndex k elapsed).laserSafe = k.laserSafe := by
  unfold captureIndex
  simp only [Chip.setDtu_laserSafe]

@[simp] theorem swathComplete_laserSafe (k : Chip) :
    (swathComplete k).laserSafe = k.laserSafe := by
  unfold swathComplete
  simp only [Chip.setHf_laserSafe, setExposure_laserSafe, freeDraining_laserSafe]

@[simp] theorem headClear_laserSafe (k : Chip) :
    (headClear k).laserSafe = k.laserSafe := by
  unfold headClear
  simp only [Chip.setImc_laserSafe, apply_ite Chip.laserSafe, ite_self]

@[simp] theorem imcBreak_laserSafe (slot attempt : Nat) (k : Chip) :
    (imcBreak slot attempt k).laserSafe = k.laserSafe := by
  unfold imcBreak
  repeat' (first | simp only [setExposure_laserSafe, imcMark_laserSafe, condemn_laserSafe, apply_ite Chip.laserSafe, ite_self] | split)

@[simp] theorem clearHolds_laserSafe (k : Chip) :
    (clearHolds k).laserSafe = k.laserSafe := by
  unfold clearHolds
  simp only [setExposure_laserSafe]

@[simp] theorem reportDeferred_laserSafe (place : Place) (k : Chip) :
    (reportDeferred place k).laserSafe = k.laserSafe := by
  unfold reportDeferred
  repeat' (first | simp only [setExposure_laserSafe, imcMark_laserSafe, apply_ite Chip.laserSafe] | split)

@[simp] theorem releaseUnits_laserSafe (k : Chip) :
    (releaseUnits k).laserSafe = k.laserSafe := by
  unfold releaseUnits
  simp only [Chip.setHlc_laserSafe]

/-! ### Renderer -/

@[simp] theorem discard_laserSafe (slot attempt : Nat) (k : Chip) :
    (discard slot attempt k).laserSafe = k.laserSafe := by
  unfold discard
  simp only [Chip.setBr_laserSafe]

@[simp] theorem joinRender_laserSafe (e : RenderEntry) (k : Chip) :
    (joinRender e k).laserSafe = k.laserSafe := by
  unfold joinRender
  simp only [Chip.setBr_laserSafe]

@[simp] theorem restart_laserSafe (e : RenderEntry) (k : Chip) :
    (restart e k).laserSafe = k.laserSafe := by
  unfold restart
  simp only [Chip.setBr_laserSafe]

@[simp] theorem updateEntry_laserSafe (slot attempt : Nat) (g : RenderEntry → RenderEntry) (k : Chip) :
    (updateEntry slot attempt g k).laserSafe = k.laserSafe := by
  unfold updateEntry
  simp only [Chip.setBr_laserSafe]

@[simp] theorem setFill_laserSafe (f : Fill) (k : Chip) :
    (setFill f k).laserSafe = k.laserSafe := by
  unfold setFill
  simp only [Chip.setBr_laserSafe]

@[simp] theorem findingMark_laserSafe (f : Fill) (key : PageKey) (patch : Option Nat) (k : Chip) :
    (findingMark f key patch k).laserSafe = k.laserSafe := by
  unfold findingMark
  repeat' (first | simp only [reportMark_laserSafe, updateEntry_laserSafe, apply_ite Chip.laserSafe, ite_self] | split)

@[simp] theorem decodeFinding_laserSafe (f : Fill) (it : FillItem) (sep : Nat) (k : Chip) :
    (decodeFinding f it sep k).laserSafe = k.laserSafe := by
  unfold decodeFinding
  repeat' (first | simp only [damageReport_laserSafe, findingMark_laserSafe] | split)

@[simp] theorem nextRowSet_laserSafe (f : Fill) (k : Chip) :
    (nextRowSet f k).laserSafe = k.laserSafe := by
  unfold nextRowSet
  repeat' (first | simp only [issue_laserSafe, setFill_laserSafe, apply_ite Chip.laserSafe, ite_self] | split)

@[simp] theorem nextRead_laserSafe (f : Fill) (a : Nat × Nat) (rest : List (Nat × Nat)) (k : Chip) :
    (nextRead f a rest k).laserSafe = k.laserSafe := by
  unfold nextRead
  simp only [issue_laserSafe, setFill_laserSafe]

@[simp] theorem runItems_laserSafe (sep : Nat) (its : List FillItem) (f : Fill) (k : Chip) :
    (runItems sep its f k).laserSafe = k.laserSafe := by
  induction its generalizing f k with
  | nil => simp only [runItems, nextRowSet_laserSafe]
  | cons it rest ih =>
    unfold runItems
    split
    · simp only [nextRead_laserSafe]
    · dsimp only
      rw [ih]
      split <;> simp only [decodeFinding_laserSafe]

@[simp] theorem startItems_laserSafe (f : Fill) (k : Chip) : (startItems f k).laserSafe = k.laserSafe := by
  unfold startItems
  split
  · simp only [setFill_laserSafe]
  · dsimp only
    rw [runItems_laserSafe]

@[simp] theorem entriesRead_laserSafe (f : Fill) (k : Chip) : (entriesRead f k).laserSafe = k.laserSafe := by
  unfold entriesRead
  rw [startItems_laserSafe]
  exact foldl_keeps Chip.laserSafe _ (fun b e => by simp) _ k

@[simp] theorem fillArrives_laserSafe (id : Nat) (isWrite : Bool) (data : List Byte) (k : Chip) :
    (fillArrives id isWrite data k).laserSafe = k.laserSafe := by
  unfold fillArrives
  repeat' (first | simp only [nextRowSet_laserSafe, nextRead_laserSafe, entriesRead_laserSafe, runItems_laserSafe] | split)

@[simp] theorem beginFill_laserSafe (m : Memory) (e : RenderEntry) (k : Chip) :
    (beginFill m e k).laserSafe = k.laserSafe := by
  unfold beginFill
  repeat' (first | simp only [Chip.setBr_laserSafe, updateEntry_laserSafe, nextRowSet_laserSafe, nextRead_laserSafe] | split)

@[simp] theorem fillBegin_laserSafe (m : Memory) (k : Chip) :
    (fillBegin m k).laserSafe = k.laserSafe := by
  unfold fillBegin
  repeat' (first | simp only [beginFill_laserSafe, apply_ite Chip.laserSafe, ite_self] | split)

@[simp] theorem fillEnd_laserSafe (k : Chip) :
    (fillEnd k).laserSafe = k.laserSafe := by
  unfold fillEnd
  repeat' (first | simp only [Chip.setBr_laserSafe, tellPsc_laserSafe, updateEntry_laserSafe, apply_ite Chip.laserSafe, ite_self] | split)

@[simp] theorem fillRefused_laserSafe (id slot attempt swath streamNo : Nat) (k : Chip) :
    (fillRefused id slot attempt swath streamNo k).laserSafe = k.laserSafe := by
  unfold fillRefused
  repeat' (first | simp only [Chip.setBr_laserSafe, reportMark_laserSafe, updateEntry_laserSafe, apply_ite Chip.laserSafe, ite_self] | split)

@[simp] theorem reachPoint_laserSafe (k : Chip) :
    (reachPoint k).laserSafe = k.laserSafe := by
  unfold reachPoint
  repeat' (first | simp only [Chip.setTl_laserSafe, Chip.setBr_laserSafe, apply_ite Chip.laserSafe, ite_self] | split)

@[simp] theorem pointFailed_laserSafe (e : RenderEntry) (t : TableId) (k : Chip) :
    (pointFailed e t k).laserSafe = k.laserSafe := by
  unfold pointFailed
  simp only [reportMark_laserSafe, updateEntry_laserSafe]

@[simp] theorem pointEnd_laserSafe (m : Memory) (k : Chip) :
    (pointEnd m k).laserSafe = k.laserSafe := by
  unfold pointEnd
  repeat' (first | simp only [Chip.setTl_laserSafe, Chip.setBr_laserSafe, beginFill_laserSafe, pointFailed_laserSafe, apply_ite Chip.laserSafe, ite_self] | split)

/-! ### Loader -/

@[simp] theorem takeTable_laserSafe (id : TableId) (k : Chip) :
    (takeTable id k).laserSafe = k.laserSafe := by
  unfold takeTable
  simp only [Chip.setTl_laserSafe, apply_ite Chip.laserSafe, ite_self]

@[simp] theorem setReload_laserSafe (r : Option Reload) (k : Chip) :
    (setReload r k).laserSafe = k.laserSafe := by
  unfold setReload
  simp only [Chip.setTl_laserSafe]

@[simp] theorem reloadRead_laserSafe (r : Reload) (a : Nat × Nat) (rest : List (Nat × Nat)) (k : Chip) :
    (reloadRead r a rest k).laserSafe = k.laserSafe := by
  unfold reloadRead
  simp only [issue_laserSafe, setReload_laserSafe]

@[simp] theorem reloadNext_laserSafe (r : Reload) (k : Chip) :
    (reloadNext r k).laserSafe = k.laserSafe := by
  unfold reloadNext
  repeat' (first | simp only [setReload_laserSafe, reloadRead_laserSafe] | split)

@[simp] theorem beginReload_laserSafe (id : TableId) (due : Bool) (k : Chip) :
    (beginReload id due k).laserSafe = k.laserSafe := by
  unfold beginReload
  simp only [reloadNext_laserSafe]

@[simp] theorem reloadArrives_laserSafe (data : List Byte) (k : Chip) :
    (reloadArrives data k).laserSafe = k.laserSafe := by
  unfold reloadArrives
  repeat' (first | simp only [setReload_laserSafe, reloadNext_laserSafe, apply_ite Chip.laserSafe, ite_self] | split)

@[simp] theorem reloadRefused_laserSafe (k : Chip) :
    (reloadRefused k).laserSafe = k.laserSafe := by
  unfold reloadRefused
  repeat' (first | simp only [setReload_laserSafe] | split)

@[simp] theorem reloadBegin_laserSafe (k : Chip) :
    (reloadBegin k).laserSafe = k.laserSafe := by
  unfold reloadBegin
  repeat' (first | simp only [Chip.setTl_laserSafe, beginReload_laserSafe, apply_ite Chip.laserSafe, ite_self] | split)

@[simp] theorem retakeValues_laserSafe (p : PlateRef) (k : Chip) :
    (retakeValues p k).laserSafe = k.laserSafe := by
  unfold retakeValues
  simp only [setTarget_laserSafe, setExposure_laserSafe, apply_ite Chip.laserSafe, ite_self]

@[simp] theorem profileLost_laserSafe (id : TableId) (k : Chip) :
    (profileLost id k).laserSafe = k.laserSafe := by
  unfold profileLost
  repeat' (first | simp only [reportMark_laserSafe, apply_ite Chip.laserSafe] | split)

@[simp] theorem drumRetakes_laserSafe (id : TableId) (k : Chip) :
    (drumRetakes id k).laserSafe = k.laserSafe := by
  unfold drumRetakes
  repeat' (first | simp only [retakeValues_laserSafe, apply_ite Chip.laserSafe, ite_self] | split)

@[simp] theorem profileReloaded_laserSafe (id : TableId) (k : Chip) :
    (profileReloaded id k).laserSafe = k.laserSafe := by
  unfold profileReloaded
  simp only [drumRetakes_laserSafe, profileLost_laserSafe]

@[simp] theorem queueClear_laserSafe (u : HUnit) (k : Chip) :
    (queueClear u k).laserSafe = k.laserSafe := by
  unfold queueClear
  simp only [Chip.setUnit_laserSafe]

@[simp] theorem beginClears_laserSafe (k : Chip) : (beginClears k).laserSafe = k.laserSafe := by
  unfold beginClears
  simp only [queueClear_laserSafe]
  rfl

@[simp] theorem reloadEnd_laserSafe (k : Chip) :
    (reloadEnd k).laserSafe = k.laserSafe := by
  unfold reloadEnd
  repeat' (first | simp only [Chip.setTl_laserSafe, profileReloaded_laserSafe, beginClears_laserSafe, apply_ite Chip.laserSafe, ite_self] | split)

/-! ### Handler -/

@[simp] theorem exchangeStart_laserSafe (k : Chip) :
    (exchangeStart k).laserSafe = k.laserSafe := by
  unfold exchangeStart
  repeat' (first | simp only [Chip.setHlc_laserSafe, Chip.setUnit_laserSafe, apply_ite Chip.laserSafe] | split)

@[simp] theorem putBack_laserSafe (u : HUnit) (r : Request) (k : Chip) :
    (putBack u r k).laserSafe = k.laserSafe := by
  unfold putBack
  simp only [Chip.setUnit_laserSafe]

@[simp] theorem setCarrier_laserSafe (n : Nat) (c : Carrier) (k : Chip) :
    (setCarrier n c k).laserSafe = k.laserSafe := by
  unfold setCarrier
  simp only [Chip.setHlc_laserSafe]

@[simp] theorem removeCarrier_laserSafe (n : Nat) (c : Carrier) (k : Chip) :
    (removeCarrier n c k).laserSafe = k.laserSafe := by
  unfold removeCarrier
  simp only [Chip.setHlc_laserSafe, tellPsc_laserSafe]

@[simp] theorem stageEnd_laserSafe (st : Stage) (k : Chip) :
    (stageEnd st k).laserSafe = k.laserSafe := by
  unfold stageEnd
  repeat' (first | simp only [queueRequest_laserSafe, setCarrier_laserSafe, removeCarrier_laserSafe] | split)

@[simp] theorem spoilAtStage_laserSafe (st : Stage) (kind : MarkKind) (detail : Nat) (k : Chip) :
    (spoilAtStage st kind detail k).laserSafe = k.laserSafe := by
  unfold spoilAtStage
  repeat' (first | simp only [reportMark_laserSafe, setCarrier_laserSafe, apply_ite Chip.laserSafe, ite_self] | split)

@[simp] theorem spoilCarriers_laserSafe (slot attempt : Nat) (k : Chip) :
    (spoilCarriers slot attempt k).laserSafe = k.laserSafe := by
  unfold spoilCarriers
  simp only [Chip.setHlc_laserSafe, apply_ite Chip.laserSafe, ite_self]

@[simp] theorem unloadDone_laserSafe (k : Chip) :
    (unloadDone k).laserSafe = k.laserSafe := by
  unfold unloadDone
  repeat' (first | simp only [Chip.setDtu_laserSafe, Chip.setHlc_laserSafe, tellPsc_laserSafe] | split)

@[simp] theorem carrierTaken_laserSafe (k : Chip) :
    (carrierTaken k).laserSafe = k.laserSafe := by
  unfold carrierTaken
  repeat' (first | simp only [Chip.setHlc_laserSafe, queueRequest_laserSafe] | split)

@[simp] theorem freeLine_laserSafe (k : Chip) :
    (freeLine k).laserSafe = k.laserSafe := by
  unfold freeLine
  simp only [Chip.setHlc_laserSafe]

@[simp] theorem restartPoll_laserSafe (u : HUnit) (k : Chip) :
    (restartPoll u k).laserSafe = k.laserSafe := by
  unfold restartPoll
  repeat' (first | simp only [Chip.setUnit_laserSafe] | split)

@[simp] theorem busyRetryExpires_laserSafe (u : HUnit) (k : Chip) :
    (busyRetryExpires u k).laserSafe = k.laserSafe := by
  unfold busyRetryExpires
  repeat' (first | simp only [Chip.setUnit_laserSafe, apply_ite Chip.laserSafe] | split)

@[simp] theorem pollTimerExpires_laserSafe (u : HUnit) (k : Chip) :
    (pollTimerExpires u k).laserSafe = k.laserSafe := by
  unfold pollTimerExpires
  repeat' (first | simp only [Chip.setUnit_laserSafe, apply_ite Chip.laserSafe] | split)

@[simp] theorem timeoutMark_laserSafe (u : HUnit) (r : Request) (k : Chip) :
    (timeoutMark u r k).laserSafe = k.laserSafe := by
  unfold timeoutMark
  repeat' (first | simp only [reportMark_laserSafe] | split)

/-! ### Scheduler -/

@[simp] theorem setPlate_laserSafe (slot : Nat) (p : Plate) (k : Chip) :
    (setPlate slot p k).laserSafe = k.laserSafe := by
  unfold setPlate
  simp only [Chip.setPsc_laserSafe]

@[simp] theorem updPlate_laserSafe (slot : Nat) (g : Plate → Plate) (k : Chip) :
    (updPlate slot g k).laserSafe = k.laserSafe := by
  unfold updPlate
  repeat' (first | simp only [setPlate_laserSafe] | split)

@[simp] theorem leaveReady_laserSafe (slot : Nat) (k : Chip) :
    (leaveReady slot k).laserSafe = k.laserSafe := by
  unfold leaveReady
  simp only [Chip.setPsc_laserSafe]

@[simp] theorem pscMark_laserSafe (m : MarkReport) (k : Chip) : (pscMark m k).laserSafe = k.laserSafe := by
  unfold pscMark
  simp only [recordMark_laserSafe]

@[simp] theorem checkLate_laserSafe (slot : Nat) (clock : Word) (k : Chip) :
    (checkLate slot clock k).laserSafe = k.laserSafe := by
  unfold checkLate
  repeat' (first | simp only [setPlate_laserSafe, pscMark_laserSafe, apply_ite Chip.laserSafe, ite_self] | split)

@[simp] theorem checkOverdue_laserSafe (slot : Nat) (clock : Word) (k : Chip) :
    (checkOverdue slot clock k).laserSafe = k.laserSafe := by
  unfold checkOverdue
  repeat' (first | simp only [setPlate_laserSafe, pscMark_laserSafe, apply_ite Chip.laserSafe, ite_self] | split)

@[simp] theorem setAllReady_laserSafe (b : Bool) (k : Chip) : (setAllReady b k).laserSafe = k.laserSafe := rfl

@[simp] theorem lookAt_laserSafe (slot n : Nat) (k : Chip) : (lookAt slot n k).laserSafe = k.laserSafe := by
  unfold lookAt
  repeat' (first | simp only [setAllReady_laserSafe, pscMark_laserSafe, apply_ite Chip.laserSafe, ite_self] | split)

@[simp] theorem enterReady_laserSafe (slot : Nat) (k : Chip) : (enterReady slot k).laserSafe = k.laserSafe := by
  unfold enterReady
  simp only [Chip.setPsc_laserSafe, updPlate_laserSafe]

@[simp] theorem enterWaiting_laserSafe (slot : Nat) (k : Chip) :
    (enterWaiting slot k).laserSafe = k.laserSafe := by
  unfold enterWaiting
  simp only [leaveReady_laserSafe, updPlate_laserSafe, checkLate_laserSafe]

@[simp] theorem settleReadiness_laserSafe (slot : Nat) (returned : Bool) (k : Chip) :
    (settleReadiness slot returned k).laserSafe = k.laserSafe := by
  unfold settleReadiness
  repeat' (first | simp only [leaveReady_laserSafe, enterReady_laserSafe, enterWaiting_laserSafe, apply_ite Chip.laserSafe, ite_self] | split)

@[simp] theorem giveUpPins_laserSafe (slot : Nat) (k : Chip) :
    (giveUpPins slot k).laserSafe = k.laserSafe := by
  unfold giveUpPins
  repeat' (first | simp only [unpinRequest_laserSafe, setPlate_laserSafe, apply_ite Chip.laserSafe, ite_self] | split)

@[simp] theorem closePlate_laserSafe (slot : Nat) (o : Outcome) (k : Chip) :
    (closePlate slot o k).laserSafe = k.laserSafe := by
  unfold closePlate
  simp only [updPlate_laserSafe, leaveReady_laserSafe]

@[simp] theorem writeNews_laserSafe (slot : Nat) (notices : List Notice) (k : Chip) :
    (writeNews slot notices k).laserSafe = k.laserSafe := by
  unfold writeNews
  simp only [pscWrite_laserSafe]

@[simp] theorem writeHold_laserSafe (slot : Nat) (k : Chip) :
    (writeHold slot k).laserSafe = k.laserSafe := by
  unfold writeHold
  simp only [pscWrite_laserSafe]

@[simp] theorem setNews_laserSafe (slot : Nat) (k : Chip) :
    (setNews slot k).laserSafe = k.laserSafe := by
  unfold setNews
  simp only [Chip.setPsc_laserSafe, writeNews_laserSafe, apply_ite Chip.laserSafe, ite_self]

@[simp] theorem clearNews_laserSafe (slot : Nat) (k : Chip) :
    (clearNews slot k).laserSafe = k.laserSafe := by
  unfold clearNews
  simp only [Chip.setPsc_laserSafe, writeNews_laserSafe, apply_ite Chip.laserSafe, ite_self]

@[simp] theorem fieldWrites_laserSafe (slot : Nat) (old new : Plate) (k : Chip) : (fieldWrites slot old new k).laserSafe = k.laserSafe := by
  have h : ∀ l : List ((Nat × List Byte) × (Nat × List Byte)),
      (l.foldl (fun k e => pscWrite (k.slotAddr slot + e.2.1) e.2.2 [] k) k).laserSafe = k.laserSafe :=
    fun l => foldl_keeps Chip.laserSafe _ (fun _ _ => pscWrite_laserSafe ..) l k
  unfold fieldWrites
  split <;> simp only [pscWrite_laserSafe, h]

@[simp] theorem publishSlot_laserSafe (slot : Nat) (old : Plate) (k : Chip) : (publishSlot slot old k).laserSafe = k.laserSafe := by
  unfold publishSlot
  repeat' (first | simp only [setNews_laserSafe, fieldWrites_laserSafe, apply_ite Chip.laserSafe, ite_self] | split)

@[simp] theorem setNewsDue_laserSafe (l : List Nat) (k : Chip) : (setNewsDue l k).laserSafe = k.laserSafe := rfl

@[simp] theorem setWork_laserSafe (l : List PscStep) (k : Chip) : (setWork l k).laserSafe = k.laserSafe := rfl

@[simp] theorem setDue_laserSafe (l : List PscEvent) (k : Chip) : (setDue l k).laserSafe = k.laserSafe := rfl

@[simp] theorem writeResult_laserSafe (slot : Nat) (k : Chip) :
    (writeResult slot k).laserSafe = k.laserSafe := by
  unfold writeResult
  repeat' (first | simp only [setNewsDue_laserSafe, pscWrite_laserSafe, setNews_laserSafe] | split)

theorem whileLive_laserSafe (slot : Nat) (f : Chip → Chip) (k : Chip) (h : (f k).laserSafe = k.laserSafe) :
    (whileLive slot f k).laserSafe = k.laserSafe := by
  unfold whileLive
  repeat' (first | simp only [h] | split)

@[simp] theorem popInbox_laserSafe (k : Chip) :
    (popInbox k).laserSafe = k.laserSafe := by
  unfold popInbox
  simp only [Chip.setPsc_laserSafe]

@[simp] theorem reSnapshotPinned_laserSafe (slot : Nat) (p : Plate) (snap : List PosSnap) (k : Chip) :
    (reSnapshotPinned slot p snap k).laserSafe = k.laserSafe := by
  unfold reSnapshotPinned
  simp only [unpinRequest_laserSafe, clearHolds_laserSafe, restart_laserSafe, setPlate_laserSafe, apply_ite Chip.laserSafe, ite_self]

@[simp] theorem startBreak_laserSafe (slot : Nat) (f : BreakFlag) (k : Chip) :
    (startBreak slot f k).laserSafe = k.laserSafe := by
  unfold startBreak
  repeat' (first | simp only [imcBreak_laserSafe, setPlate_laserSafe, apply_ite Chip.laserSafe, ite_self] | split)

@[simp] theorem takeOrder_laserSafe (slot : Nat) (k : Chip) :
    (takeOrder slot k).laserSafe = k.laserSafe := by
  unfold takeOrder
  simp only [Chip.setPsc_laserSafe, Chip.setDmr_laserSafe, raise_laserSafe, issue_laserSafe, writeHold_laserSafe, apply_ite Chip.laserSafe, ite_self]

@[simp] theorem planOrder_laserSafe (slot : Nat) (b : List Byte) (k : Chip) : (planOrder slot b k).1.laserSafe = k.laserSafe := by
  unfold planOrder
  dsimp only
  split <;> simp only [setPlate_laserSafe]

@[simp] theorem forgetSlot_laserSafe (slot : Nat) (k : Chip) :
    (forgetSlot slot k).laserSafe = k.laserSafe := by
  unfold forgetSlot
  simp only [Chip.setPsc_laserSafe, Chip.setDmr_laserSafe]

@[simp] theorem releaseSlot_laserSafe (slot : Nat) (k : Chip) :
    (releaseSlot slot k).laserSafe = k.laserSafe := by
  unfold releaseSlot
  simp only [Chip.setPsc_laserSafe, pscWrite_laserSafe, writeHold_laserSafe, clearNews_laserSafe, forgetSlot_laserSafe]

@[simp] theorem takeRelease_laserSafe (slot : Nat) (k : Chip) :
    (takeRelease slot k).laserSafe = k.laserSafe := by
  unfold takeRelease
  repeat' (first | simp only [raise_laserSafe, releaseSlot_laserSafe, apply_ite Chip.laserSafe, ite_self] | split)

@[simp] theorem takeSeen_laserSafe (slot : Nat) (k : Chip) :
    (takeSeen slot k).laserSafe = k.laserSafe := by
  unfold takeSeen
  simp only [clearNews_laserSafe]

@[simp] theorem applyExposingEntry_laserSafe (slot attempt prep : Nat) (k : Chip) :
    (applyExposingEntry slot attempt prep k).laserSafe = k.laserSafe := by
  unfold applyExposingEntry
  simp only [updPlate_laserSafe]

@[simp] theorem applyExposureEnd_laserSafe (slot prep exposed holds : Nat) (k : Chip) :
    (applyExposureEnd slot prep exposed holds k).laserSafe = k.laserSafe := by
  unfold applyExposureEnd
  simp only [updPlate_laserSafe]

@[simp] theorem applyRenderFinished_laserSafe (slot attempt snapNo : Nat) (k : Chip) :
    (applyRenderFinished slot attempt snapNo k).laserSafe = k.laserSafe := by
  unfold applyRenderFinished
  repeat' (first | simp only [giveUpPins_laserSafe, apply_ite Chip.laserSafe, ite_self] | split)

@[simp] theorem enterFinishing_laserSafe (slot : Nat) (k : Chip) :
    (enterFinishing slot k).1.laserSafe = k.laserSafe := by
  unfold enterFinishing
  repeat' (first | simp only [setPlate_laserSafe, giveUpPins_laserSafe] | split)

@[simp] theorem applyCarrierCreated_laserSafe (slot attempt : Nat) (spoiled : Bool) (k : Chip) :
    (applyCarrierCreated slot attempt spoiled k).1.laserSafe = k.laserSafe := by
  unfold applyCarrierCreated
  dsimp only
  repeat' (first | simp only [setPlate_laserSafe, enterFinishing_laserSafe] | split)

@[simp] theorem applyCarrierRemoved_laserSafe (slot attempt : Nat) (spoiled : Bool) (k : Chip) :
    (applyCarrierRemoved slot attempt spoiled k).laserSafe = k.laserSafe := by
  unfold applyCarrierRemoved
  simp only [updPlate_laserSafe]

@[simp] theorem spoilOutcome_laserSafe (slot : Nat) (k : Chip) :
    (spoilOutcome slot k).1.laserSafe = k.laserSafe := by
  unfold spoilOutcome
  repeat' (first | simp only [updPlate_laserSafe, leaveReady_laserSafe, closePlate_laserSafe] | split)

/-! ### The steps of PSC -/

@[simp] theorem checkStopped_laserSafe (k : Chip) : (checkStopped k).laserSafe = k.laserSafe := by
  unfold checkStopped
  split
  · rename_i h
    simp only [Bool.and_eq_true, decide_eq_true_eq] at h
    unfold Chip.laserSafe
    rw [show laserPermitted (k.setRun .stopped) = laserPermitted k by simp [laserPermitted, Chip.setRun, Chip.setPd, h.1]; rfl]
    rfl
  · rfl

@[simp] theorem publish_laserSafe (old : List (Nat × Plate)) (k : Chip) : (publish old k).laserSafe = k.laserSafe := by
  unfold publish
  rw [checkStopped_laserSafe, setNewsDue_laserSafe]
  exact foldl_keeps Chip.laserSafe _ (fun _ _ => publishSlot_laserSafe ..) old k

@[simp] theorem doStep_laserSafe (t : PscStep) (k : Chip) : (doStep t k).laserSafe = k.laserSafe := by
  cases t <;> simp only [doStep, pscMark_laserSafe, lookAt_laserSafe, checkLate_laserSafe, checkOverdue_laserSafe,
    startBreak_laserSafe, writeResult_laserSafe, publish_laserSafe, checkStopped_laserSafe]
  all_goals exact whileLive_laserSafe _ _ _ (by simp)

@[simp] theorem runSteps_laserSafe (l : List PscStep) (k : Chip) : (runSteps l k).laserSafe = k.laserSafe := by
  induction l generalizing k with
  | nil => rfl
  | cons t ts ih => unfold runSteps; split <;> simp only [setWork_laserSafe, ih, doStep_laserSafe]

@[simp] theorem planClock_laserSafe (v : Word) (k : Chip) : (planClock v k).1.laserSafe = k.laserSafe := rfl

end Sys2Proof.Machine
end

