-- ==== Sys2Proof/Laws/Marks.lean ====
section
/-! SUPPORT. How a mark is stored, what a mark report of a block can do, and what ends exposure, said once (R162, R188, R193). -/

namespace Sys2Proof.Machine

/-- Transfers of the REPORT client, issued in order, join its queue and change nothing else. -/
theorem issueAll_report (ts : List Transfer) (h : ∀ t ∈ ts, t.client = .report) (k : Chip) :
    issueAll ts k = { k with sp := { k.sp with report := k.sp.report ++ ts } } := by
  induction ts generalizing k with
  | nil => simp [issueAll]
  | cons t ts ih =>
    have ht : t.client = .report := h t (by simp)
    rw [show issueAll (t :: ts) k = issueAll ts (issue t k) from rfl, ih (fun x hx => h x (by simp [hx]))]
    simp [issue, ht, StorePort.setWaiting, StorePort.waiting, Chip.setSp]

theorem remember_marks (sm : SlotMarks) (m : MarkReport) : (remember sm m).marks = sm.marks := by
  simp only [remember]; split <;> split <;> rfl

/-! ### How a mark is stored (R193) -/

theorem remember_lost (sm : SlotMarks) (m : MarkReport) : (remember sm m).lost = sm.lost := by
  simp only [remember]; split <;> split <;> rfl

theorem oldestNote_none {l : List Mark} (h : ∀ x ∈ l, x.severity ≠ .note) : oldestNote l = none := by
  induction l with
  | nil => rfl
  | cons a l ih => rw [oldestNote, if_neg (h a (by simp)), ih (fun x hx => h x (by simp [hx]))]; rfl

theorem oldestNote_append {a : List Mark} {x : Mark} (b : List Mark) (hx : x.severity = .note) (ha : ∀ y ∈ a, y.severity ≠ .note) :
    oldestNote (a ++ x :: b) = some a.length := by
  induction a with
  | nil => simp [oldestNote, hx]
  | cons y a ih => simp [oldestNote, ha y (by simp), ih (fun z hz => ha z (by simp [hz]))]

/-- A list with room takes a mark at its end. -/
theorem storeMark_room (sm : SlotMarks) (m : Mark) (h : sm.marks.length < 8) :
    storeMark sm m = ({ sm with marks := sm.marks ++ [m] }, some [sm.marks.length]) := if_pos h

/-- A full list counts a NOTE lost, and any mark when it holds no NOTE. -/
theorem storeMark_lost (sm : SlotMarks) (m : Mark) (h : sm.marks.length = 8)
    (hm : m.severity = .note ∨ ∀ x ∈ sm.marks, x.severity ≠ .note) :
    storeMark sm m = ({ sm with lost := min 255 (sm.lost + 1) }, none) := by
  rcases hm with hm | hm
  · simp [storeMark, h, hm, sat255]
  · simp [storeMark, h, oldestNote_none hm, sat255]

/-- HOLD, SPOIL and FAIL displace the oldest NOTE of a full list. -/
theorem storeMark_displaces (sm : SlotMarks) (m : Mark) (a b : List Mark) (x : Mark) (h : sm.marks.length = 8)
    (hl : sm.marks = a ++ x :: b) (hx : x.severity = .note) (ha : ∀ y ∈ a, y.severity ≠ .note) (hm : m.severity ≠ .note) :
    storeMark sm m = ({ sm with marks := a ++ b ++ [m] }, some (List.range' a.length (8 - a.length))) := by
  rw [storeMark, if_neg (by omega), if_neg hm, hl, oldestNote_append b hx ha]
  simp [List.eraseIdx_append_of_length_le]

/-- A mark report of another block than PSC changes only the lists of DMR and REPORT's waiting transfers; of the lists only the one of its slot;
and with room the new mark is the list's last. -/
theorem reportMark_spec (m : MarkReport) (k : Chip) :
    ∃ l r, reportMark m k = { k with dmr := { k.dmr with lists := l }, sp := { k.sp with report := r } } ∧
      (∀ n, n ≠ m.slot → (reportMark m k).marks n = k.marks n) ∧
      ((k.plate m.slot).isSome = true → suppressed (k.marks m.slot) m = false → (k.marks m.slot).marks.length < 8 →
        ((reportMark m k).marks m.slot).marks = (k.marks m.slot).marks ++
          [{ kind := m.kind, severity := severityOf k m.kind m.slot m.attempt, charged := m.kind.charged
             place := placeOf k (severityOf k m.kind m.slot m.attempt) m.place m.slot m.attempt, attempt := m.attempt
             location := m.location, key := m.key, detail := m.detail, time := k.regs.plantClock }]) := by
  unfold reportMark recordMark
  cases hp : k.plate m.slot with
  | none => exact ⟨k.dmr.lists, k.sp.report, rfl, fun _ _ => rfl, by simp⟩
  | some x =>
    simp only
    by_cases hs : suppressed (k.marks m.slot) m = true
    · rw [if_pos hs]; exact ⟨k.dmr.lists, k.sp.report, rfl, fun _ _ => rfl, by simp [hs]⟩
    · rw [if_neg hs]
      simp only [Bool.false_eq_true, if_false]
      rw [issueAll_report _ (withLastNotices_client (markWrites_client _ _ _))]
      refine ⟨_, _, rfl, ?_, ?_⟩
      · intro n hn
        simp only [Chip.marks, Chip.setDmr, tblGet_tblPut_ne _ _ _ _ hn]
      · intro _ _ hl
        have hl' : (remember (k.marks m.slot) m).marks.length < 8 := by rw [remember_marks]; exact hl
        simp only [Chip.marks, Chip.setDmr, tblGet_tblPut_self, Option.getD_some]
        simp only [storeMark]
        rw [if_pos (by simpa [Chip.marks] using hl')]
        simp [remember_marks]

/-- The charged kinds of R189 beside the handler line's. -/
theorem charged_of_imc (kind : MarkKind) (h : kind ≠ .misreg) (h' : kind ≠ .process) :
    kind.charged = decide (kind = .underrun ∨ kind = .speed ∨ kind = .slip ∨ kind = .channel) := by
  cases kind <;> simp_all [MarkKind.charged]

/-- Exposure that ends with a finding of IMC's own ends as R162 says. -/
theorem endExposure_spoiled (k : Chip) (d : Drum) (p : PlateRef) (kind : MarkKind) (detail : Nat) (hd : k.imc.drum = some d)
    (hk : kind.baseSeverity = .spoil) (hm : kind ≠ .misreg) (hr : kind ≠ .process) : k.spoiledFrom (endExposure p (some (kind, detail)) k) d p kind detail := by
  have hh : kind.isHold = false := by cases kind <;> simp_all [MarkKind.baseSeverity, MarkKind.isHold]
  have hf : kind ≠ .fence ∧ kind ≠ .nosep := by cases kind <;> simp_all [MarkKind.baseSeverity]
  let k2 : Chip := { k with
    hf := { k.hf with pass := none, laser := 0 }
    br := { k.br with buffers := k.br.buffers.map Buffer.endDraining }
    psc := { k.psc with inbox := k.psc.inbox ++
      [.exposureEnd p.slot p.attempt p.prep k.imc.exposure.exposed k.imc.exposure.holds] }
    imc := { k.imc with drum := some { d with cond := .spoiled, confirmed := false } } }
  let m : MarkReport :=
    { slot := p.slot, attempt := p.attempt, kind := kind, location := .swath k.imc.exposure.cursor, key := none, detail := detail
      place := some .drum, nosep := none }
  have e2 : endExposure p (some (kind, detail)) k =
     (let k3 := reportMark m k2
      let k4 := setExposure { k3.imc.exposure with pass := 0, breakRequest := false } k3
      if k4.imc.pauses.any then goTo .paused k4 else goTo .unloadWait k4) := by
    simp [endExposure, condemn, freeDraining, endPass, setDrum, reportExposureEnd, tellPsc, Chip.setHf, Chip.setBr, Chip.setImc,
      Chip.setPsc, hd, k2, m, imcMark]
  rw [e2]
  obtain ⟨l, r, h1, h2, h3⟩ := reportMark_spec m k2
  simp only [h1, Chip.marks] at h2 h3
  refine ⟨?_, fun n hn => ?_, fun hp hl => ?_⟩
  · simp only [h1, setExposure, Chip.setImc, goTo, setTarget, darken, Chip.setHf, k2]
    by_cases hp : k.imc.pauses.any = true <;> simp [hp]
  · have := h2 n hn
    simp only [h1, setExposure, Chip.setImc, goTo, setTarget, darken, Chip.setHf, k2]
    simp only [k2] at this
    by_cases hp : k.imc.pauses.any = true <;> simpa [hp, Chip.marks] using this
  · have := h3 hp (by simp [suppressed, hf.1, hf.2, m]) hl
    simp only [m, charged_of_imc kind hm hr] at this
    simp [severityOf, hh, hk, placeOf] at this
    simp only [h1, setExposure, Chip.setImc, goTo, setTarget, darken, Chip.setHf, k2, m]
    simp only [k2] at this
    by_cases hp : k.imc.pauses.any = true <;> simpa [hp, Chip.marks] using this

end Sys2Proof.Machine
end

