-- ==== Sys2Proof/Laws/Plates.lean ====
section
/-! SUPPORT. What PSC does around an input: it goes on only while nothing blocks it, and an input that changes no plate writes nothing. -/

namespace Sys2Proof.Machine

/-! ### The end of an input -/

theorem fieldWrites_self (slot : Nat) (p : Plate) (k : Chip) : fieldWrites slot p p k = k := by
  have h : ∀ l : List (Nat × List Byte), (l.zip l).filter (fun e => decide (e.1.2 ≠ e.2.2)) = [] := by
    intro l
    induction l with
    | nil => rfl
    | cons a l ih => simpa using ih
  simp only [fieldWrites, h]; simp

/-- A slot whose plate stands as it was is not written, and its news bit stays unless it is due. -/
theorem publishSlot_self (k : Chip) (slot : Nat) (p : Plate) (h : k.plate slot = some p) (hn : slot ∉ k.psc.newsDue) :
    publishSlot slot p k = k := by
  simp [publishSlot, h, fieldWrites_self, hn]

/-- An input that changed no plate and has no news due writes nothing at its end. -/
theorem publish_same (old : List (Nat × Plate)) (k : Chip) (h : ∀ e ∈ old, k.plate e.1 = some e.2) (hn : k.psc.newsDue = []) :
    publish old k = checkStopped k := by
  have : ∀ l : List (Nat × Plate), (∀ e ∈ l, k.plate e.1 = some e.2) → l.foldl (fun a e => publishSlot e.1 e.2 a) k = k := by
    intro l
    induction l with
    | nil => intro _; rfl
    | cons e l ih =>
      intro hl
      rw [List.foldl_cons, publishSlot_self k e.1 e.2 (hl e (by simp)) (by simp [hn])]
      exact ih (fun x hx => hl x (by simp [hx]))
  unfold publish
  rw [this old h]
  have : setNewsDue [] k = k := by simp only [setNewsDue, ← hn]; rfl
  rw [this]

/-- The end of PSC's input changes the run state alone, and only from STOPPING to STOPPED. -/
theorem checkStopped_cases (k : Chip) :
    checkStopped k = k ∨ (k.pd.runState = .stopping ∧ checkStopped k = k.setRun .stopped) := by
  unfold checkStopped
  split
  · rename_i h
    simp only [Bool.and_eq_true, decide_eq_true_eq] at h
    exact .inr ⟨h.1, rfl⟩
  · exact .inl rfl

theorem checkStopped_of_not_stopping (k : Chip) (h : k.pd.runState ≠ .stopping) : checkStopped k = k :=
  (checkStopped_cases k).resolve_right (fun x => h x.1)

/-- A plate that is PREPARING or IMAGING keeps STOPPING. -/
theorem checkStopped_of_working (k : Chip) (h : ∃ e ∈ k.psc.plates, e.2.state = .preparing ∨ e.2.state = .imaging) :
    checkStopped k = k := by
  obtain ⟨e, he, hs⟩ := h
  have : (k.psc.plates.any (fun e => decide (e.2.state = .preparing) || decide (e.2.state = .imaging))) = true := by
    rw [List.any_eq_true]
    exact ⟨e, he, by rcases hs with hs | hs <;> simp [hs]⟩
  simp [checkStopped, this]

/-! ### Going on -/

@[simp] theorem setWork_work (l : List PscStep) (k : Chip) : (setWork l k).psc.work = l := rfl
@[simp] theorem setWork_self (k : Chip) : setWork k.psc.work k = k := rfl
@[simp] theorem setDue_due (l : List PscEvent) (k : Chip) : (setDue l k).psc.due = l := rfl
@[simp] theorem setDue_self (k : Chip) : setDue k.psc.due k = k := rfl

theorem runSteps_blocked (l : List PscStep) (k : Chip) (h : pscBlocked k = true) : runSteps l k = setWork l k := by
  cases l <;> simp [runSteps, h]

theorem runSteps_cons (t : PscStep) (ts : List PscStep) (k : Chip) (h : pscBlocked k = false) :
    runSteps (t :: ts) k = runSteps ts (doStep t k) := by
  simp [runSteps, h]

theorem runDue_blocked (l : List PscEvent) (k : Chip) (h : pscBlocked k = true) : runDue l k = setDue l k := by
  cases l <;> simp [runDue, h]

/-- PSC does not go on while it is blocked. -/
theorem pscGo_blocked (k : Chip) (h : pscBlocked k = true) : pscGo k = k := by
  have h1 : runSteps k.psc.work k = k := by rw [runSteps_blocked _ _ h, setWork_self]
  simp only [pscGo, h1, runDue_blocked _ _ h, setDue_self]

/-- With no step left and no event heard, PSC stays as it is. -/
theorem pscGo_idle (k : Chip) (hw : k.psc.work = []) (hd : k.psc.due = []) : pscGo k = k := by
  have h1 : runSteps k.psc.work k = k := by rw [hw, runSteps, ← hw, setWork_self]
  have h2 : runDue k.psc.due k = k := by rw [hd, runDue, ← hd, setDue_self]
  simp only [pscGo, h1, h2]

/-- What a free PSC is. -/
theorem pscFree_iff (k : Chip) : pscFree k = true ↔
    k.working = true ∧ k.psc.ordering = none ∧ k.psc.outstanding = 0 ∧ k.psc.awaiting = false ∧ k.psc.work = [] ∧ k.psc.due = [] := by
  simp only [pscFree, pscBlocked, Bool.and_eq_true, Bool.not_eq_true', Bool.or_eq_false_iff, Bool.not_eq_false', List.isEmpty_iff,
    decide_eq_false_iff_not, ne_eq, Decidable.not_not, Option.isSome_eq_false_iff, Option.isNone_iff_eq_none]
  tauto

/-- A free PSC that takes an input which changes no plate and has no step stays as it is. -/
theorem pscTake_same (plan : Chip → Plan) (k : Chip) (hp : plan k = (k, [])) (hf : pscFree k = true)
    (h : ∀ e ∈ k.psc.plates, k.plate e.1 = some e.2) (hn : k.psc.newsDue = [])
    (hs : k.pd.runState = .stopping → ∃ e ∈ k.psc.plates, e.2.state = .preparing ∨ e.2.state = .imaging) : pscTake plan k = k := by
  obtain ⟨h1, h2, h3, h4, h5, h6⟩ := (pscFree_iff k).1 hf
  have hb : pscBlocked k = false := by simp [pscBlocked, h1, h2, h3, h4]
  have hc : checkStopped k = k := by
    by_cases hr : k.pd.runState = .stopping
    · exact checkStopped_of_working k (hs hr)
    · exact checkStopped_of_not_stopping k hr
  have : beginInput plan k = k := by
    simp only [beginInput, hp, List.nil_append]
    rw [runSteps_cons _ _ _ hb, doStep, publish_same _ _ h hn, hc, runSteps, ← h5, setWork_self]
  rw [pscTake, this, pscGo_idle k h5 h6]

/-- Each entry of a table with rising indexes is the value at its index. -/
theorem tblGet_of_mem {α : Type} (l : List (Nat × α)) (hl : (l.map (·.1)).Pairwise (· < ·)) (e : Nat × α) (he : e ∈ l) :
    tblGet l e.1 = some e.2 := by
  induction l with
  | nil => simp at he
  | cons a l ih =>
    simp only [List.map_cons, List.pairwise_cons, List.mem_map, forall_exists_index, and_imp] at hl
    rcases List.mem_cons.1 he with rfl | he
    · simp [tblGet]
    · have : a.1 ≠ e.1 := Nat.ne_of_lt (hl.1 e.1 e he rfl)
      simp [tblGet, this, ih hl.2 he]

/-! ### The plates of other slots, and of the slot changed -/

@[simp] theorem setPlate_self (slot : Nat) (p : Plate) (k : Chip) : (setPlate slot p k).plate slot = some p :=
  tblGet_tblPut_self _ _ _

theorem setPlate_ne (slot n : Nat) (p : Plate) (k : Chip) (h : n ≠ slot) : (setPlate slot p k).plate n = k.plate n :=
  tblGet_tblPut_ne _ _ _ _ h

end Sys2Proof.Machine
end

