-- ==== Sys2Proof/Tests/Slice0.lean ====
section
/-! SUPPORT. Tests: the operand checks, the worked examples of the spec, and states that meet the hypotheses of the statements. -/

namespace Sys2Proof.Tests
open Sys2Proof Sys2Proof.Machine

/-! ### Operand checks: an ill-formed term that each check refuses -/

theorem wf_engineReset_needs_bit1 : Instr.wellFormed (.engineReset 1) = false ∧ Instr.wellFormed (.engineReset 2) = true := by decide
theorem wf_runSet_needs_bit0 : Instr.wellFormed (.runSet 4) = false ∧ Instr.wellFormed (.runSet 3) = false ∧ Instr.wellFormed (.runSet 5) = true := by
  decide
theorem wf_runClear_refuses_bit0 : Instr.wellFormed (.runClear 1) = false ∧ Instr.wellFormed (.runClear 2) = false ∧
    Instr.wellFormed (.runClear 4) = true := by decide
theorem wf_exposeEnable_by_bit2 : Instr.wellFormed (.exposeEnableSet 1) = false ∧ Instr.wellFormed (.exposeEnableClear 4) = false ∧
    Instr.wellFormed (.exposeEnableSet 4) = true ∧ Instr.wellFormed (.exposeEnableClear 1) = true := by decide
theorem wf_ignoredWrite_refuses_acting_registers : Instr.wellFormed (.registerWriteIgnored 0x00C 4 0) = false ∧
    Instr.wellFormed (.registerWriteIgnored 0xFFF 2 0) = false ∧ Instr.wellFormed (.registerWriteIgnored 0x00C 2 0) = true ∧
    Instr.wellFormed (.registerWriteIgnored 0x008 4 0) = true := by decide
theorem wf_hostAccess_refuses_past_4GiB : Instr.wellFormed (.hostAccess (.read 0xFFFFFFFF 2)) = false ∧
    Instr.wellFormed (.hostAccess (.write 0 [])) = false ∧ Instr.wellFormed (.hostAccess (.read 0xFFFFFFFF 1)) = true := by decide
theorem wf_layoutRecord_needs_its_shape : Instr.wellFormed (.layoutReadComplete emptyLayout) = false := by decide

/-- The table of commands gives no bits, so no word spells a command (log 34). -/
theorem decode_spells_no_command : decodeTableWord 32 0x10000000 = none := by decide

/-! ### Small states -/

/-- A legal layout record. -/
def lay : LayoutRecord :=
  { formatWord := 0x00640C01, cellBase := 0x10000, cellCount := 16, pageBase := 0x1000000, slotBase := 0x200000, slotCount := 16
    bandBase := 0x400000, tableBase := 0x800000, mapBase := 0x300000, statusBase := 0x301000, fenceBase := 0x380000
    domains := [⟨false, false, 0, 0⟩, ⟨false, false, 0, 0⟩, ⟨true, true, 0x40000000, 2⟩, ⟨false, false, 0, 0⟩]
    streams := [⟨false, 0⟩, ⟨true, 2⟩, ⟨true, 2⟩, ⟨false, 0⟩, ⟨false, 0⟩, ⟨false, 0⟩]
    formats := List.replicate 8 ⟨8192, 128, 100, 3, false⟩, slipTolerance := 4, speedWindow := 2, settleCount := 2, holdLimit := 1
    lateLead := 1800, weight := 12
    units := [⟨100, 100, 3, 60, .fault⟩, ⟨100, 100, 3, 60, .fault⟩, ⟨100, 100, 3, 60, .assumeDone⟩, ⟨100, 100, 3, 60, .fault⟩] }

/-- RUNNING with the layout taken up. -/
def run : Chip :=
  { Chip.reset with
    regs := { Registers.reset with run := true }
    pd := { Dispatcher.reset with runState := .running, layout := some lay }
    sp := { StorePort.reset with domains := lay.domains, streams := lay.streams, weight := lay.weight } }

/-- A machine with a chip. -/
def st (k : Chip) : State := State.reset.setChip k

/-- The chip with one word in the post queue. -/
def posted (w : Word) (k : Chip) : Chip := { k with pd := { k.pd with postQueue := [w] } }

/-- A page key. -/
def key1 : PageKey := ⟨2, 14, 0⟩

/-- An order of one position. -/
def order1 : Order :=
  { plateId := 77, edition := 5, sep := 0, format := 2, deadline := 7200, positions := [⟨key1, 0, 0⟩], profile := 0, curve := 0
    screenSet := 0, trim := 0, budget := 1, actionBreak := false, bin := 4 }

/-- A plate in a state, at attempt 1. -/
def plate (s : PlateState) : Plate := { Plate.atOrder order1 0 with state := s, status := .opened, pinsHeld := false }

/-- The chip with one plate in slot 3. -/
def held (p : Plate) (k : Chip) : Chip :=
  { k with psc := { k.psc with plates := [(3, p)], holdMap := 8, ready := if p.state = .ready then [3] else [] } }

theorem holdMap_three (n : Nat) : (8#512).getLsbD n = true ↔ 3 = n := by
  rw [show (8#512) = 1#512 <<< 3 by decide +kernel]
  simp only [BitVec.getLsbD_shiftLeft, BitVec.getLsbD_one, Bool.and_eq_true, decide_eq_true_eq, Bool.not_eq_true', decide_eq_false_iff_not]
  omega

theorem plate_held (p : Plate) (k : Chip) (n : Nat) : (held p k).plate n = if 3 = n then some p else none := rfl

/-- A plate whose attempt number, positions and charged spoils are in range makes a chip whose plates are in order. -/
theorem held_sound {p : Plate} {k : Chip} (ho : k.psc.ordering = none)
    (hp : p.attempt ≤ 15 ∧ p.order.positions.length ≤ 2 ∧
      (p.charged ≤ p.order.budget ∨ p.state = .failed ∨ (p.state = .closing ∧ p.closing ≠ some .cancelled))) :
    (held p k).platesSound := by
  have hready : ∀ n, n ∈ (held p k).psc.ready ↔ 3 = n ∧ p.state = .ready := fun n => by
    show n ∈ (if p.state = .ready then [3] else []) ↔ _
    split
    · rename_i h
      exact ⟨fun hn => ⟨(List.mem_singleton.mp hn).symm, h⟩, fun hn => List.mem_singleton.mpr hn.1.symm⟩
    · rename_i h
      exact ⟨fun hn => (nomatch hn), fun hn => absurd hn.2 h⟩
  refine ⟨by simp [held], fun n => ?_, fun n h => ?_, ?_, fun n h => ?_, fun n q h hq => ?_, fun n q h => ?_⟩
  · rw [plate_held]
    show (8#512).getLsbD n = true ↔ _ ∨ k.psc.ordering = some n
    rw [holdMap_three, ho]
    by_cases h : 3 = n <;> simp [h]
  · rw [show (held p k).psc.ordering = k.psc.ordering from rfl, ho] at h
    cases h
  · show (if p.state = .ready then [3] else []).Nodup
    split <;> simp
  · obtain ⟨rfl, hs⟩ := (hready n).mp h
    exact ⟨p, rfl, hs⟩
  · rw [plate_held] at h
    split at h
    · cases h
      exact .inl ((hready n).mpr ⟨‹_›, hq⟩)
    · cases h
  · rw [plate_held] at h
    split at h
    · cases h
      exact hp
    · cases h

/-- Such a chip is ready for the next input of PSC when PSC is free and the part is not STOPPING. -/
theorem held_ready {p : Plate} {k : Chip} (hf : pscFree (held p k) = true) (hr : k.pd.runState = .running)
    (hp : p.attempt ≤ 15 ∧ p.order.positions.length ≤ 2 ∧
      (p.charged ≤ p.order.budget ∨ p.state = .failed ∨ (p.state = .closing ∧ p.closing ≠ some .cancelled)))
    (hn : k.psc.newsDue = []) : (held p k).pscReady := by
  obtain ⟨_, ho, _, ha, hw, _⟩ := (pscFree_iff _).mp hf
  refine ⟨hf, ⟨fun h => ?_, fun ts t h => ?_, fun _ => hn, fun h => (nomatch hr.symm.trans h)⟩, held_sound ho hp⟩
  · rw [ha] at h
    cases h
  · rw [hw] at h
    exact absurd h (by simp)

/-- A chip without plates whose PSC is free is ready for its next input. -/
theorem empty_ready {k : Chip} (hf : pscFree k = true) (hr : k.pd.runState = .running) (hp : k.psc.plates = []) (hm : k.psc.holdMap = 0)
    (hl : k.psc.ready = []) (hn : k.psc.newsDue = []) : k.pscReady := by
  obtain ⟨_, ho, _, ha, hw, _⟩ := (pscFree_iff _).mp hf
  have hplate : ∀ n, k.plate n = none := fun n => by rw [Chip.plate, hp]; rfl
  refine ⟨hf, ⟨fun h => ?_, fun ts t h => ?_, fun _ => hn, fun h => (nomatch hr.symm.trans h)⟩, by rw [hp]; exact .nil, fun n => ?_, fun n h => hplate n,
    by rw [hl]; exact .nil, fun n h => ?_, fun n q h => ?_, fun n q h => ?_⟩
  · rw [ha] at h
    cases h
  · rw [hw] at h
    exact absurd h (by simp)
  · rw [hplate, ho, hm]
    simp
  · rw [hl] at h
    cases h
  · rw [hplate] at h
    cases h
  · rw [hplate] at h
    cases h

/-- That plate as IMC holds it. -/
def ref1 : PlateRef := ⟨3, 1, 0, 2, 0⟩

/-- The chip with a drum record, an imager state and whether exposure has begun. -/
def drummed (c : Condition) (owner : Option PlateRef) (s : ImagerState) (begun : Bool) (k : Chip) : Chip :=
  { k with imc := { k.imc with
      state := s, drum := some ⟨2, owner, c, false⟩, drumTarget := 600
      exposure := { Exposure.clear with begun := begun, pass := if begun then 1 else 0, values := ⟨600, 1, 0, 0⟩ } } }

/-- A manifest of 192 rows and separation 0, without patches. -/
def man1 : Manifest :=
  { derived := false, seps := 1, rows := 192, dots := 20000, patchCounts := [0, 0, 0, 0], base := ⟨0, 0, 0⟩, ranges := [], raw := [] }

/-- A record of `key1` in a state. -/
def rec1 (s : PageState) : PageRecord :=
  { state := s, key := key1, version := 1, manifest := some man1, clipped := false, dropped := false, baseFlag := false, pins := 0
    notes := Notes.zero, firstTime := 0, lastTime := 0, strips := [(0, .bad), (1, .present ⟨5, 32, 64, 9⟩)], patches := []
    wasComplete := decide (s = .complete) }

/-- The chip with one record in the directory. -/
def paged (r : PageRecord) (k : Chip) : Chip := { k with iu := { k.iu with dir := [(0, r)] } }

/-- The chip at a value of PLANT_CLOCK. -/
def clocked (n : Word) (k : Chip) : Chip := { k with regs := { k.regs with plantClock := n } }

/-- The position of `order1` is ready with a COMPLETE record of its key, and not ready with an unfinished one or none, without a NOSEP. -/
theorem order1_ready : order1.allReady (paged (rec1 .complete) run).iu.dir :=
  fun pos h => by cases List.mem_singleton.mp h; exact ⟨⟨0, 1, none⟩, rfl⟩
theorem order1_unready {dir : List (Nat × PageRecord)} (h : resolvePosition dir key1 0 = .notComplete) :
    ¬order1.allReady dir ∧ order1.nosepFree dir := by
  refine ⟨fun hr => ?_, fun pos hp i v he => ?_⟩
  · obtain ⟨_, hs⟩ := hr ⟨key1, 0, 0⟩ (List.mem_singleton.mpr rfl)
    cases h.symm.trans hs
  · cases List.mem_singleton.mp hp
    cases h.symm.trans he
theorem order1_unready_none : ¬order1.allReady run.iu.dir ∧ order1.nosepFree run.iu.dir := order1_unready rfl
theorem order1_unready_damaged : ¬order1.allReady (paged (rec1 .damaged) run).iu.dir ∧ order1.nosepFree (paged (rec1 .damaged) run).iu.dir :=
  order1_unready rfl

/-- The boundary of LATE for `order1`, with deadline 7,200 and late lead 1,800, and of OVERDUE. -/
theorem order1_late : let p := plate .waiting
    Plate.lateDue p run 5400 ∧ ¬Plate.lateDue p run 5399 ∧ ¬Plate.lateDue { p with lateDone := true } run 5400 ∧
      Plate.overdueDue (plate .ready) 7200 ∧ ¬Plate.overdueDue (plate .ready) 7199 ∧ ¬Plate.lateDue (plate .ready) run 7200 ∧
      ¬Plate.overdueDue p 5400 ∧ ¬Plate.overdueDue (plate .done) 7200 := by
  unfold Plate.lateDue Plate.overdueDue
  decide

/-- The chip after a command of a small state, and its field. -/
def after (c : Instr) (k : Chip) : Chip :=
  match exec c (st k) with
  | .next t => t.chip
  | .fault _ => k
  | .refused _ => k

/-! ### Worked examples of the spec -/

theorem test_status_after_reset : statusWord Chip.reset = 0x00040000 := by decide
theorem test_lay_passes_start_checks : startCheck lay = 0 ∧ startCheck { lay with formatWord := 0 } = 1 ∧
    startCheck { lay with cellBase := 0x200000 } = 4 := by decide
theorem test_post_words : decodePostWord 0x10000005 16 16 = some (.fragment 5) ∧ decodePostWord 0x10000010 16 16 = none ∧
    decodePostWord 0x38000007 16 16 = some (.breakWord 7 .cancel) ∧ decodePostWord 0x00000000 16 16 = none := by decide

/-- 2.7: page 291 of domain 2 lies in word 4, and the read just past the window is refused without a lookup. -/
theorem test_fence_example : fenceCheck run.sp .brRead 0x40123000 = .fetch 2 4 ∧ fenceCheck run.sp .brRead 0x50000000 = .refuse 2 ∧
    fenceCheck { run.sp with cache := [⟨2, 4, 1#64 <<< 35⟩] } .brRead 0x40123000 = .refuse 2 ∧
    fenceCheck { run.sp with cache := [⟨2, 4, 0⟩] } .brRead 0x40123000 = .allow := by decide

/-- 2.8: with weight 12, BR is served at p 0 to 11 and IU at 12 to 15. -/
theorem test_arbiter_example :
    let t : Transfer := ⟨.br, none, 0, .read 1, .quiet, []⟩
    let p : StorePort := { run.sp with br := [t], iu := [t] }
    chooseLow { p with weightPos := 11 } = some (.br, 12) ∧ chooseLow { p with weightPos := 12 } = some (.iu, 13) ∧
      chooseLow { p with weightPos := 15 } = some (.iu, 0) ∧ chooseLow { p with weightPos := 13, iu := [] } = some (.br, 13) := by decide

/-- R47: the CRC of the nine digits' bytes is the CRC-32 in common use. -/
theorem test_crc32_of_the_digits : crc32 [0x31, 0x32, 0x33, 0x34, 0x35, 0x36, 0x37, 0x38, 0x39] = 0xCBF43926 := by decide +kernel

/-- 6.5: the row of 1,000 white, 8,000 black and 11,000 white dots, and the one code too long. -/
theorem test_line_decode_example : lineDecode 20000 [0x83, 0xE8, 0x9F, 0x40, 0xAA, 0xF8] [] [] = ([[1000, 8000, 11000]], .more) ∧
    lineDecode 20000 [0x83, 0xE8, 0x9F, 0x40, 0xAA, 0xF9] [] [] = ([], .failed) := by decide

/-- The curve of the worked cases of 7.1. -/
def curve1 : Curve :=
  ⟨[0, 180, 380, 590, 810, 1040, 1280, 1530, 1790, 2060, 2340, 2630, 2930, 3240, 3560, 3890, 4095], 164, 3932⟩

theorem test_screened_cases : [100, 3, 12, 14, 239, 240, 250, 255].map (fun v => screened curve1 v (-60)) =
    [1282, 0, 0, 164, 3809, 3830, 3932, 4095] := by decide
theorem test_tone_truncates_toward_zero : tone ⟨[0, 0, 0, 0, 1100, 1060, 0, 0, 0, 0, 0, 0, 0, 0, 0, 0, 0], 0, 4095⟩ 75 = 1073 := by decide

/-- 8.1: the rating at 900 rpm, 2 % and tolerance 4. -/
theorem test_rating_example : (rate 900 67999 32768 2 4).inWindow = true ∧ (rate 900 68000 32768 2 4).inWindow = false ∧
    (rate 900 65333 32768 2 4).inWindow = true ∧ (rate 900 66666 32772 2 4).slip = false ∧ (rate 900 66666 32773 2 4).slip = true ∧
    (rate 900 66666 32763 2 4).slip = true := by decide

/-- 4.4: of page A's patches, 1 and 2 are inherited by D with own ranges 2–3 and 8–8, and 0 is not. -/
theorem test_inherited_patches :
    let p (row0 h s : Nat) : PatchSource := ⟨20, key1, 0, 1, s, 0, 0, 0, row0, 0, 1, h⟩
    inheritable [(2, 3), (8, 8)] (p 100 64 4) = false ∧ inheritable [(2, 3), (8, 8)] (p 580 32 1) = true ∧
      inheritable [(2, 3), (8, 8)] (p 0 16 8) = true := by decide

/-! ### One step of each family, expected from the rules -/

theorem test_post_lost_in_off : (after (.post 0x80000000) Chip.reset).regs.alert = 32 := by decide
theorem test_post_joins_queue : (after (.post 0x80000000) run).pd.postQueue = [0x80000000] := by decide
theorem test_run_set_starts : (after (.runSet 1) Chip.reset).pd.runState = .starting := by decide
theorem test_run_clear_stops : (after (.runClear 0) run).pd.runState = .stopped := by decide
theorem test_clock_wraps : (after .plantClockTick { Chip.reset with regs := { Registers.reset with plantClock := 0xFFFFFFFF } }).regs.plantClock = 0 := by
  decide
theorem test_fragment_holds_cell : (after .fragment (posted 0x10000005 run)).iu.queue = [.fragment 5] ∧
    (after .fragment (posted 0x10000005 run)).iu.holdMap.getLsbD 5 = true := by decide +kernel
theorem test_fragment_of_held_cell_is_bad : (after .fragment (posted 0x10000005 { run with iu := { run.iu with holdMap := 32 } })).regs.alert = 64 := by
  decide +kernel
theorem test_release_of_free_slot_is_bad : (after .release (posted 0x40000003 run)).regs.alert = 64 := by decide
theorem test_table_keeps_its_place :
    (after .table (posted 0x70000003 { run with tl := { run.tl with pendingSet := [⟨⟨.curve, 3⟩, false⟩] } })).tl.pendingSet.length = 1 := by decide
theorem test_first_transition_is_not_counted : (after (.encoderTransition .phase1Rises) run).dtu.count = 0 ∧
    (after (.encoderTransition .phase1Rises) run).dtu.prev = some .phase1Rises := by decide
theorem test_reverse_lowers_count :
    (after (.encoderTransition .phase1Rises) { run with dtu := { run.dtu with prev := some .phase2Rises, count := -32768 } }).dtu.count =
      -32768 := by decide
theorem test_channel_fault_pauses : (after (.headChannelFault 7) run).imc.state = .paused ∧
    (after (.headChannelFault 7) run).regs.alert = 8 := by decide
theorem test_exchange_takes_next_sequence :
    let u : UnitState := { UnitState.reset with queue := [⟨.unload, some 3, 1, 0⟩], seq := 255 }
    (after .exchangeStart { run with hlc := { run.hlc with loader := u } }).hlc.loader.work = some (⟨.unload, some 3, 1, 0⟩, .sent) := by
  decide
theorem test_host_access_past_store_faults : exec (.hostAccess (.read 0xFFFFFFFF 2)) (st run) = .fault .noSuchAddress := rfl
theorem test_dispatch_in_halted_waits : (after .resume (posted 0x80000000 { run with pd := { run.pd with runState := .halted } })).pd.postQueue.length = 1 := by
  decide

/-! ### Witnesses: states and operands that meet the hypotheses of each statement, clause by clause

`k_…` names the chip of a witness. A theorem `meets_<Statement>…` shows the hypotheses together. -/

/-- The chip in a run state. -/
def inRun (r : RunState) (k : Chip) : Chip := { k with pd := { k.pd with runState := r } }

/-- The chip with RUN and EXPOSE_ENABLE as given. -/
def ctl (r e : Bool) (k : Chip) : Chip := { k with regs := { k.regs with run := r, exposeEnable := e } }

/-- The chip in STARTING at a phase, with the layout taken up. -/
def starting (ph : StartPhase) : Chip := { run with pd := { run.pd with runState := .starting, phase := ph } }

theorem meets_StepRunsFront : (State.reset.setPending [.plantClockTick]).pending = [.plantClockTick] ∧ State.reset.pending = [] := by decide
theorem meets_ResetsAndLink : (2#32).getLsbD 1 = true := by decide
theorem meets_RunSetActs : ∀ r ∈ [RunState.off, .starting, .running, .stopping, .stopped, .halted], ∀ b ∈ [true, false],
    let k := ctl b true (inRun r run)
    k.regs.linkUp = true ∧ (5#32).getLsbD 1 = false ∧ (5#32).getLsbD 0 = true ∧ (k.regs.exposeEnable = true → (5#32).getLsbD 2 = true) := by
  decide
theorem meets_RunClearActs_stored :
    let ok (k : Chip) (v : Word) := k.regs.linkUp = true ∧ v.getLsbD 1 = false ∧ v.getLsbD 0 = false ∧
      (k.regs.exposeEnable = true → v.getLsbD 2 = true)
    (ok (ctl false false run) 0 ∧ (ctl false false run).regs.run = false) ∧
      ok (ctl true true (inRun .stopped run)) 4 ∧ (inRun .stopped run).pd.runState ≠ .running := by decide
theorem meets_RunClearActs_stops :
    let k := held (plate .imaging) run
    k.regs.linkUp = true ∧ (0#32).getLsbD 1 = false ∧ (0#32).getLsbD 0 = false ∧ k.regs.exposeEnable = false ∧ k.regs.run = true ∧
      k.pd.runState = .running ∧ (∀ e ∈ k.psc.plates, e.2.state ≠ .preparing) ∧ ∃ e ∈ k.psc.plates, e.2.state = .imaging := by decide
/-- A PREPARING plate while PSC waits for a write of its own, and one returned while PSC is free, at any clock and with any record. -/
theorem meets_RunClearActs_blocked :
    let k := held (plate .preparing) run
    let b := { k with psc := { k.psc with outstanding := 1 } }
    b.regs.run = true ∧ b.pd.runState = .running ∧ (∃ e ∈ b.psc.plates, e.2.state = .preparing) ∧ pscBlocked b = true := by decide
theorem meets_RunClearActs_returns (n : Word) (r : PageRecord) :
    let k := held (plate .preparing) (clocked n (paged r run))
    k.pscReady ∧ k.regs.linkUp = true ∧ (0#32).getLsbD 1 = false ∧ (0#32).getLsbD 0 = false ∧ k.regs.exposeEnable = false ∧ k.regs.run = true ∧
      k.pd.runState = .running ∧ k.plate 3 = some (plate .preparing) ∧ ∀ m x, m ≠ 3 → k.plate m = some x → x.state ≠ .preparing := by
  refine ⟨held_ready rfl rfl (by decide) rfl, rfl, by decide, by decide, rfl, rfl, rfl, rfl, fun m x hm h => ?_⟩
  rw [plate_held, if_neg (Ne.symm hm)] at h
  cases h
theorem meets_ExposeEnableActs_order : run.regs.linkUp = true ∧ (0#32).getLsbD 1 = false ∧ (1#32).getLsbD 1 = false ∧
    (1#32).getLsbD 0 = run.regs.run ∧ (1#32).getLsbD 2 = (0#32).getLsbD 2 := by decide
theorem meets_ExposeEnableActs_rise : run.regs.linkUp = true ∧ (5#32).getLsbD 1 = false ∧ (5#32).getLsbD 0 = run.regs.run ∧
    (5#32).getLsbD 2 = true := by decide
/-- The chip with an exposure under way. -/
def exposed (begun : Bool) : Chip := ctl true true (drummed .unexposed (some ref1) .exposing begun (held (plate .imaging) run))
theorem meets_ExposeEnableActs_fall :
    let ok (k : Chip) := k.regs.linkUp = true ∧ (1#32).getLsbD 1 = false ∧ (1#32).getLsbD 0 = k.regs.run ∧ (1#32).getLsbD 2 = false
    ok run ∧ run.regs.exposeEnable = false ∧
    ok (ctl true true (inRun .halted run)) ∧ (inRun .halted run).pd.runState = .halted ∧
    ok (ctl true true run) ∧ (ctl true true run).regs.exposeEnable = true ∧ run.pd.runState ≠ .halted ∧ run.imc.state ≠ .exposing ∧
    ok (exposed false) ∧ (exposed false).regs.exposeEnable = true ∧ (exposed false).working = true ∧
      (exposed false).imc.state = .exposing ∧ (exposed false).imc.exposure.begun = false := by decide
theorem meets_ExposeEnableActs_spoils :
    let k := exposed true
    k.regs.linkUp = true ∧ (1#32).getLsbD 1 = false ∧ (1#32).getLsbD 0 = k.regs.run ∧ (1#32).getLsbD 2 = false ∧ k.regs.exposeEnable = true ∧
      k.working = true ∧ k.imc.state = .exposing ∧ k.imc.exposure.begun = true ∧
      k.imc.drum = some ⟨2, some ref1, .unexposed, false⟩ ∧ (k.plate ref1.slot).isSome = true ∧
      (k.marks ref1.slot).marks.length < 8 := by decide
theorem meets_AlertRegisters : run.regs.linkUp = true ∧ (0xEF#32).getLsbD 4 = false ∧ (0x10#32).getLsbD 4 = true ∧
    Chip.reset.pd.layout = none ∧ (inRun .halted run).pd.runState = .halted ∧ run.pd.runState ≠ .halted ∧ run.pd.layout = some lay := by
  decide
theorem meets_PlantClockMoves : run.regs.linkUp = true ∧ (Instr.plantClockTick = .plantClockTick ∧ (1#32) = run.regs.plantClock + 1) ∧
    Instr.plantClockWrite 7 = .plantClockWrite 7 ∧ Chip.reset.working = false ∧ run.working = true ∧
    (let k := held (plate .waiting) run
     pscBlocked { k with psc := { k.psc with awaiting := true } } = true) := by decide
/-- `order1_late` gives the values of the clock at which nothing is due for this plate, LATE, and OVERDUE. -/
theorem meets_PlantClockMoves_ready (c : PlateState) (h : c = .waiting ∨ c = .ready) : let k := held (plate c) run
    k.pscReady ∧ k.psc.plates = [] ++ (3, plate c) :: [] ∧ k.plate 3 = some (plate c) ∧ (k.marks 3).marks.length < 8 := by
  rcases h with rfl | rfl <;> exact ⟨held_ready rfl rfl (by decide) rfl, rfl, rfl, by decide⟩

/-- A mark of a severity in a list. -/
def mark1 (s : Severity) : Mark :=
  { kind := .late, severity := s, charged := false, place := .none, attempt := 1, location := .none, key := none, detail := 0, time := 5 }

/-- The chip with a plate in slot 3 and a list of marks, `lost` others having been lost. -/
def listed (ms : List Mark) (lost : Nat) : Chip :=
  let k := held (plate .preparing) run
  { k with dmr := { k.dmr with lists := [(3, ⟨ms, lost, 1, some (7, 2), none⟩)] } }

/-- A mark report for slot 3. -/
def foundBy (kind : MarkKind) (nosep : Option (Nat × Nat × Nat)) : MarkReport :=
  { slot := 3, attempt := 1, kind := kind, location := .none, key := none, detail := 0, place := none, nosep := nosep }

/-- A READY plate whose mark list is full. -/
theorem meets_PlantClockMoves_full : let k := held (plate .ready) { run with dmr := { run.dmr with lists := [(3, ⟨List.replicate 8 (mark1 .hold), 255, 0, none, none⟩)] } }
    k.pscReady ∧ k.psc.plates = [] ++ (3, plate .ready) :: [] ∧ (k.marks 3).marks.length = 8 :=
  ⟨held_ready rfl rfl (by decide) rfl, rfl, by decide⟩
/-- A list with room, and full ones: with its oldest NOTE at place 2, and with none. -/
theorem meets_PlantClockMoves_marks : let a := List.replicate 2 (mark1 .spoil)
    let b := List.replicate 5 (mark1 .note)
    let k := listed (a ++ mark1 .note :: b) 0
    (listed a 0).plate 3 = some (plate .preparing) ∧ ((listed a 0).marks 3).marks.length < 8 ∧ (k.marks 3).marks.length = 8 ∧
    (k.marks 3).marks = a ++ mark1 .note :: b ∧ (mark1 .note).severity = .note ∧ (∀ y ∈ a, y.severity ≠ .note) ∧
    (foundBy .late none).kind = .late ∧ (foundBy .table none).kind = .table ∧ run.plate 3 = none ∧
    (((listed (List.replicate 8 (mark1 .hold)) 255).marks 3).marks.length = 8 ∧ ∀ x ∈ List.replicate 8 (mark1 .hold), x.severity ≠ .note) ∧
    (k.marks 3).fenceAttempt = (foundBy .fence none).attempt ∧ (k.marks 3).nosep0 = some (7, 2) ∧
    (foundBy .nosep (some (0, 7, 2))).nosep = some (0, 7, 2) ∧ (k.marks 3).nosep1 ≠ some (7, 2) := by decide

/-- A full list: a FAIL displaces the NOTE at place 2 and writes places 2 to 7; the lost-mark count stops at 255, and the disposition follows. -/
theorem test_full_mark_list :
    (let k := recordMark false (foundBy .table none)
       (listed (List.replicate 2 (mark1 .spoil) ++ mark1 .note :: List.replicate 5 (mark1 .hold)) 4)
     ((k.marks 3).marks.map (·.severity)) = [.spoil, .spoil, .hold, .hold, .hold, .hold, .hold, .fail] ∧ (k.marks 3).lost = 4 ∧
     k.sp.report.map (fun t => t.addr - (0x200000 + 1024 * 3)) = [0x180, 0x1A0, 0x1C0, 0x1E0, 0x200, 0x220, 0x138]) ∧
    let k := recordMark true (foundBy .late none) (listed (List.replicate 8 (mark1 .note)) 255)
    (k.marks 3).marks = List.replicate 8 (mark1 .note) ∧ (k.marks 3).lost = 255 ∧
    k.sp.report.map (fun t => (t.addr, t.op, t.notices)) =
      [(0x200000 + 1024 * 3 + 0x139, .write [255], [.markDone ⟨3, 1, .note, false, .none, true⟩])] := by decide

/-- The chip with a number of words in the post queue. -/
def words (n : Nat) (k : Chip) : Chip := { k with pd := { k.pd with postQueue := List.replicate n 0x80000000 } }

theorem meets_HostPost : (words 63 run).regs.linkUp = true ∧ (words 63 run).pd.runState = .running ∧
    (words 63 run).pd.postQueue.length < 64 ∧ 64 ≤ (words 64 run).pd.postQueue.length ∧ ¬(Chip.reset.pd.runState = .running ∨
      Chip.reset.pd.runState = .stopping ∨ Chip.reset.pd.runState = .stopped) := by decide
/-- A write of the host that waits between two reads. -/
theorem meets_HostPost_waits :
    let r : Transfer := ⟨.host, none, 0, .read 1, .host, []⟩
    let w : Transfer := ⟨.host, none, 0, .write [1], .host, []⟩
    let k := { run with sp := { run.sp with host := [r, w, r] } }
    k.regs.linkUp = true ∧ k.sp.host = [r] ++ w :: [r] ∧ (∃ d, w.op = .write d) ∧ ∀ x ∈ [r], ¬∃ d, x.op = .write d := by
  refine ⟨rfl, rfl, ⟨_, rfl⟩, fun x hx h => ?_⟩
  cases List.mem_singleton.mp hx
  obtain ⟨d, h⟩ := h
  cases h
theorem meets_PdDispatches_idle : ∀ r ∈ [RunState.off, .starting, .halted], (posted 0x80000000 (inRun r run)).pd.runState = r ∧
    (posted 0x80000000 (inRun r run)).pd.postQueue ≠ [] := by decide
theorem meets_PdDispatches_isDispatch : Instr.isDispatch .resume := trivial
theorem meets_PdDispatches_bad : ∀ r ∈ [RunState.running, .stopping, .stopped], (posted 0x10000010 (inRun r run)).pd.runState = r ∧
    (posted 0x10000010 (inRun r run)).pd.postQueue = [0x10000010] ∧ decodePostWord 0x10000010 run.lay.cellCount run.lay.slotCount = none := by
  decide
theorem meets_PdDispatches_resets : ∃ t, (2#32).getLsbD 1 = true ∧ (words 9 run).regs.linkUp = true ∧
    exec (.engineReset 2) (st (words 9 run)) = .next t := ⟨_, by decide, by decide, rfl⟩
theorem meets_PostWordRoundTrip : PostWord.legal 4096 512 (.fragment 4095) = true ∧ PostWord.legal 4096 512 (.order 511) = true ∧
    PostWord.legal 4096 512 (.drop key1) = true ∧
    decodePostWord 0x10000FFF 4096 512 = some (.fragment 4095) := by decide

/-! The head word of each kind, on RUNNING chips, at the highest cell and slot. -/

theorem head_fragment : (st (posted 0x1000000F run)).headIs (.fragment 15) [] := ⟨by decide, _, rfl, by decide⟩
theorem head_drop : (st (posted (postWordBits (.drop key1)) run)).headIs (.drop key1) [] := ⟨by decide, _, rfl, by decide⟩
theorem head_table : (st (posted 0x70000003 run)).headIs (.table ⟨.curve, 3⟩) [] := ⟨by decide, _, rfl, by decide⟩
theorem head_flush : (st (posted (postWordBits .fenceFlush) run)).headIs .fenceFlush [] := ⟨by decide, _, rfl, by decide⟩
theorem head_resume (k : Chip) (h : k.working = true) : (st (posted 0x80000000 k)).headIs .resume [] := ⟨h, _, rfl, rfl⟩
theorem head_order (k : Chip) (h : k.working = true) (hl : k.lay = lay) : (st (posted 0x2000000F k)).headIs (.order 15) [] := by
  refine ⟨h, _, rfl, ?_⟩
  show decodePostWord _ k.lay.cellCount k.lay.slotCount = _
  rw [hl]
  decide
theorem head_release (k : Chip) (h : k.working = true) (hl : k.lay = lay) :
    (st (posted (postWordBits (.release 3)) k)).headIs (.release 3) [] := by
  refine ⟨h, _, rfl, ?_⟩
  show decodePostWord _ k.lay.cellCount k.lay.slotCount = _
  rw [hl]
  decide
theorem head_seen (k : Chip) (h : k.working = true) (hl : k.lay = lay) : (st (posted (postWordBits (.seen 3)) k)).headIs (.seen 3) [] := by
  refine ⟨h, _, rfl, ?_⟩
  show decodePostWord _ k.lay.cellCount k.lay.slotCount = _
  rw [hl]
  decide
theorem head_break (f : BreakFlag) (k : Chip) (h : k.working = true) (hl : k.lay = lay) :
    (st (posted (postWordBits (.breakWord 3 f)) k)).headIs (.breakWord 3 f) [] := by
  refine ⟨h, _, rfl, ?_⟩
  show decodePostWord _ k.lay.cellCount k.lay.slotCount = _
  rw [hl]
  cases f <;> decide

/-- The chip with IU's input queue of a length. -/
def iuQueue (n : Nat) (k : Chip) : Chip := { k with iu := { k.iu with queue := List.replicate n (.fragment 0) } }

theorem meets_HeadWordWaits_iu : (st (posted 0x1000000F (iuQueue 4160 run))).headIs (.fragment 15) [] ∧
    (PostWord.fragment 15).command = .fragment ∧ 4160 ≤ (posted 0x1000000F (iuQueue 4160 run)).iu.queue.length :=
  ⟨⟨rfl, _, rfl, by decide⟩, rfl, Nat.le_of_eq List.length_replicate.symm⟩
theorem meets_HeadWordWaits_psc :
    let k := { run with psc := { run.psc with outstanding := 1 } }
    (st (posted 0x2000000F k)).headIs (.order 15) [] ∧ (PostWord.order 15).command = .order ∧ pscFree (posted 0x2000000F k) = false :=
  ⟨head_order _ rfl rfl, rfl, rfl⟩
theorem meets_HeadWordWaits_other : Instr.isDispatch .resume ∧ Instr.resume ≠ (PostWord.fragment 15).command := ⟨trivial, by decide⟩
theorem meets_FragmentWord : (st (posted 0x1000000F (iuQueue 4159 run))).headIs (.fragment 15) [] ∧
    (posted 0x1000000F (iuQueue 4159 run)).iu.queue.length < 4160 := ⟨⟨rfl, _, rfl, by decide⟩, List.length_replicate.trans_lt (by decide)⟩
theorem meets_DropTableFlushWords : (st (posted (postWordBits (.drop key1)) run)).headIs (.drop key1) [] ∧ run.iu.queue.length < 4160 ∧
    (st (posted 0x70000003 run)).headIs (.table ⟨.curve, 3⟩) [] ∧ (st (posted (postWordBits .fenceFlush) run)).headIs .fenceFlush [] :=
  ⟨head_drop, by decide, head_table, head_flush⟩
theorem meets_SlotWords_order : (st (posted 0x2000000F run)).headIs (.order 15) [] ∧ pscFree (posted 0x2000000F run) = true ∧
    (posted 0x2000000F run).psc.holdMap.getLsbD 15 = false := ⟨head_order _ rfl rfl, rfl, by decide +kernel⟩
theorem meets_SlotWords_order_refused : (held (plate .done) (posted 0x20000003 run)).pscReady ∧
    (st (held (plate .done) (posted 0x20000003 run))).headIs (.order 3) [] ∧ (held (plate .done) run).psc.holdMap.getLsbD 3 = true :=
  ⟨held_ready rfl rfl (by decide) rfl, ⟨rfl, _, rfl, by decide⟩, by decide +kernel⟩
theorem meets_SlotWords_release : (held (plate .imaging) (posted (postWordBits (.release 3)) run)).pscReady ∧
    (st (posted (postWordBits (.release 3)) (held (plate .imaging) run))).headIs (.release 3) [] ∧
    ∀ p, (held (plate .imaging) run).plate 3 = some p → p.state.terminal = false :=
  ⟨held_ready rfl rfl (by decide) rfl, head_release _ rfl rfl, fun p h => by cases h; rfl⟩
theorem meets_SlotWords_break : (posted (postWordBits (.breakWord 3 .cancel)) run).pscReady ∧
    (st (posted (postWordBits (.breakWord 3 .cancel)) run)).headIs (.breakWord 3 .cancel) [] ∧ run.plate 3 = none ∧
    (held (plate .done) (posted (postWordBits (.breakWord 3 .requeue)) run)).pscReady ∧
    (st (posted (postWordBits (.breakWord 3 .requeue)) (held (plate .done) run))).headIs (.breakWord 3 .requeue) [] ∧
    (held (plate .done) run).plate 3 = some (plate .done) ∧ (plate .done).state.terminal = true :=
  ⟨empty_ready rfl rfl rfl rfl rfl rfl, head_break _ _ rfl rfl, rfl, held_ready rfl rfl (by decide) rfl, head_break _ _ rfl rfl,
    rfl, rfl⟩
theorem meets_ReleaseAndSeen : pscFree (held (plate .done) run) = true ∧
    (st (posted (postWordBits (.release 3)) (held (plate .done) run))).headIs (.release 3) [] ∧
    (held (plate .done) run).plate 3 = some (plate .done) ∧ (plate .done).state.terminal = true ∧
    (st (posted (postWordBits (.seen 3)) run)).headIs (.seen 3) [] :=
  ⟨rfl, head_release _ rfl rfl, rfl, rfl, head_seen _ rfl rfl⟩
/-- Each clause of the statement about BREAK: the plate state, whether exposure has begun, and the flag. -/
theorem meets_BreakWord (c : PlateState) (b : Bool) (f : BreakFlag) :
    let k := if b = true then exposed true else run
    let p : Plate := { plate c with carriersOut := if c = .closing then 1 else 0 }
    (held p (posted (postWordBits (.breakWord 3 f)) k)).pscReady ∧
      (st (posted (postWordBits (.breakWord 3 f)) (held p k))).headIs (.breakWord 3 f) [] ∧ (held p k).plate 3 = some p ∧
      exposureBegun (held p k) 3 p.attempt = b := by
  refine ⟨held_ready ?_ ?_ ?_ ?_, head_break _ _ ?_ ?_, ?_, ?_⟩ <;> cases b <;> cases c <;> (first | rfl | decide)
theorem meets_BreakWord_asks :
    let k := held (plate .imaging) (exposed true)
    (plate .imaging).breakPending = none ∧ k.imc.drum = some ⟨2, some ref1, .unexposed, false⟩ ∧ k.imc.state = .exposing ∧
      k.hlc.unloadEnd = .none ∧ (k.marks 3).marks.length < 8 := by decide

/-- The plate that a REQUEUE returns holds no pins, so that the directory stays as it is: its position is ready in it, or not. -/
theorem meets_BreakWord_readiness : (plate .preparing).pinsHeld = false ∧ (plate .preparing).order = order1 ∧
    order1.allReady (paged (rec1 .complete) run).iu.dir ∧ ¬order1.allReady run.iu.dir ∧ order1.nosepFree run.iu.dir :=
  ⟨rfl, rfl, order1_ready, order1_unready_none⟩

/-- A paused chip with a drum record and a plate waiting. -/
def pausedChip (d : Option Drum) (w : Option PlateRef) : Chip :=
  { run with imc := { run.imc with state := .paused, drum := d, waiting := w, pauses := ⟨true, true, false, false⟩ } }

theorem meets_ResumeWord : (st (posted 0x80000000 run)).headIs .resume [] ∧ run.imc.state ≠ .paused ∧
    (∀ w, (st (posted 0x80000000 (pausedChip none w))).headIs .resume [] ∧ (pausedChip none w).imc.state = .paused ∧
      (pausedChip none w).imc.drum = none ∧ (pausedChip none w).imc.waiting = w ∧ (pausedChip none w).imc.load = none) ∧
    ∀ c, (st (posted 0x80000000 (pausedChip (some ⟨2, some ref1, c, false⟩) none))).headIs .resume [] ∧
      (pausedChip (some ⟨2, some ref1, c, false⟩) none).imc.state = .paused :=
  ⟨head_resume _ rfl, by decide, fun _ => ⟨head_resume _ rfl, rfl, rfl, rfl, rfl⟩, fun _ => ⟨head_resume _ rfl, rfl⟩⟩
/-- A blank without an owner: no plate waits, one of its format, and one of another. -/
theorem meets_ResumeWord_blank : ∀ w ∈ [none, some ref1, some { ref1 with format := 3 }],
    let k := pausedChip (some ⟨2, none, .unexposed, false⟩) w
    k.imc.state = .paused ∧ k.imc.drum = some ⟨2, none, .unexposed, false⟩ ∧ k.imc.waiting = w ∧
      (k.imc.pauses.head && k.imc.headFault.isSome) = false ∧ (k.imc.pauses.interlock && !k.regs.exposeEnable) = false := by decide
theorem meets_ResumeWord_left :
    let k := { run with imc := { run.imc with pauses := ⟨false, false, true, false⟩, headFault := some 5 } }
    (st (posted 0x80000000 k)).headIs .resume [] ∧ (k.imc.pauses.head && k.imc.headFault.isSome) = true :=
  ⟨head_resume _ rfl, by decide⟩

/-- A transfer of the part. -/
def xfer (c : Client) (m : Option Stream) (addr : Nat) (op : XferOp) (p : Purpose) : Transfer := ⟨c, m, addr, op, p, []⟩

/-- A host read. -/
def hostRead : Transfer := xfer .host none 0 (.read 4) .host

/-- The chip with one transfer waiting, every stream being mapped to domain 2. -/
def waits (t : Transfer) (k : Chip) : Chip :=
  { k with sp := { k.sp.setWaiting t.client [t] with streams := List.replicate 6 ⟨true, 2⟩ } }

theorem meets_ArbiterChooses :
    let p : StorePort := { run.sp with br := [xfer .br none 0 (.read 1) .quiet], iu := [xfer .iu none 0 (.read 1) .quiet], weightPos := 12 }
    (∀ b ∈ [true, false], arbitrate { p with hf := [hostRead] } b = some (.hf, 12)) ∧
    arbitrate { p with hf := [hostRead], host := [hostRead] } false = some (.host, 12) ∧
    arbitrate { p with report := [hostRead] } false = some (.report, 12) ∧ arbitrate p false = some (.iu, 13) ∧
    arbitrate { p with weightPos := 11 } false = some (.br, 12) ∧
    p.br ≠ [] ∧ p.iu ≠ [] ∧ p.weightPos < 16 ∧ p.weight ≤ 15 ∧ chooseLow { p with br := [] } = some (.iu, 12) := by decide
theorem meets_ArbiterChooses_reset : ∃ t, (st (starting .layoutRead)).chip.pd.runState = .starting ∧
    (st (starting .layoutRead)).chip.pd.phase = .layoutRead ∧ exec (.layoutReadComplete lay) (st (starting .layoutRead)) = .next t :=
  ⟨_, rfl, rfl, rfl⟩
/-- A pass whose prefetch is empty with a read under way; a fetch under way, the layout read, HALTED with and without the host waiting. -/
theorem meets_ArbiterChooses_granted :
    let low := waits (xfer .iu (some .iuRead) 0 (.read 16) .parse) run
    let ahead := { run with
      hf := { run.hf with pass := some ⟨1, 512, 0, 1, 1, [], false, false⟩ }
      sp := { run.sp with host := [hostRead], hf := [xfer .hf (some .hfRead) 0 (.read 4096) (.rowSet 1 1)] } }
    let halted := inRun .halted (waits hostRead low)
    hfPrecedence ahead = true ∧ hfPrecedence run = false ∧ arbitrate ahead.sp (hfPrecedence ahead) = some (.hf, 0) ∧
    low.sp.check = none ∧ low.pd.phase ≠ .layoutRead ∧ low.pd.runState ≠ .halted ∧ arbitrate low.sp (hfPrecedence low) = some (.iu, 0) ∧
    arbitrate run.sp (hfPrecedence run) = none ∧ (starting .layoutRead).pd.phase = .layoutRead ∧
    halted.pd.runState = .halted ∧ halted.sp.host = hostRead :: [] ∧ (inRun .halted low).sp.host = [] ∧
    ({ low.sp with check := some ⟨xfer .br none 0 (.read 1) .quiet, 2, 4, 0, true⟩ } : StorePort).check.isSome = true := by decide
/-- A domain that is not VALID; a VALID one outside its window, at both ends; inside it, with the word absent and with it in the cache. -/
theorem meets_FenceCheckRule :
    let map (m : Stream) := run.sp.streams.getD (streamNo m) ⟨false, 0⟩
    let dom := run.sp.domains.getD 2 ⟨false, false, 0, 0⟩
    let inside (addr : Nat) := dom.base ≤ addr ∧ addr < dom.base + 67108864 * 2 ^ dom.exponent
    let p : StorePort := { run.sp with cache := [⟨2, 4, 1⟩] }
    (map .iuRead).mapped = false ∧ (run.sp.domains.getD 0 ⟨false, false, 0, 0⟩).valid = false ∧ (map .brRead).mapped = true ∧
    (map .brRead).domain = 2 ∧ dom.valid = true ∧ ¬inside 0x3FFFFFFF ∧ ¬inside 0x50000000 ∧ inside 0x40000000 ∧ inside 0x4FFFFFFF ∧
    (∀ e ∈ p.cache, ¬(e.domain = 2 ∧ e.word = (0x4FFFFFFF - dom.base) / 4096 / 64)) ∧
    (∀ e ∈ p.cache, e.domain = 2 ∧ e.word = (0x40123000 - dom.base) / 4096 / 64 ∧
      ∀ x ∈ p.cache, x.domain = 2 → x.word = (0x40123000 - dom.base) / 4096 / 64 → x = e) := by decide
/-- Transfers of a stream and of none. -/
theorem meets_FenceCheckRule_transfers : hostRead.stream = none ∧ (xfer .br (some .brRead) 0x40123000 (.read 38) .table).stream = some .brRead := by
  decide
/-- Nothing to grant; and a transfer whose fence map word is fetched, with page 0x123 of the domain closed in the store. -/
theorem meets_GrantServes_fetch : granted (st run).chip = none ∧
    (let t := xfer .br (some .brRead) 0x40123000 (.read 38) .table
     granted (waits t run) = some (t, .br, 0) ∧ checkTransfer (waits t run) t = .fetch 2 4 ∧
     ∃ u, exec .transferGrant { State.reset with store := [⟨0x380000 + 131072 * 2 + 8 * 4 + 4, 8⟩], chip := waits t run } = .next u ∧
       u.chip.sp.check = some ⟨t, 2, 4, 1#64 <<< 35, true⟩ ∧ u.chip.sp.br = []) := ⟨by decide, by decide, by decide, _, rfl, by decide, by decide⟩
theorem meets_GrantServes : ∀ op ∈ [XferOp.read 4, .write [1, 2]],
    let t := xfer .report none 0x201000 op .quiet
    granted (waits t run) = some (t, .report, 0) ∧ checkTransfer (waits t run) t = .allow := by decide
/-- A host transfer with no write of POST behind it at once, with two that fit the queue, and with one that finds it full. -/
theorem meets_GrantServes_posts : granted (waits hostRead run) = some (hostRead, .host, 0) ∧ checkTransfer (waits hostRead run) hostRead = .allow ∧
    hostRead.client = .host ∧ (∀ p ∈ [((2 : Nat), (5#32))], 2 ≤ p.1) ∧
    [((1 : Nat), (5#32)), (1, 6), (2, 7)] = [(5#32), 6].map (fun w => (1, w)) ++ [(2, 7)] ∧ (words 62 run).working = true ∧
    (words 62 run).pd.postQueue.length + 2 ≤ 64 ∧ 64 ≤ (words 64 run).pd.postQueue.length ∧ Chip.reset.working = false := by decide
theorem meets_RefusalOfTransfer : ∀ x ∈ [(Client.iu, Stream.iuRead, XferOp.read 16, Purpose.parse), (.iu, .iuWrite, .write [1], .quiet),
      (.br, .brRead, .read 38, .table), (.br, .brWrite, .write [1], .quiet), (.hf, .hfRead, .read 4096, .rowSet 1 0),
      (.report, .reportWrite, .write [1], .quiet)],
    let t := xfer x.1 (some x.2.1) 0x50000000 x.2.2.1 x.2.2.2
    granted (waits t run) = some (t, x.1, 0) ∧ t.stream = some x.2.1 ∧ checkTransfer (waits t run) t = .refuse 2 := by decide
theorem meets_RefusalOfTransfer_takers :
    let tl := { run.tl with reload := some ⟨⟨.curve, 0⟩, false, [], [], none⟩ }
    let hf := { run.hf with pass := some ⟨1, 512, 0, 1, 1, [], false, false⟩ }
    (∀ r, tl.reload = some r → r.outcome = none) ∧ (∃ x ∈ hf.pass, Purpose.rowSet 1 0 = .rowSet x.id 0) ∧ run.dmr.record.valid = false := by
  decide
/-- A refused read or write of a fill, that of the fill in progress or of an older one, for a plate whose attempt has a FENCE mark or none, in the
three places. -/
theorem meets_RefusalOfTransfer_fill : ∀ x ∈ [(Stream.brRead, XferOp.read 96), (.brWrite, .write [1])],
    let t := xfer .br (some x.1) 0x50000000 x.2 (.fill 1 3 1 0)
    granted (waits t run) = some (t, .br, 0) ∧ t.stream = some x.1 ∧ checkTransfer (waits t run) t = .refuse 2 ∧ t.purpose = .fill 1 3 1 0 := by
  decide
theorem meets_RefusalOfTransfer_marks : ∀ k ∈ [held (plate .preparing) run, held (plate .finishing) run, exposed true],
    (k.plate 3).isSome = true ∧ (k.marks 3).fenceAttempt ≠ 1 ∧ (k.marks 3).marks.length < 8 ∧
      ({ k with dmr := { k.dmr with lists := [(3, ⟨[], 0, 1, none, none⟩)] } }.marks 3).fenceAttempt = 1 := by decide
theorem meets_RefusalOfTransfer_places : exposureBegun (exposed true) 3 1 = true ∧ exposureBegun (held (plate .finishing) run) 3 1 = false ∧
    (plate .finishing).state = .finishing ∧ (plate .finishing).attempt = 1 ∧ (plate .finishing).status = .opened ∧
    exposureBegun (held (plate .preparing) run) 3 1 = false ∧ (plate .preparing).state ≠ .finishing ∧
    (exposed true).imc.drum = some ⟨2, some ref1, .unexposed, false⟩ := by decide
/-- A refusal in STARTING; and one of a parse whose header names a record, with the cell still queued and not. -/
theorem meets_RefusalOfTransfer_starting : let k := waits (xfer .iu (some .iuWrite) 0x50000000 (.write [0]) .quiet) (starting .clears)
    k.pd.runState = .starting ∧ granted k = some (xfer .iu (some .iuWrite) 0x50000000 (.write [0]) .quiet, .iu, 0) ∧
    checkTransfer k (xfer .iu (some .iuWrite) 0x50000000 (.write [0]) .quiet) = .refuse 2 := by decide
theorem meets_RefusalOfTransfer_parse : ∀ q ∈ [[], [IuWord.fragment 15]],
    let k0 := paged (rec1 .damaged) run
    let k := { k0 with iu := { k0.iu with queue := q, parse := some ⟨15, [], some ⟨key1, 1, 1, 0, 64⟩, none, none⟩ } }
    (∃ p h, k.iu.parse = some p ∧ p.header = some h ∧ p.cell < 4096 ∧ tblGet k.iu.useCounts p.cell = none ∧
      (.fragment p.cell ∉ k.iu.queue ↔ q = []) ∧ tblGet k.iu.dir 0 = some (rec1 .damaged) ∧ (rec1 .damaged).key = h.key ∧
      (rec1 .damaged).version = h.version) ∧ (∀ e ∈ run.iu.dir, ¬(e.2.key = key1 ∧ e.2.version = 1)) := by
  intro q hq
  refine ⟨⟨_, _, rfl, rfl, by decide, rfl, ?_, rfl, rfl, rfl⟩, by decide⟩
  simp only [List.mem_cons, List.not_mem_nil, or_false] at hq
  rcases hq with rfl | rfl <;> decide
theorem meets_RefusalOfTransfer_sound : (paged (rec1 .damaged) run).pagesSound := by
  refine ⟨by decide, ?_, ?_, ?_, fun p h hp => (nomatch hp)⟩ <;> intro i
  · intro j r q hi hj _ _
    simp only [paged, tblGet] at hi hj
    split at hi <;> split at hj <;> simp_all
  · intro j r q hi _ _ hs
    simp only [paged, tblGet] at hi
    split at hi
    · cases hi; cases hs
    · cases hi
  · intro r hi hs
    simp only [paged, tblGet] at hi
    split at hi
    · cases hi; cases hs
    · cases hi
theorem meets_FetchDecides (v : FenceWord) (keep : Bool) :
    let c : PendingCheck := ⟨xfer .br (some .brRead) 0x40123000 (.read 4) .quiet, 2, 4, v, keep⟩
    ({ run.sp with check := some c } : StorePort).check = some c := rfl
theorem meets_FetchDecides_closed : (1#64 <<< 35).getLsbD ((0x40123000 - (run.sp.domains.getD 2 ⟨false, false, 0, 0⟩).base) / 4096 % 64) = true := by
  decide
theorem meets_FetchDecides_open : (0#64).getLsbD ((0x40123000 - (run.sp.domains.getD 2 ⟨false, false, 0, 0⟩).base) / 4096 % 64) = false := by
  decide
theorem meets_CompletionDelivers : takeServed .host run.sp.served = none ∧
    takeServed .host [⟨hostRead, [1, 2, 3, 4]⟩] = some (⟨hostRead, [1, 2, 3, 4]⟩, []) ∧ hostRead.ofHost ∧
    (∀ ns ∈ [[], [Notice.iuIdle], [.alert .news], [.pscDone], [.startWrite], [.iuIdle, .alert .news]],
      let x : Served := ⟨{ xfer .iu (some .iuWrite) 0 (.write [1]) .quiet with notices := ns }, []⟩
      takeServed .iu [x] = some (x, []) ∧ x.xfer.purpose = .quiet ∧ x.xfer.notices = ns) ∧ run.pd.runState ≠ .halted ∧
      (inRun .halted run).pd.runState = .halted ∧ Client.iu ≠ .host := ⟨rfl, rfl, ⟨rfl, rfl, rfl⟩, by decide, by decide, rfl, by decide⟩
/-- The last of PSC's writes but one; the last, with nothing left to do; the last, with a step left (the notice's own clause). -/
theorem meets_CompletionDelivers_psc : let psc (n : Nat) (w : List PscStep) := { run.psc with outstanding := n, work := w }
    2 ≤ (psc 2 [.late 3 0]).outstanding ∧ ((psc 1 []).work = [] ∧ (psc 1 []).due = []) ∧ (psc 1 [.late 3 0]).work ≠ [] := by decide

/-- A fragment header of `key1`. -/
def head1 (kind version sep len : Nat) : List Byte := [1, 0x0F, 0x64, 0, 2, 14, 0, BitVec.ofNat 8 kind] ++ le 2 version ++ [BitVec.ofNat 8 sep, 0] ++ le 4 len

/-- A body of a MANIFEST of 192 rows of 20,000 dots, with CRC. -/
def manBody (kind : Nat) : List Byte :=
  let b : List Byte := [BitVec.ofNat 8 kind, 1] ++ le 2 192 ++ le 2 20000 ++ List.replicate 42 0
  b ++ le 4 (crc32 b).toNat

/-- Each purpose of a read whose data a block takes. -/
theorem meets_DataArrives : ∀ x ∈ [(Client.iu, Stream.iuRead, Purpose.parse), (.br, .brRead, .table), (.br, .brRead, .fill 1 3 1 0),
      (.hf, .hfRead, .rowSet 1 0)],
    let v : Served := ⟨xfer x.1 (some x.2.1) 0 (.read 1) x.2.2, [0]⟩
    takeServed x.1 [v] = some (v, []) ∧ v.xfer.purpose = x.2.2 ∧ v.xfer.notices = [] ∧ run.pd.runState ≠ .halted := by decide
/-- A header without its magic; with it, STALE, matched and founding; a body that is decided at the header and one that is read on. -/
theorem meets_DataArrives_parse : let h (v len : Nat) : FragHeader := ⟨key1, 1, v, 0, len⟩
    let b := head1 1 2 0 52
    u32 (List.replicate 16 0) 0 ≠ 0x00640F01 ∧ u32 b 0 = 0x00640F01 ∧ (u8 b 4, u8 b 5, u8 b 6) = (2, 14, 0) ∧ u8 b 7 = 1 ∧ u16 b 8 = 2 ∧
    u8 b 10 = 0 ∧ u8 b 11 = 0 ∧ u32 b 12 = 52 ∧
    matchHeader { run.iu with floors := [(key1, 2)] } (h 2 52) = none ∧ matchHeader run.iu (h 2 52) = some .founds ∧
    matchHeader { run.iu with dir := [(0, rec1 .damaged)] } (h 1 52) = some (.matched 0) ∧ bodyVerdict 15 (h 2 52) b = none ∧
    bodyVerdict 15 (h 2 51) (head1 1 2 0 51) = some (.reject .malformed) ∧ (65520 : Nat) < 65521 ∧
    u32 (head1 1 2 0 65521) 12 = 65521 ∧ run.iu.parse = none := by decide
/-- A screen's first read with a legal size and without; the next read of a reload; its end, legal and not. -/
theorem meets_DataArrives_table :
    let r (id : TableId) (b : List Byte) (reads : List (Nat × Nat)) : Reload := ⟨id, false, reads, b, none⟩
    (r ⟨.screen, 0⟩ [] []).id.kind = .screen ∧ (r ⟨.screen, 0⟩ [] []).bytes = [] ∧ u16 [8, 0] 0 = 8 ∧ u16 [0, 1] 0 = 256 ∧ u16 [7, 0] 0 = 7 ∧
    run.lay.tableBase % 4096 = 0 ∧ (r ⟨.power, 0⟩ [] [(0x800000, 4)]).reads = (0x800000, 4) :: [] ∧
    (r ⟨.profile, 0⟩ [] []).id.kind ≠ .screen ∧ (r ⟨.profile, 0⟩ [] []).reads = [] ∧ u16 [0x2C, 1, 4, 63] 0 = 300 ∧
    u16 [0x2B, 1, 4, 63] 0 = 299 := by decide
/-- A row set that arrives for its pass, with no room for another read; with all of them read; and for an older pass. -/
theorem meets_DataArrives_rowSet : let p (n next : Nat) : Pass := ⟨1, 8192, 0, next, n, [(0, [])], true, false⟩
    (p 1 2).id = 1 ∧ 0 < (p 1 2).underway ∧ 2 ≤ (p 1 2).prefetch.length + (p 1 2).underway ∧ ((p 1 16).width + 511) / 512 ≤ (p 1 16).nextSet ∧
    (p 1 2).id ≠ 2 ∧ (p 0 2).prefetch.length + (p 0 2).underway < 2 ∧ (p 0 2).nextSet < ((p 0 2).width + 511) / 512 := by decide
theorem meets_HostAccessJoins : ({ run.regs with linkUp := false } : Registers).linkUp = false ∧ run.regs.linkUp = true ∧
    4294967296 < (0xFFFFFFFF#32).toNat + 2 ∧ 4294967296 < (0xFFFFFFFF#32).toNat + [0#8, 0].length ∧
    (0xFFFFFFFF#32).toNat + 1 ≤ 4294967296 ∧ (0xFFFFFFFF#32).toNat + [0#8].length ≤ 4294967296 := by decide
theorem meets_LayoutReadEnds : ¬(run.pd.runState = .starting ∧ run.pd.phase = .layoutRead) ∧
    (starting .layoutRead).pd.runState = .starting ∧ (starting .layoutRead).pd.phase = .layoutRead ∧ startCheck lay = 0 ∧
    startCheck { lay with formatWord := 0 } ≠ 0 := by decide
/-- START fails while a write of POST waits behind a host write: the word is lost, and ALERT shows it beside START_DONE (R18). -/
theorem test_failed_start_loses_posts : ∃ t, let k := starting .layoutRead
    exec (.layoutReadComplete { lay with formatWord := 0 }) (st { k with sp := { k.sp with posts := [(1, 0x80000000)] } }) = .next t ∧
      t.chip.sp.posts = [] ∧ t.chip.pd.postQueue = [] ∧ t.chip.regs.startFail = 1 ∧
      t.chip.regs.alert = Cause.postLost.mask ||| Cause.startDone.mask := ⟨_, rfl, by decide, by decide, by decide, by decide⟩

/-! The invariants, on states that are not empty, with a step that answers a next state. -/

theorem meets_StoreStaysCanonical : ∃ t,
    let s : State := { State.reset with store := [⟨5, 7⟩], pending := [.transferGrant], chip := waits (xfer .report none 5 (.write [0]) .quiet) run }
    Memory.wf s.store = true ∧ step s = .next t ∧ t.store = [] := ⟨_, rfl, rfl, rfl⟩
theorem meets_PostQueueStaysSound : ∃ t, (words 64 run).postQueueSound ∧ step ((st (words 64 run)).setPending [.post 0x80000000]) = .next t :=
  ⟨_, ⟨by decide, by decide⟩, rfl⟩
theorem meets_LaserStaysSafe : ∃ t,
    let k := { exposed true with hf := { run.hf with laser := 5 } }
    k.laserSafe ∧ step ((st k).setPending [.exposeEnableClear 1]) = .next t ∧ t.chip.hf.laser = 0 := ⟨_, .inr rfl, rfl, rfl⟩
theorem meets_FenceCacheStaysSound : ∃ t,
    let k := { run with sp := { run.sp with
      cache := [⟨2, 4, 0⟩], check := some ⟨xfer .br (some .brRead) 0x40000000 (.read 4) .quiet, 2, 0, 0, true⟩ } }
    k.fenceCacheSound ∧ step ((st k).setPending [.fenceMapFetchComplete]) = .next t :=
  ⟨_, ⟨by decide, by decide, fun c h => by cases h; decide⟩, rfl⟩
theorem meets_HostQueueStaysSound : ∃ t,
    (waits hostRead (inRun .halted run)).hostQueueSound ∧ step ((st (waits hostRead (inRun .halted run))).setPending [.transferGrant]) = .next t :=
  ⟨_, ⟨fun c => by cases c <;> decide, fun t h => by cases List.mem_singleton.mp h; exact ⟨rfl, rfl, rfl⟩,
    fun x h => (List.not_mem_nil h).elim, (by intro c h; cases h), fun _ => rfl⟩, rfl⟩

/-- The chip with a READY plate in slot 3. -/
def readyChip : Chip := held (plate .ready) run

/-- With PSC free, and with it waiting for the disposition of a mark of its own. -/
theorem meets_PlatesStaySound : (∃ t, readyChip.platesSound ∧ readyChip.inputSound ∧ step ((st readyChip).setPending [.selection]) = .next t) ∧
    ∃ t, let k := { readyChip with psc := { readyChip.psc with
        awaiting := true, work := [.fail 3, .publish readyChip.psc.plates], answer := some ⟨3, 1, .fail, false, .none, true⟩ } }
      k.platesSound ∧ k.inputSound ∧ step ((st k).setPending [.dispositionApply]) = .next t := by
  have h : readyChip.pscReady := held_ready rfl rfl (by decide) rfl
  obtain ⟨_, hi, h1, h2, h3, h4, h5, h6, h7⟩ := h
  refine ⟨⟨_, ⟨h1, h2, h3, h4, h5, h6, h7⟩, hi, rfl⟩, _, ⟨h1, h2, h3, h4, h5, fun n p hp hs => (h6 n p hp hs).imp_right (fun h => ?_), h7⟩,
    ⟨by decide, fun ts t h => ?_, by decide, by decide⟩, rfl⟩
  · rcases h with h | h | h <;> cases h
  · have := congrArg List.getLast? h
    simp only [List.getLast?_append, List.getLast?_singleton, Option.some_or] at this
    cases this
    exact trivial

/-- The chip with a SUPERSEDED record below a COMPLETE one, and a parse that is to found the next version. -/
def pagesChip : Chip :=
  { run with iu := { run.iu with
      dir := [(0, rec1 .superseded), (1, { rec1 .complete with version := 2 })]
      parse := some ⟨0, [], some ⟨key1, 0, 3, 0, 48⟩, some .founds, none⟩ } }

theorem mem_of_get {α : Type} {l : List (Nat × α)} {i : Nat} {x : α} (h : tblGet l i = some x) : (i, x) ∈ l := by
  induction l with
  | nil => cases h
  | cons e t ih =>
    obtain ⟨j, v⟩ := e
    unfold tblGet at h
    split at h
    · cases h
      rename_i hj
      rw [hj]
      exact List.mem_cons_self
    · exact List.mem_cons_of_mem _ (ih h)

/-- A directory is in order when its entries are so, two by two. -/
theorem dir_sound {k : Chip} (hl : (k.iu.dir.map (·.1)).Pairwise (· < ·))
    (h : ∀ a ∈ k.iu.dir, (a.2.state = .complete → a.2.wasComplete = true) ∧ ∀ b ∈ k.iu.dir, a.2.key = b.2.key →
      (a.2.version = b.2.version → a.1 = b.1) ∧ (a.2.state = .complete → b.2.version < a.2.version → b.2.state = .superseded))
    (hp : ∀ p ∈ k.iu.parse, p.matching = some .founds → ∀ hd ∈ p.header, ∀ a ∈ k.iu.dir, a.2.key = hd.key → a.2.version < hd.version) :
    k.pagesSound :=
  ⟨hl, fun _ _ _ _ hi hj hk hv => ((h _ (mem_of_get hi)).2 _ (mem_of_get hj) hk).1 hv,
    fun _ _ _ _ hi hj hk hs hv => ((h _ (mem_of_get hi)).2 _ (mem_of_get hj) hk).2 hs hv,
    fun _ _ hi hs => (h _ (mem_of_get hi)).1 hs, fun p hd hpar hhd hm _ _ hi hk => hp p hpar hm hd hhd _ (mem_of_get hi) hk⟩

theorem meets_PagesStaySound : ∃ t, pagesChip.pagesSound ∧ step ((st pagesChip).setPending [.parseEnd]) = .next t :=
  ⟨_, dir_sound (by decide) (by decide) (by decide), rfl⟩
theorem meets_PagesStaySound_once : tblGet pagesChip.iu.dir 1 = some { rec1 .complete with version := 2 } := rfl

theorem meets_HaltedStandsStill : ∃ t, (waits hostRead (inRun .halted run)).hostQueueSound ∧
    (waits hostRead (inRun .halted run)).pd.runState = .halted ∧ Instr.wellFormed (.post 0x80000000) = true ∧
    ¬Instr.isReset (.post 0x80000000) ∧ exec (.post 0x80000000) (st (waits hostRead (inRun .halted run))) = .next t :=
  ⟨_, meets_HostQueueStaysSound.choose_spec.1, rfl, rfl, fun h => h, rfl⟩
theorem meets_HostSettingsStay : ∃ t, Instr.wellFormed .resume = true ∧ ¬Instr.isReset .resume ∧ ¬Instr.isControlWrite .resume ∧
    exec .resume (st (posted 0x80000000 run)) = .next t ∧ run.pd.layout = some lay := ⟨_, rfl, fun h => h, fun h => h, rfl, rfl⟩

/-! Page Intake. -/

/-- The chip with an input queue of IU. -/
def iuTakes (q : List IuWord) (k : Chip) : Chip := { k with iu := { k.iu with queue := q } }

theorem meets_ParseBegins : (iuTakes [.fragment 15] run).working = true ∧ (iuTakes [.fragment 15] run).iu.parse = none ∧
    (iuTakes [.fragment 15] run).iu.settling = false ∧ (iuTakes [.fragment 15] run).iu.queue = [.fragment 15] ∧ run.iu.queue = [] ∧
    pagesChip.iu.parse.isSome = true ∧ (∃ x ∈ (iuTakes [.drop key1] run).iu.queue, x = .drop key1) := by decide
/-- Bodies at the boundaries of their lengths: a MANIFEST short, whole and sound, with a bad CRC, and with a kind that is not legal. -/
theorem meets_HeaderMatches_manifest : let h : FragHeader := ⟨key1, 1, 2, 0, 52⟩
    let b := head1 1 2 0 52 ++ manBody 1
    h.len = 52 ∧ (head1 1 2 0 52).length < 68 ∧ b.length = 68 ∧ bodyVerdict 15 h (b.take 67) = none ∧
      crc32 ((b.drop 0x10).take 48) = BitVec.ofNat 32 (u32 b 0x40) ∧ bodyVerdict 15 h b ≠ some (.reject .crc) ∧
      bodyVerdict 15 h b ≠ some (.reject .malformed) ∧ bodyVerdict 15 h (b.take 67 ++ [0]) = some (.reject .crc) ∧
      bodyVerdict 15 h (head1 1 2 0 52 ++ manBody 3) = some (.reject .malformed) := by decide +kernel
/-- STRIPS and a PATCH: too short, not framed or not legal, and whole. -/
theorem meets_HeaderMatches_bodies :
    let s (n len : Nat) (x : List Byte) : List Byte := head1 2 2 0 len ++ le 2 0 ++ le 2 n ++ x
    let q (len mode : Nat) (x : List Byte) : List Byte := head1 3 2 0 len ++ [0, BitVec.ofNat 8 mode, 1, 0] ++ le 4 0 ++ le 2 1 ++ le 2 1 ++ le 4 1 ++ x
    let hs (len : Nat) : FragHeader := ⟨key1, 2, 2, 0, len⟩
    let hq (len : Nat) : FragHeader := ⟨key1, 3, 2, 0, len⟩
    let v : List Byte := le 4 1 ++ le 4 5
    bodyVerdict 15 (hs 3) [] = some (.reject .malformed) ∧ bodyVerdict 15 (hs 13) [] = none ∧
    bodyVerdict 15 (hs 13) (s 0 13 []) = some (.reject .malformed) ∧ bodyVerdict 15 (hs 13) (s 1 13 []) = none ∧
    bodyVerdict 15 (hs 14) (s 1 14 v) = some (.reject .malformed) ∧ bodyVerdict 15 (hs 13) (s 1 13 v) = none ∧
    bodyVerdict 15 (hs 13) (s 1 13 (v ++ [9])) = some (.content (.strips 0 [⟨0, ⟨15, 0x1C, 1, 5⟩, false⟩])) ∧
    bodyVerdict 15 (hq 19) [] = some (.reject .malformed) ∧ bodyVerdict 15 (hq 21) [] = none ∧
    bodyVerdict 15 (hq 21) (q 21 3 v) = some (.reject .malformed) ∧ bodyVerdict 15 (hq 21) (q 21 1 (le 4 5)) = none ∧
    bodyVerdict 15 (hq 21) (q 21 1 (le 4 5 ++ [9])) = some (.content (.patch 0 0 ⟨1, 1, 15, 0x24, 1, 5, 0, 0, 1, 1⟩ false)) := by decide +kernel
/-- That MANIFEST's fields are good, as the statement writes it; the one strip is framed and sized; the PATCH's fields are good. -/
theorem meets_HeaderMatches_good : let b := head1 1 2 0 52 ++ manBody 1
    let t : List Byte := head1 2 2 0 13 ++ le 2 0 ++ le 2 1 ++ le 4 1 ++ le 4 5 ++ [9]
    let q : List Byte := head1 3 2 0 21 ++ [0, 1, 1, 0] ++ le 4 0 ++ le 2 1 ++ le 2 1 ++ le 4 1 ++ le 4 5 ++ [9]
    u8 b 0x10 = 1 ∧ u16 b 0x12 = 192 ∧ u16 b 0x14 = 20000 ∧ u8 b 0x11 = 1 ∧
    (∀ x < 4, u8 b (0x16 + x) ≤ 32 ∧ (u8 b 0x11 / 2 ^ x % 2 = 0 → u8 b (0x16 + x) = 0)) ∧ u8 b 0x1D = 0 ∧
    (∀ n, 0x1A ≤ n → n < 0x1D → u8 b n = 0) ∧ (∀ n, 0x20 ≤ n → n < 0x40 → u8 b n = 0) ∧
    u16 t 0x10 = 0 ∧ u16 t 0x12 = 1 ∧ u32 t 0x14 = 1 ∧ 4 + 8 * 1 + 1 = 13 ∧ 16 + 13 ≤ t.length ∧
    u8 q 0x10 ≤ 31 ∧ u8 q 0x11 = 1 ∧ u8 q 0x12 = 1 ∧ u8 q 0x13 = 0 ∧ u16 q 0x18 = 1 ∧ u16 q 0x1A = 1 ∧ u32 q 0x1C = 1 ∧
    20 + 1 = 21 ∧ 16 + 21 ≤ q.length := by decide +kernel
theorem meets_HeaderMatches : matchHeader pagesChip.iu ⟨key1, 0, 2, 0, 48⟩ = some (.matched 1) ∧
    matchHeader { pagesChip.iu with dir := [], floors := [(key1, 2)] } ⟨key1, 0, 2, 0, 48⟩ = none ∧
    matchHeader pagesChip.iu ⟨key1, 0, 3, 0, 48⟩ = some .founds := by decide

/-- A strip copy of `rec1` at strip `k`. -/
def copy1 (k crc : Nat) (sound : Bool) : StripCopy := ⟨k, ⟨7, 32, 64, BitVec.ofNat 32 crc⟩, sound⟩

/-- The strips of `rec1`: 0 is BAD, 1 PRESENT with CRC 9, 2 ABSENT; with 192 rows, 3 lies outside. -/
theorem meets_StripCopyJudged :
    let r := rec1 .damaged
    (∃ m ∈ r.manifest, stripInside m 0 3 = false) ∧ (∀ m ∈ r.manifest, ∀ k ∈ [0, 1, 2], stripInside m 0 k = true) ∧
    tblGet r.strips (768 * 0 + 0) = some .bad ∧ tblGet r.strips (768 * 0 + 1) = some (.present ⟨5, 32, 64, 9⟩) ∧
    tblGet r.strips (768 * 0 + 2) = none ∧ (copy1 2 8 true).sound = true ∧ (copy1 2 8 false).sound = false ∧
    (StripRef.mk 5 32 64 9).crc = (copy1 1 9 true).ref.crc ∧ (StripRef.mk 5 32 64 9).crc ≠ (copy1 1 8 true).ref.crc := by decide

/-- A patch of 10 by 10 dots at scale 2. -/
def patch1 (row0 crc : Nat) : PatchRef := ⟨1, 2, 9, 0x24, 8, BitVec.ofNat 32 crc, row0, 0, 10, 10⟩

/-- A manifest with two patches in each separation, and a record that holds patch 0, BAD, and patch 1, PRESENT. -/
def man2 : Manifest := { man1 with patchCounts := [2, 2, 2, 2] }
def rec2 (m : Option Manifest) (row0 : Nat) : PageRecord :=
  { rec1 .damaged with manifest := m, patches := [(0, .bad), (1, .present (patch1 row0 9))] }

/-- Patch 0 is BAD, 1 PRESENT, 2 outside; of a record without manifest 2 is ABSENT; a patch to row 192 and one past it. -/
theorem meets_StripCopyJudged_patches :
    (∃ m ∈ (rec2 (some man2) 0).manifest, patchInside m 0 2 = false) ∧ (∀ m ∈ (rec2 (some man2) 0).manifest, ∀ p ∈ [0, 1], patchInside m 0 p = true) ∧
    tblGet (rec2 none 0).patches (32 * 0 + 0) = some .bad ∧ tblGet (rec2 none 0).patches (32 * 0 + 1) = some (.present (patch1 0 9)) ∧
    tblGet (rec2 none 0).patches (32 * 0 + 2) = none ∧ (rec2 none 0).manifest = none ∧ (rec2 (some man2) 0).manifest = some man2 ∧
    ({ man2 with raw := [1] } : Manifest).raw ≠ man2.raw ∧ (rec2 (some man2) 173).clipped = false ∧
    (1, PatchEntry.present (patch1 173 9)) ∈ (rec2 (some man2) 173).patches ∧ man2.rows < (patch1 173 9).row0 + (patch1 173 9).h * (patch1 173 9).scale ∧
    ¬(man2.rows < (patch1 172 9).row0 + (patch1 172 9).h * (patch1 172 9).scale) := by decide
/-- A repair, a duplicate, a conflict, a first manifest that leaves no patch inside, and CLIPPED. -/
theorem test_patches_and_manifests :
    (judgePatch 0 0 (patch1 0 4) true ⟨rec2 none 0, false⟩).r.patches = [(0, .present (patch1 0 4)), (1, .present (patch1 0 9))] ∧
    judgePatch 0 1 { patch1 0 9 with cell := 3 } true ⟨rec2 none 0, false⟩ = ⟨rec2 none 0, false⟩ ∧
    (judgePatch 0 1 (patch1 1 9) true ⟨rec2 none 0, false⟩).r.notes.conflict = (rec2 none 0).notes.conflict + 1 ∧
    (judgeManifest man1 ⟨rec2 none 0, false⟩).r.patches = [] ∧
    (judgeManifest man1 ⟨rec2 none 0, false⟩).r.notes.malformed = (rec2 none 0).notes.malformed + 2 ∧
    (Judged.clip ⟨rec2 (some man2) 173, false⟩).r.clipped = true ∧ (Judged.clip ⟨rec2 (some man2) 172, false⟩).r.clipped = false := by decide

/-- The chip at a parse end. -/
def parsed (m : Option MatchCase) (v : Verdict) (k : Chip) : Chip :=
  { k with iu := { k.iu with parse := some ⟨15, [], some ⟨key1, 1, 1, 0, 64⟩, m, some v⟩ } }

theorem meets_UseCountsCountEntries : ∃ t, let k := paged (rec1 .damaged) run
    let s := st { k with iu := { k.iu with useCounts := useCountsOf k.iu.dir } }
    s.chip.iu.useCounts = useCountsOf s.chip.iu.dir ∧ s.chip.iu.useCounts ≠ [] ∧ step (s.setPending [.plantClockTick]) = .next t :=
  ⟨_, rfl, by decide, rfl⟩

/-- A version of `key1` in record 0, or a record of another key whose base it is. -/
def older (pins : Nat) : PageRecord := { rec1 .damaged with version := 1, pins := pins }
def derived1 (rows : Nat) : PageRecord :=
  { rec1 .damaged with key := ⟨2, 15, 0⟩, baseFlag := true, manifest := some { man1 with derived := true, rows := rows, base := key1 } }

/-- A manifest of one strip, with which a record that has strip 0 is COMPLETE. -/
def man64 : Manifest := { man1 with rows := 64 }
def almost : PageRecord := { rec1 .assembling with version := 2, manifest := none, strips := [(0, .present ⟨5, 32, 64, 9⟩)] }

/-- The chip at a parse end over a directory, the fragment being of version 2 of `key1`. -/
def parsedIn (dir : List (Nat × PageRecord)) (m : MatchCase) (v : Verdict) : Chip :=
  { run with iu := { run.iu with dir := dir, parse := some ⟨15, [], some ⟨key1, 1, 2, 0, 64⟩, some m, some v⟩ } }

/-- Content into an unfinished record, and into one that it completes, with older records unpinned and pinned and a derived one of it. -/
theorem meets_ParseEnds_matched :
    let c : Content := .strips 0 [copy1 2 8 true]
    let k := parsedIn [(0, { rec1 .damaged with version := 2 })] (.matched 0) (.content c)
    k.working = true ∧ IuWord.fragment 15 ∉ k.iu.queue ∧ tblGet k.iu.dir 0 = some { rec1 .damaged with version := 2 } ∧
    (applyContent c k.regs.plantClock { rec1 .damaged with version := 2 }).r.state ≠ .complete ∧
    (applyContent (.manifest man64) 0 almost).r.state = .complete ∧ almost.state ≠ .complete ∧
    (∀ n ∈ [0, 1], (older n).key = almost.key ∧ (older n).version < almost.version ∧ (older n).state ≠ .superseded ∧ (older n).baseFlag = false) ∧
    (derived1 64).key ≠ almost.key ∧ (derived1 64).baseFlag = true ∧ man64.derived = false ∧ man64.rows ≠ 128 := by decide
theorem meets_ParseEnds_sound : ∀ n ∈ [0, 1], ∀ rows ∈ [64, 128],
    (parsedIn [(0, older n), (1, almost)] (.matched 1) (.content (.manifest man64))).pagesSound ∧
    (parsedIn [(0, derived1 rows), (1, almost)] (.matched 1) (.content (.manifest man64))).pagesSound := fun n hn rows hr => by
  refine ⟨dir_sound ?_ ?_ ?_, dir_sound ?_ ?_ ?_⟩ <;> (revert n rows; decide)
/-- Each way of rejection, with a record that R54 names and without. -/
theorem meets_ParseEnds_rejects : ∀ why ∈ [Rejection.malformedHeader (some (key1, 2)), .malformedHeader none, .malformed, .crc, .stale],
    ∀ dir ∈ [[], [(0, { rec1 .damaged with version := 2 })]],
    let k := parsedIn dir (.matched 0) (.reject why)
    k.working = true ∧ k.iu.parse = some ⟨15, [], some ⟨key1, 1, 2, 0, 64⟩, some (.matched 0), some (.reject why)⟩ ∧
      (dir = [] → ∀ e ∈ k.iu.dir, e.2.key ≠ key1) ∧ (dir ≠ [] → tblGet k.iu.dir 0 = some { rec1 .damaged with version := 2 }) := by decide
/-- A founding: in an empty directory, in the place of an older record that is not pinned, beside one that is, and of a COMPLETE record. -/
theorem meets_ParseEnds_founds : ∀ n ∈ [0, 1],
    (parsedIn [(0, older n)] .founds (.content (.strips 0 [copy1 2 8 true]))).pagesSound := fun n hn =>
  dir_sound (by revert n; decide) (by revert n; decide) (by revert n; decide)
theorem meets_ParseEnds_available : tblGet run.iu.dir 0 = none ∧ (older 0).pins = 0 ∧ (older 1).pins ≠ 0 ∧ (older 0).state = .damaged ∧
    (older 0).key = key1 ∧ (parsedIn [(0, older 1)] .founds (.reject .crc)).iu.dir.length < 1024 ∧
    (applyContent (.manifest { man64 with rows := 0 }) 0 { almost with strips := [] }).r.state = .complete := by decide

/-- A full directory whose records are all of other keys. -/
def fullRec (i : Nat) : PageRecord := { rec1 .complete with key := ⟨3, i + 1, 0⟩ }
@[irreducible] def fullDir : List (Nat × PageRecord) := (List.range 1024).map (fun i => (i, fullRec i))
theorem get_range {α : Type} (f : Nat → α) (n a b : Nat) :
    tblGet ((List.range' a n).map (fun i => (i, f i))) b = if a ≤ b ∧ b < a + n then some (f b) else none := by
  induction n generalizing a with
  | zero => rw [if_neg (by omega)]; rfl
  | succ n ih =>
    rw [List.range'_succ, List.map_cons, tblGet, ih]
    by_cases h : a = b
    · subst h
      rw [if_pos rfl, if_pos (by omega)]
    · rw [if_neg h]
      by_cases h2 : a + 1 ≤ b ∧ b < a + 1 + n
      · rw [if_pos h2, if_pos (by omega)]
      · rw [if_neg h2, if_neg (by omega)]
theorem meets_ParseEnds_full : (parsedIn fullDir .founds (.content (.manifest man64))).pagesSound ∧
    ∀ i < 1024, ¬(tblGet fullDir i = none ∨ ∃ r, tblGet fullDir i = some r ∧ r.key = key1) := by
  have hget : ∀ i, tblGet fullDir i = if i < 1024 then some (fullRec i) else none := fun i => by
    unfold fullDir
    rw [List.range_eq_range', get_range fullRec]
    simp
  have hkey : ∀ i r, tblGet fullDir i = some r → r = fullRec i := fun i r h => by
    rw [hget] at h
    split at h <;> cases h
    rfl
  have hl : (fullDir.map (·.1)).Pairwise (· < ·) := by
    unfold fullDir
    rw [List.map_map]
    exact (List.map_id _).symm ▸ List.pairwise_lt_range
  refine ⟨⟨hl, fun i j r q hi hj hk _ => ?_, fun i j r q hi hj _ _ hv => ?_, fun i r hi _ => ?_, fun p h hp hh _ i r hi hk => ?_⟩, fun i hi h => ?_⟩
  · rw [hkey i r hi, hkey j q hj] at hk
    simpa [fullRec] using hk
  · rw [hkey i r hi, hkey j q hj] at hv
    exact absurd hv (by simp [fullRec])
  · rw [hkey i r hi]
    rfl
  · rw [hkey i r hi] at hk
    cases hp
    cases hh
    exact absurd hk (by simp [fullRec, key1])
  · rcases h with h | ⟨r, h, hk⟩
    · rw [hget, if_pos hi] at h
      cases h
    · rw [hkey i r h] at hk
      exact absurd hk (by simp [fullRec, key1])
theorem meets_DropApplies : ∀ n ∈ [0, 2],
    let k := iuTakes [.drop key1] (paged { rec1 .complete with pins := n } run)
    k.working = true ∧ k.iu.parse = none ∧ k.iu.settling = false ∧ k.iu.queue = [.drop key1] ∧
      (∀ e ∈ k.iu.dir, e.2.key = key1 ∧ ∀ x ∈ k.iu.dir, x.2.key = key1 → x.2.version ≤ e.2.version) ∧
      floorOf k.iu.floors key1 = none ∧ floorOf [(key1, 4)] key1 = some 4 ∧ (∀ e ∈ k.iu.dir, e.2.key ≠ ⟨3, 0, 0⟩) := by decide

/-! Plates. -/

/-- The host part of an order by its bytes: of `n` positions of `key1` in format 2, at an across position and with a deadline. -/
def orderBytes (n across deadline : Nat) : List Byte :=
  List.replicate 7 0 ++ [2] ++ le 4 deadline ++ [BitVec.ofNat 8 n] ++ List.replicate 11 0 ++ [2, 14, 0, 0] ++ le 2 across ++ List.replicate 226 0

/-- The served read of an order of slot 3. -/
def orderServed (b : List Byte) : Served := ⟨xfer .report none 0x200C00 (.read 256) (.order 3), b⟩

/-- The chip with that read served. -/
def orderChip (b : List Byte) (k : Chip) : Chip :=
  { k with psc := { k.psc with ordering := some 3, holdMap := 8 }, sp := { k.sp with served := [orderServed b] } }

theorem meets_OrderArrives (b : List Byte) (n : Word) (r : PageRecord) : let k := orderChip b (clocked n (paged r run))
    k.working = true ∧ takeServed .report k.sp.served = some (orderServed b, []) ∧ (orderServed b).xfer.purpose = .order 3 ∧
    (orderServed b).xfer.notices = [] ∧ k.psc.ordering = some 3 ∧ k.psc.outstanding = 0 ∧ k.psc.awaiting = false ∧ k.psc.work = [] ∧
    k.psc.due = [] ∧ (k.marks 3).marks = [] ∧ k.inputSound ∧ k.platesSound := by
  refine ⟨rfl, rfl, rfl, rfl, rfl, rfl, rfl, rfl, rfl, rfl, ⟨fun h => (nomatch h), fun ts t h => ?_, fun _ => rfl, fun h => (nomatch h)⟩,
    .nil, fun m => ?_, fun _ _ => rfl, .nil, fun _ h => (nomatch h), fun _ _ h => (nomatch h), fun _ _ h => (nomatch h)⟩
  · have h : ([] : List PscStep) = ts ++ [t] := h
    simp at h
  · show (8#512).getLsbD m = true ↔ (none : Option Plate).isSome = true ∨ some 3 = some m
    rw [holdMap_three]
    simp
/-- An order that a check refuses; one that passes, rounded and not. -/
theorem meets_OrderArrives_checks : orderCheck (orderBytes 3 0 7200) lay.formats = 1 ∧ orderCheck (orderBytes 1 128 7200) lay.formats = 10 ∧
    orderCheck (orderBytes 1 127 7200) lay.formats = 0 ∧ orderCheck (orderBytes 1 0 7200) lay.formats = 0 ∧
    u16 (orderBytes 1 127 7200) 0x1C % 64 ≠ 0 ∧ (∀ i < 1, u16 (orderBytes 1 0 7200) (0x18 + 8 * i + 4) % 64 = 0) ∧
    u32 (orderBytes 1 0 7200) 8 = 7200 := by decide +kernel
/-- The order's positions are those of `order1`, whose readiness `order1_ready` and `order1_unready_none` show; LATE at 5,400, OVERDUE at 7,200. -/
theorem meets_OrderArrives_readiness : (let b := orderBytes 1 0 7200; (⟨u8 b 0x18, u8 b 0x19, u8 b 0x1A⟩ : PageKey) = key1) ∧
    7200 - lay.lateLead = 5400 ∧ lay.lateLead = 1800 := by decide +kernel

/-- Slots 2 and 5 with one deadline, and slot 3 to be inserted between them. -/
theorem meets_SelectionTakesHead_list :
    let deadline : Nat → Nat := fun _ => 7
    [2, 5].Pairwise (fun a b => deadline a < deadline b ∨ (deadline a = deadline b ∧ a < b)) ∧ 3 ∉ [2, 5] ∧
      insertReady deadline 3 [2, 5] = [2, 3, 5] := by decide

/-- Tables that are all VALID. -/
def validTables (k : Chip) : Chip :=
  { k with tl := { k.tl with
      curves := List.replicate 16 ⟨true, Curve.reset⟩, screens := List.replicate 8 ⟨true, Screen.reset⟩
      screenSets := List.replicate 8 ⟨true, [0, 0, 0, 0]⟩, profiles := List.replicate 16 ⟨true, ⟨600, 2, 0⟩⟩
      power := ⟨true, List.replicate 64 100⟩ } }

/-- A READY plate over a record, at a value of PLANT_CLOCK, with all tables VALID. -/
def choosing (p : Plate) (r : PageRecord) (n : Word) : Chip := held p (validTables (clocked n (paged r run)))

theorem meets_SelectionTakesHead_none : ¬(∀ e ∈ (held (plate .preparing) run).psc.plates, e.2.state ≠ .preparing) ∧ run.psc.ready = [] ∧
    run.pd.runState = .running ∧ run.imc.state ≠ .paused ∧ pscFree { run with psc := { run.psc with outstanding := 1 } } = false := by decide
/-- PSC free, the plate at the head of the list: at attempt 15 with its attempt ended, with an INVALID curve, and with all tables VALID. -/
theorem meets_SelectionTakesHead_selects : ∀ p ∈ [plate .ready, { plate .ready with attempt := 15, status := .ended }],
    ∀ k ∈ [held p run, choosing p (rec1 .complete) 0],
    k.pd.runState = .running ∧ (∀ e ∈ k.psc.plates, e.2.state ≠ .preparing) ∧ k.imc.state ≠ .paused ∧ k.psc.ready = 3 :: [] ∧
      k.plate 3 = some p ∧ (k.marks 3).marks.length < 8 := by decide
theorem meets_SelectionTakesHead_ready (r : PageRecord) (n : Word) : (held (plate .ready) run).pscReady ∧
    (held { plate .ready with attempt := 15, status := .ended } run).pscReady ∧ (choosing (plate .ready) r n).pscReady :=
  ⟨held_ready rfl rfl (by decide) rfl, held_ready rfl rfl (by decide) rfl, held_ready rfl rfl (by decide) rfl⟩
theorem meets_SelectionTakesHead_table : ¬((plate .ready).status = .ended ∧ (plate .ready).attempt = 15) ∧
    selectionFault (held (plate .ready) run) order1 = some ⟨.curve, 0⟩ ∧
    selectionFault (choosing (plate .ready) (rec1 .complete) 0) order1 = none ∧ run.imc.pauses.any = false ∧ run.imc.drum = none ∧
    run.imc.load = none := by decide
/-- A record of `key1` without separation 0, and a derived one that does not fit the COMPLETE record of its base. -/
def noSep : PageRecord := { rec1 .complete with manifest := some { man1 with seps := 2 } }
def baseDir : List (Nat × PageRecord) :=
  [(0, { rec1 .complete with manifest := some { man1 with derived := true, rows := 64, base := ⟨2, 15, 0⟩ } }),
    (1, { rec1 .complete with key := ⟨2, 15, 0⟩ })]
/-- The four answers of a snapshot: pinned, not ready, without the separation, and with a base that does not fit. -/
theorem meets_SelectionTakesHead_answers :
    resolveAll [(0, rec1 .complete)] 0 0 order1.positions = .ok [⟨0, 1, none⟩] ∧
    resolveAll [(0, rec1 .damaged)] 0 0 order1.positions = .error (.notReady, none) ∧
    resolveAll [(0, noSep)] 0 0 order1.positions = .error (.nosep 0 0 1, none) ∧ order1.positions[0]? = some ⟨key1, 0, 0⟩ ∧
    (held (plate .ready) run).marks 3 = SlotMarks.empty ∧ SlotMarks.empty.nosep0 ≠ some (0, 1) ∧
    resolveAll baseDir 0 0 order1.positions = .error (.base 0 key1, some 0) ∧
    aluminiumExposed (held (plate .ready) run) 3 (waitedAttempt (plate .ready)) = false :=
  ⟨rfl, rfl, rfl, rfl, rfl, by decide, rfl, by decide⟩

/-- Checks (a) to (d): no COMPLETE record; a record alone with the separation and without; a derived one whose base is absent, fits and does not. -/
theorem meets_SelectionTakesHead_checks :
    let base : PageKey := ⟨2, 15, 0⟩
    let m : Manifest := { man1 with derived := true, base := base }
    let d : PageRecord := { rec1 .complete with manifest := some m }
    let b : PageRecord := { rec1 .complete with key := base }
    let dir := [(0, d), (1, b)]
    resolvePosition [(0, rec1 .damaged)] key1 0 = .notComplete ∧ resolvePosition [(0, rec1 .complete)] key1 1 = .nosep 0 1 ∧
    resolvePosition [(0, rec1 .complete)] key1 0 = .ready ⟨0, 1, none⟩ ∧ resolvePosition [(0, d)] key1 0 = .notComplete ∧
    resolvePosition dir key1 0 = .ready ⟨0, 1, some (1, 1, base)⟩ ∧ resolvePosition baseDir key1 0 = .mismatch 0 ∧
    (∀ q ∈ [key1, base], ∀ x ∈ dir, ∀ y ∈ dir, x.2.key = q → y.2.key = q → x = y) ∧ m.seps.getLsbD 0 = true ∧ man1.seps.getLsbD 1 = false ∧
    man1.derived = false ∧ man1.rows = m.rows ∧ man1.dots = m.dots ∧ man1.seps = m.seps := by decide
/-- The second position decides once the first is ready. -/
theorem meets_SelectionTakesHead_second :
    let ps (k : PageKey) : List Position := [⟨key1, 0, 0⟩, ⟨k, 64, 0⟩]
    resolveAll [(0, rec1 .complete)] 0 0 (ps key1) = .ok [⟨0, 1, none⟩, ⟨0, 1, none⟩] ∧
    resolveAll [(0, rec1 .complete)] 0 0 (ps ⟨2, 15, 0⟩) = .error (.notReady, none) ∧
    resolveAll [(0, rec1 .complete), (1, { noSep with key := ⟨2, 15, 0⟩ })] 0 0 (ps ⟨2, 15, 0⟩) = .error (.nosep 1 1 1, none) :=
  ⟨rfl, rfl, rfl⟩

/-- The chip with one input of PSC waiting. -/
def arrived (x : PscInput) (k : Chip) : Chip := { k with psc := { k.psc with inbox := [x] } }

/-- Each report finds the plate it moves in slot 3. -/
theorem meets_ReportsMovePlates : ∀ x ∈ [(PscInput.exposingEntry 3 1 0, PlateState.preparing), (.exposureEnd 3 1 0 128 0, .imaging),
      (.renderFinished 3 1 0, .preparing), (.carrierCreated (some 3) 1 false, .imaging), (.carrierRemoved (some 3) 1 false, .finishing),
      (.carrierRemoved (some 3) 1 true, .closing), (.carrierRemoved none 0 true, .done)],
    pscFree (arrived x.1 (held (plate x.2) run)) = true ∧ (arrived x.1 (held (plate x.2) run)).psc.inbox = [x.1] ∧
      (held (plate x.2) run).plate 3 = some (plate x.2) ∧ (plate x.2).attempt = 1 ∧ (plate x.2).status = .opened ∧
      (plate x.2).prepNo = 0 ∧ (plate x.2).snapNo = 0 := by decide

/-- A new carrier at the end of the list, for the plate with a break pending, and for no slot. -/
theorem meets_ReportsMovePlates_carriers : ∀ x ∈ [(some 3, 1), (none, 0)],
    let c : Carrier := ⟨x.1, x.2, false, .punch, 4⟩
    let k := { arrived (.carrierCreated x.1 x.2 false) (held { plate .imaging with breakPending := some .cancel } run) with
      hlc := { run.hlc with carriers := [⟨none, 0, true, .route, 15⟩, c] } }
    pscFree k = true ∧ k.psc.inbox = [.carrierCreated x.1 x.2 false] ∧ k.hlc.carriers = [⟨none, 0, true, .route, 15⟩] ++ [c] ∧
      (plate .imaging).attempt = 1 ∧ (plate .imaging).status = .opened ∧ (k.marks 3).marks.length < 8 := by decide

/-- A report that the record 0 of `key1` has become COMPLETE, at a version. -/
def report1 (v : Nat) : PageReport := ⟨0, key1, v, some .complete, .full, none, false⟩

/-- A plate that is listed, and one whose snapshot names version 1 of `key1`; the report is of version 2. -/
theorem meets_PageReportTaken (p : PlateState) (b : Bool) (dir : List (Nat × PageRecord)) (h : p ∈ [.waiting, .ready, .preparing, .imaging, .finishing]) :
    let q : Plate := { plate p with snapshot := [⟨0, 1, none⟩] }
    let k0 := if b = true then exposed true else run
    let k := held q { arrived (.page (report1 2)) k0 with iu := { k0.iu with dir := dir } }
    k.pscReady ∧ k.psc.inbox = [.page (report1 2)] ∧ k.plate 3 = some q ∧ exposureBegun k 3 1 = b ∧ (k.marks 3).marks.length < 8 ∧
      (report1 2).state = some .complete ∧ (report1 2).again = false ∧ namesOlder q key1 2 = true ∧
      ∀ n x, n ≠ 3 → k.plate n = some x → False := by
  simp only [List.mem_cons, List.not_mem_nil, or_false] at h
  refine ⟨held_ready ?_ ?_ ?_ ?_, ?_, rfl, ?_, ?_, rfl, rfl, ?_,
    fun n x hn hx => by rw [plate_held, if_neg (Ne.symm hn)] at hx; cases hx⟩ <;>
    (rcases h with rfl | rfl | rfl | rfl | rfl <;> cases b <;> first | rfl | exact Nat.zero_lt_succ 7 | decide)
/-- The order's action, BREAK or none, and the readiness of a listed plate before and after. -/
theorem meets_PageReportTaken_kinds : order1.actionBreak = false ∧ ({ order1 with actionBreak := true } : Order).actionBreak = true ∧
    namesOlder (plate .waiting) key1 2 = false ∧ order1.allReady (paged (rec1 .complete) run).iu.dir ∧ ¬order1.allReady run.iu.dir ∧
    order1.nosepFree run.iu.dir := ⟨rfl, rfl, rfl, order1_ready, order1_unready_none⟩
/-- `meets_SelectionTakesHead_answers` gives the answers of a remake; a position without its separation gets a mark once. -/
theorem meets_PageReportTaken_nosep : resolvePosition [(0, noSep)] key1 0 = .nosep 0 1 ∧ order1.positions[0]? = some ⟨key1, 0, 0⟩ ∧
    (∀ j < 0, order1.positions[j]? = none) ∧ SlotMarks.empty.nosep0 ≠ some (0, 1) := ⟨rfl, rfl, by decide, by decide⟩

/-- A plate that holds the pins of a snapshot in which record 0 stands once and record 1, its base, twice. -/
def pinning (c : PlateState) : Plate :=
  { plate c with pinsHeld := true, snapshot := [⟨0, 1, some (1, 1, key1)⟩, ⟨1, 1, none⟩] }
/-- Records below their pins, at them, and SUPERSEDED. -/
theorem test_unpin : let snap := (pinning .imaging).snapshot
    namings snap 0 = 1 ∧ namings snap 1 = 2 ∧ namings snap 2 = 0 ∧
    (let r (st : PageState) (n : Nat) : PageRecord := { rec1 st with pins := n }
     let dir := (unpinRequest snap { run with iu := { run.iu with dir := [(0, r .superseded 1), (1, r .superseded 3), (2, r .damaged 0)] } }).iu.dir
     tblGet dir 0 = none ∧ (tblGet dir 1).map (·.pins) = some 1 ∧ tblGet dir 2 = some (r .damaged 0)) ∧
    (tblGet (unpinRequest snap (paged { rec1 .damaged with pins := 0 } run)).iu.dir 0).map (·.pins) = some 0 := by decide +kernel
/-- A pin for each naming. -/
theorem test_pin : pinnedRecords (pinning .ready).snapshot = [0, 1, 1] ∧
    (tblGet ((pinnedRecords (pinning .ready).snapshot).foldl IuEvent.pin (IuEvent.start
      { run.iu with dir := [(0, rec1 .complete), (1, { rec1 .complete with pins := 4 })] })).u.dir 1).map (·.pins) = some 6 := by decide +kernel
theorem meets_ReportsMovePlates_pins : ∀ c ∈ [PlateState.preparing, .imaging], (pinning c).pinsHeld = true ∧ (pinning c).attempt = 1 ∧
    (pinning c).status = .opened ∧ (pinning c).snapNo = 0 ∧ (pinning c).state = c := by decide

/-- A disposition of plate 3, attempt 1. -/
def verdict (s : Severity) (charged : Bool) : Disposition :=
  { slot := 3, attempt := 1, severity := s, charged := charged, place := .none, own := false }

theorem meets_DispositionsMovePlates_send : ∀ sev ∈ [Severity.note, .hold, .spoil, .fail], ∀ b ∈ [true, false],
    let k := { exposed b with dmr := { run.dmr with toSend := [verdict sev false] } }
    k.working = true ∧ k.dmr.toSend = [verdict sev false] ∧ exposureBegun k 3 1 = b := by decide
/-- PSC that awaits the disposition of its own mark, with it not yet there and with it there, at each list of steps left. -/
theorem meets_DispositionsMovePlates_own : ∀ x ∈ [(PlateState.waiting, ([] : List PscStep)), (.ready, [.fail 3]), (.ready, [.waiting 3]),
      (.imaging, [.startBreak 3 .requeue])],
    let k0 := held (plate x.1) run
    let d : Disposition := { slot := 3, attempt := 1, severity := .note, charged := false, place := .none, own := true }
    let k := { k0 with psc := { k0.psc with awaiting := true, answer := some d, work := x.2 ++ [.publish [(3, plate x.1)]] } }
    pscFree k = false ∧ k.working = true ∧ k.psc.awaiting = true ∧ k.psc.answer = some d ∧ k.plate 3 = some (plate x.1) ∧ d.severity = .note ∧
      k.psc.ordering = none ∧ k.psc.outstanding = 0 ∧ k.psc.due = [] ∧ k.psc.newsDue = [] ∧ k.pd.runState ≠ .stopping ∧
      (plate x.1).carriersOut = 0 ∧ (plate x.1).drumReject = false ∧ { k with psc := { k.psc with answer := none } }.psc.answer = none := by
  decide
/-- The plates of such a chip are in order. -/
theorem meets_DispositionsMovePlates_sound (c : PlateState) (h : c ∈ [.waiting, .ready, .imaging]) (w : List PscStep) (d : Option Disposition) :
    let k0 := held (plate c) run
    { k0 with psc := { k0.psc with awaiting := true, answer := d, work := w } }.platesSound := by
  obtain ⟨h1, h2, h3, h4, h5, h6, h7⟩ := held_sound (p := plate c) (k := run) rfl (by revert h c; decide)
  exact ⟨h1, h2, h3, h4, h5, fun n p hp hs => (h6 n p hp hs).imp_right (fun h => by rcases h with h | h | h <;> cases h), h7⟩
/-- A disposition that has arrived, of each severity, for plates in each of the states and conditions that the clauses tell apart. -/
theorem meets_DispositionsMovePlates_apply (sev : Severity) (p : Plate) (n : Word) (r : PageRecord)
    (hp : p ∈ [plate .preparing, plate .imaging, { plate .imaging with charged := 1 }, { plate .imaging with breakPending := some .cancel },
      { plate .imaging with carriersOut := 1 }, { plate .closing with closing := some .failed }, plate .done]) :
    let k := held p (arrived (.disposition (verdict sev true)) (clocked n (paged r run)))
    k.pscReady ∧ k.psc.inbox = [.disposition (verdict sev true)] ∧ k.plate 3 = some p ∧ p.attempt = (verdict sev true).attempt ∧
      p.status = .opened ∧ p.order.budget = 1 ∧ p.order = order1 ∧ p.pinsHeld = false ∧ exposureBegun k 3 1 = false := by
  simp only [List.mem_cons, List.not_mem_nil, or_false] at hp
  rcases hp with rfl | rfl | rfl | rfl | rfl | rfl | rfl <;>
    exact ⟨held_ready rfl rfl (by decide) rfl, rfl, rfl, rfl, rfl, rfl, rfl, rfl, rfl⟩

/-- HOLD and FAIL in the other states: not yet chosen, with exposure begun, and in FINISHING; a drum plate that IMC spoils. -/
theorem meets_DispositionsMovePlates_states (sev : Severity) (c : PlateState) (b : Bool) (hc : c ∈ [.waiting, .ready, .imaging, .finishing]) :
    let k := held (plate c) (arrived (.disposition (verdict sev true)) (exposed b))
    k.pscReady ∧ k.psc.inbox = [.disposition (verdict sev true)] ∧ k.plate 3 = some (plate c) ∧ (plate c).attempt = 1 ∧
      (plate c).status = .opened ∧ exposureBegun k 3 1 = b ∧ k.imc.drum = some ⟨2, some ref1, .unexposed, false⟩ ∧
      k.imc.state = .exposing ∧ k.imc.exposure.begun = b ∧ k.hlc.unloadEnd = .none := by
  simp only [List.mem_cons, List.not_mem_nil, or_false] at hc
  rcases hc with rfl | rfl | rfl | rfl <;> cases b <;>
    exact ⟨held_ready rfl rfl (by decide) rfl, rfl, rfl, rfl, rfl, rfl, rfl, rfl, rfl, rfl⟩
/-- A carrier of the plate that is not spoiled and one that is, with requests of the plate waiting. -/
theorem meets_DispositionsMovePlates_carriers : ∀ b ∈ [true, false],
    let h : HandlerLine := { run.hlc with
      carriers := [⟨some 3, 1, b, .process, 4⟩], sorter := { run.hlc.sorter with queue := [⟨.route 4, some 3, 1, 7⟩] } }
    (∃ c ∈ h.carriers, c.slot = some 3 ∧ c.attempt = (plate .finishing).attempt ∧ c.spoiled = b) ∧
      h.sorter.queue = [⟨.route 4, some 3, 1, 7⟩] ∧ Plate.state (plate .finishing) = .finishing := by decide

/-! Rendering and tables. -/

/-- A render order entry of plate 3. -/
def entry1 (next : Nat) (begun stall : Bool) : RenderEntry :=
  { slot := 3, attempt := 1, snapshot := [⟨0, 1, none⟩], snapNo := 1, format := ⟨8192, 128, 100, 3, false⟩, sep := 0, curve := 0
    screenSet := 0, trim := 0, positions := [⟨key1, 0, 0⟩], next := next, begun := begun, stall := stall, finding := false, ordinal := 1 }

/-- The chip with that entry at the head of the render order. -/
def rendering (next : Nat) (begun stall : Bool) (k : Chip) : Chip := { k with br := { k.br with order := [entry1 next begun stall] } }

theorem meets_RenderSteps_waits : (rendering 0 false true run).working = true ∧ (rendering 0 false true run).br.order = [entry1 0 false true] ∧
    (entry1 0 false true).stall = true ∧ (entry1 2 true false).format.rows / 64 ≤ (entry1 2 true false).next := by decide
/-- Swath 0 not begun (the reflection point), and swath 1 (a fill), both with buffer 0 FREE. -/
theorem meets_RenderSteps_begins : ∀ n ∈ [0, 1],
    let k := rendering n (decide (n = 1)) false run
    let e := entry1 n (decide (n = 1)) false
    k.br.order = [e] ∧ e.stall = false ∧ e.next < e.format.rows / 64 ∧ 0 < e.format.width ∧ k.br.fill = none ∧
      k.br.buffers[0]? = some .free ∧ (∀ a < 0, k.br.buffers[a]? ≠ some .free) ∧ k.br.point = none ∧ k.tl.point = false ∧
      (e.next = 0 ∧ e.begun = false ↔ n = 0) ∧ positionAt e.positions e.format.rows e.next = some (⟨key1, 0, 0⟩, 0) ∧
      e.snapshot[0]? = some ⟨0, 1, none⟩ := by decide
/-- A position whose record is its own, and one over a base; page rows in the store above the swath's, and none. -/
theorem meets_RenderSteps_plan : ∀ b ∈ [none, some (1, 1, (⟨2, 15, 0⟩ : PageKey))],
    let e : RenderEntry := { entry1 1 true false with snapshot := [⟨0, 1, b⟩] }
    let half (m : Memory) (a : Nat) : Nat := (Memory.read m a).toNat + 256 * (Memory.read m (a + 1)).toNat
    positionAt e.positions e.format.rows e.next = some (⟨key1, 0, 0⟩, 0) ∧ e.snapshot[0]? = some ⟨0, 1, b⟩ ∧
      64 * (e.next - 0 / 64) < half [(0x100000A, 192)] (run.lay.pageBase + 0x0A) ∧
      half [] (run.lay.pageBase + 0x0A) ≤ 64 * (e.next - 0 / 64) ∧ positionAt [] e.format.rows e.next = none := by decide
/-- A reflection point with a due reload; without one and all tables VALID; without one and the curve INVALID. -/
theorem meets_RenderSteps_point :
    let k (tl : TableLoader) := { rendering 0 false false run with
      tl := { tl with point := true }, br := { run.br with order := [entry1 0 false false], point := some (3, 1) } }
    (∃ p ∈ (k { run.tl with pendingSet := [⟨⟨.curve, 0⟩, true⟩] }).tl.pendingSet, p.due = true) ∧
    (∀ p ∈ (k (validTables run).tl).tl.pendingSet, p.due = false) ∧ (k (validTables run).tl).tl.reload = none ∧
    (k (validTables run).tl).br.point = some ((entry1 0 false false).slot, (entry1 0 false false).ordinal) ∧
    ((k (validTables run).tl).curve 0).valid = true ∧ ((k (validTables run).tl).screenSet 0).valid = true ∧
    ((k (validTables run).tl).screen 0).valid = true ∧ ((k run.tl).curve 0).valid = false ∧ (k run.tl).working = true := by decide

/-- A plan without sources. -/
def plan1 : FillPlan := ⟨false, 0, 4, 4000, none, [], []⟩

/-- A fill of plate 3's swath. -/
def fill1 (swath : Nat) (done : Bool) : Fill := ⟨1, 0, 3, 1, swath, plan1, [], [], [], [], [], 0, done⟩

theorem meets_RenderSteps_ends : ∀ n ∈ [0, 1], ∀ done ∈ [true, false],
    let k := rendering n true false { run with br := { run.br with fill := some (fill1 n done) } }
    k.working = true ∧ k.br.order = [entry1 n true false] ∧ k.br.fill = some (fill1 n done) ∧ (fill1 n done).slot = 3 ∧
      (fill1 n done).attempt = 1 ∧ (fill1 n done).done = done ∧ (n + 1 = (entry1 n true false).format.rows / 64 ↔ n = 1) := by decide

/-- A fill's reads and writes complete: a row set with more to come and the last one; an entry read; the strip read in part, whole, and not
decodable. -/
theorem meets_DataArrives_fill :
    let src : StripSource := ⟨0, key1, 5, 32, 64⟩
    let f : Fill := { fill1 0 false with items := [.line src], reads := [(0x50020, 4)] }
    let k := rendering 0 true false { paged (rec1 .damaged) (held (plate .preparing) run) with br := { run.br with fill := some f } }
    k.br.fill = some f ∧ f.id = 1 ∧ f.slot = 3 ∧ f.attempt = 1 ∧ f.swath = 0 ∧ k.br.order = [entry1 0 true false] ∧
    ((entry1 0 true false).format.width + 511) / 512 = 16 ∧ 0 + 1 < 16 ∧ 16 ≤ 15 + 1 ∧ { f with items := [] }.items = [] ∧
    f.reads = (0x50020, 4) :: [] ∧ f.plan.pageDots = 4000 ∧ (k.plate 3).isSome = true ∧ (entry1 0 true false).finding = false ∧
    (k.marks 3).marks.length < 8 ∧ (fill1 0 false).id ≠ 2 := by decide
/-- The last of the entries is read: with all PRESENT and with a finding, and the bodies of a strip and of two patches, the second further down. -/
theorem meets_DataArrives_entries :
    let src : StripSource := ⟨0, key1, 5, 32, 64⟩
    let p (row0 : Nat) : PatchSource := ⟨0, key1, 0, 1, 2, 5, 128, 8, row0, 8, 2, 2⟩
    let plan (missing : List (PageKey × Option Nat)) : FillPlan := { plan1 with line := some src, patches := [p 0, p 64, p 60], missing := missing }
    let f (missing : List (PageKey × Option Nat)) : Fill := { fill1 0 false with plan := plan missing }
    (f []).items = [] ∧ (f []).reads = [] ∧ (f []).plan.missing = [] ∧ (f [(key1, none)]).plan.missing = (key1, none) :: [] ∧
    { f [] with reads := [(0x1004000, 16)] }.reads = (0x1004000, 16) :: [] ∧ 0 < src.len ∧ 0 < (p 0).len ∧
    planItems (plan []) 8192 = [.line src, .patch 0 (p 0) 1, .patch 2 (p 60) 1] := by decide
/-- A patch read in part, whole and not decodable, with another item after it. -/
theorem meets_DataArrives_patch :
    let p : PatchSource := ⟨0, key1, 0, 1, 2, 5, 128, 6, 0, 8, 2, 2⟩
    let f : Fill := { fill1 0 false with items := [.patch 0 p 1, .patch 1 p 1] }
    f.items = .patch 0 p 1 :: [.patch 1 p 1] ∧ 0 < p.len ∧ decodePatch 2 2 1 6 [1, 5, 6] = ([[5, 6]], .more) ∧
    decodePatch 2 2 1 6 [1, 5, 6, 1, 7, 8] = ([[5, 6], [7, 8]], .complete) ∧ decodePatch 2 2 1 6 [1, 5, 6, 2] = ([[5, 6]], .failed) ∧
    tblGet (rec2 none 0).patches (32 * 0 + 1) = some (.present (patch1 0 9)) := by decide
theorem meets_DataArrives_decode : (decodeStrip 4000 64 (List.replicate 60 0xE1)).2 = .more ∧
    (decodeStrip 4000 64 (List.replicate 64 0xE1)).2 = .complete ∧ (decodeStrip 4000 64 (List.replicate 60 0xE1 ++ [0xE2])).2 = .failed ∧
    tblGet (rec1 .damaged).strips (768 * 0 + 1) = some (.present ⟨5, 32, 64, 9⟩) := by decide
/-- The refused transfer of a fill is that of the fill in progress, or of an older one. -/
theorem meets_RefusalOfTransfer_filling : let k := rendering 0 true false { run with br := { run.br with fill := some (fill1 0 false) } }
    k.br.fill = some (fill1 0 false) ∧ (fill1 0 false).id = 1 ∧ (fill1 0 false).id ≠ 2 := by decide

/-- A reload in progress. -/
def reload1 (id : TableId) (o : Option Bool) : Reload := ⟨id, false, [], List.replicate 128 1, o⟩

/-- The chip with a reload. -/
def reloading (id : TableId) (o : Option Bool) (k : Chip) : Chip := { k with tl := { k.tl with reload := some (reload1 id o) } }

theorem meets_TableReloads_begin :
    let a : PendingTable := ⟨⟨.curve, 15⟩, false⟩
    let b : PendingTable := ⟨⟨.profile, 15⟩, false⟩
    let k := { run with tl := { run.tl with pendingSet := [a, b] } }
    k.tl.reload = none ∧ k.working = true ∧ k.tl.pendingSet = [a] ++ b :: [] ∧ ¬(a.due = true ∧ k.tl.point = true) ∧
      k.imc.state ≠ .exposing ∧ b.id.idx < 16 ∧ k.lay.tableBase % 4096 = 0 ∧ (exposed true).imc.state = .exposing := by decide
theorem meets_TableReloads_start :
    let all : List TableId := (List.range 16).map (⟨.curve, ·⟩) ++ (List.range 8).map (⟨.screen, ·⟩) ++
      (List.range 8).map (⟨.screenSet, ·⟩) ++ (List.range 16).map (⟨.profile, ·⟩) ++ [⟨.power, 0⟩]
    (starting .tables).tl.reload = none ∧ (starting .tables).pd.runState = .starting ∧ (starting .tables).pd.phase = .tables ∧
      all[(starting .tables).tl.startNext]? = some ⟨.curve, 0⟩ ∧ all[48]? = some ⟨.power, 0⟩ := by decide
theorem meets_TableReloads_end : ∀ id ∈ [TableId.mk .curve 0, ⟨.screen, 0⟩, ⟨.screenSet, 0⟩, ⟨.profile, 0⟩, ⟨.power, 0⟩], ∀ v ∈ [true, false],
    (reloading id (some v) run).tl.reload = some (reload1 id (some v)) ∧ (reload1 id (some v)).outcome = some v ∧
      (reloading id (some v) run).working = true ∧ run.imc.waiting = none ∧ run.imc.load = none ∧ run.imc.drum = none ∧
      (reloading id (some v) (starting .tables)).pd.runState = .starting ∧ (starting .tables).tl.startNext ≠ 49 := by decide
/-- The plate in PREPARING waits, has its LOAD in work, or is on the drum; its profile is then VALID, or INVALID. -/
theorem meets_TableReloads_plate : ∀ v ∈ [true, false],
    let k0 := reloading ⟨.profile, 0⟩ (some v) (validTables (held (plate .preparing) run))
    let r := reload1 ⟨.profile, 0⟩ (some v)
    let waits := { k0 with imc := { k0.imc with waiting := some ref1 } }
    let loads := { k0 with imc := { k0.imc with state := .loading, load := some ⟨2, some ref1⟩ } }
    let drum := drummed .unexposed (some ref1) .settling false k0
    (∀ k ∈ [waits, loads, drum], k.tl.reload = some r ∧ k.working = true ∧ (k.plate 3).isSome = true ∧ (k.marks 3).marks.length < 8 ∧
      exposureBegun k 3 1 = false) ∧
    r.outcome = some v ∧ r.id = ⟨.profile, ref1.profile⟩ ∧ waits.imc.waiting = some ref1 ∧ loads.imc.waiting = none ∧
    loads.imc.load = some ⟨2, some ref1⟩ ∧ drum.imc.waiting = none ∧ drum.imc.load = none ∧
    drum.imc.drum = some ⟨2, some ref1, .unexposed, false⟩ ∧ drum.imc.exposure.entered = false ∧ drum.imc.state = .settling ∧
    drum.tl.power.valid = true := by decide
/-- The drum plate settles again after EXPOSING while another plate waits: that plate is the one in PREPARING. -/
theorem meets_TableReloads_settles :
    let k0 := reloading ⟨.profile, 0⟩ (some true) (drummed .unexposed (some ref1) .settling false (validTables run))
    let k := { k0 with imc := { k0.imc with waiting := some { ref1 with slot := 4 }, exposure := { k0.imc.exposure with entered := true } } }
    k.working = true ∧ k.imc.state = .settling ∧ k.imc.drum = some ⟨2, some ref1, .unexposed, false⟩ ∧
      k.imc.waiting = some { ref1 with slot := 4 } := by decide
theorem meets_CodecsRoundTrip : (List.replicate 64 [1000, 8000, 11000]).length = 64 ∧
    (∀ r ∈ List.replicate 64 [1000, 8000, 11000], rowLegal 20000 r = true) ∧ [[20000]].length < 64 ∧ 0xE2 ≤ (0xE2#8).toNat := by decide
/-- Rows of a patch 4 pixels wide, in literals and runs, of which the second is the last needed and, of an image of two, the last; a cut inside
the second row; and a code that would pass the row. -/
theorem meets_CodecsRoundTrip_patch :
    let rows : List (List PatchCode) := [[.run 4 7], [.literal [1, 2], .run 2 9]]
    rows.length = 1 + 1 ∧ 1 < 2 ∧ 1 + 1 < 3 ∧ (∀ r ∈ rows, patchRowLegal 4 r = true) ∧
    patchEncode rows = [0x83, 7, 1, 1, 2, 0x81, 9] ∧ rows.map patchRow = [[7, 7, 7, 7], [1, 2, 9, 9]] ∧
    (patchEncode (rows.take 1)).length ≤ 4 ∧ 4 < (patchEncode (rows.take 2)).length ∧
    (patchRow [.run 3 7]).length < 4 ∧ 4 < (patchRow [.run 3 7]).length + (PatchCode.run 2 9).pixels.length ∧
    (∀ c ∈ [PatchCode.run 2 9, .run 3 7], 1 ≤ c.pixels.length ∧ c.pixels.length ≤ 128) := by decide
theorem test_patch_decode : decodePatch 4 2 1 7 [0x83, 7, 1, 1, 2, 0x81, 9] = ([[7, 7, 7, 7], [1, 2, 9, 9]], .complete) ∧
    decodePatch 4 3 1 9 [0x83, 7, 1, 1, 2, 0x81, 9, 0] = ([[7, 7, 7, 7], [1, 2, 9, 9]], .complete) ∧
    decodePatch 4 2 1 8 [0x83, 7, 1, 1, 2, 0x81, 9, 0] = ([[7, 7, 7, 7], [1, 2, 9, 9]], .failed) ∧
    decodePatch 4 2 1 7 [0x83, 7, 1, 1] = ([[7, 7, 7, 7]], .more) ∧ decodePatch 4 2 1 6 [0x83, 7, 0x82, 7, 0x81, 9] = ([[7, 7, 7, 7]], .failed) := by
  decide
theorem meets_ScreenedValue : curve1.knots.length = 17 ∧ (∀ y ∈ curve1.knots, y ≤ 4095) ∧ curve1.minDot ≤ 409 ∧ 3686 ≤ curve1.maxDot ∧
    curve1.maxDot ≤ 4095 ∧ 255 ≤ 255 ∧ (-60 : Int) ≤ 255 ∧ 8 ≤ Screen.reset.size ∧
    Screen.reset.thresholds.length = Screen.reset.size * Screen.reset.size ∧ (∀ θ ∈ Screen.reset.thresholds, 1 ≤ θ ∧ θ ≤ 4095) := by decide
/-- Every range of the clamp and snap is met: the trimmed tone at or below 0, below the minimum dot, between, above the maximum, at or above 4,095. -/
theorem meets_ScreenedValue_ranges :
    let u (v : Nat) (t : Int) := (tone curve1 v : Int) + t
    u 3 (-60) ≤ 0 ∧ (0 < u 12 (-60) ∧ u 12 (-60) < curve1.minDot) ∧ (curve1.minDot ≤ u 100 (-60) ∧ u 100 (-60) ≤ curve1.maxDot) ∧
      (curve1.maxDot < u 255 (-60) ∧ u 255 (-60) < 4095) ∧ 4095 ≤ u 255 0 := by decide
theorem meets_RowSetColumns : (511 < 512 ∧ 63 < 64) ∧ plan1.blank = false ∧ plan1.around ≤ 4 ∧ 4 - plan1.around < plan1.pageDots ∧
    3 < plan1.around ∧ plan1.pageDots ≤ 4004 - plan1.around ∧ plan1.patches = [] := by decide
theorem meets_RowSetColumns_patch :
    let p : PatchSource := ⟨0, key1, 0, 1, 2, 5, 0, 8, 64, 8, 2, 2⟩
    let f : Fill := { fill1 0 false with plan := { plan1 with strip := 1, patches := [p] }, images := [(0, [[1, 2], [3, 4]])] }
    f.plan.patches = [] ++ [p] ∧ p.mode = 1 ∧ tblGet f.images 0 = some [[1, 2], [3, 4]] ∧ p.row0 ≤ 64 * f.plan.strip + 3 ∧
      64 * f.plan.strip + 3 < p.row0 + p.h * p.scale ∧ p.dot0 ≤ 11 ∧ 11 < p.dot0 + p.w * p.scale ∧
      [[1#8, 2], [3, 4]][(64 * f.plan.strip + 3 - p.row0) / p.scale]? = some [3, 4] := by decide

/-- Two patches on one dot, the second OVERPRINT; a dot beside the second; a row of it that was not decoded. -/
theorem meets_RowSetColumns_merge :
    let p (mode : Nat) : PatchSource := ⟨0, key1, 0, mode, 2, 5, 0, 8, 64, 8, 2, 2⟩
    let f (mode : Nat) : Fill := { fill1 0 false with
      plan := { plan1 with strip := 1, patches := [p 1, p mode] }, images := [(0, [[1, 2], [3, 4]]), (1, [[5, 6]])] }
    (∀ mode ∈ [1, 2], (f mode).plan.patches = [p 1] ++ [p mode] ∧ (p mode).mode = mode ∧ tblGet (f mode).images [p 1].length = some [[5, 6]]) ∧
    (∀ c ∈ [1, 3], (p 2).row0 ≤ 64 * 1 + c ∧ 64 * 1 + c < (p 2).row0 + (p 2).h * (p 2).scale) ∧ ¬((p 2).dot0 ≤ 7) ∧ (p 2).dot0 ≤ 8 ∧
    8 < (p 2).dot0 + (p 2).w * (p 2).scale ∧ [[5#8, 6]][(64 * 1 + 1 - (p 2).row0) / (p 2).scale]? = some [5, 6] ∧
    [[5#8, 6]][(64 * 1 + 3 - (p 2).row0) / (p 2).scale]? = none := by decide

/-! The drum and the head. -/

/-- The chip with a previous transition, a count, an active pair and a pass. -/
def turning (q : Option EncoderEdge) (n : Int) (p : Option Pass) (k : Chip) : Chip :=
  { k with dtu := { k.dtu with prev := q, count := n, activeA := 100, activeB := 8292, reference := false }, hf := { k.hf with pass := p } }

/-- A pass over buffer 0. -/
def pass1 (pre : List (Nat × List Byte)) (w : Bool) : Pass := ⟨1, 8192, 0, 2, 0, pre, w, false⟩

theorem meets_EncoderCounts : (inRun .halted run).pd.runState = .halted ∧ run.pd.runState ≠ .halted ∧
    EncoderEdge.phase1Rises ≠ .bothChange ∧ run.dtu.prev = none ∧
    (turning (some .phase1Rises) 5 none run).dtu.prev = some .phase1Rises ∧ (turning (some .phase1Rises) 5 none run).hf.pass = none ∧
    run.imc.state ≠ .exposing := by decide
theorem meets_EncoderCounts_window :
    let k (n : Int) (pre : List (Nat × List Byte)) (w : Bool) := turning (some .phase1Rises) n (some (pass1 pre w)) (exposed true)
    (∀ x ∈ [(8291, true), (99, false), (100, true), (610, true)], (k x.1 [(0, [])] x.2).hf.pass = some (pass1 [(0, [])] x.2)) ∧
    max (-32768) (min 65535 ((k 8291 [] true).dtu.count + 1)) = (k 8291 [] true).dtu.activeB ∧
    max (-32768) (min 65535 ((k 99 [] false).dtu.count + 1)) = (k 99 [] false).dtu.activeA + (0 : Nat) ∧
    max (-32768) (min 65535 ((k 610 [] true).dtu.count + 1)) = (k 610 [] true).dtu.activeA + (511 : Nat) ∧
    tblGet (pass1 [(0, [5])] true).prefetch (511 / 512) = some [5] ∧ tblGet (pass1 [(0, [5])] true).prefetch (512 / 512) = none ∧
    (k 611 [] true).imc.drum = some ⟨2, some ref1, .unexposed, false⟩ := by decide
/-- Dot 511, and the last dot of the width, with the row set there and another not yet fetched. -/
theorem meets_EncoderCounts_leaves :
    let k (n : Int) (j : Nat) := turning (some .phase1Rises) n (some (pass1 [(j, [5])] true)) (exposed true)
    (∀ x ∈ [(610, 0, 511), (8290, 15, 8191)], max (-32768) (min 65535 ((k x.1 x.2.1).dtu.count + 1)) = (k x.1 x.2.1).dtu.activeA + (x.2.2 : Nat) ∧
      max (-32768) (min 65535 ((k x.1 x.2.1).dtu.count + 1)) ≠ (k x.1 x.2.1).dtu.activeB ∧
      tblGet (pass1 [(x.2.1, [5])] true).prefetch (x.2.2 / 512) = some [5]) ∧ 511 % 512 = 511 ∧ 8191 + 1 = (pass1 [] true).width ∧
    (pass1 [] true).nextSet < ((pass1 [] true).width + 511) / 512 := by decide
theorem meets_EncoderCounts_slip : ∀ b ∈ [true, false],
    let k := turning (some .phase2Rises) 5 none (exposed b)
    k.working = true ∧ k.imc.state = .exposing ∧ k.dtu.prev = some .phase2Rises ∧ k.imc.exposure.begun = b ∧
      k.imc.drum = some ⟨2, some ref1, .unexposed, false⟩ ∧ k.dmr.record.valid = false := by decide

/-- The chip SETTLING at 600 rpm, with a settle count and a count at the index. -/
def settlingAt (n : Nat) (count : Int) (e : Bool) : Chip :=
  let k := turning (some .phase1Rises) count none (drummed .unexposed (some ref1) .settling false (validTables (ctl true e (held (plate .preparing) run))))
  { k with imc := { k.imc with exposure := { k.imc.exposure with settle := n } } }

/-- Whether an index is in the window of 600 rpm and 2 %, and whether a count slips, as the statements write them. -/
def inWin (k : Chip) (elapsed : Nat) : Prop :=
  (((min 16777215 elapsed : Nat) : Int) - (60000000 / k.imc.drumTarget : Nat)).natAbs * 100 ≤ 60000000 / k.imc.drumTarget * k.lay.speedWindow

theorem meets_IndexSettles : (inRun .halted run).pd.runState = .halted ∧ run.imc.drum = none ∧
    (∀ x ∈ [(0, 32768, true), (2, 32772, true), (2, 32768, false), (1, 32763, true)],
      let k := settlingAt x.1 x.2.1 x.2.2
      k.working = true ∧ k.imc.drum = some ⟨2, some ref1, .unexposed, false⟩ ∧ k.imc.state = .settling ∧ k.dtu.reference = false ∧
        k.imc.drumTarget ≠ 0 ∧ k.regs.exposeEnable = x.2.2 ∧ k.tl.pendingSet = [] ∧ k.tl.reload = none) ∧
    (settlingAt 2 0 true).imc.exposure.settle = (settlingAt 2 0 true).lay.settleCount ∧
    (settlingAt 1 0 true).imc.exposure.settle ≠ (settlingAt 1 0 true).lay.settleCount ∧
    ¬(lay.slipTolerance < ((32772 : Int) - 32768).natAbs) ∧ lay.slipTolerance < ((32763 : Int) - 32768).natAbs := by decide
theorem meets_IndexSettles_window : inWin (settlingAt 2 0 true) 102000 ∧ inWin (settlingAt 2 0 true) 98000 ∧
    ¬inWin (settlingAt 2 0 true) 102001 ∧ ¬inWin (settlingAt 2 0 true) 97999 := by unfold inWin; decide

/-- The chip EXPOSING at a pass, with the first band of the plate in buffer 0. -/
def exposingAt (pass : Nat) (brk : Bool) (b : Buffer) : Chip :=
  let k := turning (some .phase1Rises) 32768 none (exposed (decide (pass ≠ 0)))
  { k with
    dtu := { k.dtu with bufferedA := 100, bufferedB := 8292 }
    br := { k.br with buffers := b :: List.replicate 15 .free }
    imc := { k.imc with exposure := { k.imc.exposure with pass := pass, breakRequest := brk, values := ⟨600, 2, 0, 100⟩ } } }

theorem meets_IndexExposes : ∀ x ∈ [(0, false, Buffer.full ⟨3, 1, 0⟩), (0, false, .free), (1, false, .draining ⟨3, 1, 0⟩),
      (2, false, .draining ⟨3, 1, 0⟩), (2, true, .draining ⟨3, 1, 0⟩), (1, true, .draining ⟨3, 1, 0⟩)],
    let k := exposingAt x.1 x.2.1 x.2.2
    k.working = true ∧ k.imc.drum = some ⟨2, some ref1, .unexposed, false⟩ ∧ k.imc.state = .exposing ∧ k.dtu.reference = false ∧
      k.imc.drumTarget ≠ 0 ∧ k.dtu.bufferedA ≠ 0 ∧ k.dtu.bufferedB ≠ 0 ∧ k.regs.exposeEnable = true ∧ k.br.buffers[0]? = some x.2.2 ∧
      k.imc.exposure.pass = x.1 ∧ k.imc.exposure.breakRequest = x.2.1 ∧ (k.imc.exposure.begun = true ↔ x.1 ≠ 0) ∧
      ¬(k.lay.slipTolerance < (k.dtu.count - 32768).natAbs) := by decide
theorem meets_IndexExposes_window : inWin (exposingAt 2 false .free) 102000 ∧ ¬inWin (exposingAt 2 false .free) 102001 := by unfold inWin; decide
/-- With a lead of 0 the pass that starts at the index has dot 0 due at once. -/
theorem meets_IndexExposes_lead : let k0 := exposingAt 0 false (.full ⟨3, 1, 0⟩)
    let k := { k0 with dtu := { k0.dtu with bufferedA := 0 } }
    k.working = true ∧ k.imc.drum = some ⟨2, some ref1, .unexposed, false⟩ ∧ k.imc.state = .exposing ∧ k.dtu.reference = false ∧
      k.imc.drumTarget ≠ 0 ∧ k.dtu.bufferedB ≠ 0 ∧ k.dtu.bufferedA = 0 ∧ k.regs.exposeEnable = true := by decide
/-- The last swath: the format of the plate has two. -/
theorem meets_IndexExposes_last : 1 + 1 = ((exposingAt 2 false .free).format ref1.format).rows / 64 ∧
    0 + 1 ≠ ((exposingAt 2 false .free).format ref1.format).rows / 64 ∧ (exposingAt 2 false .free).lay.holdLimit = 1 := by decide

theorem meets_HeadAndUnload : Chip.reset.working = false ∧ run.working = true ∧ run.imc.state ≠ .exposing ∧
    (exposed true).working = true ∧ (exposed true).imc.state = .exposing ∧ (exposed true).imc.exposure.begun = true ∧
    (exposed true).imc.drum = some ⟨2, some ref1, .unexposed, false⟩ := by decide
theorem meets_HeadAndUnload_issue : ∀ c ∈ [Condition.exposed, .unexposed],
    let k := drummed c (some ref1) .unloadWait false run
    k.working = true ∧ k.imc.drum = some ⟨2, some ref1, c, false⟩ ∧ c ≠ .spoiled ∧
      k.hlc.carriers.length < 4 ∧ k.imc.load = none ∧ k.imc.state ≠ .unloading ∧ k.imc.pauses = ⟨false, false, false, false⟩ := by decide
theorem meets_HeadAndUnload_end : ∀ b ∈ [true, false], ∀ w ∈ [none, some ref1],
    let k0 := drummed .exposed (some ref1) .unloading true (held (plate .imaging) run)
    let k := { k0 with
      hlc := { k0.hlc with unloadEnd := .handed }
      imc := { k0.imc with waiting := w, exposure := { k0.imc.exposure with deferredBreak := b } } }
    k.working = true ∧ k.hlc.unloadEnd = .handed ∧ k.imc.exposure.deferredBreak = b ∧ k.imc.pauses = ⟨false, false, false, false⟩ ∧
      k.imc.waiting = w ∧ k.imc.load = none ∧ k.imc.drum = some ⟨2, some ref1, .exposed, false⟩ ∧ (k.plate ref1.slot).isSome = true ∧
      (k.marks ref1.slot).marks.length < 8 ∧ run.hlc.unloadEnd ≠ .handed := by decide

/-! The handler line. -/

/-- A request of plate 3 to a unit. -/
def request1 (q : RequestKind) : Request := ⟨q, some 3, 1, 7⟩

/-- The chip with a request in work at a unit and an exchange on the line. -/
def working1 (u : HUnit) (q : RequestKind) (ph : ReqPhase) (line : Option Exchange) (silent : Nat) : Chip :=
  let x : UnitState := { UnitState.reset with
    work := some (request1 q, ph), silent := silent, completion := some 60, pollTimer := some 100, again := true, pollDue := true }
  { run with hlc := HandlerLine.setUnit { run.hlc with line := line, carriers := [⟨some 3, 1, false, .punch, 4⟩] } u x }

theorem meets_HandlerExchanges_start :
    let k := { run with hlc := { run.hlc with punch := { UnitState.reset with queue := [request1 (.punch true)] } } }
    k.working = true ∧ k.hlc.line = none ∧ k.hlc.punch.hold = none ∧ k.hlc.punch.work = none ∧ k.hlc.punch.queue ≠ [] ∧
      k.hlc.loader.queue = [] ∧ k.hlc.loader.work = none := by decide
theorem meets_HandlerExchanges_again : ∀ ph ∈ [ReqPhase.sent, .busyWait, .taken],
    let k := working1 .punch (.punch true) ph none 0
    k.working = true ∧ k.hlc.line = none ∧ k.hlc.punch.hold = none ∧ k.hlc.punch.work = some (request1 (.punch true), ph) ∧
      k.hlc.punch.again = true ∧ k.hlc.punch.pollDue = true ∧ k.hlc.loader.work = none ∧ k.hlc.loader.queue = [] ∧
      k.hlc.processor.work = none ∧ k.hlc.sorter.work = none ∧ k.hlc.processor.queue = [] ∧ k.hlc.sorter.queue = [] := by decide
theorem meets_HandlerExchanges_answers : ∀ u ∈ [HUnit.loader, .punch, .processor, .sorter], ∀ poll ∈ [true, false],
    let k := working1 u .unload (if poll then .taken else .sent) (some ⟨u, poll⟩) 2
    k.working = true ∧ k.hlc.line = some ⟨u, poll⟩ ∧ (k.hlc.unit u).work = some (request1 .unload, if poll then .taken else .sent) ∧
      (AnswerFrame.mk (unitAddr u) true).intact = true ∧ (AnswerFrame.mk (unitAddr u) true).addr = unitAddr u ∧
      (k.hlc.unit u).busy + 1 < (k.unitSettings u).busyLimit ∧ 2 ≤ (k.hlc.unit u).silent ∧ (k.hlc.unit u).hold = none ∧
      ¬((ReqTag.mk (some 3) 1 6).slot = (request1 .unload).slot ∧ 6 = (request1 .unload).seq) := by decide
theorem meets_HandlerExchanges_timers : (working1 .sorter (.route 4) .busyWait none 0).working = true ∧
    (working1 .sorter (.route 4) .taken none 0).hlc.sorter.pollTimer.isSome = true ∧
    (working1 .sorter (.route 4) .taken none 1).hlc.sorter.silent < 2 ∧ Chip.reset.working = false ∧
    ¬(Chip.reset.pd.runState = .starting ∧ Chip.reset.pd.phase = .clears) := by decide

/-- The third silence in a row: of a unit that is HELD already, of the loader with a request that was not taken, and in STARTING. -/
theorem meets_HandlerExchanges_offline : ∀ x ∈ [(HUnit.punch, RequestKind.punch true, ReqPhase.taken), (.loader, .unload, .sent), (.loader, .load 3, .sent)],
    ∀ h ∈ [none, some HoldCause.failure],
    let k0 := working1 x.1 x.2.1 x.2.2 (some ⟨x.1, decide (x.2.2 = .taken)⟩) 2
    let k := k0.setUnit x.1 { k0.hlc.unit x.1 with hold := h }
    let l := { k with imc := { k.imc with state := .loading, load := some ⟨2, some ref1⟩ } }
    k.working = true ∧ k.hlc.line = some ⟨x.1, decide (x.2.2 = .taken)⟩ ∧ 2 ≤ (k.hlc.unit x.1).silent ∧
      (k.hlc.unit x.1).work = some (request1 x.2.1, x.2.2) ∧ (k.hlc.unit x.1).hold = h ∧ (request1 x.2.1).kind ≠ .clear ∧
      l.imc.load = some ⟨2, some ref1⟩ ∧ k.dmr.record.valid = false ∧ (x.1 = .loader → x.2.2 ≠ .taken) := by decide
theorem meets_HandlerExchanges_starting : let k0 := working1 .sorter .clear .sent (some ⟨.sorter, false⟩) 2
    let k := { k0 with pd := (starting .clears).pd }
    k.pd.runState = .starting ∧ k.pd.phase = .clears ∧ k.hlc.line = some ⟨.sorter, false⟩ ∧ 2 ≤ (k.hlc.unit .sorter).silent := by decide

theorem meets_HandlerOutcomes_policy :
    let k := working1 .punch (.punch true) .taken (some ⟨.punch, true⟩) 0
    k.working = true ∧ k.hlc.punch.work = some (request1 (.punch true), .taken) ∧ k.hlc.punch.completion.isSome = true ∧
      (k.unitSettings .punch).policy ≠ .assumeDone ∧ (k.unitSettings .processor).policy = .assumeDone ∧
      (request1 (.process true)).kind ≠ .clear ∧ (held (plate .finishing) k).plate 3 = some (plate .finishing) ∧
      ((held (plate .finishing) k).marks 3).marks.length < 8 := by decide
theorem meets_HandlerOutcomes_busy :
    let k := working1 .punch (.punch true) .sent (some ⟨.punch, false⟩) 0
    let x := { k.hlc.punch with busy := 2 }
    k.working = true ∧ x.work = some (request1 (.punch true), .sent) ∧ (k.unitSettings .punch).busyLimit ≤ x.busy + 1 := by decide
theorem meets_HandlerOutcomes_clear : ∀ n ∈ [0, 3], (request1 .clear).kind = .clear ∧
    ({ (starting .clears).hlc with cleared := n } : HandlerLine).cleared = n ∧ RequestEnd.timedOut ≠ .done := by decide
theorem meets_HandlerOutcomes_stages : ∀ g ∈ [Stage.punch, .process, .route],
    let a : Carrier := ⟨some 2, 1, false, if g = .punch then .process else .punch, 4⟩
    let c : Carrier := ⟨some 3, 1, false, g, 4⟩
    let k := { held (plate .finishing) run with hlc := { run.hlc with carriers := [a, c] } }
    (request1 (.punch true)).kind ≠ .clear ∧ k.hlc.carriers = [a] ++ c :: [] ∧ (∀ x ∈ [a], x.stage ≠ g) ∧ c.stage = g ∧
      c.slot = some 3 ∧ c.spoiled = false ∧ (k.plate 3).isSome = true ∧ (k.marks 3).marks.length < 8 ∧
      (k.hlc.unit .processor).hold = none ∧ k.dmr.record.valid = false := by decide
/-- The codes that put a request back, and the unit that takes it. -/
theorem meets_HandlerOutcomes_back : run.hlc.punch.hold = none ∧ run.hlc.sorter.hold = none ∧ FaultCode.other 9 ≠ .misreg ∧
    FaultCode.binFull ≠ .misreg ∧ FaultCode.other 9 ≠ .binFull ∧ HUnit.processor ≠ .loader ∧ run.dmr.record.valid = false := by decide
theorem meets_HandlerOutcomes_load : ∀ p ∈ [none, some ref1],
    let k := { run with imc := { run.imc with state := .loading, load := some ⟨2, p⟩ } }
    (request1 (.load 3)).kind = .load 3 ∧ k.imc.load = some ⟨2, p⟩ ∧ k.imc.state = .loading ∧ k.imc.pauses = ⟨false, false, false, false⟩ ∧
      k.imc.waiting = none ∧ k.hlc.loader.hold = none ∧ RequestEnd.busyLimit ≠ .done ∧ RequestEnd.busyLimit ≠ .refused .empty := by decide
theorem meets_HandlerOutcomes_unload : (request1 .unload).kind = .unload ∧
    (drummed .exposed (some ref1) .unloading true run).imc.drum = some ⟨2, some ref1, .exposed, false⟩ ∧ run.hlc.loader.hold = none := by decide

end Sys2Proof.Tests
end

