-- ==== Sys2Proof/Proofs/Steps.lean ====
section
/-! SUPPORT. What one command does to the whole machine: the queue, the store, and the chip (O1, O2, O29). -/

namespace Sys2Proof.Machine

/-- What a command on the chip alone answers. -/
theorem onChip_next {f : Chip → Chip} {s t : State} (h : onChip f s = .next t) : t = s.setChip (f s.chip) :=
  (Host.Outcome.next.inj h).symm

/-- Every command but four acts on the chip alone. -/
theorem exec_onChip (c : Instr) (s : State) (hp : c ≠ .powerOnReset) (ha : ∀ op, c ≠ .hostAccess op) (hg : c ≠ .transferGrant)
    (hf : c ≠ .fenceMapFetchComplete) : ∃ k, exec c s = .next (s.setChip k) := by
  cases c
  case powerOnReset => exact absurd rfl hp
  case hostAccess op => exact absurd rfl (ha op)
  case transferGrant => exact absurd rfl hg
  case fenceMapFetchComplete => exact absurd rfl hf
  all_goals exact ⟨_, rfl⟩

/-- The three outcomes of a host access (log 22). -/
theorem exec_hostAccess_cases (op : HostOp) (s : State) :
    exec (.hostAccess op) s = .next s ∨ exec (.hostAccess op) s = .next (s.setChip (issueAll (hostTransfers op) s.chip)) ∨
      (s.chip.regs.linkUp = true ∧ pastStore op = true ∧ exec (.hostAccess op) s = .fault .noSuchAddress) := by
  cases hl : s.chip.regs.linkUp <;> cases hp : pastStore op <;> simp [exec, execHostAccess, hl, hp]

/-- A step is nothing, or a command run with the rest of the queue. -/
theorem step_cases {s t : State} (h : step s = .next t) :
    t = s ∨ ∃ c rest, s.pending = c :: rest ∧ exec c (s.setPending rest) = .next t := by
  unfold step at h
  split at h
  · exact .inl (Host.Outcome.next.inj h).symm
  · rename_i c rest hq
    exact .inr ⟨c, rest, hq, h⟩

/-- What every command keeps of the chip, every step keeps. -/
theorem step_keeps {P : Chip → Prop} (hP : ∀ (c : Instr) (s t : State), P s.chip → exec c s = .next t → P t.chip) {s t : State}
    (hs : P s.chip) (h : step s = .next t) : P t.chip := by
  rcases step_cases h with rfl | ⟨c, rest, -, hc⟩
  · exact hs
  · exact hP c (s.setPending rest) t hs hc

/-- A grant leaves the store, or performs one transfer in it. -/
theorem grant_store (s : State) : (grant s).store = s.store ∨ ∃ x k, (grant s).store = grantStore x s.store k := by
  unfold grant
  split
  · exact .inl rfl
  · exact .inr ⟨_, _, rfl⟩

/-- The end of a fence map fetch leaves the store, or performs the waiting transfer in it. -/
theorem fetchComplete_store (s : State) :
    (fetchComplete s).store = s.store ∨ ∃ x, (fetchComplete s).store = serveStore x s.store := by
  unfold fetchComplete
  split
  · exact .inl rfl
  · dsimp only
    split
    · exact .inl rfl
    · exact .inr ⟨_, rfl⟩

theorem grant_pending (s : State) : (grant s).pending = s.pending := by
  unfold grant
  split <;> rfl

theorem fetchComplete_pending (s : State) : (fetchComplete s).pending = s.pending := by
  unfold fetchComplete
  split
  · rfl
  · dsimp only
    split <;> rfl

/-- Only POWER_ON_RESET, TRANSFER_GRANT and FENCE_MAP_FETCH_COMPLETE change the store. -/
theorem exec_store {c : Instr} {s t : State} (h : exec c s = .next t) (hp : c ≠ .powerOnReset) (hg : c ≠ .transferGrant)
    (hf : c ≠ .fenceMapFetchComplete) : t.store = s.store := by
  by_cases ha : ∃ op, c = .hostAccess op
  · obtain ⟨op, rfl⟩ := ha
    rcases exec_hostAccess_cases op s with e | e | ⟨-, -, e⟩ <;> rw [e] at h <;> cases h <;> rfl
  · obtain ⟨k, e⟩ := exec_onChip c s hp (fun op e => ha ⟨op, e⟩) hg hf
    rw [e] at h
    cases h
    rfl

/-- Every command keeps the store's canonical form. -/
theorem exec_store_wf {c : Instr} {s t : State} (hw : Memory.wf s.store = true) (h : exec c s = .next t) :
    Memory.wf t.store = true := by
  by_cases hp : c = .powerOnReset
  · subst hp; cases h; exact Memory.ofCells_wf _
  by_cases hg : c = .transferGrant
  · subst hg; cases h
    rcases grant_store s with e | ⟨x, k, e⟩ <;> rw [e]
    exacts [hw, grantStore_wf x _ k hw]
  by_cases hf : c = .fenceMapFetchComplete
  · subst hf; cases h
    rcases fetchComplete_store s with e | ⟨x, e⟩ <;> rw [e]
    exacts [hw, serveStore_wf x _ hw]
  · rw [exec_store h hp hg hf]; exact hw

/-- Settles O1. -/
theorem stepRunsFront : Obligations.StepRunsFront :=
  ⟨fun c rest s h => by simp [step, h], fun s h => by simp [step, h]⟩

/-- Settles O2: a host access is the one command that can fault. -/
theorem execLeavesQueue : Obligations.ExecLeavesQueue := by
  intro c s
  by_cases ha : ∃ op, c = .hostAccess op
  · obtain ⟨op, rfl⟩ := ha
    rcases exec_hostAccess_cases op s with e | e | ⟨hl, hp, e⟩
    · exact .inl ⟨_, e, rfl⟩
    · exact .inl ⟨_, e, rfl⟩
    · exact .inr ⟨op, rfl, hl, hp, e⟩
  left
  by_cases hp : c = .powerOnReset
  · subst hp; exact ⟨_, rfl, rfl⟩
  by_cases hg : c = .transferGrant
  · subst hg; exact ⟨_, rfl, grant_pending s⟩
  by_cases hf : c = .fenceMapFetchComplete
  · subst hf; exact ⟨_, rfl, fetchComplete_pending s⟩
  · obtain ⟨k, e⟩ := exec_onChip c s hp (fun op e => ha ⟨op, e⟩) hg hf
    exact ⟨_, e, rfl⟩

/-- Settles O29: a write keeps the canonical form, and only three commands write the store. -/
theorem storeStaysCanonical : Obligations.StoreStaysCanonical := by
  intro s t hw h
  rcases step_cases h with rfl | ⟨c, rest, -, hc⟩
  · exact hw
  · exact exec_store_wf (s := s.setPending rest) hw hc

end Sys2Proof.Machine
end

