-- ==== Sys2Proof/Proofs/Control.lean ====
section
/-! SUPPORT. What one command does to the control state: the run state, the post queue, the layout record, the host's settings and the
HOST client (O30, O33, O38). -/

namespace Sys2Proof

/-- The commands by which the blocks go on with their own work. -/
def Instr.isWork : Instr → Prop
  | .parseBegin | .parseEnd | .dropApply | .pageReport | .selection | .exposingEntryReport | .exposureEndReport | .renderFinished
  | .carrierCreated | .carrierRemoved | .dispositionSend | .dispositionApply | .fillBegin | .renderReflectionPoint
  | .reflectionPointEnd | .fillEnd | .reloadBegin | .reloadEnd | .encoderTransition _ | .index _ | .headChannelFault _
  | .headAllClear | .unloadIssue | .unloadEnd | .exchangeStart | .requestAnswer _ _ | .pollAnswer _ _ | .answerWindowExpiry
  | .busyRetryExpiry _ | .pollTimerExpiry _ | .completionTimeout _ => True
  | _ => False

/-- The commands that change a setting of the host or take up a layout record, and the resets. -/
def Instr.setsHost : Instr → Prop
  | .powerOnReset | .engineReset _ | .hotReset | .runSet _ | .runClear _ | .exposeEnableSet _ | .exposeEnableClear _
  | .alertEnWrite _ | .plantClockWrite _ | .plantClockTick | .linkRetrain | .msiEnableChange _ | .layoutReadComplete _ => True
  | _ => False

/-- The commands of no other kind: the host's accesses, POST, and the Store Port's own. -/
def Instr.isOther : Instr → Prop
  | .alertWrite _ | .registerWriteIgnored _ _ _ | .post _ | .hostAccess _ | .transferGrant | .transferComplete _
  | .fenceMapFetchComplete => True
  | _ => False

/-- Every command is of one of four kinds. -/
theorem Instr.kinds (c : Instr) : c.setsHost ∨ c.isWork ∨ c.isDispatch ∨ c.isOther := by
  cases c
  all_goals first | exact .inl trivial | exact .inr (.inl trivial) | exact .inr (.inr (.inl trivial)) | exact .inr (.inr (.inr trivial))

end Sys2Proof

namespace Sys2Proof.Machine

/-! ### Transfers issued -/

/-- Issued transfers change the Store Port alone. -/
theorem issueAll_setSp (ts : List Transfer) (k : Chip) : ∃ p, issueAll ts k = k.setSp p := by
  induction ts generalizing k with
  | nil => exact ⟨k.sp, rfl⟩
  | cons t ts ih =>
    obtain ⟨p, h⟩ := ih (issue t k)
    exact ⟨p, h⟩

@[simp] theorem issueAll_pd (ts : List Transfer) (k : Chip) : (issueAll ts k).pd = k.pd := by
  obtain ⟨p, h⟩ := issueAll_setSp ts k
  rw [h]; rfl

@[simp] theorem issueAll_regs (ts : List Transfer) (k : Chip) : (issueAll ts k).regs = k.regs := by
  obtain ⟨p, h⟩ := issueAll_setSp ts k
  rw [h]; rfl

/-- Transfers of the HOST client, issued in order, join its queue and change nothing else. -/
theorem issueAll_host (ts : List Transfer) (h : ∀ t ∈ ts, t.client = .host) (k : Chip) :
    issueAll ts k = { k with sp := { k.sp with host := k.sp.host ++ ts } } := by
  induction ts generalizing k with
  | nil => simp [issueAll]
  | cons t ts ih =>
    have ht : t.client = .host := h t (by simp)
    rw [show issueAll (t :: ts) k = issueAll ts (issue t k) from rfl, ih (fun x hx => h x (by simp [hx]))]
    simp [issue, ht, StorePort.setWaiting, StorePort.waiting, Chip.setSp]

/-- The transfers of a host access belong to no stream, and nobody but the host is told of them. -/
theorem hostTransfers_ofHost (op : HostOp) : ∀ t ∈ hostTransfers op, t.client = .host ∧ t.ofHost := by
  intro t ht
  cases op <;> obtain ⟨p, -, rfl⟩ := List.mem_map.1 ht <;> exact ⟨rfl, rfl, rfl, rfl⟩

/-- The writes of step (5) of STARTING go through IU-write and REPORT-write. -/
theorem startWrites_client (r : LayoutRecord) (f : FaultRecord) : ∀ t ∈ startWrites r f, t.client ≠ .host := by
  intro t ht
  obtain ⟨x, hx, rfl⟩ := List.mem_map.1 ht
  simp only [List.mem_append, List.mem_cons, List.not_mem_nil, or_false, List.mem_map] at hx
  rcases hx with (rfl | ⟨i, -, rfl⟩) | rfl | rfl | rfl <;> simp [startWrite, iuWrite, reportWrite]

/-- What taking up a layout record leaves of the dispatcher and the registers. -/
theorem takeUpLayout_host (r : LayoutRecord) (k : Chip) :
    (takeUpLayout r k).pd.runState = k.pd.runState ∧ (takeUpLayout r k).pd.postQueue = k.pd.postQueue ∧
      (takeUpLayout r k).regs.plain = k.regs.plain := by
  simp only [takeUpLayout, issueAll_pd, issueAll_regs]
  exact ⟨rfl, rfl, rfl⟩

/-! ### The parts of the control state -/

theorem Chip.ctl_eq_iff {k t : Chip} : t.ctl = k.ctl ↔
    (t.pd.runState = k.pd.runState ∧ t.pd.postQueue = k.pd.postQueue ∧ t.pd.layout = k.pd.layout) ∧
      t.regs.plain = k.regs.plain ∧ t.sp.core = k.sp.core ∧ t.sp.sorted = k.sp.sorted := by
  simp only [Chip.ctl, Prod.mk.injEq]

theorem Registers.plain_eq_iff {r q : Registers} : q.plain = r.plain ↔
    q.run = r.run ∧ q.exposeEnable = r.exposeEnable ∧ q.plantClock = r.plantClock ∧ q.alertEn = r.alertEn ∧
      q.linkUp = r.linkUp ∧ q.msiEnabled = r.msiEnabled := by
  simp only [Registers.plain, Prod.mk.injEq]

/-- From `k` to `t` the control state has stayed; or the run state alone has become RUNNING or STOPPED; or a START check has failed. -/
def Chip.runs (k t : Chip) : Prop :=
  t.ctl = k.ctl ∨ (∃ r, (r = .running ∨ r = .stopped) ∧ t.ctl = (k.setRun r).ctl) ∨
    ∃ check unit j, check ≠ 0 ∧ j.ctl = k.ctl ∧ t = startFailed check unit j

theorem Chip.runs_of_ctl {k t : Chip} (h : t.ctl = k.ctl) : k.runs t := .inl h

theorem Chip.runs_of_stops {k t : Chip} (h : k.stops t) : k.runs t := by
  rcases h with h | ⟨-, h⟩
  · exact .inl h
  · exact .inr (.inl ⟨_, .inr rfl, h⟩)

/-- What came before without touching the control state does not matter. -/
theorem Chip.runs_of_ctl_runs {k j t : Chip} (h : j.ctl = k.ctl) (g : j.runs t) : k.runs t := by
  rcases g with g | ⟨r, hr, g⟩ | ⟨c, u, i, hc, hi, rfl⟩
  · exact .inl (g.trans h)
  · exact .inr (.inl ⟨r, hr, g.trans (Chip.setRun_ctl_of_ctl r h)⟩)
  · exact .inr (.inr ⟨c, u, i, hc, hi.trans h, rfl⟩)

theorem startSucceeded_ctl (k : Chip) :
    (startSucceeded k).ctl = (k.setRun (if k.regs.run = true then .running else .stopped)).ctl := rfl

theorem startSucceeded_runs (k : Chip) : k.runs (startSucceeded k) := by
  refine .inr (.inl ⟨_, ?_, startSucceeded_ctl k⟩)
  split
  · exact .inl rfl
  · exact .inr rfl

theorem startFailed_runs (check unit : Nat) (k : Chip) (h : check ≠ 0) : k.runs (startFailed check unit k) :=
  .inr (.inr ⟨check, unit, k, h, rfl, rfl⟩)

/-! ### The handler line -/

@[simp] theorem loaderEnds_ctl (r : Request) (e : RequestEnd) (k : Chip) : (loaderEnds r e k).ctl = k.ctl := by
  unfold loaderEnds
  split <;> simp only [unloadDone_ctl, unloadFailed_ctl, loadEnd_ctl, holdUnit_ctl]

theorem clearEnds_runs (u : HUnit) (e : RequestEnd) (k : Chip) : k.runs (clearEnds u e k) := by
  unfold clearEnds
  split
  · dsimp only
    split
    · exact Chip.runs_of_ctl_runs (Chip.setHlc_ctl _ _) (startSucceeded_runs _)
    · exact .inl (Chip.setHlc_ctl _ _)
  · exact startFailed_runs _ _ _ (by decide)

theorem endRequest_runs (u : HUnit) (r : Request) (e : RequestEnd) (k : Chip) : k.runs (endRequest u r e k) := by
  refine Chip.runs_of_ctl_runs (Chip.setUnit_ctl k u (k.hlc.unit u).workEnds) ?_
  unfold endRequest
  dsimp only
  split
  · exact clearEnds_runs _ _ _
  · refine .inl ?_
    cases u
    · exact loaderEnds_ctl _ _ _
    · exact punchEnds_ctl _ _ _
    · exact processorEnds_ctl _ _ _
    · exact sorterEnds_ctl _ _ _

theorem answerRequest_runs (u : HUnit) (r : Request) (a : RequestAnswer) (k : Chip) : k.runs (answerRequest u r a k) := by
  unfold answerRequest
  cases a
  case taken => exact .inl (Chip.setUnit_ctl _ _ _)
  case busy =>
    dsimp only
    split
    · exact .inl (Chip.setUnit_ctl _ _ _)
    · exact Chip.runs_of_ctl_runs (Chip.setUnit_ctl _ _ _) (endRequest_runs _ _ _ _)
  case refused why => exact Chip.runs_of_ctl_runs (Chip.setUnit_ctl _ _ _) (endRequest_runs _ _ _ _)

theorem requestAnswered_runs (f : AnswerFrame) (a : RequestAnswer) (k : Chip) : k.runs (requestAnswered f a k) := by
  unfold requestAnswered
  split
  · exact .inl rfl
  · split
    · exact .inl rfl
    · refine Chip.runs_of_ctl_runs (freeLine_ctl k) ?_
      dsimp only
      repeat' split
      all_goals first | exact answerRequest_runs _ _ _ _ | exact .inl rfl

theorem answerPoll_runs (u : HUnit) (a : PollAnswer) (k : Chip) : k.runs (answerPoll u a k) := by
  unfold answerPoll
  repeat' split
  all_goals first | exact endRequest_runs _ _ _ _ | exact .inl rfl

theorem pollAnswered_runs (f : AnswerFrame) (a : PollAnswer) (k : Chip) : k.runs (pollAnswered f a k) := by
  unfold pollAnswered
  split
  · exact .inl rfl
  · split
    · exact .inl rfl
    · dsimp only
      split
      · exact Chip.runs_of_ctl_runs (by simp) (answerPoll_runs _ _ _)
      · exact .inl (freeLine_ctl k)

theorem offlineWork_runs (u : HUnit) (k : Chip) : k.runs (offlineWork u k) := by
  unfold offlineWork
  repeat' split
  all_goals first | exact endRequest_runs _ _ _ _ | exact .inl (by simp)

theorem goOffline_runs (u : HUnit) (k : Chip) : k.runs (goOffline u k) := by
  unfold goOffline
  split
  · exact startFailed_runs _ _ _ (by decide)
  · exact Chip.runs_of_ctl_runs (holdOffline_ctl u k) (offlineWork_runs _ _)

theorem windowExpires_runs (k : Chip) : k.runs (windowExpires k) := by
  unfold windowExpires
  split
  · exact .inl rfl
  · dsimp only
    split
    · split
      · refine .inl ?_
        split <;> simp only [Chip.setUnit_ctl, restartPoll_ctl, freeLine_ctl]
      · exact Chip.runs_of_ctl_runs (by simp) (goOffline_runs _ _)
    · exact .inl (freeLine_ctl k)

theorem completionExpires_runs (u : HUnit) (k : Chip) : k.runs (completionExpires u k) := by
  unfold completionExpires
  dsimp only
  split
  · split
    · split
      · exact Chip.runs_of_ctl_runs (timeoutMark_ctl _ _ _) (endRequest_runs _ _ _ _)
      · exact endRequest_runs _ _ _ _
    · exact .inl rfl
    · exact .inl rfl
    · exact .inl rfl
  · exact .inl rfl

/-! ### The inputs of PSC -/

theorem takePageReport_stops (k : Chip) : k.stops (takePageReport k) := by
  unfold takePageReport
  split
  · exact Chip.stops_trans (.inl (popInbox_ctl k)) (pscTake_stops _ _ (planPageReport_ctl _ _))
  · exact .inl rfl

theorem selection_stops (k : Chip) : k.stops (selection k) := by
  unfold selection
  repeat' split
  all_goals first | exact pscTake_stops _ _ (by simp) | exact .inl rfl

theorem takeExposingEntry_stops (k : Chip) : k.stops (takeExposingEntry k) := by
  unfold takeExposingEntry
  split
  · exact Chip.stops_trans (.inl (popInbox_ctl k)) (pscTake_stops _ _ (applyExposingEntry_ctl _ _ _ _))
  · exact .inl rfl

theorem takeExposureEnd_stops (k : Chip) : k.stops (takeExposureEnd k) := by
  unfold takeExposureEnd
  split
  · refine Chip.stops_trans (.inl (popInbox_ctl k)) (pscTake_stops _ _ ?_)
    dsimp only
    split <;> simp only [applyExposureEnd_ctl, newsOf_ctl]
  · exact .inl rfl

theorem takeRenderFinished_stops (k : Chip) : k.stops (takeRenderFinished k) := by
  unfold takeRenderFinished
  split
  · exact Chip.stops_trans (.inl (popInbox_ctl k)) (pscTake_stops _ _ (applyRenderFinished_ctl _ _ _ _))
  · exact .inl rfl

theorem takeCarrierCreated_stops (k : Chip) : k.stops (takeCarrierCreated k) := by
  unfold takeCarrierCreated
  split
  · rename_i slot attempt spoiled _
    exact Chip.stops_trans (.inl (popInbox_ctl k))
      (Chip.stops_trans (pscTake_stops _ _ (applyCarrierCreated_ctl slot attempt spoiled _)) (.inl (carrierTaken_ctl _)))
  · exact .inl (by simp)
  · exact .inl rfl

theorem takeCarrierRemoved_stops (k : Chip) : k.stops (takeCarrierRemoved k) := by
  unfold takeCarrierRemoved
  split
  · exact Chip.stops_trans (.inl (popInbox_ctl k)) (pscTake_stops _ _ (applyCarrierRemoved_ctl _ _ _ _))
  · exact .inl (popInbox_ctl k)
  · exact .inl rfl

theorem takeDisposition_stops (k : Chip) : k.stops (takeDisposition k) := by
  unfold takeDisposition
  split
  · split
    · exact takeAnswer_stops _ _
    · exact .inl rfl
  · split
    · exact Chip.stops_trans (.inl (popInbox_ctl k)) (pscTake_stops _ _ (planDisposition_ctl _ _))
    · exact .inl rfl

/-- The work of the blocks keeps the control state, but for the passage to STOPPED and the two ends of STARTING. -/
theorem exec_runs {c : Instr} {s t : State} (hc : c.isWork) (h : exec c s = .next t) : s.chip.runs t.chip := by
  cases c
  case parseBegin => cases h; exact .inl (parseBegin_ctl _)
  case parseEnd => cases h; exact .inl (parseEnd_ctl _)
  case dropApply => cases h; exact .inl (dropApply_ctl _)
  case pageReport => cases h; exact Chip.runs_of_stops (takePageReport_stops _)
  case selection => cases h; exact Chip.runs_of_stops (selection_stops _)
  case exposingEntryReport => cases h; exact Chip.runs_of_stops (takeExposingEntry_stops _)
  case exposureEndReport => cases h; exact Chip.runs_of_stops (takeExposureEnd_stops _)
  case renderFinished => cases h; exact Chip.runs_of_stops (takeRenderFinished_stops _)
  case carrierCreated => cases h; exact Chip.runs_of_stops (takeCarrierCreated_stops _)
  case carrierRemoved => cases h; exact Chip.runs_of_stops (takeCarrierRemoved_stops _)
  case dispositionSend => cases h; exact .inl (sendDisposition_ctl _)
  case dispositionApply => cases h; exact Chip.runs_of_stops (takeDisposition_stops _)
  case fillBegin => cases h; exact .inl (fillBegin_ctl _ _)
  case renderReflectionPoint => cases h; exact .inl (reachPoint_ctl _)
  case reflectionPointEnd => cases h; exact .inl (pointEnd_ctl _ _)
  case fillEnd => cases h; exact .inl (fillEnd_ctl _)
  case reloadBegin => cases h; exact .inl (reloadBegin_ctl _)
  case reloadEnd => cases h; exact .inl (reloadEnd_ctl _)
  case encoderTransition e => cases h; exact .inl (encoderEdge_ctl _ _)
  case index n => cases h; exact .inl (indexPulse_ctl _ _)
  case headChannelFault ch => cases h; exact .inl (channelFault_ctl _ _)
  case headAllClear => cases h; exact .inl (headClear_ctl _)
  case unloadIssue => cases h; exact .inl (issueUnload_ctl _)
  case unloadEnd => cases h; exact .inl (takeUnloadEnd_ctl _)
  case exchangeStart => cases h; exact .inl (exchangeStart_ctl _)
  case requestAnswer f a => cases h; exact requestAnswered_runs _ _ _
  case pollAnswer f a => cases h; exact pollAnswered_runs _ _ _
  case answerWindowExpiry => cases h; exact windowExpires_runs _
  case busyRetryExpiry u => cases h; exact .inl (busyRetryExpires_ctl _ _)
  case pollTimerExpiry u => cases h; exact .inl (pollTimerExpires_ctl _ _)
  case completionTimeout u => cases h; exact completionExpires_runs _ _
  all_goals exact hc.elim

/-! ### Post words -/

/-- A command that takes the head word leaves the control state, but for the word removed and RUNNING's end in STOPPED; of the fence
cache and the waiting check FENCE_FLUSH takes nothing but the cached words. -/
theorem exec_dispatch {c : Instr} {s t : State} (hc : c.isDispatch) (h : exec c s = .next t) :
    t.chip = s.chip ∨ (popPost s.chip).stops t.chip ∨ t.chip = fenceFlush (popPost s.chip) := by
  cases c
  case postBadWord =>
    cases h; simp only [State.setChip_chip, dropBadWord]
    split
    · exact .inr (.inl (.inl (raise_ctl _ _)))
    · exact .inl rfl
    · exact .inl rfl
  case fragment =>
    cases h; simp only [State.setChip_chip, dispatchFragment]
    split
    · split
      · exact .inr (.inl (.inl (takeFragment_ctl _ _)))
      · exact .inl rfl
    · exact .inl rfl
  case order =>
    cases h; simp only [State.setChip_chip, dispatchOrder]
    split
    · split
      · exact .inr (.inl (.inl (takeOrder_ctl _ _)))
      · exact .inl rfl
    · exact .inl rfl
  case breakPlate =>
    cases h; simp only [State.setChip_chip, dispatchBreak]
    split
    · split
      · refine .inr (.inl ?_)
        unfold takeBreak
        split
        · exact pscTake_stops _ _ (breakPlateOf_ctl _ _ _ _)
        · exact .inl (raise_ctl _ _)
      · exact .inl rfl
    · exact .inl rfl
  case release =>
    cases h; simp only [State.setChip_chip, dispatchRelease]
    split
    · split
      · exact .inr (.inl (.inl (takeRelease_ctl _ _)))
      · exact .inl rfl
    · exact .inl rfl
  case seen =>
    cases h; simp only [State.setChip_chip, dispatchSeen]
    split
    · split
      · exact .inr (.inl (.inl (takeSeen_ctl _ _)))
      · exact .inl rfl
    · exact .inl rfl
  case drop =>
    cases h; simp only [State.setChip_chip, dispatchDrop]
    split
    · split
      · exact .inr (.inl (.inl (takeDrop_ctl _ _)))
      · exact .inl rfl
    · exact .inl rfl
  case table =>
    cases h; simp only [State.setChip_chip, dispatchTable]
    split
    · exact .inr (.inl (.inl (takeTable_ctl _ _)))
    · exact .inl rfl
  case resume =>
    cases h; simp only [State.setChip_chip, dispatchResume]
    split
    · exact .inr (.inl (.inl (applyResume_ctl _)))
    · exact .inl rfl
  case fenceFlush =>
    cases h; simp only [State.setChip_chip, dispatchFlush]
    split
    · exact .inr (.inr rfl)
    · exact .inl rfl
  all_goals exact hc.elim

/-! ### CONTROL -/

/-- What a write of EXPOSE_ENABLE leaves of the control state: all but that bit. -/
theorem writeExposeEnable_ctl (en : Bool) (k : Chip) :
    (writeExposeEnable en k).ctl = (k.setRegs { k.regs with exposeEnable := en }).ctl := by
  unfold writeExposeEnable
  dsimp only
  split
  · exact interlockFall_ctl _
  · rfl

/-- What a write of RUN comes to (R14 (2)). -/
theorem writeRun_cases (run : Bool) (k : Chip) :
    let j := k.setRegs { k.regs with run := run }
    writeRun run k = j ∨ (k.pd.runState = .off ∧ writeRun run k = enterStarting j) ∨
      ((k.pd.runState = .stopping ∨ k.pd.runState = .stopped) ∧ writeRun run k = j.setRun .running) ∨
      (k.pd.runState = .running ∧ writeRun run k = enterStopping j) := by
  unfold writeRun
  dsimp only
  split
  · cases h : k.pd.runState <;> simp
  · split
    · cases h : k.pd.runState <;> simp
    · exact .inl rfl

/-- The entry into STOPPING leaves the control state, but for STOPPING or STOPPED. -/
theorem enterStopping_stops (k : Chip) : (k.setRun .stopping).stops (enterStopping k) := by
  unfold enterStopping
  dsimp only
  split
  · exact pscHear_stops _ _
  · exact checkStopped_stops _

/-- What a write of CONTROL that does not reset leaves of the control state: RUN and EXPOSE_ENABLE take their values, and the run
state goes as R14 says. -/
theorem controlWrite_cases (v : Word) (k : Chip) (hv : v.getLsbD 1 = false) :
    controlWrite v k = k ∨ ∃ j, j.ctl = (k.setRegs { k.regs with run := v.getLsbD 0, exposeEnable := v.getLsbD 2 }).ctl ∧
      (controlWrite v k = j ∨ (k.pd.runState = .off ∧ controlWrite v k = enterStarting j) ∨
        ((k.pd.runState = .stopping ∨ k.pd.runState = .stopped) ∧ controlWrite v k = j.setRun .running) ∨
        (k.pd.runState = .running ∧ (j.setRun .stopping).stops (controlWrite v k))) := by
  cases hl : k.regs.linkUp
  · exact .inl (by simp [controlWrite, hl])
  · refine .inr ⟨(writeExposeEnable (v.getLsbD 2) k).setRegs
      { (writeExposeEnable (v.getLsbD 2) k).regs with run := v.getLsbD 0 }, ?_, ?_⟩
    · have h := writeExposeEnable_ctl (v.getLsbD 2) k
      obtain ⟨h1, h2, h3, h4⟩ := Chip.ctl_eq_iff.1 h
      refine Chip.ctl_eq_iff.2 ⟨h1, ?_, h3, h4⟩
      simp only [Registers.plain_eq_iff, Chip.setRegs_regs] at h2 ⊢
      exact ⟨trivial, h2.2⟩
    · have hr : (writeExposeEnable (v.getLsbD 2) k).pd.runState = k.pd.runState :=
        Chip.runState_of_ctl (k := k.setRegs { k.regs with exposeEnable := v.getLsbD 2 }) (writeExposeEnable_ctl _ k)
      have he : controlWrite v k = writeRun (v.getLsbD 0) (writeExposeEnable (v.getLsbD 2) k) := by
        simp only [controlWrite, hl, hv, Bool.not_true, Bool.false_eq_true, if_false]
      have hw := writeRun_cases (v.getLsbD 0) (writeExposeEnable (v.getLsbD 2) k)
      simp only [hr, ← he] at hw
      rcases hw with h | h | h | ⟨hs, h⟩
      · exact .inl h
      · exact .inr (.inl h)
      · exact .inr (.inr (.inl h))
      · exact .inr (.inr (.inr ⟨hs, h ▸ enterStopping_stops _⟩))

/-! ### The other registers -/

/-- A new value of PLANT_CLOCK changes it alone of the control state, but for the passage to STOPPED. -/
theorem setClock_stops (v : Word) (k : Chip) : (k.setRegs { k.regs with plantClock := v }).stops (setClock v k) := by
  unfold setClock clockMarks
  split
  · exact pscHear_stops _ _
  · exact .inl rfl

/-! ### Completions -/

theorem deliverNotice_stops (n : Notice) (k : Chip) : k.stops (deliverNotice n k) := by
  cases n
  case alert c => exact .inl (raise_ctl c k)
  case page r => exact .inl (tellPsc_ctl _ k)
  case iuIdle => exact .inl (Chip.setIu_ctl k _)
  case pscDone => exact Chip.stops_trans (.inl (Chip.setPsc_ctl k _)) (pscGo_stops _)
  case startWrite => exact .inl (Chip.setPd_ctl k _ rfl rfl rfl)
  case markDone d => exact .inl (Chip.setDmr_ctl k _)

theorem deliverNotices_stops (ns : List Notice) (k : Chip) : k.stops (ns.foldl (fun a n => deliverNotice n a) k) := by
  induction ns generalizing k with
  | nil => exact .inl rfl
  | cons n ns ih => exact Chip.stops_trans (deliverNotice_stops n k) (ih _)

theorem deliverData_stops (t : Transfer) (data : List Byte) (k : Chip) : k.stops (deliverData t data k) := by
  unfold deliverData
  split
  · split
    · exact .inl rfl
    · exact .inl (Chip.setRegs_ctl k _ rfl)
  · exact .inl rfl
  · exact .inl (parseArrives_ctl _ _)
  · exact orderArrives_stops _ _ _
  · exact .inl (fillArrives_ctl _ _ _ _)
  · exact .inl (reloadArrives_ctl _ _)
  · exact .inl (rowSetArrives_ctl _ _ _ _)

/-- A completion takes one transfer off the served ones, and leaves the rest of the control state but for the passage to STOPPED. -/
theorem transferComplete_stops (c : Client) (k : Chip) :
    transferComplete c k = k ∨ ∃ x rest, takeServed c k.sp.served = some (x, rest) ∧
      (k.setSp { k.sp with served := rest }).stops (transferComplete c k) := by
  unfold transferComplete
  cases h : takeServed c k.sp.served with
  | none => exact .inl rfl
  | some r =>
    refine .inr ⟨r.1, r.2, rfl, ?_⟩
    dsimp only
    split
    · exact .inl rfl
    · exact Chip.stops_trans (deliverData_stops _ _ _) (deliverNotices_stops _ _)

theorem takeServed_rest {c : Client} {l rest : List Served} {x : Served} (h : takeServed c l = some (x, rest)) :
    ∀ y ∈ rest, y ∈ l := by
  induction l generalizing x rest with
  | nil => simp [takeServed] at h
  | cons a l ih =>
    rw [takeServed] at h
    split at h
    · cases h; intro y hy; exact List.mem_cons_of_mem _ hy
    · obtain ⟨⟨b, r⟩, hb, he⟩ := Option.map_eq_some_iff.1 h
      cases he
      intro y hy
      rcases List.mem_cons.1 hy with rfl | hy
      · exact List.mem_cons_self
      · exact List.mem_cons_of_mem _ (ih hb y hy)

theorem takeServed_mem {c : Client} {l rest : List Served} {x : Served} (h : takeServed c l = some (x, rest)) :
    x ∈ l ∧ x.xfer.client = c := by
  induction l generalizing x rest with
  | nil => simp [takeServed] at h
  | cons a l ih =>
    rw [takeServed] at h
    split at h
    · rename_i ha
      cases h; exact ⟨List.mem_cons_self, ha⟩
    · obtain ⟨⟨b, r⟩, hb, he⟩ := Option.map_eq_some_iff.1 h
      cases he
      exact ⟨List.mem_cons_of_mem _ (ih hb).1, (ih hb).2⟩

/-! ### Refusals -/

/-- A halt leaves the control state, but for HALTED. -/
theorem haltPart_ctl (cause : Nat) (o : FaultOffer) (k : Chip) : (haltPart cause o k).ctl = (k.setRun .halted).ctl := by
  obtain ⟨⟨h1, h2, h3⟩, h4, h5, h6⟩ := Chip.ctl_eq_iff.1 (takeOffer_ctl o k)
  unfold haltPart
  dsimp only
  split <;> exact Chip.ctl_eq_iff.2 ⟨⟨rfl, h2, h3⟩, h4, h5, h6⟩

@[simp] theorem hfRefused_ctl (pass j : Nat) (k : Chip) : (hfRefused pass j k).ctl = k.ctl := by
  unfold hfRefused
  dsimp only
  split <;> simp only [imcMark_ctl, rowSetArrives_ctl]

/-- A refusal leaves the control state, or halts the part. -/
theorem refuseTransfer_ctl (t : Transfer) (d : Nat) (k : Chip) :
    (refuseTransfer t d k).ctl = k.ctl ∨ (refuseTransfer t d k).ctl = (k.setRun .halted).ctl := by
  unfold refuseTransfer
  split
  · exact .inl rfl
  rename_i m _
  cases m <;> simp only [refuse]
  case iuWrite => exact .inr (haltPart_ctl _ _ _)
  case reportWrite => exact .inr (haltPart_ctl _ _ _)
  case iuRead => exact .inl (by simp)
  all_goals
    refine .inl ?_
    split <;> simp only [fillRefused_ctl, reloadRefused_ctl, hfRefused_ctl, offerFault_ctl]

/-! ### Grants -/

/-- A write of POST that is taken joins the post queue, which has room and whose run state takes it, or is lost. -/
theorem takePost_cases (w : Word) (k : Chip) :
    (k.working = true ∧ k.pd.postQueue.length < 64 ∧ takePost w k = k.setPd { k.pd with postQueue := k.pd.postQueue ++ [w] }) ∨
      ((k.working = false ∨ 64 ≤ k.pd.postQueue.length) ∧ takePost w k = raise .postLost k) := by
  unfold takePost
  split
  · rename_i h
    simp only [Bool.and_eq_true, decide_eq_true_eq] at h
    exact .inl ⟨h.1, h.2, rfl⟩
  · rename_i h
    simp only [Bool.and_eq_true, decide_eq_true_eq, not_and_or, Bool.not_eq_true, not_lt] at h
    exact .inr ⟨h, rfl⟩

/-- What a write of POST keeps, the writes that were waiting behind a host transfer keep too. -/
theorem hostServed_keeps {P : Chip → Prop} (hp : ∀ w k, P k → P (takePost w k))
    (hs : ∀ k l, P k → P (k.setSp { k.sp with posts := l })) (k : Chip) (h : P k) : P (hostServed k) := by
  unfold hostServed
  dsimp only
  generalize (fewerAhead k.sp.posts).filter (fun p => decide (p.1 = 0)) = l
  generalize hj : k.setSp { k.sp with posts := (fewerAhead k.sp.posts).filter (fun p => decide (p.1 ≠ 0)) } = j
  have h1 : P j := hj ▸ hs _ _ h
  clear hj
  induction l generalizing j with
  | nil => exact h1
  | cons a l ih => exact ih _ (hp _ _ h1)

/-- What a grant comes to on chip. -/
theorem grant_chip_cases (s : State) :
    (granted s.chip = none ∧ grant s = s) ∨ ∃ t c pos, granted s.chip = some (t, c, pos) ∧
      (grant s).chip = grantChip t s.store (dequeue c pos s.chip) := by
  unfold grant
  cases h : granted s.chip with
  | none => exact .inl ⟨rfl, rfl⟩
  | some r => exact .inr ⟨r.1, r.2.1, r.2.2, rfl, rfl⟩

/-- A granted transfer stands at the head of the chosen client's queue, while no check waits and no layout read is under way. -/
theorem granted_spec {k : Chip} {t : Transfer} {c : Client} {pos : Nat} (h : granted k = some (t, c, pos)) :
    k.sp.check = none ∧ k.pd.phase ≠ .layoutRead ∧ grantChoice k = some (c, pos) ∧ (k.sp.waiting c).head? = some t := by
  unfold granted at h
  split at h
  · simp at h
  · rename_i hc
    simp only [Bool.or_eq_true, decide_eq_true_eq, not_or, Bool.not_eq_true, Option.isSome_eq_false_iff, Option.isNone_iff_eq_none] at hc
    split at h
    · simp at h
    · rename_i d p hg
      obtain ⟨x, hx, he⟩ := Option.map_eq_some_iff.1 h
      cases he
      exact ⟨hc.1, hc.2, hg, hx⟩

end Sys2Proof.Machine
end

