-- ==== Sys2Proof/Proofs/PostQueue.lean ====
section
/-! SUPPORT. The post queue stays sound (O30). -/

namespace Sys2Proof.Machine

theorem Chip.postQueueSound_of_ctl {k t : Chip} (h : t.ctl = k.ctl) (hk : k.postQueueSound) : t.postQueueSound := by
  obtain ⟨⟨h1, h2, -⟩, -⟩ := Chip.ctl_eq_iff.1 h
  simpa only [Chip.postQueueSound, h1, h2] using hk

/-- A run state in which words may wait keeps the queue sound. -/
theorem Chip.postQueueSound_setRun {k : Chip} {r : RunState} (ho : r ≠ .off) (hs : r ≠ .starting) (hk : k.postQueueSound) :
    (k.setRun r).postQueueSound :=
  ⟨hk.1, fun h => absurd h (by simp [Chip.setRun, ho, hs])⟩

/-- An empty queue is sound. -/
theorem Chip.postQueueSound_of_empty {k : Chip} (h : k.pd.postQueue = []) : k.postQueueSound := by
  simp [Chip.postQueueSound, h]

theorem Chip.postQueueSound_of_stops {k t : Chip} (h : k.stops t) (hk : k.postQueueSound) : t.postQueueSound := by
  rcases h with h | ⟨-, h⟩
  · exact Chip.postQueueSound_of_ctl h hk
  · exact Chip.postQueueSound_of_ctl h (Chip.postQueueSound_setRun (by decide) (by decide) hk)

theorem startFailed_postQueue (check unit : Nat) (k : Chip) : (startFailed check unit k).pd = Dispatcher.reset := rfl

theorem Chip.postQueueSound_of_runs {k t : Chip} (h : k.runs t) (hk : k.postQueueSound) : t.postQueueSound := by
  rcases h with h | ⟨r, hr, h⟩ | ⟨check, unit, j, -, -, rfl⟩
  · exact Chip.postQueueSound_of_ctl h hk
  · refine Chip.postQueueSound_of_ctl h (Chip.postQueueSound_setRun ?_ ?_ hk) <;> rcases hr with rfl | rfl <;> decide
  · exact Chip.postQueueSound_of_empty rfl

theorem popPost_postQueueSound {k : Chip} (hk : k.postQueueSound) : (popPost k).postQueueSound := by
  refine ⟨?_, fun h => ?_⟩
  · simp only [popPost, Chip.setPd_pd, List.length_drop]
    exact Nat.le_trans (Nat.sub_le _ _) hk.1
  · simp only [popPost, Chip.setPd_pd] at h ⊢
    rw [hk.2 h]; rfl

theorem takePost_postQueueSound (w : Word) (k : Chip) (hk : k.postQueueSound) : (takePost w k).postQueueSound := by
  rcases takePost_cases w k with ⟨hw, hl, e⟩ | ⟨-, e⟩ <;> rw [e]
  · refine ⟨by simpa using hl, fun h => ?_⟩
    simp only [Chip.setPd_pd] at h
    rcases h with h | h <;> simp [Chip.working, h] at hw
  · exact hk

theorem grant_postQueueSound (s : State) (hk : s.chip.postQueueSound) : (grant s).chip.postQueueSound := by
  rcases grant_chip_cases s with ⟨-, e⟩ | ⟨t, c, pos, -, e⟩ <;> rw [e]
  · exact hk
  · have hd : (dequeue c pos s.chip).postQueueSound := hk
    unfold grantChip
    split
    · unfold serve
      split
      · exact hostServed_keeps takePost_postQueueSound (fun _ _ h => h) _ hd
      · exact hd
    · rename_i d _
      rcases refuseTransfer_ctl t d (dequeue c pos s.chip) with h | h
      · exact Chip.postQueueSound_of_ctl h hd
      · exact Chip.postQueueSound_of_ctl h (Chip.postQueueSound_setRun (by decide) (by decide) hd)
    · exact hd

theorem fetchComplete_postQueueSound (s : State) (hk : s.chip.postQueueSound) : (fetchComplete s).chip.postQueueSound := by
  unfold fetchComplete
  split
  · exact hk
  · rename_i c _
    dsimp only
    split
    · rcases refuseTransfer_ctl c.xfer c.domain
        (s.chip.setSp { s.chip.sp with check := none, cache := keepWord c s.chip.sp.cache }) with h | h
      · exact Chip.postQueueSound_of_ctl h hk
      · exact Chip.postQueueSound_of_ctl h (Chip.postQueueSound_setRun (by decide) (by decide) hk)
    · exact hk

theorem controlWrite_postQueueSound (v : Word) (k : Chip) (hk : k.postQueueSound) : (controlWrite v k).postQueueSound := by
  cases hv : v.getLsbD 1
  · rcases controlWrite_cases v k hv with e | ⟨j, hj, h⟩
    · rw [e]; exact hk
    have hs : j.postQueueSound := Chip.postQueueSound_of_ctl hj hk
    rcases h with e | ⟨ho, e⟩ | ⟨-, e⟩ | ⟨-, h⟩
    · rw [e]; exact hs
    · rw [e]
      refine Chip.postQueueSound_of_empty (k := enterStarting j) (hs.2 (.inl ?_))
      exact (Chip.runState_of_ctl hj).trans ho
    · rw [e]; exact Chip.postQueueSound_setRun (by decide) (by decide) hs
    · exact Chip.postQueueSound_of_stops h (Chip.postQueueSound_setRun (by decide) (by decide) hs)
  · unfold controlWrite
    split
    · exact hk
    · exact Chip.postQueueSound_of_empty (k := engineResetChip k) rfl

theorem exec_postQueueSound (c : Instr) (s t : State) (hk : s.chip.postQueueSound) (h : exec c s = .next t) :
    t.chip.postQueueSound := by
  by_cases hw : c.isWork
  · exact Chip.postQueueSound_of_runs (exec_runs hw h) hk
  by_cases hd : c.isDispatch
  · rcases exec_dispatch hd h with e | e | e
    · rw [e]; exact hk
    · exact Chip.postQueueSound_of_stops e (popPost_postQueueSound hk)
    · rw [e]; exact popPost_postQueueSound hk
  cases c
  case powerOnReset => cases h; exact Chip.postQueueSound_of_empty rfl
  case hotReset => cases h; exact Chip.postQueueSound_of_empty rfl
  case engineReset v => cases h; exact controlWrite_postQueueSound v _ hk
  case runSet v => cases h; exact controlWrite_postQueueSound v _ hk
  case runClear v => cases h; exact controlWrite_postQueueSound v _ hk
  case exposeEnableSet v => cases h; exact controlWrite_postQueueSound v _ hk
  case exposeEnableClear v => cases h; exact controlWrite_postQueueSound v _ hk
  case alertWrite v =>
    cases h
    simp only [State.setChip_chip, alertWrite]
    repeat' split
    · exact hk
    · simp only [Chip.postQueueSound, (acknowledgeFault_host _).1]; exact hk
    · exact hk
  case alertEnWrite v =>
    cases h
    simp only [State.setChip_chip, alertEnWrite]
    split <;> exact hk
  case plantClockWrite v =>
    cases h
    simp only [State.setChip_chip, clockWrite]
    split
    · exact hk
    · exact Chip.postQueueSound_of_stops (setClock_stops v _) hk
  case plantClockTick => cases h; exact Chip.postQueueSound_of_stops (setClock_stops _ _) hk
  case registerWriteIgnored => cases h; exact hk
  case post w =>
    cases h
    simp only [State.setChip_chip, postWrite]
    repeat' split
    · exact hk
    · exact takePost_postQueueSound w _ hk
    · exact hk
  case hostAccess op =>
    rcases exec_hostAccess_cases op s with e | e | ⟨-, -, e⟩ <;> rw [e] at h <;> cases h
    · exact hk
    · simpa only [Chip.postQueueSound, State.setChip_chip, issueAll_pd] using hk
  case transferGrant => cases h; exact grant_postQueueSound s hk
  case transferComplete c =>
    cases h
    simp only [State.setChip_chip]
    rcases transferComplete_stops c s.chip with e | ⟨x, rest, -, e⟩
    · rw [e]; exact hk
    · exact Chip.postQueueSound_of_stops e hk
  case linkRetrain => cases h; exact hk
  case msiEnableChange => cases h; exact hk
  case fenceMapFetchComplete => cases h; exact fetchComplete_postQueueSound s hk
  case layoutReadComplete r =>
    cases h
    simp only [State.setChip_chip, layoutRead]
    repeat' split
    · obtain ⟨h1, h2, -⟩ := takeUpLayout_host r s.chip
      simpa only [Chip.postQueueSound, h1, h2] using hk
    · exact Chip.postQueueSound_of_empty rfl
    · exact hk
  all_goals first | exact absurd trivial hw | exact absurd trivial hd

/-- Settles O30. -/
theorem postQueueStaysSound : Obligations.PostQueueStaysSound := fun _ _ hs h => step_keeps exec_postQueueSound hs h

end Sys2Proof.Machine
end

