-- ==== Sys2Proof/Proofs/HostQueue.lean ====
section
/-! SUPPORT. The HOST client's transfers stay the host's own, and no check waits in HALTED (O33). -/

namespace Sys2Proof.Machine

theorem StorePort.core_eq_iff {p q : StorePort} : q.core = p.core ↔
    q.host = p.host ∧ q.served = p.served ∧ q.check = p.check ∧ q.domains = p.domains ∧ q.streams = p.streams ∧
      q.cache = p.cache ∧ q.weight = p.weight ∧ q.weightPos = p.weightPos ∧ q.posts = p.posts := by
  simp only [StorePort.core, Prod.mk.injEq]

/-- The part of the invariant that speaks of the Store Port alone. -/
def StorePort.hostSound (p : StorePort) : Prop :=
  p.sorted ∧ (∀ t ∈ p.host, t.ofHost) ∧ (∀ x ∈ p.served, x.xfer.client = .host → x.xfer.ofHost) ∧
    ∀ c, p.check = some c → c.xfer.client ≠ .host

theorem Chip.hostQueueSound_iff (k : Chip) :
    k.hostQueueSound ↔ k.sp.hostSound ∧ (k.pd.runState = .halted → k.sp.check = none) := by
  simp only [Chip.hostQueueSound, StorePort.hostSound, StorePort.sorted]
  tauto

theorem StorePort.hostSound_of_core {p q : StorePort} (hc : q.core = p.core) (hs : q.sorted = p.sorted) (h : p.hostSound) :
    q.hostSound := by
  obtain ⟨h1, h2, h3, -⟩ := StorePort.core_eq_iff.1 hc
  simpa only [StorePort.hostSound, hs, h1, h2, h3] using h

/-- In another run state the queue stays sound; in HALTED, if no check waits. -/
theorem Chip.hostQueueSound_setRun {k : Chip} {r : RunState} (hr : r = .halted → k.sp.check = none) (hk : k.hostQueueSound) :
    (k.setRun r).hostQueueSound := by
  rw [Chip.hostQueueSound_iff] at hk ⊢
  exact ⟨hk.1, hr⟩

theorem Chip.hostQueueSound_of_ctl {k t : Chip} (h : t.ctl = k.ctl) (hk : k.hostQueueSound) : t.hostQueueSound := by
  obtain ⟨⟨h1, -⟩, -, h3, h4⟩ := Chip.ctl_eq_iff.1 h
  rw [Chip.hostQueueSound_iff] at hk ⊢
  refine ⟨StorePort.hostSound_of_core h3 h4 hk.1, ?_⟩
  rw [h1, (StorePort.core_eq_iff.1 h3).2.2.1]
  exact hk.2

theorem StorePort.hostSound_reset : StorePort.reset.hostSound := by
  refine ⟨fun c t ht => ?_, ?_, ?_, ?_⟩
  · cases c <;> simp [StorePort.waiting, StorePort.reset] at ht
  all_goals simp [StorePort.reset]

/-- A Store Port at its reset value is sound. -/
theorem Chip.hostQueueSound_of_reset {k : Chip} (h : k.sp = StorePort.reset) : k.hostQueueSound := by
  rw [Chip.hostQueueSound_iff, h]
  exact ⟨StorePort.hostSound_reset, fun _ => rfl⟩

theorem Chip.hostQueueSound_of_stops {k t : Chip} (h : k.stops t) (hk : k.hostQueueSound) : t.hostQueueSound := by
  rcases h with h | ⟨-, h⟩
  · exact Chip.hostQueueSound_of_ctl h hk
  · exact Chip.hostQueueSound_of_ctl h (Chip.hostQueueSound_setRun nofun hk)

theorem Chip.hostQueueSound_of_runs {k t : Chip} (h : k.runs t) (hk : k.hostQueueSound) : t.hostQueueSound := by
  rcases h with h | ⟨r, hr, h⟩ | ⟨check, unit, j, -, -, rfl⟩
  · exact Chip.hostQueueSound_of_ctl h hk
  · refine Chip.hostQueueSound_of_ctl h (Chip.hostQueueSound_setRun ?_ hk)
    rintro rfl; simp at hr
  · exact Chip.hostQueueSound_of_reset rfl

theorem takePost_hostQueueSound (w : Word) (k : Chip) (hk : k.hostQueueSound) : (takePost w k).hostQueueSound := by
  rcases takePost_cases w k with ⟨-, -, e⟩ | ⟨-, e⟩ <;> rw [e] <;> exact hk

/-- A transfer of a stream is none of the host's. -/
theorem Transfer.client_ne_host {k : Chip} {t : Transfer} (hk : k.hostQueueSound) {c : Client} (ht : t ∈ k.sp.waiting c)
    (hs : t.stream ≠ none) : t.client ≠ .host := by
  obtain ⟨⟨hsort, hhost, -⟩, -⟩ := (Chip.hostQueueSound_iff k).1 hk
  intro hc
  have : c = .host := (hsort c t ht).symm.trans hc
  subst this
  exact hs (hhost t ht).1

/-- A transfer that leaves its queue leaves the rest sound. -/
theorem dequeue_hostQueueSound {k : Chip} (c : Client) (pos : Nat) (hk : k.hostQueueSound) : (dequeue c pos k).hostQueueSound := by
  obtain ⟨⟨hsort, hhost, hserved, hcheck⟩, hh⟩ := (Chip.hostQueueSound_iff k).1 hk
  rw [Chip.hostQueueSound_iff]
  refine ⟨⟨fun d t ht => hsort d t ?_, fun t ht => hhost t ?_, ?_, ?_⟩, ?_⟩
  · cases c <;> cases d <;> first | exact ht | exact List.mem_of_mem_drop ht
  · cases c <;> first | exact ht | exact List.mem_of_mem_drop ht
  · cases c <;> exact hserved
  · cases c <;> exact hcheck
  · cases c <;> exact hh

/-- A served transfer waits for its completion; one of the HOST client is the host's. -/
theorem noteServed_hostQueueSound {k : Chip} (t : Transfer) (m : Memory) (ht : t.client = .host → t.ofHost)
    (hk : k.hostQueueSound) : (noteServed t m k).hostQueueSound := by
  obtain ⟨⟨hsort, hhost, hserved, hcheck⟩, hh⟩ := (Chip.hostQueueSound_iff k).1 hk
  rw [Chip.hostQueueSound_iff]
  refine ⟨⟨hsort, hhost, fun x hx => ?_, hcheck⟩, hh⟩
  rcases List.mem_append.1 hx with hx | hx
  · exact hserved x hx
  · rw [List.mem_singleton.1 hx]; exact ht

/-- A refusal keeps the queue sound when no check waits. -/
theorem refuseTransfer_hostQueueSound (t : Transfer) (d : Nat) (k : Chip) (hc : k.sp.check = none) (hk : k.hostQueueSound) :
    (refuseTransfer t d k).hostQueueSound := by
  rcases refuseTransfer_ctl t d k with h | h
  · exact Chip.hostQueueSound_of_ctl h hk
  · exact Chip.hostQueueSound_of_ctl h (Chip.hostQueueSound_setRun (fun _ => hc) hk)

/-- In HALTED only the host's transfers are granted. -/
theorem grantChoice_halted {k : Chip} {c : Client} {pos : Nat} (hr : k.pd.runState = .halted) (h : grantChoice k = some (c, pos)) :
    c = .host := by
  simp only [grantChoice, hr, if_true] at h
  split at h
  · simp at h
  · cases h; rfl

theorem dequeue_pd (c : Client) (pos : Nat) (k : Chip) : (dequeue c pos k).pd = k.pd := rfl

theorem dequeue_check (c : Client) (pos : Nat) (k : Chip) : (dequeue c pos k).sp.check = k.sp.check := by cases c <;> rfl

theorem grant_hostQueueSound (s : State) (hk : s.chip.hostQueueSound) : (grant s).chip.hostQueueSound := by
  rcases grant_chip_cases s with ⟨-, e⟩ | ⟨t, c, pos, hg, e⟩ <;> rw [e]
  · exact hk
  obtain ⟨hcheck, -, hchoice, hhead⟩ := granted_spec hg
  have hmem : t ∈ s.chip.sp.waiting c := List.mem_of_mem_head? hhead
  have hd := dequeue_hostQueueSound c pos hk
  have hhost : t.client = .host → t.ofHost := by
    intro ht
    obtain ⟨⟨hsort, hh, -⟩, -⟩ := (Chip.hostQueueSound_iff _).1 hk
    have : c = .host := (hsort c t hmem).symm.trans ht
    subst this
    exact hh t hmem
  unfold grantChip
  split
  · unfold serve
    split
    · exact hostServed_keeps takePost_hostQueueSound (fun _ _ h => h) _ (noteServed_hostQueueSound t s.store hhost hd)
    · exact noteServed_hostQueueSound t s.store hhost hd
  · exact refuseTransfer_hostQueueSound t _ _ (by rw [dequeue_check, hcheck]) hd
  · rename_i d w hf
    have hs : t.stream ≠ none := by
      intro hn; simp [checkTransfer, hn] at hf
    obtain ⟨⟨hsort, hh, hserved, -⟩, -⟩ := (Chip.hostQueueSound_iff _).1 hd
    rw [Chip.hostQueueSound_iff]
    refine ⟨⟨hsort, hh, hserved, fun x hx => ?_⟩, fun hr => ?_⟩
    · cases hx; exact Transfer.client_ne_host hk hmem hs
    · have hc := grantChoice_halted (k := s.chip) hr hchoice
      subst hc
      exact absurd (((Chip.hostQueueSound_iff _).1 hk).1.2.1 t hmem).1 hs

theorem fetchComplete_hostQueueSound (s : State) (hk : s.chip.hostQueueSound) : (fetchComplete s).chip.hostQueueSound := by
  unfold fetchComplete
  split
  · exact hk
  · rename_i c hc
    obtain ⟨⟨hsort, hh, hserved, hcheck⟩, -⟩ := (Chip.hostQueueSound_iff _).1 hk
    have hd : (s.chip.setSp { s.chip.sp with check := none, cache := keepWord c s.chip.sp.cache }).hostQueueSound := by
      rw [Chip.hostQueueSound_iff]
      exact ⟨⟨hsort, hh, hserved, by simp⟩, fun _ => rfl⟩
    dsimp only
    split
    · exact refuseTransfer_hostQueueSound _ _ _ rfl hd
    · exact noteServed_hostQueueSound _ _ (fun h => absurd h (hcheck c hc)) hd

theorem fenceFlush_hostQueueSound {k : Chip} (hk : k.hostQueueSound) : (fenceFlush k).hostQueueSound := by
  obtain ⟨⟨hsort, hh, hserved, hcheck⟩, hr⟩ := (Chip.hostQueueSound_iff _).1 hk
  rw [Chip.hostQueueSound_iff]
  refine ⟨⟨hsort, hh, hserved, fun c hc => ?_⟩, fun h => ?_⟩
  · obtain ⟨d, hd, rfl⟩ := Option.map_eq_some_iff.1 hc
    exact hcheck d hd
  · simp only [fenceFlush, Chip.setSp_sp, hr h, Option.map_none]

theorem StorePort.hostSound_withoutFault {p : StorePort} (h : p.hostSound) : p.withoutFault.hostSound := by
  obtain ⟨hsort, hh, hserved, hcheck⟩ := h
  refine ⟨fun c t ht => ?_, hh, fun x hx hc => ?_, fun c hc => ?_⟩
  · cases c
    case report =>
      obtain ⟨u, hu, rfl⟩ := List.mem_map.1 ht
      exact hsort .report u hu
    all_goals exact hsort _ t ht
  · obtain ⟨y, hy, rfl⟩ := List.mem_map.1 hx
    obtain ⟨h1, h2, h3⟩ := hserved y hy hc
    exact ⟨h1, h2, by simp [Transfer.withoutFault, h3]⟩
  · obtain ⟨d, hd, rfl⟩ := Option.map_eq_some_iff.1 hc
    exact hcheck d hd

theorem acknowledgeFault_hostQueueSound {k : Chip} (hk : k.hostQueueSound) : (acknowledgeFault k).hostQueueSound := by
  unfold acknowledgeFault
  dsimp only
  split
  · exact hk
  · rename_i hr
    simp only [Bool.or_eq_true, decide_eq_true_eq, not_or] at hr
    refine Chip.hostQueueSound_of_ctl (issue_report_ctl _ _ _ _) ?_
    rw [Chip.hostQueueSound_iff] at hk ⊢
    exact ⟨StorePort.hostSound_withoutFault hk.1, fun h => absurd h hr.1⟩

theorem takeUpLayout_hostQueueSound (r : LayoutRecord) {k : Chip} (hk : k.hostQueueSound) : (takeUpLayout r k).hostQueueSound := by
  unfold takeUpLayout
  exact Chip.hostQueueSound_of_ctl (issueAll_ctl _ _ (startWrites_client r _)) hk

theorem hostAccess_hostQueueSound (op : HostOp) {k : Chip} (hk : k.hostQueueSound) :
    (issueAll (hostTransfers op) k).hostQueueSound := by
  obtain ⟨⟨hsort, hh, hserved, hcheck⟩, hr⟩ := (Chip.hostQueueSound_iff _).1 hk
  rw [issueAll_host _ (fun t ht => (hostTransfers_ofHost op t ht).1), Chip.hostQueueSound_iff]
  refine ⟨⟨fun c t ht => ?_, fun t ht => ?_, hserved, hcheck⟩, hr⟩
  · cases c
    case host =>
      rcases List.mem_append.1 ht with ht | ht
      · exact hsort .host t ht
      · exact (hostTransfers_ofHost op t ht).1
    all_goals exact hsort _ t ht
  · rcases List.mem_append.1 ht with ht | ht
    · exact hh t ht
    · exact (hostTransfers_ofHost op t ht).2

theorem transferComplete_hostQueueSound (c : Client) {k : Chip} (hk : k.hostQueueSound) : (transferComplete c k).hostQueueSound := by
  rcases transferComplete_stops c k with e | ⟨x, rest, hx, e⟩
  · rw [e]; exact hk
  · refine Chip.hostQueueSound_of_stops e ?_
    obtain ⟨⟨hsort, hh, hserved, hcheck⟩, hr⟩ := (Chip.hostQueueSound_iff _).1 hk
    rw [Chip.hostQueueSound_iff]
    exact ⟨⟨hsort, hh, fun y hy => hserved y (takeServed_rest hx y hy), hcheck⟩, hr⟩

theorem controlWrite_hostQueueSound (v : Word) {k : Chip} (hk : k.hostQueueSound) : (controlWrite v k).hostQueueSound := by
  cases hv : v.getLsbD 1
  · rcases controlWrite_cases v k hv with e | ⟨j, hj, h⟩
    · rw [e]; exact hk
    have hs : j.hostQueueSound := Chip.hostQueueSound_of_ctl hj hk
    rcases h with e | ⟨-, e⟩ | ⟨-, e⟩ | ⟨-, h⟩
    · rw [e]; exact hs
    · rw [e]; exact Chip.hostQueueSound_setRun (k := j) (r := .starting) nofun hs
    · rw [e]; exact Chip.hostQueueSound_setRun nofun hs
    · exact Chip.hostQueueSound_of_stops h (Chip.hostQueueSound_setRun nofun hs)
  · unfold controlWrite
    split
    · exact hk
    · exact Chip.hostQueueSound_of_reset (k := engineResetChip k) rfl

theorem exec_hostQueueSound (c : Instr) (s t : State) (hk : s.chip.hostQueueSound) (h : exec c s = .next t) :
    t.chip.hostQueueSound := by
  by_cases hw : c.isWork
  · exact Chip.hostQueueSound_of_runs (exec_runs hw h) hk
  by_cases hd : c.isDispatch
  · rcases exec_dispatch hd h with e | e | e
    · rw [e]; exact hk
    · exact Chip.hostQueueSound_of_stops e (k := popPost s.chip) hk
    · rw [e]; exact fenceFlush_hostQueueSound (k := popPost s.chip) hk
  cases c
  case powerOnReset => cases h; exact Chip.hostQueueSound_of_reset rfl
  case hotReset => cases h; exact Chip.hostQueueSound_of_reset rfl
  case engineReset v => cases h; exact controlWrite_hostQueueSound v hk
  case runSet v => cases h; exact controlWrite_hostQueueSound v hk
  case runClear v => cases h; exact controlWrite_hostQueueSound v hk
  case exposeEnableSet v => cases h; exact controlWrite_hostQueueSound v hk
  case exposeEnableClear v => cases h; exact controlWrite_hostQueueSound v hk
  case alertWrite v =>
    cases h
    simp only [State.setChip_chip, alertWrite]
    repeat' split
    · exact hk
    · exact acknowledgeFault_hostQueueSound hk
    · exact hk
  case alertEnWrite v =>
    cases h
    simp only [State.setChip_chip, alertEnWrite]
    split <;> exact hk
  case plantClockWrite v =>
    cases h
    simp only [State.setChip_chip, clockWrite]
    split
    · exact hk
    · exact Chip.hostQueueSound_of_stops (setClock_stops v _) hk
  case plantClockTick => cases h; exact Chip.hostQueueSound_of_stops (setClock_stops _ _) hk
  case registerWriteIgnored => cases h; exact hk
  case post w =>
    cases h
    simp only [State.setChip_chip, postWrite]
    repeat' split
    · exact hk
    · exact takePost_hostQueueSound w _ hk
    · exact hk
  case hostAccess op =>
    rcases exec_hostAccess_cases op s with e | e | ⟨-, -, e⟩ <;> rw [e] at h <;> cases h
    · exact hk
    · exact hostAccess_hostQueueSound op hk
  case transferGrant => cases h; exact grant_hostQueueSound s hk
  case transferComplete c => cases h; exact transferComplete_hostQueueSound c hk
  case linkRetrain => cases h; exact hk
  case msiEnableChange => cases h; exact hk
  case fenceMapFetchComplete => cases h; exact fetchComplete_hostQueueSound s hk
  case layoutReadComplete r =>
    cases h
    simp only [State.setChip_chip, layoutRead]
    repeat' split
    · exact takeUpLayout_hostQueueSound r hk
    · exact Chip.hostQueueSound_of_reset rfl
    · exact hk
  all_goals first | exact absurd trivial hw | exact absurd trivial hd

/-- Settles O33. -/
theorem hostQueueStaysSound : Obligations.HostQueueStaysSound := fun _ _ hs h => step_keeps exec_hostQueueSound hs h

end Sys2Proof.Machine
end

