-- ==== Sys2Proof/Proofs/HostSettings.lean ====
section
/-! SUPPORT. The host's settings and the layout record stay (O38). -/

namespace Sys2Proof.Machine

/-- From `k` to `t` the host's settings and the layout record have stayed, or a START check has failed. -/
def Chip.keepsSettings (k t : Chip) : Prop :=
  (t.regs.plain = k.regs.plain ∧ t.pd.layout = k.pd.layout) ∨
    ∃ check unit j, check ≠ 0 ∧ j.regs.plain = k.regs.plain ∧ t = startFailed check unit j

theorem Chip.keepsSettings_refl (k : Chip) : k.keepsSettings k := .inl ⟨rfl, rfl⟩

theorem Chip.keepsSettings_of_ctl {k t : Chip} (h : t.ctl = k.ctl) : k.keepsSettings t := by
  obtain ⟨⟨-, -, h1⟩, h2, -⟩ := Chip.ctl_eq_iff.1 h
  exact .inl ⟨h2, h1⟩

theorem Chip.settings_of_stops {k t : Chip} (h : k.stops t) : t.regs.plain = k.regs.plain ∧ t.pd.layout = k.pd.layout := by
  rcases h with h | ⟨-, h⟩ <;> obtain ⟨⟨-, -, h1⟩, h2, -⟩ := Chip.ctl_eq_iff.1 h <;> exact ⟨h2, h1⟩

theorem Chip.keepsSettings_of_runs {k t : Chip} (h : k.runs t) : k.keepsSettings t := by
  rcases h with h | ⟨r, -, h⟩ | ⟨check, unit, j, hc, hj, rfl⟩
  · exact Chip.keepsSettings_of_ctl h
  · exact Chip.keepsSettings_of_ctl (k := k.setRun r) h
  · exact .inr ⟨check, unit, j, hc, (Chip.ctl_eq_iff.1 hj).2.1, rfl⟩

/-- What a failed START leaves of the host's settings: all but RUN. -/
theorem startFailed_settings (check unit : Nat) (k : Chip) :
    let r := (startFailed check unit k).regs
    r.exposeEnable = k.regs.exposeEnable ∧ r.plantClock = k.regs.plantClock ∧ r.alertEn = k.regs.alertEn ∧
      r.linkUp = k.regs.linkUp ∧ r.msiEnabled = k.regs.msiEnabled ∧ r.run = false ∧ r.startFail = check := by
  rw [startFailed_spec]
  split <;> exact ⟨rfl, rfl, rfl, rfl, rfl, rfl, rfl⟩

theorem takePost_settings (w : Word) (k : Chip) :
    (takePost w k).regs.plain = k.regs.plain ∧ (takePost w k).pd.layout = k.pd.layout := by
  rcases takePost_cases w k with ⟨-, -, e⟩ | ⟨-, e⟩ <;> rw [e] <;> exact ⟨rfl, rfl⟩

theorem refuseTransfer_settings (t : Transfer) (d : Nat) (k : Chip) :
    (refuseTransfer t d k).regs.plain = k.regs.plain ∧ (refuseTransfer t d k).pd.layout = k.pd.layout := by
  rcases refuseTransfer_ctl t d k with h | h <;> obtain ⟨⟨-, -, h1⟩, h2, -⟩ := Chip.ctl_eq_iff.1 h <;> exact ⟨h2, h1⟩

theorem grant_settings (s : State) :
    (grant s).chip.regs.plain = s.chip.regs.plain ∧ (grant s).chip.pd.layout = s.chip.pd.layout := by
  rcases grant_chip_cases s with ⟨-, e⟩ | ⟨t, c, pos, -, e⟩ <;> rw [e]
  · exact ⟨rfl, rfl⟩
  · unfold grantChip
    split
    · unfold serve
      split
      · exact hostServed_keeps (P := fun j => j.regs.plain = s.chip.regs.plain ∧ j.pd.layout = s.chip.pd.layout)
          (fun w k h => ⟨(takePost_settings w k).1.trans h.1, (takePost_settings w k).2.trans h.2⟩) (fun _ _ h => h) _ ⟨rfl, rfl⟩
      · exact ⟨rfl, rfl⟩
    · exact refuseTransfer_settings t _ (dequeue c pos s.chip)
    · exact ⟨rfl, rfl⟩

theorem fetchComplete_settings (s : State) :
    (fetchComplete s).chip.regs.plain = s.chip.regs.plain ∧ (fetchComplete s).chip.pd.layout = s.chip.pd.layout := by
  unfold fetchComplete
  split
  · exact ⟨rfl, rfl⟩
  · dsimp only
    split
    · exact refuseTransfer_settings _ _ (s.chip.setSp _)
    · exact ⟨rfl, rfl⟩

/-- The settings that a write of CONTROL leaves: all but RUN and EXPOSE_ENABLE. -/
theorem controlWrite_settings (v : Word) (k : Chip) (hv : v.getLsbD 1 = false) :
    let t := controlWrite v k
    t.regs.plantClock = k.regs.plantClock ∧ t.regs.alertEn = k.regs.alertEn ∧ t.regs.linkUp = k.regs.linkUp ∧
      t.regs.msiEnabled = k.regs.msiEnabled ∧ t.pd.layout = k.pd.layout := by
  dsimp only
  rcases controlWrite_cases v k hv with e | ⟨j, hj, h⟩
  · rw [e]; exact ⟨rfl, rfl, rfl, rfl, rfl⟩
  obtain ⟨⟨-, -, hl⟩, hp, -⟩ := Chip.ctl_eq_iff.1 hj
  obtain ⟨-, -, h1, h2, h3, h4⟩ := Registers.plain_eq_iff.1 hp
  have hs : j.regs.plantClock = k.regs.plantClock ∧ j.regs.alertEn = k.regs.alertEn ∧ j.regs.linkUp = k.regs.linkUp ∧
      j.regs.msiEnabled = k.regs.msiEnabled ∧ j.pd.layout = k.pd.layout := ⟨h1, h2, h3, h4, hl⟩
  rcases h with e | ⟨-, e⟩ | ⟨-, e⟩ | ⟨-, h⟩
  · rw [e]; exact hs
  · rw [e]; exact hs
  · rw [e]; exact hs
  · obtain ⟨hp, hl⟩ := Chip.settings_of_stops h
    obtain ⟨-, -, g1, g2, g3, g4⟩ := Registers.plain_eq_iff.1 hp
    rw [g1, g2, g3, g4, hl]; exact hs

/-- A new value of PLANT_CLOCK is the one setting that changes. -/
theorem setClock_settings (v : Word) (k : Chip) :
    (setClock v k).regs.plain = { k.regs with plantClock := v }.plain ∧ (setClock v k).pd.layout = k.pd.layout :=
  Chip.settings_of_stops (setClock_stops v k)

theorem alertWrite_settings (v : Word) (k : Chip) :
    (alertWrite v k).regs.plain = k.regs.plain ∧ (alertWrite v k).pd.layout = k.pd.layout := by
  unfold alertWrite
  dsimp only
  repeat' split
  · exact ⟨rfl, rfl⟩
  · obtain ⟨h1, h2⟩ := acknowledgeFault_host (k.setRegs (setAlerts k.regs (k.regs.alert &&& ~~~(v.setWidth 8)) k.regs.alertEn))
    rw [h1, h2]; exact ⟨rfl, rfl⟩
  · exact ⟨rfl, rfl⟩

theorem postWrite_settings (w : Word) (k : Chip) :
    (postWrite w k).regs.plain = k.regs.plain ∧ (postWrite w k).pd.layout = k.pd.layout := by
  unfold postWrite
  repeat' split
  · exact ⟨rfl, rfl⟩
  · exact takePost_settings w _
  · exact ⟨rfl, rfl⟩

/-- The rest of the commands keeps the settings and the layout record. -/
theorem exec_settings_of_isOther {c : Instr} {s t : State} (hc : c.isOther) (h : exec c s = .next t) :
    t.chip.regs.plain = s.chip.regs.plain ∧ t.chip.pd.layout = s.chip.pd.layout := by
  cases c
  case alertWrite v => cases h; exact alertWrite_settings v _
  case registerWriteIgnored => cases h; exact ⟨rfl, rfl⟩
  case post w => cases h; exact postWrite_settings w _
  case hostAccess op =>
    rcases exec_hostAccess_cases op s with e | e | ⟨-, -, e⟩ <;> rw [e] at h <;> cases h
    · exact ⟨rfl, rfl⟩
    · simp
  case transferGrant => cases h; exact grant_settings s
  case transferComplete d =>
    cases h
    simp only [State.setChip_chip]
    rcases transferComplete_stops d s.chip with e | ⟨x, rest, -, e⟩
    · rw [e]; exact ⟨rfl, rfl⟩
    · exact Chip.settings_of_stops (k := s.chip.setSp { s.chip.sp with served := rest }) e
  case fenceMapFetchComplete => cases h; exact fetchComplete_settings s
  all_goals exact hc.elim

/-- Every command that sets nothing of the host's keeps the settings and the layout record, unless a START check fails. -/
theorem exec_keepsSettings {c : Instr} {s t : State} (hc : ¬c.setsHost) (h : exec c s = .next t) : s.chip.keepsSettings t.chip := by
  rcases c.kinds with hs | hw | hd | ho
  · exact absurd hs hc
  · exact Chip.keepsSettings_of_runs (exec_runs hw h)
  · rcases exec_dispatch hd h with e | e | e
    · rw [e]; exact Chip.keepsSettings_refl _
    · exact .inl (Chip.settings_of_stops (k := popPost s.chip) e)
    · rw [e]; exact .inl ⟨rfl, rfl⟩
  · exact .inl (exec_settings_of_isOther ho h)

/-- The layout read keeps the settings, unless a START check fails. -/
theorem layoutRead_settings (r : LayoutRecord) (k : Chip) :
    (layoutRead r k).regs.plain = k.regs.plain ∨ ∃ check unit, check ≠ 0 ∧ layoutRead r k = startFailed check unit k := by
  unfold layoutRead
  repeat' split
  · exact .inl (takeUpLayout_host r k).2.2
  · rename_i h
    exact .inr ⟨_, _, h, rfl⟩
  · exact .inl rfl

/-- What the statement says of a command that keeps the settings, or fails START. -/
theorem settings_stay {k t : Chip}
    (h : t.regs.plain = k.regs.plain ∨ ∃ check unit j, check ≠ 0 ∧ j.regs.plain = k.regs.plain ∧ t = startFailed check unit j) :
    (t.regs.exposeEnable = k.regs.exposeEnable ∧
      (t.regs.run = k.regs.run ∨ (t.regs.run = false ∧ t.pd.runState = .off ∧ t.regs.startFail ≠ 0))) ∧
    t.regs.plantClock = k.regs.plantClock ∧ t.regs.alertEn = k.regs.alertEn ∧ t.regs.msiEnabled = k.regs.msiEnabled ∧
    t.regs.linkUp = k.regs.linkUp := by
  rcases h with h | ⟨check, unit, j, hc, hj, rfl⟩
  · obtain ⟨h1, h2, h3, h4, h5, h6⟩ := Registers.plain_eq_iff.1 h
    exact ⟨⟨h2, .inl h1⟩, h3, h4, h6, h5⟩
  · obtain ⟨-, h2, h3, h4, h5, h6⟩ := Registers.plain_eq_iff.1 hj
    obtain ⟨g2, g3, g4, g5, g6, g1, gf⟩ := startFailed_settings check unit j
    exact ⟨⟨g2.trans h2, .inr ⟨g1, rfl, gf ▸ hc⟩⟩, g3.trans h3, g4.trans h4, g6.trans h6, g5.trans h5⟩

/-- What the statement says of one command. -/
def settingsStayAt (c : Instr) (k t : Chip) : Prop :=
  (¬c.isControlWrite → t.regs.exposeEnable = k.regs.exposeEnable ∧
    (t.regs.run = k.regs.run ∨ (t.regs.run = false ∧ t.pd.runState = .off ∧ t.regs.startFail ≠ 0))) ∧
  ((∀ v, c ≠ .plantClockWrite v) → c ≠ .plantClockTick → t.regs.plantClock = k.regs.plantClock) ∧
  ((∀ v, c ≠ .alertEnWrite v) → t.regs.alertEn = k.regs.alertEn) ∧
  ((∀ b, c ≠ .msiEnableChange b) → t.regs.msiEnabled = k.regs.msiEnabled) ∧
  (c ≠ .linkRetrain → t.regs.linkUp = k.regs.linkUp) ∧
  ∀ r, k.pd.layout = some r → (∀ x, c ≠ .layoutReadComplete x) → t.pd.layout = some r ∨ t.pd.runState = .off

theorem settingsStayAt_of_keepsSettings {c : Instr} {k t : Chip} (h : k.keepsSettings t) : settingsStayAt c k t := by
  obtain ⟨h1, h2, h3, h4, h5⟩ := settings_stay (h.imp And.left id)
  refine ⟨fun _ => h1, fun _ _ => h2, fun _ => h3, fun _ => h4, fun _ => h5, fun r hr _ => ?_⟩
  rcases h with ⟨-, hl⟩ | ⟨check, unit, j, -, -, e⟩
  · exact .inl (hl.trans hr)
  · rw [e]; exact .inr rfl

theorem settingsStayAt_of_controlWrite {c : Instr} {v : Word} {k : Chip} (hc : c.isControlWrite) (hv : v.getLsbD 1 = false) :
    settingsStayAt c k (controlWrite v k) := by
  obtain ⟨h1, h2, h3, h4, h5⟩ := controlWrite_settings v k hv
  exact ⟨fun h => absurd hc h, fun _ _ => h1, fun _ => h2, fun _ => h4, fun _ => h3, fun r hr _ => .inl (h5.trans hr)⟩

theorem settingsStayAt_of_clock {c : Instr} {v : Word} {k : Chip} (hc : (∃ w, c = .plantClockWrite w) ∨ c = .plantClockTick) :
    settingsStayAt c k (setClock v k) := by
  obtain ⟨hp, hl⟩ := setClock_settings v k
  obtain ⟨h1, h2, -, h4, h5, h6⟩ := Registers.plain_eq_iff.1 hp
  refine ⟨fun _ => ⟨h2, .inl h1⟩, fun hw ht => ?_, fun _ => h4, fun _ => h6, fun _ => h5, fun r hr _ => .inl (hl.trans hr)⟩
  rcases hc with ⟨w, e⟩ | e
  · exact absurd e (hw w)
  · exact absurd e ht

theorem settingsStayAt_of_layoutRead (r : LayoutRecord) (k : Chip) : settingsStayAt (.layoutReadComplete r) k (layoutRead r k) := by
  have hk : (layoutRead r k).regs.plain = k.regs.plain ∨
      ∃ check unit j, check ≠ 0 ∧ j.regs.plain = k.regs.plain ∧ layoutRead r k = startFailed check unit j := by
    rcases layoutRead_settings r k with h | ⟨c, u, hc, h⟩
    · exact .inl h
    · exact .inr ⟨c, u, k, hc, rfl, h⟩
  obtain ⟨h1, h2, h3, h4, h5⟩ := settings_stay hk
  exact ⟨fun _ => h1, fun _ _ => h2, fun _ => h3, fun _ => h4, fun _ => h5, fun _ _ h => absurd rfl (h r)⟩

/-- Bit 1 of the word of a well-formed write of CONTROL is clear. -/
theorem controlKeepsRunning_bit {v : Word} {b : Bool} (h : (controlKeepsRunning v && b) = true) : v.getLsbD 1 = false := by
  simp only [controlKeepsRunning, Bool.and_eq_true, Bool.not_eq_true'] at h
  exact h.1

theorem exec_settingsStayAt {c : Instr} {s t : State} (hwf : c.wellFormed = true) (hr : ¬c.isReset) (h : exec c s = .next t) :
    settingsStayAt c s.chip t.chip := by
  by_cases hc : c.setsHost
  case neg => exact settingsStayAt_of_keepsSettings (exec_keepsSettings hc h)
  cases c
  case powerOnReset => exact absurd trivial hr
  case engineReset => exact absurd trivial hr
  case hotReset => exact absurd trivial hr
  case runSet v => cases h; exact settingsStayAt_of_controlWrite trivial (controlKeepsRunning_bit hwf)
  case runClear v => cases h; exact settingsStayAt_of_controlWrite trivial (controlKeepsRunning_bit hwf)
  case exposeEnableSet v => cases h; exact settingsStayAt_of_controlWrite trivial (controlKeepsRunning_bit hwf)
  case exposeEnableClear v => cases h; exact settingsStayAt_of_controlWrite trivial (controlKeepsRunning_bit hwf)
  case alertEnWrite v =>
    cases h
    simp only [State.setChip_chip, alertEnWrite]
    split <;> exact ⟨fun _ => ⟨rfl, .inl rfl⟩, fun _ _ => rfl, fun h => absurd rfl (h v), fun _ => rfl, fun _ => rfl,
      fun r hr _ => .inl hr⟩
  case plantClockWrite v =>
    cases h
    simp only [State.setChip_chip, clockWrite]
    split
    · exact settingsStayAt_of_keepsSettings (Chip.keepsSettings_refl _)
    · exact settingsStayAt_of_clock (.inl ⟨v, rfl⟩)
  case plantClockTick => cases h; exact settingsStayAt_of_clock (.inr rfl)
  case msiEnableChange b =>
    cases h
    exact ⟨fun _ => ⟨rfl, .inl rfl⟩, fun _ _ => rfl, fun _ => rfl, fun h => absurd rfl (h b), fun _ => rfl, fun r hr _ => .inl hr⟩
  case linkRetrain =>
    cases h
    exact ⟨fun _ => ⟨rfl, .inl rfl⟩, fun _ _ => rfl, fun _ => rfl, fun _ => rfl, fun h => absurd rfl h, fun r hr _ => .inl hr⟩
  case layoutReadComplete r => cases h; exact settingsStayAt_of_layoutRead r _
  all_goals exact hc.elim

/-- Settles O38: a command of the host changes its own setting, and no other command changes any, but that a failed START clears RUN. -/
theorem hostSettingsStay : Obligations.HostSettingsStay := fun _ _ _ hwf hr h => exec_settingsStayAt hwf hr h

end Sys2Proof.Machine
end

