-- ==== Sys2Proof/Proofs/Halted.lean ====
section
/-! SUPPORT. In HALTED every block stays where it is (O37). -/

namespace Sys2Proof.Machine

/-- From `k` to `t` every block has stayed where it was, but for the exchange on the handler line, which may have ended. -/
def Chip.standsStill (k t : Chip) : Prop :=
  t.pd = k.pd ∧ t.iu = k.iu ∧ t.psc = k.psc ∧ t.tl = k.tl ∧ t.br = k.br ∧ t.imc = k.imc ∧ t.dtu = k.dtu ∧ t.hf = k.hf ∧
    t.hlc = { k.hlc with line := t.hlc.line } ∧ (t.hlc.line = k.hlc.line ∨ t.hlc.line = none) ∧
    t.dmr.lists = k.dmr.lists ∧ t.dmr.toSend = k.dmr.toSend ∧ t.sp.hf = k.sp.hf ∧ t.sp.br = k.sp.br ∧ t.sp.iu = k.sp.iu ∧
    t.sp.report = k.sp.report

/-- Registers, the fault record, and what the Store Port does for the host may change in a part that stands still. -/
theorem Chip.standsStill_of (k : Chip) (r : Registers) (x : FaultRecord) (p : StorePort) (hf : p.hf = k.sp.hf) (br : p.br = k.sp.br)
    (iu : p.iu = k.sp.iu) (report : p.report = k.sp.report) :
    k.standsStill { k with regs := r, dmr := { k.dmr with record := x }, sp := p } :=
  ⟨rfl, rfl, rfl, rfl, rfl, rfl, rfl, rfl, rfl, .inl rfl, rfl, rfl, hf, br, iu, report⟩

theorem Chip.standsStill_refl (k : Chip) : k.standsStill k := Chip.standsStill_of k k.regs k.dmr.record k.sp rfl rfl rfl rfl

theorem Chip.standsStill_setRegs (k : Chip) (r : Registers) : k.standsStill (k.setRegs r) :=
  Chip.standsStill_of k r k.dmr.record k.sp rfl rfl rfl rfl

theorem Chip.standsStill_setSp (k : Chip) (p : StorePort) (hf : p.hf = k.sp.hf) (br : p.br = k.sp.br) (iu : p.iu = k.sp.iu)
    (report : p.report = k.sp.report) : k.standsStill (k.setSp p) :=
  Chip.standsStill_of k k.regs k.dmr.record p hf br iu report

theorem freeLine_standsStill (k : Chip) : k.standsStill (freeLine k) :=
  ⟨rfl, rfl, rfl, rfl, rfl, rfl, rfl, rfl, rfl, .inr rfl, rfl, rfl, rfl, rfl, rfl, rfl⟩

theorem Chip.standsStill_trans {a b c : Chip} (h : a.standsStill b) (g : b.standsStill c) : a.standsStill c := by
  obtain ⟨h1, h2, h3, h4, h5, h6, h7, h8, h9, h10, h11, h12, h13, h14, h15, h16⟩ := h
  obtain ⟨g1, g2, g3, g4, g5, g6, g7, g8, g9, g10, g11, g12, g13, g14, g15, g16⟩ := g
  refine ⟨g1.trans h1, g2.trans h2, g3.trans h3, g4.trans h4, g5.trans h5, g6.trans h6, g7.trans h7, g8.trans h8, ?_, ?_,
    g11.trans h11, g12.trans h12, g13.trans h13, g14.trans h14, g15.trans h15, g16.trans h16⟩
  · rw [g9, h9]
  · rcases g10 with g10 | g10
    · rw [g10]; exact h10
    · exact .inr g10

/-! ### The guards of the blocks in HALTED -/

section
variable {k : Chip} (hr : k.pd.runState = .halted)
include hr

theorem working_of_halted : k.working = false := by simp [Chip.working, hr]

theorem lineActive_of_halted : lineActive k = false := by simp [lineActive, Chip.working, hr]

theorem pscFree_of_halted : pscFree k = false := by simp [pscFree, pscBlocked, Chip.working, hr]

theorem nextInput_of_halted : nextInput k = none := by simp [nextInput, pscFree_of_halted hr]

theorem mayFill_of_halted : mayFill k = none := by
  unfold mayFill
  split
  · rfl
  · simp [Chip.working, hr]

theorem headWord_of_halted : headWord k = .nothing := by simp [headWord, Chip.working, hr]

end

theorem parseEnd_of_not_working {k : Chip} (hw : k.working = false) : parseEnd k = k := by
  unfold parseEnd
  simp only [hw, Bool.false_eq_true, if_false]
  repeat' split
  all_goals rfl

/-! ### The commands in HALTED -/

/-- The blocks' work stands still in HALTED: an exchange under way ends, and nothing else happens. -/
theorem work_standsStill {c : Instr} {s t : State} (hc : c.isWork) (hr : s.chip.pd.runState = .halted) (h : exec c s = .next t) :
    s.chip.standsStill t.chip := by
  have hw := working_of_halted hr
  have hl := lineActive_of_halted hr
  have hn := nextInput_of_halted hr
  have idle (f : Chip → Chip) (e : f s.chip = s.chip) : s.chip.standsStill (f s.chip) := by
    rw [e]; exact Chip.standsStill_refl _
  cases c
  case parseBegin => cases h; exact idle _ (by simp [parseBegin, hw])
  case parseEnd => cases h; exact idle _ (parseEnd_of_not_working hw)
  case dropApply => cases h; exact idle _ (by simp [dropApply, hw])
  case pageReport => cases h; exact idle _ (by rw [takePageReport, hn])
  case selection => cases h; exact idle _ (by simp [selection, maySelect, pscFree_of_halted hr])
  case exposingEntryReport => cases h; exact idle _ (by rw [takeExposingEntry, hn])
  case exposureEndReport => cases h; exact idle _ (by rw [takeExposureEnd, hn])
  case renderFinished => cases h; exact idle _ (by rw [takeRenderFinished, hn])
  case carrierCreated => cases h; exact idle _ (by rw [takeCarrierCreated, hn])
  case carrierRemoved => cases h; exact idle _ (by rw [takeCarrierRemoved, hn])
  case dispositionSend => cases h; exact idle _ (by simp [sendDisposition, hw])
  case dispositionApply => cases h; exact idle _ (by simp [takeDisposition, hw, hn])
  case fillBegin => cases h; exact idle (fillBegin s.store) (by simp [fillBegin, mayFill_of_halted hr])
  case renderReflectionPoint => cases h; exact idle _ (by simp [reachPoint, mayFill_of_halted hr])
  case reflectionPointEnd => cases h; exact idle (pointEnd s.store) (by simp [pointEnd, hw])
  case fillEnd => cases h; exact idle _ (by unfold fillEnd; split <;> simp [hw])
  case reloadBegin => cases h; exact idle _ (by simp [reloadBegin, hw, hr])
  case reloadEnd => cases h; exact idle _ (by unfold reloadEnd; repeat' split; all_goals simp_all)
  case encoderTransition e => cases h; exact idle (encoderEdge e) (by simp [encoderEdge, hr])
  case index n => cases h; exact idle (indexPulse n) (by simp [indexPulse, hr])
  case headChannelFault ch => cases h; exact idle (channelFault ch) (by simp [channelFault, hw])
  case headAllClear => cases h; exact idle _ (by simp [headClear, hw])
  case unloadIssue => cases h; exact idle _ (by unfold issueUnload; split <;> simp [hw])
  case unloadEnd => cases h; exact idle _ (by simp [takeUnloadEnd, hw])
  case exchangeStart => cases h; exact idle _ (by simp [exchangeStart, hl])
  case requestAnswer f a =>
    cases h
    simp only [State.setChip_chip, requestAnswered, hl]
    repeat' split
    all_goals first | exact Chip.standsStill_refl _ | exact freeLine_standsStill _ | contradiction
  case pollAnswer f a =>
    cases h
    simp only [State.setChip_chip, pollAnswered, hl]
    repeat' split
    all_goals first | exact Chip.standsStill_refl _ | exact freeLine_standsStill _ | contradiction
  case answerWindowExpiry =>
    cases h
    simp only [State.setChip_chip, windowExpires, hl]
    repeat' split
    all_goals first | exact Chip.standsStill_refl _ | exact freeLine_standsStill _ | contradiction
  case busyRetryExpiry u => cases h; exact idle (busyRetryExpires u) (by simp [busyRetryExpires, hl])
  case pollTimerExpiry u => cases h; exact idle (pollTimerExpires u) (by simp [pollTimerExpires, hl])
  case completionTimeout u => cases h; exact idle (completionExpires u) (by simp [completionExpires, hl])
  all_goals exact hc.elim

/-- PD takes no word in HALTED. -/
theorem dispatch_of_headWord_nothing {c : Instr} {s t : State} (hc : c.isDispatch) (hw : headWord s.chip = .nothing)
    (h : exec c s = .next t) : t = s := by
  cases c
  case postBadWord => cases h; simp [dropBadWord, hw, State.setChip]
  case fragment => cases h; simp [dispatchFragment, hw, State.setChip]
  case order => cases h; simp [dispatchOrder, hw, State.setChip]
  case breakPlate => cases h; simp [dispatchBreak, hw, State.setChip]
  case release => cases h; simp [dispatchRelease, hw, State.setChip]
  case seen => cases h; simp [dispatchSeen, hw, State.setChip]
  case drop => cases h; simp [dispatchDrop, hw, State.setChip]
  case table => cases h; simp [dispatchTable, hw, State.setChip]
  case resume => cases h; simp [dispatchResume, hw, State.setChip]
  case fenceFlush => cases h; simp [dispatchFlush, hw, State.setChip]
  all_goals exact hc.elim

/-- CONTROL is only stored in HALTED. -/
theorem controlWrite_standsStill (v : Word) (k : Chip) (hr : k.pd.runState = .halted) (hv : v.getLsbD 1 = false) :
    k.standsStill (controlWrite v k) := by
  have he : writeExposeEnable (v.getLsbD 2) k = k.setRegs { k.regs with exposeEnable := v.getLsbD 2 } := by
    simp [writeExposeEnable, hr]
  have hw (j : Chip) (hj : j.pd.runState = .halted) : writeRun (v.getLsbD 0) j = j.setRegs { j.regs with run := v.getLsbD 0 } := by
    unfold writeRun
    simp only [hj]
    repeat' split
    all_goals rfl
  unfold controlWrite
  rw [hv, he, hw (k.setRegs { k.regs with exposeEnable := v.getLsbD 2 }) hr]
  split
  · exact Chip.standsStill_refl _
  · exact Chip.standsStill_setRegs k _

theorem takePost_standsStill (w : Word) (k : Chip) (hr : k.pd.runState = .halted) : k.standsStill (takePost w k) := by
  rcases takePost_cases w k with ⟨h, -⟩ | ⟨-, e⟩
  · rw [working_of_halted hr] at h; simp at h
  · rw [e]; exact Chip.standsStill_setRegs k _

/-- In HALTED a grant serves a transfer of the host, and changes nothing of the blocks. -/
theorem grant_standsStill (s : State) (hk : s.chip.hostQueueSound) (hr : s.chip.pd.runState = .halted) :
    s.chip.standsStill (grant s).chip := by
  rcases grant_chip_cases s with ⟨-, e⟩ | ⟨t, c, pos, hg, e⟩ <;> rw [e]
  · exact Chip.standsStill_refl _
  obtain ⟨-, -, hchoice, hhead⟩ := granted_spec hg
  obtain rfl := grantChoice_halted hr hchoice
  obtain ⟨⟨hsort, hhost, -⟩, -⟩ := (Chip.hostQueueSound_iff _).1 hk
  have hmem : t ∈ s.chip.sp.waiting .host := List.mem_of_mem_head? hhead
  have hallow : checkTransfer (dequeue .host pos s.chip) t = .allow := by simp [checkTransfer, (hhost t hmem).1]
  rw [grantChip, hallow]
  dsimp only
  rw [serve, if_pos (hsort .host t hmem)]
  have hkeep := hostServed_keeps (P := fun j => j.pd.runState = .halted ∧ s.chip.standsStill j)
    (fun w k h => ⟨?_, Chip.standsStill_trans h.2 (takePost_standsStill w k h.1)⟩) (fun k l h => ⟨h.1, Chip.standsStill_trans h.2 ?_⟩)
    (noteServed t s.store (dequeue .host pos s.chip)) ⟨hr, Chip.standsStill_setSp _ _ rfl rfl rfl rfl⟩
  · exact hkeep.2
  · rw [(takePost_standsStill w k h.1).1]; exact h.1
  · exact Chip.standsStill_setSp _ _ rfl rfl rfl rfl

/-- In HALTED a completion tells the host alone. -/
theorem transferComplete_standsStill (c : Client) (k : Chip) (hk : k.hostQueueSound) (hr : k.pd.runState = .halted) :
    k.standsStill (transferComplete c k) := by
  unfold transferComplete
  split
  · exact Chip.standsStill_refl _
  · rename_i x rest hx
    have hs : k.standsStill (k.setSp { k.sp with served := rest }) := Chip.standsStill_setSp _ _ rfl rfl rfl rfl
    dsimp only
    split
    · exact hs
    · rename_i hc
      obtain rfl : c = .host := by simpa [hr] using hc
      obtain ⟨hm, hcl⟩ := takeServed_mem hx
      obtain ⟨-, hpurpose, hnotices⟩ := hk.2.2.1 x hm hcl
      simp only [hnotices, List.foldl_nil, deliverData, hpurpose]
      split
      · exact hs
      · exact Chip.standsStill_trans hs (Chip.standsStill_setRegs _ _)

theorem acknowledgeFault_standsStill (k : Chip) (hr : k.pd.runState = .halted) : k.standsStill (acknowledgeFault k) := by
  simp only [acknowledgeFault, hr, decide_true, Bool.true_or, if_true]
  exact Chip.standsStill_of k _ _ k.sp rfl rfl rfl rfl

theorem setClock_standsStill (v : Word) (k : Chip) (hr : k.pd.runState = .halted) : k.standsStill (setClock v k) := by
  have hw : (k.setRegs { k.regs with plantClock := v }).working = false := working_of_halted hr
  rw [setClock, clockMarks, hw]
  exact Chip.standsStill_setRegs k _

theorem setsHost_standsStill {c : Instr} {s t : State} (hc : c.setsHost) (hr : s.chip.pd.runState = .halted)
    (hwf : c.wellFormed = true) (hn : ¬c.isReset) (h : exec c s = .next t) : s.chip.standsStill t.chip := by
  cases c
  case powerOnReset => exact absurd trivial hn
  case engineReset => exact absurd trivial hn
  case hotReset => exact absurd trivial hn
  case runSet v => cases h; exact controlWrite_standsStill v _ hr (controlKeepsRunning_bit hwf)
  case runClear v => cases h; exact controlWrite_standsStill v _ hr (controlKeepsRunning_bit hwf)
  case exposeEnableSet v => cases h; exact controlWrite_standsStill v _ hr (controlKeepsRunning_bit hwf)
  case exposeEnableClear v => cases h; exact controlWrite_standsStill v _ hr (controlKeepsRunning_bit hwf)
  case alertEnWrite v =>
    cases h
    simp only [State.setChip_chip, alertEnWrite]
    split
    · exact Chip.standsStill_refl _
    · exact Chip.standsStill_setRegs _ _
  case plantClockWrite v =>
    cases h
    simp only [State.setChip_chip, clockWrite]
    split
    · exact Chip.standsStill_refl _
    · exact setClock_standsStill v _ hr
  case plantClockTick => cases h; exact setClock_standsStill _ _ hr
  case linkRetrain => cases h; exact Chip.standsStill_setRegs _ _
  case msiEnableChange b => cases h; exact Chip.standsStill_setRegs _ _
  case layoutReadComplete r =>
    cases h
    simp only [State.setChip_chip, layoutRead, hr]
    exact Chip.standsStill_refl _
  all_goals exact hc.elim

theorem other_standsStill {c : Instr} {s t : State} (hc : c.isOther) (hk : s.chip.hostQueueSound) (hr : s.chip.pd.runState = .halted)
    (h : exec c s = .next t) : s.chip.standsStill t.chip := by
  cases c
  case alertWrite v =>
    cases h
    simp only [State.setChip_chip, alertWrite]
    repeat' split
    · exact Chip.standsStill_refl _
    · exact Chip.standsStill_trans (Chip.standsStill_setRegs _ _) (acknowledgeFault_standsStill _ hr)
    · exact Chip.standsStill_setRegs _ _
  case registerWriteIgnored => cases h; exact Chip.standsStill_refl _
  case post w =>
    cases h
    simp only [State.setChip_chip, postWrite]
    repeat' split
    · exact Chip.standsStill_refl _
    · exact takePost_standsStill w _ hr
    · exact Chip.standsStill_setSp _ _ rfl rfl rfl rfl
  case hostAccess op =>
    rcases exec_hostAccess_cases op s with e | e | ⟨-, -, e⟩ <;> rw [e] at h <;> cases h
    · exact Chip.standsStill_refl _
    · rw [State.setChip_chip, issueAll_host _ (fun t ht => (hostTransfers_ofHost op t ht).1)]
      exact Chip.standsStill_setSp _ _ rfl rfl rfl rfl
  case transferGrant => cases h; exact grant_standsStill s hk hr
  case transferComplete d => cases h; exact transferComplete_standsStill d _ hk hr
  case fenceMapFetchComplete =>
    cases h
    simp only [fetchComplete, hk.2.2.2.2 hr]
    exact Chip.standsStill_refl _
  all_goals exact hc.elim

theorem exec_standsStill {c : Instr} {s t : State} (hk : s.chip.hostQueueSound) (hr : s.chip.pd.runState = .halted)
    (hwf : c.wellFormed = true) (hn : ¬c.isReset) (h : exec c s = .next t) : s.chip.standsStill t.chip := by
  rcases c.kinds with hc | hc | hc | hc
  · exact setsHost_standsStill hc hr hwf hn h
  · exact work_standsStill hc hr h
  · rw [dispatch_of_headWord_nothing hc (headWord_of_halted hr) h]; exact Chip.standsStill_refl _
  · exact other_standsStill hc hk hr h

/-- In HALTED only a grant of the host's changes the store. -/
theorem exec_store_halted {c : Instr} {s t : State} (hk : s.chip.hostQueueSound) (hr : s.chip.pd.runState = .halted)
    (hn : ¬c.isReset) (h : exec c s = .next t) (hg : c ≠ .transferGrant) : t.store = s.store := by
  by_cases hf : c = .fenceMapFetchComplete
  · subst hf
    cases h
    simp only [fetchComplete, hk.2.2.2.2 hr]
  · exact exec_store h (fun e => hn (by subst e; trivial)) hg hf

/-- Settles O37. -/
theorem haltedStandsStill : Obligations.HaltedStandsStill := by
  intro c s t hk hr hwf hn h
  obtain ⟨h1, h2, h3, h4, h5, h6, h7, h8, h9, h10, h11, h12, h13, h14, h15, h16⟩ := exec_standsStill hk hr hwf hn h
  exact ⟨h1, h2, h3, h4, h5, h6, h7, h8, h9, h10, h11, h12, h13, h14, h15, h16, exec_store_halted hk hr hn h⟩

end Sys2Proof.Machine
end

