-- ==== Sys2Proof/Proofs/LaserGate.lean ====
section
/-! SUPPORT. The laser stays safe (O31): every operation that leaves EXPOSING darkens it, and no other lights it but the feed of a dot. -/

namespace Sys2Proof.Machine

/-! ### Dark, and permitted -/

theorem Chip.laserSafe_of_dark {k : Chip} (h : k.hf.laser = 0) : k.laserSafe := .inl h

theorem darken_safe (k : Chip) : (darken k).laserSafe := .inl rfl

theorem endPass_safe (k : Chip) : (endPass k).laserSafe := .inl rfl

/-- Another run state than HALTED keeps the laser safe. -/
theorem setRun_safe {k : Chip} {r : RunState} (hr : r ≠ .halted) (h : k.laserSafe) : (k.setRun r).laserSafe := by
  refine h.imp id fun hp => ?_
  simp only [laserPermitted, Bool.and_eq_true, decide_eq_true_eq] at hp ⊢
  exact ⟨hp.1, hr⟩

/-- Leaving EXPOSING closes the laser gate (R153). -/
theorem goTo_dark (st : ImagerState) (k : Chip) (h : st ≠ .exposing) : (goTo st k).laserSafe := by
  cases st <;> first | exact darken_safe _ | exact absurd rfl h

/-- Entering EXPOSING keeps the laser safe. -/
theorem goTo_exposing_safe {k : Chip} (h : k.laserSafe) : (goTo .exposing k).laserSafe := by
  simp only [goTo, setTarget_laserSafe]
  refine h.imp id fun hp => ?_
  simp only [laserPermitted, Bool.and_eq_true, decide_eq_true_eq] at hp ⊢
  exact ⟨⟨rfl, hp.1.2⟩, hp.2⟩

/-! ### The imager -/

section
variable {k : Chip}

theorem recordPause_safe (r : PauseReason) (h : k.laserSafe) : (recordPause r k).laserSafe := by
  have h1 : (raise .pause (k.setImc { k.imc with pauses := k.imc.pauses.add r })).laserSafe := by
    rw [raise_laserSafe, Chip.setImc_laserSafe]
    exacts [h, rfl]
  unfold recordPause
  dsimp only
  repeat' split
  all_goals first | exact h1 | exact goTo_dark _ _ (by decide)

theorem enterSettling_safe (p : PlateRef) : (enterSettling p k).laserSafe := goTo_dark _ _ (by decide)

theorem takeUp_safe (h : k.laserSafe) : (takeUp k).laserSafe := by
  unfold takeUp
  split
  · exact h
  split
  · exact h
  split
  · split
    · exact h
    · rw [queueRequest_laserSafe]; exact goTo_dark _ _ (by decide)
  · split
    · split
      · exact enterSettling_safe _
      · exact goTo_dark _ _ (by decide)
    · exact h

theorem handPlate_safe (p : PlateRef) (h : k.laserSafe) : (handPlate p k).laserSafe :=
  takeUp_safe (by rwa [setWaitingPlate_laserSafe])

theorem settleByDrum_safe : (settleByDrum k).laserSafe := by
  unfold settleByDrum
  repeat' split
  · exact takeUp_safe (goTo_dark _ _ (by decide))
  · exact takeUp_safe (goTo_dark _ _ (by decide))
  · exact enterSettling_safe _
  · exact goTo_dark _ _ (by decide)
  · exact goTo_dark _ _ (by decide)

theorem afterRequest_safe : (afterRequest k).laserSafe := by
  unfold afterRequest
  split
  · exact goTo_dark _ _ (by decide)
  · exact settleByDrum_safe

/-- A record of SUPPLY in EMPTY goes to PAUSED, which darkens the laser. -/
theorem recordPause_empty_safe (r : PauseReason) (he : k.imc.state = .empty) : (recordPause r k).laserSafe := by
  simp only [recordPause, he]
  exact goTo_dark _ _ (by decide)

theorem loadEnd_safe (r : LoadEnd) (h : k.laserSafe) : (loadEnd r k).laserSafe := by
  unfold loadEnd
  split
  · exact h
  · cases r
    · exact afterRequest_safe
    · exact recordPause_empty_safe _ rfl
    · exact afterRequest_safe

theorem endExposure_safe (p : PlateRef) (finding : Option (MarkKind × Nat)) : (endExposure p finding k).laserSafe := by
  have either (b : Bool) (j : Chip) : (if b = true then goTo .paused j else goTo .unloadWait j).laserSafe := by
    split <;> exact goTo_dark _ _ (by decide)
  exact either _ _

theorem exposureComplete_safe (p : PlateRef) : (exposureComplete p k).laserSafe := by
  unfold exposureComplete
  dsimp only
  split <;> exact goTo_dark _ _ (by decide)

theorem reverseCount_safe (h : k.laserSafe) : (reverseCount k).laserSafe := by
  unfold reverseCount
  repeat' split
  · exact endExposure_safe _ _
  · rwa [offerSlip_laserSafe]
  · rwa [offerSlip_laserSafe]
  · exact h

theorem underrun_safe : (underrun k).laserSafe := by
  unfold underrun
  split
  · exact endExposure_safe _ _
  · exact endPass_safe k

/-- A dot reaches the head only while the laser is permitted (R151). -/
theorem feedDot_safe (ps : Pass) (d : Nat) : (feedDot ps d k).laserSafe := by
  have lit (data : List Byte) :
      (k.setHf { k.hf with laser := if laserPermitted k then column data (d % 512) else 0 }).laserSafe := by
    cases hp : laserPermitted k
    · exact .inl (by simp)
    · exact .inr hp
  unfold feedDot
  split
  · exact underrun_safe
  · rename_i data _
    dsimp only
    split
    · rw [hfFetch_laserSafe, Chip.setHf_laserSafe]
      exacts [lit data, rfl]
    · exact lit data

theorem feedAtCount_safe (h : k.laserSafe) : (feedAtCount k).laserSafe := by
  unfold feedAtCount
  split
  · exact h
  · split
    · exact endPass_safe k
    · dsimp only
      repeat' split
      all_goals first | exact feedDot_safe _ _ | exact h

theorem countUp_safe (h : k.laserSafe) : (countUp k).laserSafe := feedAtCount_safe (by rwa [Chip.setDtu_laserSafe])

theorem countDown_safe (h : k.laserSafe) : (countDown k).laserSafe := reverseCount_safe (by rwa [Chip.setDtu_laserSafe])

theorem encoderEdge_safe (e : EncoderEdge) (h : k.laserSafe) : (encoderEdge e k).laserSafe := by
  have hd : (k.setDtu { k.dtu with prev := some e }).laserSafe := h
  unfold encoderEdge
  split
  · exact h
  · dsimp only
    split
    · exact hd
    · split
      · exact countUp_safe hd
      · exact countDown_safe hd
      · split
        · exact countUp_safe (by rwa [drawFresh_laserSafe])
        · exact countDown_safe (by rwa [drawFresh_laserSafe])

theorem enterExposing_safe (p : PlateRef) (h : k.laserSafe) : (enterExposing p k).laserSafe := by
  unfold enterExposing
  dsimp only
  rw [tellPsc_laserSafe]
  refine goTo_exposing_safe ?_
  rw [Chip.setHf_laserSafe, setExposure_laserSafe]
  exacts [h, rfl]

theorem settleIndex_safe (p : PlateRef) (rating : Option Rating) (h : k.laserSafe) : (settleIndex p rating k).laserSafe := by
  unfold settleIndex
  repeat' split
  all_goals first
    | exact h
    | exact enterExposing_safe p h
    | simpa only [offerSlip_laserSafe, setExposure_laserSafe] using h

theorem countHold_safe (p : PlateRef) (o : Bool) (h : k.laserSafe) : (countHold p o k).laserSafe := by
  unfold countHold
  dsimp only
  repeat' split
  all_goals first
    | exact h
    | exact endExposure_safe _ _

theorem swathStart_safe (p : PlateRef) (rating : Option Rating) (h : k.laserSafe) : (swathStart p rating k).laserSafe := by
  unfold swathStart
  dsimp only
  repeat' split
  all_goals first
    | exact countHold_safe _ _ h
    | simpa only [startPass_laserSafe, setExposure_laserSafe, Chip.setBr_laserSafe] using h

theorem passStep_safe (p : PlateRef) (rating : Option Rating) (h : k.laserSafe) : (passStep p rating k).laserSafe := by
  unfold passStep
  dsimp only
  repeat' split
  all_goals first
    | exact swathStart_safe _ _ h
    | exact endExposure_safe _ _
    | exact exposureComplete_safe _
    | exact swathStart_safe _ _ (by rwa [swathComplete_laserSafe])
    | simpa only [startPass_laserSafe, setExposure_laserSafe] using h

theorem exposeIndex_safe (p : PlateRef) (rating : Option Rating) (h : k.laserSafe) : (exposeIndex p rating k).laserSafe := by
  unfold exposeIndex
  split
  · exact endExposure_safe _ _
  · dsimp only
    repeat' split
    all_goals first
      | exact endExposure_safe _ _
      | exact swathStart_safe _ _ (by rwa [offerSlip_laserSafe])
      | exact passStep_safe _ _ h

theorem imagerIndex_safe (rating : Option Rating) (h : k.laserSafe) : (imagerIndex rating k).laserSafe := by
  unfold imagerIndex
  repeat' split
  all_goals first | exact h | exact settleIndex_safe _ _ h | exact exposeIndex_safe _ _ h

theorem indexPulse_safe (elapsed : Nat) (h : k.laserSafe) : (indexPulse elapsed k).laserSafe := by
  unfold indexPulse
  split
  · exact h
  · exact feedAtCount_safe (imagerIndex_safe _ (endPass_safe _))

theorem channelFault_safe (ch : BitVec 6) (h : k.laserSafe) : (channelFault ch k).laserSafe := by
  unfold channelFault
  split
  · dsimp only
    refine recordPause_safe _ ?_
    repeat' split
    all_goals first | exact endExposure_safe _ _ | exact darken_safe _
  · exact h

/-- The fall of EXPOSE_ENABLE darkens the laser (R165). -/
theorem interlockFall_safe : (interlockFall k).laserSafe := by
  unfold interlockFall
  dsimp only
  split
  · refine recordPause_safe _ ?_
    repeat' split
    all_goals first | exact endExposure_safe _ _ | exact darken_safe _
  · exact darken_safe _

theorem withdrawDrumPlate_safe (d : Drum) (p : PlateRef) (h : k.laserSafe) : (withdrawDrumPlate d p k).laserSafe := by
  unfold withdrawDrumPlate
  dsimp only
  repeat' split
  all_goals first
    | exact h
    | exact afterRequest_safe
    | (rw [setDrum_laserSafe]; exact endExposure_safe _ _)

theorem imcWithdraw_safe (slot attempt : Nat) (h : k.laserSafe) : (imcWithdraw slot attempt k).laserSafe := by
  have h1 : ∀ j : Chip, (j = k ∨ j = setWaitingPlate none k) → j.laserSafe := by
    rintro j (rfl | rfl)
    · exact h
    · rwa [setWaitingPlate_laserSafe]
  have h2 (j : Chip) (l : Option LoadInWork) (hj : j.laserSafe) : (j.setImc { j.imc with load := l }).laserSafe := by
    rw [Chip.setImc_laserSafe]
    exacts [hj, rfl]
  have drumSafe (j : Chip) (hj : j.laserSafe) : (match j.imc.drum with
      | some d =>
        match d.owner with
        | some p => if p.isFor slot attempt then withdrawDrumPlate d p j else j
        | none => j
      | none => j).laserSafe := by
    repeat' split
    all_goals first | exact hj | exact withdrawDrumPlate_safe _ _ hj
  unfold imcWithdraw
  dsimp only
  refine drumSafe _ ?_
  repeat' split
  all_goals first | exact h1 _ (.inl rfl) | exact h1 _ (.inr rfl) | exact h2 _ _ (h1 _ (.inl rfl)) | exact h2 _ _ (h1 _ (.inr rfl))

theorem imcSpoilWord_safe (slot attempt : Nat) (h : k.laserSafe) : (imcSpoilWord slot attempt k).laserSafe := by
  unfold imcSpoilWord
  repeat' split
  all_goals first
    | exact h
    | exact endExposure_safe _ _
    | exact withdrawDrumPlate_safe _ _ h
    | rwa [condemn_laserSafe]

theorem issueUnload_safe (h : k.laserSafe) : (issueUnload k).laserSafe := by
  unfold issueUnload
  repeat' split
  · exact h
  · rw [queueRequest_laserSafe]; exact goTo_dark _ _ (by decide)
  · exact h

theorem unloadFailed_safe : (unloadFailed k).laserSafe := by
  unfold unloadFailed
  dsimp only
  split <;> exact goTo_dark _ _ (by decide)

theorem takeUnloadEnd_safe (h : k.laserSafe) : (takeUnloadEnd k).laserSafe := by
  unfold takeUnloadEnd
  split
  · exact afterRequest_safe
  · exact h

theorem applyResume_safe (h : k.laserSafe) : (applyResume k).laserSafe := by
  have h2 : ((releaseUnits k).setImc { (releaseUnits k).imc with pauses := reasonsAfterResume k }).laserSafe := by
    rw [Chip.setImc_laserSafe, releaseUnits_laserSafe]
    exacts [h, rfl]
  unfold applyResume
  dsimp only
  repeat' split
  · rwa [raise_laserSafe]
  · exact settleByDrum_safe
  · exact h2

/-! ### The handler line -/

theorem startFailed_safe (check unit : Nat) : (startFailed check unit k).laserSafe := .inl rfl

theorem startSucceeded_safe (h : k.laserSafe) : (startSucceeded k).laserSafe := by
  have : (k.setRun (if k.regs.run then .running else .stopped)).laserSafe := setRun_safe (by split <;> decide) h
  exact this

theorem holdUnit_safe (u : HUnit) (c : HoldCause) (d : Nat) (h : k.laserSafe) : (holdUnit u c d k).laserSafe := by
  unfold holdUnit
  split
  · exact h
  · exact recordPause_safe _ (by rwa [offerFault_laserSafe, Chip.setUnit_laserSafe])

theorem holdOffline_safe (u : HUnit) (h : k.laserSafe) : (holdOffline u k).laserSafe :=
  recordPause_safe _ (by rwa [offerFault_laserSafe, Chip.setUnit_laserSafe])

theorem clearEnds_safe (u : HUnit) (e : RequestEnd) (h : k.laserSafe) : (clearEnds u e k).laserSafe := by
  unfold clearEnds
  split
  · dsimp only
    split
    · exact startSucceeded_safe (by rwa [Chip.setHlc_laserSafe])
    · rwa [Chip.setHlc_laserSafe]
  · exact startFailed_safe _ _

theorem loaderEnds_safe (r : Request) (e : RequestEnd) (h : k.laserSafe) : (loaderEnds r e k).laserSafe := by
  unfold loaderEnds
  split
  · rwa [unloadDone_laserSafe]
  · exact unloadFailed_safe
  · exact loadEnd_safe _ h
  · exact loadEnd_safe _ h
  · exact loadEnd_safe _ (holdUnit_safe _ _ _ h)

theorem punchEnds_safe (r : Request) (e : RequestEnd) (h : k.laserSafe) : (punchEnds r e k).laserSafe := by
  unfold punchEnds
  split
  · rwa [stageEnd_laserSafe]
  · rwa [stageEnd_laserSafe, spoilAtStage_laserSafe]
  · exact holdUnit_safe _ _ _ (by rwa [putBack_laserSafe])

theorem processorEnds_safe (r : Request) (e : RequestEnd) (h : k.laserSafe) : (processorEnds r e k).laserSafe := by
  unfold processorEnds
  split
  · rwa [stageEnd_laserSafe]
  · exact holdUnit_safe _ _ _ (by rwa [stageEnd_laserSafe, spoilAtStage_laserSafe])
  · exact holdUnit_safe _ _ _ (by rwa [stageEnd_laserSafe, spoilAtStage_laserSafe])
  · exact holdUnit_safe _ _ _ (by rwa [putBack_laserSafe])

theorem sorterEnds_safe (r : Request) (e : RequestEnd) (h : k.laserSafe) : (sorterEnds r e k).laserSafe := by
  unfold sorterEnds
  split
  · rwa [stageEnd_laserSafe]
  · exact holdUnit_safe _ _ _ (by rwa [putBack_laserSafe])
  · exact holdUnit_safe _ _ _ (by rwa [putBack_laserSafe])

theorem endRequest_safe (u : HUnit) (r : Request) (e : RequestEnd) (h : k.laserSafe) : (endRequest u r e k).laserSafe := by
  have h1 : (k.setUnit u (k.hlc.unit u).workEnds).laserSafe := by rwa [Chip.setUnit_laserSafe]
  unfold endRequest
  dsimp only
  split
  · exact clearEnds_safe _ _ h1
  · cases u
    · exact loaderEnds_safe _ _ h1
    · exact punchEnds_safe _ _ h1
    · exact processorEnds_safe _ _ h1
    · exact sorterEnds_safe _ _ h1

theorem answerRequest_safe (u : HUnit) (r : Request) (a : RequestAnswer) (h : k.laserSafe) : (answerRequest u r a k).laserSafe := by
  have hs (x : UnitState) : (k.setUnit u x).laserSafe := by rwa [Chip.setUnit_laserSafe]
  unfold answerRequest
  cases a
  case taken => exact hs _
  case busy =>
    dsimp only
    split
    · exact hs _
    · exact endRequest_safe _ _ _ (hs _)
  case refused why => exact endRequest_safe _ _ _ (hs _)

theorem requestAnswered_safe (f : AnswerFrame) (a : RequestAnswer) (h : k.laserSafe) : (requestAnswered f a k).laserSafe := by
  have h1 : (freeLine k).laserSafe := by rwa [freeLine_laserSafe]
  unfold requestAnswered
  dsimp only
  repeat' split
  all_goals first | exact h | exact h1 | exact answerRequest_safe _ _ _ h1

theorem answerPoll_safe (u : HUnit) (a : PollAnswer) (h : k.laserSafe) : (answerPoll u a k).laserSafe := by
  unfold answerPoll
  repeat' split
  all_goals first | exact h | exact endRequest_safe _ _ _ h

theorem pollAnswered_safe (f : AnswerFrame) (a : PollAnswer) (h : k.laserSafe) : (pollAnswered f a k).laserSafe := by
  unfold pollAnswered
  dsimp only
  repeat' split
  · exact h
  · exact h
  · exact answerPoll_safe _ _ (by rwa [restartPoll_laserSafe, Chip.setUnit_laserSafe, freeLine_laserSafe])
  · rwa [freeLine_laserSafe]

theorem offlineWork_safe (u : HUnit) (h : k.laserSafe) : (offlineWork u k).laserSafe := by
  unfold offlineWork
  repeat' split
  · exact h
  · exact h
  · exact endRequest_safe _ _ _ h
  · rwa [putBack_laserSafe, Chip.setUnit_laserSafe]

theorem goOffline_safe (u : HUnit) (h : k.laserSafe) : (goOffline u k).laserSafe := by
  unfold goOffline
  split
  · exact startFailed_safe _ _
  · exact offlineWork_safe _ (holdOffline_safe _ h)

theorem windowExpires_safe (h : k.laserSafe) : (windowExpires k).laserSafe := by
  have h1 : (freeLine k).laserSafe := by rwa [freeLine_laserSafe]
  unfold windowExpires
  split
  · exact h
  · dsimp only
    split
    · split
      · rw [Chip.setUnit_laserSafe]
        split
        · rwa [restartPoll_laserSafe, Chip.setUnit_laserSafe]
        · rwa [Chip.setUnit_laserSafe]
      · exact goOffline_safe _ (by rwa [Chip.setUnit_laserSafe])
    · exact h1

theorem completionExpires_safe (u : HUnit) (h : k.laserSafe) : (completionExpires u k).laserSafe := by
  unfold completionExpires
  dsimp only
  repeat' split
  all_goals first | exact h | exact endRequest_safe _ _ _ (by rwa [timeoutMark_laserSafe]) | exact endRequest_safe _ _ _ h

/-! ### PSC -/

theorem withdraw_safe (slot attempt : Nat) (h : k.laserSafe) : (withdraw slot attempt k).laserSafe :=
  imcWithdraw_safe _ _ (by rwa [giveUpPins_laserSafe, discard_laserSafe])

theorem reSnapshot_safe (slot : Nat) (p : Plate) (key : PageKey) (version : Nat) (h : k.laserSafe) :
    (reSnapshot slot p key version k).1.laserSafe := by
  have h1 : (snapshotRequest p.order.sep p.order.positions k).2.laserSafe := by rwa [snapshotRequest_laserSafe]
  unfold reSnapshot
  dsimp only
  split
  · rwa [reSnapshotPinned_laserSafe]
  · exact h1
  · exact withdraw_safe _ _ h1
  · exact withdraw_safe _ _ h1

theorem remakePlate_safe (slot : Nat) (p : Plate) (key : PageKey) (version : Nat) (h : k.laserSafe) :
    (remakePlate slot p key version k).1.laserSafe := by
  unfold remakePlate
  dsimp only
  repeat' split
  all_goals first | exact h | exact reSnapshot_safe _ _ _ _ h

theorem planPageReport_safe (r : PageReport) (h : k.laserSafe) : (planPageReport r k).1.laserSafe := by
  have fold (l : List (Nat × Plate)) (a : Plan) (ha : a.1.laserSafe) : (l.foldl (fun a e =>
      if r.remakes && namesOlder e.2 r.key r.version then
        let b := remakePlate e.1 e.2 r.key r.version a.1
        (b.1, a.2 ++ b.2)
      else a) a).1.laserSafe := by
    induction l generalizing a with
    | nil => exact ha
    | cons e l ih =>
      refine ih _ ?_
      dsimp only
      split
      · exact remakePlate_safe _ _ _ _ ha
      · exact ha
  exact fold _ _ h

theorem planStopping_safe (h : k.laserSafe) : (planStopping k).1.laserSafe := by
  have fold (l : List (Nat × Plate)) (a : Plan) (ha : a.1.laserSafe) : (l.foldl (fun a e =>
      if e.2.state = .preparing then (withdraw e.1 e.2.attempt a.1, a.2 ++ evaluation e.1 true) else a) a).1.laserSafe := by
    induction l generalizing a with
    | nil => exact ha
    | cons e l ih =>
      refine ih _ ?_
      dsimp only
      split
      · exact withdraw_safe _ _ ha
      · exact ha
  exact fold _ _ h

theorem breakWithdraw_safe (slot : Nat) (p : Plate) (f : BreakFlag) (h : k.laserSafe) : (breakWithdraw slot p f k).1.laserSafe := by
  unfold breakWithdraw
  cases f
  · simpa only [updPlate_laserSafe] using withdraw_safe slot p.attempt h
  · simpa only [closePlate_laserSafe] using withdraw_safe slot p.attempt h

theorem breakPlateOf_safe (slot : Nat) (p : Plate) (f : BreakFlag) (h : k.laserSafe) : (breakPlateOf slot p f k).1.laserSafe := by
  unfold breakPlateOf
  repeat' split
  all_goals first
    | exact h
    | exact breakWithdraw_safe _ _ _ h
    | rwa [closePlate_laserSafe]
    | rwa [startBreak_laserSafe]

theorem enterPreparing_safe (slot : Nat) (p : Plate) (snap : List PosSnap) (h : k.laserSafe) :
    (enterPreparing slot p snap k).laserSafe :=
  handPlate_safe _ (by rwa [joinRender_laserSafe, setPlate_laserSafe, Chip.setPsc_laserSafe])

theorem selectPlate_safe (slot : Nat) (p : Plate) (h : k.laserSafe) : (selectPlate slot p k).1.laserSafe := by
  have h1 : (snapshotRequest p.order.sep p.order.positions k).2.laserSafe := by rwa [snapshotRequest_laserSafe]
  unfold selectPlate
  dsimp only
  repeat' split
  all_goals first | exact h | exact h1 | exact enterPreparing_safe _ _ _ h1

theorem applySpoil_safe (slot : Nat) (p : Plate) (charged : Bool) (pl : Place) (h : k.laserSafe) :
    (applySpoil slot p charged pl k).1.laserSafe := by
  have h2 (j : Chip) (hj : j.laserSafe) :
      (discard slot p.attempt (giveUpPins slot (imcSpoilWord slot p.attempt j))).laserSafe := by
    rw [discard_laserSafe, giveUpPins_laserSafe]
    exact imcSpoilWord_safe _ _ hj
  unfold applySpoil
  dsimp only
  rw [spoilOutcome_laserSafe]
  split
  · rw [spoilCarriers_laserSafe]; exact h2 _ (by rwa [setPlate_laserSafe])
  · exact h2 _ (by rwa [setPlate_laserSafe])

theorem applyHold_safe (slot : Nat) (p : Plate) (h : k.laserSafe) : (applyHold slot p k).1.laserSafe := by
  unfold applyHold
  repeat' split
  all_goals first | exact h | exact withdraw_safe _ _ h | exact applySpoil_safe _ _ _ _ h

theorem applyFail_safe (slot : Nat) (p : Plate) (h : k.laserSafe) : (applyFail slot p k).laserSafe := by
  unfold applyFail
  dsimp only
  rw [closePlate_laserSafe]
  repeat' split
  all_goals first
    | exact h
    | exact withdraw_safe _ _ h
    | rwa [spoilCarriers_laserSafe]
    | (rw [discard_laserSafe, giveUpPins_laserSafe]; exact imcSpoilWord_safe _ _ (by rwa [setPlate_laserSafe]))

theorem planDisposition_safe (d : Disposition) (h : k.laserSafe) : (planDisposition d k).1.laserSafe := by
  have h1 : (newsOf d.slot k).laserSafe := by rwa [newsOf, setNewsDue_laserSafe]
  unfold planDisposition applyDisposition
  repeat' split
  all_goals first
    | exact h1
    | exact applyHold_safe _ _ h1
    | exact applySpoil_safe _ _ _ _ h1
    | exact applyFail_safe _ _ h1

theorem planEvent_safe (e : PscEvent) (h : k.laserSafe) : (planEvent e k).1.laserSafe := by
  cases e
  · exact h
  · exact planStopping_safe h

theorem beginInput_safe (plan : Chip → Plan) (h : (plan k).1.laserSafe) : (beginInput plan k).laserSafe := by
  unfold beginInput
  dsimp only
  rwa [runSteps_laserSafe]

end

theorem runDue_safe (l : List PscEvent) {k : Chip} (h : k.laserSafe) : (runDue l k).laserSafe := by
  induction l generalizing k with
  | nil => exact h
  | cons e es ih =>
    unfold runDue
    split
    · rwa [setDue_laserSafe]
    · exact ih (beginInput_safe _ (planEvent_safe e h))

section
variable {k : Chip}

theorem pscGo_safe (h : k.laserSafe) : (pscGo k).laserSafe := runDue_safe _ (by rwa [runSteps_laserSafe])

theorem pscTake_safe (plan : Chip → Plan) (h : (plan k).1.laserSafe) : (pscTake plan k).laserSafe :=
  pscGo_safe (beginInput_safe plan h)

theorem pscHear_safe (e : PscEvent) (h : k.laserSafe) : (pscHear e k).laserSafe := pscGo_safe (by rwa [setDue_laserSafe])

theorem takeAnswer_safe (d : Disposition) (h : k.laserSafe) : (takeAnswer d k).laserSafe :=
  pscGo_safe (by rw [setWork_laserSafe]; exact planDisposition_safe d h)

theorem popInbox_safe (h : k.laserSafe) : (popInbox k).laserSafe := by rwa [popInbox_laserSafe]

theorem orderArrives_safe (slot : Nat) (b : List Byte) (h : k.laserSafe) : (orderArrives slot b k).laserSafe := by
  unfold orderArrives
  split
  · exact pscGo_safe (by rw [runSteps_laserSafe, planOrder_laserSafe]; exact h)
  · exact h

theorem takePageReport_safe (h : k.laserSafe) : (takePageReport k).laserSafe := by
  unfold takePageReport
  split
  · exact pscTake_safe _ (planPageReport_safe _ (popInbox_safe h))
  · exact h

theorem selection_safe (h : k.laserSafe) : (selection k).laserSafe := by
  unfold selection
  split
  · split
    · exact h
    · split
      · exact h
      · exact pscTake_safe _ (selectPlate_safe _ _ (k := k.setPsc _) h)
  · exact h

theorem takeExposingEntry_safe (h : k.laserSafe) : (takeExposingEntry k).laserSafe := by
  unfold takeExposingEntry
  split
  · exact pscTake_safe _ (by rw [applyExposingEntry_laserSafe]; exact popInbox_safe h)
  · exact h

theorem takeExposureEnd_safe (h : k.laserSafe) : (takeExposureEnd k).laserSafe := by
  unfold takeExposureEnd
  split
  · refine pscTake_safe _ ?_
    dsimp only
    rw [applyExposureEnd_laserSafe]
    split
    · rw [newsOf, setNewsDue_laserSafe]; exact popInbox_safe h
    · exact popInbox_safe h
  · exact h

theorem takeRenderFinished_safe (h : k.laserSafe) : (takeRenderFinished k).laserSafe := by
  unfold takeRenderFinished
  split
  · exact pscTake_safe _ (by rw [applyRenderFinished_laserSafe]; exact popInbox_safe h)
  · exact h

theorem takeCarrierCreated_safe (h : k.laserSafe) : (takeCarrierCreated k).laserSafe := by
  unfold takeCarrierCreated
  split
  · rw [carrierTaken_laserSafe]
    exact pscTake_safe _ (by rw [applyCarrierCreated_laserSafe]; exact popInbox_safe h)
  · rw [carrierTaken_laserSafe]; exact popInbox_safe h
  · exact h

theorem takeCarrierRemoved_safe (h : k.laserSafe) : (takeCarrierRemoved k).laserSafe := by
  unfold takeCarrierRemoved
  split
  · exact pscTake_safe _ (by rw [applyCarrierRemoved_laserSafe]; exact popInbox_safe h)
  · exact popInbox_safe h
  · exact h

theorem takeDisposition_safe (h : k.laserSafe) : (takeDisposition k).laserSafe := by
  unfold takeDisposition
  split
  · split
    · exact takeAnswer_safe _ h
    · exact h
  · split
    · exact pscTake_safe _ (planDisposition_safe _ (popInbox_safe h))
    · exact h

/-! ### The Store Port -/

theorem haltPart_safe (cause : Nat) (o : FaultOffer) : (haltPart cause o k).laserSafe := .inl rfl

theorem refuseTransfer_safe (t : Transfer) (d : Nat) (h : k.laserSafe) : (refuseTransfer t d k).laserSafe := by
  unfold refuseTransfer
  split
  · exact h
  rename_i m _
  cases m <;> simp only [refuse]
  case iuWrite => exact haltPart_safe _ _
  case reportWrite => exact haltPart_safe _ _
  case iuRead => rwa [parseFenced_laserSafe, offerFault_laserSafe]
  all_goals split
  all_goals first | rwa [fillRefused_laserSafe, offerFault_laserSafe] | rwa [reloadRefused_laserSafe, offerFault_laserSafe] | skip
  all_goals first | rwa [offerFault_laserSafe] | skip
  unfold hfRefused
  dsimp only
  split
  · rwa [imcMark_laserSafe, rowSetArrives_laserSafe, offerFault_laserSafe]
  · rwa [rowSetArrives_laserSafe, offerFault_laserSafe]

theorem takePost_safe (w : Word) (h : k.laserSafe) : (takePost w k).laserSafe := by
  rcases takePost_cases w k with ⟨-, -, e⟩ | ⟨-, e⟩ <;> rw [e] <;> exact h

theorem deliverNotice_safe (n : Notice) (h : k.laserSafe) : (deliverNotice n k).laserSafe := by
  cases n
  case pscDone => exact pscGo_safe h
  all_goals exact h

theorem deliverData_safe (t : Transfer) (data : List Byte) (h : k.laserSafe) : (deliverData t data k).laserSafe := by
  unfold deliverData
  split
  · split <;> exact h
  · exact h
  · rwa [parseArrives_laserSafe]
  · exact orderArrives_safe _ _ h
  · rwa [fillArrives_laserSafe]
  · rwa [reloadArrives_laserSafe]
  · rwa [rowSetArrives_laserSafe]

theorem writeExposeEnable_safe (en : Bool) (h : k.laserSafe) : (writeExposeEnable en k).laserSafe := by
  unfold writeExposeEnable
  dsimp only
  split
  · exact interlockFall_safe
  · rename_i hf
    rcases h with h | h
    · exact .inl h
    · simp only [laserPermitted, Bool.and_eq_true, decide_eq_true_eq, Bool.not_eq_true', not_and] at h hf
      refine .inr ?_
      simp only [laserPermitted, Bool.and_eq_true, decide_eq_true_eq]
      refine ⟨⟨h.1.1, ?_⟩, h.2⟩
      cases en
      · exact absurd h.2 (hf ⟨h.1.2, rfl⟩)
      · rfl

theorem enterStopping_safe (h : k.laserSafe) : (enterStopping k).laserSafe := by
  have h1 : (k.setRun .stopping).laserSafe := setRun_safe (by decide) h
  unfold enterStopping
  dsimp only
  split
  · exact pscHear_safe _ h1
  · rwa [checkStopped_laserSafe]

theorem controlWrite_safe (v : Word) (h : k.laserSafe) : (controlWrite v k).laserSafe := by
  unfold controlWrite
  repeat' split
  · exact h
  · exact .inl rfl
  · have he := writeExposeEnable_safe (v.getLsbD 2) h
    rcases writeRun_cases (v.getLsbD 0) (writeExposeEnable (v.getLsbD 2) k) with e | ⟨-, e⟩ | ⟨-, e⟩ | ⟨-, e⟩ <;> rw [e]
    · exact he
    · exact setRun_safe (k := writeExposeEnable (v.getLsbD 2) k) (r := .starting) (by decide) he
    · exact setRun_safe (k := writeExposeEnable (v.getLsbD 2) k) (r := .running) (by decide) he
    · exact enterStopping_safe he

theorem setClock_safe (v : Word) (h : k.laserSafe) : (setClock v k).laserSafe := by
  unfold setClock clockMarks
  split
  · exact pscHear_safe _ h
  · exact h

end

theorem deliverNotices_safe (ns : List Notice) {k : Chip} (h : k.laserSafe) :
    (ns.foldl (fun a n => deliverNotice n a) k).laserSafe := by
  induction ns generalizing k with
  | nil => exact h
  | cons n ns ih => exact ih (deliverNotice_safe n h)

theorem transferComplete_safe (c : Client) {k : Chip} (h : k.laserSafe) : (transferComplete c k).laserSafe := by
  unfold transferComplete
  split
  · exact h
  · dsimp only
    split
    · exact h
    · exact deliverNotices_safe _ (deliverData_safe _ _ h)

theorem grant_safe (s : State) (h : s.chip.laserSafe) : (grant s).chip.laserSafe := by
  rcases grant_chip_cases s with ⟨-, e⟩ | ⟨t, c, pos, -, e⟩ <;> rw [e]
  · exact h
  · have hd : (dequeue c pos s.chip).laserSafe := h
    unfold grantChip
    split
    · unfold serve
      split
      · exact hostServed_keeps (fun w _ h => takePost_safe w h) (fun _ _ h => h) _ hd
      · exact hd
    · exact refuseTransfer_safe _ _ hd
    · exact hd

theorem fetchComplete_safe (s : State) (h : s.chip.laserSafe) : (fetchComplete s).chip.laserSafe := by
  unfold fetchComplete
  split
  · exact h
  · dsimp only
    split
    · exact refuseTransfer_safe _ _ (k := s.chip.setSp _) h
    · exact h

/-! ### The commands -/

theorem setsHost_laserSafe {c : Instr} {s t : State} (hc : c.setsHost) (hs : s.chip.laserSafe) (h : exec c s = .next t) :
    t.chip.laserSafe := by
  cases c
  case powerOnReset => cases h; exact .inl rfl
  case hotReset => cases h; exact .inl rfl
  case engineReset v => cases h; exact controlWrite_safe v hs
  case runSet v => cases h; exact controlWrite_safe v hs
  case runClear v => cases h; exact controlWrite_safe v hs
  case exposeEnableSet v => cases h; exact controlWrite_safe v hs
  case exposeEnableClear v => cases h; exact controlWrite_safe v hs
  case alertEnWrite v =>
    cases h
    simp only [State.setChip_chip, alertEnWrite]
    split <;> exact hs
  case plantClockWrite v =>
    cases h
    simp only [State.setChip_chip, clockWrite]
    split
    · exact hs
    · exact setClock_safe v hs
  case plantClockTick => cases h; exact setClock_safe _ hs
  case linkRetrain => cases h; exact hs
  case msiEnableChange => cases h; exact hs
  case layoutReadComplete r =>
    cases h
    simp only [State.setChip_chip, layoutRead]
    repeat' split
    · unfold takeUpLayout
      dsimp only
      rw [issueAll_laserSafe]; exact hs
    · exact startFailed_safe _ _
    · exact hs
  all_goals exact hc.elim

theorem work_laserSafe {c : Instr} {s t : State} (hc : c.isWork) (hs : s.chip.laserSafe) (h : exec c s = .next t) :
    t.chip.laserSafe := by
  cases c
  case parseBegin => cases h; exact (parseBegin_laserSafe _).mpr hs
  case parseEnd => cases h; exact (parseEnd_laserSafe _).mpr hs
  case dropApply => cases h; exact (dropApply_laserSafe _).mpr hs
  case pageReport => cases h; exact takePageReport_safe hs
  case selection => cases h; exact selection_safe hs
  case exposingEntryReport => cases h; exact takeExposingEntry_safe hs
  case exposureEndReport => cases h; exact takeExposureEnd_safe hs
  case renderFinished => cases h; exact takeRenderFinished_safe hs
  case carrierCreated => cases h; exact takeCarrierCreated_safe hs
  case carrierRemoved => cases h; exact takeCarrierRemoved_safe hs
  case dispositionSend => cases h; exact (sendDisposition_laserSafe _).mpr hs
  case dispositionApply => cases h; exact takeDisposition_safe hs
  case fillBegin => cases h; exact (fillBegin_laserSafe _ _).mpr hs
  case renderReflectionPoint => cases h; exact (reachPoint_laserSafe _).mpr hs
  case reflectionPointEnd => cases h; exact (pointEnd_laserSafe _ _).mpr hs
  case fillEnd => cases h; exact (fillEnd_laserSafe _).mpr hs
  case reloadBegin => cases h; exact (reloadBegin_laserSafe _).mpr hs
  case reloadEnd => cases h; exact (reloadEnd_laserSafe _).mpr hs
  case encoderTransition e => cases h; exact encoderEdge_safe e hs
  case index n => cases h; exact indexPulse_safe n hs
  case headChannelFault ch => cases h; exact channelFault_safe ch hs
  case headAllClear => cases h; exact (headClear_laserSafe _).mpr hs
  case unloadIssue => cases h; exact issueUnload_safe hs
  case unloadEnd => cases h; exact takeUnloadEnd_safe hs
  case exchangeStart => cases h; exact (exchangeStart_laserSafe _).mpr hs
  case requestAnswer f a => cases h; exact requestAnswered_safe f a hs
  case pollAnswer f a => cases h; exact pollAnswered_safe f a hs
  case answerWindowExpiry => cases h; exact windowExpires_safe hs
  case busyRetryExpiry u => cases h; exact (busyRetryExpires_laserSafe _ _).mpr hs
  case pollTimerExpiry u => cases h; exact (pollTimerExpires_laserSafe _ _).mpr hs
  case completionTimeout u => cases h; exact completionExpires_safe u hs
  all_goals exact hc.elim

theorem dispatch_laserSafe {c : Instr} {s t : State} (hc : c.isDispatch) (hs : s.chip.laserSafe) (h : exec c s = .next t) :
    t.chip.laserSafe := by
  have hp : (popPost s.chip).laserSafe := hs
  cases c
  case postBadWord =>
    cases h; simp only [State.setChip_chip, dropBadWord]
    split <;> exact hs
  case fragment =>
    cases h; simp only [State.setChip_chip, dispatchFragment]
    repeat' split
    all_goals first | exact hs | exact (takeFragment_laserSafe _ _).mpr hp
  case order =>
    cases h; simp only [State.setChip_chip, dispatchOrder]
    repeat' split
    all_goals first | exact hs | exact (takeOrder_laserSafe _ _).mpr hp
  case breakPlate =>
    cases h; simp only [State.setChip_chip, dispatchBreak, takeBreak]
    repeat' split
    all_goals first | exact pscTake_safe _ (breakPlateOf_safe _ _ _ hp) | exact hs
  case release =>
    cases h; simp only [State.setChip_chip, dispatchRelease]
    repeat' split
    all_goals first | exact hs | exact (takeRelease_laserSafe _ _).mpr hp
  case seen =>
    cases h; simp only [State.setChip_chip, dispatchSeen]
    repeat' split
    all_goals first | exact hs | exact (takeSeen_laserSafe _ _).mpr hp
  case drop =>
    cases h; simp only [State.setChip_chip, dispatchDrop]
    split
    · split <;> exact hs
    · exact hs
  case table =>
    cases h; simp only [State.setChip_chip, dispatchTable]
    split
    · exact (takeTable_laserSafe _ _).mpr hp
    · exact hs
  case resume =>
    cases h; simp only [State.setChip_chip, dispatchResume]
    split
    · exact applyResume_safe hp
    · exact hs
  case fenceFlush =>
    cases h; simp only [State.setChip_chip, dispatchFlush]
    split <;> exact hs
  all_goals exact hc.elim

theorem other_laserSafe {c : Instr} {s t : State} (hc : c.isOther) (hs : s.chip.laserSafe) (h : exec c s = .next t) :
    t.chip.laserSafe := by
  cases c
  case alertWrite v =>
    cases h
    simp only [State.setChip_chip, alertWrite]
    repeat' split
    · exact hs
    · rw [acknowledgeFault_laserSafe]; exact hs
    · exact hs
  case registerWriteIgnored => cases h; exact hs
  case post w =>
    cases h
    simp only [State.setChip_chip, postWrite]
    repeat' split
    · exact hs
    · exact takePost_safe w hs
    · exact hs
  case hostAccess op =>
    rcases exec_hostAccess_cases op s with e | e | ⟨-, -, e⟩ <;> rw [e] at h <;> cases h
    · exact hs
    · rw [State.setChip_chip, issueAll_laserSafe]; exact hs
  case transferGrant => cases h; exact grant_safe s hs
  case transferComplete d => cases h; exact transferComplete_safe d hs
  case fenceMapFetchComplete => cases h; exact fetchComplete_safe s hs
  all_goals exact hc.elim

theorem exec_laserSafe (c : Instr) (s t : State) (hs : s.chip.laserSafe) (h : exec c s = .next t) : t.chip.laserSafe := by
  rcases c.kinds with hc | hc | hc | hc
  · exact setsHost_laserSafe hc hs h
  · exact work_laserSafe hc hs h
  · exact dispatch_laserSafe hc hs h
  · exact other_laserSafe hc hs h

/-- Settles O31. -/
theorem laserStaysSafe : Obligations.LaserStaysSafe := fun _ _ hs h => step_keeps exec_laserSafe hs h

end Sys2Proof.Machine
end

