-- ==== Sys2Proof/Proofs/PlatesRefuted.lean ====
section
/-! SUPPORT. The invariant of the plates is not inductive as stated (O34): nothing in it ties the result part that PSC still owes to a held slot. -/

namespace Sys2Proof.Machine

/-- RUNNING with no slot held: PSC owes the result part of slot 0, and the disposition of slot 0 that it waits for has come. -/
def owingChip : Chip :=
  { Chip.reset with
    pd := { Dispatcher.reset with runState := .running }
    psc := { Scheduler.reset with awaiting := true, answer := some ⟨0, 1, .note, false, .none, true⟩, work := [.result 0] } }

/-- The machine that applies that disposition next. -/
def owingState : State := (State.reset.setChip owingChip).setPending [.dispositionApply]

theorem owingChip_plate (n : Nat) : owingChip.plate n = none := rfl

theorem owingChip_platesSound : owingChip.platesSound := by
  have hold (n : Nat) : owingChip.psc.holdMap.getLsbD n = false := BitVec.getLsbD_zero
  have ready : owingChip.psc.ready = [] := rfl
  have ordering : owingChip.psc.ordering = none := rfl
  refine ⟨List.Pairwise.nil, ?_, ?_, List.nodup_nil, ?_, ?_, ?_⟩
  · simp [hold, owingChip_plate, ordering]
  · simp [ordering]
  · simp [ready]
  · simp [owingChip_plate]
  · simp [owingChip_plate]

theorem owingChip_inputSound : owingChip.inputSound := by
  have work : owingChip.psc.work = [.result 0] := rfl
  refine ⟨?_, fun ts t h => ?_, ?_, ?_⟩
  · simp [work]
  · obtain ⟨-, h⟩ := List.append_inj' (s₁ := []) (work.symm.trans h) rfl
    cases h
    trivial
  · simp [work]
  · simp [work]

/-- The step of `result` finds no plate and leaves the news bit due, with no input in hand any more. -/
theorem owingState_takes : ∃ t, step owingState = .next t ∧ t.chip.psc.work = [] ∧ t.chip.psc.newsDue = [0] :=
  ⟨_, rfl, by decide, by decide⟩

/-- Refutes O34: PSC owes the result part of slot 0, which holds no plate; with the disposition of slot 0 the news bit becomes due, the step of
`result` does nothing for want of a plate, and PSC has no input in hand while a news bit is due. -/
theorem not_platesStaySound : ¬ Obligations.PlatesStaySound := by
  intro h
  obtain ⟨t, ht, hwork, hnews⟩ := owingState_takes
  obtain ⟨-, -, -, hdue, -⟩ := h owingState t owingChip_platesSound owingChip_inputSound ht
  cases hnews.symm.trans (hdue hwork)

end Sys2Proof.Machine
end

