-- ==== Sys2Proof/Proofs/Registers.lean ====
section
/-! SUPPORT. The resets and the register writes of the host (O3, O4, O5, O8, O36). -/

namespace Sys2Proof.Machine

/-! ### Resets -/

/-- What the registers read does not depend on the free values to come. -/
theorem powerOn_readRegister (k : Chip) (offset : Nat) : readRegister (powerOnChip k) offset = readRegister Chip.reset offset := rfl

theorem powerOn_readWindow (k : Chip) (offset size : Nat) : readWindow (powerOnChip k) offset size = readWindow Chip.reset offset size := rfl

/-- Settles O3. -/
theorem powerOnReset : Obligations.PowerOnReset := fun s => by
  refine ⟨_, rfl, rfl, rfl, Memory.ofCells_wf _, ?_⟩
  simp only [State.setChip_chip, powerOn_readRegister, powerOn_readWindow]
  decide

theorem reset_platesSound : Chip.reset.platesSound := by
  have hold (n : Nat) : Chip.reset.psc.holdMap.getLsbD n = false := BitVec.getLsbD_zero
  have plate (n : Nat) : Chip.reset.plate n = none := rfl
  have ready : Chip.reset.psc.ready = [] := rfl
  have ordering : Chip.reset.psc.ordering = none := rfl
  refine ⟨List.Pairwise.nil, ?_, ?_, List.nodup_nil, ?_, ?_, ?_⟩
  · simp [hold, plate, ordering]
  · simp [ordering]
  · simp [ready]
  · simp [plate]
  · simp [plate]

theorem reset_inputSound : Chip.reset.inputSound := by
  have work : Chip.reset.psc.work = [] := rfl
  have awaiting : Chip.reset.psc.awaiting = false := rfl
  have off : Chip.reset.pd.runState = .off := rfl
  refine ⟨?_, ?_, fun _ => rfl, ?_⟩
  · simp [awaiting]
  · simp [work]
  · simp [off]

theorem reset_pagesSound : Chip.reset.pagesSound := by
  have dir : Chip.reset.iu.dir = [] := rfl
  have parse : Chip.reset.iu.parse = none := rfl
  refine ⟨List.Pairwise.nil, ?_, ?_, ?_, ?_⟩ <;> simp [dir, parse, tblGet]

theorem reset_fenceCacheSound : Chip.reset.fenceCacheSound := by
  have check : Chip.reset.sp.check = none := rfl
  refine ⟨by decide, List.nodup_nil, ?_⟩
  simp [check]

theorem reset_hostQueueSound : Chip.reset.hostQueueSound := by
  have host : Chip.reset.sp.host = [] := rfl
  have served : Chip.reset.sp.served = [] := rfl
  have check : Chip.reset.sp.check = none := rfl
  have waiting (c : Client) : Chip.reset.sp.waiting c = [] := by cases c <;> rfl
  refine ⟨?_, ?_, ?_, ?_, fun _ => check⟩
  · simp [waiting]
  · simp [host]
  · simp [served]
  · simp [check]

/-- Settles O36. -/
theorem resetHasInvariants : Obligations.ResetHasInvariants :=
  ⟨rfl, ⟨by decide, fun _ => rfl⟩, .inl rfl, reset_fenceCacheSound, reset_hostQueueSound, reset_platesSound, reset_inputSound,
    reset_pagesSound, rfl⟩

/-- Settles O4. -/
theorem resetsAndLink : Obligations.ResetsAndLink := by
  refine fun s => ⟨rfl, fun _ _ _ => rfl, rfl, fun _ => rfl, fun v hv => ?_⟩
  show Host.Outcome.next (s.setChip (controlWrite v s.chip)) = _
  unfold controlWrite
  rw [hv]
  cases hl : s.chip.regs.linkUp
  · rfl
  · exact congrArg (fun up => Host.Outcome.next (s.setChip (blocksReset s.chip { Registers.reset with
      plantClock := s.chip.regs.plantClock, linkUp := up, msiEnabled := s.chip.regs.msiEnabled
      messages := s.chip.regs.messages, hostReply := s.chip.regs.hostReply }))) hl

/-! ### CONTROL -/

/-- With the link up and no engine reset, EXPOSE_ENABLE is taken before RUN (log 20). -/
theorem controlWrite_up {v : Word} {k : Chip} (hl : k.regs.linkUp = true) (hr : v.getLsbD 1 = false) :
    controlWrite v k = writeRun (v.getLsbD 0) (writeExposeEnable (v.getLsbD 2) k) := by
  simp only [controlWrite, hl, hr]
  rfl

/-- EXPOSE_ENABLE that does not fall is only stored. -/
theorem writeExposeEnable_of_not_falling {en : Bool} {k : Chip} (h : k.regs.exposeEnable = true → en = true) :
    writeExposeEnable en k = k.setRegs { k.regs with exposeEnable := en } := by
  have : (k.regs.exposeEnable && !en) = false := by
    cases he : k.regs.exposeEnable
    · rfl
    · rw [h he]; rfl
  simp [writeExposeEnable, this]

/-- Settles O5. -/
theorem runSetActs : Obligations.RunSetActs := by
  intro s v hl hr h0 he
  show Host.Outcome.next (s.setChip (controlWrite v s.chip)) = _
  rw [controlWrite_up hl hr, writeExposeEnable_of_not_falling he, h0]
  cases hrun : s.chip.regs.run
  · cases hs : s.chip.pd.runState <;> simp only [writeRun, hrun, hs, Chip.setRegs] <;> rfl
  · simp only [writeRun, hrun]
    rfl

/-! ### ALERT and ALERT_EN -/

/-- New values of ALERT and ALERT_EN, with the condition of the one message spelled out (R23). -/
theorem setAlerts_eq (r : Registers) (a e : BitVec 8) : setAlerts r a e =
    { r with
      alert := a, alertEn := e
      messages := if r.alert &&& r.alertEn = 0 ∧ a &&& e ≠ 0 ∧ r.msiEnabled = true then r.messages + 1 else r.messages } := by
  simp [setAlerts, alertActive, and_assoc]

/-- Fewer causes send no message. -/
theorem setAlerts_fewer (r : Registers) (m : BitVec 8) : setAlerts r (r.alert &&& m) r.alertEn = { r with alert := r.alert &&& m } := by
  have fewer (h : r.alert &&& r.alertEn = 0) : r.alert &&& m &&& r.alertEn = 0 := by
    rw [BitVec.and_assoc, BitVec.and_comm m, ← BitVec.and_assoc, h]; exact BitVec.zero_and
  rw [setAlerts_eq, if_neg (fun h => h.2.1 (fewer h.1))]

/-- With the link up a write of ALERT clears its causes, and a 1 to ALERT.FAULT acknowledges the fault record. -/
theorem alertWrite_up {v : Word} {k : Chip} (hl : k.regs.linkUp = true) : alertWrite v k =
    let k1 := k.setRegs { k.regs with alert := k.regs.alert &&& ~~~(v.setWidth 8) }
    if v.getLsbD 4 then acknowledgeFault k1 else k1 := by
  simp only [alertWrite, hl, setAlerts_fewer]
  rfl

/-- With a layout taken up, and not HALTED, the acknowledgement is written behind the writes of earlier offers (R200). -/
theorem acknowledgeFault_writes {k : Chip} {lay : LayoutRecord} (hr : k.pd.runState ≠ .halted) (hlay : k.pd.layout = some lay) :
    acknowledgeFault k = issue (reportWrite lay.statusBase [0, 0] [])
      ((((k.setDmr { k.dmr with record := { k.dmr.record with valid := false, overflow := false } }).setRegs
        { k.regs with faultValid := false, faultOverflow := false })).setSp k.sp.withoutFault) := by
  simp [acknowledgeFault, hr, hlay, Chip.lay]

theorem acknowledgeFault_silent {k : Chip} (h : k.pd.runState = .halted ∨ k.pd.layout = none) :
    acknowledgeFault k = (k.setDmr { k.dmr with record := { k.dmr.record with valid := false, overflow := false } }).setRegs
      { k.regs with faultValid := false, faultOverflow := false } := by
  rcases h with h | h <;> simp [acknowledgeFault, h]

/-- Settles O8. -/
theorem alertRegisters : Obligations.AlertRegisters := by
  refine ⟨fun c k => ?_, fun s v hl => ⟨⟨fun h4 => ?_, fun h4 hr => ?_, fun lay h4 hr hlay => ?_⟩, ?_⟩⟩
  · rw [raise, setAlerts_eq]
    cases c <;> rfl
  · show Host.Outcome.next (s.setChip (alertWrite v s.chip)) = _
    rw [alertWrite_up hl, h4]
    rfl
  · show Host.Outcome.next (s.setChip (alertWrite v s.chip)) = _
    rw [alertWrite_up hl, h4]
    exact congrArg (fun k => Host.Outcome.next (s.setChip k)) (acknowledgeFault_silent hr)
  · show Host.Outcome.next (s.setChip (alertWrite v s.chip)) = _
    rw [alertWrite_up hl, h4]
    exact congrArg (fun k => Host.Outcome.next (s.setChip k)) (acknowledgeFault_writes hr hlay)
  · show Host.Outcome.next (s.setChip (alertEnWrite v s.chip)) = _
    simp only [alertEnWrite, hl, setAlerts_eq]
    rfl

end Sys2Proof.Machine
end

