-- ==== Sys2Proof/Proofs/PostWords.lean ====
section
/-! SUPPORT. Post words and their decoding agree (O12). -/

namespace Sys2Proof.Machine

theorem field_ofNat {n : Nat} (h : n < 2 ^ 32) (lo len : Nat) : field (BitVec.ofNat 32 n) lo len = n / 2 ^ lo % 2 ^ len := by
  rw [field, BitVec.toNat_ofNat, Nat.mod_eq_of_lt h]

/-- The table that a TABLE word names has the word's kind code and index, both in range. -/
theorem tableIdOf_eq_some {kind index : Nat} {id : TableId} (h : tableIdOf kind index = some id) :
    id.kind.code = kind ∧ id.idx = index ∧ kind < 5 ∧ index < 16 := by
  unfold tableIdOf at h
  split at h
  case h_6 => cases h
  all_goals
    split at h
    · cases h
      simp only [TableKind.code, true_and]
      omega
    · cases h

theorem slotArg_eq_some {w : Word} {slots n : Nat} :
    slotArg w slots = some n ↔ field w 9 19 = 0 ∧ field w 0 9 = n ∧ n < slots := by
  unfold slotArg
  split
  · rename_i h
    rw [Option.some_inj]
    exact ⟨fun e => ⟨h.1, e, e ▸ h.2⟩, fun e => e.2.1⟩
  · rename_i h
    exact ⟨nofun, fun e => absurd ⟨e.1, e.2.1 ▸ e.2.2⟩ h⟩

theorem breakArg_eq_some {w : Word} {slots n : Nat} {f : BreakFlag} :
    breakArg w slots = some (n, f) ↔
      field w 9 18 = 0 ∧ field w 0 9 = n ∧ n < slots ∧ (if field w 27 1 = 1 then BreakFlag.cancel else .requeue) = f := by
  unfold breakArg
  split
  · rename_i h
    rw [Option.some_inj, Prod.mk.injEq]
    exact ⟨fun e => ⟨h.1, e.1, e.1 ▸ h.2, e.2⟩, fun e => ⟨e.2.1, e.2.2.2⟩⟩
  · rename_i h
    exact ⟨nofun, fun e => absurd ⟨e.1, e.2.1 ▸ e.2.2.1⟩ h⟩

/-- A slot word: its kind above, its slot below, nothing between. -/
theorem slotWord {kind base n slots : Nat} (hb : base = kind * 2 ^ 28 ∧ kind < 16) (hn : n < slots) (hs : slots ≤ 512) :
    field (BitVec.ofNat 32 (base + n)) 28 4 = kind ∧ slotArg (BitVec.ofNat 32 (base + n)) slots = some n := by
  have lt : base + n < 2 ^ 32 := by omega
  rw [slotArg_eq_some]
  simp only [field_ofNat lt]
  omega

/-- A BREAK word: as a slot word, with the flag in bit 27. -/
theorem breakWord_arg {n slots : Nat} (f : BreakFlag) (hn : n < slots) (hs : slots ≤ 512) :
    field (postWordBits (.breakWord n f)) 28 4 = 3 ∧ breakArg (postWordBits (.breakWord n f)) slots = some (n, f) := by
  have requeue : 0x30000000 + n < 2 ^ 32 := by omega
  have cancel : 0x38000000 + n < 2 ^ 32 := by omega
  rw [breakArg_eq_some]
  cases f
  · simp only [postWordBits, field_ofNat requeue]
    exact ⟨by omega, by omega, by omega, hn, if_neg (by omega)⟩
  · simp only [postWordBits, field_ofNat cancel]
    exact ⟨by omega, by omega, by omega, hn, if_pos (by omega)⟩

theorem fragmentWord_fields {c : Nat} (hc : c < 4096) : let w := postWordBits (.fragment c)
    field w 28 4 = 1 ∧ field w 12 16 = 0 ∧ field w 0 12 = c := by
  have lt : 0x10000000 + c < 2 ^ 32 := by omega
  simp only [postWordBits, field_ofNat lt]
  omega

theorem dropWord_fields {key : PageKey} (hb : key.book ≤ 15) (hp : key.page ≤ 255) (hz : key.zone ≤ 63) :
    let w := postWordBits (.drop key)
    field w 28 4 = 6 ∧ field w 18 10 = 0 ∧ field w 14 4 = key.book ∧ field w 6 8 = key.page ∧ field w 0 6 = key.zone := by
  have lt : 0x60000000 + 16384 * key.book + 64 * key.page + key.zone < 2 ^ 32 := by omega
  simp only [postWordBits, field_ofNat lt]
  omega

theorem tableWord_fields {id : TableId} (hk : id.kind.code < 5) (hi : id.idx < 16) : let w := postWordBits (.table id)
    field w 28 4 = 7 ∧ field w 7 21 = 0 ∧ field w 4 3 = id.kind.code ∧ field w 0 4 = id.idx := by
  have lt : 0x70000000 + 16 * id.kind.code + id.idx < 2 ^ 32 := by omega
  simp only [postWordBits, field_ofNat lt]
  omega

theorem decode_postWordBits {cells slots : Nat} {p : PostWord} (hc : cells ≤ 4096) (hs : slots ≤ 512) (h : p.legal cells slots = true) :
    decodePostWord (postWordBits p) cells slots = some p := by
  cases p with
  | fragment c =>
    have hc : c < cells := of_decide_eq_true h
    obtain ⟨kind, mid, low⟩ := fragmentWord_fields (c := c) (by omega)
    simp only [decodePostWord, kind, mid, low, hc, and_self, if_true]
  | order n =>
    obtain ⟨kind, arg⟩ := slotWord (kind := 2) (base := 0x20000000) (by decide) (of_decide_eq_true h) hs
    simp only [decodePostWord, postWordBits, kind, arg, Option.map_some]
  | breakWord n f =>
    obtain ⟨kind, arg⟩ := breakWord_arg f (of_decide_eq_true h) hs
    simp only [decodePostWord, kind, arg, Option.map_some]
  | release n =>
    obtain ⟨kind, arg⟩ := slotWord (kind := 4) (base := 0x40000000) (by decide) (of_decide_eq_true h) hs
    simp only [decodePostWord, postWordBits, kind, arg, Option.map_some]
  | seen n =>
    obtain ⟨kind, arg⟩ := slotWord (kind := 5) (base := 0x50000000) (by decide) (of_decide_eq_true h) hs
    simp only [decodePostWord, postWordBits, kind, arg, Option.map_some]
  | drop key =>
    simp only [PostWord.legal, Bool.and_eq_true, decide_eq_true_eq] at h
    obtain ⟨⟨⟨hb, hp0⟩, hp⟩, hz⟩ := h
    obtain ⟨kind, high, book, page, zone⟩ := dropWord_fields hb hp hz
    have page0 : key.page ≠ 0 := by omega
    simp only [decodePostWord, kind, high, book, page, zone, page0, ne_eq, not_false_eq_true, and_self, if_true]
  | table id =>
    have h : tableIdOf id.kind.code id.idx = some id := of_decide_eq_true h
    obtain ⟨-, -, hk, hi⟩ := tableIdOf_eq_some h
    obtain ⟨kind, high, code, idx⟩ := tableWord_fields hk hi
    simp only [decodePostWord, kind, high, code, idx, h, if_true, Option.map_some]
  | resume => rfl
  | fenceFlush => rfl

/-! ### From the word to what it says -/

/-- A word is the one of its number. -/
theorem ofNat_eq_of_fields {w : Word} {n : Nat} (h : n = w.toNat) : BitVec.ofNat 32 n = w := by
  rw [h, BitVec.ofNat_toNat, BitVec.setWidth_eq]

theorem postWordBits_decode {cells slots : Nat} {w : Word} {p : PostWord} (h : decodePostWord w cells slots = some p) :
    postWordBits p = w ∧ p.legal cells slots = true := by
  have lt := w.isLt
  unfold decodePostWord at h
  split at h
  case h_1 kind =>
    split at h
    · rename_i hf
      cases h
      exact ⟨ofNat_eq_of_fields (by simp only [field] at *; omega), decide_eq_true hf.2⟩
    · cases h
  case h_2 kind =>
    obtain ⟨n, ha, rfl⟩ := Option.map_eq_some_iff.mp h
    obtain ⟨mid, low, hn⟩ := slotArg_eq_some.mp ha
    exact ⟨ofNat_eq_of_fields (by simp only [field] at *; omega), decide_eq_true hn⟩
  case h_3 kind =>
    obtain ⟨⟨n, f⟩, ha, rfl⟩ := Option.map_eq_some_iff.mp h
    obtain ⟨mid, low, hn, hf⟩ := breakArg_eq_some.mp ha
    refine ⟨?_, decide_eq_true hn⟩
    split at hf <;> cases hf <;> exact ofNat_eq_of_fields (by simp only [field] at *; omega)
  case h_4 kind =>
    obtain ⟨n, ha, rfl⟩ := Option.map_eq_some_iff.mp h
    obtain ⟨mid, low, hn⟩ := slotArg_eq_some.mp ha
    exact ⟨ofNat_eq_of_fields (by simp only [field] at *; omega), decide_eq_true hn⟩
  case h_5 kind =>
    obtain ⟨n, ha, rfl⟩ := Option.map_eq_some_iff.mp h
    obtain ⟨mid, low, hn⟩ := slotArg_eq_some.mp ha
    exact ⟨ofNat_eq_of_fields (by simp only [field] at *; omega), decide_eq_true hn⟩
  case h_6 kind =>
    split at h
    · rename_i hf
      cases h
      refine ⟨ofNat_eq_of_fields (by simp only [field] at *; omega), ?_⟩
      simp only [PostWord.legal, Bool.and_eq_true, decide_eq_true_eq]
      simp only [field] at *
      omega
    · cases h
  case h_7 kind =>
    split at h
    · obtain ⟨id, ha, rfl⟩ := Option.map_eq_some_iff.mp h
      obtain ⟨hk, hi, -, -⟩ := tableIdOf_eq_some ha
      refine ⟨ofNat_eq_of_fields ?_, decide_eq_true (by rw [hk, hi]; exact ha)⟩
      simp only [field] at *
      omega
    · cases h
  case h_8 kind =>
    split at h
    · cases h
      exact ⟨ofNat_eq_of_fields (by simp only [field] at *; omega), rfl⟩
    · cases h
  case h_9 kind =>
    split at h
    · cases h
      exact ⟨ofNat_eq_of_fields (by simp only [field] at *; omega), rfl⟩
    · cases h
  case h_10 => cases h

/-- Settles O12. -/
theorem postWordRoundTrip : Obligations.PostWordRoundTrip := fun _ _ hc hs =>
  ⟨fun _ hp => decode_postWordBits hc hs hp, fun _ _ h => postWordBits_decode h⟩

end Sys2Proof.Machine
end

