-- ==== Sys2Proof/Proofs/Dispatching.lean ====
section
/-! SUPPORT. The post queue and PD: what joins the queue, what PD takes from it, and what the owner of a word does with it
(O10, O11, O13, O15, O16, O17). -/

namespace Sys2Proof.Machine

/-! ### POST (R18) -/

theorem isWrite_iff (o : XferOp) : o.isWrite = true ↔ ∃ d, o = .write d := by
  cases o <;> simp [XferOp.isWrite]

theorem writesAhead_none {l : List Transfer} (h : ∀ t ∈ l, ¬∃ d, t.op = .write d) : writesAhead l = 0 := by
  induction l with
  | nil => rfl
  | cons t l ih =>
    have ht : t.op.isWrite = false := by
      rw [← Bool.not_eq_true, isWrite_iff]
      exact h t List.mem_cons_self
    simp [writesAhead, ht, ih (fun x hx => h x (List.mem_cons_of_mem _ hx))]

/-- All transfers up to the last write are ahead. -/
theorem writesAhead_last {a b : List Transfer} {t : Transfer} (ht : ∃ d, t.op = .write d) (hb : ∀ x ∈ b, ¬∃ d, x.op = .write d) :
    writesAhead (a ++ t :: b) = a.length + 1 := by
  induction a with
  | nil => simp [writesAhead, (isWrite_iff t.op).mpr ht, writesAhead_none hb]
  | cons x a ih => simp [writesAhead, ih]

theorem working_iff (k : Chip) :
    k.working = true ↔ k.pd.runState = .running ∨ k.pd.runState = .stopping ∨ k.pd.runState = .stopped := by
  simp [Chip.working, or_assoc]

theorem working_false_iff (k : Chip) :
    k.working = false ↔ k.pd.runState = .off ∨ k.pd.runState = .starting ∨ k.pd.runState = .halted := by
  cases h : k.pd.runState <;> simp [Chip.working, h]

/-- With the link up a write of POST is taken at once, or held behind the writes of the host. -/
theorem postWrite_up {w : Word} {k : Chip} (hl : k.regs.linkUp = true) : postWrite w k =
    if writesAhead k.sp.host = 0 then takePost w k
    else k.setSp { k.sp with posts := k.sp.posts ++ [(writesAhead k.sp.host, w)] } := by
  simp [postWrite, hl]

/-- Settles O10. -/
theorem hostPost : Obligations.HostPost := by
  intro s w hl
  have run : exec (.post w) s = .next (s.setChip (postWrite w s.chip)) := rfl
  refine ⟨fun hn => ⟨fun ho hlen => ?_, fun hc => ?_⟩, fun a t b hh ht hb => ?_⟩
  · have taken : postWrite w s.chip = s.chip.setPd { s.chip.pd with postQueue := s.chip.pd.postQueue ++ [w] } := by
      simp [postWrite_up hl, writesAhead_none hn, takePost, (working_iff s.chip).mpr ho, hlen]
    refine ⟨_, run, by rw [taken]; rfl, ?_, ?_⟩
    · simp only [postRoom, State.setChip_chip, taken, Chip.setPd_pd, List.length_append, List.length_singleton]
      omega
    · simp only [State.setChip_chip, taken, Chip.setPd_pd, List.length_append, List.length_singleton]
      omega
  · have lost : (s.chip.working && decide (s.chip.pd.postQueue.length < 64)) = false := by
      rcases hc with hc | hc
      · rw [← working_iff, Bool.not_eq_true] at hc
        simp [hc]
      · simp [Nat.not_lt.mpr hc]
    rw [run, postWrite_up hl, writesAhead_none hn, if_pos rfl, takePost, lost]
    rfl
  · have ahead : writesAhead s.chip.sp.host = a.length + 1 := by rw [hh, writesAhead_last ht hb]
    rw [run, postWrite_up hl, ahead, if_neg (Nat.succ_ne_zero _)]
    rfl

/-! ### PD (R19–R21) -/

theorem exec_eq_of_chip {c : Instr} {s : State} {f : Chip → Chip} (h : exec c s = .next (s.setChip (f s.chip))) (hf : f s.chip = s.chip) :
    exec c s = .next s := by
  rw [h, hf]; rfl

/-- The word at the head passes its check. -/
theorem headWord_of_headIs {s : State} {p : PostWord} {q : List Word} (h : s.headIs p q) : headWord s.chip = .word p := by
  obtain ⟨hw, w, hq, hd⟩ := h
  simp only [headWord, hw, hq, hd, if_true]

theorem popPost_of_headIs {s : State} {p : PostWord} {q : List Word} (h : s.headIs p q) : popPost s.chip = s.chip.popped q := by
  obtain ⟨-, w, hq, -⟩ := h
  simp only [popPost, hq]
  rfl

/-- No command takes the head word but the one of its kind. -/
theorem exec_dispatch_other {c : Instr} {s : State} {p : PostWord} (h : headWord s.chip = .word p) (hc : c.isDispatch)
    (hne : c ≠ p.command) : exec c s = .next s := by
  cases c
  case postBadWord => exact exec_eq_of_chip (f := dropBadWord) rfl (by simp [dropBadWord, h])
  case fragment =>
    refine exec_eq_of_chip (f := dispatchFragment) rfl ?_
    cases p with
    | fragment _ => exact absurd rfl hne
    | _ => simp [dispatchFragment, h]
  case order =>
    refine exec_eq_of_chip (f := dispatchOrder) rfl ?_
    cases p with
    | order _ => exact absurd rfl hne
    | _ => simp [dispatchOrder, h]
  case breakPlate =>
    refine exec_eq_of_chip (f := dispatchBreak) rfl ?_
    cases p with
    | breakWord _ _ => exact absurd rfl hne
    | _ => simp [dispatchBreak, h]
  case release =>
    refine exec_eq_of_chip (f := dispatchRelease) rfl ?_
    cases p with
    | release _ => exact absurd rfl hne
    | _ => simp [dispatchRelease, h]
  case seen =>
    refine exec_eq_of_chip (f := dispatchSeen) rfl ?_
    cases p with
    | seen _ => exact absurd rfl hne
    | _ => simp [dispatchSeen, h]
  case drop =>
    refine exec_eq_of_chip (f := dispatchDrop) rfl ?_
    cases p with
    | drop _ => exact absurd rfl hne
    | _ => simp [dispatchDrop, h]
  case table =>
    refine exec_eq_of_chip (f := dispatchTable) rfl ?_
    cases p with
    | table _ => exact absurd rfl hne
    | _ => simp [dispatchTable, h]
  case resume =>
    refine exec_eq_of_chip (f := dispatchResume) rfl ?_
    cases p with
    | resume => exact absurd rfl hne
    | _ => simp [dispatchResume, h]
  case fenceFlush =>
    refine exec_eq_of_chip (f := dispatchFlush) rfl ?_
    cases p with
    | fenceFlush => exact absurd rfl hne
    | _ => simp [dispatchFlush, h]
  all_goals exact hc.elim

/-- Settles O11. -/
theorem pdDispatches : Obligations.PdDispatches := by
  refine ⟨fun c s hc hr => ?_, fun s w q hr hq hd => ?_, fun s t v hv hl h => ?_⟩
  · have hw : headWord s.chip = .nothing := by simp [headWord, (working_false_iff s.chip).mpr hr]
    obtain ⟨t, ht, -⟩ | ⟨op, rfl, -⟩ := execLeavesQueue c s
    · rw [ht, dispatch_of_headWord_nothing hc hw ht]
    · exact hc.elim
  · have hw : headWord s.chip = .bad := by simp only [headWord, (working_iff s.chip).mpr hr, hq, hd, if_true]
    show Host.Outcome.next (s.setChip (dropBadWord s.chip)) = _
    simp only [dropBadWord, hw, popPost, hq]
    rfl
  · rcases h with h | h | h
    · rw [((resetsAndLink s).2.2.2.2 v hv), if_pos hl] at h
      cases h; rfl
    · cases h; rfl
    · cases h; rfl

/-- Settles O13. -/
theorem headWordWaits : Obligations.HeadWordWaits := by
  intro s p q hp
  have hw := headWord_of_headIs hp
  refine ⟨fun c hc hne => exec_dispatch_other hw hc hne, fun hpc hfull => ?_, ?_, fun hpc hf => ?_⟩
  · have room : iuHasRoom s.chip = false := decide_eq_false (by omega)
    cases p with
    | fragment c => exact exec_eq_of_chip (f := dispatchFragment) rfl (by simp [dispatchFragment, hw, room])
    | drop key => exact exec_eq_of_chip (f := dispatchDrop) rfl (by simp [dispatchDrop, hw, room])
    | _ => simp [PostWord.command] at hpc
  · rw [pscFree_iff]
    exact and_iff_right hp.1
  · cases p with
    | order n => exact exec_eq_of_chip (f := dispatchOrder) rfl (by simp [dispatchOrder, hw, hf])
    | breakWord n f => exact exec_eq_of_chip (f := dispatchBreak) rfl (by simp [dispatchBreak, hw, hf])
    | release n => exact exec_eq_of_chip (f := dispatchRelease) rfl (by simp [dispatchRelease, hw, hf])
    | seen n => exact exec_eq_of_chip (f := dispatchSeen) rfl (by simp [dispatchSeen, hw, hf])
    | _ => simp [PostWord.command] at hpc

/-- Settles O15. -/
theorem dropTableFlushWords : Obligations.DropTableFlushWords := by
  intro s q
  refine ⟨fun key hp hlen => ?_, fun id hp => ?_, fun hp => ?_⟩
  · have room : iuHasRoom s.chip = true := decide_eq_true hlen
    show Host.Outcome.next (s.setChip (dispatchDrop s.chip)) = _
    simp only [dispatchDrop, headWord_of_headIs hp, popPost_of_headIs hp, room]
    rfl
  · show Host.Outcome.next (s.setChip (dispatchTable s.chip)) = _
    have any : (s.chip.popped q).tl.pendingSet.any (fun p => decide (p.id = id)) = decide (∃ p ∈ s.chip.tl.pendingSet, p.id = id) := by
      simp [Chip.popped, List.any_eq]
    simp only [dispatchTable, headWord_of_headIs hp, popPost_of_headIs hp, takeTable, any, decide_eq_true_eq]
    rfl
  · show Host.Outcome.next (s.setChip (dispatchFlush s.chip)) = _
    simp only [dispatchFlush, headWord_of_headIs hp, popPost_of_headIs hp]
    rfl

/-! ### The slot words (R24–R27) -/

/-- With PSC free the command of a slot word hands it to PSC. -/
theorem exec_order {s : State} {slot : Nat} {q : List Word} (hp : s.headIs (.order slot) q) (hf : pscFree s.chip = true) :
    exec .order s = .next (s.setChip (takeOrder slot (s.chip.popped q))) := by
  show Host.Outcome.next (s.setChip (dispatchOrder s.chip)) = _
  simp only [dispatchOrder, headWord_of_headIs hp, popPost_of_headIs hp, hf, if_true]

theorem exec_breakPlate {s : State} {slot : Nat} {f : BreakFlag} {q : List Word} (hp : s.headIs (.breakWord slot f) q)
    (hf : pscFree s.chip = true) : exec .breakPlate s = .next (s.setChip (takeBreak slot f (s.chip.popped q))) := by
  show Host.Outcome.next (s.setChip (dispatchBreak s.chip)) = _
  simp only [dispatchBreak, headWord_of_headIs hp, popPost_of_headIs hp, hf, if_true]

theorem exec_release {s : State} {slot : Nat} {q : List Word} (hp : s.headIs (.release slot) q) (hf : pscFree s.chip = true) :
    exec .release s = .next (s.setChip (takeRelease slot (s.chip.popped q))) := by
  show Host.Outcome.next (s.setChip (dispatchRelease s.chip)) = _
  simp only [dispatchRelease, headWord_of_headIs hp, popPost_of_headIs hp, hf, if_true]

theorem exec_seen {s : State} {slot : Nat} {q : List Word} (hp : s.headIs (.seen slot) q) (hf : pscFree s.chip = true) :
    exec .seen s = .next (s.setChip (takeSeen slot (s.chip.popped q))) := by
  show Host.Outcome.next (s.setChip (dispatchSeen s.chip)) = _
  simp only [dispatchSeen, headWord_of_headIs hp, popPost_of_headIs hp, hf, if_true]

/-- A plate of a ready PSC stands at its index. -/
theorem plate_of_mem {k : Chip} (h : k.platesSound) : ∀ e ∈ k.psc.plates, k.plate e.1 = some e.2 :=
  fun e he => tblGet_of_mem k.psc.plates h.1 e he

/-- A BREAK of a terminal plate plans nothing (R102). -/
theorem breakPlateOf_terminal {slot : Nat} {p : Plate} {f : BreakFlag} {k : Chip} (h : p.state.terminal = true) :
    breakPlateOf slot p f k = (k, []) := by
  cases hs : p.state with
  | done => simp [breakPlateOf, hs]
  | failed => simp [breakPlateOf, hs]
  | cancelled => simp [breakPlateOf, hs]
  | refused => simp [breakPlateOf, hs]
  | _ => simp [hs, PlateState.terminal] at h

/-- An input that plans nothing leaves a ready PSC as it is. -/
theorem pscTake_nothing {k : Chip} {plan : Chip → Plan} (hk : k.pscReady) (hp : plan k = (k, [])) : pscTake plan k = k := by
  obtain ⟨hf, ⟨-, -, hn, hs⟩, hpl⟩ := hk
  obtain ⟨-, -, -, -, hwork, hdue⟩ := (pscFree_iff k).mp hf
  exact pscTake_same plan k hp hf (plate_of_mem hpl) (hn hwork) (fun h => hs h hwork hdue)

/-- ORDER of a FREE slot (R24, R25 (1), (2)): the hold bit, its write, and the read of the host part behind it. -/
theorem takeOrder_free {slot : Nat} {k : Chip} (h : k.psc.holdMap.getLsbD slot = false) : takeOrder slot k =
    let m := mapSet k.psc.holdMap slot true
    { k with
      psc := { k.psc with holdMap := m, ordering := some slot, outstanding := k.psc.outstanding + 1 }
      dmr := { k.dmr with lists := tblPut k.dmr.lists slot SlotMarks.empty }
      sp := { k.sp with report := k.sp.report ++
        [reportWrite (k.lay.mapBase + 0x200 + slot / 8) [mapByte m (slot / 8)] [.pscDone],
         { client := .report, stream := none, addr := k.slotAddr slot, op := .read 256, purpose := .order slot, notices := [] }] } } := by
  have two (l : List Transfer) (x y : Transfer) : l ++ [x, y] = l ++ [x] ++ [y] := (List.append_assoc l [x] [y]).symm
  simp only [takeOrder, h, two]
  rfl

/-- Settles O16. -/
theorem slotWords : Obligations.SlotWords := by
  refine ⟨fun s slot q hp hf hh => ?_, fun s slot q hr => ⟨fun hp hh => ?_, fun hp ht => ?_, fun f hp => ⟨fun hn => ?_, fun p hpl ht => ?_⟩⟩⟩
  · obtain ⟨-, -, hout, -⟩ := (pscFree_iff _).mp hf
    have one : (s.chip.popped q).psc.outstanding + 1 = 1 := by
      show s.chip.psc.outstanding + 1 = 1
      rw [hout]
    rw [exec_order hp hf, takeOrder_free (k := s.chip.popped q) hh]
    dsimp only
    rw [one]
    rfl
  · have held : (s.chip.popped q).psc.holdMap.getLsbD slot = true := hh
    rw [exec_order hp hr.1, takeOrder, if_pos held]
    rfl
  · have refused : takeRelease slot (s.chip.popped q) = raise .postBad (s.chip.popped q) := by
      cases hpl : s.chip.plate slot with
      | none =>
        have hpl : (s.chip.popped q).plate slot = none := hpl
        rw [takeRelease, hpl]
      | some p =>
        have hpl' : (s.chip.popped q).plate slot = some p := hpl
        rw [takeRelease, hpl']
        simp only [ht p hpl]
        rfl
    rw [exec_release hp hr.1, refused]
    rfl
  · have free : (s.chip.popped q).plate slot = none := hn
    rw [exec_breakPlate hp hr.1, takeBreak, free]
    rfl
  · have held : (s.chip.popped q).plate slot = some p := hpl
    have ready : (s.chip.popped q).pscReady := hr
    rw [exec_breakPlate hp hr.1, takeBreak, held]
    exact congrArg (fun k => Host.Outcome.next (s.setChip k)) (pscTake_nothing ready (breakPlateOf_terminal ht))

theorem clearNews_unset {slot : Nat} {k : Chip} (h : k.psc.newsMap.getLsbD slot = false) : clearNews slot k = k := by
  simp only [clearNews, h, Bool.false_eq_true, if_false]

/-- A set news bit is cleared and written (R26, R27). -/
theorem clearNews_set {slot : Nat} {k : Chip} (h : k.psc.newsMap.getLsbD slot = true) : clearNews slot k =
    let m := mapSet k.psc.newsMap slot false
    { k with
      psc := { k.psc with newsMap := m, outstanding := k.psc.outstanding + 1 }
      sp := { k.sp with report := k.sp.report ++ [reportWrite (k.lay.mapBase + 0x240 + slot / 8) [mapByte m (slot / 8)] [.pscDone]] } } := by
  simp only [clearNews, h, if_true]
  rfl

/-- RELEASE of a slot whose news bit is 0 (R26). -/
theorem releaseSlot_read {slot : Nat} {k : Chip} (h : k.psc.newsMap.getLsbD slot = false) : releaseSlot slot k =
    let m := mapSet k.psc.holdMap slot false
    { k with
      psc := { k.psc with plates := tblErase k.psc.plates slot, holdMap := m, outstanding := k.psc.outstanding + 2 }
      dmr := { k.dmr with lists := tblErase k.dmr.lists slot }
      sp := { k.sp with report := k.sp.report ++ [reportWrite (k.slotAddr slot + 0x106) [0] [.pscDone]] ++
        [reportWrite (k.lay.mapBase + 0x200 + slot / 8) [mapByte m (slot / 8)] [.pscDone]] } } := by
  have h1 : (pscWrite (k.slotAddr slot + 0x106) [0] [] k).psc.newsMap.getLsbD slot = false := h
  simp only [releaseSlot, clearNews_unset h1]
  rfl

/-- RELEASE of a slot whose news bit is 1 (R26). -/
theorem releaseSlot_news {slot : Nat} {k : Chip} (h : k.psc.newsMap.getLsbD slot = true) : releaseSlot slot k =
    let m := mapSet k.psc.holdMap slot false
    let n := mapSet k.psc.newsMap slot false
    { k with
      psc := { k.psc with plates := tblErase k.psc.plates slot, holdMap := m, newsMap := n, outstanding := k.psc.outstanding + 3 }
      dmr := { k.dmr with lists := tblErase k.dmr.lists slot }
      sp := { k.sp with report := k.sp.report ++ [reportWrite (k.slotAddr slot + 0x106) [0] [.pscDone]] ++
        [reportWrite (k.lay.mapBase + 0x240 + slot / 8) [mapByte n (slot / 8)] [.pscDone]] ++
        [reportWrite (k.lay.mapBase + 0x200 + slot / 8) [mapByte m (slot / 8)] [.pscDone]] } } := by
  have h1 : (pscWrite (k.slotAddr slot + 0x106) [0] [] k).psc.newsMap.getLsbD slot = true := h
  simp only [releaseSlot, clearNews_set h1]
  rfl

/-- Settles O17. -/
theorem releaseAndSeen : Obligations.ReleaseAndSeen := by
  intro s slot q hf
  obtain ⟨-, -, hout, -⟩ := (pscFree_iff _).mp hf
  have hout : (s.chip.popped q).psc.outstanding = 0 := hout
  refine ⟨fun p hp hpl ht => ?_, fun hp => ?_⟩
  · have held : (s.chip.popped q).plate slot = some p := hpl
    rw [exec_release hp hf, takeRelease, held]
    simp only [ht, if_true]
    cases hn : (s.chip.popped q).psc.newsMap.getLsbD slot
    · have hn' : s.chip.psc.newsMap.getLsbD slot = false := hn
      rw [releaseSlot_read hn, hout]
      simp only [hn', Bool.false_eq_true, if_false, List.append_nil]
      rfl
    · have hn' : s.chip.psc.newsMap.getLsbD slot = true := hn
      rw [releaseSlot_news hn, hout]
      simp only [hn', if_true]
      rfl
  · rw [exec_seen hp hf, takeSeen]
    cases hn : (s.chip.popped q).psc.newsMap.getLsbD slot
    · have hn' : s.chip.psc.newsMap.getLsbD slot = false := hn
      rw [clearNews_unset hn]
      simp only [hn', Bool.false_eq_true, if_false]
    · have hn' : s.chip.psc.newsMap.getLsbD slot = true := hn
      rw [clearNews_set hn, hout]
      simp only [hn', if_true]
      rfl

end Sys2Proof.Machine
end

