-- ==== Sys2Proof/Proofs/HostAccess.lean ====
section
/-! SUPPORT. A span split into transfers, and a host access as transfers of the HOST client (O27). -/

namespace Sys2Proof.Machine

/-! ### The pieces of a span (R28) -/

/-- A piece does not cross a 4 KiB boundary. -/
def WithinPage (x : Nat × Nat) : Prop := 0 < x.2 ∧ x.1 % 4096 + x.2 ≤ 4096

theorem piecesAux_empty (f a : Nat) : piecesAux f a 0 = [] := by
  cases f <;> simp [piecesAux]

/-- A span that is not empty starts with the piece up to the next boundary or its end. -/
theorem piecesAux_succ {f a n : Nat} (hn : 0 < n) (ha : a < storeSize) : piecesAux (f + 1) a n =
    (a, min n (4096 - a % 4096)) :: piecesAux f (a + min n (4096 - a % 4096)) (n - min n (4096 - a % 4096)) := by
  rw [piecesAux, if_neg (by omega), Nat.mod_eq_of_lt ha]

/-- With fuel for every boundary in the span, the pieces stay within pages and cover the span in order. -/
theorem piecesAux_spec (f a n : Nat) (hf : n = 0 ∨ n + a % 4096 ≤ 4096 * f) (hs : a + n ≤ storeSize) :
    (∀ x ∈ piecesAux f a n, WithinPage x) ∧ (piecesAux f a n).flatMap (fun x => List.range' x.1 x.2) = List.range' a n := by
  induction f generalizing a n with
  | zero =>
    obtain rfl : n = 0 := by omega
    simp [piecesAux]
  | succ f ih =>
    rcases Nat.eq_zero_or_pos n with rfl | hn
    · simp [piecesAux_empty]
    · have ha : a < storeSize := by omega
      obtain ⟨m, hm⟩ : ∃ m, min n (4096 - a % 4096) = m := ⟨_, rfl⟩
      rw [piecesAux_succ hn ha, hm]
      obtain ⟨within, covers⟩ := ih (a + m) (n - m) (by omega) (by omega)
      refine ⟨?_, ?_⟩
      · rintro x (_ | ⟨_, hx⟩)
        · exact ⟨by dsimp only; omega, by dsimp only; omega⟩
        · exact within x hx
      · rw [List.flatMap_cons, covers, List.range'_append_1, Nat.add_sub_cancel' (by omega)]

theorem pieces_fuel (a n : Nat) : n + a % 4096 ≤ 4096 * (n / 4096 + 2) := by omega

theorem pieces_within {a n : Nat} (h : a + n ≤ storeSize) : ∀ x ∈ pieces a n, WithinPage x :=
  (piecesAux_spec _ a n (.inr (pieces_fuel a n)) h).1

theorem pieces_cover {a n : Nat} (h : a + n ≤ storeSize) : (pieces a n).flatMap (fun x => List.range' x.1 x.2) = List.range' a n :=
  (piecesAux_spec _ a n (.inr (pieces_fuel a n)) h).2

theorem pieces_head {a n : Nat} (hn : 0 < n) (h : a + n ≤ storeSize) : (pieces a n).head? = some (a, min n (4096 - a % 4096)) := by
  rw [pieces, piecesAux_succ hn (by omega), List.head?_cons]

/-- The lengths of the pieces sum up to the span's. -/
theorem pieces_total {a n : Nat} (h : a + n ≤ storeSize) : ((pieces a n).map (·.2)).sum = n := by
  have := congrArg List.length (pieces_cover h)
  simpa [List.length_flatMap] using this

/-! ### A write's bytes over its pieces -/

theorem splitData_spec (ps : List (Nat × Nat)) (d : List Byte) (h : (ps.map (·.2)).sum = d.length) :
    (splitData ps d).map (fun x => (x.1, x.2.length)) = ps ∧ (splitData ps d).flatMap (·.2) = d := by
  induction ps generalizing d with
  | nil =>
    rw [List.map_nil, List.sum_nil] at h
    simp [splitData, List.length_eq_zero_iff.mp h.symm]
  | cons x ps ih =>
    obtain ⟨a, n⟩ := x
    rw [List.map_cons, List.sum_cons] at h
    obtain ⟨lengths, bytes⟩ := ih (d.drop n) (by rw [List.length_drop]; omega)
    refine ⟨?_, ?_⟩
    · rw [splitData, List.map_cons, lengths, List.length_take, Nat.min_eq_left (by omega)]
    · rw [splitData, List.flatMap_cons, bytes, List.take_append_drop]

/-! ### The host's access -/

/-- An access inside the store joins the tail of the HOST client's queue. -/
theorem exec_hostAccess_inside {op : HostOp} {s : State} (hl : s.chip.regs.linkUp = true) (hp : pastStore op = false) :
    exec (.hostAccess op) s =
      .next { s with chip := { s.chip with sp := { s.chip.sp with host := s.chip.sp.host ++ hostTransfers op } } } := by
  show execHostAccess op s = _
  rw [execHostAccess, hl, hp, issueAll_host _ (fun t ht => (hostTransfers_ofHost op t ht).1)]
  rfl

theorem exec_hostAccess_past {op : HostOp} {s : State} (hl : s.chip.regs.linkUp = true) (hp : pastStore op = true) :
    exec (.hostAccess op) s = .fault .noSuchAddress := by
  show execHostAccess op s = _
  rw [execHostAccess, hl, hp]
  rfl

/-- Settles O27. -/
theorem hostAccessJoins : Obligations.HostAccessJoins := by
  refine ⟨fun a n h => ⟨pieces_within h, pieces_cover h, fun hn => pieces_head hn h⟩, fun s op hl => ?_,
    fun s a n hl h => exec_hostAccess_past hl (decide_eq_true h), fun s a d hl h => exec_hostAccess_past hl (decide_eq_true h),
    fun s a n hl h => ⟨pieces a.toNat n, ?_, pieces_within h, pieces_cover h⟩,
    fun s a d hl h => ⟨splitData (pieces a.toNat d.length) d, ?_, ?_, ?_, ?_⟩⟩
  · show execHostAccess op s = _
    rw [execHostAccess, hl]
    rfl
  · exact exec_hostAccess_inside hl (decide_eq_false (Nat.not_lt.mpr h))
  · exact exec_hostAccess_inside hl (decide_eq_false (Nat.not_lt.mpr h))
  all_goals
    obtain ⟨lengths, bytes⟩ := splitData_spec (pieces a.toNat d.length) d (pieces_total h)
  · intro x hx
    have hx : (x.1, x.2.length) ∈ pieces a.toNat d.length := by
      rw [← lengths]
      exact List.mem_map_of_mem hx
    obtain ⟨pos, within⟩ := pieces_within h _ hx
    exact ⟨List.ne_nil_of_length_pos pos, within⟩
  · have cover := pieces_cover h
    rw [← lengths, List.flatMap_map] at cover
    exact cover
  · exact bytes

end Sys2Proof.Machine
end

