-- ==== Sys2Proof/Proofs/Granting.lean ====
section
/-! SUPPORT. The fence check, and what a grant serves (O21, O22). -/

namespace Sys2Proof.Machine

/-! ### The fence (R33–R37) -/

theorem cached_none {c : List CacheEntry} {d n : Nat} (h : ∀ e ∈ c, ¬(e.domain = d ∧ e.word = n)) : cached c d n = none := by
  rw [cached, Option.map_eq_none_iff, List.find?_eq_none]
  simpa using h

/-- The one entry for a word of a domain is the one found. -/
theorem cached_of_unique {c : List CacheEntry} {e : CacheEntry} (he : e ∈ c)
    (hu : ∀ x ∈ c, x.domain = e.domain → x.word = e.word → x = e) : cached c e.domain e.word = some e.value := by
  cases hf : c.find? (fun x => decide (x.domain = e.domain) && decide (x.word = e.word)) with
  | none => simpa using List.find?_eq_none.mp hf e he
  | some x =>
    have hx := List.find?_some hf
    simp only [Bool.and_eq_true, decide_eq_true_eq] at hx
    rw [cached, hf, hu x (List.mem_of_find?_eq_some hf) hx.1 hx.2, Option.map_some]

theorem inWindow_iff (d : DomainSettings) (a : Nat) : inWindow d a = true ↔ d.base ≤ a ∧ a < d.base + 67108864 * 2 ^ d.exponent := by
  simp only [inWindow, Bool.and_eq_true, decide_eq_true_eq]
  rfl

/-- Settles O21. -/
theorem fenceCheckRule : Obligations.FenceCheckRule := by
  refine ⟨fun k t => ⟨fun h => by rw [checkTransfer, h], fun m h => by rw [checkTransfer, h]⟩, fun p m addr => ?_⟩
  refine ⟨fun hv => ?_, fun hv hi => ?_, fun hv hi hc => ?_, fun e he hv hi hd hw hu => ?_⟩
  · have valid : (p.domain (domainOf p m)).valid = false := hv
    simp [fenceCheck, valid]
  all_goals have valid : (p.domain (domainOf p m)).valid = true := hv
  · have outside : inWindow (p.domain (domainOf p m)) addr = false := by
      rw [← Bool.not_eq_true, inWindow_iff]
      exact hi
    simp only [fenceCheck, valid, outside]
    rfl
  all_goals have inside : inWindow (p.domain (domainOf p m)) addr = true := (inWindow_iff _ _).mpr hi
  · have miss : cached p.cache (domainOf p m) (pageIndex (p.domain (domainOf p m)) addr / 64) = none := cached_none hc
    simp only [fenceCheck, valid, inside, miss]
    rfl
  · have hd : e.domain = domainOf p m := hd
    have hw : e.word = pageIndex (p.domain (domainOf p m)) addr / 64 := hw
    have hit : cached p.cache (domainOf p m) (pageIndex (p.domain (domainOf p m)) addr / 64) = some e.value := by
      have found := cached_of_unique he (fun x hx h1 h2 => hu x hx (h1.trans hd) (h2.trans hw))
      rwa [hw, hd] at found
    simp only [fenceCheck, valid, inside, hit]
    rfl

/-! ### A fence map word as its bytes -/

/-- The number that little-endian bytes spell. -/
def numberOf : List Byte → Nat
  | [] => 0
  | b :: bs => 256 * numberOf bs + b.toNat

theorem testBit_numberOf (bs : List Byte) (i : Nat) : (numberOf bs).testBit i = (bs.getD (i / 8) 0).getLsbD (i % 8) := by
  induction bs generalizing i with
  | nil => simp [numberOf]
  | cons b bs ih =>
    rw [numberOf, show (256 : Nat) = 2 ^ 8 from rfl, Nat.testBit_two_pow_mul_add _ b.isLt]
    split
    · rename_i h
      rw [Nat.div_eq_of_lt h, Nat.mod_eq_of_lt h, List.getD_cons_zero, BitVec.getLsbD]
    · obtain ⟨j, rfl⟩ : ∃ j, i = j + 8 := ⟨i - 8, by omega⟩
      rw [Nat.add_sub_cancel, ih, Nat.add_div_right _ (by decide), Nat.add_mod_right, List.getD_cons_succ]

/-- Bit i of a fence map word is bit i mod 8 of its byte i / 8 (R34). -/
theorem fenceWordAt_bit (m : Memory) (a : Nat) {i : Nat} (hi : i < 64) :
    (fenceWordAt (m.readBytes a 8)).getLsbD i = (Memory.read m (a + i / 8)).getLsbD (i % 8) := by
  have number : u32 (m.readBytes a 8) 0 + 4294967296 * u32 (m.readBytes a 8) 4 = numberOf (m.readBytes a 8) := by
    simp only [u32, u16, u8, Memory.readBytes, List.range, List.range.loop, List.map, List.getD_cons_zero, List.getD_cons_succ, numberOf]
    ring
  have byte : (m.readBytes a 8).getD (i / 8) 0 = Memory.read m (a + i / 8) := by
    rw [List.getD_eq_getElem?_getD, Memory.readBytes, List.getElem?_map, List.getElem?_range (by omega)]
    rfl
  rw [fenceWordAt, BitVec.getLsbD_ofNat, number, testBit_numberOf, byte]
  simp [hi]

/-! ### The writes of POST behind a host transfer (log 44) -/

theorem fewerAhead_far {l : List (Nat × Word)} (h : ∀ p ∈ l, 2 ≤ p.1) : ∀ p ∈ fewerAhead l, p.1 ≠ 0 := by
  intro p hp
  obtain ⟨q, hq, rfl⟩ := List.mem_map.mp hp
  have := h q hq
  dsimp only
  omega

/-- The writes whose turn comes are those at distance 1, and the others stay, one nearer. -/
theorem hostServed_eq {k : Chip} {ws : List Word} {rest : List (Nat × Word)} (hp : k.sp.posts = ws.map (fun w => (1, w)) ++ rest)
    (hr : ∀ p ∈ rest, 2 ≤ p.1) :
    hostServed k = ws.foldl (fun a w => takePost w a) (k.setSp { k.sp with posts := fewerAhead rest }) := by
  have split : fewerAhead k.sp.posts = ws.map (fun w => (0, w)) ++ fewerAhead rest := by
    simp [hp, fewerAhead]
  have due : (fewerAhead k.sp.posts).filter (fun p => decide (p.1 = 0)) = ws.map (fun w => (0, w)) := by
    rw [split, List.filter_append, List.filter_eq_self.mpr (by simp), List.filter_eq_nil_iff.mpr, List.append_nil]
    simpa using fewerAhead_far hr
  have later : (fewerAhead k.sp.posts).filter (fun p => decide (p.1 ≠ 0)) = fewerAhead rest := by
    rw [split, List.filter_append, List.filter_eq_nil_iff.mpr (by simp), List.filter_eq_self.mpr, List.nil_append]
    simpa using fewerAhead_far hr
  unfold hostServed
  simp only [due, later, List.foldl_map]

/-- Words that have room in the queue of a working part are all taken (R18). -/
theorem takePosts_room (ws : List Word) (k : Chip) (hw : k.working = true) (hl : k.pd.postQueue.length + ws.length ≤ 64) :
    ws.foldl (fun a w => takePost w a) k = k.setPd { k.pd with postQueue := k.pd.postQueue ++ ws } := by
  induction ws generalizing k with
  | nil => rw [List.append_nil]; rfl
  | cons w ws ih =>
    rw [List.length_cons] at hl
    obtain ⟨-, -, taken⟩ | ⟨lost, -⟩ := takePost_cases w k
    · have length : (k.setPd { k.pd with postQueue := k.pd.postQueue ++ [w] }).pd.postQueue.length + ws.length ≤ 64 := by
        rw [Chip.setPd_pd, List.length_append, List.length_singleton]
        omega
      rw [List.foldl_cons, taken, ih (k.setPd { k.pd with postQueue := k.pd.postQueue ++ [w] }) hw length]
      simp only [Chip.setPd, List.append_assoc, List.singleton_append]
    · rw [hw] at lost
      rcases lost with h | h
      · cases h
      · omega

/-! ### Serving -/

/-- What a byte reads as after a transfer has been served (R28, R39). -/
theorem serveStore_read (t : Transfer) (m : Memory) (a : Nat) : Memory.read (serveStore t m) a = match t.op with
    | .read _ => Memory.read m a
    | .write d => if t.addr ≤ a ∧ a < t.addr + d.length then d.getD (a - t.addr) 0 else Memory.read m a := by
  rw [serveStore]
  cases t.op with
  | read n => rfl
  | write d => exact Memory.read_write m t.addr d a

/-- A check sees the domains, the streams and the cache, which a grant does not change. -/
theorem checkTransfer_dequeue (c : Client) (pos : Nat) (k : Chip) (t : Transfer) :
    checkTransfer (dequeue c pos k) t = checkTransfer k t := by
  cases c <;> rfl

theorem grant_of_granted {s : State} {t : Transfer} {c : Client} {pos : Nat} (h : granted s.chip = some (t, c, pos)) :
    exec .transferGrant s = .next ((s.setStore (grantStore t s.store (dequeue c pos s.chip))).setChip
      (grantChip t s.store (dequeue c pos s.chip))) := by
  show Host.Outcome.next (grant s) = _
  rw [grant, h]

theorem setWaiting_posts (p : StorePort) (c : Client) (l : List Transfer) : (p.setWaiting c l).posts = p.posts := by cases c <;> rfl

/-- A served transfer has left its queue and waits for its completion. -/
theorem noteServed_dequeue (t : Transfer) (m : Memory) (c : Client) (pos : Nat) (k : Chip) : noteServed t m (dequeue c pos k) =
    { k with sp := { k.sp.setWaiting c ((k.sp.waiting c).drop 1) with
      weightPos := pos, served := k.sp.served ++ [{ xfer := t, data := servedData t m }] } } := by
  cases c <;> rfl

/-- Settles O22. -/
theorem grantServes : Obligations.GrantServes := by
  refine ⟨fun s h => ?_, fun s t c pos d w h hc => ?_, fun s t c pos h hc => ?_⟩
  · show Host.Outcome.next (grant s) = _
    rw [grant, h]
  · refine ⟨fenceWordAt (s.store.readBytes (fenceWordAddr s.chip.lay.fenceBase d w) 8), fun i hi => fenceWordAt_bit _ _ hi, ?_⟩
    have check := (checkTransfer_dequeue c pos s.chip t).trans hc
    rw [grant_of_granted h, grantStore, grantChip, check]
    rfl
  · have check := (checkTransfer_dequeue c pos s.chip t).trans hc
    refine ⟨_, grant_of_granted h, rfl, ?_⟩
    rw [grantStore, grantChip, check]
    have posts : (noteServed t s.store (dequeue c pos s.chip)).sp.posts = s.chip.sp.posts := by
      rw [noteServed_dequeue]
      exact setWaiting_posts _ _ _
    refine ⟨fun hh => ?_, fun hh hp => ?_, fun ws rest hh hp hr hw hl => ?_, fun w rest hh hp hr hw => ?_, fun a => serveStore_read t s.store a⟩
    · simp only [State.setChip_chip, serve, hh, if_false]
      exact noteServed_dequeue t s.store c pos s.chip
    all_goals simp only [State.setChip_chip, serve, hh, if_true]
    · rw [hostServed_eq (ws := []) posts hp, noteServed_dequeue]
      rfl
    · have taken := takePosts_room ws ((noteServed t s.store (dequeue c pos s.chip)).setSp
        { (noteServed t s.store (dequeue c pos s.chip)).sp with posts := fewerAhead rest }) hw hl
      rw [hostServed_eq (posts.trans hp) hr, taken, noteServed_dequeue]
      rfl
    · rw [hostServed_eq (ws := [w]) (posts.trans hp) hr, List.foldl_cons, List.foldl_nil]
      obtain ⟨working, room, -⟩ | ⟨-, lost⟩ := takePost_cases w
        ((noteServed t s.store (dequeue c pos s.chip)).setSp
          { (noteServed t s.store (dequeue c pos s.chip)).sp with posts := fewerAhead rest })
      · rcases hw with hw | hw
        · cases hw.symm.trans working
        · exact absurd room (Nat.not_lt.mpr hw)
      · rw [lost, noteServed_dequeue]
        rfl

end Sys2Proof.Machine
end

