-- ==== Sys2Proof/Proofs/Completing.lean ====
section
/-! SUPPORT. What a completed transfer brings and how the layout read ends (O25, O28). -/

namespace Sys2Proof.Machine

/-- The oldest served transfer of a client has completed. -/
theorem transferComplete_some {c : Client} {k : Chip} {x : Served} {rest : List Served} (h : takeServed c k.sp.served = some (x, rest)) :
    transferComplete c k =
      if k.pd.runState = .halted ∧ c ≠ .host then k.setSp { k.sp with served := rest }
      else x.xfer.notices.foldl (fun a n => deliverNotice n a) (deliverData x.xfer x.data (k.setSp { k.sp with served := rest })) := by
  rw [transferComplete, h]

theorem transferComplete_live {c : Client} {k : Chip} {x : Served} {rest : List Served} (h : takeServed c k.sp.served = some (x, rest))
    (hr : k.pd.runState = .halted → c = .host) : transferComplete c k =
      x.xfer.notices.foldl (fun a n => deliverNotice n a) (deliverData x.xfer x.data (k.setSp { k.sp with served := rest })) := by
  rw [transferComplete_some h, if_neg (fun hc => hc.2 (hr hc.1))]

/-- A write of PSC's that is not its last, or that finds PSC with nothing left to do, changes the count alone. -/
theorem pscWriteDone_quiet {k : Chip} (h : 2 ≤ k.psc.outstanding ∨ (k.psc.work = [] ∧ k.psc.due = [])) :
    pscWriteDone k = k.setPsc { k.psc with outstanding := k.psc.outstanding - 1 } := by
  rcases h with h | ⟨hw, hd⟩
  · refine pscGo_blocked _ ?_
    have left : k.psc.outstanding - 1 ≠ 0 := by omega
    simp [pscBlocked, left]
  · exact pscGo_idle _ hw hd

/-- Settles O25. -/
theorem completionDelivers : Obligations.CompletionDelivers := by
  intro s c
  have run : exec (.transferComplete c) s = .next (s.setChip (transferComplete c s.chip)) := rfl
  refine ⟨fun h => ?_, fun x rest h => ⟨fun hr hc => ?_, fun hc hx => ?_, fun hr hq => ⟨?_, fun hn ho => ?_⟩⟩⟩
  · rw [run, transferComplete, h]
    rfl
  · rw [run, transferComplete_some h, if_pos ⟨hr, hc⟩]
    rfl
  · obtain ⟨-, hpurpose, hnotices⟩ := hx
    rw [run, transferComplete_live h (fun _ => hc), hnotices, deliverData, hpurpose]
    cases hop : x.xfer.op <;> simp only [List.foldl_nil, XferOp.isWrite] <;> rfl
  · rw [run, transferComplete_live h (fun e => absurd e hr), deliverData, hq]
    refine congrArg (fun f => Host.Outcome.next (s.setChip (x.xfer.notices.foldl f (s.chip.setSp { s.chip.sp with served := rest }))))
      (funext fun a => funext fun n => ?_)
    cases n <;> rfl
  · rw [run, transferComplete_live h (fun e => absurd e hr), deliverData, hq, hn]
    exact congrArg (fun k => Host.Outcome.next (s.setChip k)) (pscWriteDone_quiet ho)

/-! ### The START checks on the layout record (R3–R6, R8) -/

theorem inRange_iff (lo hi v : Nat) : inRange lo hi v = true ↔ lo ≤ v ∧ v ≤ hi := by
  simp only [inRange, Bool.and_eq_true, decide_eq_true_eq]

theorem overlap_iff (a b : Nat × Nat) : overlap a b = false ↔ a.1 + a.2 ≤ b.1 ∨ b.1 + b.2 ≤ a.1 := by
  simp only [overlap, Bool.and_eq_false_iff, decide_eq_false_iff_not, Nat.not_lt]
  exact or_comm

theorem anyOverlap_iff (l : List (Nat × Nat)) :
    anyOverlap l = true ↔ ¬l.Pairwise (fun a b => a.1 + a.2 ≤ b.1 ∨ b.1 + b.2 ≤ a.1) := by
  rw [← Bool.not_eq_false, not_iff_not]
  induction l with
  | nil => simp [anyOverlap]
  | cons a l ih => simp only [anyOverlap, Bool.or_eq_false_iff, List.any_eq_false, Bool.not_eq_true, overlap_iff, ih, List.pairwise_cons]

theorem formatValid_iff (f : PlateFormat) : formatValid f = true ↔ 8192 ≤ f.width ∧ f.width ≤ 32768 ∧ f.width % 64 = 0 ∧ 64 ≤ f.rows ∧
    f.rows ≤ 49152 ∧ f.rows % 64 = 0 ∧ f.lead ≤ 24576 ∧ f.lead + f.width ≤ 32768 ∧ f.cassette ≤ 7 := by
  simp only [formatValid, Bool.and_eq_true, inRange_iff, decide_eq_true_eq]
  omega

theorem settingsInRange_iff (r : LayoutRecord) : settingsInRange r = true ↔
    1 ≤ r.cellCount ∧ r.cellCount ≤ 4096 ∧ 1 ≤ r.slotCount ∧ r.slotCount ≤ 512 ∧ r.slipTolerance ≤ 15 ∧
      1 ≤ r.speedWindow ∧ r.speedWindow ≤ 5 ∧ 1 ≤ r.settleCount ∧ r.settleCount ≤ 15 ∧ r.holdLimit ≤ 255 ∧ r.lateLead ≤ 3600 ∧
      1 ≤ r.weight ∧ r.weight ≤ 15 := by
  simp only [settingsInRange, Bool.and_eq_true, inRange_iff]
  omega

theorem unitLegal_iff (u : UnitSettings) (i : Nat) : unitLegal u (decide (2 ≤ i)) = true ↔
    10 ≤ u.pollInterval ∧ u.pollInterval ≤ 1000 ∧ 10 ≤ u.busyRetry ∧ u.busyRetry ≤ 1000 ∧
      1 ≤ u.busyLimit ∧ u.busyLimit ≤ 255 ∧ 1 ≤ u.timeout ∧ u.timeout ≤ 600 ∧
      (u.policy = .fault ∨ (u.policy = .assumeDone ∧ 2 ≤ i)) := by
  simp only [unitLegal, Bool.and_eq_true, inRange_iff]
  cases u.policy <;> simp <;> tauto

theorem domainLegal_iff (d : DomainSettings) : domainLegal d = true ↔
    ¬(d.valid = true ∧ ¬(d.base % 67108864 = 0 ∧ d.exponent ≤ 6 ∧ d.base + 67108864 * 2 ^ d.exponent ≤ 4294967296)) := by
  cases hv : d.valid
  · simp [domainLegal, hv]
  · simp only [domainLegal, hv, Bool.not_true, Bool.false_or, Bool.and_eq_true, decide_eq_true_eq, not_not, true_and, and_assoc]
    rfl

theorem streamLegal_iff (m : StreamMapping) : streamLegal m = true ↔ ¬(m.mapped = true ∧ 3 < m.domain) := by
  cases hm : m.mapped <;> simp [streamLegal, hm]

/-- The number of the first of some findings that is set, counted from `n`; 0 when none is. -/
def firstSet : Nat → List Bool → Nat
  | _, [] => 0
  | n, b :: l => if b then n else firstSet (n + 1) l

/-- Findings that say which numbered checks fail give the first one that fails. -/
theorem firstSet_first {fails : Nat → Prop} (l : List Bool) (n : Nat) (before : ∀ i < n, ¬fails i)
    (at_ : ∀ i b, l[i]? = some b → (fails (n + i) ↔ b = true)) (after : ∀ i, n + l.length ≤ i → ¬fails i) :
    firstFailing fails (firstSet n l) := by
  induction l generalizing n with
  | nil => exact .inl ⟨rfl, fun i => (Nat.lt_or_ge i n).elim (before i) (after i)⟩
  | cons b l ih =>
    have head : fails n ↔ b = true := at_ 0 b rfl
    cases b with
    | true => exact .inr ⟨head.mpr rfl, before⟩
    | false =>
      refine ih (n + 1) (fun i hi => ?_) (fun i b hb => ?_) (fun i hi => after i (by rw [List.length_cons]; omega))
      · rcases Nat.lt_succ_iff_lt_or_eq.mp hi with h | rfl
        · exact before i h
        · exact fun h => nomatch head.mp h
      · rw [Nat.add_assoc, Nat.add_comm 1]
        exact at_ (i + 1) b hb

theorem startCheck_eq (r : LayoutRecord) : startCheck r = firstSet 1
    [decide (r.formatWord ≠ 0x00640C01#32), !settingsInRange r, !areasLegal r, anyOverlap (areas r), !r.formats.all formatValid,
      !(r.units.zipIdx.all (fun e => unitLegal e.1 (decide (2 ≤ e.2)))), !(r.domains.all domainLegal && r.streams.all streamLegal)] := by
  simp only [startCheck, firstSet, decide_eq_true_eq]

theorem units_illegal_iff (l : List UnitSettings) : (!(l.zipIdx.all (fun e => unitLegal e.1 (decide (2 ≤ e.2))))) = true ↔
    ∃ i u, l[i]? = some u ∧ ¬unitLegal u (decide (2 ≤ i)) = true := by
  simp only [Bool.not_eq_true', List.all_eq_false, Prod.exists, List.mem_zipIdx_iff_getElem?]
  exact exists_comm

theorem areasLegal_iff (r : LayoutRecord) :
    (!areasLegal r) = true ↔ ∃ a ∈ areas r, a.1 % 4096 ≠ 0 ∨ 4294967296 < a.1 + a.2 := by
  simp only [areasLegal, Bool.not_eq_true', List.all_eq_false, Bool.and_eq_true, decide_eq_true_eq, not_and_or, Nat.not_le]
  rfl

theorem areas_eq (r : LayoutRecord) : areas r = [(0, 4096), (r.cellBase, 65536 * r.cellCount), (r.pageBase, 67108864),
    (r.slotBase, (1024 * r.slotCount + 4095) / 4096 * 4096), (r.bandBase, 4194304), (r.tableBase, 2097152), (r.mapBase, 4096),
    (r.statusBase, 4096), (r.fenceBase, 524288)] := by
  rw [areas, Nat.mul_comm 4096]

/-! ### The empty state (R7 (4), (5)) -/

theorem issueAll_append (a b : List Transfer) (k : Chip) : issueAll (a ++ b) k = issueAll b (issueAll a k) := List.foldl_append

/-- The writes of the empty state through IU-write: the cell map and the page headers. -/
def startIntakeWrites (r : LayoutRecord) : List Transfer :=
  startWrite (iuWrite r.mapBase (List.replicate (mapBytes r.cellCount) 0) []) ::
    (List.range 1024).map (fun i => startWrite (iuWrite (r.pageBase + 65536 * i) retiredHeader []))

/-- Those through REPORT-write: both slot maps and the status block. -/
def startReportWrites (r : LayoutRecord) (f : FaultRecord) : List Transfer :=
  [startWrite (reportWrite (r.mapBase + 0x200) (List.replicate (mapBytes r.slotCount) 0) []),
   startWrite (reportWrite (r.mapBase + 0x240) (List.replicate (mapBytes r.slotCount) 0) []),
   startWrite (reportWrite r.statusBase (faultBytes f) [])]

theorem startWrites_eq (r : LayoutRecord) (f : FaultRecord) : startWrites r f = startIntakeWrites r ++ startReportWrites r f := by
  simp only [startWrites, startIntakeWrites, startReportWrites, List.map_append, List.map_map, List.map_cons, List.map_nil,
    List.cons_append, List.nil_append, Function.comp_def]

theorem startWrites_length (r : LayoutRecord) (f : FaultRecord) : (startWrites r f).length = 1028 := by
  simp [startWrites_eq, startIntakeWrites, startReportWrites]

theorem startIntakeWrites_client (r : LayoutRecord) : ∀ t ∈ startIntakeWrites r, t.client = .iu := by
  simp [startIntakeWrites, startWrite, iuWrite]

theorem startReportWrites_client (r : LayoutRecord) (f : FaultRecord) : ∀ t ∈ startReportWrites r f, t.client = .report := by
  simp [startReportWrites, startWrite, reportWrite]

/-- A record that passes its checks is taken up, and the empty state is written. -/
theorem takeUpLayout_eq (r : LayoutRecord) (k : Chip) : takeUpLayout r k =
    let f := { k.dmr.record with valid := false, overflow := false }
    { k with
      pd := { k.pd with layout := some r, phase := .writes, startWrites := 1028 }
      regs := { k.regs with faultValid := false, faultOverflow := false }
      dmr := { k.dmr with record := f }
      sp := { k.sp with
        domains := r.domains, streams := r.streams, weight := r.weight, weightPos := 0, cache := []
        iu := k.sp.iu ++ startIntakeWrites r, report := k.sp.report ++ startReportWrites r f } } := by
  simp only [takeUpLayout, startWrites_length]
  rw [startWrites_eq, issueAll_append, issueAll_iu _ _ (startIntakeWrites_client r), issueAll_report _ (startReportWrites_client r _)]
  rfl

/-- In STARTING, while the record is read, its checks decide (R7 (3), R8). -/
theorem layoutRead_starting {r : LayoutRecord} {k : Chip} (h : k.pd.runState = .starting ∧ k.pd.phase = .layoutRead) :
    layoutRead r k = if startCheck r = 0 then takeUpLayout r k else startFailed (startCheck r) 0 k := if_pos h

/-- Settles O28. -/
theorem layoutReadEnds : Obligations.LayoutReadEnds := by
  refine ⟨fun r => ?_, fun s r => ⟨fun h => ?_, fun hr hp => ⟨fun hc => ?_, fun hc => ?_⟩⟩⟩
  · intro area fails
    rw [startCheck_eq]
    refine firstSet_first _ 1 (fun i hi => ?_) (fun i b hb => ?_) (fun i hi => ?_)
    · obtain rfl : i = 0 := by omega
      exact id
    · match i, hb with
      | 0, rfl =>
        rw [decide_eq_true_iff]
        rfl
      | 1, rfl => rw [Bool.not_eq_true', ← Bool.not_eq_true, settingsInRange_iff]; rfl
      | 2, rfl => rw [areasLegal_iff, areas_eq]; rfl
      | 3, rfl => rw [anyOverlap_iff, areas_eq]; rfl
      | 4, rfl =>
        simp only [Bool.not_eq_true', List.all_eq_false, formatValid_iff]
        rfl
      | 5, rfl =>
        simp only [units_illegal_iff, unitLegal_iff]
        rfl
      | 6, rfl =>
        simp only [Bool.not_eq_true', Bool.and_eq_false_iff, List.all_eq_false, domainLegal_iff, streamLegal_iff, not_not]
        rfl
    · match i, hi with
      | j + 8, _ => exact id
  all_goals have run : exec (.layoutReadComplete r) s = .next (s.setChip (layoutRead r s.chip)) := rfl
  · rw [run, layoutRead, if_neg h]
    rfl
  · rw [run, layoutRead_starting ⟨hr, hp⟩, if_neg hc, startFailed, losePosts]
    simp only [List.isEmpty_iff]
    rfl
  · refine ⟨_, run, rfl, rfl, ?_⟩
    rw [layoutRead_starting ⟨hr, hp⟩, if_pos hc, takeUpLayout_eq]
    exact ⟨rfl, rfl, rfl, rfl, rfl, rfl, rfl, rfl, rfl, rfl, rfl, rfl⟩

end Sys2Proof.Machine
end

