-- ==== Sys2Proof/Proofs/ExposeEnable.lean ====
section
/-! SUPPORT. EXPOSE_ENABLE rises and falls (O7). -/

namespace Sys2Proof.Machine

/-! ### RUN and EXPOSE_ENABLE apart -/

theorem writeRun_same {run : Bool} {k : Chip} (h : run = k.regs.run) : writeRun run k = k := by
  subst h
  cases hr : k.regs.run <;> simp only [writeRun, hr] <;> exact congrArg (fun b => k.setRegs { k.regs with run := b }) hr.symm

theorem writeExposeEnable_same {en : Bool} {k : Chip} (h : en = k.regs.exposeEnable) : writeExposeEnable en k = k := by
  rw [writeExposeEnable_of_not_falling (fun he => h.trans he), h]
  rfl

/-- What a write of EXPOSE_ENABLE leaves in CONTROL, and the link. -/
theorem writeExposeEnable_regs (en : Bool) (k : Chip) :
    (writeExposeEnable en k).regs.run = k.regs.run ∧ (writeExposeEnable en k).regs.exposeEnable = en ∧
      (writeExposeEnable en k).regs.linkUp = k.regs.linkUp := by
  obtain ⟨-, hplain, -, -⟩ := Chip.ctl_eq_iff.mp (writeExposeEnable_ctl en k)
  obtain ⟨hrun, hen, -, -, hlink, -⟩ := Registers.plain_eq_iff.mp hplain
  exact ⟨hrun, hen, hlink⟩

/-- A write that keeps RUN stores EXPOSE_ENABLE alone. -/
theorem controlWrite_keepsRun {v : Word} {k : Chip} (hl : k.regs.linkUp = true) (hr : v.getLsbD 1 = false)
    (h0 : v.getLsbD 0 = k.regs.run) : controlWrite v k = writeExposeEnable (v.getLsbD 2) k := by
  rw [controlWrite_up hl hr, writeRun_same (h0.trans (writeExposeEnable_regs _ _).1.symm)]

/-! ### The fall of EXPOSE_ENABLE (R165) -/

/-- The fall of a set EXPOSE_ENABLE, the part not HALTED. -/
theorem writeExposeEnable_falls {k : Chip} (he : k.regs.exposeEnable = true) (hr : k.pd.runState ≠ .halted) :
    writeExposeEnable false k = interlockFall (k.setRegs { k.regs with exposeEnable := false }) := by
  simp [writeExposeEnable, he, hr]

theorem writeExposeEnable_stored {k : Chip} (h : k.regs.exposeEnable = false ∨ k.pd.runState = .halted) :
    writeExposeEnable false k = k.setRegs { k.regs with exposeEnable := false } := by
  rcases h with h | h <;> simp [writeExposeEnable, h]

theorem interlockFall_idle {k : Chip} (h : k.working = false ∨ k.imc.state ≠ .exposing) : interlockFall k = darken k := by
  rcases h with h | h <;> simp [interlockFall, h]

/-- Entry to PAUSED stops the drum and darkens the laser. -/
theorem goTo_paused (k : Chip) : goTo .paused k =
    { k with imc := { k.imc with state := .paused, drumTarget := 0 }, hf := { k.hf with laser := 0 } } := by
  simp only [goTo, setTarget, ne_eq, not_true_eq_false, and_false, if_false]
  rfl

/-- INTERLOCK recorded in EXPOSING pauses the imager at once (R168). -/
theorem recordPause_interlock_exposing {k : Chip} (h : k.imc.state = .exposing) : recordPause .interlock k =
    goTo .paused (raise .pause (k.setImc { k.imc with pauses := { k.imc.pauses with interlock := true } })) := by
  simp only [recordPause, h, or_true, if_true]
  rfl

/-- Before exposure has begun the fall pauses the imager and ends nothing. -/
theorem interlockFall_quiet {k : Chip} (hw : k.working = true) (hx : k.imc.state = .exposing)
    (hn : k.imc.exposure.begun = false ∨ drumPlate k = none) : interlockFall k = recordPause .interlock (darken k) := by
  rcases hn with h | h
  · cases hd : drumPlate k <;> simp [interlockFall, hw, hx, h, hd]
  · simp [interlockFall, hw, hx, h]

/-- With exposure begun the fall ends it, and then pauses the imager. -/
theorem interlockFall_spoils {k : Chip} {p : PlateRef} (hw : k.working = true) (hx : k.imc.state = .exposing)
    (hb : k.imc.exposure.begun = true) (hp : drumPlate k = some p) :
    interlockFall k = recordPause .interlock (endExposure p (some (.interlock, 0)) (darken k)) := by
  simp only [interlockFall, hw, hx, decide_true, Bool.and_self, if_true, hp, hb]

/-- INTERLOCK recorded by an imager that waits to unload, or is PAUSED already. -/
theorem recordPause_interlock {k : Chip} (h : k.imc.state = .unloadWait ∨ k.imc.state = .paused) (ht : k.imc.drumTarget = 0)
    (hl : k.hf.laser = 0) : recordPause .interlock k = (raise .pause k).setImc { k.imc with
      state := .paused, pauses := { k.imc.pauses with interlock := true } } := by
  rcases h with h | h
  · have dark : { k.hf with laser := 0 } = k.hf := by rw [← hl]
    simp only [recordPause, h, goTo_paused]
    simp only [raise, Chip.setRegs, Chip.setImc, dark, ← ht]
    rfl
  · simp only [recordPause, h]
    rw [← h]
    rfl

/-- What the fall comes to in EXPOSING, in either case. -/
def Chip.interlocked (k t : Chip) : Prop :=
  t.hf.laser = 0 ∧ t.imc.state = .paused ∧ t.imc.pauses = { k.imc.pauses with interlock := true } ∧ t.imc.drumTarget = 0 ∧
    t.regs.alert = k.regs.alert ||| 8#8 ∧ t.regs.exposeEnable = k.regs.exposeEnable ∧
    t.pd = k.pd ∧ t.iu = k.iu ∧ t.tl = k.tl ∧ t.hlc = k.hlc

/-- Before exposure has begun nothing but the imager, the laser and the alert change. -/
theorem interlocked_quiet {k : Chip} (hw : k.working = true) (hx : k.imc.state = .exposing)
    (hn : k.imc.exposure.begun = false ∨ drumPlate k = none) : let t := interlockFall k
    k.interlocked t ∧ t.sp = k.sp ∧ t.psc = k.psc ∧ t.dmr = k.dmr ∧ t.br = k.br ∧ t.imc.drum = k.imc.drum := by
  rw [interlockFall_quiet hw hx hn, recordPause_interlock_exposing (show (darken k).imc.state = .exposing from hx), goTo_paused]
  exact ⟨⟨rfl, rfl, rfl, rfl, rfl, rfl, rfl, rfl, rfl, rfl⟩, rfl, rfl, rfl, rfl, rfl⟩

/-- With exposure begun the drum plate is spoiled with mark INTERLOCK. -/
theorem interlocked_spoiled {k : Chip} {d : Drum} {p : PlateRef} (hw : k.working = true) (hx : k.imc.state = .exposing)
    (hb : k.imc.exposure.begun = true) (hd : k.imc.drum = some d) (hp : d.owner = some p) : let t := interlockFall k
    k.interlocked t ∧ t.imc.drum = some { d with cond := .spoiled, confirmed := false } ∧ t.hf.pass = none ∧
      t.psc = { k.psc with inbox := k.psc.inbox ++
        [.exposureEnd p.slot p.attempt p.prep k.imc.exposure.exposed k.imc.exposure.holds] } ∧
      ((k.plate p.slot).isSome = true → (k.marks p.slot).marks.length < 8 →
        (t.marks p.slot).marks = (k.marks p.slot).marks ++
          [{ kind := .interlock, severity := .spoil, charged := false, place := .drum, attempt := p.attempt,
             location := .swath k.imc.exposure.cursor, key := none, detail := 0, time := k.regs.plantClock }]) := by
  obtain ⟨e, -, marks⟩ := endExposure_spoiled (darken k) d p .interlock 0 hd rfl (by decide) (by decide)
  have owned : drumPlate k = some p := by rw [drumPlate, hd]; exact hp
  rw [interlockFall_spoils hw hx hb owned]
  generalize endExposure p (some (.interlock, 0)) (darken k) = j at e marks
  have himc := congrArg Chip.imc e
  have hhf := congrArg Chip.hf e
  have hregs : j.regs = k.regs := (congrArg Chip.regs e).trans rfl
  have hpd : j.pd = k.pd := (congrArg Chip.pd e).trans rfl
  have hiu : j.iu = k.iu := (congrArg Chip.iu e).trans rfl
  have htl : j.tl = k.tl := (congrArg Chip.tl e).trans rfl
  have hhlc : j.hlc = k.hlc := (congrArg Chip.hlc e).trans rfl
  have hpsc := congrArg Chip.psc e
  have laser : j.hf.laser = 0 := by rw [hhf]
  have state : j.imc.state = .unloadWait ∨ j.imc.state = .paused := by
    rw [himc]
    dsimp only
    split
    · exact .inr rfl
    · exact .inl rfl
  rw [recordPause_interlock state (by rw [himc]) (by rw [hhf])]
  refine ⟨⟨laser, rfl, ?_, ?_, ?_, ?_, hpd, hiu, htl, hhlc⟩, ?_, ?_, hpsc, marks⟩
  · simp only [Chip.setImc_imc, himc]
    rfl
  · simp only [Chip.setImc_imc, himc]
  · show j.regs.alert ||| 8#8 = _
    rw [hregs]
  · show j.regs.exposeEnable = _
    rw [hregs]
  · simp only [Chip.setImc_imc, himc]
  · show j.hf.pass = none
    rw [hhf]

theorem drumPlate_none_of {k : Chip} (h : ∀ d p, k.imc.drum = some d → d.owner ≠ some p) : drumPlate k = none := by
  unfold drumPlate
  split
  · rename_i d hd
    exact Option.eq_none_iff_forall_ne_some.mpr (fun p => h d p hd)
  · rfl

/-- Settles O7. -/
theorem exposeEnableActs : Obligations.ExposeEnableActs := by
  have run (c : Word → Instr) (hc : c = .runSet ∨ c = .runClear ∨ c = .exposeEnableSet ∨ c = .exposeEnableClear) (v : Word) (s : State) :
      exec (c v) s = .next (s.setChip (controlWrite v s.chip)) := by
    rcases hc with rfl | rfl | rfl | rfl <;> rfl
  refine ⟨fun s v w hl hv hw h0 h2 => ?_, fun s v hl hv h0 => ⟨fun h2 => ?_, fun h2 => ⟨fun he => ?_, fun he hr => ⟨fun hx => ?_, fun hw hx => ?_⟩⟩⟩⟩
  · obtain ⟨hrun, hen, hlink⟩ := writeExposeEnable_regs (w.getLsbD 2) s.chip
    have again : controlWrite v (writeExposeEnable (w.getLsbD 2) s.chip) = controlWrite v s.chip := by
      rw [controlWrite_up (hlink.trans hl) hv, writeExposeEnable_same (h2.symm.trans hen.symm), controlWrite_up hl hv, h2]
    have stored := controlWrite_keepsRun hl hw h0
    refine ⟨s.setChip (writeExposeEnable (w.getLsbD 2) s.chip), ?_, ?_, ?_, ?_⟩
    · rw [run _ (by simp), stored]
    · rw [run _ (by simp), stored]
    · rw [run _ (by simp), run _ (by simp), State.setChip_chip, again]
      rfl
    · rw [run _ (by simp), run _ (by simp), State.setChip_chip, again]
      rfl
  all_goals have stored := controlWrite_keepsRun hl hv h0
  all_goals rw [h2] at stored
  · rw [run _ (by simp), stored, writeExposeEnable_of_not_falling (fun _ => rfl)]
    rfl
  · rw [run _ (by simp), stored, writeExposeEnable_stored he]
    rfl
  · have idle : interlockFall (s.chip.setRegs { s.chip.regs with exposeEnable := false }) = _ := interlockFall_idle hx
    rw [run _ (by simp), stored, writeExposeEnable_falls he hr, idle]
    rfl
  · refine ⟨s.setChip (interlockFall (s.chip.setRegs { s.chip.regs with exposeEnable := false })),
      by rw [run _ (by simp), stored, writeExposeEnable_falls he hr], rfl, ?_⟩
    by_cases hs : s.chip.imc.exposure.begun = true ∧ ∃ d p, s.chip.imc.drum = some d ∧ d.owner = some p
    · obtain ⟨hb, d, p, hd, hp⟩ := hs
      obtain ⟨⟨h1, h2, h3, h4, h5, h6, h7, h8, h9, h10⟩, spoil⟩ :=
        interlocked_spoiled (k := s.chip.setRegs { s.chip.regs with exposeEnable := false }) hw hx hb hd hp
      refine ⟨h1, h2, h3, h4, h5, h6, h7, h8, h9, h10, fun hn => absurd (hb.symm.trans hn) (by decide), fun _ d' p' hd' hp' => ?_⟩
      cases hd.symm.trans hd'
      cases hp.symm.trans hp'
      exact spoil
    · have hn : s.chip.imc.exposure.begun = false ∨ drumPlate s.chip = none := by
        rw [not_and_or, Bool.not_eq_true] at hs
        exact hs.imp_right (fun h => drumPlate_none_of (fun d p hd hp => h ⟨d, p, hd, hp⟩))
      obtain ⟨⟨h1, h2, h3, h4, h5, h6, h7, h8, h9, h10⟩, quiet⟩ :=
        interlocked_quiet (k := s.chip.setRegs { s.chip.regs with exposeEnable := false }) hw hx hn
      exact ⟨h1, h2, h3, h4, h5, h6, h7, h8, h9, h10, fun _ => quiet, fun hb d p hd hp => absurd ⟨hb, d, p, hd, hp⟩ hs⟩

end Sys2Proof.Machine
end

