-- ==== Sys2Proof/Proofs/Marking.lean ====
section
/-! SUPPORT. How DMR records a mark: the list, what it remembers, and the writes (O9). -/

namespace Sys2Proof.Machine

/-! ### The mark that a report makes -/

/-- The entry that DMR makes of a report (R190–R192). -/
def markOf (m : MarkReport) (k : Chip) : Mark :=
  let sev := severityOf k m.kind m.slot m.attempt
  { kind := m.kind, severity := sev, charged := m.kind.charged, place := placeOf k sev m.place m.slot m.attempt, attempt := m.attempt,
    location := m.location, key := m.key, detail := m.detail, time := k.regs.plantClock }

/-- The disposition that follows the writes of a recorded mark (R196). -/
def dispositionOf (byPsc : Bool) (m : MarkReport) (k : Chip) : Disposition :=
  { slot := m.slot, attempt := m.attempt, severity := (markOf m k).severity, charged := m.kind.charged, place := (markOf m k).place,
    own := byPsc }

/-- The chip after a recorded mark, given the slot's new list and the writes. -/
def Chip.recorded (k : Chip) (byPsc : Bool) (slot : Nat) (list : SlotMarks) (writes : List Transfer) : Chip :=
  { k with
    dmr := { k.dmr with lists := tblPut k.dmr.lists slot list }
    psc := if byPsc = true then { k.psc with awaiting := true } else k.psc
    sp := { k.sp with report := k.sp.report ++ writes } }

theorem recordMark_free {byPsc : Bool} {m : MarkReport} {k : Chip} (h : k.plate m.slot = none) : recordMark byPsc m k = k := by
  rw [recordMark, h]

theorem recordMark_suppressed {byPsc : Bool} {m : MarkReport} {k : Chip} (h : suppressed (k.marks m.slot) m = true) :
    recordMark byPsc m k = k := by
  unfold recordMark
  cases k.plate m.slot
  · rfl
  · exact if_pos h

/-- A report of a held slot that R195 does not suppress is stored, and its writes follow. -/
theorem recordMark_stored {byPsc : Bool} {m : MarkReport} {k : Chip} {p : Plate} (hp : k.plate m.slot = some p)
    (hs : suppressed (k.marks m.slot) m = false) : recordMark byPsc m k =
      let r := storeMark (remember (k.marks m.slot) m) (markOf m k)
      k.recorded byPsc m.slot r.1
        (withLastNotices [.markDone (dispositionOf byPsc m k)] (markWrites (k.slotAddr m.slot) r.1 r.2)) := by
  unfold recordMark
  rw [hp]
  simp only [hs, Bool.false_eq_true, if_false]
  rw [issueAll_report _ (withLastNotices_client (markWrites_client _ _ _))]
  cases byPsc <;> rfl

/-! ### What R190 and R191 say of it -/

theorem finishingCurrent_iff {k : Chip} {slot attempt : Nat} {p : Plate} (hp : k.plate slot = some p) :
    finishingCurrent k slot attempt = true ↔ p.state = .finishing ∧ p.attempt = attempt ∧ p.status = .opened := by
  simp [finishingCurrent, hp, Plate.isCurrent]

theorem aluminiumExposed_iff {k : Chip} {slot attempt : Nat} {p : Plate} (hp : k.plate slot = some p) :
    aluminiumExposed k slot attempt = true ↔
      exposureBegun k slot attempt = true ∨ p.state = .finishing ∧ p.attempt = attempt ∧ p.status = .opened := by
  rw [aluminiumExposed, Bool.or_eq_true, finishingCurrent_iff hp]

theorem severityOf_note {k : Chip} {kind : MarkKind} (h : kind.baseSeverity = .note) (slot attempt : Nat) :
    severityOf k kind slot attempt = .note := by
  cases kind <;> simp_all [severityOf, MarkKind.baseSeverity, MarkKind.isHold]

theorem placeOf_note (k : Chip) (named : Option Place) (slot attempt : Nat) : placeOf k .note named slot attempt = .none := rfl

/-! ### The list and the writes -/

/-- The writes of the list places from `c` on, which hold the marks `l`. -/
theorem markWrites_places (base : Nat) (sm : SlotMarks) (a l : List Mark) (h : sm.marks = a ++ l) :
    markWrites base sm (some (List.range' a.length l.length)) =
      l.zipIdx.map (fun e => reportWrite (base + (0x140 + 32 * (a.length + e.2))) (markBytes e.1) []) ++
        [reportWrite (base + 0x138) (le 1 sm.marks.length ++ le 1 sm.lost) []] := by
  rw [markWrites, h]
  refine congrArg (· ++ _) (List.ext_getElem (by simp) (fun i h1 h2 => ?_))
  have hi : i < l.length := by simpa using h1
  simp [hi, Nat.add_assoc]

theorem withLastNotices_append (n : List Notice) (ts : List Transfer) (t : Transfer) :
    withLastNotices n (ts ++ [t]) = ts ++ [{ t with notices := t.notices ++ n }] := by
  induction ts with
  | nil => rfl
  | cons x xs ih =>
    cases xs with
    | nil => rfl
    | cons y ys => exact congrArg (x :: ·) ih

/-- The writes of a mark whose list places from `c` on hold `l`: the places, and the counts with the disposition behind them. -/
def placeWrites (base : Nat) (c : Nat) (l : List Mark) (counts : List Byte) (n : List Notice) : List Transfer :=
  l.zipIdx.map (fun e => reportWrite (base + (0x140 + 32 * (c + e.2))) (markBytes e.1) []) ++ [reportWrite (base + 0x138) counts n]

section
variable {byPsc : Bool} {m : MarkReport} {k : Chip} {p : Plate}

/-- A list with room takes the mark at its end. -/
theorem recordMark_room (hp : k.plate m.slot = some p) (hs : suppressed (k.marks m.slot) m = false)
    (hl : (k.marks m.slot).marks.length < 8) : recordMark byPsc m k =
      k.recorded byPsc m.slot { remember (k.marks m.slot) m with marks := (k.marks m.slot).marks ++ [markOf m k] }
        (placeWrites (k.slotAddr m.slot) (k.marks m.slot).marks.length [markOf m k]
          (le 1 ((k.marks m.slot).marks.length + 1) ++ le 1 (k.marks m.slot).lost) [.markDone (dispositionOf byPsc m k)]) := by
  have marks := remember_marks (k.marks m.slot) m
  have lost := remember_lost (k.marks m.slot) m
  have places := markWrites_places (k.slotAddr m.slot)
    { remember (k.marks m.slot) m with marks := (k.marks m.slot).marks ++ [markOf m k] } (k.marks m.slot).marks [markOf m k] rfl
  rw [recordMark_stored hp hs, storeMark_room _ _ (by rwa [marks]), marks]
  dsimp only
  rw [show [(k.marks m.slot).marks.length] = List.range' (k.marks m.slot).marks.length [markOf m k].length from rfl, places,
    withLastNotices_append, List.length_append, lost]
  rfl

/-- A full list counts a NOTE lost, and any mark when it holds no NOTE. -/
theorem recordMark_lost (hp : k.plate m.slot = some p) (hs : suppressed (k.marks m.slot) m = false)
    (hl : (k.marks m.slot).marks.length = 8)
    (hn : (markOf m k).severity = .note ∨ ∀ x ∈ (k.marks m.slot).marks, x.severity ≠ .note) : recordMark byPsc m k =
      k.recorded byPsc m.slot { remember (k.marks m.slot) m with lost := min 255 ((k.marks m.slot).lost + 1) }
        [reportWrite (k.slotAddr m.slot + 0x139) (le 1 (min 255 ((k.marks m.slot).lost + 1))) [.markDone (dispositionOf byPsc m k)]] := by
  have marks := remember_marks (k.marks m.slot) m
  have lost := remember_lost (k.marks m.slot) m
  rw [recordMark_stored hp hs, storeMark_lost _ _ (by rwa [marks]) (by rwa [marks]), lost]
  rfl

/-- HOLD, SPOIL and FAIL displace the oldest NOTE of a full list. -/
theorem recordMark_displaces {a b : List Mark} {x : Mark} (hp : k.plate m.slot = some p) (hs : suppressed (k.marks m.slot) m = false)
    (hl : (k.marks m.slot).marks.length = 8) (he : (k.marks m.slot).marks = a ++ x :: b) (hx : x.severity = .note)
    (ha : ∀ y ∈ a, y.severity ≠ .note) (hn : (markOf m k).severity ≠ .note) : recordMark byPsc m k =
      k.recorded byPsc m.slot { remember (k.marks m.slot) m with marks := a ++ b ++ [markOf m k] }
        (placeWrites (k.slotAddr m.slot) a.length (b ++ [markOf m k]) (le 1 8 ++ le 1 (k.marks m.slot).lost)
          [.markDone (dispositionOf byPsc m k)]) := by
  have marks := remember_marks (k.marks m.slot) m
  have lost := remember_lost (k.marks m.slot) m
  have total : (a ++ x :: b).length = 8 := by rw [← he, hl]
  have left : 8 - a.length = (b ++ [markOf m k]).length := by simp at total ⊢; omega
  have full : (a ++ b ++ [markOf m k]).length = 8 := by simp at total ⊢; omega
  have places := markWrites_places (k.slotAddr m.slot)
    { remember (k.marks m.slot) m with marks := a ++ b ++ [markOf m k] } a (b ++ [markOf m k]) (List.append_assoc _ _ _)
  rw [recordMark_stored hp hs, storeMark_displaces _ _ a b x (by rwa [marks]) (by rwa [marks]) hx ha hn]
  dsimp only
  rw [left, places, withLastNotices_append, full, lost]
  rfl

end

/-! ### Every mark (R188–R195) -/

/-- The severity by R189 and R190, for a plate whose exposure has begun or which is FINISHING. -/
theorem severityOf_eq {k : Chip} {kind : MarkKind} {slot attempt : Nat} {late : Prop} [Decidable late]
    (h : aluminiumExposed k slot attempt = true ↔ late) : severityOf k kind slot attempt =
      if kind = .align ∨ kind = .late ∨ kind = .overdue ∨ kind = .remade ∨ kind = .outdated ∨ kind = .lateBreak ∨
        kind = .timeout ∨ kind = .nosep then .note
      else if kind = .base ∨ kind = .decode then (if late then .spoil else .hold)
      else if kind = .fence ∨ kind = .table ∨ kind = .attempts then .fail else .spoil := by
  cases kind <;> simp [severityOf, MarkKind.isHold, MarkKind.baseSeverity, h]

theorem charged_iff (kind : MarkKind) : kind.charged = decide (kind = .underrun ∨ kind = .speed ∨ kind = .slip ∨ kind = .channel ∨
    kind = .misreg ∨ kind = .process) := by
  cases kind <;> rfl

theorem suppressed_iff (sm : SlotMarks) (m : MarkReport) : suppressed sm m = true ↔
    (m.kind = .fence ∧ sm.fenceAttempt = m.attempt) ∨ (m.kind = .nosep ∧
      ((∃ q, m.nosep = some (0, q) ∧ sm.nosep0 = some q) ∨ ∃ pos q, pos ≠ 0 ∧ m.nosep = some (pos, q) ∧ sm.nosep1 = some q)) := by
  unfold suppressed
  match m.nosep with
  | none => simp
  | some (0, r, v) => simp
  | some (n + 1, r, v) => simp

/-- What DMR remembers of a mark (R195). -/
theorem remember_eq (sm : SlotMarks) (m : MarkReport) : remember sm m =
    { marks := sm.marks, lost := sm.lost
      fenceAttempt := if m.kind = .fence then m.attempt else sm.fenceAttempt
      nosep0 := (match m.nosep with
        | some (0, q) => some q
        | _ => sm.nosep0)
      nosep1 := (match m.nosep with
        | some (_ + 1, q) => some q
        | _ => sm.nosep1) } := by
  unfold remember
  match m.nosep with
  | none => split <;> rfl
  | some (0, r, v) => split <;> rfl
  | some (n + 1, r, v) => split <;> rfl

end Sys2Proof.Machine
end

