-- ==== Sys2Proof/Proofs/PlantClock.lean ====
section
/-! SUPPORT. PSC's own marks, the events that it hears while it is free, and the moves of PLANT_CLOCK (O9). -/

namespace Sys2Proof.Machine

/-! ### A mark of PSC's own (R188) -/

theorem blocked_of_awaiting {k : Chip} (h : k.psc.awaiting = true) : pscBlocked k = true := by
  simp [pscBlocked, h]

/-- The chip after a mark of PSC's own that DMR has recorded. -/
def Chip.ownMarked (k : Chip) (m : MarkReport) : Chip :=
  let r := storeMark (remember (k.marks m.slot) m) (markOf m k)
  k.recorded true m.slot r.1 (withLastNotices [.markDone (dispositionOf true m k)] (markWrites (k.slotAddr m.slot) r.1 r.2))

/-- PSC stops at a mark of its own that DMR records, with the steps left. -/
theorem runSteps_marked {m : MarkReport} {k : Chip} {p : Plate} (rest : List PscStep) (hp : k.plate m.slot = some p)
    (hs : suppressed (k.marks m.slot) m = false) : runSteps rest (pscMark m k) = setWork rest (k.ownMarked m) := by
  rw [pscMark, recordMark_stored hp hs]
  exact runSteps_blocked _ _ (blocked_of_awaiting rfl)

/-- Only FENCE and NOSEP marks are ever suppressed (R195). -/
theorem not_suppressed {sm : SlotMarks} {m : MarkReport} (hf : m.kind ≠ .fence) (hn : m.kind ≠ .nosep) : suppressed sm m = false := by
  rw [← Bool.not_eq_true, suppressed_iff]
  rintro (h | h)
  · exact hf h.1
  · exact hn h.1

/-- PSC stops at a mark of its own on a plate that it has just changed. -/
theorem runSteps_ownMark {slot attempt detail : Nat} {kind : MarkKind} {key : Option PageKey} {q : Plate} {k : Chip}
    (rest : List PscStep) (h : kind ≠ .fence ∧ kind ≠ .nosep) :
    runSteps rest (pscMark (ownMark slot attempt kind key detail) (setPlate slot q k)) =
      setWork rest ((setPlate slot q k).ownMarked (ownMark slot attempt kind key detail)) :=
  runSteps_marked rest (setPlate_self slot q k) (not_suppressed h.1 h.2)

@[simp] theorem recorded_marks (k : Chip) (byPsc : Bool) (slot : Nat) (list : SlotMarks) (ws : List Transfer) :
    (k.recorded byPsc slot list ws).marks slot = list := by
  simp [Chip.recorded, Chip.marks, tblGet_tblPut_self]

theorem recorded_marks_ne (k : Chip) (byPsc : Bool) {slot n : Nat} (list : SlotMarks) (ws : List Transfer) (h : n ≠ slot) :
    (k.recorded byPsc slot list ws).marks n = k.marks n := by
  simp [Chip.recorded, Chip.marks, tblGet_tblPut_ne _ _ _ _ h]

/-- A recorded NOTE of PSC's own is what the statements call PSC's mark. -/
theorem ownMarked_note {k j t : Chip} {slot attempt detail : Nat} {kind : MarkKind} {key : Option PageKey}
    (hk : j.marks slot = k.marks slot) (hn : kind.baseSeverity = .note)
    (ha : t.psc.awaiting = true) (hd : t.dmr = (j.ownMarked (ownMark slot attempt kind key detail)).dmr)
    (hc : t.regs.plantClock = j.regs.plantClock) : k.pscMarked t slot kind .note attempt key detail := by
  refine ⟨ha, fun hl => ⟨.none, fun _ => rfl, ?_⟩⟩
  have marks : t.marks slot = (j.ownMarked (ownMark slot attempt kind key detail)).marks slot := by rw [Chip.marks, hd]; rfl
  have old := remember_marks (j.marks slot) (ownMark slot attempt kind key detail)
  have room : (remember (j.marks slot) (ownMark slot attempt kind key detail)).marks.length < 8 := by rwa [old, hk]
  have charged : kind.charged = false := by cases kind <;> simp_all [MarkKind.baseSeverity, MarkKind.charged]
  have new : markOf (ownMark slot attempt kind key detail) j =
      { kind := kind, severity := .note, charged := false, place := .none, attempt := attempt, location := .none, key := key,
        detail := detail, time := t.regs.plantClock } := by
    rw [hc]
    simp only [markOf, ownMark, severityOf_note hn, placeOf_note, charged]
  have stored : (j.ownMarked (ownMark slot attempt kind key detail)).marks slot =
      (storeMark (remember (j.marks slot) (ownMark slot attempt kind key detail)) (markOf (ownMark slot attempt kind key detail) j)).1 :=
    recorded_marks _ _ _ _ _
  rw [marks, stored, storeMark_room _ _ room, old, hk, new]

/-! ### Events that PSC hears while it is free (R20) -/

theorem not_blocked_of_free {k : Chip} (h : pscFree k = true) : pscBlocked k = false := by
  simp only [pscFree, Bool.and_eq_true, Bool.not_eq_true'] at h
  exact h.1.1

/-- A free PSC takes an event at once. -/
theorem pscHear_free {e : PscEvent} {k : Chip} (h : pscFree k = true) :
    pscHear e k = setDue [] (beginInput (planEvent e) (setDue [e] k)) := by
  obtain ⟨-, -, -, -, hwork, hdue⟩ := (pscFree_iff k).mp h
  have heard : setDue (k.psc.due ++ [e]) k = setDue [e] k := by rw [hdue]; rfl
  have steps : runSteps (setDue [e] k).psc.work (setDue [e] k) = setDue [e] k := by
    rw [show (setDue [e] k).psc.work = [] from hwork, runSteps]
    exact (congrArg (fun l => setWork l (setDue [e] k)) hwork.symm).trans (setWork_self _)
  have free : (pscBlocked (setDue [e] k) || !(setDue [e] k).psc.work.isEmpty) = false := by
    have open_ := not_blocked_of_free h
    rw [show pscBlocked (setDue [e] k) = false from open_, show (setDue [e] k).psc.work = [] from hwork]
    rfl
  rw [pscHear, heard, pscGo, steps]
  show runDue [e] (setDue [e] k) = _
  rw [runDue, free]
  rfl

/-- A blocked PSC keeps an event for later. -/
theorem pscHear_blocked {e : PscEvent} {k : Chip} (h : pscBlocked k = true) : pscHear e k = setDue (k.psc.due ++ [e]) k :=
  pscGo_blocked _ h

/-! ### LATE and OVERDUE (R110) -/

theorem checkLate_due {slot : Nat} {v : Word} {k : Chip} {p : Plate} (hp : k.plate slot = some p) (hd : p.lateDue k v) :
    checkLate slot v k = pscMark (ownMark slot (waitedAttempt p) .late none (lateThreshold k p)) (setPlate slot { p with lateDone := true } k) := by
  obtain ⟨h1, h2, h3⟩ := hd
  have h3 : lateThreshold k p ≤ v.toNat := h3
  simp [checkLate, hp, h1, h2, h3]

theorem checkLate_idle {slot : Nat} {v : Word} {k : Chip} {p : Plate} (hp : k.plate slot = some p) (hd : ¬p.lateDue k v) :
    checkLate slot v k = k := by
  have : (decide (p.state = .waiting) && !p.lateDone && decide (lateThreshold k p ≤ v.toNat)) = false := by
    rw [← Bool.not_eq_true]
    simpa [Plate.lateDue, lateThreshold, and_assoc] using hd
  simp [checkLate, hp, this]

theorem checkOverdue_due {slot : Nat} {v : Word} {k : Chip} {p : Plate} (hp : k.plate slot = some p) (hd : p.overdueDue v) :
    checkOverdue slot v k = pscMark (ownMark slot p.attempt .overdue none p.order.deadline) (setPlate slot { p with overdueDone := true } k) := by
  obtain ⟨h1, h2, h3⟩ := hd
  simp [checkOverdue, hp, h1, h2, h3]

theorem checkOverdue_idle {slot : Nat} {v : Word} {k : Chip} {p : Plate} (hp : k.plate slot = some p) (hd : ¬p.overdueDue v) :
    checkOverdue slot v k = k := by
  have : (!p.state.terminal && !p.overdueDone && decide (p.order.deadline ≤ v.toNat)) = false := by
    rw [← Bool.not_eq_true]
    simpa [Plate.overdueDue, and_assoc] using hd
  simp [checkOverdue, hp, this]

/-- The steps that compare the deadlines of some plates. -/
def clockSteps (v : Word) (l : List (Nat × Plate)) : List PscStep := l.flatMap (fun e => [.late e.1 v, .overdue e.1 v])

/-- Plates of which none is due are passed over. -/
theorem runSteps_notDue {v : Word} {k : Chip} (l : List (Nat × Plate)) (rest : List PscStep) (hb : pscBlocked k = false)
    (hl : ∀ e ∈ l, k.plate e.1 = some e.2 ∧ ¬(e.2.lateDue k v ∨ e.2.overdueDue v)) :
    runSteps (clockSteps v l ++ rest) k = runSteps rest k := by
  induction l with
  | nil => rfl
  | cons e l ih =>
    obtain ⟨hp, hd⟩ := hl e List.mem_cons_self
    have late : doStep (.late e.1 v) k = k := checkLate_idle hp (fun h => hd (.inl h))
    have overdue : doStep (.overdue e.1 v) k = k := checkOverdue_idle hp (fun h => hd (.inr h))
    show runSteps (.late e.1 v :: .overdue e.1 v :: (clockSteps v l ++ rest)) k = _
    rw [runSteps_cons _ _ _ hb, late, runSteps_cons _ _ _ hb, overdue, ih (fun x hx => hl x (List.mem_cons_of_mem _ hx))]

/-- A plate's new value stands at its place in the table. -/
theorem tblPut_mid {α : Type} (a b : List (Nat × α)) (n : Nat) (x y : α)
    (h : ((a ++ (n, x) :: b).map (·.1)).Pairwise (· < ·)) : tblPut (a ++ (n, x) :: b) n y = a ++ (n, y) :: b := by
  induction a with
  | nil => simp [tblPut]
  | cons e a ih =>
    rw [List.cons_append, List.map_cons, List.pairwise_cons] at h
    have lt : e.1 < n := h.1 n (by simp)
    rw [List.cons_append, tblPut, if_neg (by omega), if_neg (by omega), ih h.2]
    rfl

/-! ### The clock -/

/-- The clock at its new value. -/
def Chip.clocked (k : Chip) (v : Word) : Chip := k.setRegs { k.regs with plantClock := v }

theorem exec_clock {s : State} {c : Instr} {v : Word}
    (hc : (c = .plantClockWrite v ∧ s.chip.regs.linkUp = true) ∨ (c = .plantClockTick ∧ v = s.chip.regs.plantClock + 1)) :
    exec c s = .next (s.setChip (clockMarks v (s.chip.clocked v))) := by
  rcases hc with ⟨rfl, hl⟩ | ⟨rfl, rfl⟩
  · show Host.Outcome.next (s.setChip (clockWrite v s.chip)) = _
    simp only [clockWrite, hl]
    rfl
  · rfl

/-- What a ready PSC does with the clock: it compares plate by plate, and writes at the end. -/
theorem clockMarks_ready {v : Word} {k : Chip} (hk : k.pscReady) : clockMarks v k =
    setDue [] (runSteps (clockSteps v k.psc.plates ++ [.publish k.psc.plates]) (setDue [.clock v] k)) := by
  obtain ⟨hf, -, -⟩ := hk
  rw [clockMarks, if_pos ((pscFree_iff k).mp hf).1, pscHear_free hf]
  rfl

/-- With no plate due the clock is all that moves. -/
theorem clockMarks_idle {v : Word} {k : Chip} (hk : k.pscReady)
    (hd : ∀ slot p, k.plate slot = some p → ¬(p.lateDue k v ∨ p.overdueDue v)) : clockMarks v k = k := by
  obtain ⟨hf, ⟨-, -, hnews, hstop⟩, hpl⟩ := id hk
  obtain ⟨-, -, -, -, hwork, hdue⟩ := (pscFree_iff k).mp hf
  have plates := plate_of_mem hpl
  have open_ := not_blocked_of_free hf
  have hb : pscBlocked (setDue [.clock v] k) = false := open_
  have stays : checkStopped (setDue [.clock v] k) = setDue [.clock v] k := by
    by_cases hr : k.pd.runState = .stopping
    · exact checkStopped_of_working _ (hstop hr hwork hdue)
    · exact checkStopped_of_not_stopping _ hr
  have published : doStep (.publish k.psc.plates) (setDue [.clock v] k) = setDue [.clock v] k :=
    (publish_same k.psc.plates (setDue [.clock v] k) plates (hnews hwork)).trans stays
  rw [clockMarks_ready hk, runSteps_notDue _ _ hb (fun e he => ⟨plates e he, hd e.1 e.2 (plates e he)⟩),
    runSteps_cons _ _ _ hb, published, runSteps]
  show setDue [] (setWork [] k) = k
  rw [← hwork, setWork_self, ← hdue, setDue_self]

/-- The first plate that is due stops PSC: with LATE, or with OVERDUE when LATE is not due. -/
theorem clockMarks_due {v : Word} {k : Chip} {a b : List (Nat × Plate)} {slot : Nat} {p : Plate} (hk : k.pscReady)
    (he : k.psc.plates = a ++ (slot, p) :: b) (ha : ∀ e ∈ a, ¬(e.2.lateDue k v ∨ e.2.overdueDue v)) :
    let after := clockSteps v b ++ [.publish k.psc.plates]
    (p.lateDue k v → clockMarks v k = setDue [] (setWork (.overdue slot v :: after)
      ((setPlate slot { p with lateDone := true } (setDue [.clock v] k)).ownMarked
        (ownMark slot (waitedAttempt p) .late none (lateThreshold k p))))) ∧
    (¬p.lateDue k v → p.overdueDue v → clockMarks v k = setDue [] (setWork after
      ((setPlate slot { p with overdueDone := true } (setDue [.clock v] k)).ownMarked
        (ownMark slot p.attempt .overdue none p.order.deadline)))) := by
  have open_ := not_blocked_of_free hk.1
  have hb : pscBlocked (setDue [.clock v] k) = false := open_
  have plates := plate_of_mem hk.2.2
  have here : (setDue [.clock v] k).plate slot = some p := plates (slot, p) (by rw [he]; simp)
  have first : clockMarks v k = setDue [] (runSteps (.late slot v :: .overdue slot v :: (clockSteps v b ++ [.publish k.psc.plates]))
      (setDue [.clock v] k)) := by
    rw [clockMarks_ready hk]
    have split : clockSteps v k.psc.plates ++ [.publish k.psc.plates] =
        clockSteps v a ++ (.late slot v :: .overdue slot v :: (clockSteps v b ++ [.publish k.psc.plates])) := by
      conv_lhs => rw [clockSteps, he]
      simp [clockSteps, he]
    rw [split, runSteps_notDue a _ hb (fun e h => ⟨plates e (by rw [he]; simp [h]), ha e h⟩)]
  refine ⟨fun hl => ?_, fun hl ho => ?_⟩
  · rw [first, runSteps_cons _ _ _ hb]
    show setDue [] (runSteps _ (checkLate slot v (setDue [.clock v] k))) = _
    rw [checkLate_due here hl, runSteps_ownMark _ (by decide)]
    rfl
  · rw [first, runSteps_cons _ _ _ hb]
    show setDue [] (runSteps _ (checkLate slot v (setDue [.clock v] k))) = _
    rw [checkLate_idle here hl, runSteps_cons _ _ _ hb]
    show setDue [] (runSteps _ (checkOverdue slot v (setDue [.clock v] k))) = _
    rw [checkOverdue_due here ho, runSteps_ownMark _ (by decide)]

/-! ### A PSC stopped at a NOTE of its own -/

section
variable {k : Chip} {l : List PscEvent} {w : List PscStep} {slot attempt detail : Nat} {kind : MarkKind} {q : Plate}

/-- PSC, which has changed a plate, stands at a mark of its own without a key, with the steps `w` left and no event heard. -/
def Chip.stoppedAt (k : Chip) (l : List PscEvent) (w : List PscStep) (slot : Nat) (q : Plate) (attempt : Nat) (kind : MarkKind)
    (detail : Nat) : Chip :=
  setDue [] (setWork w ((setPlate slot q (setDue l k)).ownMarked (ownMark slot attempt kind none detail)))

theorem stoppedAt_frame : k.stoppedAt l w slot q attempt kind detail =
    { k with
      psc := (k.stoppedAt l w slot q attempt kind detail).psc
      dmr := { k.dmr with lists := (k.stoppedAt l w slot q attempt kind detail).dmr.lists }
      sp := { k.sp with report := (k.stoppedAt l w slot q attempt kind detail).sp.report } } := rfl

theorem stoppedAt_psc (hd : k.psc.due = []) : (k.stoppedAt l w slot q attempt kind detail).psc =
    { k.psc with plates := tblPut k.psc.plates slot q, awaiting := true, work := w } := by
  show { k.psc with plates := tblPut k.psc.plates slot q, awaiting := true, work := w, due := [] } = _
  rw [← hd]

theorem setWork_marks (w : List PscStep) (k : Chip) (n : Nat) : (setWork w k).marks n = k.marks n := rfl

theorem setDue_marks (l : List PscEvent) (k : Chip) (n : Nat) : (setDue l k).marks n = k.marks n := rfl

theorem stoppedAt_marks_ne {n : Nat} (h : n ≠ slot) : (k.stoppedAt l w slot q attempt kind detail).marks n = k.marks n := by
  rw [Chip.stoppedAt, setDue_marks, setWork_marks, Chip.ownMarked, recorded_marks_ne]
  · rfl
  · exact h

theorem stoppedAt_marked (hn : kind.baseSeverity = .note) :
    k.pscMarked (k.stoppedAt l w slot q attempt kind detail) slot kind .note attempt none detail :=
  ownMarked_note (j := setPlate slot q (setDue l k)) rfl hn rfl rfl rfl

/-- What a NOTE other than NOSEP does to the list and the writes is what `recordMark` does. -/
theorem ownMarked_eq (hs : kind ≠ .fence ∧ kind ≠ .nosep) : (setPlate slot q k).ownMarked (ownMark slot attempt kind none detail) =
    recordMark true (ownMark slot attempt kind none detail) (setPlate slot q k) :=
  (recordMark_stored (setPlate_self slot q k) (not_suppressed hs.1 hs.2)).symm

theorem remember_other {sm : SlotMarks} (hs : kind ≠ .fence) : remember sm (ownMark slot attempt kind none detail) = sm := by
  simp [remember, ownMark, hs]

theorem note_disposition (hn : kind.baseSeverity = .note) (j : Chip) : dispositionOf true (ownMark slot attempt kind none detail) j =
    { slot := slot, attempt := attempt, severity := .note, charged := false, place := .none, own := true } := by
  have charged : kind.charged = false := by cases kind <;> simp_all [MarkKind.baseSeverity, MarkKind.charged]
  simp only [dispositionOf, markOf, ownMark, severityOf_note hn, placeOf_note, charged]

/-- The writes of a single entry at the end of a list. -/
theorem placeWrites_one (base c : Nat) (m : Mark) (counts : List Byte) (n : List Notice) : placeWrites base c [m] counts n =
    [reportWrite (base + (0x140 + 32 * c)) (markBytes m) [], reportWrite (base + 0x138) counts n] := by
  simp [placeWrites]

/-- In a list with room: the entry's write, and the counts with the disposition behind them. -/
theorem stoppedAt_room (hn : kind.baseSeverity = .note) (hs : kind ≠ .fence ∧ kind ≠ .nosep) (hl : (k.marks slot).marks.length < 8) :
    let t := k.stoppedAt l w slot q attempt kind detail
    ∀ m, (t.marks slot).marks = (k.marks slot).marks ++ [m] → t.sp.report = k.sp.report ++
      [reportWrite (k.slotAddr slot + (0x140 + 32 * (k.marks slot).marks.length)) (markBytes m) [],
       reportWrite (k.slotAddr slot + 0x138) (le 1 ((k.marks slot).marks.length + 1) ++ le 1 (k.marks slot).lost)
        [.markDone { slot := slot, attempt := m.attempt, severity := .note, charged := false, place := .none, own := true }]] := by
  have room := recordMark_room (byPsc := true) (m := ownMark slot attempt kind none detail) (setPlate_self slot q (setDue l k))
    (not_suppressed hs.1 hs.2) hl
  rw [← ownMarked_eq hs, note_disposition hn, placeWrites_one] at room
  intro t m hm
  have marks : (t.marks slot).marks =
      (k.marks slot).marks ++ [markOf (ownMark slot attempt kind none detail) (setPlate slot q (setDue l k))] := by
    dsimp only [t]
    rw [Chip.stoppedAt, room, setDue_marks, setWork_marks]
    exact congrArg SlotMarks.marks (recorded_marks _ true slot _ _)
  obtain rfl : m = markOf (ownMark slot attempt kind none detail) (setPlate slot q (setDue l k)) := by
    simpa using hm.symm.trans marks
  dsimp only [t]
  rw [Chip.stoppedAt, room]
  rfl

/-- In a full list it is counted lost. -/
theorem stoppedAt_full (hn : kind.baseSeverity = .note) (hs : kind ≠ .fence ∧ kind ≠ .nosep) (hl : (k.marks slot).marks.length = 8) :
    let t := k.stoppedAt l w slot q attempt kind detail
    let lost := min 255 ((k.marks slot).lost + 1)
    t.marks slot = { k.marks slot with lost := lost } ∧ t.sp.report = k.sp.report ++ [reportWrite (k.slotAddr slot + 0x139) (le 1 lost)
      [.markDone { slot := slot, attempt := attempt, severity := .note, charged := false, place := .none, own := true }]] := by
  have lost := recordMark_lost (byPsc := true) (m := ownMark slot attempt kind none detail) (setPlate_self slot q (setDue l k))
    (not_suppressed hs.1 hs.2) hl (.inl (severityOf_note hn _ _))
  rw [← ownMarked_eq hs, note_disposition hn, remember_other hs.1] at lost
  dsimp only
  rw [Chip.stoppedAt, lost, setDue_marks, setWork_marks]
  exact ⟨recorded_marks _ true slot _ _, rfl⟩

end

/-- The place by R191, in the terms of R190's questions. -/
theorem placeOf_eq {k : Chip} {severity : Severity} {named : Option Place} {slot attempt : Nat} {p : Plate} (hp : k.plate slot = some p) :
    placeOf k severity named slot attempt =
      if severity = .note ∨ severity = .hold then .none
      else named.getD (if exposureBegun k slot attempt = true then .drum
        else if p.state = .finishing ∧ p.attempt = attempt ∧ p.status = .opened then .carrier else .none) := by
  have asked : askedPlace k slot attempt = if exposureBegun k slot attempt = true then .drum
      else if p.state = .finishing ∧ p.attempt = attempt ∧ p.status = .opened then .carrier else .none := by
    simp only [askedPlace, finishingCurrent_iff hp]
  cases severity <;> simp [placeOf, asked]

/-- Settles O9. -/
theorem plantClockMoves : Obligations.PlantClockMoves := by
  refine ⟨fun s c v hc => ⟨fun hw => ?_, fun hw hb => ?_, fun hk => ⟨fun hd => ?_, fun a slot p b he ha hd => ?_⟩⟩, fun byPsc m k => ?_⟩
  · rw [exec_clock hc, clockMarks, show (s.chip.clocked v).working = false from hw]
    rfl
  · rw [exec_clock hc, clockMarks, show (s.chip.clocked v).working = true from hw, if_pos rfl, pscHear_blocked (k := s.chip.clocked v) hb]
    rfl
  · rw [exec_clock hc, clockMarks_idle (k := s.chip.clocked v) hk hd]
    rfl
  · obtain ⟨-, -, -, -, -, hdue⟩ := (pscFree_iff s.chip).mp hk.1
    have put (x : Plate) : tblPut (s.chip.clocked v).psc.plates slot x = a ++ (slot, x) :: b := by
      have sorted := hk.2.2.1
      rw [he] at sorted
      exact (congrArg (tblPut · slot x) he).trans (tblPut_mid a b slot p x sorted)
    obtain ⟨hlate, hover⟩ := clockMarks_due (k := s.chip.clocked v) hk he ha
    refine ⟨_, exec_clock hc, rfl, rfl, ?_⟩
    rw [State.setChip_chip]
    by_cases hl : p.lateDue s.chip v
    · have e : clockMarks v (s.chip.clocked v) = (s.chip.clocked v).stoppedAt [.clock v] _ slot { p with lateDone := true }
        (waitedAttempt p) .late (p.order.deadline - s.chip.lay.lateLead) := hlate hl
      rw [e]
      refine ⟨stoppedAt_frame (k := s.chip.clocked v), fun n hn => stoppedAt_marks_ne (k := s.chip.clocked v) hn, fun _ => ⟨?_, stoppedAt_marked (k := s.chip.clocked v) rfl⟩, fun h => absurd hl h,
        fun m hm hr => stoppedAt_room (k := s.chip.clocked v) rfl (by decide) hr m hm, fun hf => ?_⟩
      · rw [stoppedAt_psc (k := s.chip.clocked v) hdue, put]
        rfl
      · obtain ⟨hlist, hwrites⟩ := stoppedAt_full (k := s.chip.clocked v) (kind := .late) rfl (by decide) hf
        exact ⟨hlist, waitedAttempt p, fun _ => rfl, fun h => absurd hl h, hwrites⟩
    · have e : clockMarks v (s.chip.clocked v) = (s.chip.clocked v).stoppedAt [.clock v] _ slot { p with overdueDone := true }
        p.attempt .overdue p.order.deadline := hover hl (hd.resolve_left hl)
      rw [e]
      refine ⟨stoppedAt_frame (k := s.chip.clocked v), fun n hn => stoppedAt_marks_ne (k := s.chip.clocked v) hn, fun h => absurd h hl, fun _ => ⟨?_, stoppedAt_marked (k := s.chip.clocked v) rfl⟩,
        fun m hm hr => stoppedAt_room (k := s.chip.clocked v) rfl (by decide) hr m hm, fun hf => ?_⟩
      · rw [stoppedAt_psc (k := s.chip.clocked v) hdue, put]
        rfl
      · obtain ⟨hlist, hwrites⟩ := stoppedAt_full (k := s.chip.clocked v) (kind := .overdue) rfl (by decide) hf
        exact ⟨hlist, p.attempt, fun h => absurd h hl, fun _ => rfl, hwrites⟩
  · refine ⟨fun h => ?_, fun p hp hagain => ?_⟩
    · rcases h with h | h
      · exact recordMark_free h
      · exact recordMark_suppressed ((suppressed_iff _ _).mpr h)
    · have hs : suppressed (k.marks m.slot) m = false := by
        rw [← Bool.not_eq_true, suppressed_iff]
        exact hagain
      intro begun finishing severity charged place new write entries counts kept records more
      have hsev : severityOf k m.kind m.slot m.attempt = severity := severityOf_eq (aluminiumExposed_iff hp)
      have hplace : placeOf k severity m.place m.slot m.attempt = place := placeOf_eq hp
      have hnew : markOf m k = new := by
        rw [markOf, hsev, hplace, charged_iff]
      have hdisp : dispositionOf byPsc m k = ⟨m.slot, m.attempt, severity, charged, place, byPsc⟩ := by
        rw [dispositionOf, hnew, charged_iff]
      refine ⟨fun hl => ?_, fun hl => ⟨fun hn => ?_, fun a x b he hx ha hn => ?_⟩, markBytes_is new⟩
      · have recorded := recordMark_room (byPsc := byPsc) hp hs hl
        rw [hnew, hdisp, remember_eq, placeWrites_one] at recorded
        exact recorded
      · have recorded := recordMark_lost (byPsc := byPsc) hp hs hl (by rwa [hnew])
        rw [hdisp, remember_eq] at recorded
        exact recorded
      · have recorded := recordMark_displaces (byPsc := byPsc) hp hs hl he hx ha (by rwa [hnew])
        rw [hnew, hdisp, remember_eq] at recorded
        exact recorded

end Sys2Proof.Machine
end

