-- ==== Sys2Proof/Proofs/Refusing.lean ====
section
/-! SUPPORT. What the refusal of a transfer brings, and the fence map word that decides a waiting check (O23, O24). -/

namespace Sys2Proof.Machine

/-! ### The offer to the device fault record (R199) -/

theorem takeOffer_record (o : FaultOffer) (k : Chip) : (takeOffer o k).dmr.record =
    if k.dmr.record.valid = true then { k.dmr.record with overflow := true } else latchOffer o k.regs.plantClock := by
  unfold takeOffer
  split <;> rfl

theorem takeOffer_faultValid (o : FaultOffer) (k : Chip) :
    (takeOffer o k).regs.faultValid = (k.regs.faultValid || !k.dmr.record.valid) := by
  unfold takeOffer
  split
  · next h => simp [h, Chip.setRegs]
  · next h => simp [h, Chip.setRegs]

theorem takeOffer_latches {o : FaultOffer} {k : Chip} (h : k.dmr.record.valid = false) :
    (takeOffer o k).regs.faultKind = o.kind ∧ (takeOffer o k).regs.faultUnit = o.unit := by
  rw [takeOffer, h]
  exact ⟨rfl, rfl⟩

/-- The chip after an offer, which changes the record, FAULT and ALERT, and adds writes to REPORT's queue. -/
def Chip.offered (k : Chip) (o : FaultOffer) (r : Registers) (ws : List Transfer) : Chip :=
  { k with regs := r, dmr := { k.dmr with record := (takeOffer o k).dmr.record }, sp := { k.sp with report := k.sp.report ++ ws } }

/-- An offer reaches the record and FAULT as `takeOffer` says; the write of the status block or the alert leaves them so. -/
theorem offerFault_eq (o : FaultOffer) (k : Chip) : ∃ r ws, offerFault o k = k.offered o r ws ∧
    r.faultValid = (takeOffer o k).regs.faultValid ∧ r.faultKind = (takeOffer o k).regs.faultKind ∧
    r.faultUnit = (takeOffer o k).regs.faultUnit ∧ r.plantClock = k.regs.plantClock := by
  have clock : (takeOffer o k).regs.plantClock = k.regs.plantClock := by unfold takeOffer; split <;> rfl
  have kept : takeOffer o k = k.offered o (takeOffer o k).regs [] := by
    rw [Chip.offered, List.append_nil]
    unfold takeOffer
    split <;> rfl
  have written (t : Transfer) (h : t.client = .report) : issue t (takeOffer o k) = k.offered o (takeOffer o k).regs [t] := by
    rw [kept]
    simp [issue, h, StorePort.setWaiting, StorePort.waiting, Chip.offered, Chip.setSp]
  unfold offerFault
  dsimp only
  split
  · split
    · refine ⟨(raise .fault (takeOffer o k)).regs, [], ?_, rfl, rfl, rfl, clock⟩
      exact congrArg (raise .fault) kept
    · exact ⟨_, _, written _ rfl, rfl, rfl, rfl, clock⟩
  · exact ⟨_, _, written _ rfl, rfl, rfl, rfl, clock⟩

/-! ### HALTED (R12, R42) -/

/-- A halt changes the fault record, the registers, the run state, the laser and the drum target, and nothing else. -/
theorem haltPart_eq (cause : Nat) (o : FaultOffer) (k : Chip) : ∃ r, haltPart cause o k =
      { k with
        regs := r, dmr := { k.dmr with record := (takeOffer o k).dmr.record }, pd := { k.pd with runState := .halted }
        hf := { k.hf with laser := 0 }, imc := { k.imc with drumTarget := 0 } } ∧
    r.faultValid = (takeOffer o k).regs.faultValid ∧ r.faultKind = (takeOffer o k).regs.faultKind ∧
    r.faultUnit = (takeOffer o k).regs.faultUnit ∧ r.haltCause = cause ∧
    r.alert = k.regs.alert ||| 16#8 ||| (if k.pd.runState = .starting then 128#8 else 0#8) := by
  have alerts : (takeOffer o k).regs.alert = k.regs.alert := by unfold takeOffer; split <;> rfl
  have kept : takeOffer o k =
      { k with regs := (takeOffer o k).regs, dmr := { k.dmr with record := (takeOffer o k).dmr.record } } := by
    unfold takeOffer
    split <;> rfl
  generalize (takeOffer o k).regs = q at *
  generalize (takeOffer o k).dmr.record = d at *
  unfold haltPart
  rw [kept]
  dsimp only
  split
  · next h =>
    refine ⟨_, rfl, rfl, rfl, rfl, rfl, ?_⟩
    simp only [← alerts]
    rfl
  · next h =>
    refine ⟨_, rfl, rfl, rfl, rfl, rfl, ?_⟩
    simp only [← alerts, BitVec.or_zero]
    rfl

/-! ### FENCE marks (R195) -/

/-- From `k` to `t`, FENCE marks an attempt of a held slot, once. -/
def Chip.fenceMarked (k t : Chip) (slot a : Nat) (loc : Location) (detail : Nat) (named : Option Place) : Prop :=
  (k.plate slot).isSome = true →
    ((k.marks slot).fenceAttempt = a → t.marks slot = k.marks slot) ∧
    ((k.marks slot).fenceAttempt ≠ a → (k.marks slot).marks.length < 8 → ∃ place,
      (t.marks slot).marks = (k.marks slot).marks ++
        [{ kind := .fence, severity := .fail, charged := false, place := place, attempt := a, location := loc, key := none,
           detail := detail, time := k.regs.plantClock }] ∧
      (t.marks slot).fenceAttempt = a ∧ (∀ p, named = some p → place = p) ∧
      (named = none → (exposureBegun k slot a = true → place = .drum) ∧
        (exposureBegun k slot a = false → (∃ p, k.plate slot = some p ∧ p.state = .finishing ∧ p.attempt = a ∧ p.status = .opened) →
          place = .carrier) ∧
        (exposureBegun k slot a = false →
          ¬(∃ p, k.plate slot = some p ∧ p.state = .finishing ∧ p.attempt = a ∧ p.status = .opened) → place = .none)))

theorem reportMark_fence (k : Chip) (slot a : Nat) (loc : Location) (detail : Nat) (named : Option Place) :
    k.fenceMarked (reportMark ⟨slot, a, .fence, loc, none, detail, named, none⟩ k) slot a loc detail named := by
  intro held
  obtain ⟨p, hp⟩ := Option.isSome_iff_exists.mp held
  refine ⟨fun ha => ?_, fun ha hl => ?_⟩
  · rw [reportMark, recordMark_suppressed ((suppressed_iff _ _).mpr (.inl ⟨rfl, ha⟩))]
  · let m : MarkReport := ⟨slot, a, .fence, loc, none, detail, named, none⟩
    have fresh : suppressed (k.marks m.slot) m = false := by
      rw [← Bool.not_eq_true, suppressed_iff]
      rintro (h | h)
      · exact ha h.2
      · exact nomatch h.1
    have place := placeOf_eq (severity := .fail) (named := named) (slot := slot) (attempt := a) hp
    rw [if_neg (by decide)] at place
    have list : (reportMark m k).marks slot =
        { remember (k.marks slot) m with marks := (k.marks slot).marks ++ [markOf m k] } := by
      rw [reportMark, recordMark_room hp fresh hl]
      exact recorded_marks _ _ _ _ _
    refine ⟨placeOf k .fail named slot a, by rw [list]; rfl, by rw [list, remember_eq]; rfl, fun q hq => ?_, fun hn => ⟨fun hb => ?_, fun hb hf => ?_, fun hb hf => ?_⟩⟩
    · rw [place, hq]
      rfl
    · rw [place, hn, hb]
      rfl
    · obtain ⟨q, hq, finishing⟩ := hf
      cases hp.symm.trans hq
      rw [place, hn, hb, if_pos finishing]
      rfl
    · rw [place, hn, hb, if_neg (fun finishing => hf ⟨p, hp, finishing⟩)]
      rfl

/-! ### The parse (R40) -/

/-- A cleared cell is not held, and the others keep their hold bits. -/
theorem clearCells_holdMap (u : IntakeUnit) (cs : List Nat) (c : Nat) :
    (clearCells u cs).holdMap.getLsbD c = (u.holdMap.getLsbD c && !decide (c ∈ cs)) := by
  simp only [clearCells]
  generalize u.holdMap = m
  induction cs generalizing m with
  | nil => simp
  | cons x cs ih =>
    rw [List.foldl_cons, ih]
    simp only [mapSet, Bool.false_eq_true, if_false, BitVec.getLsbD_and, BitVec.getLsbD_not, BitVec.getLsbD_shiftLeft, List.mem_cons]
    by_cases hc : c < 4096
    · by_cases hx : c = x
      · simp [hx]
      · have : ¬ c - x = 0 ∨ c < x := by omega
        rcases this with h | h
        · simp [hc, hx, h]
        · simp [hc, hx, h]
    · simp [BitVec.getLsbD_of_ge _ _ (Nat.le_of_not_lt hc)]

/-- The event of a refused parse: FENCE is counted in the record that its header names, when there is one. -/
def fencedEvent (k : Chip) (p : Parse) : IuEvent :=
  let e := IuEvent.start { k.iu with parse := none }
  match p.header with
  | some h => e.noteIf (recordNamed k.iu.dir h.key h.version) .fence
  | none => e

theorem parseFenced_eq {k : Chip} {p : Parse} (h : k.iu.parse = some p) :
    parseFenced k = finishEvent (fencedEvent k p) (some p.cell) false true k := by
  rw [parseFenced, h]
  rfl

theorem sound_noteIf {k : Chip} {e : IuEvent} (h : e.sound k) (i : Option Nat) (n : NoteKind) :
    (e.noteIf i n).sound k ∧ (e.noteIf i n).founded = e.founded := by
  cases i with
  | none => exact ⟨h, rfl⟩
  | some i =>
    unfold IuEvent.noteIf IuEvent.note
    dsimp only
    split
    · exact ⟨h, rfl⟩
    · next r hr =>
      obtain ⟨h1, h2, h3, h4, h5⟩ := IuEvent.sound_put h i ((⟨r, false⟩ : Judged).note n).r (by simp [hr])
      exact ⟨⟨h1, h2, h3, h4, h5⟩, rfl⟩

/-- A note changes the directory and what follows it, and nothing else of IU. -/
theorem noteIf_u (e : IuEvent) (i : Option Nat) (n : NoteKind) : (e.noteIf i n).u = e.u ∨ ∃ dir, (e.noteIf i n).u = e.u.setDir dir := by
  cases i with
  | none => exact .inl rfl
  | some i =>
    unfold IuEvent.noteIf IuEvent.note
    dsimp only
    split
    · exact .inl rfl
    · exact .inr ⟨_, rfl⟩

theorem fencedEvent_sound (k : Chip) (p : Parse) : (fencedEvent k p).sound k ∧ (fencedEvent k p).founded = none := by
  have start : (IuEvent.start { k.iu with parse := none }).sound k :=
    {
    nodup := List.nodup_nil
    changed := fun _ h => absurd rfl h
    hold := rfl
    founded := fun _ h => nomatch h
    added := fun _ h _ => h }
  unfold fencedEvent
  dsimp only
  split
  · exact sound_noteIf start _ _
  · exact ⟨start, rfl⟩

theorem fencedEvent_u (k : Chip) (p : Parse) : (fencedEvent k p).u.parse = none ∧ (fencedEvent k p).u.queue = k.iu.queue := by
  unfold fencedEvent
  dsimp only
  split
  · next h _ =>
    obtain same | ⟨dir, other⟩ := noteIf_u (IuEvent.start { k.iu with parse := none }) (recordNamed k.iu.dir h.key h.version) .fence
    · exact ⟨by rw [same]; rfl, by rw [same]; rfl⟩
    · exact ⟨by rw [other]; rfl, by rw [other]; rfl⟩
  · exact ⟨rfl, rfl⟩

/-- A cell that nothing uses any more is not held once its parse has ended (R50). -/
theorem released_of_unused {k : Chip} {e : IuEvent} {c : Nat} (hp : e.u.parse = none) (hu : tblGet e.u.useCounts c = none)
    (hq : .fragment c ∉ e.u.queue) : (clearCells e.u (releasedCells k e (some c))).holdMap.getLsbD c = false := by
  rw [clearCells_holdMap]
  cases held : e.u.holdMap.getLsbD c with
  | false => rfl
  | true =>
    have listed : c ∈ distinct ((k.iu.useCounts.map (·.1)) ++ [c]) := ((distinct_spec _).2 c).2 (by simp)
    have free : e.u.releasable c = true := by simp [IntakeUnit.releasable, IntakeUnit.cellBusy, held, hp, hu, hq]
    have : c ∈ releasedCells k e (some c) := List.mem_filter.mpr ⟨listed, free⟩
    simp [this]

theorem recordNamed_none {dir : List (Nat × PageRecord)} {key : PageKey} {version : Nat}
    (h : ∀ e ∈ dir, ¬(e.2.key = key ∧ e.2.version = version)) : recordNamed dir key version = none := by
  have : dir.filter (fun e => decide (e.2.key = key) && decide (e.2.version = version)) = [] := by
    rw [List.filter_eq_nil_iff]
    simpa using h
  rw [recordNamed, recordsOf, this]
  rfl

theorem mem_of_tblGet {α : Type} {l : List (Nat × α)} {i : Nat} {x : α} (h : tblGet l i = some x) : (i, x) ∈ l := by
  induction l with
  | nil => cases h
  | cons e l ih =>
    rw [tblGet] at h
    split at h
    · next here =>
      cases h
      rw [← here]
      exact List.mem_cons_self
    · exact List.mem_cons_of_mem _ (ih h)

/-- In a sound directory the record of a key and version is found. -/
theorem recordNamed_of_get {k : Chip} (hs : k.pagesSound) {i : Nat} {q : PageRecord} (h : tblGet k.iu.dir i = some q) :
    recordNamed k.iu.dir q.key q.version = some i := by
  obtain ⟨sorted, unique, -⟩ := hs
  let named := fun e : Nat × PageRecord => decide (e.2.key = q.key) && decide (e.2.version = q.version)
  have one : ∀ e ∈ k.iu.dir.filter named, e.1 = i := by
    intro e he
    obtain ⟨mem, same⟩ := List.mem_filter.mp he
    simp only [named, Bool.and_eq_true, decide_eq_true_eq] at same
    exact unique e.1 i e.2 q (tblGet_of_mem _ sorted e mem) h same.1 same.2
  have here : (i, q) ∈ k.iu.dir.filter named := List.mem_filter.mpr ⟨mem_of_tblGet h, by simp [named]⟩
  rw [recordNamed, recordsOf]
  show ((k.iu.dir.filter named).map (·.1)).head? = some i
  cases hl : k.iu.dir.filter named with
  | nil => rw [hl] at here; cases here
  | cons e l => exact congrArg some (one e (by rw [hl]; exact List.mem_cons_self))

theorem mem_withLastNotices {x : Notice} (n : List Notice) {ts : List Transfer} (h : ∃ t ∈ ts, x ∈ t.notices) :
    ∃ t ∈ withLastNotices n ts, x ∈ t.notices := by
  obtain ⟨t, ht, hx⟩ := h
  obtain ⟨a, u, rfl⟩ : ∃ a u, ts = a ++ [u] := ⟨_, _, (List.dropLast_append_getLast (List.ne_nil_of_mem ht)).symm⟩
  rw [withLastNotices_append]
  rcases List.mem_append.mp ht with ht | ht
  · exact ⟨t, List.mem_append_left _ ht, hx⟩
  · cases List.mem_singleton.mp ht
    exact ⟨_, List.mem_append_right _ List.mem_cons_self, List.mem_append_left _ hx⟩

/-- An event that changes pages sets ALERT.PAGES behind its last header (R55 (6)). -/
theorem finishEvent_pages {e : IuEvent} (parsed : Option Nat) (dirfull settle : Bool) (k : Chip) (hp : e.pages = true)
    (hh : e.headers ≠ []) : ∃ w ∈ (finishEvent e parsed dirfull settle k).sp.iu, .alert .pages ∈ w.notices := by
  obtain ⟨l, i, hl⟩ : ∃ l i, e.headers = l ++ [i] := ⟨_, _, (List.dropLast_append_getLast hh).symm⟩
  have told : ∃ w ∈ recordWrites k e, .alert .pages ∈ w.notices := by
    unfold recordWrites
    simp only [hp, if_true]
    rw [hl, List.map_append, List.map_singleton, withLastNotices_append]
    exact ⟨_, List.mem_append_right _ (List.mem_append_right _ List.mem_cons_self), List.mem_append_right _ List.mem_cons_self⟩
  have behind (ws : List Transfer) : ∃ w ∈ recordWrites k e ++ ws, .alert .pages ∈ w.notices := by
    obtain ⟨w, hw, hx⟩ := told
    exact ⟨w, List.mem_append_left _ hw, hx⟩
  have queued {ts : List Transfer} (j : Chip) (hc : ∀ t ∈ ts, t.client = .iu) (ht : ∃ w ∈ ts, .alert .pages ∈ w.notices) :
      ∃ w ∈ (issueAll ts j).sp.iu, Notice.alert .pages ∈ w.notices := by
    obtain ⟨w, hw, hx⟩ := ht
    rw [issueAll_iu _ _ hc]
    exact ⟨w, List.mem_append_right _ hw, hx⟩
  have client (n c) : ∀ t ∈ recordWrites k e ++
      withLastNotices n (cellMapWrites k.lay.mapBase (clearCells e.u c).holdMap c), t.client = .iu := by
    intro t ht
    rcases List.mem_append.mp ht with h | h
    · exact recordWrites_client k e t h
    · exact withLastNotices_client (cellMapWrites_client _ _ _) t h
  unfold finishEvent
  dsimp only
  generalize Notice.alert .cells :: (if dirfull = true then [Notice.alert .pages] else []) = n
  split
  · exact queued _ (withLastNotices_client (client _ _)) (mem_withLastNotices _ (behind _))
  · exact queued _ (client _ _) (behind _)

/-- FENCE is counted in the record that the header names. -/
theorem fencedEvent_note {k : Chip} (hs : k.pagesSound) {p : Parse} {h : FragHeader} (hp : p.header = some h) {i : Nat}
    {q : PageRecord} (hi : tblGet k.iu.dir i = some q) (hk : q.key = h.key) (hv : q.version = h.version) :
    (∀ j, tblGet (fencedEvent k p).u.dir j = if j = i then
      some { q with notes := { q.notes with fence := min 255 (q.notes.fence + 1) } } else tblGet k.iu.dir j) ∧
    (fencedEvent k p).pages = true ∧ (fencedEvent k p).headers = [i] := by
  have named := recordNamed_of_get hs hi
  obtain ⟨-, -, -, complete, -⟩ := hs
  have event : fencedEvent k p = (IuEvent.start { k.iu with parse := none }).putMarked i ((⟨q, false⟩ : Judged).note .fence) := by
    have get : tblGet (IuEvent.start { k.iu with parse := none }).u.dir i = some q := hi
    rw [fencedEvent, hp]
    dsimp only
    rw [← hk, ← hv, named, IuEvent.noteIf, IuEvent.note, get]
  have was : (q.wasComplete || decide (q.state = .complete)) = q.wasComplete := by
    by_cases hc : q.state = .complete
    · simp [complete i q hi hc]
    · simp [hc]
  rw [event]
  refine ⟨fun j => ?_, Bool.or_true _, rfl⟩
  simp only [IuEvent.putMarked, IuEvent.put, IntakeUnit.setDir, tblGet_tblPut]
  congr 2
  exact congrArg (fun w => { q with notes := q.notes.add .fence, wasComplete := w }) was

/-- The end of an event that settles, with its writes. -/
theorem finishEvent_settles {k : Chip} {e : IuEvent} (c : Nat) (h : e.sound k) (hf : e.founded = none) :
    ∃ ws, finishEvent e (some c) false true k =
        { k with
          iu := { clearCells e.u (releasedCells k e (some c)) with settling := e.u.settling || !ws.isEmpty }
          sp := { k.sp with iu := k.sp.iu ++ ws } } ∧
      k.intakeWrites (finishEvent e (some c) false true k) none ws := by
  obtain ⟨ws, hw, end_⟩ := finishEvent_spec e (some c) false true k
  refine ⟨ws, end_, ?_⟩
  rw [← hf]
  exact eventWrites_are k _ e _ h (finishEvent_dir ..) (by rw [end_]) ws hw

/-- A refused parse ends: its cell is released, and the record that the header names counts FENCE (R40). -/
theorem parseFenced_ends (k : Chip) (p : Parse) (hp : k.iu.parse = some p) :
    let t := parseFenced k
    t.iu.parse = none ∧ t.iu.queue = k.iu.queue ∧
      (p.cell < 4096 → tblGet t.iu.useCounts p.cell = none → .fragment p.cell ∉ k.iu.queue → t.iu.holdMap.getLsbD p.cell = false) ∧
      (∃ ws, t.sp.iu = k.sp.iu ++ ws ∧ k.intakeWrites t none ws ∧ (ws ≠ [] → t.iu.settling = true)) ∧
      (p.header = none → t.iu.dir = k.iu.dir) ∧
      ∀ h, p.header = some h →
        ((∀ e ∈ k.iu.dir, ¬(e.2.key = h.key ∧ e.2.version = h.version)) → t.iu.dir = k.iu.dir) ∧
        ∀ i q, k.pagesSound → tblGet k.iu.dir i = some q → q.key = h.key → q.version = h.version →
          tblGet t.iu.dir i = some { q with notes := { q.notes with fence := min 255 (q.notes.fence + 1) } } ∧
          (∀ j, j ≠ i → tblGet t.iu.dir j = tblGet k.iu.dir j) ∧ ∃ w ∈ t.sp.iu, .alert .pages ∈ w.notices := by
  obtain ⟨sound, founded⟩ := fencedEvent_sound k p
  obtain ⟨idle, queue⟩ := fencedEvent_u k p
  obtain ⟨ws, end_, writes⟩ := finishEvent_settles p.cell sound founded
  have dir := finishEvent_dir (fencedEvent k p) (some p.cell) false true k
  rw [← parseFenced_eq hp] at end_ writes dir
  intro t
  refine ⟨by rw [show t = _ from end_]; exact idle, by rw [show t = _ from end_]; exact queue, fun _ hu hq => ?_,
    ⟨ws, by rw [show t = _ from end_], writes, fun hw => ?_⟩, fun hh => ?_, fun h hh => ⟨fun none_ => ?_, fun i q hs hi hk hv => ?_⟩⟩
  · rw [show t = _ from end_] at hu ⊢
    exact released_of_unused idle hu (by rwa [queue])
  · rw [show t = _ from end_]
    simp [hw]
  · rw [show t.iu.dir = _ from dir, fencedEvent, hh]
    rfl
  · rw [show t.iu.dir = _ from dir, fencedEvent, hh]
    dsimp only
    rw [recordNamed_none none_]
    rfl
  · obtain ⟨noted, pages, headers⟩ := fencedEvent_note hs hh hi hk hv
    rw [show t.iu.dir = _ from dir]
    refine ⟨by rw [noted, if_pos rfl], fun j hj => by rw [noted, if_neg hj], ?_⟩
    rw [show t = _ from parseFenced_eq hp]
    exact finishEvent_pages _ _ _ _ pages (by simp [headers])

/-! ### A fill (R41, R121) -/

/-- A refused fill that is in progress is abandoned, its buffer FREE, and its entry stalls. -/
def abandonedFill (slot a : Nat) (b : BandRenderer) : BandRenderer :=
  { b with
    fill := none, buffers := b.buffers.map Buffer.stopFilling
    order := b.order.map (fun e => if e.slot = slot ∧ e.attempt = a then { e with stall := true } else e) }

theorem fillRefused_eq (id slot a sw no : Nat) (k : Chip) : ∃ b,
    fillRefused id slot a sw no k = reportMark ⟨slot, a, .fence, .swath sw, none, no, none, none⟩ (k.setBr b) ∧
      (∀ f, k.br.fill = some f → f.id = id → b = abandonedFill slot a k.br) ∧
      ((∀ f, k.br.fill = some f → f.id ≠ id) → b = k.br) := by
  unfold fillRefused
  cases hf : k.br.fill with
  | none => exact ⟨k.br, rfl, fun _ h => (nomatch h), fun _ => rfl⟩
  | some f =>
    dsimp only
    by_cases hi : f.id = id
    · refine ⟨abandonedFill slot a k.br, ?_, fun _ _ _ => rfl, fun h => absurd hi (h f rfl)⟩
      rw [if_pos hi]
      simp [updateEntry, abandonFill, abandonedFill, RenderEntry.isFor, Chip.setBr]
    · rw [if_neg hi]
      refine ⟨k.br, rfl, fun g hg he => ?_, fun _ => rfl⟩
      cases hg
      exact absurd he hi

/-! ### The prefetch (R31, R41) -/

theorem rowSetArrives_eq {k : Chip} {y : Pass} (j : Nat) (data : List Byte) (h : k.hf.pass = some y) : rowSetArrives y.id j data k =
    k.fetchesFor { y with underway := y.underway - 1, prefetch := y.prefetch ++ [(j, data)] } := by
  rw [rowSetArrives, h]
  dsimp only
  rw [if_pos rfl]
  exact hfFetch_eq _ _ rfl

/-- A row set that comes changes HF and its queue only. -/
theorem rowSetArrives_only (pass j : Nat) (data : List Byte) (k : Chip) :
    ∃ h q, rowSetArrives pass j data k = { k with hf := h, sp := { k.sp with hf := q } } := by
  unfold rowSetArrives
  cases hp : k.hf.pass with
  | none => exact ⟨k.hf, k.sp.hf, rfl⟩
  | some y =>
    dsimp only
    split
    · rw [hfFetch_eq _ _ rfl]
      exact ⟨_, _, rfl⟩
    · exact ⟨k.hf, k.sp.hf, rfl⟩

/-- A refused row set read brings zeros, and marks the drum plate, if there is one. -/
theorem hfRefused_eq (pass j : Nat) (k : Chip) :
    hfRefused pass j k = rowSetArrives pass j (List.replicate 4096 0) k ∨
      ∃ m, hfRefused pass j k = reportMark m (rowSetArrives pass j (List.replicate 4096 0) k) := by
  unfold hfRefused imcMark
  dsimp only
  split
  · exact .inr ⟨_, rfl⟩
  · exact .inl rfl

theorem hfRefused_pass {k : Chip} {y : Pass} (j : Nat) (h : k.hf.pass = some y) :
    let got : Pass := { y with underway := y.underway - 1, prefetch := y.prefetch ++ [(j, List.replicate 4096 0)] }
    (hfRefused y.id j k).hf = (k.fetchesFor got).hf ∧ (hfRefused y.id j k).sp.hf = (k.fetchesFor got).sp.hf := by
  have arrives := rowSetArrives_eq j (List.replicate 4096 0) h
  obtain same | ⟨m, marked⟩ := hfRefused_eq y.id j k
  · rw [same, arrives]
    exact ⟨rfl, rfl⟩
  · obtain ⟨l, r, spec, -⟩ := reportMark_spec m (rowSetArrives y.id j (List.replicate 4096 0) k)
    rw [marked, spec, arrives]
    exact ⟨rfl, rfl⟩

theorem hfRefused_marks {k : Chip} (pass j : Nat) {dr : Drum} {p : PlateRef} (hd : k.imc.drum = some dr) (ho : dr.owner = some p) :
    k.fenceMarked (hfRefused pass j k) p.slot p.attempt (.swath k.imc.exposure.cursor) 4 (some .drum) := by
  obtain ⟨h, q, arrives⟩ := rowSetArrives_only pass j (List.replicate 4096 0) k
  have drum : drumPlate { k with hf := h, sp := { k.sp with hf := q } } = some p := by
    rw [drumPlate]
    dsimp only
    rw [hd]
    exact ho
  rw [hfRefused, arrives]
  dsimp only
  rw [drum]
  exact reportMark_fence { k with hf := h, sp := { k.sp with hf := q } } _ _ _ _ _

/-! ### Every refusal (R39–R42) -/

/-- What an offer changes beside the queue of REPORT, and the run state: what a block's own reaction to a refusal leaves alone. -/
def Chip.faultView (k : Chip) : FaultRecord × Registers × Dispatcher := (k.dmr.record, k.regs, k.pd)

theorem reportMark_faultView (m : MarkReport) (k : Chip) : (reportMark m k).faultView = k.faultView := by
  obtain ⟨l, r, spec, -⟩ := reportMark_spec m k
  rw [spec]
  rfl

theorem parseFenced_faultView (k : Chip) : (parseFenced k).faultView = k.faultView := by
  cases h : k.iu.parse with
  | none =>
    rw [parseFenced, h]
  | some p =>
    obtain ⟨ws, -, end_⟩ := finishEvent_spec (fencedEvent k p) (some p.cell) false true k
    rw [parseFenced_eq h, end_]
    rfl

theorem fillRefused_faultView (id slot a sw no : Nat) (k : Chip) : (fillRefused id slot a sw no k).faultView = k.faultView := by
  obtain ⟨b, spec, -⟩ := fillRefused_eq id slot a sw no k
  rw [spec, reportMark_faultView]
  rfl

theorem reloadRefused_faultView (k : Chip) : (reloadRefused k).faultView = k.faultView := by
  unfold reloadRefused
  split <;> rfl

theorem hfRefused_faultView (pass j : Nat) (k : Chip) : (hfRefused pass j k).faultView = k.faultView := by
  obtain ⟨h, q, arrives⟩ := rowSetArrives_only pass j (List.replicate 4096 0) k
  obtain same | ⟨m, marked⟩ := hfRefused_eq pass j k
  · rw [same, arrives]
    rfl
  · rw [marked, reportMark_faultView, arrives]
    rfl

/-- Where the part does not halt, the block's reaction leaves the offer as it was taken. -/
theorem refuse_faultView {t : Transfer} {m : Stream} {d : Nat} {k : Chip} (h1 : m ≠ .iuWrite) (h2 : m ≠ .reportWrite) :
    (refuse t m d k).faultView = (offerFault (fenceOffer t m d) k).faultView := by
  cases m with
  | iuWrite => exact absurd rfl h1
  | reportWrite => exact absurd rfl h2
  | iuRead => exact parseFenced_faultView _
  | brRead =>
    rw [refuse]
    split
    · exact fillRefused_faultView _ _ _ _ _ _
    · exact reloadRefused_faultView _
    · rfl
  | brWrite =>
    rw [refuse]
    split
    · exact fillRefused_faultView _ _ _ _ _ _
    · rfl
  | hfRead =>
    rw [refuse]
    split
    · exact hfRefused_faultView _ _ _
    · rfl

end Sys2Proof.Machine
end

