-- ==== Sys2Proof/Proofs/Refusals.lean ====
section
/-! SUPPORT. Every refusal meets R39 to R42, at the grant and at the fence map word (O23, O24). -/

namespace Sys2Proof.Machine

/-! ### The offer of a refused transfer -/

/-- The refusal of IU-write or REPORT-write halts the part, with its cause. -/
theorem refuse_halting {t : Transfer} {m : Stream} {d : Nat} {k : Chip} (h : m = .iuWrite ∨ m = .reportWrite) :
    refuse t m d k = haltPart (if m = .iuWrite then 1 else 2) (fenceOffer t m d) k := by
  rcases h with rfl | rfl <;> rfl

/-- Whether or not it halts the part, a refusal is offered to the fault record. -/
theorem refuse_offered (t : Transfer) (m : Stream) (d : Nat) (k : Chip) :
    let o := takeOffer (fenceOffer t m d) k
    (refuse t m d k).dmr.record = o.dmr.record ∧ (refuse t m d k).regs.faultValid = o.regs.faultValid ∧
      (refuse t m d k).regs.faultKind = o.regs.faultKind ∧ (refuse t m d k).regs.faultUnit = o.regs.faultUnit := by
  by_cases h : m = .iuWrite ∨ m = .reportWrite
  · obtain ⟨r, halted, valid, kind, unit_, -⟩ := haltPart_eq (if m = .iuWrite then 1 else 2) (fenceOffer t m d) k
    rw [refuse_halting h, halted]
    exact ⟨rfl, valid, kind, unit_⟩
  · rw [not_or] at h
    obtain ⟨r, ws, offered, valid, kind, unit_, -⟩ := offerFault_eq (fenceOffer t m d) k
    have view := refuse_faultView (t := t) (d := d) (k := k) h.1 h.2
    rw [offered] at view
    have regs : (refuse t m d k).regs = r := congrArg (·.2.1) view
    refine ⟨congrArg (·.1) view, ?_⟩
    rw [regs]
    exact ⟨valid, kind, unit_⟩

theorem refuse_pd {t : Transfer} {m : Stream} {d : Nat} {k : Chip} (h1 : m ≠ .iuWrite) (h2 : m ≠ .reportWrite) :
    (refuse t m d k).pd = k.pd := by
  obtain ⟨r, ws, offered, -⟩ := offerFault_eq (fenceOffer t m d) k
  have view := refuse_faultView (t := t) (d := d) (k := k) h1 h2
  rw [offered] at view
  exact congrArg (·.2.2) view

/-! ### The work of the block that asked -/

/-- A refused read of IU ends the parse, if there is one. -/
theorem refuse_iuRead (t : Transfer) (d : Nat) (k : Chip) : ∃ r ws,
    refuse t .iuRead d k = parseFenced (k.offered (fenceOffer t .iuRead d) r ws) := by
  obtain ⟨r, ws, offered, -⟩ := offerFault_eq (fenceOffer t .iuRead d) k
  exact ⟨r, ws, by rw [refuse, offered]⟩

/-- A refused transfer of a fill abandons it and marks FENCE. -/
theorem refuse_fill {t : Transfer} {m : Stream} {id slot a sw : Nat} (d : Nat) (k : Chip) (hm : m = .brRead ∨ m = .brWrite)
    (hp : t.purpose = .fill id slot a sw) :
    (∀ f, k.br.fill = some f → f.id = id → (refuse t m d k).br = abandonedFill slot a k.br) ∧
      ((∀ f, k.br.fill = some f → f.id ≠ id) → (refuse t m d k).br = k.br) ∧
      k.fenceMarked (refuse t m d k) slot a (.swath sw) (if m = .brRead then 2 else 3) none := by
  obtain ⟨r, ws, offered, -, -, -, clock⟩ := offerFault_eq (fenceOffer t m d) k
  have refused : refuse t m d k =
      fillRefused id slot a sw (if m = .brRead then 2 else 3) (k.offered (fenceOffer t m d) r ws) := by
    rcases hm with rfl | rfl
    · rw [refuse, hp, offered]
      rfl
    · rw [refuse, hp, offered]
      rfl
  obtain ⟨b, spec, mine, other⟩ :=
    fillRefused_eq id slot a sw (if m = .brRead then 2 else 3) (k.offered (fenceOffer t m d) r ws)
  obtain ⟨l, q, marked, -⟩ := reportMark_spec ⟨slot, a, .fence, .swath sw, none, if m = .brRead then 2 else 3, none, none⟩
    ((k.offered (fenceOffer t m d) r ws).setBr b)
  have br : (refuse t m d k).br = b := by
    rw [refused, spec, marked]
    rfl
  refine ⟨fun f hf hi => br.trans (mine f hf hi), fun h => br.trans (other h), ?_⟩
  rw [refused, spec, Chip.fenceMarked, ← clock]
  exact reportMark_fence ((k.offered (fenceOffer t m d) r ws).setBr b) slot a (.swath sw) _ none

/-- A refused row set brings zeros to the pass that waits for it, and marks FENCE on the drum plate. -/
theorem refuse_rowSet {t : Transfer} {j : Nat} {y : Pass} (d : Nat) {k : Chip} (hp : t.purpose = .rowSet y.id j)
    (hy : k.hf.pass = some y) :
    let got : Pass := { y with underway := y.underway - 1, prefetch := y.prefetch ++ [(j, List.replicate 4096 0)] }
    ((refuse t .hfRead d k).hf = (k.fetchesFor got).hf ∧ (refuse t .hfRead d k).sp.hf = (k.fetchesFor got).sp.hf) ∧
      ∀ dr p, k.imc.drum = some dr → dr.owner = some p →
        k.fenceMarked (refuse t .hfRead d k) p.slot p.attempt (.swath k.imc.exposure.cursor) 4 (some .drum) := by
  obtain ⟨r, ws, offered, -, -, -, clock⟩ := offerFault_eq (fenceOffer t .hfRead d) k
  have refused : refuse t .hfRead d k = hfRefused y.id j (k.offered (fenceOffer t .hfRead d) r ws) := by
    rw [refuse, hp, offered]
  rw [refused]
  refine ⟨hfRefused_pass (k := k.offered (fenceOffer t .hfRead d) r ws) j hy, fun dr p hd ho => ?_⟩
  rw [Chip.fenceMarked, ← clock]
  exact hfRefused_marks (k := k.offered (fenceOffer t .hfRead d) r ws) y.id j hd ho

/-- A refused read of a table ends its reload. -/
theorem refuse_table {t : Transfer} (d : Nat) {k : Chip} {y : Reload} (hp : t.purpose = .table) (hy : k.tl.reload = some y) :
    (refuse t .brRead d k).tl.reload = some { y with reads := [], outcome := some false } := by
  obtain ⟨r, ws, offered, -⟩ := offerFault_eq (fenceOffer t .brRead d) k
  have reload : (k.offered (fenceOffer t .brRead d) r ws).tl.reload = some y := hy
  rw [refuse, hp, offered]
  dsimp only
  rw [reloadRefused, reload]
  rfl

/-! ### Every refusal -/

/-- A refusal does what R39 to R42 say. -/
theorem refuse_refused (k : Chip) (t : Transfer) (m : Stream) (d : Nat) : k.refused (refuse t m d k) t m d := by
  obtain ⟨record, valid, kind, unit_⟩ := refuse_offered t m d k
  refine ⟨?_, by rw [valid, takeOffer_faultValid], fun h => ?_, fun h => ?_, refuse_pd, fun h => ⟨fun hp => ?_, fun p hp => ?_⟩,
    fun h hp y hy => ?_, fun id slot a sw hm hp => ?_, fun j y h hp hy => ?_⟩
  · rw [record, takeOffer_record]
    rfl
  · rw [kind, unit_]
    exact takeOffer_latches h
  · obtain ⟨r, halted, -, -, -, cause, alert⟩ := haltPart_eq (if m = .iuWrite then 1 else 2) (fenceOffer t m d) k
    rw [refuse_halting h, halted]
    exact ⟨rfl, cause, alert, rfl, rfl, rfl, rfl, rfl, rfl, rfl, rfl, rfl⟩
  · subst h
    obtain ⟨r, ws, refused⟩ := refuse_iuRead t d k
    have idle : (k.offered (fenceOffer t .iuRead d) r ws).iu.parse = none := hp
    rw [refused, parseFenced, idle]
    rfl
  · subst h
    obtain ⟨r, ws, refused⟩ := refuse_iuRead t d k
    rw [refused]
    exact parseFenced_ends (k.offered (fenceOffer t .iuRead d) r ws) p hp
  · subst h
    exact refuse_table d hp hy
  · obtain ⟨mine, other⟩ := refuse_fill d k hm hp
    refine ⟨fun f hf hi => (mine f hf hi).trans ?_, other⟩
    refine congrArg (fun l => { abandonedFill slot a k.br with buffers := l }) (List.map_congr_left (fun b _ => ?_))
    cases b <;> rfl
  · subst h
    exact refuse_rowSet d hp hy

/-- Settles O23. -/
theorem refusalOfTransfer : Obligations.RefusalOfTransfer := by
  intro s t c pos d m h hm hc
  have check := (checkTransfer_dequeue c pos s.chip t).trans hc
  refine ⟨_, grant_of_granted h, ?_⟩
  rw [grantStore, grantChip, check]
  dsimp only
  rw [refuseTransfer, hm]
  have left : dequeue c pos s.chip =
      { s.chip with sp := { s.chip.sp.setWaiting c ((s.chip.sp.waiting c).drop 1) with weightPos := pos } } := rfl
  refine ⟨rfl, rfl, ?_⟩
  rw [← left]
  exact refuse_refused _ t m d

/-! ### The fence map word that comes (R37) -/

/-- Settles O24. -/
theorem fetchDecides : Obligations.FetchDecides := by
  intro s c hc cache dom k
  have kept : keepWord c s.chip.sp.cache = cache := rfl
  have run : exec .fenceMapFetchComplete s = .next (fetchComplete s) := rfl
  have closed : fetchCloses s.chip.sp c = c.value.getLsbD ((c.xfer.addr - dom.base) / 4096 % 64) := rfl
  have chip : s.chip.setSp { s.chip.sp with check := none, cache := keepWord c s.chip.sp.cache } = k := rfl
  rw [run, fetchComplete, hc]
  dsimp only
  rw [closed, chip]
  refine ⟨_, rfl, ?_⟩
  by_cases hb : c.value.getLsbD ((c.xfer.addr - dom.base) / 4096 % 64) = true
  · rw [if_pos hb, if_pos hb]
    have check : (refuseTransfer c.xfer c.domain k).sp.check = none ∧ (refuseTransfer c.xfer c.domain k).sp.cache = cache := by
      have core : (refuseTransfer c.xfer c.domain k).sp.core = k.sp.core := by
        obtain same | halted := refuseTransfer_ctl c.xfer c.domain k
        · exact congrArg (·.2.2.1) same
        · exact (congrArg (·.2.2.1) halted).trans rfl
      exact ⟨congrArg (·.2.2.1) core, congrArg (·.2.2.2.2.2.1) core⟩
    refine ⟨rfl, rfl, check.2, check.1, fun hn => ?_, fun m hm => ?_⟩
    · rw [State.setChip_chip, refuseTransfer, hn]
    · rw [State.setChip_chip, refuseTransfer, hm]
      exact refuse_refused k c.xfer m c.domain
  · rw [if_neg hb, if_neg hb]
    exact ⟨rfl, rfl, fun a => serveStore_read c.xfer s.store a⟩

end Sys2Proof.Machine
end

