-- ==== Sys2Proof/Proofs/Line.lean ====
section
/-! SUPPORT. The handler line: the states of the units, the choice of an exchange, and the pause of a held unit (O59, O60). -/

namespace Sys2Proof.Machine

/-! ### Units -/

@[simp] theorem unit_setUnit_self (h : HandlerLine) (u : HUnit) (x : UnitState) : (h.setUnit u x).unit u = x := by cases u <;> rfl

theorem unit_setUnit_ne (h : HandlerLine) {u v : HUnit} (x : UnitState) (hv : v ≠ u) : (h.setUnit u x).unit v = h.unit v := by
  cases u <;> cases v <;> simp_all [HandlerLine.setUnit, HandlerLine.unit]

@[simp] theorem setUnit_setUnit (h : HandlerLine) (u : HUnit) (x y : UnitState) : (h.setUnit u x).setUnit u y = h.setUnit u y := by
  cases u <;> rfl

/-- Another state for a unit leaves the line, the carriers, the end of the UNLOAD and the count of CLEARs. -/
theorem setUnit_rest (h : HandlerLine) (u : HUnit) (x : UnitState) : (h.setUnit u x).line = h.line ∧
    (h.setUnit u x).carriers = h.carriers ∧ (h.setUnit u x).unloadEnd = h.unloadEnd ∧ (h.setUnit u x).cleared = h.cleared := by
  cases u <;> exact ⟨rfl, rfl, rfl, rfl⟩

@[simp] theorem unit_line (h : HandlerLine) (l : Option Exchange) (u : HUnit) : HandlerLine.unit { h with line := l } u = h.unit u := by
  cases u <;> rfl

theorem setUnit_line (h : HandlerLine) (l : Option Exchange) (u : HUnit) (x : UnitState) :
    HandlerLine.setUnit { h with line := l } u x = { h.setUnit u x with line := l } := by
  cases u <;> rfl

@[simp] theorem Chip.setUnit_setUnit (k : Chip) (u : HUnit) (x y : UnitState) : (k.setUnit u x).setUnit u y = k.setUnit u y :=
  congrArg k.setHlc (Machine.setUnit_setUnit k.hlc u x y)

/-! ### The choice of an exchange (R176) -/

theorem lineActive_iff (k : Chip) :
    lineActive k = true ↔ k.working = true ∨ (k.pd.runState = .starting ∧ k.pd.phase = .clears) := by
  simp [lineActive]

theorem requestDue_iff (x : UnitState) : x.requestDue = true ↔ x.hold = none ∧
    ((x.work = none ∧ x.queue ≠ []) ∨ ∃ r ph, x.work = some (r, ph) ∧ ph ≠ .taken ∧ x.again = true) := by
  rw [UnitState.requestDue, Bool.and_eq_true, Option.isNone_iff_eq_none]
  refine and_congr_right (fun _ => ?_)
  match x.work with
  | none => simp
  | some (r, .sent) => simp
  | some (r, .busyWait) => simp
  | some (r, .taken) => simp

theorem pollIsDue_iff (x : UnitState) :
    x.pollIsDue = true ↔ x.hold = none ∧ x.pollDue = true ∧ ∃ r, x.work = some (r, .taken) := by
  rw [UnitState.pollIsDue, Bool.and_eq_true, Bool.and_eq_true, Option.isNone_iff_eq_none, and_assoc]
  refine and_congr_right (fun _ => and_congr_right (fun _ => ?_))
  match x.work with
  | none => simp
  | some (r, .sent) => simp
  | some (r, .busyWait) => simp
  | some (r, .taken) => simp

/-- The first unit with a property, by rising address. -/
theorem find_unit {p : HUnit → Bool} {u : HUnit} (hu : p u = true) (hl : ∀ v, unitAddr v < unitAddr u → p v = false) :
    unitsInOrder.find? p = some u := by
  have lower (v : HUnit) (h : unitAddr v < unitAddr u) := hl v h
  cases u with
  | loader => simp [unitsInOrder, hu]
  | punch => simp [unitsInOrder, hu, lower .loader (by decide)]
  | processor => simp [unitsInOrder, hu, lower .loader (by decide), lower .punch (by decide)]
  | sorter => simp [unitsInOrder, hu, lower .loader (by decide), lower .punch (by decide), lower .processor (by decide)]

theorem find_unit_none {p : HUnit → Bool} (h : ∀ v, p v = false) : unitsInOrder.find? p = none := by
  simp [List.find?_eq_none, h]

theorem chooseExchange_none {h : HandlerLine} (hr : ∀ v, (h.unit v).requestDue = false) (hp : ∀ v, (h.unit v).pollIsDue = false) :
    chooseExchange h = none := by
  rw [chooseExchange, find_unit_none hr, find_unit_none hp]
  rfl

/-- Request frames go before polls, the lowest address first. -/
theorem chooseExchange_request {h : HandlerLine} {u : HUnit} (hu : (h.unit u).requestDue = true)
    (hl : ∀ v, unitAddr v < unitAddr u → (h.unit v).requestDue = false) : chooseExchange h = some ⟨u, false⟩ := by
  rw [chooseExchange, find_unit hu hl]

theorem chooseExchange_poll {h : HandlerLine} {u : HUnit} (hr : ∀ v, (h.unit v).requestDue = false)
    (hu : (h.unit u).pollIsDue = true) (hl : ∀ v, unitAddr v < unitAddr u → (h.unit v).pollIsDue = false) :
    chooseExchange h = some ⟨u, true⟩ := by
  rw [chooseExchange, find_unit_none hr, find_unit hu hl]
  rfl

/-- A started exchange takes the line and changes its unit. -/
theorem exchangeStart_chosen {k : Chip} {x : Exchange} (ha : lineActive k = true) (hl : k.hlc.line = none)
    (hx : chooseExchange k.hlc = some x) : exchangeStart k = k.setHlc (HandlerLine.setUnit { k.hlc with line := some x } x.unit
      (if x.poll = true then { k.hlc.unit x.unit with pollDue := false } else (k.hlc.unit x.unit).sendRequest)) := by
  rw [exchangeStart, ha, hl, hx]
  rfl

theorem exchangeStart_idle {k : Chip} (h : lineActive k = false ∨ k.hlc.line.isSome = true ∨ chooseExchange k.hlc = none) :
    exchangeStart k = k := by
  unfold exchangeStart
  rcases h with h | h | h
  · rw [h]
    rfl
  · obtain ⟨x, hx⟩ := Option.isSome_iff_exists.mp h
    rw [hx, Option.isNone_some, Bool.and_false]
    rfl
  · rw [h, ite_self]

/-! ### A held unit (R173, R178) -/

/-- HANDLER recorded: its bit and ALERT.PAUSE, and the imager may enter PAUSED. -/
theorem recordPause_handler (k : Chip) : ∃ st target h, recordPause .handler k =
    { k with
      regs := (raise .pause k).regs
      imc := { k.imc with pauses := { k.imc.pauses with handler := true }, state := st, drumTarget := target }, hf := h } := by
  unfold recordPause
  dsimp only
  cases hs : k.imc.state <;> simp only [goTo_paused, reduceCtorEq, or_self, if_false]
  case empty => exact ⟨_, _, _, rfl⟩
  case blank => exact ⟨_, _, _, rfl⟩
  case settling => exact ⟨_, _, _, rfl⟩
  case unloadWait => exact ⟨_, _, _, rfl⟩
  all_goals exact ⟨_, _, _, (by rw [← hs]; rfl)⟩

/-- The chip in which HLC has offered a fault of a unit and recorded HANDLER. -/
def Chip.handlerPaused (k : Chip) (o : FaultOffer) (r : Registers) (ws : List Transfer) (st : ImagerState) (target : Nat) (h : HeadFeed) :
    Chip :=
  { k.offered o r ws with
    imc := { k.imc with pauses := { k.imc.pauses with handler := true }, state := st, drumTarget := target }, hf := h }

theorem recordPause_offerFault (o : FaultOffer) (k : Chip) : ∃ r ws st target h,
    recordPause .handler (offerFault o k) = k.handlerPaused o r ws st target h ∧ r.alert.getLsbD 3 = true := by
  obtain ⟨q, ws, offered, -⟩ := offerFault_eq o k
  obtain ⟨st, target, h, paused⟩ := recordPause_handler (k.offered o q ws)
  refine ⟨_, ws, st, target, h, by rw [offered, paused]; rfl, ?_⟩
  have bit : Cause.pause.mask.getLsbD 3 = true := rfl
  simp only [setAlerts_eq, BitVec.getLsbD_or, bit, Bool.or_true]

/-- A record that is not VALID latches the offer. -/
theorem takeOffer_latched {o : FaultOffer} {k : Chip} (h : k.dmr.record.valid = false) :
    (takeOffer o k).dmr.record = latchOffer o k.regs.plantClock := by
  rw [takeOffer_record, h]
  rfl

/-- HLC holds a unit that is not HELD for another cause than OFFLINE. -/
theorem holdUnit_eq {u : HUnit} {k : Chip} (cause : HoldCause) (detail : Nat) (h : (k.hlc.unit u).hold = none) :
    holdUnit u cause detail k = recordPause .handler (offerFault ⟨.handler, unitAddr u, detail, 0, false, 0, false⟩
      (k.setUnit u { k.hlc.unit u with hold := some cause })) := by
  rw [holdUnit, h]
  rfl

theorem holdUnit_held {u : HUnit} {k : Chip} (cause : HoldCause) (detail : Nat) (h : (k.hlc.unit u).hold.isSome = true) :
    holdUnit u cause detail k = k := by
  rw [holdUnit, h]
  rfl

/-! ### A LOAD or an UNLOAD that fails (R155, R167) -/

/-- What IMC's deferred BREAK mark changes. -/
theorem reportDeferred_eq (place : Place) (k : Chip) : ∃ l r e, reportDeferred place k =
    { k with dmr := { k.dmr with lists := l }, sp := { k.sp with report := r }, imc := { k.imc with exposure := e } } := by
  unfold reportDeferred
  split
  · split
    · next p _ =>
      obtain ⟨l, r, spec, -⟩ :=
        reportMark_spec ⟨p.slot, p.attempt, .broken, .swath k.imc.exposure.cursor, none, 0, some place, none⟩ k
      refine ⟨l, r, { k.imc.exposure with deferredBreak := false }, ?_⟩
      rw [imcMark, spec]
      rfl
    · exact ⟨_, _, _, rfl⟩
  · exact ⟨_, _, _, rfl⟩

/-- An UNLOAD that fails under a pause leaves the drum as it is, and the imager PAUSED. -/
theorem unloadFailed_paused {k : Chip} (hp : k.imc.pauses.any = true) : let t := unloadFailed k
    t.hlc = k.hlc ∧ t.regs = k.regs ∧ t.dmr.record = k.dmr.record ∧ t.imc.pauses = k.imc.pauses ∧ t.imc.drum = k.imc.drum ∧
      t.imc.state = .paused := by
  obtain ⟨l, r, e, deferred⟩ := reportDeferred_eq .drum (k.setDtu { k.dtu with reference := true })
  have paused : unloadFailed k = goTo .paused (reportDeferred .drum (k.setDtu { k.dtu with reference := true })) := by
    rw [unloadFailed, deferred]
    exact if_pos hp
  rw [paused, deferred, goTo_paused]
  exact ⟨rfl, rfl, rfl, rfl, rfl, rfl⟩

theorem afterRequest_paused {k : Chip} (h : k.imc.pauses.any = true) : afterRequest k = goTo .paused k := if_pos h

/-- A LOAD that fails under a pause gives its plate back, and leaves the imager PAUSED. -/
theorem loadEnd_failed_paused {k : Chip} {l : LoadInWork} (hl : k.imc.load = some l) (hp : k.imc.pauses.any = true) :
    loadEnd .failed k =
      { k with
        dtu := { k.dtu with reference := true }, hf := { k.hf with laser := 0 }
        imc := { k.imc with
          load := none, waiting := l.plate.orElse (fun _ => k.imc.waiting), state := .paused, drumTarget := 0 } } := by
  unfold loadEnd
  rw [hl]
  refine (afterRequest_paused ?_).trans (goTo_paused _)
  exact hp

/-- A LOADER request that fails under a pause: HLC, the alerts, the fault record and the drum stay, the imager is PAUSED when it had the
request, and the plate of a LOAD waits again. -/
theorem loaderFailed_paused {k : Chip} (r : Request) (hp : k.imc.pauses.any = true) :
    let t := if r.kind = .unload then unloadFailed k else loadEnd .failed k
    t.hlc = k.hlc ∧ t.regs = k.regs ∧ t.dmr.record = k.dmr.record ∧ t.imc.pauses = k.imc.pauses ∧ t.imc.drum = k.imc.drum ∧
      (r.kind = .unload → t.imc.state = .paused) ∧
      ∀ l, r.kind ≠ .unload → k.imc.load = some l → t.imc.state = .paused ∧ t.imc.load = none ∧
        ∀ p, l.plate = some p → t.imc.waiting = some p := by
  intro t
  by_cases hk : r.kind = .unload
  · have failed : t = unloadFailed k := if_pos hk
    obtain ⟨hlc, regs, record, pauses, drum, state⟩ := unloadFailed_paused hp
    rw [failed]
    exact ⟨hlc, regs, record, pauses, drum, fun _ => state, fun _ h => absurd hk h⟩
  · have failed : t = loadEnd .failed k := if_neg hk
    rw [failed]
    cases hl : k.imc.load with
    | none =>
      rw [loadEnd, hl]
      exact ⟨rfl, rfl, rfl, rfl, rfl, fun h => absurd h hk, fun _ _ h => nomatch h⟩
    | some l =>
      rw [loadEnd_failed_paused hl hp]
      refine ⟨rfl, rfl, rfl, rfl, rfl, fun h => absurd h hk, fun x _ hx => ⟨rfl, rfl, fun p hp => ?_⟩⟩
      cases hx
      simp [hp]

/-- The end of a LOADER request that is not its DONE, nor the EMPTY of a LOAD. -/
theorem loaderEnds_failed {r : Request} {e : RequestEnd} (k : Chip) (hd : e ≠ .done) (he : r.kind = .unload ∨ e ≠ .refused .empty) :
    loaderEnds r e k = if r.kind = .unload then unloadFailed (holdUnit .loader .failure e.detail k)
      else loadEnd .failed (holdUnit .loader .failure e.detail k) := by
  unfold loaderEnds
  split
  · exact absurd rfl hd
  · next h _ => rw [if_pos h]
  · exact absurd rfl hd
  · rcases he with h | h
    · contradiction
    · exact absurd rfl h
  · next h _ => exact (if_neg h).symm

section
variable {r : Request} (e : RequestEnd) (k : Chip) (h : r.kind ≠ .clear)
include h

theorem endRequest_loader : endRequest .loader r e k = loaderEnds r e (k.setUnit .loader k.hlc.loader.workEnds) := if_neg h

theorem endRequest_punch : endRequest .punch r e k = punchEnds r e (k.setUnit .punch k.hlc.punch.workEnds) := if_neg h

theorem endRequest_processor : endRequest .processor r e k = processorEnds r e (k.setUnit .processor k.hlc.processor.workEnds) :=
  if_neg h

theorem endRequest_sorter : endRequest .sorter r e k = sorterEnds r e (k.setUnit .sorter k.hlc.sorter.workEnds) := if_neg h

end

end Sys2Proof.Machine
end

