-- ==== Sys2Proof/Proofs/Exchanges.lean ====
section
/-! SUPPORT. Exchanges on the handler line: their choice, their answers, and their silence (O59). -/

namespace Sys2Proof.Machine

section
variable {k : Chip} {u : HUnit}

/-! ### Answers (R172, R174, R175) -/

theorem answerValid_iff (fr : AnswerFrame) (u : HUnit) : answerValid fr u = true ↔ fr.intact = true ∧ fr.addr = unitAddr u := by
  simp [answerValid]

theorem answerValid_false {fr : AnswerFrame} (h : fr.intact = false ∨ fr.addr ≠ unitAddr u) : answerValid fr u = false := by
  rw [← Bool.not_eq_true, answerValid_iff]
  rintro ⟨intact, addr⟩
  rcases h with h | h
  · exact nomatch h.symm.trans intact
  · exact h addr

/-- No answer to a request frame is awaited, or it is none: nothing changes. -/
theorem requestAnswered_none {fr : AnswerFrame} (a : RequestAnswer)
    (h : k.hlc.line = none ∨ ∃ u, k.hlc.line = some ⟨u, true⟩ ∨ (k.hlc.line = some ⟨u, false⟩ ∧ answerValid fr u = false)) :
    requestAnswered fr a k = k := by
  rcases h with h | ⟨u, h | ⟨h, hv⟩⟩
  · rw [requestAnswered, h]
  · rw [requestAnswered, h]
    rfl
  · rw [requestAnswered, h]
    simp [hv]

theorem pollAnswered_none {fr : AnswerFrame} (a : PollAnswer)
    (h : k.hlc.line = none ∨ ∃ u, k.hlc.line = some ⟨u, false⟩ ∨ (k.hlc.line = some ⟨u, true⟩ ∧ answerValid fr u = false)) :
    pollAnswered fr a k = k := by
  rcases h with h | ⟨u, h | ⟨h, hv⟩⟩
  · rw [pollAnswered, h]
  · rw [pollAnswered, h]
    rfl
  · rw [pollAnswered, h]
    simp [hv]

/-- In HALTED an answer only frees the line (R187). -/
theorem requestAnswered_inactive {fr : AnswerFrame} (a : RequestAnswer) (hl : k.hlc.line = some ⟨u, false⟩)
    (hv : answerValid fr u = true) (ha : lineActive k = false) : requestAnswered fr a k = freeLine k := by
  rw [requestAnswered, hl]
  simp [hv, ha]

theorem pollAnswered_inactive {fr : AnswerFrame} (a : PollAnswer) (hl : k.hlc.line = some ⟨u, true⟩)
    (hv : answerValid fr u = true) (ha : lineActive k = false) : pollAnswered fr a k = freeLine k := by
  rw [pollAnswered, hl]
  simp [hv, ha]

/-- The answer to a request frame is acted upon, the line free. -/
theorem requestAnswered_sent {fr : AnswerFrame} {r : Request} (a : RequestAnswer) (hl : k.hlc.line = some ⟨u, false⟩)
    (hv : answerValid fr u = true) (ha : lineActive k = true) (hw : (k.hlc.unit u).work = some (r, .sent)) :
    requestAnswered fr a k = answerRequest u r a (freeLine k) := by
  rw [requestAnswered, hl]
  simp [hv, ha, hw]

/-- The chip with the line free and another state for a unit. -/
def Chip.freed (k : Chip) (u : HUnit) (x : UnitState) : Chip := k.setHlc (HandlerLine.setUnit { k.hlc with line := none } u x)

theorem freeLine_setUnit (k : Chip) (u : HUnit) (x : UnitState) : (freeLine k).setUnit u x = k.freed u x := rfl

@[simp] theorem freeLine_unit (k : Chip) (u : HUnit) : (freeLine k).hlc.unit u = k.hlc.unit u := unit_line k.hlc none u

@[simp] theorem freed_unit (k : Chip) (u : HUnit) (x : UnitState) : (k.freed u x).hlc.unit u = x := unit_setUnit_self _ u x

@[simp] theorem freed_setUnit (k : Chip) (u : HUnit) (x y : UnitState) : (k.freed u x).setUnit u y = k.freed u y :=
  congrArg k.setHlc (setUnit_setUnit _ u x y)

theorem restartPoll_taken {r : Request} (hw : (k.hlc.unit u).work = some (r, .taken)) :
    restartPoll u k = k.setUnit u { k.hlc.unit u with pollTimer := some (k.unitSettings u).pollInterval } := by
  rw [restartPoll, hw]

/-- A poll's answer is acted upon, the line free and the poll timer started again. -/
theorem pollAnswered_taken {fr : AnswerFrame} {r : Request} (a : PollAnswer) (hl : k.hlc.line = some ⟨u, true⟩)
    (hv : answerValid fr u = true) (ha : lineActive k = true) (hw : (k.hlc.unit u).work = some (r, .taken)) :
    pollAnswered fr a k = answerPoll u a
      (k.freed u { k.hlc.unit u with silent := 0, pollTimer := some (k.unitSettings u).pollInterval }) := by
  have work : ((k.freed u { k.hlc.unit u with silent := 0 }).hlc.unit u).work = some (r, .taken) := by rw [freed_unit]; exact hw
  rw [pollAnswered, hl]
  simp only [hv, ha, Bool.not_true, Bool.or_false, Bool.false_eq_true, if_false, if_true, freeLine_unit, freeLine_setUnit,
    restartPoll_taken work, freed_unit, freed_setUnit]
  rfl

theorem tagMatches_iff (t : ReqTag) (r : Request) : tagMatches t r = true ↔ t.slot = r.slot ∧ t.attempt = r.attempt ∧ t.seq = r.seq := by
  simp [tagMatches, and_assoc]

/-- An answer to a poll that ends nothing. -/
theorem answerPoll_stale {r : Request} {a : PollAnswer} (hw : (k.hlc.unit u).work = some (r, .taken))
    (h : ∀ t, a = .done t ∨ (∃ code, a = .fault t code) → ¬(t.slot = r.slot ∧ t.attempt = r.attempt ∧ t.seq = r.seq)) :
    answerPoll u a k = k := by
  have stale (t : ReqTag) (ht : a = .done t ∨ ∃ code, a = .fault t code) : tagMatches t r = false := by
    rw [← Bool.not_eq_true, tagMatches_iff]
    exact h t ht
  cases a with
  | none => simp [answerPoll]
  | done t => simp [answerPoll, hw, stale t (.inl rfl)]
  | fault t code => simp [answerPoll, hw, stale t (.inr ⟨code, rfl⟩)]

/-! ### Silence (R173) -/

theorem windowExpires_inactive {poll : Bool} (hl : k.hlc.line = some ⟨u, poll⟩) (ha : lineActive k = false) :
    windowExpires k = freeLine k := by
  rw [windowExpires, hl]
  simp [ha]

/-- The first and the second silence make the frame due again. -/
theorem windowExpires_request (hl : k.hlc.line = some ⟨u, false⟩) (ha : lineActive k = true) (hs : (k.hlc.unit u).silent < 2) :
    windowExpires k = k.freed u { k.hlc.unit u with silent := (k.hlc.unit u).silent + 1, again := true } := by
  have less : (k.hlc.unit u).silent + 1 < 3 := by omega
  have capped : min 3 ((k.hlc.unit u).silent + 1) = (k.hlc.unit u).silent + 1 := by omega
  rw [windowExpires, hl]
  simp only [ha, if_true, freeLine_unit, freeLine_setUnit, less, capped, Bool.false_eq_true, if_false, freed_unit, freed_setUnit]
  rfl

theorem windowExpires_poll {r : Request} (hl : k.hlc.line = some ⟨u, true⟩) (ha : lineActive k = true)
    (hs : (k.hlc.unit u).silent < 2) (hw : (k.hlc.unit u).work = some (r, .taken)) :
    windowExpires k = k.freed u { k.hlc.unit u with
      silent := (k.hlc.unit u).silent + 1, pollDue := true, pollTimer := some (k.unitSettings u).pollInterval } := by
  have less : (k.hlc.unit u).silent + 1 < 3 := by omega
  have capped : min 3 ((k.hlc.unit u).silent + 1) = (k.hlc.unit u).silent + 1 := by omega
  have work : ((k.freed u { k.hlc.unit u with silent := (k.hlc.unit u).silent + 1 }).hlc.unit u).work = some (r, .taken) := by
    rw [freed_unit]; exact hw
  rw [windowExpires, hl]
  simp only [ha, if_true, freeLine_unit, freeLine_setUnit, less, capped, restartPoll_taken work, freed_unit, freed_setUnit]
  rfl

/-- The third silence in a row. -/
theorem windowExpires_third {poll : Bool} (hl : k.hlc.line = some ⟨u, poll⟩) (ha : lineActive k = true)
    (hs : 2 ≤ (k.hlc.unit u).silent) : windowExpires k = goOffline u (k.freed u { k.hlc.unit u with silent := 3 }) := by
  have less : ¬(k.hlc.unit u).silent + 1 < 3 := by omega
  have capped : min 3 ((k.hlc.unit u).silent + 1) = 3 := by omega
  rw [windowExpires, hl]
  simp only [ha, if_true, freeLine_unit, freeLine_setUnit, less, capped, if_false]

/-- The unit as it goes OFFLINE. -/
def UnitState.offline (x : UnitState) : UnitState :=
  { x with silent := 3, hold := some .offline, pollTimer := none, pollDue := false, again := false }

/-- A part that is not STARTING holds the unit OFFLINE, and its request in work is handled. -/
theorem goOffline_working (hr : k.pd.runState ≠ .starting) :
    ∃ r ws st target h, r.alert.getLsbD 3 = true ∧ goOffline u (k.freed u { k.hlc.unit u with silent := 3 }) =
      offlineWork u ((k.freed u (k.hlc.unit u).offline).handlerPaused ⟨.offline, unitAddr u, 0, 0, false, 0, false⟩ r ws st target h) := by
  obtain ⟨r, ws, st, target, h, paused, alert⟩ :=
    recordPause_offerFault ⟨.offline, unitAddr u, 0, 0, false, 0, false⟩ (k.freed u (k.hlc.unit u).offline)
  refine ⟨r, ws, st, target, h, alert, ?_⟩
  refine (if_neg hr).trans ?_
  rw [holdOffline, freed_unit, freed_setUnit, ← paused]
  rfl

/-- The third silence in a row in a part that is not STARTING: the unit is HELD OFFLINE, and its request in work is handled. -/
theorem windowExpires_offline {poll : Bool} (hw : k.working = true) (hl : k.hlc.line = some ⟨u, poll⟩)
    (hs : 2 ≤ (k.hlc.unit u).silent) : ∃ j, windowExpires k = offlineWork u j ∧ j.hlc = (k.freed u (k.hlc.unit u).offline).hlc ∧
      j.imc.pauses = { k.imc.pauses with handler := true } ∧ j.imc.drum = k.imc.drum ∧ j.imc.load = k.imc.load ∧
      j.regs.alert.getLsbD 3 = true ∧ (k.dmr.record.valid = false →
        j.dmr.record = latchOffer ⟨.offline, unitAddr u, 0, 0, false, 0, false⟩ k.regs.plantClock) := by
  have running : k.pd.runState ≠ .starting := fun h => by simp [Chip.working, h] at hw
  obtain ⟨r, ws, st, target, h, alert, offline⟩ := goOffline_working (u := u) running
  refine ⟨_, (windowExpires_third hl ((lineActive_iff k).mpr (.inl hw)) hs).trans offline, rfl, rfl, rfl, rfl, alert, fun hv => ?_⟩
  exact takeOffer_latched (k := k.freed u (k.hlc.unit u).offline) hv

/-! ### A unit gone OFFLINE -/

/-- What a unit gone OFFLINE leaves: the line free, the unit HELD, and the imager with pause reason HANDLER. -/
def Chip.offlined (k t : Chip) (u : HUnit) : Prop :=
  t.hlc.line = none ∧ (t.hlc.unit u).hold = some .offline ∧ (∀ v, v ≠ u → t.hlc.unit v = k.hlc.unit v) ∧
    t.hlc.carriers = k.hlc.carriers ∧ t.imc.pauses.handler = true ∧ t.regs.alert.getLsbD 3 = true

/-- Whatever follows the fault leaves the unit HELD, and the others, the line and the carriers as they are. -/
theorem offlined_of_hlc {t : Chip} {x : UnitState} (hh : t.hlc = (k.freed u x).hlc) (hx : x.hold = some .offline)
    (hp : t.imc.pauses.handler = true) (ha : t.regs.alert.getLsbD 3 = true) : k.offlined t u := by
  obtain ⟨line, carriers, -⟩ := setUnit_rest { k.hlc with line := none } u x
  have hlc : t.hlc = HandlerLine.setUnit { k.hlc with line := none } u x := hh
  refine ⟨by rw [hlc, line], ?_, fun v hv => ?_, by rw [hlc, carriers], hp, ha⟩
  · rw [hlc, unit_setUnit_self]
    exact hx
  · rw [hlc, unit_setUnit_ne _ _ hv, unit_line]

/-- A TAKEN request stays in work, its polls stopped (log 61). -/
theorem offlineWork_taken {j : Chip} {r : Request} (hw : (j.hlc.unit u).work = some (r, .taken)) : offlineWork u j = j := by
  rw [offlineWork, hw]

/-- A request put back to a unit that has ended it. -/
theorem putBack_workEnds {j : Chip} {x : UnitState} (r : Request) (hj : j.hlc = (k.freed u x).hlc) :
    (putBack u r (j.setUnit u x.workEnds)).hlc = (k.freed u { x.workEnds with queue := r :: x.queue }).hlc := by
  show ((j.hlc.setUnit u x.workEnds).setUnit u { (j.hlc.setUnit u x.workEnds).unit u with
    queue := r :: ((j.hlc.setUnit u x.workEnds).unit u).queue }) = _
  rw [unit_setUnit_self, setUnit_setUnit, hj]
  exact setUnit_setUnit _ _ _ _

theorem offlineWork_untaken {j : Chip} {r : Request} {ph : ReqPhase} (hw : (j.hlc.unit u).work = some (r, ph)) (hp : ph ≠ .taken) :
    offlineWork u j = if u = .loader then endRequest u r .silent j else putBack u r (j.setUnit u (j.hlc.unit u).workEnds) := by
  rw [offlineWork, hw]
  cases ph with
  | sent => rfl
  | busyWait => rfl
  | taken => exact absurd rfl hp

/-- The request of a LOADER gone OFFLINE ends as failed, under the pause that it brings. -/
theorem endRequest_silent {j : Chip} {r : Request} (hk : r.kind ≠ .clear) (hh : j.hlc.loader.hold.isSome = true) :
    endRequest .loader r .silent j = if r.kind = .unload then unloadFailed (j.setUnit .loader j.hlc.loader.workEnds)
      else loadEnd .failed (j.setUnit .loader j.hlc.loader.workEnds) := by
  have held : ((j.setUnit .loader j.hlc.loader.workEnds).hlc.unit .loader).hold.isSome = true := hh
  rw [endRequest_loader _ _ hk, loaderEnds_failed _ (by decide) (.inr (by decide)), holdUnit_held _ _ held]

end

/-! ### Timers (R174, R175) -/

section
variable {k : Chip} {u : HUnit}

theorem busyRetryExpires_waiting {r : Request} (ha : lineActive k = true) (hw : (k.hlc.unit u).work = some (r, .busyWait)) :
    busyRetryExpires u k = k.setUnit u { k.hlc.unit u with again := true } := by
  rw [busyRetryExpires, ha, hw]
  rfl

theorem busyRetryExpires_idle (h : lineActive k = false ∨ ∀ r, (k.hlc.unit u).work ≠ some (r, .busyWait)) :
    busyRetryExpires u k = k := by
  unfold busyRetryExpires
  split
  · next ha =>
    rcases h with h | h
    · exact nomatch h.symm.trans ha
    · split
      · next r hw => exact absurd hw (h r)
      all_goals rfl
  · rfl

theorem pollTimerExpires_taken {r : Request} (ha : lineActive k = true) (hh : (k.hlc.unit u).hold = none)
    (hp : (k.hlc.unit u).pollTimer.isSome = true) (hw : (k.hlc.unit u).work = some (r, .taken)) :
    pollTimerExpires u k = k.setUnit u { k.hlc.unit u with pollTimer := none, pollDue := true } := by
  simp [pollTimerExpires, ha, hh, hp, hw]

theorem pollTimerExpires_idle
    (h : lineActive k = false ∨ (k.hlc.unit u).hold.isSome = true ∨ (k.hlc.unit u).pollTimer = none) : pollTimerExpires u k = k := by
  unfold pollTimerExpires
  rcases h with h | h | h
  · simp [h]
  · simp [Option.isSome_iff_ne_none.mp h]
  · simp [h]

/-! ### Sending -/

/-- A first sending takes the head of the queue and the next sequence number; a repeat keeps its tag. -/
theorem sendRequest_first {x : UnitState} {r : Request} {rest : List Request} (hw : x.work = none) (hq : x.queue = r :: rest) :
    x.sendRequest = { x with
      queue := rest, seq := (x.seq + 1) % 256, busy := 0, again := false, work := some ({ r with seq := (x.seq + 1) % 256 }, .sent) } := by
  rw [UnitState.sendRequest, hw, hq]

theorem sendRequest_again {x : UnitState} {r : Request} {ph : ReqPhase} (hw : x.work = some (r, ph)) :
    x.sendRequest = { x with work := some (r, .sent), again := false } := by
  rw [UnitState.sendRequest, hw]

/-! ### START fails at check 8 (R8) -/

theorem startFailed_setHlc (check unit : Nat) (k : Chip) (h : HandlerLine) :
    startFailed check unit (k.setHlc h) = startFailed check unit k := by
  have posts : (k.setHlc h).sp.posts = k.sp.posts := rfl
  unfold startFailed losePosts
  rw [posts]
  split <;> rfl

/-- Check 8 fails START with the unit's address, and drops what waits of the host (log 30). -/
theorem startFailed_eq (check unit : Nat) (k : Chip) : startFailed check unit k =
    raise .startDone { State.reset.chip with
      regs := { (if k.sp.posts = [] then k else raise .postLost k).regs with startFail := check, startUnit := unit, run := false }
      fresh := k.fresh } := by
  unfold startFailed losePosts
  simp only [List.isEmpty_iff]
  rfl

end

/-! ### All exchanges -/

/-- Settles O59. -/
theorem handlerExchanges : Obligations.HandlerExchanges := by
  intro s u k unit active due polled put freed asked set
  have activeIff : lineActive k = true ↔ active := lineActive_iff k
  have dueIff (v : HUnit) : (unit v).requestDue = true ↔ due v := requestDue_iff (unit v)
  have polledIff (v : HUnit) : (unit v).pollIsDue = true ↔ polled v := pollIsDue_iff (unit v)
  have quiet : ¬active → lineActive k = false := fun h => by rw [← Bool.not_eq_true, activeIff]; exact h
  have notDue (v : HUnit) (h : ¬due v) : (unit v).requestDue = false := by rw [← Bool.not_eq_true, dueIff]; exact h
  have notPolled (v : HUnit) (h : ¬polled v) : (unit v).pollIsDue = false := by rw [← Bool.not_eq_true, polledIff]; exact h
  let next (x : Chip) : Result := .next (s.setChip x)
  refine ⟨fun h => ?_, fun ha hl hd hlow => ⟨fun r rest hw hq => ?_, fun r ph hw => ?_⟩, fun ha hl hnone hp hlow => ?_,
    fun fr a hl hv => ?_, fun fr a hl hv => ?_, fun fr a h => ?_, fun fr a h => ?_, fun fr hi hf => ⟨fun a hna hl => ?_,
      fun a hna hl => ?_, fun r ha hl hw => ⟨?_, fun hb => ?_⟩, fun r a ha hl hw hs => ?_⟩, fun hl => ?_, fun poll hna hl => ?_,
    fun r ph ha hs hw => ⟨fun hl hp => ?_, fun hl hp => ?_⟩, fun r ph poll hw hl hs hr hu => ?_,
    fun r ph poll hw hl hs hr hu hp hk => ?_, fun poll h1 h2 hl hs => ?_, fun r ha hw => ?_, fun h => ?_, fun r ha hh hp hw => ?_,
    fun h => ?_⟩
  · refine exec_eq_of_chip (f := exchangeStart) rfl (exchangeStart_idle ?_)
    rcases h with h | h | h
    · exact .inl (quiet h)
    · exact .inr (.inl h)
    · exact .inr (.inr (chooseExchange_none (fun v => notDue v (h v).1) (fun v => notPolled v (h v).2)))
  · have chosen := chooseExchange_request ((dueIff u).mpr hd) (fun v hv => notDue v (hlow v hv))
    refine congrArg next ((exchangeStart_chosen (activeIff.mpr ha) hl chosen).trans ?_)
    exact congrArg (fun x => k.setHlc (HandlerLine.setUnit { k.hlc with line := some ⟨u, false⟩ } u x)) (sendRequest_first hw hq)
  · have chosen := chooseExchange_request ((dueIff u).mpr hd) (fun v hv => notDue v (hlow v hv))
    refine congrArg next ((exchangeStart_chosen (activeIff.mpr ha) hl chosen).trans ?_)
    exact congrArg (fun x => k.setHlc (HandlerLine.setUnit { k.hlc with line := some ⟨u, false⟩ } u x)) (sendRequest_again hw)
  · have chosen := chooseExchange_poll (fun v => notDue v (hnone v)) ((polledIff u).mpr hp) (fun v hv => notPolled v (hlow v hv))
    exact congrArg next (exchangeStart_chosen (activeIff.mpr ha) hl chosen)
  · exact exec_eq_of_chip (f := requestAnswered fr a) rfl (requestAnswered_none a (.inr ⟨u, .inr ⟨hl, answerValid_false hv⟩⟩))
  · exact exec_eq_of_chip (f := pollAnswered fr a) rfl (pollAnswered_none a (.inr ⟨u, .inr ⟨hl, answerValid_false hv⟩⟩))
  · exact exec_eq_of_chip (f := requestAnswered fr a) rfl (requestAnswered_none a (h.elim (fun h => .inr ⟨u, .inl h⟩) .inl))
  · exact exec_eq_of_chip (f := pollAnswered fr a) rfl (pollAnswered_none a (h.elim (fun h => .inr ⟨u, .inl h⟩) .inl))
  · exact congrArg next (requestAnswered_inactive a hl ((answerValid_iff fr u).mpr ⟨hi, hf⟩) (quiet hna))
  · exact congrArg next (pollAnswered_inactive a hl ((answerValid_iff fr u).mpr ⟨hi, hf⟩) (quiet hna))
  · refine congrArg next ((requestAnswered_sent .taken hl ((answerValid_iff fr u).mpr ⟨hi, hf⟩) (activeIff.mpr ha) hw).trans ?_)
    rw [answerRequest, freeLine_unit, freeLine_setUnit]
    rfl
  · refine congrArg next ((requestAnswered_sent .busy hl ((answerValid_iff fr u).mpr ⟨hi, hf⟩) (activeIff.mpr ha) hw).trans ?_)
    rw [answerRequest, freeLine_unit]
    exact if_pos hb
  · refine congrArg next ((pollAnswered_taken a hl ((answerValid_iff fr u).mpr ⟨hi, hf⟩) (activeIff.mpr ha) hw).trans ?_)
    exact answerPoll_stale (by rw [freed_unit]; exact hw) hs
  · exact exec_eq_of_chip (f := windowExpires) rfl (by rw [windowExpires, hl])
  · exact congrArg next (windowExpires_inactive hl (quiet hna))
  · exact congrArg next (windowExpires_request hl (activeIff.mpr ha) hs)
  · subst hp
    exact congrArg next (windowExpires_poll hl (activeIff.mpr ha) hs hw)
  · obtain ⟨j, run, hlc, pauses, -, -, alert, record⟩ := windowExpires_offline hw hl hs
    have offline : j.hlc.unit u = (unit u).offline := by rw [hlc, freed_unit]
    have work : (j.hlc.unit u).work = some (r, ph) := by rw [offline]; exact hr
    have paused : j.imc.pauses.handler = true := by rw [pauses]
    refine ⟨_, congrArg next run, rfl, ?_⟩
    by_cases hp : ph = .taken
    · subst hp
      rw [offlineWork_taken work]
      obtain ⟨h1, h2, h3, h4, h5, h6⟩ := offlined_of_hlc (k := k) hlc rfl paused alert
      refine ⟨h1, h2, h3, h4, h5, h6, record, fun _ => ?_, fun h => absurd rfl h⟩
      exact ⟨work, by rw [State.setChip_chip, offline]; rfl, by rw [State.setChip_chip, offline]; rfl⟩
    · have loader : u ≠ .loader := hu.resolve_right hp
      let x : UnitState := { (unit u).offline.workEnds with queue := r :: (unit u).queue }
      have left : (offlineWork u j).hlc = (k.freed u x).hlc := by
        rw [offlineWork_untaken work hp, if_neg loader, offline]
        exact putBack_workEnds r hlc
      have same : offlineWork u j = j.setHlc (offlineWork u j).hlc := by
        rw [offlineWork_untaken work hp, if_neg loader]
        rfl
      obtain ⟨h1, h2, h3, h4, h5, h6⟩ := offlined_of_hlc (k := k) (t := j.setHlc (k.freed u x).hlc) rfl rfl paused alert
      rw [same, left]
      refine ⟨h1, h2, h3, h4, h5, h6, record, fun h => absurd h hp, fun _ => ?_⟩
      rw [State.setChip_chip, Chip.setHlc_hlc, freed_unit]
      exact ⟨rfl, rfl⟩
  · subst hu
    obtain ⟨j, run, hlc, pauses, drum, load, alert, -⟩ := windowExpires_offline hw hl hs
    have offline : j.hlc.loader = (unit .loader).offline := congrArg HandlerLine.loader hlc
    have work : (j.hlc.unit .loader).work = some (r, ph) := (congrArg UnitState.work offline).trans hr
    let i := j.setUnit .loader j.hlc.loader.workEnds
    have left : i.hlc = (k.freed .loader (unit .loader).offline.workEnds).hlc := by
      show j.hlc.setUnit .loader j.hlc.loader.workEnds = _
      rw [offline, hlc]
      rfl
    have any : i.imc.pauses.any = true := by
      show j.imc.pauses.any = true
      rw [pauses]
      simp [PauseReasons.any]
    have ended : offlineWork .loader j = if r.kind = .unload then unloadFailed i else loadEnd .failed i := by
      rw [offlineWork_untaken work hp, if_pos rfl, endRequest_silent hk (by rw [offline]; rfl)]
    refine ⟨_, congrArg next (run.trans ended), rfl, ?_⟩
    obtain ⟨hlc', regs, -, pauses', drum', unload, loads⟩ := loaderFailed_paused r any
    rw [State.setChip_chip]
    generalize (if r.kind = .unload then unloadFailed i else loadEnd .failed i) = t at hlc' regs pauses' drum' unload loads ⊢
    have paused : t.imc.pauses.handler = true := by rw [pauses']; exact congrArg PauseReasons.handler pauses
    obtain ⟨h1, h2, h3, h4, h5, h6⟩ := offlined_of_hlc (k := k) (hlc'.trans left) rfl paused (by rw [regs]; exact alert)
    refine ⟨h1, h2, ?_, ?_, h3, h4, h5, h6, drum'.trans drum, unload, fun n l p hn hl hp => ?_⟩
    · rw [hlc'.trans left, freed_unit]
      rfl
    · rw [hlc'.trans left, freed_unit]
      rfl
    · obtain ⟨state, gone, waiting⟩ := loads l (by rw [hn]; nofun) (load.trans hl)
      exact ⟨state, gone, waiting p hp⟩
  · have starting := windowExpires_third hl (activeIff.mpr (.inr ⟨h1, h2⟩)) hs
    exact congrArg next (starting.trans ((if_pos h1).trans ((startFailed_setHlc ..).trans (startFailed_eq ..))))
  · exact congrArg next (busyRetryExpires_waiting (activeIff.mpr ha) hw)
  · exact exec_eq_of_chip (f := busyRetryExpires u) rfl (busyRetryExpires_idle (h.imp_left quiet))
  · exact congrArg next (pollTimerExpires_taken (activeIff.mpr ha) hh hp hw)
  · exact exec_eq_of_chip (f := pollTimerExpires u) rfl (pollTimerExpires_idle (h.imp_left quiet))

end Sys2Proof.Machine
end

