-- ==== Sys2Proof/Proofs/Outcomes.lean ====
section
/-! SUPPORT. The ends of requests: the carriers, the holds and what IMC makes of them (O60). -/

namespace Sys2Proof.Machine

/-! ### How a request comes to its end (R172, R175, R177) -/

section
variable {k : Chip} {u : HUnit} {r : Request}

theorem setUnit_self (h : HandlerLine) (u : HUnit) : h.setUnit u (h.unit u) = h := by cases u <;> rfl

/-- DONE or FAULT with the request's own tag ends it. -/
theorem answerPoll_done (hw : (k.hlc.unit u).work = some (r, .taken)) :
    answerPoll u (.done ⟨r.slot, r.attempt, r.seq⟩) k = endRequest u r .done k := by
  have own : tagMatches ⟨r.slot, r.attempt, r.seq⟩ r = true := (tagMatches_iff _ _).mpr ⟨rfl, rfl, rfl⟩
  simp [answerPoll, hw, own]

theorem answerPoll_fault (code : FaultCode) (hw : (k.hlc.unit u).work = some (r, .taken)) :
    answerPoll u (.fault ⟨r.slot, r.attempt, r.seq⟩ code) k = endRequest u r (.faulted code) k := by
  have own : tagMatches ⟨r.slot, r.attempt, r.seq⟩ r = true := (tagMatches_iff _ _).mpr ⟨rfl, rfl, rfl⟩
  simp [answerPoll, hw, own]

/-- The completion timeout of a TAKEN request, by the unit's policy. -/
theorem completionExpires_taken (ha : lineActive k = true) (hc : (k.hlc.unit u).completion.isSome = true)
    (hw : (k.hlc.unit u).work = some (r, .taken)) : completionExpires u k =
      if (k.unitSettings u).policy = .assumeDone ∧ r.kind ≠ .clear then endRequest u r .done (timeoutMark u r k)
      else endRequest u r .timedOut k := by
  rw [completionExpires]
  simp only [ha, hc, Bool.and_self, if_true, hw]

theorem completionExpires_untaken {ph : ReqPhase} (hw : (k.hlc.unit u).work = some (r, ph)) (hp : ph ≠ .taken) :
    completionExpires u k = k := by
  unfold completionExpires
  dsimp only
  split
  · cases ph with
    | taken => exact absurd rfl hp
    | sent => rw [hw]
    | busyWait => rw [hw]
  · rfl

/-- The mark of a request that ASSUME_DONE ends is a NOTE in its slot's list. -/
theorem timeoutMark_eq (u : HUnit) (r : Request) (k : Chip) :
    let t := timeoutMark u r k
    t = { k with dmr := { k.dmr with lists := t.dmr.lists }, sp := { k.sp with report := t.sp.report } } ∧ (r.slot = none → t = k) ∧
      ∀ n, r.slot = some n → (k.plate n).isSome = true → (k.marks n).marks.length < 8 →
        (t.marks n).marks = (k.marks n).marks ++ [⟨.timeout, .note, false, .none, r.attempt, .none, none, unitAddr u, k.regs.plantClock⟩] := by
  unfold timeoutMark
  cases hs : r.slot with
  | none => exact ⟨rfl, fun _ => rfl, nofun⟩
  | some n =>
    obtain ⟨l, q, spec, -, mark⟩ := reportMark_spec ⟨n, r.attempt, .timeout, .none, none, unitAddr u, some .carrier, none⟩ k
    refine ⟨by dsimp only; rw [spec], nofun, fun m hm held room => ?_⟩
    cases hm
    exact mark held (not_suppressed (show MarkKind.timeout ≠ .fence by decide) (show MarkKind.timeout ≠ .nosep by decide)) room

end

/-! ### Held units (R178) -/

/-- From `k` to `t` HLC has held a unit that was not HELD, with a HANDLER fault of that detail. -/
def Chip.heldWith (k t : Chip) (u : HUnit) (cause : HoldCause) (detail : Nat) : Prop :=
  (k.hlc.unit u).hold = none → (t.hlc.unit u).hold = some cause ∧ t.imc.pauses.handler = true ∧ t.regs.alert.getLsbD 3 = true ∧
    (k.dmr.record.valid = false → t.dmr.record = latchOffer ⟨.handler, unitAddr u, detail, 0, false, 0, false⟩ k.regs.plantClock)

/-- A hold leaves the unit's request and queue, the other units, PSC, the marks, the drum and the LOAD in work. -/
theorem holdUnit_spec (u : HUnit) (cause : HoldCause) (detail : Nat) (k : Chip) :
    let t := holdUnit u cause detail k
    (∃ x, t.hlc = k.hlc.setUnit u x ∧ x.work = (k.hlc.unit u).work ∧ x.queue = (k.hlc.unit u).queue) ∧ t.psc = k.psc ∧
      t.dmr.lists = k.dmr.lists ∧ t.imc.drum = k.imc.drum ∧ t.imc.load = k.imc.load ∧ k.heldWith t u cause detail := by
  intro t
  cases hh : (k.hlc.unit u).hold with
  | none =>
    obtain ⟨r, ws, st, target, h, paused, alert⟩ := recordPause_offerFault
      ⟨.handler, unitAddr u, detail, 0, false, 0, false⟩ (k.setUnit u { k.hlc.unit u with hold := some cause })
    have held : t = _ := (holdUnit_eq cause detail hh).trans paused
    rw [held]
    refine ⟨⟨_, rfl, rfl, rfl⟩, rfl, rfl, rfl, rfl, fun _ => ⟨?_, rfl, alert, fun hv => takeOffer_latched hv⟩⟩
    exact congrArg UnitState.hold (unit_setUnit_self k.hlc u _)
  | some c =>
    have same : t = k := holdUnit_held cause detail (by rw [hh]; rfl)
    rw [same]
    exact ⟨⟨k.hlc.unit u, (setUnit_self _ _).symm, rfl, rfl⟩, rfl, rfl, rfl, rfl, fun h => nomatch hh.symm.trans h⟩

/-- From `k` to `t` a request has ended and gone back to the head of its unit's queue, and the unit is HELD. -/
def Chip.putBackHeld (k t : Chip) (u : HUnit) (r : Request) (cause : HoldCause) (detail : Nat) : Prop :=
  t.hlc.carriers = k.hlc.carriers ∧ (t.hlc.unit u).work = none ∧ (t.hlc.unit u).queue = r :: (k.hlc.unit u).queue ∧
    (∀ v, v ≠ u → t.hlc.unit v = k.hlc.unit v) ∧ t.psc = k.psc ∧ k.heldWith t u cause detail

theorem putBack_held (u : HUnit) (r : Request) (cause : HoldCause) (detail : Nat) (k : Chip) :
    k.putBackHeld (holdUnit u cause detail (putBack u r (k.setUnit u (k.hlc.unit u).workEnds))) u r cause detail := by
  let back : UnitState := { (k.hlc.unit u).workEnds with queue := r :: (k.hlc.unit u).queue }
  have put : putBack u r (k.setUnit u (k.hlc.unit u).workEnds) = k.setUnit u back := by
    rw [putBack, Chip.setUnit_setUnit]
    exact congrArg (k.setUnit u) (by rw [show (k.setUnit u _).hlc.unit u = _ from unit_setUnit_self _ _ _]; rfl)
  rw [put]
  obtain ⟨⟨x, hlc, work, queue⟩, psc, -, -, -, held⟩ := holdUnit_spec u cause detail (k.setUnit u back)
  have unit_ : (k.setUnit u back).hlc.unit u = back := unit_setUnit_self _ _ _
  have hlc : _ = k.hlc.setUnit u x := hlc.trans (setUnit_setUnit _ _ _ _)
  rw [unit_] at work queue
  refine ⟨by rw [hlc, (setUnit_rest _ _ _).2.1], ?_, ?_, fun v hv => by rw [hlc, unit_setUnit_ne _ _ hv], psc, fun hn => ?_⟩
  · rw [hlc, unit_setUnit_self, work]
    rfl
  · rw [hlc, unit_setUnit_self, queue]
  · exact held (by rw [unit_]; exact hn)

/-! ### Carriers (R180, R184–R186) -/

section
variable {k : Chip} {st : Stage} {a b : List Carrier} {c : Carrier}

/-- The first carrier at a stage is the one whose stage ends. -/
theorem carrierAt_eq (hc : k.hlc.carriers = a ++ c :: b) (ha : ∀ x ∈ a, x.stage ≠ st) (hs : c.stage = st) :
    carrierAt k st = some (a.length, c) := by
  have first : (k.hlc.carriers.zipIdx.find? (fun e => decide (e.1.stage = st))) = some (c, a.length) := by
    rw [hc, List.zipIdx_append, List.find?_append, List.find?_eq_none.mpr, Option.none_or, List.zipIdx_cons, List.find?_cons]
    · simp [hs]
    · rintro ⟨x, i⟩ hx
      have := ha x (List.fst_mem_of_mem_zipIdx hx)
      simpa using this
  rw [carrierAt, first]
  rfl

theorem setCarrier_eq (x : Carrier) (hc : k.hlc.carriers = a ++ c :: b) :
    setCarrier a.length x k = k.setHlc { k.hlc with carriers := a ++ x :: b } := by
  rw [setCarrier, hc, List.set_append_right _ _ (Nat.le_refl _), Nat.sub_self, List.set_cons_zero]

/-- The end of the PUNCH stage queues the carrier's PROCESS request. -/
theorem stageEnd_punch (hc : k.hlc.carriers = a ++ c :: b) (ha : ∀ x ∈ a, x.stage ≠ .punch) (hs : c.stage = .punch) :
    stageEnd .punch k = k.setHlc { k.hlc with
      carriers := a ++ { c with stage := .process } :: b
      processor := { k.hlc.processor with
        queue := k.hlc.processor.queue ++ [⟨.process (!c.spoiled), c.slot, c.attempt, 0⟩] } } := by
  rw [stageEnd, carrierAt_eq hc ha hs]
  dsimp only
  rw [setCarrier_eq _ hc]
  rfl

/-- The end of the PROCESS stage queues the carrier's ROUTE request, to the reject bin when it is spoiled. -/
theorem stageEnd_process (hc : k.hlc.carriers = a ++ c :: b) (ha : ∀ x ∈ a, x.stage ≠ .process) (hs : c.stage = .process) :
    stageEnd .process k = k.setHlc { k.hlc with
      carriers := a ++ { c with stage := .route } :: b
      sorter := { k.hlc.sorter with
        queue := k.hlc.sorter.queue ++ [⟨.route (if c.spoiled = true then 15 else c.bin), c.slot, c.attempt, 0⟩] } } := by
  rw [stageEnd, carrierAt_eq hc ha hs]
  dsimp only
  rw [setCarrier_eq _ hc]
  rfl

/-- The end of the ROUTE stage takes the carrier off the list and reports it to PSC. -/
theorem stageEnd_route (hc : k.hlc.carriers = a ++ c :: b) (ha : ∀ x ∈ a, x.stage ≠ .route) (hs : c.stage = .route) :
    stageEnd .route k =
      tellPsc (.carrierRemoved c.slot c.attempt c.spoiled) (k.setHlc { k.hlc with carriers := a ++ b }) := by
  rw [stageEnd, carrierAt_eq hc ha hs]
  dsimp only
  rw [removeCarrier, hc, List.eraseIdx_append_of_length_le (Nat.le_refl _), Nat.sub_self, List.eraseIdx_cons_zero]

/-- From `k` to `t` a charged SPOIL has marked the slot of a carrier that was good. -/
def Chip.carrierMarked (k t : Chip) (kind : MarkKind) (detail : Nat) (c : Carrier) : Prop :=
  ∀ n, c.slot = some n → c.spoiled = false → (k.plate n).isSome = true → (k.marks n).marks.length < 8 →
    (t.marks n).marks = (k.marks n).marks ++
      [{ kind := kind, severity := .spoil, charged := true, place := .carrier, attempt := c.attempt, location := .none, key := none,
         detail := detail, time := k.regs.plantClock }]

/-- A carrier spoiled at its stage, with the mark of a good one. -/
theorem spoilAtStage_eq {kind : MarkKind} (detail : Nat) (hk : kind = .misreg ∨ kind = .process) (hc : k.hlc.carriers = a ++ c :: b)
    (ha : ∀ x ∈ a, x.stage ≠ st) (hs : c.stage = st) : ∃ l q, spoilAtStage st kind detail k =
        { k with
          hlc := { k.hlc with carriers := a ++ { c with spoiled := true } :: b }, dmr := { k.dmr with lists := l }
          sp := { k.sp with report := q } } ∧
      k.carrierMarked (spoilAtStage st kind detail k) kind detail c := by
  unfold spoilAtStage
  rw [carrierAt_eq hc ha hs]
  dsimp only
  rw [setCarrier_eq _ hc]
  generalize { c with spoiled := true } = x
  let k1 := k.setHlc { k.hlc with carriers := a ++ x :: b }
  cases hn : c.slot with
  | none => exact ⟨k.dmr.lists, k.sp.report, rfl, fun n h => nomatch hn.symm.trans h⟩
  | some n =>
    dsimp only
    split
    · next hb => exact ⟨k.dmr.lists, k.sp.report, rfl, fun _ _ h => nomatch hb.symm.trans h⟩
    · obtain ⟨l, q, spec, -, mark⟩ := reportMark_spec ⟨n, c.attempt, kind, .none, none, detail, some .carrier, none⟩ k1
      refine ⟨l, q, spec, fun m hm _ held room => ?_⟩
      cases hn.symm.trans hm
      have fresh : suppressed (k1.marks n) ⟨n, c.attempt, kind, .none, none, detail, some .carrier, none⟩ = false := by
        rcases hk with rfl | rfl
        · exact not_suppressed (show MarkKind.misreg ≠ .fence by decide) (show MarkKind.misreg ≠ .nosep by decide)
        · exact not_suppressed (show MarkKind.process ≠ .fence by decide) (show MarkKind.process ≠ .nosep by decide)
      refine (mark held fresh room).trans ?_
      rcases hk with rfl | rfl <;> rfl

end

end Sys2Proof.Machine
end

