-- ==== Sys2Proof/Proofs/RequestEnds.lean ====
section
/-! SUPPORT. The ends of LOAD and UNLOAD, and every end of a request (O60). -/

namespace Sys2Proof.Machine

/-! ### The ends of a LOAD that came well, and of one refused EMPTY (R155) -/

theorem goTo_blank (k : Chip) : goTo .blank k =
    { k with imc := { k.imc with state := .blank, drumTarget := 0 }, hf := { k.hf with laser := 0 } } := by
  simp only [goTo, setTarget, ne_eq, not_true_eq_false, and_false, if_false]
  rfl

/-- Entry to SETTLING with the reference index due already. -/
theorem goTo_settling {k : Chip} (h : k.dtu.reference = true) : goTo .settling k =
    { k with imc := { k.imc with state := .settling, drumTarget := k.imc.exposure.values.rpm }, hf := { k.hf with laser := 0 } } := by
  have same : { k.dtu with reference := true } = k.dtu := by rw [← h]
  unfold goTo setTarget
  dsimp only
  split
  · simp only [Chip.setImc_dtu, same]
    rfl
  · rfl

section
variable {k : Chip} {l : LoadInWork}

/-- A blank without a plate stays on the drum. -/
theorem loadEnd_blank (hl : k.imc.load = some l) (hp : k.imc.pauses.any = false) (hn : l.plate = none) (hw : k.imc.waiting = none) :
    (loadEnd .done k).imc = { k.imc with
      state := .blank, load := none, drumTarget := 0
      drum := some { format := l.format, owner := none, cond := .unexposed, confirmed := false } } := by
  unfold loadEnd
  rw [hl]
  dsimp only
  have waits (j : Chip) (h : j.imc.waiting = none) : takeUp j = j := by rw [takeUp, h]
  rw [hn]
  unfold afterRequest settleByDrum
  simp only [Option.isSome_none, Bool.false_eq_true, if_false, setDrum, Chip.setImc_imc, Chip.setDtu_imc, hp]
  rw [goTo_blank, waits]
  · rfl
  · exact hw

/-- A blank loaded for a plate is that plate's, and the drum settles for it. -/
theorem loadEnd_plate {p : PlateRef} (hl : k.imc.load = some l) (hp : k.imc.pauses.any = false) (hn : l.plate = some p) :
    let t := loadEnd .done k
    t.imc.state = .settling ∧ t.imc.load = none ∧ t.imc.exposure.settle = 0 ∧
      t.imc.drum = some { format := l.format, owner := some p, cond := .unexposed, confirmed := false } ∧
      t.imc.drumTarget = (k.profile p.profile).val.rpm ∧ t.dtu.reference = true ∧
      t.dtu.bufferedA = (k.format l.format).lead ∧ t.dtu.bufferedB = (k.format l.format).lead + (k.format l.format).width := by
  unfold loadEnd
  rw [hl]
  dsimp only
  rw [hn]
  unfold afterRequest settleByDrum
  simp only [Option.isSome_some, if_true, setDrum, writePair, Chip.setImc_imc, Chip.setDtu_imc, hp, Bool.false_eq_true, if_false]
  unfold enterSettling
  rw [goTo_settling]
  · exact ⟨rfl, rfl, rfl, rfl, rfl, rfl, rfl, rfl⟩
  · rfl

theorem recordPause_empty {k : Chip} (r : PauseReason) (h : k.imc.state = .empty) : recordPause r k =
    goTo .paused (raise .pause (k.setImc { k.imc with pauses := k.imc.pauses.add r })) := by
  rw [recordPause, h]

/-- An empty cassette pauses the imager with reason SUPPLY, and gives the plate back. -/
theorem loadEnd_empty (hl : k.imc.load = some l) : let t := loadEnd .empty k
    t.imc.state = .paused ∧ t.imc.load = none ∧ t.imc.pauses = { k.imc.pauses with supply := true } ∧ t.imc.drum = k.imc.drum ∧
      t.imc.waiting = l.plate.orElse (fun _ => k.imc.waiting) ∧ t.hlc = k.hlc := by
  unfold loadEnd
  rw [hl]
  dsimp only
  rw [recordPause_empty _ rfl, goTo_paused]
  exact ⟨rfl, rfl, rfl, rfl, rfl, rfl⟩

end

/-! ### The ends of a LOADER request -/

section
variable {r : Request} {k : Chip}

/-- A LOADER request that fails while the unit is not HELD. -/
theorem loader_fails {e : RequestEnd} (hk : r.kind ≠ .clear) (hd : e ≠ .done) (he : r.kind = .unload ∨ e ≠ .refused .empty)
    (hh : k.hlc.loader.hold = none) : let t := endRequest .loader r e k
    k.heldWith t .loader .failure e.detail ∧ t.imc.drum = k.imc.drum ∧ t.hlc.carriers = k.hlc.carriers ∧
      (r.kind = .unload → t.imc.state = .paused) ∧
      ∀ l, r.kind ≠ .unload → k.imc.load = some l → t.imc.state = .paused ∧ t.imc.load = none ∧
        ∀ p, l.plate = some p → t.imc.waiting = some p := by
  intro t
  let j := k.setUnit .loader k.hlc.loader.workEnds
  obtain ⟨⟨x, hlc, -, -⟩, -, -, drum, load, held⟩ := holdUnit_spec .loader .failure e.detail j
  obtain ⟨hold, paused, alert, record⟩ := held hh
  have any : (holdUnit .loader .failure e.detail j).imc.pauses.any = true := by simp [PauseReasons.any, paused]
  obtain ⟨hlc', regs', record', pauses', drum', unload, loads⟩ := loaderFailed_paused r any
  have ended : t = if r.kind = .unload then unloadFailed (holdUnit .loader .failure e.detail j)
      else loadEnd .failed (holdUnit .loader .failure e.detail j) :=
    (endRequest_loader e k hk).trans (loaderEnds_failed j hd he)
  rw [← ended] at hlc' regs' record' pauses' drum' unload loads
  refine ⟨fun _ => ⟨?_, ?_, ?_, fun hv => ?_⟩, drum'.trans drum, ?_, unload, fun l hu hl => loads l hu (load.trans hl)⟩
  · rw [hlc']
    exact hold
  · rw [pauses']
    exact paused
  · rw [regs']
    exact alert
  · rw [record']
    exact record hv
  · rw [hlc', hlc]
    exact (setUnit_rest _ _ _).2.1

/-- A LOAD ends as IMC takes it. -/
theorem loader_load {n : Nat} (hk : r.kind = .load n) : endRequest .loader r .done k = loadEnd .done (k.setUnit .loader k.hlc.loader.workEnds) ∧
    endRequest .loader r (.refused .empty) k = loadEnd .empty (k.setUnit .loader k.hlc.loader.workEnds) := by
  have notClear : r.kind ≠ .clear := by rw [hk]; nofun
  rw [endRequest_loader _ _ notClear, endRequest_loader _ _ notClear]
  unfold loaderEnds
  rw [hk]
  exact ⟨rfl, rfl⟩

/-- An UNLOAD ends done: its carrier joins the list and is reported, and the end waits for PSC (R183). -/
theorem unload_done {d : Drum} (hk : r.kind = .unload) (hd : k.imc.drum = some d) :
    let c := carrierFromDrum k d
    endRequest .loader r .done k =
      { k with
        dtu := { k.dtu with reference := true }
        hlc := { k.hlc with loader := k.hlc.loader.workEnds, carriers := k.hlc.carriers ++ [c], unloadEnd := .heldForPsc }
        psc := { k.psc with inbox := k.psc.inbox ++ [.carrierCreated c.slot c.attempt c.spoiled] } } := by
  intro c
  have drum : (k.setUnit .loader k.hlc.loader.workEnds).imc.drum = some d := hd
  rw [endRequest_loader _ _ (by rw [hk]; nofun)]
  unfold loaderEnds
  rw [hk]
  dsimp only
  rw [unloadDone, drum]
  rfl

/-- The bin of a new carrier is that of its plate's order, and the reject bin without one. -/
theorem carrierFromDrum_bin (k : Chip) (d : Drum) : (carrierFromDrum k d).bin = match d.owner with
    | none => 15
    | some p => match k.plate p.slot with
      | none => 15
      | some x => x.order.bin := by
  unfold carrierFromDrum
  cases d.owner with
  | none => rfl
  | some p =>
    simp only [Option.map_some, Option.getD_some, routeBinOf]
    cases k.plate p.slot <;> rfl

end

/-! ### CLEAR (R182) -/

theorem clear_done {r : Request} (u : HUnit) (k : Chip) (hk : r.kind = .clear) : endRequest u r .done k =
    let k1 := k.setHlc { k.hlc.setUnit u (k.hlc.unit u).workEnds with cleared := k.hlc.cleared + 1 }
    if k.hlc.cleared + 1 = 4 then startSucceeded k1 else k1 := by
  unfold endRequest clearEnds
  have cleared : (k.setUnit u (k.hlc.unit u).workEnds).hlc.cleared = k.hlc.cleared := (setUnit_rest _ _ _).2.2.2
  simp only [hk, if_true, cleared]
  rfl

theorem clear_fails {r : Request} {e : RequestEnd} (u : HUnit) (k : Chip) (hk : r.kind = .clear) (he : e ≠ .done) :
    endRequest u r e k = startFailed 8 (unitAddr u) k := by
  refine (if_pos hk).trans ((if_neg he).trans ?_)
  exact startFailed_setHlc _ _ _ _

/-! ### Stage requests (R180, R184) -/

section
variable {r : Request} {k : Chip} {a b : List Carrier} {c : Carrier}

/-- Every other end puts the request back and holds the unit. -/
theorem punch_held {e : RequestEnd} (hk : r.kind ≠ .clear) (hd : e ≠ .done) (hm : e ≠ .faulted .misreg) :
    k.putBackHeld (endRequest .punch r e k) .punch r .failure e.detail := by
  have ended : endRequest .punch r e k =
      holdUnit .punch .failure e.detail (putBack .punch r (k.setUnit .punch (k.hlc.unit .punch).workEnds)) := by
    rw [endRequest_punch _ _ hk, punchEnds]
    · rfl
    · exact hd
    · exact hm
  rw [ended]
  exact putBack_held .punch r .failure e.detail k

theorem processor_held {e : RequestEnd} (hk : r.kind ≠ .clear) (he : e = .busyLimit ∨ ∃ why, e = .refused why) :
    k.putBackHeld (endRequest .processor r e k) .processor r .failure e.detail := by
  have ended : endRequest .processor r e k =
      holdUnit .processor .failure e.detail (putBack .processor r (k.setUnit .processor (k.hlc.unit .processor).workEnds)) := by
    rcases he with rfl | ⟨why, rfl⟩ <;> exact endRequest_processor _ k hk
  rw [ended]
  exact putBack_held .processor r .failure e.detail k

theorem sorter_held {e : RequestEnd} (hk : r.kind ≠ .clear) (hd : e ≠ .done) (hm : e ≠ .faulted .binFull) :
    k.putBackHeld (endRequest .sorter r e k) .sorter r .failure e.detail := by
  have ended : endRequest .sorter r e k =
      holdUnit .sorter .failure e.detail (putBack .sorter r (k.setUnit .sorter (k.hlc.unit .sorter).workEnds)) := by
    rw [endRequest_sorter _ _ hk, sorterEnds]
    · rfl
    · exact hd
    · exact hm
  rw [ended]
  exact putBack_held .sorter r .failure e.detail k

theorem sorter_binFull (hk : r.kind ≠ .clear) :
    k.putBackHeld (endRequest .sorter r (.faulted .binFull) k) .sorter r .binFull (256 + Config.binFullCode.toNat) := by
  rw [endRequest_sorter _ _ hk]
  exact putBack_held .sorter r .binFull (256 + Config.binFullCode.toNat) k

/-- MISREG spoils the carrier, marks it when it was good, and sends it on. -/
theorem punch_misreg (hk : r.kind ≠ .clear) (hc : k.hlc.carriers = a ++ c :: b) (ha : ∀ x ∈ a, x.stage ≠ .punch) (hs : c.stage = .punch) :
    let t := endRequest .punch r (.faulted .misreg) k
    t.hlc = { k.hlc with
        punch := k.hlc.punch.workEnds, carriers := a ++ { c with stage := .process, spoiled := true } :: b
        processor := { k.hlc.processor with queue := k.hlc.processor.queue ++ [⟨.process false, c.slot, c.attempt, 0⟩] } } ∧
      k.carrierMarked t .misreg (256 + Config.misregCode.toNat) c := by
  intro t
  let j := k.setUnit .punch k.hlc.punch.workEnds
  obtain ⟨l, q, spoiled, mark⟩ := spoilAtStage_eq (k := j) (256 + Config.misregCode.toNat) (.inl rfl) hc ha hs
  have stage := stageEnd_punch (k := spoilAtStage .punch .misreg (256 + Config.misregCode.toNat) j) (c := { c with spoiled := true })
    (congrArg (fun x => x.hlc.carriers) spoiled) ha hs
  have ended : t = stageEnd .punch (spoilAtStage .punch .misreg (256 + Config.misregCode.toNat) j) := endRequest_punch _ k hk
  rw [ended, stage]
  refine ⟨?_, mark⟩
  rw [spoiled]
  rfl

/-- A fault of the PROCESSOR, and its timeout, spoil the carrier, send it on, and hold the unit. -/
theorem processor_faults {e : RequestEnd} {detail : Nat} (hk : r.kind ≠ .clear)
    (he : (∃ code, e = .faulted code ∧ detail = 256 + (faultByte code).toNat) ∨ (e = .timedOut ∧ detail = 768))
    (hc : k.hlc.carriers = a ++ c :: b) (ha : ∀ x ∈ a, x.stage ≠ .process) (hs : c.stage = .process) :
    let t := endRequest .processor r e k
    t.hlc.carriers = a ++ { c with stage := .route, spoiled := true } :: b ∧
      t.hlc.sorter = { k.hlc.sorter with queue := k.hlc.sorter.queue ++ [⟨.route 15, c.slot, c.attempt, 0⟩] } ∧
      (t.hlc.unit .processor).work = none ∧ k.carrierMarked t .process detail c ∧ k.heldWith t .processor .processFault detail := by
  intro t
  let j := k.setUnit .processor k.hlc.processor.workEnds
  obtain ⟨l, q, spoiled, mark⟩ := spoilAtStage_eq (k := j) detail (.inr rfl) hc ha hs
  have stage := stageEnd_process (k := spoilAtStage .process .process detail j) (c := { c with spoiled := true })
    (congrArg (fun x => x.hlc.carriers) spoiled) ha hs
  have ended : t = holdUnit .processor .processFault detail (stageEnd .process (spoilAtStage .process .process detail j)) := by
    rcases he with ⟨code, rfl, rfl⟩ | ⟨rfl, rfl⟩
    · exact endRequest_processor _ k hk
    · exact endRequest_processor _ k hk
  obtain ⟨⟨x, hlc, work, -⟩, -, lists, -, -, held⟩ :=
    holdUnit_spec .processor .processFault detail (stageEnd .process (spoilAtStage .process .process detail j))
  rw [← ended] at hlc lists held
  have record : (stageEnd .process (spoilAtStage .process .process detail j)).dmr.record = k.dmr.record := by rw [stage, spoiled]; rfl
  have clock : (stageEnd .process (spoilAtStage .process .process detail j)).regs.plantClock = k.regs.plantClock := by
    rw [stage, spoiled]; rfl
  have unit_ : (stageEnd .process (spoilAtStage .process .process detail j)).hlc.processor = k.hlc.processor.workEnds := by
    rw [stage, spoiled]; rfl
  refine ⟨?_, ?_, ?_, fun n hn hg hp hl => ?_, fun hn => ?_⟩
  · rw [hlc, (setUnit_rest _ _ _).2.1, stage]
    rfl
  · rw [hlc]
    show (stageEnd .process (spoilAtStage .process .process detail j)).hlc.sorter = _
    rw [stage, spoiled]
    rfl
  · rw [hlc, unit_setUnit_self, work]
    exact congrArg UnitState.work unit_
  · refine Eq.trans ?_ (mark n hn hg hp hl)
    rw [Chip.marks, Chip.marks, lists, stage]
    rfl
  · obtain ⟨hold, paused, alert, latched⟩ := held ((congrArg UnitState.hold unit_).trans hn)
    rw [record, clock] at latched
    exact ⟨hold, paused, alert, latched⟩

end

/-- Settles O60. -/
theorem handlerOutcomes : Obligations.HandlerOutcomes := by
  refine ⟨?_, ?_⟩
  · intro s u r ph k st active ends ha hw
    have lively : lineActive k = true := (lineActive_iff k).mpr ha
    have valid (fr : AnswerFrame) (hi : fr.intact = true) (hf : fr.addr = unitAddr u) : answerValid fr u = true :=
      (answerValid_iff fr u).mpr ⟨hi, hf⟩
    let next (x : Chip) : Result := .next (s.setChip x)
    refine ⟨fun fr hi hf => ⟨fun hp hl => ?_, fun hp hl => ⟨fun why => ?_, fun hb => ?_⟩⟩, fun hp hc => ⟨fun h => ?_, fun hpol hk => ?_⟩,
      fun hp => ?_⟩
    · subst hp
      refine ⟨congrArg next ((pollAnswered_taken _ hl (valid fr hi hf) lively hw).trans (answerPoll_done ?_)), fun code =>
        congrArg next ((pollAnswered_taken _ hl (valid fr hi hf) lively hw).trans (answerPoll_fault code ?_))⟩
      all_goals
        rw [freed_unit]
        exact hw
    · subst hp
      refine congrArg next ((requestAnswered_sent (.refused why) hl (valid fr hi hf) lively hw).trans ?_)
      rw [answerRequest, freeLine_unit, freeLine_setUnit]
      rfl
    · subst hp
      refine congrArg next ((requestAnswered_sent .busy hl (valid fr hi hf) lively hw).trans ?_)
      rw [answerRequest, freeLine_unit]
      exact if_neg (Nat.not_lt.mpr hb)
    · subst hp
      refine congrArg next ((completionExpires_taken lively hc hw).trans ((if_neg (fun g => ?_)).trans ?_))
      · exact h.elim (fun h => h g.1) g.2
      · exact congrArg (fun x => endRequest u r .timedOut (k.setHlc x)) (setUnit_self k.hlc u).symm
    · subst hp
      obtain ⟨same, idle, mark⟩ := timeoutMark_eq u r k
      exact ⟨_, congrArg next ((completionExpires_taken lively hc hw).trans (if_pos ⟨hpol, hk⟩)), same, idle, mark⟩
    · exact exec_eq_of_chip (f := completionExpires u) rfl (completionExpires_untaken hw hp)
  · intro k r ended request oldest heldFor putBack marked
    refine ⟨fun hk u => ⟨fun hc => ?_, fun hc => ⟨?_, ?_⟩, fun e he => ?_⟩, fun hk => ⟨fun a c b h => ?_, fun a c b h => ?_,
      fun a c b h => ?_, ?_, fun code hc => ?_, fun code hc => ?_, fun u hu => ⟨?_, fun why => ?_⟩, ?_, ?_,
      fun l n hn hl hs hp => ⟨fun hn' hw => ?_, fun p hp' => ?_, ?_, fun hh e hd he => ?_⟩, fun d hu hd => ⟨?_, fun e he hh => ?_⟩⟩⟩
    · exact (clear_done u k hk).trans (if_neg (by omega))
    · rw [clear_done u k hk, hc]
      rfl
    · rw [clear_done u k hk, hc]
      rfl
    · exact (clear_fails u k hk he).trans (startFailed_eq _ _ _)
    · obtain ⟨hc, ha, hs⟩ := h
      refine ⟨?_, punch_misreg hk hc ha hs⟩
      rw [endRequest_punch _ _ hk, punchEnds, stageEnd_punch (k := k.setUnit .punch k.hlc.punch.workEnds) hc ha hs]
      rfl
    · obtain ⟨hc, ha, hs⟩ := h
      refine ⟨?_, fun e detail he => processor_faults hk he hc ha hs⟩
      rw [endRequest_processor _ _ hk, processorEnds, stageEnd_process (k := k.setUnit .processor k.hlc.processor.workEnds) hc ha hs]
      rfl
    · obtain ⟨hc, ha, hs⟩ := h
      rw [endRequest_sorter _ _ hk, sorterEnds, stageEnd_route (k := k.setUnit .sorter k.hlc.sorter.workEnds) hc ha hs]
      rfl
    · exact sorter_binFull hk
    · exact punch_held hk nofun (fun h => hc (by injection h))
    · exact sorter_held hk nofun (fun h => hc (by injection h))
    · cases u with
      | loader => exact absurd rfl hu
      | punch => exact punch_held hk nofun nofun
      | processor => exact processor_held hk (.inl rfl)
      | sorter => exact sorter_held hk nofun nofun
    · cases u with
      | loader => exact absurd rfl hu
      | punch => exact punch_held hk nofun nofun
      | processor => exact processor_held hk (.inr ⟨why, rfl⟩)
      | sorter => exact sorter_held hk nofun nofun
    · exact punch_held hk nofun nofun
    · exact sorter_held hk nofun nofun
    · rw [(loader_load hn).1]
      exact loadEnd_blank hl (by rw [show (k.setUnit _ _).imc.pauses = _ from hp]; rfl) hn' hw
    · rw [(loader_load hn).1]
      exact loadEnd_plate hl (by rw [show (k.setUnit _ _).imc.pauses = _ from hp]; rfl) hp'
    · obtain ⟨state, gone, pauses, drum, waiting, hlc⟩ := loadEnd_empty (k := k.setUnit .loader k.hlc.loader.workEnds) hl
      rw [(loader_load hn).2]
      refine ⟨state, gone, pauses.trans ?_, drum, fun p hp' => by rw [waiting, hp']; rfl, by rw [hlc]; rfl⟩
      show { k.imc.pauses with supply := true } = _
      rw [hp]
    · have notUnload : r.kind ≠ .unload := by rw [hn]; nofun
      obtain ⟨held, drum, -, -, loads⟩ := loader_fails (k := k) hk hd (.inr he) hh
      obtain ⟨state, gone, waiting⟩ := loads l notUnload hl
      exact ⟨state, gone, drum, waiting, held⟩
    · intro t bin c
      have made : carrierFromDrum k d = c := by
        show { carrierFromDrum k d with bin := (carrierFromDrum k d).bin } = c
        rw [carrierFromDrum_bin]
        rfl
      have done := unload_done (k := k) hu hd
      rw [made] at done
      exact done
    · obtain ⟨held, drum, carriers, state, -⟩ := loader_fails (k := k) hk he (.inl hu) hh
      exact ⟨drum, state hu, carriers, held⟩

end Sys2Proof.Machine
end

