-- ==== Sys2Proof/Proofs/Steps.lean ====
section
/-! SUPPORT. The steps of an input that judge one plate's readiness, and the writes at the input's end (O6, O45, O49). -/

namespace Sys2Proof.Machine

/-! ### Tables with rising indexes -/

/-- The indexes of a table rise. -/
def tblSorted {α : Type} (l : List (Nat × α)) : Prop := (l.map (·.1)).Pairwise (· < ·)

/-- An index of a table after a change is the one changed, or was one before. -/
theorem tblPut_index {α : Type} {l : List (Nat × α)} {i n : Nat} {x : α} (h : n ∈ (tblPut l i x).map (·.1)) :
    n = i ∨ n ∈ l.map (·.1) := by
  induction l with
  | nil => simpa [tblPut] using h
  | cons e l ih =>
    obtain ⟨j, v⟩ := e
    unfold tblPut at h
    split at h
    · simpa using h
    · split at h
      · next hj => simp_all
      · simp only [List.map_cons, List.mem_cons] at h ⊢
        rcases h with h | h
        · exact .inr (.inl h)
        · exact (ih h).imp_right .inr

theorem tblPut_sorted {α : Type} {l : List (Nat × α)} (h : tblSorted l) (i : Nat) (x : α) : tblSorted (tblPut l i x) := by
  induction l with
  | nil => exact List.pairwise_singleton _ _
  | cons e l ih =>
    obtain ⟨j, v⟩ := e
    obtain ⟨hj, hl⟩ := List.pairwise_cons.mp h
    unfold tblPut
    split
    · next lt =>
      refine List.pairwise_cons.mpr ⟨fun n hn => ?_, h⟩
      rcases List.mem_cons.mp hn with rfl | hn
      · exact lt
      · exact lt_trans lt (hj n hn)
    · split
      · next eq => exact List.pairwise_cons.mpr ⟨eq ▸ hj, hl⟩
      · refine List.pairwise_cons.mpr ⟨fun n hn => ?_, ih hl⟩
        rcases tblPut_index hn with rfl | hn
        · show j < n
          omega
        · exact hj n hn

/-- The entries of a sorted table are its values at their indexes. -/
theorem exists_entry_iff {α : Type} {l : List (Nat × α)} (h : tblSorted l) (P : α → Prop) :
    (∃ e ∈ l, P e.2) ↔ ∃ n x, tblGet l n = some x ∧ P x :=
  ⟨fun ⟨e, he, hp⟩ => ⟨e.1, e.2, tblGet_of_mem l h e he, hp⟩, fun ⟨n, x, hx, hp⟩ => ⟨(n, x), mem_of_tblGet hx, hp⟩⟩

/-! ### What a judging step can change -/

/-- What the judging of a plate's readiness leaves of it: its state, its time of READY, and what of LATE and OVERDUE is done. -/
def Plate.judgedAs (p : Plate) (st : PlateState) (time : Word) (late overdue : Bool) : Plate :=
  { p with state := st, readyTime := time, lateDone := late, overdueDone := overdue }

/-- What the judging of one plate's readiness leaves of the chip: plates, the ready list, the finding, and what a mark changes. -/
def Chip.judgedAs (k : Chip) (plates : List (Nat × Plate)) (ready : List Nat) (all awaiting : Bool) (lists : List (Nat × SlotMarks))
    (report : List Transfer) : Chip :=
  { k with
    psc := { k.psc with plates := plates, ready := ready, allReady := all, awaiting := awaiting }
    dmr := { k.dmr with lists := lists }, sp := { k.sp with report := report } }

/-- From `k` to `t` only the readiness of the plate of one slot has been judged: PSC waits for a mark of its own, or no mark has been recorded. -/
def Chip.judged (slot : Nat) (k t : Chip) : Prop :=
  ∃ plates ready all awaiting lists report, t = k.judgedAs plates ready all awaiting lists report ∧
    (awaiting = true ∨ (lists = k.dmr.lists ∧ report = k.sp.report ∧ awaiting = k.psc.awaiting)) ∧
    (tblSorted k.psc.plates → tblSorted plates) ∧ (∀ n, n ≠ slot → tblGet plates n = k.plate n) ∧
    ∀ p, k.plate slot = some p → ∃ st time late overdue, tblGet plates slot = some (p.judgedAs st time late overdue)

section
variable {slot : Nat} {k t u : Chip}

theorem judged_refl (slot : Nat) (k : Chip) : k.judged slot k :=
  ⟨_, _, _, _, _, _, rfl, .inr ⟨rfl, rfl, rfl⟩, id, fun _ _ => rfl, fun p hp => ⟨p.state, p.readyTime, p.lateDone, p.overdueDone, hp⟩⟩

theorem judged_trans (h : k.judged slot t) (g : t.judged slot u) : k.judged slot u := by
  obtain ⟨ps, r, a, w, l, q, rfl, silent, sorted, others, own⟩ := h
  obtain ⟨ps', r', a', w', l', q', rfl, silent', sorted', others', own'⟩ := g
  refine ⟨ps', r', a', w', l', q', rfl, ?_, fun h => sorted' (sorted h), fun n hn => (others' n hn).trans (others n hn), fun p hp => ?_⟩
  · rcases silent' with hw | ⟨hl, hq, hw⟩
    · exact .inl hw
    · rcases silent with h | ⟨h1, h2, h3⟩
      · exact .inl (hw.trans h)
      · exact .inr ⟨hl.trans h1, hq.trans h2, hw.trans h3⟩
  · obtain ⟨st, time, late, overdue, hq⟩ := own p hp
    exact own' (p.judgedAs st time late overdue) hq

/-- A mark changes no plate; PSC waits for the disposition of one that DMR records. -/
theorem pscMark_judged (slot : Nat) (m : MarkReport) (k : Chip) : k.judged slot (pscMark m k) := by
  unfold pscMark
  cases hp : k.plate m.slot with
  | none => rw [recordMark_free hp]; exact judged_refl slot k
  | some p =>
    cases hs : suppressed (k.marks m.slot) m with
    | true => rw [recordMark_suppressed hs]; exact judged_refl slot k
    | false =>
      rw [recordMark_stored hp hs]
      exact ⟨_, _, _, _, _, _, rfl, .inl rfl, id, fun _ _ => rfl, fun p hp => ⟨p.state, p.readyTime, p.lateDone, p.overdueDone, hp⟩⟩

/-- The plate of the slot judged, and the ready list, changed. -/
theorem setPlate_judged {p : Plate} (hp : k.plate slot = some p) (st : PlateState) (time : Word) (late overdue : Bool) :
    k.judged slot (setPlate slot (p.judgedAs st time late overdue) k) :=
  ⟨_, _, _, _, _, _, rfl, .inr ⟨rfl, rfl, rfl⟩, fun h => tblPut_sorted h slot _, fun n hn => tblGet_tblPut_ne _ _ _ _ hn, fun q hq => by
    cases hp.symm.trans hq
    exact ⟨st, time, late, overdue, tblGet_tblPut_self _ _ _⟩⟩

theorem ready_judged (slot : Nat) (k : Chip) (r : List Nat) : k.judged slot (k.setPsc { k.psc with ready := r }) :=
  ⟨_, _, _, _, _, _, rfl, .inr ⟨rfl, rfl, rfl⟩, id, fun _ _ => rfl, fun p hp => ⟨p.state, p.readyTime, p.lateDone, p.overdueDone, hp⟩⟩

theorem setAllReady_judged (slot : Nat) (b : Bool) (k : Chip) : k.judged slot (setAllReady b k) :=
  ⟨_, _, _, _, _, _, rfl, .inr ⟨rfl, rfl, rfl⟩, id, fun _ _ => rfl, fun p hp => ⟨p.state, p.readyTime, p.lateDone, p.overdueDone, hp⟩⟩

theorem updPlate_judged (g : Plate → Plate)
    (hg : ∀ p, k.plate slot = some p → ∃ st time late overdue, g p = p.judgedAs st time late overdue) : k.judged slot (updPlate slot g k) := by
  unfold updPlate
  cases hp : k.plate slot with
  | none => exact judged_refl slot k
  | some p =>
    obtain ⟨st, time, late, overdue, hq⟩ := hg p hp
    dsimp only
    rw [hq]
    exact setPlate_judged hp st time late overdue

theorem lookAt_judged (slot n : Nat) (k : Chip) : k.judged slot (lookAt slot n k) := by
  have begun : k.judged slot (if n = 0 then setAllReady true k else k) := by
    split
    · exact setAllReady_judged slot true k
    · exact judged_refl slot k
  unfold lookAt
  dsimp only
  split
  · exact begun
  split
  · exact begun
  split
  · exact begun
  · exact judged_trans begun (setAllReady_judged slot false _)
  · exact judged_trans begun (setAllReady_judged slot false _)
  · exact judged_trans begun (judged_trans (setAllReady_judged slot false _) (pscMark_judged slot _ _))

theorem enterReady_judged (slot : Nat) (k : Chip) : k.judged slot (enterReady slot k) :=
  judged_trans (updPlate_judged _ (fun p _ => ⟨.ready, k.regs.plantClock, p.lateDone, p.overdueDone, rfl⟩)) (ready_judged slot _ _)

theorem checkLate_judged (slot : Nat) (v : Word) (k : Chip) : k.judged slot (checkLate slot v k) := by
  unfold checkLate
  cases hp : k.plate slot with
  | none => exact judged_refl slot k
  | some p =>
    dsimp only
    split
    · exact judged_trans (setPlate_judged hp p.state p.readyTime true p.overdueDone) (pscMark_judged slot _ _)
    · exact judged_refl slot k

theorem checkOverdue_judged (slot : Nat) (v : Word) (k : Chip) : k.judged slot (checkOverdue slot v k) := by
  unfold checkOverdue
  cases hp : k.plate slot with
  | none => exact judged_refl slot k
  | some p =>
    dsimp only
    split
    · exact judged_trans (setPlate_judged hp p.state p.readyTime p.lateDone true) (pscMark_judged slot _ _)
    · exact judged_refl slot k

theorem enterWaiting_judged (slot : Nat) (k : Chip) : k.judged slot (enterWaiting slot k) :=
  judged_trans (judged_trans (ready_judged slot k _)
    (updPlate_judged _ (fun p _ => ⟨.waiting, p.readyTime, p.lateDone, p.overdueDone, rfl⟩))) (checkLate_judged slot _ _)

theorem settleReadiness_judged (slot : Nat) (returned : Bool) (k : Chip) : k.judged slot (settleReadiness slot returned k) := by
  unfold settleReadiness
  cases k.plate slot with
  | none => exact judged_refl slot k
  | some p =>
    dsimp only
    split
    · split
      · exact judged_trans (ready_judged slot k _) (enterReady_judged slot _)
      · exact judged_refl slot k
    · split
      · exact enterWaiting_judged slot k
      · exact judged_refl slot k

theorem whileLive_judged {f : Chip → Chip} (h : k.judged slot (f k)) : k.judged slot (whileLive slot f k) := by
  unfold whileLive
  split
  · exact judged_refl slot k
  · split
    · exact h
    · exact judged_refl slot k

/-- The steps that judge the readiness of the plate of a slot, or mark it. -/
def PscStep.judges (slot : Nat) : PscStep → Prop
  | .mark _ => True
  | .look s _ => s = slot
  | .settle s _ => s = slot
  | .waiting s => s = slot
  | .late s _ => s = slot
  | .overdue s _ => s = slot
  | .fail _ => False
  | .startBreak _ _ => False
  | .result _ => False
  | .publish _ => False

theorem doStep_judged {s : PscStep} (h : s.judges slot) (k : Chip) : k.judged slot (doStep s k) := by
  cases s with
  | mark m => exact pscMark_judged slot m k
  | look s n => cases h; exact lookAt_judged slot n k
  | settle s r => cases h; exact whileLive_judged (settleReadiness_judged slot r k)
  | waiting s => cases h; exact whileLive_judged (enterWaiting_judged slot k)
  | late s v => cases h; exact checkLate_judged slot v k
  | overdue s v => cases h; exact checkOverdue_judged slot v k
  | fail _ => exact h.elim
  | startBreak _ _ => exact h.elim
  | result _ => exact h.elim
  | publish _ => exact h.elim

theorem evaluation_judges (slot : Nat) (returned : Bool) : ∀ s ∈ evaluation slot returned, s.judges slot := by
  simp [evaluation, PscStep.judges]

/-! ### A run of judging steps -/

theorem awaiting_of_free {k : Chip} (h : pscBlocked k = false) : k.psc.awaiting = false := by
  rw [pscBlocked, Bool.or_eq_false_iff] at h
  exact h.2

theorem pscBlocked_judged (h : k.judged slot t) (hb : pscBlocked k = false) : pscBlocked t = t.psc.awaiting := by
  obtain ⟨_, _, _, awaiting, _, _, rfl, -⟩ := h
  have free : (!k.working || k.psc.ordering.isSome || decide (k.psc.outstanding ≠ 0)) = false := by
    rw [pscBlocked, Bool.or_eq_false_iff] at hb
    exact hb.1
  show ((!k.working || k.psc.ordering.isSome || decide (k.psc.outstanding ≠ 0)) || awaiting) = awaiting
  rw [free, Bool.false_or]

/-- Judging steps go on to the steps behind them, or stop at a mark of PSC's own with steps left. -/
theorem runSteps_judging (l rest : List PscStep) (k : Chip) (hl : ∀ s ∈ l, s.judges slot) (hr : rest ≠ []) (hb : pscBlocked k = false) :
    ∃ j, k.judged slot j ∧ ((j.psc.awaiting = true ∧ ∃ w, w ≠ [] ∧ runSteps (l ++ rest) k = setWork w j) ∨
      (pscBlocked j = false ∧ runSteps (l ++ rest) k = runSteps rest j)) := by
  induction l generalizing k with
  | nil => exact ⟨k, judged_refl slot k, .inr ⟨hb, rfl⟩⟩
  | cons s l ih =>
    have step : k.judged slot (doStep s k) := doStep_judged (hl s List.mem_cons_self) k
    rw [List.cons_append, runSteps_cons _ _ _ hb]
    cases hw : pscBlocked (doStep s k) with
    | true =>
      refine ⟨doStep s k, step, .inl ⟨?_, l ++ rest, by simp [hr], runSteps_blocked _ _ hw⟩⟩
      rw [← pscBlocked_judged step hb, hw]
    | false =>
      obtain ⟨j, judged, run⟩ := ih (doStep s k) (fun x hx => hl x (List.mem_cons_of_mem _ hx)) hw
      exact ⟨j, judged_trans step judged, run⟩

end

/-! ### Readiness (R79, R80) -/

/-- Whether a position of an order is ready, or there is none. -/
def Order.positionReady (o : Order) (dir : List (Nat × PageRecord)) (n : Nat) : Bool :=
  match o.positions[n]? with
  | none => true
  | some pos =>
    match resolvePosition dir pos.key o.sep with
    | .ready _ => true
    | _ => false

theorem allReady_iff {o : Order} (dir : List (Nat × PageRecord)) (h : o.positions.length ≤ 2) :
    o.allReady dir ↔ (o.positionReady dir 0 && o.positionReady dir 1) = true := by
  have ready (pos : Position) : (∃ snap, resolvePosition dir pos.key o.sep = .ready snap) ↔
      (match resolvePosition dir pos.key o.sep with
        | .ready _ => true
        | _ => false) = true := by
    cases resolvePosition dir pos.key o.sep <;> simp
  unfold Order.allReady Order.positionReady
  match hp : o.positions, h with
  | [], _ => simp
  | [p], _ => simp [ready]
  | [p, q], _ => simp [ready]

/-- With no separation lacking, the question about a position only changes the finding. -/
theorem lookAt_eq {slot n : Nat} {k : Chip} {p : Plate} (hp : k.plate slot = some p) (hn : p.order.nosepFree k.iu.dir) :
    lookAt slot n k = setAllReady ((decide (n = 0) || k.psc.allReady) && p.order.positionReady k.iu.dir n) k := by
  have begun : (if n = 0 then setAllReady true k else k) = setAllReady (decide (n = 0) || k.psc.allReady) k := by
    by_cases h : n = 0
    · simp [h]
    · rw [if_neg h, decide_eq_false h, Bool.false_or]
      rfl
  unfold lookAt Order.positionReady
  dsimp only
  rw [hp, begun]
  dsimp only
  cases hpos : p.order.positions[n]? with
  | none => rw [Bool.and_true]
  | some pos =>
    dsimp only
    cases hr : resolvePosition k.iu.dir pos.key p.order.sep with
    | ready s => rw [Bool.and_true]
    | notComplete => rw [Bool.and_false]; rfl
    | mismatch i => rw [Bool.and_false]; rfl
    | nosep i v => exact absurd hr (hn pos (List.mem_of_getElem? hpos) i v)

/-- The two questions of an evaluation find whether every position is ready. -/
theorem runSteps_look {slot : Nat} {k : Chip} {p : Plate} (rest : List PscStep) (hb : pscBlocked k = false) (hp : k.plate slot = some p)
    (hn : p.order.nosepFree k.iu.dir) : runSteps (.look slot 0 :: .look slot 1 :: rest) k =
      runSteps rest (setAllReady (p.order.positionReady k.iu.dir 0 && p.order.positionReady k.iu.dir 1) k) := by
  have first : doStep (.look slot 0) k = setAllReady (p.order.positionReady k.iu.dir 0) k := by
    rw [doStep, lookAt_eq hp hn]
    rfl
  have open_ : pscBlocked (setAllReady (p.order.positionReady k.iu.dir 0) k) = false := hb
  rw [runSteps_cons _ _ _ hb, first, runSteps_cons _ _ _ open_, doStep,
    lookAt_eq (k := setAllReady (p.order.positionReady k.iu.dir 0) k) hp hn]
  rfl

theorem nosepFree_of_allReady {o : Order} {dir : List (Nat × PageRecord)} (h : o.allReady dir) : o.nosepFree dir := by
  intro pos hpos i v hr
  obtain ⟨s, hs⟩ := h pos hpos
  cases hs.symm.trans hr

theorem mem_insertReady (deadline : Nat → Nat) (slot : Nat) (l : List Nat) : slot ∈ insertReady deadline slot l := by
  induction l with
  | nil => exact List.mem_cons_self
  | cons x l ih =>
    unfold insertReady
    split
    · exact List.mem_cons_self
    · exact List.mem_cons_of_mem _ ih

theorem not_mem_leaveReady (slot : Nat) (k : Chip) : slot ∉ (leaveReady slot k).psc.ready := by
  simp [leaveReady, Chip.setPsc]

end Sys2Proof.Machine
end

