-- ==== Sys2Proof/Proofs/Withdrawals.lean ====
section
/-! SUPPORT. What a withdrawal and a word of PSC change: IMC, the bands, the pins (O6, O49). -/

namespace Sys2Proof.Machine

/-! ### PSC's word to IMC (R156, R166) -/

/-- What a word of PSC to IMC can change of the chip. -/
def Chip.wordedAs (k : Chip) (imc : ImagingController) (dtu : DrumTiming) (hf : HeadFeed) (buffers : List Buffer) (loader : UnitState)
    (inbox : List PscInput) : Chip :=
  { k with
    imc := imc, dtu := dtu, hf := hf, br := { k.br with buffers := buffers }
    hlc := { k.hlc with loader := loader }, psc := { k.psc with inbox := inbox } }

/-- From `k` to `t` IMC has taken a word of PSC: nothing differs but the imager with its timing, its head and a LOAD asked for, a band no longer
DRAINING, and a report to PSC. -/
def Chip.worded (k t : Chip) : Prop :=
  ∃ imc dtu hf buffers loader inbox, t = k.wordedAs imc dtu hf buffers loader inbox ∧ ∀ b ∈ buffers, b = .free ∨ b ∈ k.br.buffers

section
variable {k t u : Chip}

theorem worded_refl (k : Chip) : k.worded k := ⟨_, _, _, _, _, _, rfl, fun _ hb => .inr hb⟩

theorem worded_trans (h : k.worded t) (g : t.worded u) : k.worded u := by
  obtain ⟨_, _, _, _, _, _, rfl, old⟩ := h
  obtain ⟨imc, dtu, hf, bs, loader, inbox, rfl, new⟩ := g
  exact ⟨imc, dtu, hf, bs, loader, inbox, rfl, fun b hb => (new b hb).elim .inl (fun h => old b h)⟩

theorem worded_setImc (k : Chip) (imc : ImagingController) : k.worded (k.setImc imc) := ⟨_, _, _, _, _, _, rfl, fun _ hb => .inr hb⟩

theorem worded_setDtu (k : Chip) (dtu : DrumTiming) : k.worded (k.setDtu dtu) := ⟨_, _, _, _, _, _, rfl, fun _ hb => .inr hb⟩

theorem worded_setHf (k : Chip) (hf : HeadFeed) : k.worded (k.setHf hf) := ⟨_, _, _, _, _, _, rfl, fun _ hb => .inr hb⟩

theorem worded_queueLoader (r : Request) (k : Chip) : k.worded (queueRequest .loader r k) := ⟨_, _, _, _, _, _, rfl, fun _ hb => .inr hb⟩

theorem worded_tellPsc (i : PscInput) (k : Chip) : k.worded (tellPsc i k) := ⟨_, _, _, _, _, _, rfl, fun _ hb => .inr hb⟩

theorem worded_freeDraining (k : Chip) : k.worded (freeDraining k) := by
  refine ⟨_, _, _, _, _, _, rfl, fun b hb => ?_⟩
  obtain ⟨x, hx, rfl⟩ := List.mem_map.mp hb
  cases x with
  | free => exact .inl rfl
  | filling _ => exact .inr hx
  | full _ => exact .inr hx
  | draining _ => exact .inl rfl

theorem worded_setTarget (rpm : Nat) (k : Chip) : k.worded (setTarget rpm k) := by
  unfold setTarget
  refine worded_trans ?_ (worded_setImc _ _)
  split
  · exact worded_setDtu k _
  · exact worded_refl k

theorem worded_goTo (st : ImagerState) (k : Chip) : k.worded (goTo st k) := by
  have dark (rpm : Nat) (k1 : Chip) (h : k.worded k1) : k.worded (darken (setTarget rpm k1)) :=
    worded_trans h (worded_trans (worded_setTarget rpm k1) (worded_setHf _ _))
  cases st with
  | exposing => exact worded_trans (worded_setImc k _) (worded_setTarget _ _)
  | empty => exact dark _ _ (worded_setImc k _)
  | loading => exact dark _ _ (worded_setImc k _)
  | blank => exact dark _ _ (worded_setImc k _)
  | settling => exact dark _ _ (worded_setImc k _)
  | unloadWait => exact dark _ _ (worded_setImc k _)
  | unloading => exact dark _ _ (worded_setImc k _)
  | paused => exact dark _ _ (worded_setImc k _)

theorem worded_enterSettling (p : PlateRef) (k : Chip) : k.worded (enterSettling p k) :=
  worded_trans (worded_setImc k _) (worded_goTo _ _)

theorem worded_takeUp (k : Chip) : k.worded (takeUp k) := by
  unfold takeUp
  cases k.imc.waiting with
  | none => exact worded_refl k
  | some p =>
    dsimp only
    split
    · exact worded_refl k
    cases k.imc.drum with
    | none =>
      dsimp only
      split
      · exact worded_refl k
      · exact worded_trans (worded_trans (worded_trans (worded_setImc k _) (worded_setImc _ _)) (worded_goTo _ _)) (worded_queueLoader _ _)
    | some d =>
      dsimp only
      split
      · split
        · have drum : k.worded (setDrum (some { d with owner := some p }) (setWaitingPlate none k)) :=
            worded_trans (worded_setImc k _) (worded_setImc _ _)
          exact worded_trans (worded_trans (worded_trans drum (worded_setImc _ _)) (worded_setDtu _ _)) (worded_enterSettling p _)
        · exact worded_trans (worded_setImc k _) (worded_goTo _ _)
      · exact worded_refl k

theorem worded_settleByDrum (k : Chip) : k.worded (settleByDrum k) := by
  have up (st : ImagerState) : k.worded (takeUp (goTo st k)) := worded_trans (worded_goTo st k) (worded_takeUp _)
  unfold settleByDrum
  cases k.imc.drum with
  | none => exact up _
  | some d =>
    cases d with
    | mk format owner cond confirmed =>
      cases cond with
      | unexposed =>
        cases owner with
        | none => exact up _
        | some p => exact worded_enterSettling p k
      | exposed => exact worded_goTo _ k
      | spoiled => exact worded_goTo _ k

theorem worded_releaseBlank (d : Drum) (k : Chip) : k.worded (releaseBlank d k) := by
  have cleared : k.worded (setExposure Exposure.clear (setDrum (some { d with owner := none }) k)) :=
    worded_trans (worded_setImc k _) (worded_setImc _ _)
  unfold releaseBlank afterRequest
  split
  · exact worded_trans cleared (worded_goTo _ _)
  · exact worded_trans cleared (worded_settleByDrum _)

theorem worded_condemn (c : Condition) (b : Bool) (k : Chip) : k.worded (condemn c b k) := by
  unfold condemn
  cases k.imc.drum with
  | none => exact worded_refl k
  | some d => exact worded_setImc k _

theorem worded_endExposure (p : PlateRef) (k : Chip) : k.worded (endExposure p none k) := by
  have ended : k.worded (freeDraining (endPass k)) := worded_trans (worded_setHf k _) (worded_freeDraining _)
  have told := worded_trans (worded_trans ended (worded_condemn .spoiled true _))
    (worded_tellPsc (.exposureEnd p.slot p.attempt p.prep k.imc.exposure.exposed k.imc.exposure.holds) _)
  unfold endExposure
  dsimp only [reportExposureEnd, Option.isNone_none]
  split
  · exact worded_trans (worded_trans told (worded_setImc _ _)) (worded_goTo _ _)
  · exact worded_trans (worded_trans told (worded_setImc _ _)) (worded_goTo _ _)

theorem worded_withdrawDrumPlate (d : Drum) (p : PlateRef) (k : Chip) : k.worded (withdrawDrumPlate d p k) := by
  unfold withdrawDrumPlate
  split
  · cases k.imc.state with
    | settling => exact worded_releaseBlank d k
    | exposing =>
      dsimp only
      split
      · exact worded_trans (worded_endExposure p k) (worded_setImc _ _)
      · exact worded_trans (worded_tellPsc _ k) (worded_releaseBlank d _)
    | empty => exact worded_setImc k _
    | loading => exact worded_setImc k _
    | blank => exact worded_setImc k _
    | unloadWait => exact worded_setImc k _
    | unloading => exact worded_setImc k _
    | paused => exact worded_setImc k _
  · exact worded_refl k

/-- The waiting plate withdrawn (R156 (1)). -/
def withdrawWaiting (slot attempt : Nat) (k : Chip) : Chip :=
  match k.imc.waiting with
  | some w => if w.isFor slot attempt then setWaitingPlate none k else k
  | none => k

/-- The plate of a LOAD in work withdrawn (R156 (2)). -/
def withdrawLoad (slot attempt : Nat) (k : Chip) : Chip :=
  match k.imc.load with
  | some l =>
    match l.plate with
    | some p => if p.isFor slot attempt then k.setImc { k.imc with load := some { l with plate := none } } else k
    | none => k
  | none => k

/-- The drum plate withdrawn (R156 (3), (4)). -/
def withdrawDrum (slot attempt : Nat) (k : Chip) : Chip :=
  match k.imc.drum with
  | some d =>
    match d.owner with
    | some p => if p.isFor slot attempt then withdrawDrumPlate d p k else k
    | none => k
  | none => k

theorem imcWithdraw_eq (slot attempt : Nat) (k : Chip) :
    imcWithdraw slot attempt k = withdrawDrum slot attempt (withdrawLoad slot attempt (withdrawWaiting slot attempt k)) := rfl

theorem worded_ite {c : Bool} (h : k.worded t) : k.worded (if c then t else k) := by
  cases c
  · exact worded_refl k
  · exact h

theorem worded_imcWithdraw (slot attempt : Nat) (k : Chip) : k.worded (imcWithdraw slot attempt k) := by
  have waiting (k : Chip) : k.worded (withdrawWaiting slot attempt k) := by
    unfold withdrawWaiting
    split
    · exact worded_ite (worded_setImc k _)
    · exact worded_refl k
  have load (k : Chip) : k.worded (withdrawLoad slot attempt k) := by
    unfold withdrawLoad
    split
    · split
      · exact worded_ite (worded_setImc k _)
      · exact worded_refl k
    · exact worded_refl k
  have drum (k : Chip) : k.worded (withdrawDrum slot attempt k) := by
    unfold withdrawDrum
    split
    · split
      · exact worded_ite (worded_withdrawDrumPlate _ _ k)
      · exact worded_refl k
    · exact worded_refl k
  rw [imcWithdraw_eq]
  exact worded_trans (worded_trans (waiting k) (load _)) (drum _)

theorem worded_imcSpoilWord (slot attempt : Nat) (k : Chip) : k.worded (imcSpoilWord slot attempt k) := by
  unfold imcSpoilWord
  cases drumPlateFor k slot attempt with
  | none => exact worded_refl k
  | some dp =>
    obtain ⟨d, p⟩ := dp
    dsimp only
    split
    · split
      · exact worded_endExposure _ k
      · exact worded_withdrawDrumPlate _ _ k
    · exact worded_condemn _ _ k
    · exact worded_condemn _ _ k

end

/-! ### Bands and pins (R73, R119) -/

theorem giveUp_cases (slot attempt n : Nat) (b : Buffer) :
    Buffer.giveUp slot attempt b ≠ .full ⟨slot, attempt, n⟩ ∧ Buffer.giveUp slot attempt b ≠ .filling ⟨slot, attempt, n⟩ := by
  have own : Band.isFor ⟨slot, attempt, n⟩ slot attempt = true := by simp [Band.isFor]
  cases b with
  | free => exact ⟨nofun, nofun⟩
  | draining _ => exact ⟨nofun, nofun⟩
  | filling x =>
    rw [Buffer.giveUp]
    cases h : x.isFor slot attempt with
    | true => exact ⟨nofun, nofun⟩
    | false => exact ⟨nofun, fun e => by cases e; exact absurd (own.symm.trans h) (by decide)⟩
  | full x =>
    rw [Buffer.giveUp]
    cases h : x.isFor slot attempt with
    | true => exact ⟨nofun, nofun⟩
    | false => exact ⟨fun e => by cases e; exact absurd (own.symm.trans h) (by decide), nofun⟩

theorem discard_discarded (slot attempt : Nat) (k : Chip) : (discard slot attempt k).discarded slot attempt := by
  refine ⟨fun e he => ?_, fun b hb n => ?_⟩
  · have kept : (!e.isFor slot attempt) = true := (List.mem_filter.mp he).2
    rintro ⟨rfl, rfl⟩
    simp [RenderEntry.isFor] at kept
  · obtain ⟨x, -, rfl⟩ := List.mem_map.mp (show b ∈ (abandonFillOf slot attempt k.br).buffers.map (Buffer.giveUp slot attempt) from hb)
    exact giveUp_cases slot attempt n x

/-- Bands that have been given up stay so while no buffer is filled. -/
theorem discarded_of_buffers {k t : Chip} {slot attempt : Nat} (h : k.discarded slot attempt) (ho : t.br.order = k.br.order)
    (hb : ∀ b ∈ t.br.buffers, b = .free ∨ b ∈ k.br.buffers) : t.discarded slot attempt := by
  refine ⟨ho ▸ h.1, fun b hm n => ?_⟩
  rcases hb b hm with rfl | old
  · exact ⟨nofun, nofun⟩
  · exact h.2 b old n

/-- What giving up a plate's pins can change of the chip. -/
def Chip.unpinnedAs (k : Chip) (iu : IntakeUnit) (queue : List Transfer) (plates : List (Nat × Plate)) : Chip :=
  { k with iu := iu, sp := { k.sp with iu := queue }, psc := { k.psc with plates := plates } }

theorem giveUpPins_spec {slot : Nat} {k : Chip} {p : Plate} (hp : k.plate slot = some p) : ∃ iu queue plates,
    giveUpPins slot k = k.unpinnedAs iu queue plates ∧ p.pinsGivenUp k.iu.dir iu.dir ∧
      (tblSorted k.psc.plates → tblSorted plates) ∧ tblGet plates slot = some { p with pinsHeld := false } ∧
      ∀ n, n ≠ slot → tblGet plates n = k.plate n := by
  cases held : p.pinsHeld with
  | false =>
    have same : giveUpPins slot k = k := by simp [giveUpPins, hp, held]
    have own : p = { p with pinsHeld := false } := by rw [← held]
    exact ⟨k.iu, k.sp.iu, k.psc.plates, same, by rw [Plate.pinsGivenUp, held]; rfl, id, own ▸ hp, fun _ _ => rfl⟩
  | true =>
    have given : giveUpPins slot k = setPlate slot { p with pinsHeld := false } (unpinRequest p.snapshot k) := by
      simp [giveUpPins, hp, held]
    have unpinned := unpinRequest_unpins p.snapshot k
    obtain ⟨ws, -, e⟩ := finishEvent_spec ((pinnedRecords p.snapshot).foldl IuEvent.unpin (IuEvent.start k.iu)) none false false k
    have e : unpinRequest p.snapshot k = _ := e
    rw [e] at given unpinned
    exact ⟨_, _, _, given, by rw [Plate.pinsGivenUp, held]; exact unpinned, fun h => tblPut_sorted h slot _, tblGet_tblPut_self _ _ _,
      fun n hn => tblGet_tblPut_ne _ _ _ _ hn⟩

/-- What taking a plate off its way can change of the chip. -/
def Chip.relievedAs (k : Chip) (iu : IntakeUnit) (queue : List Transfer) (plates : List (Nat × Plate)) (imc : ImagingController)
    (dtu : DrumTiming) (hf : HeadFeed) (br : BandRenderer) (loader : UnitState) (inbox : List PscInput) : Chip :=
  { k with
    iu := iu, sp := { k.sp with iu := queue }, psc := { k.psc with plates := plates, inbox := inbox }
    imc := imc, dtu := dtu, hf := hf, br := br, hlc := { k.hlc with loader := loader } }

/-- From `k` to `t` a plate has been relieved of its attempt's bands and pins, and IMC has taken PSC's word. -/
def Chip.relieved (k t : Chip) (slot : Nat) (p : Plate) (attempt : Nat) : Prop :=
  ∃ iu queue plates imc dtu hf br loader inbox,
    t = k.relievedAs iu queue plates imc dtu hf br loader inbox ∧
    p.pinsGivenUp k.iu.dir iu.dir ∧ t.discarded slot attempt ∧
    (tblSorted k.psc.plates → tblSorted plates) ∧ tblGet plates slot = some { p with pinsHeld := false } ∧
    ∀ n, n ≠ slot → tblGet plates n = k.plate n

theorem withdraw_relieves {slot : Nat} {k : Chip} {p : Plate} (attempt : Nat) (hp : k.plate slot = some p) :
    k.relieved (withdraw slot attempt k) slot p attempt := by
  obtain ⟨iu, queue, plates, e, pins, sorted, own, others⟩ := giveUpPins_spec (k := discard slot attempt k) hp
  obtain ⟨imc, dtu, hf, buffers, loader, inbox, w, old⟩ := worded_imcWithdraw slot attempt (giveUpPins slot (discard slot attempt k))
  have gone : (giveUpPins slot (discard slot attempt k)).br = (discard slot attempt k).br := by rw [e]; rfl
  have discarded : (withdraw slot attempt k).discarded slot attempt := by
    refine discarded_of_buffers (discard_discarded slot attempt k) ?_ (fun b hb => ?_)
    · rw [withdraw, w, ← gone]
      rfl
    · rw [withdraw, w] at hb
      rw [← gone]
      exact old b hb
  refine ⟨iu, queue, plates, imc, dtu, hf, { (discard slot attempt k).br with buffers := buffers }, loader, inbox, ?_, pins,
    discarded, sorted, own, others⟩
  rw [withdraw, w, e]
  rfl

theorem word_relieves {slot : Nat} {k : Chip} {p : Plate} (attempt : Nat) (hp : k.plate slot = some p) :
    k.relieved (discard slot attempt (giveUpPins slot (imcSpoilWord slot attempt k))) slot p attempt := by
  obtain ⟨imc, dtu, hf, buffers, loader, inbox, w, -⟩ := worded_imcSpoilWord slot attempt k
  have here : (imcSpoilWord slot attempt k).plate slot = some p := by rw [w]; exact hp
  obtain ⟨iu, queue, plates, e, pins, sorted, own, others⟩ := giveUpPins_spec here
  rw [w] at pins
  refine ⟨iu, queue, plates, imc, dtu, hf, (discard slot attempt (giveUpPins slot (imcSpoilWord slot attempt k))).br, loader, inbox, ?_,
    pins, discard_discarded slot attempt _, fun h => sorted (by rw [w]; exact h), own, fun n hn => ?_⟩
  · rw [e, w]
    rfl
  · rw [others n hn, w]
    rfl

end Sys2Proof.Machine
end

