-- ==== Sys2Proof/Proofs/InputEnd.lean ====
section
/-! SUPPORT. The writes at an input's end (R10, R27, R88), and an input that judges one plate, from its begin to its end (O6, O45, O49). -/

namespace Sys2Proof.Machine

/-! ### The writes of PSC (R27, R88) -/

/-- What PSC's writes can change of the chip. -/
def Chip.writtenAs (k : Chip) (newsMap : BitVec 512) (outstanding : Nat) (report : List Transfer) : Chip :=
  { k with psc := { k.psc with newsMap := newsMap, outstanding := outstanding }, sp := { k.sp with report := report } }

/-- From `k` to `t` PSC has written into its slots and its maps, and no news bit has been cleared. -/
def Chip.written (k t : Chip) : Prop :=
  ∃ newsMap outstanding report, t = k.writtenAs newsMap outstanding report ∧
    ∀ n, k.psc.newsMap.getLsbD n = true → newsMap.getLsbD n = true

section
variable {k t u : Chip}

theorem written_refl (k : Chip) : k.written k := ⟨_, _, _, rfl, fun _ h => h⟩

theorem written_trans (h : k.written t) (g : t.written u) : k.written u := by
  obtain ⟨_, _, _, rfl, old⟩ := h
  obtain ⟨m, o, q, rfl, new⟩ := g
  exact ⟨m, o, q, rfl, fun n hn => new n (old n hn)⟩

theorem pscWrite_written (addr : Nat) (data : List Byte) (notices : List Notice) (k : Chip) : k.written (pscWrite addr data notices k) :=
  ⟨_, _, _, rfl, fun _ h => h⟩

theorem getLsbD_mapSet_true {w : Nat} (m : BitVec w) (slot n : Nat) :
    (mapSet m slot true).getLsbD n = (m.getLsbD n || (decide (n < w) && decide (n = slot))) := by
  rw [mapSet, if_pos rfl, BitVec.getLsbD_or, BitVec.getLsbD_shiftLeft, BitVec.getLsbD_one]
  rcases Nat.lt_trichotomy n slot with h | rfl | h
  · simp [h, Nat.ne_of_lt h]
  · by_cases hw : n < w
    · simp [hw, Nat.zero_lt_of_lt hw]
    · simp [hw]
  · simp [Nat.ne_of_gt h, Nat.not_lt.mpr (Nat.le_of_lt h), Nat.sub_ne_zero_of_lt h]

theorem setNews_written (slot : Nat) (k : Chip) : k.written (setNews slot k) := by
  unfold setNews
  split
  · exact written_refl k
  · refine ⟨_, _, _, rfl, fun n h => ?_⟩
    show (mapSet k.psc.newsMap slot true).getLsbD n = true
    rw [getLsbD_mapSet_true, h, Bool.true_or]

theorem setNews_bit {slot : Nat} (k : Chip) (h : slot < 512) : (setNews slot k).psc.newsMap.getLsbD slot = true := by
  unfold setNews
  split
  · assumption
  · show (mapSet k.psc.newsMap slot true).getLsbD slot = true
    rw [getLsbD_mapSet_true]
    simp [h]

theorem fieldWrites_written (slot : Nat) (old new : Plate) (k : Chip) : k.written (fieldWrites slot old new k) := by
  have fields (l : List ((Nat × List Byte) × (Nat × List Byte))) (k : Chip) :
      k.written (l.foldl (fun k e => pscWrite (k.slotAddr slot + e.2.1) e.2.2 [] k) k) := by
    induction l generalizing k with
    | nil => exact written_refl k
    | cons e l ih => exact written_trans (pscWrite_written _ _ _ k) (ih _)
  unfold fieldWrites
  dsimp only
  split
  · exact fields _ k
  · exact written_trans (fields _ k) (pscWrite_written _ _ _ _)

theorem publishSlot_written (slot : Nat) (old : Plate) (k : Chip) : k.written (publishSlot slot old k) := by
  unfold publishSlot
  split
  · exact written_refl k
  · dsimp only
    split
    · exact written_trans (fieldWrites_written slot old _ k) (setNews_written slot _)
    · exact fieldWrites_written slot old _ k

/-- The news bit of a slot that the input sets is 1 behind the slot's writes. -/
theorem publishSlot_news {slot : Nat} {p : Plate} (old : Plate) (hp : k.plate slot = some p) (hn : slot ∈ k.psc.newsDue)
    (hs : slot < 512) : (publishSlot slot old k).psc.newsMap.getLsbD slot = true := by
  have due : (decide (old.state ≠ p.state) || k.psc.newsDue.contains slot) = true := by simp [hn]
  unfold publishSlot
  rw [hp]
  dsimp only
  split
  · exact setNews_bit _ hs
  · next h => exact absurd due h

theorem publishSlots_written (l : List (Nat × Plate)) (k : Chip) : k.written (l.foldl (fun a e => publishSlot e.1 e.2 a) k) := by
  induction l generalizing k with
  | nil => exact written_refl k
  | cons e l ih => exact written_trans (publishSlot_written _ _ k) (ih _)

theorem publishSlots_news {slot : Nat} {p old : Plate} {l : List (Nat × Plate)} (hl : (slot, old) ∈ l) (hp : k.plate slot = some p)
    (hn : slot ∈ k.psc.newsDue) (hs : slot < 512) :
    (l.foldl (fun a e => publishSlot e.1 e.2 a) k).psc.newsMap.getLsbD slot = true := by
  induction l generalizing k with
  | nil => cases hl
  | cons e l ih =>
    rw [List.foldl_cons]
    rcases List.mem_cons.mp hl with rfl | hl
    · obtain ⟨m, _, _, e, kept⟩ := publishSlots_written l (publishSlot slot old k)
      rw [e]
      exact kept slot (publishSlot_news old hp hn hs)
    · obtain ⟨_, _, _, e, -⟩ := publishSlot_written e.1 e.2 k
      refine ih hl ?_ ?_
      · rw [e]; exact hp
      · rw [e]; exact hn

end

/-! ### The end of an input -/

/-- What the end of an input, or the stop at a mark, can change of the chip. -/
def Chip.finishedAs (k : Chip) (work : List PscStep) (newsMap : BitVec 512) (newsDue : List Nat) (outstanding : Nat)
    (report : List Transfer) (runState : RunState) : Chip :=
  { k with
    psc := { k.psc with work := work, newsMap := newsMap, newsDue := newsDue, outstanding := outstanding }
    sp := { k.sp with report := report }, pd := { k.pd with runState := runState } }

/-- The run state at the end of an input: STOPPING ends once no plate is PREPARING or IMAGING (R10). -/
def Chip.endState (k : Chip) : RunState := (checkStopped k).pd.runState

theorem checkStopped_eq (k : Chip) : checkStopped k = { k with pd := { k.pd with runState := k.endState } } := by
  unfold Chip.endState
  rcases checkStopped_cases k with h | ⟨-, h⟩
  · rw [h]
  · rw [h]
    rfl

theorem endState_congr {k t : Chip} (hr : t.pd.runState = k.pd.runState) (hp : t.psc.plates = k.psc.plates) : t.endState = k.endState := by
  unfold Chip.endState checkStopped
  rw [hr, hp]
  split
  · rfl
  · exact hr

/-- The input has come to its end, and PSC is left with its writes; or it stopped at a mark, with steps left. -/
theorem publish_finishes (old : List (Nat × Plate)) (j : Chip) : ∃ newsMap outstanding report,
    runSteps [] (publish old j) = j.finishedAs [] newsMap [] outstanding report j.endState ∧
      ∀ slot p q, (slot, q) ∈ old → j.plate slot = some p → slot ∈ j.psc.newsDue → slot < 512 → newsMap.getLsbD slot = true := by
  obtain ⟨m, o, q, e, -⟩ := publishSlots_written old j
  have news (slot : Nat) (p x : Plate) (hx : (slot, x) ∈ old) (hp : j.plate slot = some p) (hn : slot ∈ j.psc.newsDue)
      (hs : slot < 512) : m.getLsbD slot = true := by
    have bit := publishSlots_news hx hp hn hs
    rwa [e] at bit
  refine ⟨m, o, q, ?_, news⟩
  have state : (setNewsDue [] (j.writtenAs m o q)).endState = j.endState := endState_congr rfl rfl
  rw [publish, e, checkStopped_eq, state]
  rfl

/-- An input whose steps judge one plate: PSC has come to its end, or waits for a mark of its own with steps left. -/
def Chip.finished (j t : Chip) (old : List (Nat × Plate)) : Prop :=
  (j.psc.awaiting = true ∧ ∃ w, w ≠ [] ∧ t = setWork w j) ∨
  (pscBlocked j = false ∧ ∃ newsMap outstanding report, t = j.finishedAs [] newsMap [] outstanding report j.endState ∧
    ∀ slot p q, (slot, q) ∈ old → j.plate slot = some p → slot ∈ j.psc.newsDue → slot < 512 → newsMap.getLsbD slot = true)

/-- Either way the chip differs from the judged one only in the writes, the news and the run state. -/
theorem finished_frame {j t : Chip} {old : List (Nat × Plate)} (h : j.finished t old) :
    ∃ work newsMap newsDue outstanding report runState, t = j.finishedAs work newsMap newsDue outstanding report runState := by
  rcases h with ⟨-, w, -, rfl⟩ | ⟨-, m, o, q, rfl, -⟩
  · exact ⟨w, j.psc.newsMap, j.psc.newsDue, j.psc.outstanding, j.sp.report, j.pd.runState, rfl⟩
  · exact ⟨_, _, _, _, _, _, rfl⟩

theorem finished_done {j t : Chip} {old : List (Nat × Plate)} (h : j.finished t old) (hb : pscBlocked j = false) :
    t.pd.runState = j.endState := by
  rcases h with ⟨hw, -⟩ | ⟨-, m, o, q, rfl, -⟩
  · exact absurd ((blocked_of_awaiting hw).symm.trans hb) (by decide)
  · rfl

theorem finished_stopped {j t : Chip} {old : List (Nat × Plate)} (h : j.finished t old) (ha : j.psc.awaiting = true) :
    ∃ w, w ≠ [] ∧ t = setWork w j := by
  rcases h with ⟨-, stop⟩ | ⟨hb, -⟩
  · exact stop
  · exact absurd ((blocked_of_awaiting ha).symm.trans hb) (by decide)

theorem runSteps_publish {j : Chip} (old : List (Nat × Plate)) (hb : pscBlocked j = false) : j.finished (runSteps [.publish old] j) old := by
  refine .inr ⟨hb, ?_⟩
  rw [runSteps_cons _ _ _ hb]
  exact publish_finishes old j

/-- The steps of an input that judge one plate, and the writes behind them. -/
theorem runSteps_finishes {slot : Nat} {k : Chip} (l : List PscStep) (old : List (Nat × Plate)) (hl : ∀ s ∈ l, s.judges slot)
    (hb : pscBlocked k = false) : ∃ j, k.judged slot j ∧ j.finished (runSteps (l ++ [.publish old]) k) old := by
  obtain ⟨j, judged, stop | ⟨free, run⟩⟩ := runSteps_judging l [.publish old] k hl (by simp) hb
  · obtain ⟨hw, w, hne, e⟩ := stop
    exact ⟨j, judged, .inl ⟨hw, w, hne, e⟩⟩
  · rw [run]
    exact ⟨j, judged, runSteps_publish old free⟩

/-- With no event heard, PSC stays at the end of the input. -/
theorem pscGo_finished {j t : Chip} {old : List (Nat × Plate)} (h : j.finished t old) (hd : j.psc.due = []) : pscGo t = t := by
  rcases h with ⟨hw, w, -, rfl⟩ | ⟨-, m, o, q, rfl, -⟩
  · exact pscGo_blocked _ (blocked_of_awaiting hw)
  · exact pscGo_idle _ rfl hd

end Sys2Proof.Machine
end

