-- ==== Sys2Proof/Proofs/Readiness.lean ====
section
/-! SUPPORT. What the evaluation of a plate's readiness comes to (R79, R80, R108, R110). -/

namespace Sys2Proof.Machine

section
variable {slot : Nat} {k : Chip} {p : Plate}

/-- A plate in WAITING, off the ready list. -/
def Chip.asWaiting (k : Chip) (slot : Nat) (p : Plate) : Chip := setPlate slot { p with state := .waiting } (leaveReady slot k)

theorem asWaiting_plate (k : Chip) (slot : Nat) (p : Plate) : (k.asWaiting slot p).plate slot = some { p with state := .waiting } :=
  setPlate_self slot _ _

theorem asWaiting_judged (hp : k.plate slot = some p) : k.judged slot (k.asWaiting slot p) :=
  judged_trans (ready_judged slot k _) (setPlate_judged (k := leaveReady slot k) hp .waiting p.readyTime p.lateDone p.overdueDone)

theorem updPlate_eq {g : Plate → Plate} (hp : k.plate slot = some p) : updPlate slot g k = setPlate slot (g p) k := by
  simp only [updPlate, hp]

theorem enterWaiting_eq (hp : k.plate slot = some p) : enterWaiting slot k = checkLate slot k.regs.plantClock (k.asWaiting slot p) := by
  have here : (leaveReady slot k).plate slot = some p := hp
  rw [enterWaiting, updPlate_eq here]
  rfl

/-- Before the late threshold a plate enters WAITING without a mark. -/
theorem enterWaiting_early (hp : k.plate slot = some p) (hl : ¬Plate.lateDue { p with state := .waiting } k k.regs.plantClock) :
    enterWaiting slot k = k.asWaiting slot p := by
  rw [enterWaiting_eq hp]
  exact checkLate_idle (asWaiting_plate k slot p) hl

/-- A plate that has entered WAITING behind its late threshold: LATE has been marked. -/
def Chip.lateMarked (k : Chip) (slot : Nat) (p : Plate) : Chip :=
  (setPlate slot { p with state := .waiting, lateDone := true } (k.asWaiting slot p)).ownMarked
    (ownMark slot (waitedAttempt p) .late none (lateThreshold k p))

theorem enterWaiting_late (hp : k.plate slot = some p) (hl : Plate.lateDue { p with state := .waiting } k k.regs.plantClock) :
    enterWaiting slot k = k.lateMarked slot p := by
  have hs : suppressed ((setPlate slot { p with state := .waiting, lateDone := true } (k.asWaiting slot p)).marks slot)
      (ownMark slot (waitedAttempt p) .late none (lateThreshold k p)) = false := not_suppressed nofun nofun
  rw [enterWaiting_eq hp, checkLate_due (asWaiting_plate k slot p) hl]
  exact recordMark_stored (setPlate_self slot _ _) hs

theorem lateMarked_ready (k : Chip) (slot : Nat) (p : Plate) : slot ∉ (k.lateMarked slot p).psc.ready := not_mem_leaveReady slot k

theorem lateMarked_plate (k : Chip) (slot : Nat) (p : Plate) :
    (k.lateMarked slot p).plate slot = some { p with state := .waiting, lateDone := true } := setPlate_self slot _ _

theorem lateMarked_pscMarked {s t : Chip} (hd : k.dmr = s.dmr) (ht : t.dmr = (k.lateMarked slot p).dmr)
    (ha : t.psc.awaiting = true) (hc : t.regs.plantClock = k.regs.plantClock) :
    s.pscMarked t slot .late .note (waitedAttempt p) none (lateThreshold k p) :=
  ownMarked_note (j := setPlate slot { p with state := .waiting, lateDone := true } (k.asWaiting slot p))
    (congrArg (fun d : DamageRecorder => (tblGet d.lists slot).getD SlotMarks.empty) hd) rfl ha ht hc

theorem enterReady_plate (hp : k.plate slot = some p) :
    (enterReady slot k).plate slot = some { p with state := .ready, readyTime := k.regs.plantClock } := by
  rw [enterReady, updPlate_eq hp]
  exact setPlate_self slot _ k

theorem enterReady_mem (slot : Nat) (k : Chip) : slot ∈ (enterReady slot k).psc.ready := mem_insertReady _ slot _

theorem enterReady_dmr (hp : k.plate slot = some p) : (enterReady slot k).dmr = k.dmr := by
  rw [enterReady, updPlate_eq hp]
  rfl

theorem enterReady_awaiting (hp : k.plate slot = some p) : (enterReady slot k).psc.awaiting = k.psc.awaiting := by
  rw [enterReady, updPlate_eq hp]
  rfl

theorem doStep_settle (b : Bool) (returned : Bool) (hp : k.plate slot = some p) (hl : p.state.live = true) :
    doStep (.settle slot returned) (setAllReady b k) =
      if b then (if returned || decide (p.state = .waiting) then enterReady slot (leaveReady slot (setAllReady b k)) else setAllReady b k)
      else if returned || decide (p.state = .ready) then enterWaiting slot (setAllReady b k) else setAllReady b k := by
  have here : (setAllReady b k).plate slot = some p := hp
  simp only [doStep, whileLive, here, hl, if_true, settleReadiness]
  rfl

/-- With no separation lacking, an evaluation comes to its settling. -/
theorem runSteps_evaluation (rest : List PscStep) (returned : Bool) (hb : pscBlocked k = false) (hp : k.plate slot = some p)
    (h2 : p.order.positions.length ≤ 2) (hn : p.order.nosepFree k.iu.dir) : ∃ b, (b = true ↔ p.order.allReady k.iu.dir) ∧
      runSteps (evaluation slot returned ++ rest) k = runSteps rest (doStep (.settle slot returned) (setAllReady b k)) := by
  refine ⟨_, (allReady_iff k.iu.dir h2).symm, ?_⟩
  show runSteps (.look slot 0 :: .look slot 1 :: .settle slot returned :: rest) k = _
  rw [runSteps_look _ hb hp hn]
  exact runSteps_cons _ _ _ hb

/-- A plate found ready on its return, or in WAITING, becomes READY. -/
theorem evaluate_ready {returned : Bool} (rest : List PscStep) (hb : pscBlocked k = false) (hp : k.plate slot = some p)
    (h2 : p.order.positions.length ≤ 2) (hl : p.state.live = true) (hr : returned = true ∨ p.state = .waiting)
    (ha : p.order.allReady k.iu.dir) : ∃ j, k.judged slot j ∧ pscBlocked j = false ∧ j.dmr = k.dmr ∧
      j.plate slot = some { p with state := .ready, readyTime := k.regs.plantClock } ∧ slot ∈ j.psc.ready ∧
      runSteps (evaluation slot returned ++ rest) k = runSteps rest j := by
  obtain ⟨b, hbr, run⟩ := runSteps_evaluation rest returned hb hp h2 (nosepFree_of_allReady ha)
  obtain rfl : b = true := hbr.mpr ha
  have settled : doStep (.settle slot returned) (setAllReady true k) = enterReady slot (leaveReady slot (setAllReady true k)) := by
    rw [doStep_settle true returned hp hl, if_pos rfl, if_pos (by simpa using hr)]
  have here : (leaveReady slot (setAllReady true k)).plate slot = some p := hp
  have judged : k.judged slot (enterReady slot (leaveReady slot (setAllReady true k))) :=
    judged_trans (judged_trans (setAllReady_judged slot true k) (ready_judged slot _ _)) (enterReady_judged slot _)
  refine ⟨_, judged, ?_, enterReady_dmr here, enterReady_plate here, enterReady_mem _ _, ?_⟩
  · rw [pscBlocked_judged judged hb, enterReady_awaiting here]
    exact awaiting_of_free hb
  · rw [run, settled]

/-- A plate found not ready on its return enters WAITING. -/
theorem evaluate_unready (rest : List PscStep) (hb : pscBlocked k = false) (hp : k.plate slot = some p)
    (h2 : p.order.positions.length ≤ 2) (hl : p.state.live = true) (ha : ¬p.order.allReady k.iu.dir) (hn : p.order.nosepFree k.iu.dir) :
    runSteps (evaluation slot true ++ rest) k = runSteps rest (enterWaiting slot (setAllReady false k)) := by
  obtain ⟨b, hbr, run⟩ := runSteps_evaluation rest true hb hp h2 hn
  obtain rfl : b = false := by simpa using mt hbr.mp ha
  rw [run, doStep_settle false true hp hl]
  rfl

/-- A WAITING plate found not ready stays as it is. -/
theorem evaluate_still (rest : List PscStep) (hb : pscBlocked k = false) (hp : k.plate slot = some p)
    (h2 : p.order.positions.length ≤ 2) (hw : p.state = .waiting) (ha : ¬p.order.allReady k.iu.dir) (hn : p.order.nosepFree k.iu.dir) :
    runSteps (evaluation slot false ++ rest) k = runSteps rest (setAllReady false k) := by
  have live : p.state.live = true := by rw [hw]; rfl
  obtain ⟨b, hbr, run⟩ := runSteps_evaluation rest false hb hp h2 hn
  obtain rfl : b = false := by simpa using mt hbr.mp ha
  rw [run, doStep_settle false false hp live, hw]
  rfl

/-- How a plate stands that has been found ready. -/
def Chip.nowReady (k j : Chip) (slot : Nat) (p : Plate) : Prop :=
  pscBlocked j = false ∧ j.dmr = k.dmr ∧ j.plate slot = some { p with state := .ready, readyTime := k.regs.plantClock } ∧ slot ∈ j.psc.ready

/-- How a plate stands that has entered WAITING: LATE is marked behind its threshold. -/
def Chip.nowWaiting (k j : Chip) (slot : Nat) (p : Plate) : Prop :=
  slot ∉ j.psc.ready ∧
    (¬Plate.lateDue { p with state := .waiting } k k.regs.plantClock →
      pscBlocked j = false ∧ j.dmr = k.dmr ∧ j.plate slot = some { p with state := .waiting }) ∧
    (Plate.lateDue { p with state := .waiting } k k.regs.plantClock →
      j.psc.awaiting = true ∧ j.plate slot = some { p with state := .waiting, lateDone := true } ∧
      k.pscMarked j slot .late .note (waitedAttempt p) none (lateThreshold k p))

theorem not_blocked_judged {j : Chip} (h : k.judged slot j) (hb : pscBlocked k = false) (ha : j.psc.awaiting = k.psc.awaiting) :
    pscBlocked j = false := by
  rw [pscBlocked_judged h hb, ha]
  exact awaiting_of_free hb

/-- A plate enters WAITING. -/
theorem enterWaiting_stands (hb : pscBlocked k = false) (hp : k.plate slot = some p) : k.nowWaiting (enterWaiting slot k) slot p := by
  by_cases hl : Plate.lateDue { p with state := .waiting } k k.regs.plantClock
  · rw [enterWaiting_late hp hl]
    exact ⟨lateMarked_ready k slot p, fun h => absurd hl h,
      fun _ => ⟨rfl, lateMarked_plate k slot p, lateMarked_pscMarked rfl rfl rfl rfl⟩⟩
  · rw [enterWaiting_early hp hl]
    exact ⟨not_mem_leaveReady slot k, fun _ => ⟨not_blocked_judged (asWaiting_judged hp) hb rfl, rfl, asWaiting_plate k slot p⟩,
      fun h => absurd h hl⟩

/-- A plate returned to the list, and the writes of the input behind it (R80, R108). -/
theorem return_finishes (old : List (Nat × Plate)) (hb : pscBlocked k = false) (hp : k.plate slot = some p)
    (h2 : p.order.positions.length ≤ 2) (hl : p.state.live = true) : ∃ j, k.judged slot j ∧
      j.finished (runSteps (evaluation slot true ++ [.publish old]) k) old ∧
      (p.order.allReady k.iu.dir → k.nowReady j slot p) ∧
      (¬p.order.allReady k.iu.dir → p.order.nosepFree k.iu.dir → k.nowWaiting j slot p) := by
  by_cases ha : p.order.allReady k.iu.dir
  · obtain ⟨j, judged, free, dmr, own, mem, run⟩ := evaluate_ready (returned := true) [.publish old] hb hp h2 hl (.inl rfl) ha
    rw [run]
    exact ⟨j, judged, runSteps_publish old free, fun _ => ⟨free, dmr, own, mem⟩, fun h => absurd ha h⟩
  by_cases hn : p.order.nosepFree k.iu.dir
  · have judged : k.judged slot (enterWaiting slot (setAllReady false k)) :=
      judged_trans (setAllReady_judged slot false k) (enterWaiting_judged slot _)
    have stands : k.nowWaiting (enterWaiting slot (setAllReady false k)) slot p := enterWaiting_stands (k := setAllReady false k) hb hp
    rw [evaluate_unready [.publish old] hb hp h2 hl ha hn]
    refine ⟨_, judged, ?_, fun h => absurd h ha, fun _ _ => stands⟩
    cases hw : pscBlocked (enterWaiting slot (setAllReady false k)) with
    | false => exact runSteps_publish old hw
    | true => exact .inl ⟨(pscBlocked_judged judged hb).symm.trans hw, _, by simp, runSteps_blocked _ _ hw⟩
  · obtain ⟨j, judged, finished⟩ := runSteps_finishes (evaluation slot true) old (evaluation_judges slot true) hb
    exact ⟨j, judged, finished, fun h => absurd h ha, fun _ h => absurd h hn⟩

end

end Sys2Proof.Machine
end

