-- ==== Sys2Proof/Proofs/Stopping.lean ====
section
/-! SUPPORT. RUN falls: STOPPING, STOPPED, and the return of the PREPARING plate (O6). -/

namespace Sys2Proof.Machine

/-! ### STOPPING ends (R10) -/

theorem endState_working {k : Chip} (hr : k.pd.runState = .stopping)
    (h : ∃ e ∈ k.psc.plates, e.2.state = .preparing ∨ e.2.state = .imaging) : k.endState = .stopping := by
  rw [Chip.endState, checkStopped_of_working k h, hr]

theorem endState_idle {k : Chip} (hr : k.pd.runState = .stopping)
    (h : ¬∃ e ∈ k.psc.plates, e.2.state = .preparing ∨ e.2.state = .imaging) : k.endState = .stopped := by
  have none : (k.psc.plates.any (fun e => decide (e.2.state = .preparing) || decide (e.2.state = .imaging))) = false := by
    rw [List.any_eq_false]
    exact fun e he hs => h ⟨e, he, by simpa using hs⟩
  simp only [Chip.endState, checkStopped, hr, none]
  rfl

/-! ### The fall of RUN (R9, R14 (2)) -/

/-- The chip with RUN cleared and EXPOSE_ENABLE as written. -/
def Chip.runCleared (k : Chip) (v : Word) : Chip := k.setRegs { k.regs with run := false, exposeEnable := v.getLsbD 2 }

theorem exec_runClear {s : State} {v : Word} (hl : s.chip.regs.linkUp = true) (h1 : v.getLsbD 1 = false) (h0 : v.getLsbD 0 = false)
    (he : s.chip.regs.exposeEnable = true → v.getLsbD 2 = true) : exec (.runClear v) s = .next (s.setChip
      (if s.chip.regs.run = true ∧ s.chip.pd.runState = .running then enterStopping (s.chip.runCleared v) else s.chip.runCleared v)) := by
  show Host.Outcome.next (s.setChip (controlWrite v s.chip)) = _
  rw [controlWrite_up hl h1, writeExposeEnable_of_not_falling he, h0]
  cases hrun : s.chip.regs.run with
  | false => simp only [writeRun, hrun, Chip.setRegs]; rfl
  | true => cases hs : s.chip.pd.runState <;> simp only [writeRun, hrun, hs, Chip.setRegs] <;> rfl

/-- With no plate PREPARING the run state changes alone. -/
theorem enterStopping_idle {k : Chip} (hn : ∀ e ∈ k.psc.plates, e.2.state ≠ .preparing) : enterStopping k =
    k.setRun (if ∃ e ∈ k.psc.plates, e.2.state = .imaging then .stopping else .stopped) := by
  have idle : anyPreparing (k.setRun .stopping) = false := by
    rw [anyPreparing, List.any_eq_false]
    exact fun e he => by simpa using hn e he
  have working : (∃ e ∈ (k.setRun .stopping).psc.plates, e.2.state = .preparing ∨ e.2.state = .imaging) ↔
      ∃ e ∈ k.psc.plates, e.2.state = .imaging :=
    exists_congr fun e => and_congr_right fun he => or_iff_right (hn e he)
  have state : (k.setRun .stopping).endState = if ∃ e ∈ k.psc.plates, e.2.state = .imaging then .stopping else .stopped := by
    split
    · next h => exact endState_working rfl (working.mpr h)
    · next h => exact endState_idle rfl (mt working.mp h)
  simp only [enterStopping, idle, checkStopped_eq, state]
  rfl

theorem enterStopping_preparing {k : Chip} (h : ∃ e ∈ k.psc.plates, e.2.state = .preparing) :
    enterStopping k = pscHear .stopping (k.setRun .stopping) := by
  have preparing : anyPreparing (k.setRun .stopping) = true := by
    obtain ⟨e, he, hs⟩ := h
    exact List.any_eq_true.mpr ⟨e, he, by simpa using hs⟩
  exact if_pos preparing

/-- PSC's question whether it can go on is the same in RUNNING and in STOPPING. -/
theorem pscBlocked_stopping {k : Chip} (hr : k.pd.runState = .running) : pscBlocked (k.setRun .stopping) = pscBlocked k := by
  have working : (k.setRun .stopping).working = k.working := by simp [Chip.working, Chip.setRun, Chip.setPd, hr]
  simp only [pscBlocked, working]
  rfl

theorem pscFree_stopping {k : Chip} (hr : k.pd.runState = .running) : pscFree (k.setRun .stopping) = pscFree k := by
  simp only [pscFree, pscBlocked_stopping hr]
  rfl

/-! ### The return of the PREPARING plate (R10, R108) -/

/-- One PREPARING plate is returned, and it alone. -/
theorem planStopping_single {k : Chip} {a b : List (Nat × Plate)} {slot : Nat} {p : Plate} (he : k.psc.plates = a ++ (slot, p) :: b)
    (hp : p.state = .preparing) (ha : ∀ e ∈ a, e.2.state ≠ .preparing) (hb : ∀ e ∈ b, e.2.state ≠ .preparing) :
    planStopping k = (withdraw slot p.attempt k, evaluation slot true) := by
  have pass (l : List (Nat × Plate)) (h : ∀ e ∈ l, e.2.state ≠ .preparing) (x : Plan) : l.foldl (fun a e =>
      if e.2.state = .preparing then (withdraw e.1 e.2.attempt a.1, a.2 ++ evaluation e.1 true) else a) x = x := by
    induction l with
    | nil => rfl
    | cons e l ih =>
      rw [List.foldl_cons, if_neg (h e List.mem_cons_self), ih (fun y hy => h y (List.mem_cons_of_mem _ hy))]
  rw [planStopping, he, List.foldl_append, pass a ha, List.foldl_cons, if_pos hp, pass b hb]
  rfl

/-- The PREPARING plate's entry, and the plates around it. -/
theorem preparing_split {k : Chip} {slot : Nat} {p : Plate} (hk : k.platesSound) (hp : k.plate slot = some p)
    (alone : ∀ n x, n ≠ slot → k.plate n = some x → x.state ≠ .preparing) : ∃ a b, k.psc.plates = a ++ (slot, p) :: b ∧
      (∀ e ∈ a, e.2.state ≠ .preparing) ∧ ∀ e ∈ b, e.2.state ≠ .preparing := by
  obtain ⟨a, b, he⟩ := List.append_of_mem (mem_of_tblGet (show tblGet k.psc.plates slot = some p from hp))
  have rising := hk.1
  rw [he, List.map_append, List.pairwise_append] at rising
  obtain ⟨-, later, earlier⟩ := rising
  have at_ (e : Nat × Plate) (hm : e ∈ k.psc.plates) (hn : e.1 ≠ slot) : e.2.state ≠ .preparing :=
    alone e.1 e.2 hn (plate_of_mem hk e hm)
  refine ⟨a, b, he, fun e hm => at_ e (by simp [he, hm]) (Nat.ne_of_lt ?_), fun e hm => at_ e (by simp [he, hm]) (Nat.ne_of_gt ?_)⟩
  · exact earlier e.1 (List.mem_map_of_mem hm) slot (by simp)
  · exact (List.pairwise_cons.mp later).1 e.1 (List.mem_map_of_mem hm)

/-- The returned plate no longer keeps the part in STOPPING. -/
theorem endState_returned {k t : Chip} {slot : Nat} {p q : Plate} (hr : t.pd.runState = .stopping) (hk : k.platesSound)
    (hp : k.plate slot = some p) (hprep : p.state = .preparing) (alone : ∀ n x, n ≠ slot → k.plate n = some x → x.state ≠ .preparing)
    (ht : tblSorted t.psc.plates) (hq : t.plate slot = some q) (hs : q.state = .ready ∨ q.state = .waiting)
    (others : ∀ n, n ≠ slot → t.plate n = k.plate n) :
    t.endState = if ∃ e ∈ k.psc.plates, e.2.state = .imaging then .stopping else .stopped := by
  have same : (∃ e ∈ t.psc.plates, e.2.state = .preparing ∨ e.2.state = .imaging) ↔ ∃ e ∈ k.psc.plates, e.2.state = .imaging := by
    rw [exists_entry_iff ht (fun x => x.state = .preparing ∨ x.state = .imaging), exists_entry_iff hk.1 (fun x => x.state = .imaging)]
    constructor
    · rintro ⟨n, x, hx, busy⟩
      have hx : t.plate n = some x := hx
      have hn : n ≠ slot := by
        rintro rfl
        cases hq.symm.trans hx
        rcases hs with hs | hs <;> simp [hs] at busy
      rw [others n hn] at hx
      exact ⟨n, x, hx, busy.resolve_left (alone n x hn hx)⟩
    · rintro ⟨n, x, hx, busy⟩
      have hn : n ≠ slot := by
        rintro rfl
        cases hp.symm.trans hx
        simp [hprep] at busy
      exact ⟨n, x, (others n hn).trans hx, .inr busy⟩
  split
  · next h => exact endState_working hr (same.mpr h)
  · next h => exact endState_idle hr (mt same.mp h)

/-- A plate that may be returned by PSC, free, in STOPPING: what the fall of RUN does with it. -/
theorem stopping_returns {k : Chip} {slot : Nat} {p : Plate} (hf : pscFree k = true) (hs : k.platesSound) (hp : k.plate slot = some p)
    (hprep : p.state = .preparing) (alone : ∀ n x, n ≠ slot → k.plate n = some x → x.state ≠ .preparing) :
    ∃ x j t, pscHear .stopping k = setDue [] t ∧
      (setDue [.stopping] k).relieved x slot p p.attempt ∧ x.judged slot j ∧ j.finished t k.psc.plates ∧
      (p.order.allReady x.iu.dir → x.nowReady j slot { p with pinsHeld := false }) ∧
      (¬p.order.allReady x.iu.dir → p.order.nosepFree x.iu.dir → x.nowWaiting j slot { p with pinsHeld := false }) := by
  obtain ⟨a, b, he, ha, hb⟩ := preparing_split hs hp alone
  have live : p.state.live = true := by rw [hprep]; rfl
  have two : p.order.positions.length ≤ 2 := by
    obtain ⟨-, -, -, -, -, -, ranges⟩ := hs
    exact (ranges slot p hp).2.1
  have begun : pscHear .stopping k = setDue [] (runSteps (evaluation slot true ++ [.publish k.psc.plates])
      (withdraw slot p.attempt (setDue [.stopping] k))) := by
    rw [pscHear_free hf, beginInput, planEvent, planStopping_single (k := setDue [.stopping] k) he hprep ha hb]
    rfl
  have relieved := withdraw_relieves (k := setDue [.stopping] k) p.attempt hp
  generalize withdraw slot p.attempt (setDue [.stopping] k) = x at begun relieved
  have free : pscBlocked x = false := by
    obtain ⟨_, _, _, _, _, _, _, _, _, rfl, -⟩ := relieved
    exact (not_blocked_of_free hf : pscBlocked k = false)
  have own : x.plate slot = some { p with pinsHeld := false } := by
    obtain ⟨_, _, _, _, _, _, _, _, _, rfl, -, -, -, own, -⟩ := relieved
    exact own
  obtain ⟨j, judged, finished, ready, waiting⟩ := return_finishes k.psc.plates free own two live
  exact ⟨x, j, _, begun, relieved, judged, finished, ready, waiting⟩

/-- Settles O6. -/
theorem runClearActs : Obligations.RunClearActs := by
  intro s v hl h1 h0 he r entered ended
  have run := exec_runClear hl h1 h0 he
  refine ⟨fun h => ?_, fun hrun hr => ⟨fun hn => ?_, fun hprep hb => ?_, fun slot p hk hp hprep alone => ?_⟩⟩
  · rw [run, if_neg (fun g => h.elim (fun h => absurd (h.symm.trans g.1) (by decide)) (fun h => h g.2))]
    rfl
  · rw [run, if_pos ⟨hrun, hr⟩, enterStopping_idle (k := s.chip.runCleared v) hn]
    rfl
  · have blocked : pscBlocked ((s.chip.runCleared v).setRun .stopping) = true :=
      (pscBlocked_stopping (k := s.chip.runCleared v) hr).trans hb
    rw [run, if_pos ⟨hrun, hr⟩, enterStopping_preparing (k := s.chip.runCleared v) hprep, pscHear_blocked blocked]
    rfl
  · obtain ⟨hf, -, hs⟩ := hk
    have free : pscFree ((s.chip.runCleared v).setRun .stopping) = true := (pscFree_stopping (k := s.chip.runCleared v) hr).trans hf
    obtain ⟨x, j, t, hear, relieved, judged, finished, ready, waiting⟩ :=
      stopping_returns (k := (s.chip.runCleared v).setRun .stopping) free hs hp hprep alone
    have held : ∃ e ∈ (s.chip.runCleared v).psc.plates, e.2.state = .preparing := ⟨(slot, p), mem_of_tblGet hp, hprep⟩
    rw [run, if_pos ⟨hrun, hr⟩, enterStopping_preparing held, hear]
    obtain ⟨iu, queue, plates, imc, dtu, hf', br, loader, inbox, rfl, pins, discarded, sorted, own, others⟩ := relieved
    obtain ⟨plates', list, all, awaiting, marks, report, rfl, -, sorted', others', own'⟩ := judged
    obtain ⟨st, time, late, overdue, own'⟩ := own' _ own
    have rest (n : Nat) (hn : n ≠ slot) : tblGet plates' n = s.chip.plate n := (others' n hn).trans (others n hn)
    obtain ⟨work, newsMap, newsDue, outstanding, report', runState, e⟩ := finished_frame finished
    have returned (q : Plate) (hq : tblGet plates' slot = some q) (hst : q.state = .ready ∨ q.state = .waiting) (hb : _) :=
      (finished_done finished hb).trans (endState_returned rfl hs hp hprep alone (sorted' (sorted hs.1)) hq hst rest)
    refine ⟨_, ({ p with pinsHeld := false } : Plate).judgedAs st time late overdue, rfl, rfl, rfl, ?_⟩
    subst e
    refine ⟨rfl, rfl, rfl, own', rfl, rfl, rfl, rfl, rfl, pins, discarded, rest, fun ha => ?_, fun ha hn => ?_⟩
    · obtain ⟨free, -, now, mem⟩ := ready ha
      cases own'.symm.trans now
      exact ⟨rfl, rfl, mem, returned _ own' (.inl rfl) free⟩
    · obtain ⟨-, early, due⟩ := waiting ha hn
      by_cases hlate : Plate.lateDue { p with state := .waiting } s.chip s.chip.regs.plantClock
      · obtain ⟨stop, now, marked⟩ := due hlate
        obtain ⟨w, -, e⟩ := finished_stopped finished stop
        cases own'.symm.trans now
        exact ⟨rfl, fun h => absurd hlate h, fun _ => ⟨congrArg (fun k : Chip => k.pd.runState) e, rfl, marked⟩⟩
      · obtain ⟨free, -, now⟩ := early hlate
        cases own'.symm.trans now
        exact ⟨rfl, fun _ => returned _ own' (.inr rfl) free, fun h => absurd h hlate⟩

end Sys2Proof.Machine
end

