-- ==== Sys2Proof/Proofs/Orders.lean ====
section
/-! SUPPORT. An order's host part: the checks, the order as adjusted, its first state, and the result part (O45). -/

namespace Sys2Proof.Machine

/-! ### The checks (R89) -/

/-- How many positions the host part gives. -/
def positionCount (b : List Byte) : Nat := if u8 b 0x0C = 2 then 2 else 1

/-- The position at an index of the host part. -/
def positionAtIndex (b : List Byte) (i : Nat) : Position := positionBytes b (0x18 + 8 * i)

theorem positionsOf_eq (b : List Byte) : positionsOf b = (List.range (positionCount b)).map (positionAtIndex b) := by
  unfold positionsOf positionCount
  split <;> rfl

theorem positionsOf_any (b : List Byte) (f : Position → Bool) :
    (positionsOf b).any f = true ↔ ∃ i < positionCount b, f (positionAtIndex b i) = true := by
  simp [positionsOf_eq, List.any_eq_true]

theorem sameBand_iff (b : List Byte) : sameBand (positionsOf b) = true ↔ positionCount b = 2 ∧ u16 b 0x1C / 64 = u16 b 0x24 / 64 := by
  have down (x y : Nat) : alignDown x = alignDown y ↔ x / 64 = y / 64 := by
    unfold alignDown
    omega
  by_cases h : u8 b 0x0C = 2
  · simp only [positionsOf, positionCount, h, if_true, sameBand, positionBytes, decide_eq_true_eq, down, true_and]
  · simp [positionsOf, positionCount, h, sameBand]

theorem orderCheck_eq (b : List Byte) (formats : List PlateFormat) : orderCheck b formats =
    firstSet 1 [decide (u8 b 0x0C ≠ 1 ∧ u8 b 0x0C ≠ 2), decide (3 < u8 b 6), decide (7 < u8 b 7), decide (15 < u8 b 0x0D),
      decide (15 < u8 b 0x0E), decide (7 < u8 b 0x0F), decide (1 < u8 b 0x13), decide (14 < u8 b 0x14),
      (positionsOf b).any (fun p => !keyInRange p.key),
      (positionsOf b).any (fun p => decide ((formats.getD (u8 b 7) noFormat).rows ≤ p.across)),
      (positionsOf b).any (fun p => decide ((formats.getD (u8 b 7) noFormat).width ≤ p.around)), sameBand (positionsOf b)] := by
  simp only [orderCheck, firstSet, decide_eq_true_eq]

/-- The condition of each of the checks of R89, by its number. -/
def orderFails (b : List Byte) (formats : List PlateFormat) : Nat → Prop
  | 1 => u8 b 0x0C ≠ 1 ∧ u8 b 0x0C ≠ 2
  | 2 => 3 < u8 b 6
  | 3 => 7 < u8 b 7
  | 4 => 15 < u8 b 0x0D
  | 5 => 15 < u8 b 0x0E
  | 6 => 7 < u8 b 0x0F
  | 7 => u8 b 0x13 ≠ 0 ∧ u8 b 0x13 ≠ 1
  | 8 => 14 < u8 b 0x14
  | 9 => ∃ i < positionCount b, 15 < u8 b (0x18 + 8 * i) ∨ u8 b (0x18 + 8 * i + 1) = 0 ∨ 63 < u8 b (0x18 + 8 * i + 2)
  | 10 => ∃ i < positionCount b, (formats.getD (u8 b 7) noFormat).rows ≤ u16 b (0x18 + 8 * i + 4)
  | 11 => ∃ i < positionCount b, (formats.getD (u8 b 7) noFormat).width ≤ u16 b (0x18 + 8 * i + 6)
  | 12 => positionCount b = 2 ∧ u16 b 0x1C / 64 = u16 b 0x24 / 64
  | _ => False

theorem keyInRange_false_iff (k : PageKey) : (!keyInRange k) = true ↔ 15 < k.book ∨ k.page = 0 ∨ 63 < k.zone := by
  simp only [keyInRange, Bool.not_eq_true', Bool.and_eq_false_iff, decide_eq_false_iff_not, not_le, ne_eq, not_not]
  tauto

/-- The number of an order's check is that of the first of R89's that fails. -/
theorem orderCheck_first (b : List Byte) (formats : List PlateFormat) : firstFailing (orderFails b formats) (orderCheck b formats) := by
  rw [orderCheck_eq]
  refine firstSet_first _ 1 (fun i hi => ?_) (fun i x hx => ?_) (fun i hi => ?_)
  · obtain rfl : i = 0 := by omega
    exact id
  · match i, hx with
    | 0, rfl => rw [decide_eq_true_iff]; rfl
    | 1, rfl => rw [decide_eq_true_iff]; rfl
    | 2, rfl => rw [decide_eq_true_iff]; rfl
    | 3, rfl => rw [decide_eq_true_iff]; rfl
    | 4, rfl => rw [decide_eq_true_iff]; rfl
    | 5, rfl => rw [decide_eq_true_iff]; rfl
    | 6, rfl =>
      rw [decide_eq_true_iff]
      show u8 b 0x13 ≠ 0 ∧ u8 b 0x13 ≠ 1 ↔ _
      omega
    | 7, rfl => rw [decide_eq_true_iff]; rfl
    | 8, rfl =>
      simp only [positionsOf_any, keyInRange_false_iff]
      rfl
    | 9, rfl =>
      simp only [positionsOf_any, decide_eq_true_eq]
      rfl
    | 10, rfl =>
      simp only [positionsOf_any, decide_eq_true_eq]
      rfl
    | 11, rfl => exact (sameBand_iff b).symm
  · match i, hi with
    | j + 13, _ => exact id

/-! ### The order as adjusted (R90) -/

theorem clampTrim_eq (t : Int) : clampTrim t = max (-256) (min 255 t) := by
  unfold clampTrim
  omega

theorem orderOf_positions (b : List Byte) : (orderOf b).positions =
    (List.range (positionCount b)).map (fun i => { positionAtIndex b i with across := u16 b (0x18 + 8 * i + 4) / 64 * 64 }) := by
  show (positionsOf b).map _ = _
  rw [positionsOf_eq, List.map_map]
  refine List.map_congr_left fun i _ => ?_
  show { positionAtIndex b i with across := alignDown (positionAtIndex b i).across } = _
  rw [alignDown, Nat.mul_comm]
  rfl

theorem orderOf_two (b : List Byte) : (orderOf b).positions.length ≤ 2 := by
  rw [orderOf_positions, List.length_map, List.length_range, positionCount]
  split <;> omega

end Sys2Proof.Machine
end

