-- ==== Sys2Proof/Proofs/OrderArrival.lean ====
section
/-! SUPPORT. The arrival of an order's host part, from its marks to its result part (O45). -/

namespace Sys2Proof.Machine

section
variable {slot : Nat} {k : Chip} {p : Plate}

/-! ### The result part (R25 (4), R88) -/

/-- The news map with a slot's bit set, whether or not it was. -/
def Chip.newsSet (k : Chip) (slot : Nat) : BitVec 512 := if k.psc.newsMap.getLsbD slot = true then k.psc.newsMap else mapSet k.psc.newsMap slot true

/-- The writes of the result part, and of the news map byte when the news bit rises. -/
def Chip.resultWrites (k : Chip) (slot : Nat) (p : Plate) : List Transfer :=
  reportWrite (k.slotAddr slot + 0x100) (resultPart p (k.marks slot)) [.pscDone] ::
    (if k.psc.newsMap.getLsbD slot = true then []
    else [reportWrite (k.lay.mapBase + 0x240 + slot / 8) [mapByte (k.newsSet slot) (slot / 8)] [.alert .news, .pscDone]])

theorem writeResult_eq (hp : k.plate slot = some p) : ∃ outstanding, writeResult slot k =
    k.finishedAs k.psc.work (k.newsSet slot) [] outstanding (k.sp.report ++ k.resultWrites slot p) k.pd.runState := by
  have written : writeResult slot k =
      setNewsDue [] (setNews slot (pscWrite (k.slotAddr slot + 0x100) (resultPart p (k.marks slot)) [] k)) := by
    simp only [writeResult, hp]
  have old : (pscWrite (k.slotAddr slot + 0x100) (resultPart p (k.marks slot)) [] k).psc.newsMap = k.psc.newsMap := rfl
  rw [written, setNews, Chip.resultWrites, Chip.newsSet, old]
  split
  · exact ⟨_, rfl⟩
  · refine ⟨k.psc.outstanding + 1 + 1, ?_⟩
    rw [List.append_cons]
    rfl

theorem newsSet_bit (k : Chip) (h : slot < 512) : (k.newsSet slot).getLsbD slot = true := by
  unfold Chip.newsSet
  split
  · assumption
  · rw [getLsbD_mapSet_true]
    simp [h]

/-- An order's steps have come to their end, the writes of the result part, or stopped at a mark with steps left. -/
def Chip.resulted (j t : Chip) (slot : Nat) : Prop :=
  (j.psc.awaiting = true ∧ ∃ w, w ≠ [] ∧ t = setWork w j) ∨
  (pscBlocked j = false ∧ ∀ q, j.plate slot = some q → ∃ outstanding,
    t = j.finishedAs [] (j.newsSet slot) [] outstanding (j.sp.report ++ j.resultWrites slot q) j.pd.runState)

theorem runSteps_result (hb : pscBlocked k = false) (busy : checkStopped (writeResult slot k) = writeResult slot k) :
    k.resulted (runSteps [.result slot] k) slot := by
  refine .inr ⟨hb, fun q hq => ?_⟩
  obtain ⟨outstanding, e⟩ := writeResult_eq hq
  have step : doStep (.result slot) k = writeResult slot k := busy
  rw [runSteps_cons _ _ _ hb, step, e]
  exact ⟨outstanding, rfl⟩

/-- A plate of another slot that is PREPARING or IMAGING keeps the part in STOPPING. -/
theorem writeResult_stays {q : Plate} (hq : k.plate slot = some q) (h : k.pd.runState = .stopping →
    ∃ n x, k.plate n = some x ∧ (x.state = .preparing ∨ x.state = .imaging)) : checkStopped (writeResult slot k) = writeResult slot k := by
  obtain ⟨outstanding, e⟩ := writeResult_eq hq
  rw [e]
  by_cases hr : k.pd.runState = .stopping
  · obtain ⟨n, x, hx, busy⟩ := h hr
    exact checkStopped_of_working _ ⟨(n, x), mem_of_tblGet hx, busy⟩
  · exact checkStopped_of_not_stopping _ hr

/-! ### The first state of a plate (R91, R110) -/

theorem checkOverdue_marked {v : Word} (hp : k.plate slot = some p) (hd : p.overdueDue v) : checkOverdue slot v k =
    (setPlate slot { p with overdueDone := true } k).ownMarked (ownMark slot p.attempt .overdue none p.order.deadline) := by
  have hs : suppressed ((setPlate slot { p with overdueDone := true } k).marks slot)
      (ownMark slot p.attempt .overdue none p.order.deadline) = false := not_suppressed nofun nofun
  rw [checkOverdue_due hp hd]
  exact recordMark_stored (setPlate_self slot _ _) hs

/-- The steps behind the evaluation of a new plate. -/
def orderEnd (slot : Nat) (clock : Word) : List PscStep := [.late slot clock, .overdue slot clock, .result slot]

/-- A plate found neither late nor overdue goes to its result part. -/
theorem runSteps_orderEnd {v : Word} (hb : pscBlocked k = false) (hp : k.plate slot = some p) (hl : ¬p.lateDue k v) (ho : ¬p.overdueDue v) :
    runSteps (orderEnd slot v) k = runSteps [.result slot] k := by
  have late : doStep (.late slot v) k = k := checkLate_idle hp hl
  have overdue : doStep (.overdue slot v) k = k := checkOverdue_idle hp ho
  rw [orderEnd, runSteps_cons _ _ _ hb, late, runSteps_cons _ _ _ hb, overdue]

/-- A plate that is overdue, and not late, is marked so before its result part. -/
theorem runSteps_overdue {v : Word} (hb : pscBlocked k = false) (hp : k.plate slot = some p) (hl : ¬p.lateDue k v) (ho : p.overdueDue v) :
    runSteps (orderEnd slot v) k = setWork [.result slot] (checkOverdue slot v k) := by
  have late : doStep (.late slot v) k = k := checkLate_idle hp hl
  rw [orderEnd, runSteps_cons _ _ _ hb, late, runSteps_cons _ _ _ hb]
  refine runSteps_blocked _ _ (blocked_of_awaiting ?_)
  rw [doStep, checkOverdue_marked hp ho]
  rfl

/-- A plate elsewhere keeps STOPPING going while an order arrives. -/
def Chip.busyElsewhere (k : Chip) (slot : Nat) : Prop :=
  k.pd.runState = .stopping → ∃ n x, n ≠ slot ∧ k.plate n = some x ∧ (x.state = .preparing ∨ x.state = .imaging)

theorem resulted_of_judged {j : Chip} (h : k.judged slot j) (hp : k.plate slot = some p) (busy : k.busyElsewhere slot)
    (hb : pscBlocked j = false) : j.resulted (runSteps [.result slot] j) slot := by
  obtain ⟨plates, ready, all, awaiting, lists, report, rfl, -, -, others, own⟩ := h
  obtain ⟨st, time, late, overdue, hq⟩ := own p hp
  refine runSteps_result hb (writeResult_stays hq fun hr => ?_)
  obtain ⟨n, x, hn, hx, hs⟩ := busy hr
  exact ⟨n, x, (others n hn).trans hx, hs⟩

theorem orderEnd_judges (slot : Nat) (v : Word) : ∀ s ∈ [PscStep.late slot v, .overdue slot v], s.judges slot := by
  simp [PscStep.judges]

/-- The steps of an order come to its result part, or stop at a mark. -/
theorem order_finishes (l : List PscStep) (hl : ∀ s ∈ l, s.judges slot) (hb : pscBlocked k = false) (hp : k.plate slot = some p)
    (busy : k.busyElsewhere slot) : ∃ j, k.judged slot j ∧ j.resulted (runSteps (l ++ [.result slot]) k) slot := by
  obtain ⟨j, judged, stop | ⟨free, run⟩⟩ := runSteps_judging l [.result slot] k hl (by simp) hb
  · exact ⟨j, judged, .inl stop⟩
  · rw [run]
    exact ⟨j, judged, resulted_of_judged judged hp busy free⟩

/-- How a new plate stands that has been found ready: OVERDUE is marked behind its deadline. -/
def Chip.arrivedReady (k j : Chip) (slot : Nat) (o : Order) : Prop :=
  ∃ q, j.plate slot = some q ∧ q.state = .ready ∧ q.readyTime = k.regs.plantClock ∧ slot ∈ j.psc.ready ∧
    (o.deadline ≤ k.regs.plantClock.toNat → q.overdueDone = true ∧ k.pscMarked j slot .overdue .note 1 none o.deadline) ∧
    (¬o.deadline ≤ k.regs.plantClock.toNat → q.overdueDone = false ∧ pscBlocked j = false ∧ j.dmr = k.dmr)

/-- How a new plate stands that has been found not ready: LATE is marked behind its threshold. -/
def Chip.arrivedWaiting (k j : Chip) (slot : Nat) (o : Order) : Prop :=
  ∃ q, j.plate slot = some q ∧ q.state = .waiting ∧ slot ∉ j.psc.ready ∧
    (o.deadline - k.lay.lateLead ≤ k.regs.plantClock.toNat →
      q.lateDone = true ∧ k.pscMarked j slot .late .note 1 none (o.deadline - k.lay.lateLead)) ∧
    (¬o.deadline - k.lay.lateLead ≤ k.regs.plantClock.toNat → q.lateDone = false ∧ pscBlocked j = false ∧ j.dmr = k.dmr)

theorem arrives_ready {o : Order} (hb : pscBlocked k = false) (hp : k.plate slot = some (Plate.atOrder o k.regs.plantClock))
    (h2 : o.positions.length ≤ 2) (busy : k.busyElsewhere slot) (ha : o.allReady k.iu.dir) : ∃ j, k.judged slot j ∧
      j.resulted (runSteps (evaluation slot true ++ orderEnd slot k.regs.plantClock) k) slot ∧ k.arrivedReady j slot o := by
  obtain ⟨j, judged, free, dmr, own, mem, run⟩ :=
    evaluate_ready (returned := true) (orderEnd slot k.regs.plantClock) hb hp h2 rfl (.inl rfl) ha
  have notLate : ¬Plate.lateDue { Plate.atOrder o k.regs.plantClock with state := .ready, readyTime := k.regs.plantClock } j
      k.regs.plantClock := fun h => nomatch h.1
  rw [run]
  by_cases ho : o.deadline ≤ k.regs.plantClock.toNat
  · have due : Plate.overdueDue { Plate.atOrder o k.regs.plantClock with state := .ready, readyTime := k.regs.plantClock }
        k.regs.plantClock := ⟨rfl, rfl, ho⟩
    have marked := checkOverdue_marked own due
    have judged' := judged_trans judged (checkOverdue_judged slot k.regs.plantClock j)
    rw [runSteps_overdue free own notLate due]
    refine ⟨_, judged', .inl ⟨?_, _, by simp, rfl⟩,
      { Plate.atOrder o k.regs.plantClock with state := .ready, readyTime := k.regs.plantClock, overdueDone := true },
      ?_, rfl, rfl, ?_, fun _ => ⟨rfl, ?_⟩, fun h => absurd ho h⟩
    · rw [marked]; rfl
    · rw [marked]; exact setPlate_self slot _ j
    · rw [marked]; exact mem
    · rw [marked]
      exact ownMarked_note (congrArg (fun d : DamageRecorder => (tblGet d.lists slot).getD SlotMarks.empty) dmr) rfl rfl rfl rfl
  · have notDue : ¬Plate.overdueDue { Plate.atOrder o k.regs.plantClock with state := .ready, readyTime := k.regs.plantClock }
        k.regs.plantClock := fun h => ho h.2.2
    rw [runSteps_orderEnd free own notLate notDue]
    exact ⟨j, judged, resulted_of_judged judged hp busy free, _, own, rfl, rfl, mem, fun h => absurd h ho, fun _ => ⟨rfl, free, dmr⟩⟩

theorem arrives_waiting {o : Order} (hb : pscBlocked k = false) (hp : k.plate slot = some (Plate.atOrder o k.regs.plantClock))
    (h2 : o.positions.length ≤ 2) (busy : k.busyElsewhere slot) (ha : ¬o.allReady k.iu.dir) (hn : o.nosepFree k.iu.dir) :
    ∃ j, k.judged slot j ∧ j.resulted (runSteps (evaluation slot true ++ orderEnd slot k.regs.plantClock) k) slot ∧
      k.arrivedWaiting j slot o := by
  have judged : k.judged slot (enterWaiting slot (setAllReady false k)) :=
    judged_trans (setAllReady_judged slot false k) (enterWaiting_judged slot _)
  obtain ⟨off, early, late⟩ : k.nowWaiting (enterWaiting slot (setAllReady false k)) slot (Plate.atOrder o k.regs.plantClock) :=
    enterWaiting_stands (k := setAllReady false k) hb hp
  rw [evaluate_unready (orderEnd slot k.regs.plantClock) hb hp h2 rfl ha hn]
  generalize enterWaiting slot (setAllReady false k) = j at judged off early late
  by_cases hl : o.deadline - k.lay.lateLead ≤ k.regs.plantClock.toNat
  · obtain ⟨stop, own, marked⟩ := late ⟨rfl, rfl, hl⟩
    exact ⟨j, judged, .inl ⟨stop, _, by simp [orderEnd], runSteps_blocked _ _ (blocked_of_awaiting stop)⟩, _, own, rfl, off,
      fun _ => ⟨rfl, marked⟩, fun h => absurd hl h⟩
  · obtain ⟨free, dmr, own⟩ := early (fun h => hl h.2.2)
    have lay : j.lay = k.lay := by
      obtain ⟨_, _, _, _, _, _, rfl, -⟩ := judged
      rfl
    rw [runSteps_orderEnd free own (fun h => hl (lay ▸ h.2.2)) (fun h => hl (Nat.le_trans (Nat.sub_le _ _) h.2.2))]
    exact ⟨j, judged, resulted_of_judged judged hp busy free, _, own, rfl, off, fun h => absurd h hl, fun _ => ⟨rfl, free, dmr⟩⟩

end

end Sys2Proof.Machine
end

