-- ==== Sys2Proof/Proofs/OrderTaken.lean ====
section
/-! SUPPORT. ALIGN, and an order's arrival as a whole (O45). -/

namespace Sys2Proof.Machine

/-! ### ALIGN (R90 (1)) -/

/-- Whether an order's position at an index is a multiple of 64 across. -/
def aligned (b : List Byte) (i : Nat) : Prop := u16 b (0x18 + 8 * i + 4) % 64 = 0

theorem alignMarks_none {b : List Byte} (slot : Nat) (h : ∀ i < positionCount b, aligned b i) : alignMarks slot (positionsOf b) = [] := by
  have each : ∀ e ∈ (positionsOf b).zipIdx, ¬decide (e.1.across % 64 ≠ 0) = true := by
    rintro ⟨pos, i⟩ he
    have hi : (positionsOf b)[i]? = some pos := List.mem_zipIdx_iff_getElem?.mp he
    rw [positionsOf_eq, List.getElem?_map, Option.map_eq_some_iff] at hi
    obtain ⟨n, hn, rfl⟩ := hi
    obtain ⟨lt, rfl⟩ := List.getElem?_eq_some_iff.mp hn
    have multiple : (positionAtIndex b i).across % 64 = 0 := h i (by simpa using lt)
    simp [multiple]
  rw [alignMarks, List.filter_eq_nil_iff.mpr each]
  rfl

theorem alignMarks_first {b : List Byte} (slot : Nat) {i : Nat} (hi : i < positionCount b) (hm : ¬aligned b i)
    (before : ∀ j < i, aligned b j) : ∃ l, alignMarks slot (positionsOf b) =
      .mark (ownMark slot 1 .align (some (positionAtIndex b i).key) i) :: l := by
  have rounded : (positionBytes b (0x18 + 8 * i)).across % 64 ≠ 0 := hm
  unfold positionCount at hi
  unfold alignMarks positionsOf positionAtIndex
  match i with
  | 0 =>
    split
    · exact ⟨_, by simp [rounded]; rfl⟩
    · exact ⟨_, by simp [rounded]; rfl⟩
  | 1 =>
    have two : u8 b 0x0C = 2 := by
      by_contra h
      simp [h] at hi
    have first : (positionBytes b 0x18).across % 64 = 0 := before 0 (by omega)
    exact ⟨_, by simp [two, first, rounded]; rfl⟩
  | i + 2 =>
    exfalso
    split at hi <;> omega

section
variable {slot : Nat} {k : Chip} {p : Plate}

/-- PSC stops at an ALIGN mark. -/
theorem align_stops {key : Option PageKey} {i : Nat} (rest : List PscStep) (hr : rest ≠ []) (hb : pscBlocked k = false)
    (hp : k.plate slot = some p) : ∃ j, k.judged slot j ∧ j.psc.awaiting = true ∧ j.plate slot = some p ∧
      k.pscMarked j slot .align .note 1 key i ∧ ∃ w, w ≠ [] ∧ runSteps (.mark (ownMark slot 1 .align key i) :: rest) k = setWork w j := by
  have hs : suppressed (k.marks slot) (ownMark slot 1 .align key i) = false := not_suppressed nofun nofun
  have stored : pscMark (ownMark slot 1 .align key i) k = k.ownMarked (ownMark slot 1 .align key i) := recordMark_stored hp hs
  refine ⟨k.ownMarked (ownMark slot 1 .align key i), stored ▸ pscMark_judged slot _ k, rfl, hp, ownMarked_note rfl rfl rfl rfl rfl,
    rest, hr, ?_⟩
  rw [runSteps_cons _ _ _ hb]
  exact runSteps_marked rest hp hs

/-! ### An order that passes the checks -/

/-- What an accepted order's steps come to. -/
theorem accepted_steps {b : List Byte} (hb : pscBlocked k = false) (busy : k.busyElsewhere slot)
    (hp : k.plate slot = some (Plate.atOrder (orderOf b) k.regs.plantClock)) : ∃ j, k.judged slot j ∧
      j.resulted (runSteps (alignMarks slot (positionsOf b) ++ evaluation slot true ++ orderEnd slot k.regs.plantClock) k) slot ∧
      (∀ i < positionCount b, ¬aligned b i → (∀ j < i, aligned b j) →
        j.plate slot = some (Plate.atOrder (orderOf b) k.regs.plantClock) ∧
        k.pscMarked j slot .align .note 1 (some (positionAtIndex b i).key) i) ∧
      ((∀ i < positionCount b, aligned b i) → (orderOf b).allReady k.iu.dir → k.arrivedReady j slot (orderOf b)) ∧
      ((∀ i < positionCount b, aligned b i) → ¬(orderOf b).allReady k.iu.dir → (orderOf b).nosepFree k.iu.dir →
        k.arrivedWaiting j slot (orderOf b)) := by
  by_cases hal : ∀ i < positionCount b, aligned b i
  · rw [alignMarks_none slot hal, List.nil_append]
    by_cases ha : (orderOf b).allReady k.iu.dir
    · obtain ⟨j, judged, resulted, stands⟩ := arrives_ready hb hp (orderOf_two b) busy ha
      exact ⟨j, judged, resulted, fun i hi hm _ => absurd (hal i hi) hm, fun _ _ => stands, fun _ h => absurd ha h⟩
    by_cases hn : (orderOf b).nosepFree k.iu.dir
    · obtain ⟨j, judged, resulted, stands⟩ := arrives_waiting hb hp (orderOf_two b) busy ha hn
      exact ⟨j, judged, resulted, fun i hi hm _ => absurd (hal i hi) hm, fun _ h => absurd h ha, fun _ _ _ => stands⟩
    · obtain ⟨j, judged, resulted⟩ := order_finishes (evaluation slot true ++ [.late slot k.regs.plantClock, .overdue slot k.regs.plantClock])
        (fun s hs => (List.mem_append.mp hs).elim (evaluation_judges slot true s) (orderEnd_judges slot _ s)) hb hp busy
      rw [List.append_assoc] at resulted
      exact ⟨j, judged, resulted, fun i hi hm _ => absurd (hal i hi) hm, fun _ h => absurd h ha, fun _ _ h => absurd h hn⟩
  · have some_ : ∃ i, i < positionCount b ∧ ¬aligned b i := by simpa using hal
    classical
    obtain ⟨hi, hm⟩ := Nat.find_spec some_
    have before : ∀ j < Nat.find some_, aligned b j := fun j hj => by
      by_contra h
      exact Nat.find_min some_ hj ⟨Nat.lt_trans hj hi, h⟩
    have only (i : Nat) (hi' : i < positionCount b) (hm' : ¬aligned b i) (before' : ∀ j < i, aligned b j) : i = Nat.find some_ := by
      rcases Nat.lt_trichotomy i (Nat.find some_) with h | h | h
      · exact absurd (before i h) hm'
      · exact h
      · exact absurd (before' _ h) hm
    obtain ⟨l, marks⟩ := alignMarks_first slot hi hm before
    obtain ⟨j, judged, stop, own, marked, w, hw, run⟩ := align_stops (key := some (positionAtIndex b (Nat.find some_)).key)
      (i := Nat.find some_) (l ++ evaluation slot true ++ orderEnd slot k.regs.plantClock) (by simp [evaluation]) hb hp
    refine ⟨j, judged, .inl ⟨stop, w, hw, ?_⟩, fun i hi' hm' before' => ?_, fun h => absurd h hal, fun h => absurd h hal⟩
    · rw [marks, ← run]
      rfl
    · rw [only i hi' hm' before']
      exact ⟨own, marked⟩

/-! ### The arrival -/

/-- The chip behind the read of an order's host part, with the plate that it gives. -/
def Chip.orderRead (k : Chip) (slot : Nat) (p : Plate) : Chip := setPlate slot p (k.setPsc { k.psc with ordering := none })

theorem planOrder_accepted {b : List Byte} (hc : orderCheck b k.lay.formats = 0) : planOrder slot b (k.setPsc { k.psc with ordering := none }) =
    (k.orderRead slot (Plate.atOrder (orderOf b) k.regs.plantClock),
      alignMarks slot (positionsOf b) ++ evaluation slot true ++ [.late slot k.regs.plantClock, .overdue slot k.regs.plantClock, .result slot]) :=
  if_pos hc

theorem planOrder_refused {b : List Byte} (hc : orderCheck b k.lay.formats ≠ 0) : planOrder slot b (k.setPsc { k.psc with ordering := none }) =
    (k.orderRead slot (Plate.refusedWith (refusedOrder b) (orderCheck b k.lay.formats) k.regs.plantClock), [.result slot]) :=
  if_neg hc

theorem orderArrives_accepted {b : List Byte} (ho : k.psc.ordering = some slot) (hw : k.psc.work = [])
    (hc : orderCheck b k.lay.formats = 0) : orderArrives slot b k = pscGo
      (runSteps (alignMarks slot (positionsOf b) ++ evaluation slot true ++ orderEnd slot k.regs.plantClock)
        (k.orderRead slot (Plate.atOrder (orderOf b) k.regs.plantClock))) := by
  have work : (k.orderRead slot (Plate.atOrder (orderOf b) k.regs.plantClock)).psc.work = [] := hw
  unfold orderArrives
  rw [if_pos ho, planOrder_accepted hc]
  dsimp only
  rw [work, List.append_nil]
  rfl

theorem orderArrives_refused {b : List Byte} (ho : k.psc.ordering = some slot) (hw : k.psc.work = [])
    (hc : orderCheck b k.lay.formats ≠ 0) : orderArrives slot b k = pscGo (runSteps [.result slot]
      (k.orderRead slot (Plate.refusedWith (refusedOrder b) (orderCheck b k.lay.formats) k.regs.plantClock))) := by
  have work : (k.orderRead slot (Plate.refusedWith (refusedOrder b) (orderCheck b k.lay.formats) k.regs.plantClock)).psc.work = [] := hw
  unfold orderArrives
  rw [if_pos ho, planOrder_refused hc]
  dsimp only
  rw [work, List.append_nil]

/-- What an arrival has left of the chip, from its judged plate on. -/
theorem resulted_frame {j t : Chip} (h : j.resulted t slot) (hp : j.plate slot = some p) : ∃ work newsMap newsDue outstanding report,
    t = j.finishedAs work newsMap newsDue outstanding report j.pd.runState ∧
    (j.psc.awaiting = false → work = [] ∧ newsMap = j.newsSet slot ∧ report = j.sp.report ++ j.resultWrites slot p) := by
  rcases h with ⟨stop, w, -, rfl⟩ | ⟨free, done⟩
  · exact ⟨w, j.psc.newsMap, j.psc.newsDue, j.psc.outstanding, j.sp.report, rfl, fun h => absurd (stop.symm.trans h) (by decide)⟩
  · obtain ⟨outstanding, e⟩ := done p hp
    exact ⟨_, _, _, outstanding, _, e, fun _ => ⟨rfl, rfl, rfl⟩⟩

theorem pscGo_resulted {j t : Chip} (h : j.resulted t slot) (hp : j.plate slot = some p) (hd : j.psc.due = []) : pscGo t = t := by
  rcases h with ⟨stop, w, -, rfl⟩ | ⟨free, done⟩
  · exact pscGo_blocked _ (blocked_of_awaiting stop)
  · obtain ⟨outstanding, e⟩ := done p hp
    rw [e]
    exact pscGo_idle _ rfl hd

/-- What an arrival leaves of the chip besides the slot's plate. -/
structure Chip.arrivalKeeps (k t : Chip) (slot : Nat) : Prop where
  regs : t.regs = k.regs
  pd : t.pd = k.pd
  iu : t.iu = k.iu
  br : t.br = k.br
  tl : t.tl = k.tl
  imc : t.imc = k.imc
  hlc : t.hlc = k.hlc
  ordering : t.psc.ordering = none
  holdMap : t.psc.holdMap = k.psc.holdMap
  others : ∀ m, m ≠ slot → t.plate m = k.plate m

/-- The writes with which an arrival ends: the result part, and the news map byte when the news bit rises. -/
def Chip.arrivalWrote (k t : Chip) (slot : Nat) (q : Plate) : Prop :=
  t.sp = { k.sp with report := k.sp.report ++ reportWrite (k.slotAddr slot + 0x100) (resultPart q (t.marks slot)) [.pscDone] ::
    (if k.psc.newsMap.getLsbD slot = true then []
    else [reportWrite (k.lay.mapBase + 0x240 + slot / 8) [mapByte t.psc.newsMap (slot / 8)] [.alert .news, .pscDone]]) }

/-- How an arrival stands at `t`, with the plate that it gave judged at `j`. -/
def Chip.arrived (k j t : Chip) (slot : Nat) (p : Plate) : Prop :=
  k.arrivalKeeps t slot ∧ t.regs = j.regs ∧ t.psc.ready = j.psc.ready ∧ t.dmr = j.dmr ∧ t.psc.awaiting = j.psc.awaiting ∧
    ∃ st time late overdue, t.plate slot = some (p.judgedAs st time late overdue) ∧
      j.plate slot = some (p.judgedAs st time late overdue) ∧
      (t.psc.awaiting = false → k.arrivalWrote t slot (p.judgedAs st time late overdue) ∧ t.psc.work = [] ∧
        (slot < 512 → t.psc.newsMap.getLsbD slot = true))

theorem arrival_ends {j t : Chip} (hj : (k.orderRead slot p).judged slot j) (ht : j.resulted t slot) (hd : k.psc.due = []) :
    k.arrived j (pscGo t) slot p := by
  have put : (k.orderRead slot p).plate slot = some p := setPlate_self slot p _
  obtain ⟨plates, ready, all, awaiting, lists, report, rfl, silent, -, others, own⟩ := hj
  obtain ⟨st, time, late, overdue, own⟩ := own p put
  rw [pscGo_resulted ht own hd]
  obtain ⟨work, newsMap, newsDue, outstanding, report', rfl, done⟩ := resulted_frame ht own
  refine ⟨⟨rfl, rfl, rfl, rfl, rfl, rfl, rfl, rfl, rfl, fun m hm => ?_⟩, rfl, rfl, rfl, rfl, st, time, late, overdue, own, own,
    fun free => ?_⟩
  · exact (others m hm).trans (setPlate_ne slot m p _ hm)
  · obtain ⟨hwork, hnews, hreport⟩ := done free
    obtain ⟨-, hold, -⟩ := silent.resolve_left (fun h => absurd (h.symm.trans free) (by decide))
    refine ⟨?_, hwork, fun hs => ?_⟩
    · subst hnews hreport hold
      rfl
    · subst hnews
      exact newsSet_bit _ hs

theorem pscBlocked_orderRead (p : Plate) (h : (!k.working || decide (k.psc.outstanding ≠ 0) || k.psc.awaiting) = false) :
    pscBlocked (k.orderRead slot p) = false := by
  show (!k.working || (none : Option Nat).isSome || decide (k.psc.outstanding ≠ 0) || k.psc.awaiting) = false
  rwa [Option.isSome_none, Bool.or_false]

theorem busyElsewhere_orderRead (p : Plate) (h : k.busyElsewhere slot) : (k.orderRead slot p).busyElsewhere slot := by
  intro hr
  obtain ⟨n, x, hn, hx, busy⟩ := h hr
  exact ⟨n, x, hn, (setPlate_ne slot n p _ hn).trans hx, busy⟩

/-- What PSC needs to be able to take an order's host part. -/
structure Chip.awaitsOrder (k : Chip) (slot : Nat) : Prop where
  ordering : k.psc.ordering = some slot
  work : k.psc.work = []
  due : k.psc.due = []
  free : (!k.working || decide (k.psc.outstanding ≠ 0) || k.psc.awaiting) = false
  busy : k.busyElsewhere slot

/-- An order that passes the checks. -/
theorem order_accepted {b : List Byte} (h : k.awaitsOrder slot) (hc : orderCheck b k.lay.formats = 0) : ∃ j t,
    orderArrives slot b k = t ∧ k.arrived j t slot (Plate.atOrder (orderOf b) k.regs.plantClock) ∧
      (∀ i < positionCount b, ¬aligned b i → (∀ j < i, aligned b j) →
        j.plate slot = some (Plate.atOrder (orderOf b) k.regs.plantClock) ∧
        k.pscMarked j slot .align .note 1 (some (positionAtIndex b i).key) i) ∧
      ((∀ i < positionCount b, aligned b i) → (orderOf b).allReady k.iu.dir → k.arrivedReady j slot (orderOf b)) ∧
      ((∀ i < positionCount b, aligned b i) → ¬(orderOf b).allReady k.iu.dir → (orderOf b).nosepFree k.iu.dir →
        k.arrivedWaiting j slot (orderOf b)) := by
  obtain ⟨j, judged, resulted, steps⟩ := accepted_steps (b := b) (pscBlocked_orderRead _ h.free) (busyElsewhere_orderRead _ h.busy)
    (setPlate_self slot (Plate.atOrder (orderOf b) k.regs.plantClock) (k.setPsc { k.psc with ordering := none }))
  exact ⟨j, _, orderArrives_accepted h.ordering h.work hc, arrival_ends judged resulted h.due, steps⟩

/-- An order that fails a check. -/
theorem order_refused {b : List Byte} (h : k.awaitsOrder slot) (hc : orderCheck b k.lay.formats ≠ 0) :
    let p := Plate.refusedWith (refusedOrder b) (orderCheck b k.lay.formats) k.regs.plantClock
    ∃ t, orderArrives slot b k = t ∧ k.arrived (k.orderRead slot p) t slot p := by
  intro p
  have free := pscBlocked_orderRead (slot := slot) p h.free
  exact ⟨_, orderArrives_refused h.ordering h.work hc, arrival_ends (judged_refl slot _)
    (resulted_of_judged (judged_refl slot _) (setPlate_self slot p _) (busyElsewhere_orderRead p h.busy) free) h.due⟩

theorem pscMarked_congr {k' t t' : Chip} {kind : MarkKind} {severity : Severity} {attempt : Nat} {key : Option PageKey} {detail : Nat}
    (h : k.pscMarked t slot kind severity attempt key detail) (hk : k'.dmr = k.dmr) (ht : t'.dmr = t.dmr)
    (ha : t'.psc.awaiting = t.psc.awaiting) (hc : t'.regs.plantClock = t.regs.plantClock) :
    k'.pscMarked t' slot kind severity attempt key detail := by
  have before : k'.marks slot = k.marks slot := by rw [Chip.marks, hk]; rfl
  have after : t'.marks slot = t.marks slot := by rw [Chip.marks, ht]; rfl
  rw [Chip.pscMarked, ha, before, after, hc]
  exact h

end

end Sys2Proof.Machine
end

