-- ==== Sys2Proof/Proofs/OrderSettled.lean ====
section
/-! SUPPORT. The statement on an order's arrival, from the lemmas before (O45). -/

namespace Sys2Proof.Machine

theorem orderOf_fields (b : List Byte) : orderOf b =
    { plateId := u32 b 0, edition := u16 b 4, sep := u8 b 6, format := u8 b 7, deadline := u32 b 8
      positions := (List.range (positionCount b)).map
        (fun i => { positionAtIndex b i with across := u16 b (0x18 + 8 * i + 4) / 64 * 64 })
      profile := u8 b 0x0D, curve := u8 b 0x0E, screenSet := u8 b 0x0F
      trim := max (-256) (min 255 (BitVec.ofNat 16 (u16 b 0x10)).toInt), budget := min 3 (u8 b 0x12)
      actionBreak := decide (u8 b 0x13 = 1), bin := u8 b 0x14 } := by
  rw [← orderOf_positions, ← clampTrim_eq]
  rfl

/-- With no other input in hand, a plate in work keeps STOPPING while an order arrives. -/
theorem busyElsewhere_of_sound {k : Chip} {slot : Nat} (hi : k.inputSound) (hs : k.platesSound) (ho : k.psc.ordering = some slot)
    (hw : k.psc.work = []) (hd : k.psc.due = []) : k.busyElsewhere slot := by
  obtain ⟨-, -, -, stopping⟩ := hi
  obtain ⟨sorted, -, free, -⟩ := hs
  intro hr
  obtain ⟨e, he, busy⟩ := stopping hr hw hd
  have here : k.plate e.1 = some e.2 := tblGet_of_mem _ sorted e he
  have other : e.1 ≠ slot := fun h => by
    rw [h, free slot ho] at here
    cases here
  exact ⟨e.1, e.2, other, here, busy⟩

namespace Orders

/-- Settles O45. -/
theorem orderArrives : Obligations.OrderArrives := by
  refine ⟨fun b formats => orderCheck_first b formats, ?_⟩
  intro s x rest slot hworking htaken hpurpose hnotices hordering hout hawait hwork hdue hinput hplates hmarks b n clock
    count at_ pos order aligned ready late overdue resultWritten
  have awaits : Chip.awaitsOrder (s.chip.setSp { s.chip.sp with served := rest }) slot := by
    refine ⟨hordering, hwork, hdue, ?_, busyElsewhere_of_sound hinput hplates hordering hwork hdue⟩
    show (!s.chip.working || decide (s.chip.psc.outstanding ≠ 0) || s.chip.psc.awaiting) = false
    rw [hworking, hout, hawait]
    rfl
  have run : exec (.transferComplete .report) s =
      .next (s.setChip (Machine.orderArrives slot b (s.chip.setSp { s.chip.sp with served := rest }))) := by
    have live : s.chip.pd.runState = .halted → Client.report = .host := fun h => by
      simp [Chip.working, h] at hworking
    show Host.Outcome.next (s.setChip (transferComplete .report s.chip)) = _
    rw [transferComplete_live htaken live, deliverData, hpurpose, hnotices]
    rfl
  have settled : order = orderOf b := (orderOf_fields b).symm
  clear_value order
  subst settled
  rw [run]
  by_cases hn : n = 0
  · obtain ⟨j, t, e, ⟨keeps, hregs, hready, hdmr, hawaits, st, time, late', overdue', own, own', done⟩, first, whenReady, whenWaiting⟩ :=
      order_accepted awaits hn
    rw [e]
    refine ⟨_, _, rfl, rfl, keeps.regs, keeps.pd, keeps.iu, keeps.br, keeps.tl, keeps.imc, keeps.hlc, keeps.ordering, keeps.holdMap,
      fun free => ⟨_, resultPart_is _ _, (done free).1⟩, keeps.others, own, rfl, rfl, rfl, rfl, fun h => absurd hn h,
      fun _ => ⟨rfl, rfl, rfl, ?_, ?_, ?_⟩⟩
    · intro i hi hm before
      obtain ⟨now, marked⟩ := first i hi hm before
      cases own'.symm.trans now
      exact ⟨rfl, pscMarked_congr marked rfl hdmr hawaits (congrArg Registers.plantClock hregs)⟩
    · intro hal hr
      obtain ⟨q, now, hst, htime, mem, due, notDue⟩ := whenReady hal hr
      cases own'.symm.trans now
      refine ⟨hst, htime, hready ▸ mem, fun ho => ?_, fun ho => ?_⟩
      · obtain ⟨hdone, marked⟩ := due ho
        exact ⟨hdone, pscMarked_congr marked rfl hdmr hawaits (congrArg Registers.plantClock hregs)⟩
      · obtain ⟨hdone, open_, dmr⟩ := notDue ho
        have free := hawaits.trans (awaiting_of_free open_)
        exact ⟨hdone, free, (done free).2.1, hdmr.trans dmr, (done free).2.2⟩
    · intro hal hr hnf
      obtain ⟨q, now, hst, off, due, notDue⟩ := whenWaiting hal hr hnf
      cases own'.symm.trans now
      refine ⟨hst, hready ▸ off, fun hl => ?_, fun hl => ?_⟩
      · obtain ⟨hdone, marked⟩ := due hl
        exact ⟨hdone, pscMarked_congr marked rfl hdmr hawaits (congrArg Registers.plantClock hregs)⟩
      · obtain ⟨hdone, open_, dmr⟩ := notDue hl
        have free := hawaits.trans (awaiting_of_free open_)
        exact ⟨hdone, free, (done free).2.1, hdmr.trans dmr, (done free).2.2⟩
  · obtain ⟨t, e, keeps, hregs, hready, hdmr, hawaits, st, time, late', overdue', own, own', done⟩ := order_refused awaits hn
    rw [e]
    cases own'.symm.trans (setPlate_self slot _ _)
    refine ⟨_, _, rfl, rfl, keeps.regs, keeps.pd, keeps.iu, keeps.br, keeps.tl, keeps.imc, keeps.hlc, keeps.ordering, keeps.holdMap,
      fun free => ⟨_, resultPart_is _ _, (done free).1⟩, keeps.others, own, rfl, rfl, rfl, rfl,
      fun _ => ⟨rfl, rfl, rfl, rfl, rfl, rfl, rfl, hready, hdmr, (done (hawaits.trans hawait)).2.2⟩, fun h => absurd h hn⟩

end Orders

end Sys2Proof.Machine
end

