-- ==== Sys2Proof/Proofs/Dispositions.lean ====
section
/-! SUPPORT. How dispositions are sent, and how PSC takes the one that it waits for (O49). -/

namespace Sys2Proof.Machine

/-! ### Sending (R196) -/

theorem finishingCurrent_exists {k : Chip} {slot attempt : Nat} : finishingCurrent k slot attempt = true ↔
    ∃ p, k.plate slot = some p ∧ p.state = .finishing ∧ p.attempt = attempt ∧ p.status = .opened := by
  cases hp : k.plate slot with
  | none => simp [finishingCurrent, hp]
  | some p =>
    rw [finishingCurrent_iff hp]
    simp

theorem judgeAgain_stays {k : Chip} {d : Disposition} (h : d.severity ≠ .hold ∨ aluminiumExposed k d.slot d.attempt = false) :
    judgeAgain k d = d := by
  rcases h with h | h <;> simp [judgeAgain, h]

theorem judgeAgain_spoils {k : Chip} {d : Disposition} (h : d.severity = .hold) (ha : aluminiumExposed k d.slot d.attempt = true) :
    judgeAgain k d = { d with severity := .spoil, charged := false, place := askedPlace k d.slot d.attempt } := by
  simp [judgeAgain, h, ha]

theorem exec_dispositionSend {s : State} {d : Disposition} {ds : List Disposition} (hw : s.chip.working = true)
    (hd : s.chip.dmr.toSend = d :: ds) : exec .dispositionSend s =
      .next (s.setChip (tellDisposition (judgeAgain s.chip d) (s.chip.setDmr { s.chip.dmr with toSend := ds }))) := by
  show Host.Outcome.next (s.setChip (sendDisposition s.chip)) = _
  simp only [sendDisposition, hw, hd, if_true]

/-! ### A PSC that is not free (R20) -/

theorem nextInput_none {k : Chip} (h : pscFree k = false) : nextInput k = none := by simp [nextInput, h]

theorem selection_not_free {k : Chip} (h : pscFree k = false) : selection k = k := by simp [selection, maySelect, h]

theorem takeDisposition_idle {k : Chip} (h : pscFree k = false) (ha : k.psc.awaiting = false ∨ k.psc.answer = none) :
    takeDisposition k = k := by
  rw [takeDisposition, nextInput_none h]
  rcases ha with ha | ha
  · simp [ha]
  · rw [ha]
    split <;> rfl

/-! ### The disposition that PSC waits for (R188) -/

/-- A disposition that finds nothing to do. -/
def Disposition.idle (d : Disposition) (k : Chip) : Prop :=
  ∀ p, k.plate d.slot = some p →
    d.severity = .note ∨ p.attempt ≠ d.attempt ∨ p.status ≠ .opened ∨ p.state = .closing ∨ p.state.terminal = true

theorem applyDisposition_idle {d : Disposition} {k : Chip} (h : d.idle k) : applyDisposition d k = (k, []) := by
  unfold applyDisposition
  cases hp : k.plate d.slot with
  | none => rfl
  | some p =>
    dsimp only
    rcases h p hp with hs | ha | ho | hc | ht
    · rw [hs]
      split <;> rfl
    · simp [Plate.isCurrent, ha]
    · simp [Plate.isCurrent, ho]
    · simp [hc]
    · simp [ht]

theorem exec_answer {s : State} {d : Disposition} (hw : s.chip.working = true) (ha : s.chip.psc.awaiting = true)
    (hd : s.chip.psc.answer = some d) (hi : d.idle s.chip) : exec .dispositionApply s = .next (s.setChip (pscGo
      (newsOf d.slot (s.chip.setPsc { s.chip.psc with awaiting := false, answer := none })))) := by
  have idle : planDisposition d (s.chip.setPsc { s.chip.psc with awaiting := false, answer := none }) =
      (newsOf d.slot (s.chip.setPsc { s.chip.psc with awaiting := false, answer := none }), []) :=
    applyDisposition_idle (k := newsOf d.slot (s.chip.setPsc { s.chip.psc with awaiting := false, answer := none })) hi
  show Host.Outcome.next (s.setChip (takeDisposition s.chip)) = _
  rw [takeDisposition, hw, ha]
  simp only [Bool.and_self, if_true, hd]
  rw [takeAnswer, idle]
  rfl

/-- With no event heard, PSC goes on with its steps to the end of the input. -/
theorem pscGo_steps {k j : Chip} {old : List (Nat × Plate)} (h : j.finished (runSteps k.psc.work k) old) (hd : j.psc.due = []) :
    pscGo k = runSteps k.psc.work k := by
  obtain ⟨w, m, n, o, r, st, e⟩ := finished_frame h
  have due : (runSteps k.psc.work k).psc.due = [] := by rw [e]; exact hd
  rw [pscGo]
  rw [due, runDue, ← due, setDue_self]

/-- The end of an input, behind one step. -/
theorem pscGo_step {k j : Chip} {old : List (Nat × Plate)} {step : PscStep} (hw : k.psc.work = [step, .publish old])
    (hb : pscBlocked k = false) (hj : doStep step k = j) (hf : pscBlocked j = false) (hd : j.psc.due = []) : j.finished (pscGo k) old := by
  have run : runSteps k.psc.work k = runSteps [.publish old] j := by rw [hw, runSteps_cons _ _ _ hb, hj]
  have finished : j.finished (runSteps k.psc.work k) old := run ▸ runSteps_publish old hf
  rw [pscGo_steps finished hd]
  exact finished

/-! ### Closing a plate (R100) -/

/-- A plate closed with an outcome. -/
def Plate.closedAs (p : Plate) (o : Outcome) (clock : Word) : Plate :=
  let q := { p with breakPending := none }.endAttempt
  if p.carriersOut = 0 ∧ p.drumReject = false then { q with state := o.state, finalTime := clock }
  else { q with state := .closing, closing := some o }

theorem closePlate_eq {slot : Nat} {k : Chip} {p : Plate} (o : Outcome) (hp : k.plate slot = some p) :
    closePlate slot o k = setPlate slot (p.closedAs o k.regs.plantClock) (leaveReady slot k) := by
  have here : (leaveReady slot k).plate slot = some p := hp
  rw [closePlate, updPlate_eq here]
  rfl

/-! ### A pending break (R104) -/

theorem reportMark_psc (m : MarkReport) (k : Chip) : (reportMark m k).psc = k.psc ∧ (reportMark m k).pd = k.pd := by
  unfold reportMark
  cases hp : k.plate m.slot with
  | none => rw [recordMark_free hp]; exact ⟨rfl, rfl⟩
  | some p =>
    cases hs : suppressed (k.marks m.slot) m with
    | true => rw [recordMark_suppressed hs]; exact ⟨rfl, rfl⟩
    | false => rw [recordMark_stored hp hs]; exact ⟨rfl, rfl⟩

theorem imcBreak_psc (slot attempt : Nat) (k : Chip) : (imcBreak slot attempt k).psc = k.psc ∧ (imcBreak slot attempt k).pd = k.pd := by
  have condemned (b : Bool) : (condemn .spoiled b k).psc = k.psc ∧ (condemn .spoiled b k).pd = k.pd := by
    unfold condemn
    split <;> exact ⟨rfl, rfl⟩
  unfold imcBreak
  split
  · exact ⟨rfl, rfl⟩
  · split
    · split <;> exact ⟨rfl, rfl⟩
    · split
      · exact condemned false
      · exact ⟨(reportMark_psc _ _).1.trans (condemned false).1, (reportMark_psc _ _).2.trans (condemned false).2⟩
    · exact ⟨rfl, rfl⟩

theorem startBreak_psc {slot : Nat} {f : BreakFlag} {k : Chip} {p : Plate} (hp : k.plate slot = some p) :
    (startBreak slot f k).psc = (setPlate slot { p with breakPending := some (raiseBreak p.breakPending f) } k).psc ∧
      (startBreak slot f k).pd = k.pd := by
  simp only [startBreak, hp]
  split
  · exact imcBreak_psc _ _ _
  · exact ⟨rfl, rfl⟩

theorem pscBlocked_congr {k t : Chip} (hd : t.pd = k.pd) (ho : t.psc.ordering = k.psc.ordering)
    (hn : t.psc.outstanding = k.psc.outstanding) (ha : t.psc.awaiting = k.psc.awaiting) : pscBlocked t = pscBlocked k := by
  simp only [pscBlocked, Chip.working, hd, ho, hn, ha]

/-! ### What PSC goes on with (R188) -/

section
variable {k : Chip} {slot : Nat} {p : Plate} {old : List (Nat × Plate)}

/-- PSC goes on with the writes at the end of its input. -/
theorem goesOn_publish (hb : pscBlocked k = false) (hd : k.psc.due = []) (hw : k.psc.work = [.publish old]) (hp : k.plate slot = some p)
    (hn : slot ∈ k.psc.newsDue) (hs : slot < 512) (ho : (slot, p) ∈ old) :
    (pscGo k).psc.newsMap.getLsbD slot = true ∧ (pscGo k).psc.plates = k.psc.plates ∧ (pscGo k).psc.work = [] := by
  have finished : k.finished (runSteps k.psc.work k) old := hw ▸ runSteps_publish old hb
  rw [pscGo_steps finished hd]
  rcases finished with ⟨ha, -⟩ | ⟨-, m, o, r, e, news⟩
  · exact absurd (ha.symm.trans (awaiting_of_free hb)) (by decide)
  · rw [e]
    exact ⟨news slot p p ho hp hn hs, rfl, rfl⟩

/-- PSC closes the plate as FAILED, whose mark has been answered. -/
theorem goesOn_fail (hb : pscBlocked k = false) (hd : k.psc.due = []) (hw : k.psc.work = [.fail slot, .publish old])
    (hp : k.plate slot = some p) (hl : p.state.live = true) : (pscGo k).plate slot = some (p.closedAs .failed k.regs.plantClock) := by
  have step : doStep (.fail slot) k = setPlate slot (p.closedAs .failed k.regs.plantClock) (leaveReady slot k) := by
    simp only [doStep, whileLive, hp, hl, if_true, closePlate_eq _ hp]
  obtain ⟨w, m, n, o, r, st, e⟩ := finished_frame (pscGo_step hw hb step hb hd)
  rw [e]
  exact setPlate_self slot _ (leaveReady slot k)

/-- PSC leads the plate to WAITING, whose mark has been answered. -/
theorem goesOn_waiting (hb : pscBlocked k = false) (hd : k.psc.due = []) (hw : k.psc.work = [.waiting slot, .publish old])
    (hp : k.plate slot = some p) (hl : p.state.live = true) (hn : ¬Plate.lateDue { p with state := .waiting } k k.regs.plantClock) :
    (pscGo k).plate slot = some { p with state := .waiting } ∧ slot ∉ (pscGo k).psc.ready := by
  have step : doStep (.waiting slot) k = k.asWaiting slot p := by
    simp only [doStep, whileLive, hp, hl, if_true, enterWaiting_early hp hn]
  obtain ⟨w, m, n, o, r, st, e⟩ := finished_frame (pscGo_step hw hb step hb hd)
  rw [e]
  exact ⟨asWaiting_plate k slot p, not_mem_leaveReady slot k⟩

/-- PSC sets the break pending, whose mark has been answered. -/
theorem goesOn_break {f : BreakFlag} (hb : pscBlocked k = false) (hd : k.psc.due = []) (hw : k.psc.work = [.startBreak slot f, .publish old])
    (hp : k.plate slot = some p) : (pscGo k).plate slot = some { p with breakPending := some (raiseBreak p.breakPending f) } := by
  obtain ⟨hpsc, hpd⟩ := startBreak_psc (f := f) hp
  have free : pscBlocked (startBreak slot f k) = false := by
    rw [pscBlocked_congr (k := k) hpd (by rw [hpsc]; rfl) (by rw [hpsc]; rfl) (by rw [hpsc]; rfl)]
    exact hb
  obtain ⟨w, m, n, o, r, st, e⟩ := finished_frame (pscGo_step (j := startBreak slot f k) hw hb rfl free (by rw [hpsc]; exact hd))
  rw [e]
  show tblGet (startBreak slot f k).psc.plates slot = _
  rw [hpsc]
  exact setPlate_self slot _ k

end

end Sys2Proof.Machine
end

