-- ==== Sys2Proof/Proofs/Spoils.lean ====
section
/-! SUPPORT. What a disposition does at once with a plate: SPOIL, FAIL and HOLD (O49). -/

namespace Sys2Proof.Machine

/-! ### What an input about one plate leaves of PSC -/

/-- From `k` to `y` an input has worked on one plate, which stands as `q` now: the plates of other slots, the registers and what PSC has in hand
are as before. -/
structure Chip.standing (k y : Chip) (slot : Nat) (q : Plate) : Prop where
  regs : y.regs = k.regs
  pd : y.pd = k.pd
  tl : y.tl = k.tl
  dmr : y.dmr = k.dmr
  psc : y.psc = { k.psc with plates := y.psc.plates, ready := y.psc.ready, inbox := y.psc.inbox }
  own : y.plate slot = some q
  others : ∀ n, n ≠ slot → y.plate n = k.plate n

section
variable {k y z : Chip} {slot : Nat} {p q r : Plate}

theorem standing_refl (hp : k.plate slot = some p) : k.standing k slot p := ⟨rfl, rfl, rfl, rfl, rfl, hp, fun _ _ => rfl⟩

theorem standing_trans (h : k.standing y slot q) (g : y.standing z slot r) : k.standing z slot r := by
  refine ⟨g.regs.trans h.regs, g.pd.trans h.pd, g.tl.trans h.tl, g.dmr.trans h.dmr, ?_, g.own, fun n hn => (g.others n hn).trans (h.others n hn)⟩
  have first := h.psc
  have second := g.psc
  generalize z.psc = u at second ⊢
  generalize y.psc = v at first second
  rw [second, first]

theorem standing_setPlate (slot : Nat) (q : Plate) (k : Chip) : k.standing (setPlate slot q k) slot q :=
  ⟨rfl, rfl, rfl, rfl, rfl, setPlate_self slot q k, fun n hn => setPlate_ne slot n q k hn⟩

theorem standing_leaveReady (hp : k.plate slot = some p) : k.standing (leaveReady slot k) slot p :=
  ⟨rfl, rfl, rfl, rfl, rfl, hp, fun _ _ => rfl⟩

theorem standing_relieved {attempt : Nat} (h : k.relieved y slot p attempt) : k.standing y slot { p with pinsHeld := false } := by
  obtain ⟨_, _, _, _, _, _, _, _, _, rfl, -, -, -, own, others⟩ := h
  exact ⟨rfl, rfl, rfl, rfl, rfl, own, others⟩

theorem standing_closePlate (o : Outcome) (hp : k.plate slot = some p) :
    k.standing (closePlate slot o k) slot (p.closedAs o k.regs.plantClock) := by
  rw [closePlate_eq o hp]
  exact standing_trans (standing_leaveReady hp) (standing_setPlate slot _ _)

theorem standing_blocked (h : k.standing y slot q) : pscBlocked y = pscBlocked k :=
  pscBlocked_congr h.pd (by rw [h.psc]) (by rw [h.psc]) (by rw [h.psc])

/-! ### Carriers (R185) -/

/-- A carrier of an attempt that is still good. -/
def Chip.goodCarrier (k : Chip) (slot attempt : Nat) : Prop :=
  ∃ c ∈ k.hlc.carriers, (c.slot = some slot ∧ c.attempt = attempt) ∧ c.spoiled = false

theorem spoilCarriers_good {attempt : Nat} (h : k.goodCarrier slot attempt) : spoilCarriers slot attempt k =
    k.setHlc { k.hlc with
      carriers := k.hlc.carriers.map (fun c => if c.slot = some slot ∧ c.attempt = attempt then { c with spoiled := true } else c)
      punch := k.hlc.punch.rejectWaiting slot attempt
      processor := k.hlc.processor.rejectWaiting slot attempt
      sorter := k.hlc.sorter.rejectWaiting slot attempt } := by
  obtain ⟨c, hc, ⟨hs, ha⟩, hg⟩ := h
  refine if_pos (List.any_eq_true.mpr ⟨c, hc, ?_⟩)
  simp [hs, ha, hg]

theorem spoilCarriers_none {attempt : Nat} (h : ¬k.goodCarrier slot attempt) : spoilCarriers slot attempt k = k := by
  refine if_neg (fun hany => ?_)
  obtain ⟨c, hc, good⟩ := List.any_eq_true.mp hany
  simp only [Bool.and_eq_true, decide_eq_true_eq, Bool.not_eq_true'] at good
  exact h ⟨c, hc, good.1, good.2⟩

theorem standing_spoilCarriers (attempt : Nat) (hp : k.plate slot = some p) : k.standing (spoilCarriers slot attempt k) slot p := by
  by_cases h : k.goodCarrier slot attempt
  · rw [spoilCarriers_good h]
    exact ⟨rfl, rfl, rfl, rfl, rfl, hp, fun _ _ => rfl⟩
  · rw [spoilCarriers_none h]
    exact standing_refl hp

/-- What `spoilCarriers` leaves besides HLC. -/
theorem spoilCarriers_keeps (slot attempt : Nat) (k : Chip) : (spoilCarriers slot attempt k).iu = k.iu ∧
    (spoilCarriers slot attempt k).br = k.br ∧ (spoilCarriers slot attempt k).imc = k.imc := by
  unfold spoilCarriers
  split <;> exact ⟨rfl, rfl, rfl⟩

/-- The carriers and the waiting requests of the stages are the same. -/
def HandlerLine.sameStages (h h' : HandlerLine) : Prop :=
  h'.carriers = h.carriers ∧ h'.punch = h.punch ∧ h'.processor = h.processor ∧ h'.sorter = h.sorter

/-- The carriers of an attempt have been spoiled, and their waiting requests rewritten. -/
def HandlerLine.stagesSpoiled (h h' : HandlerLine) (slot attempt : Nat) : Prop :=
  h'.carriers = h.carriers.map (fun c => if c.slot = some slot ∧ c.attempt = attempt then { c with spoiled := true } else c) ∧
    h'.punch = h.punch.rejectWaiting slot attempt ∧ h'.processor = h.processor.rejectWaiting slot attempt ∧
    h'.sorter = h.sorter.rejectWaiting slot attempt

/-- How the carriers stand after a disposition: spoiled when the physical plate is a carrier and one is still good, and the same otherwise. -/
def Chip.carriersAfter (k y : Chip) (slot attempt : Nat) (carried : Prop) : Prop :=
  (carried → k.goodCarrier slot attempt → k.hlc.stagesSpoiled y.hlc slot attempt) ∧
    (¬carried ∨ ¬k.goodCarrier slot attempt → k.hlc.sameStages y.hlc)

theorem carriersAfter_same {attempt : Nat} {carried : Prop} (h : k.hlc.sameStages y.hlc) (hn : ¬carried) :
    k.carriersAfter y slot attempt carried := ⟨fun hc => absurd hc hn, fun _ => h⟩

theorem carriersAfter_spoil {attempt : Nat} (h : k.hlc.sameStages y.hlc) {carried : Prop} (hc : carried) :
    k.carriersAfter (spoilCarriers slot attempt y) slot attempt carried := by
  obtain ⟨h1, h2, h3, h4⟩ := id h
  have good : y.goodCarrier slot attempt ↔ k.goodCarrier slot attempt := by rw [Chip.goodCarrier, h1]; rfl
  refine ⟨fun _ hg => ?_, fun hn => ?_⟩
  · rw [spoilCarriers_good (good.mpr hg)]
    exact ⟨congrArg (List.map _) h1, congrArg (UnitState.rejectWaiting slot attempt) h2,
      congrArg (UnitState.rejectWaiting slot attempt) h3, congrArg (UnitState.rejectWaiting slot attempt) h4⟩
  · rw [spoilCarriers_none (mt good.mp (hn.resolve_left (not_not_intro hc)))]
    exact h

theorem sameStages_relieved {attempt : Nat} (h : k.relieved y slot p attempt) : k.hlc.sameStages y.hlc := by
  obtain ⟨_, _, _, _, _, _, _, _, _, rfl, -⟩ := h
  exact ⟨rfl, rfl, rfl, rfl⟩

/-! ### The drum plate (R162, R166) -/

theorem setTarget_drum (rpm : Nat) (k : Chip) : (setTarget rpm k).imc.drum = k.imc.drum := by
  unfold setTarget
  split <;> rfl

theorem goTo_drum (st : ImagerState) (k : Chip) : (goTo st k).imc.drum = k.imc.drum := by
  cases st <;> exact setTarget_drum _ _

/-- Exposure that PSC's word ends leaves the drum plate spoiled, and confirmed. -/
theorem endExposure_drum {d : Drum} (w : PlateRef) (hd : k.imc.drum = some d) :
    (endExposure w none k).imc.drum = some { d with cond := .spoiled, confirmed := true } := by
  have ended : (freeDraining (endPass k)).imc.drum = some d := hd
  unfold endExposure condemn
  rw [ended]
  dsimp only
  split <;> exact goTo_drum _ _

/-- A spoil or fail that finds the plate on the drum, exposed or with exposure begun. -/
theorem imcSpoilWord_drum {attempt : Nat} {d : Drum} {w : PlateRef} (hd : k.imc.drum = some d) (ho : d.owner = some w)
    (hs : w.slot = slot) (ha : w.attempt = attempt) (hu : k.hlc.unloadEnd = .none)
    (hc : d.cond ≠ .unexposed ∨ (k.imc.state = .exposing ∧ k.imc.exposure.begun = true)) :
    (imcSpoilWord slot attempt k).imc.drum = some { d with cond := .spoiled, confirmed := true } := by
  have mine : drumPlateFor k slot attempt = some (d, w) := by
    simp [drumPlateFor, hd, ho, PlateRef.isFor, hs, ha, hu]
  have condemned : (condemn .spoiled true k).imc.drum = some { d with cond := .spoiled, confirmed := true } := by
    rw [condemn, hd]
    rfl
  unfold imcSpoilWord
  rw [mine]
  dsimp only
  cases hcond : d.cond with
  | unexposed =>
    obtain ⟨hx, hb⟩ := hc.resolve_left (fun h => h hcond)
    simp only [hx, hb, decide_true, Bool.and_self, if_true]
    exact endExposure_drum w hd
  | exposed => exact condemned
  | spoiled => exact condemned

end

end Sys2Proof.Machine
end

