-- ==== Sys2Proof/Proofs/Applied.lean ====
section
/-! SUPPORT. The plans of SPOIL, FAIL and HOLD (O49). -/

namespace Sys2Proof.Machine

section
variable {k y : Chip} {slot : Nat} {p : Plate}

/-- The pins and the bands that an attempt holds have been given up. -/
def Chip.gaveUp (k y : Chip) (slot : Nat) (p : Plate) : Prop := p.pinsGivenUp k.iu.dir y.iu.dir ∧ y.discarded slot p.attempt

theorem gaveUp_relieved (h : k.relieved y slot p p.attempt) : k.gaveUp y slot p := by
  obtain ⟨_, _, _, _, _, _, _, _, _, rfl, pins, discarded, -⟩ := h
  exact ⟨pins, discarded⟩

theorem giveUpPins_imc (hp : k.plate slot = some p) : (giveUpPins slot k).imc = k.imc := by
  obtain ⟨iu, queue, plates, e, -⟩ := giveUpPins_spec hp
  rw [e]
  rfl

theorem word_keeps_plate (attempt : Nat) (hp : k.plate slot = some p) : (imcSpoilWord slot attempt k).plate slot = some p := by
  obtain ⟨_, _, _, _, _, _, w, -⟩ := worded_imcSpoilWord slot attempt k
  rw [w]
  exact hp

/-- IMC has taken the word of a spoil or fail of a plate, whose pins and bands have been given up (R107 (3), R109). -/
def Chip.wordGiven (k : Chip) (slot : Nat) (q : Plate) : Chip :=
  discard slot q.attempt (giveUpPins slot (imcSpoilWord slot q.attempt (setPlate slot q k)))

theorem wordGiven_spec (k : Chip) (slot : Nat) (q : Plate) : k.standing (k.wordGiven slot q) slot { q with pinsHeld := false } ∧
    k.gaveUp (k.wordGiven slot q) slot q ∧ k.hlc.sameStages (k.wordGiven slot q).hlc ∧
    (k.wordGiven slot q).imc = (imcSpoilWord slot q.attempt (setPlate slot q k)).imc := by
  have put : (setPlate slot q k).plate slot = some q := setPlate_self slot _ k
  have relieved := word_relieves q.attempt put
  have given := gaveUp_relieved relieved
  have stages := sameStages_relieved relieved
  exact ⟨standing_trans (standing_setPlate slot q k) (standing_relieved relieved), given, stages, giveUpPins_imc (word_keeps_plate _ put)⟩

/-! ### SPOIL (R107) -/

/-- The plate with what a SPOIL counts and rejects. -/
def Plate.spoiledBy (p : Plate) (charged : Bool) (pl : Place) : Plate :=
  { p with charged := if charged then p.charged + 1 else p.charged, drumReject := p.drumReject || decide (pl = .drum) }

/-- The plate of an ended attempt, on its way back to the list. -/
def Plate.attemptOver (p : Plate) : Plate := { p with breakPending := none }.endAttempt

/-- What a SPOIL has done at once, before its outcome. -/
def Chip.spoiledAt (k : Chip) (slot : Nat) (p : Plate) (charged : Bool) (pl : Place) : Chip :=
  if pl = .carrier then spoilCarriers slot p.attempt (k.wordGiven slot (p.spoiledBy charged pl)) else k.wordGiven slot (p.spoiledBy charged pl)

/-- What a spoil does at once with the plate, its pins and bands, the drum plate and the carriers. -/
theorem spoiledAt_spec (charged : Bool) (pl : Place) (k : Chip) (slot : Nat) (p : Plate) :
    k.standing (k.spoiledAt slot p charged pl) slot { p.spoiledBy charged pl with pinsHeld := false } ∧
      k.gaveUp (k.spoiledAt slot p charged pl) slot p ∧
      (k.spoiledAt slot p charged pl).imc = (imcSpoilWord slot p.attempt (setPlate slot (p.spoiledBy charged pl) k)).imc ∧
      k.carriersAfter (k.spoiledAt slot p charged pl) slot p.attempt (pl = .carrier) := by
  obtain ⟨standing, ⟨pins, discarded⟩, stages, imc⟩ := wordGiven_spec k slot (p.spoiledBy charged pl)
  unfold Chip.spoiledAt
  by_cases hc : pl = .carrier
  · obtain ⟨hiu, hbr, himc⟩ := spoilCarriers_keeps slot p.attempt (k.wordGiven slot (p.spoiledBy charged pl))
    rw [if_pos hc]
    refine ⟨standing_trans standing (standing_spoilCarriers _ standing.own), ⟨?_, ?_⟩, himc.trans imc, carriersAfter_spoil stages hc⟩
    · rw [hiu]
      exact pins
    · rw [Chip.discarded, hbr]
      exact discarded
  · rw [if_neg hc]
    exact ⟨standing, ⟨pins, discarded⟩, imc, carriersAfter_same stages hc⟩

theorem spoilOutcome_closes (o : Outcome) (hp : k.plate slot = some p)
    (ho : (o = .failed ∧ p.order.budget < p.charged) ∨ (o = .cancelled ∧ ¬p.order.budget < p.charged ∧ p.breakPending = some .cancel)) :
    spoilOutcome slot k = (closePlate slot o k, []) := by
  unfold spoilOutcome
  rw [hp]
  dsimp only
  rcases ho with ⟨rfl, h⟩ | ⟨rfl, h, hc⟩
  · rw [if_pos h]
  · rw [if_neg h, if_pos hc]

theorem spoilOutcome_returns (hp : k.plate slot = some p) (h : ¬p.order.budget < p.charged) (hc : p.breakPending ≠ some .cancel) :
    spoilOutcome slot k = (setPlate slot p.attemptOver (leaveReady slot k), evaluation slot true) := by
  have here : (leaveReady slot k).plate slot = some p := hp
  unfold spoilOutcome
  rw [hp]
  dsimp only
  rw [if_neg h, if_neg hc, updPlate_eq here]
  rfl

theorem applySpoil_eq (charged : Bool) (pl : Place) : applySpoil slot p charged pl k = spoilOutcome slot (k.spoiledAt slot p charged pl) := rfl

/-! ### FAIL (R109) -/

/-- Whether a FAIL rejects the plate on the drum. -/
def Chip.failRejects (k : Chip) (slot : Nat) (p : Plate) : Prop := p.state = .imaging ∧ exposureBegun k slot p.attempt = true

/-- How the plate `q` stands, that a FAIL is about to close, and what has been done for it. -/
structure Chip.failedAt (k z : Chip) (slot : Nat) (p q : Plate) : Prop where
  plate : q = { p with pinsHeld := q.pinsHeld, drumReject := q.drumReject }
  rejected : q.drumReject = true ↔ p.drumReject = true ∨ k.failRejects slot p
  relieved : p.state = .preparing ∨ p.state = .imaging → q.pinsHeld = false ∧ k.gaveUp z slot p
  kept : p.state = .waiting ∨ p.state = .ready ∨ p.state = .finishing → z.iu = k.iu ∧ z.br = k.br
  imc : k.failRejects slot p → z.imc = (imcSpoilWord slot p.attempt (setPlate slot { p with drumReject := true } k)).imc
  carriers : k.carriersAfter z slot p.attempt (p.state = .finishing)

theorem failedAt_withdrawn (hp : k.plate slot = some p) (hs : p.state = .preparing ∨ p.state = .imaging) (hb : ¬k.failRejects slot p) :
    k.standing (withdraw slot p.attempt k) slot { p with pinsHeld := false } ∧
      k.failedAt (withdraw slot p.attempt k) slot p { p with pinsHeld := false } := by
  have relieved := withdraw_relieves p.attempt hp
  have other : ¬(p.state = .waiting ∨ p.state = .ready ∨ p.state = .finishing) := by rcases hs with hs | hs <;> simp [hs]
  exact ⟨standing_relieved relieved, rfl, (or_iff_left hb).symm, fun _ => ⟨rfl, gaveUp_relieved relieved⟩, fun h => absurd h other,
    fun h => absurd h hb, carriersAfter_same (sameStages_relieved relieved) (fun h => other (.inr (.inr h)))⟩

theorem failedAt_rejected (h : k.failRejects slot p) :
    k.standing (k.wordGiven slot { p with drumReject := true }) slot { p with drumReject := true, pinsHeld := false } ∧
      k.failedAt (k.wordGiven slot { p with drumReject := true }) slot p { p with drumReject := true, pinsHeld := false } := by
  obtain ⟨standing, given, stages, imc⟩ := wordGiven_spec k slot { p with drumReject := true }
  have other : ¬(p.state = .waiting ∨ p.state = .ready ∨ p.state = .finishing) := by simp [h.1]
  exact ⟨standing, rfl, iff_of_true rfl (.inr h), fun _ => ⟨rfl, given⟩, fun h => absurd h other, fun _ => imc,
    carriersAfter_same stages (fun h => other (.inr (.inr h)))⟩

theorem failedAt_still (hp : k.plate slot = some p) (hs : p.state = .waiting ∨ p.state = .ready) :
    k.standing k slot p ∧ k.failedAt k slot p p := by
  have other : p.state ≠ .preparing ∧ p.state ≠ .imaging ∧ p.state ≠ .finishing := by rcases hs with hs | hs <;> simp [hs]
  obtain ⟨h1, h2, h3⟩ := other
  exact ⟨standing_refl hp, rfl, (or_iff_left (fun h => h2 h.1)).symm, fun h => absurd h (not_or_intro h1 h2), fun _ => ⟨rfl, rfl⟩,
    fun h => absurd h.1 h2, carriersAfter_same ⟨rfl, rfl, rfl, rfl⟩ h3⟩

theorem failedAt_finishing (hp : k.plate slot = some p) (hs : p.state = .finishing) :
    k.standing (spoilCarriers slot p.attempt k) slot p ∧ k.failedAt (spoilCarriers slot p.attempt k) slot p p := by
  obtain ⟨hiu, hbr, -⟩ := spoilCarriers_keeps slot p.attempt k
  exact ⟨standing_spoilCarriers _ hp, rfl, (or_iff_left (fun h => by simp [Chip.failRejects, hs] at h)).symm, fun h => by simp [hs] at h,
    fun _ => ⟨hiu, hbr⟩, fun h => by simp [Chip.failRejects, hs] at h, carriersAfter_spoil ⟨rfl, rfl, rfl, rfl⟩ hs⟩

/-- What a FAIL does by the state of its plate, before it closes it. -/
def failStage (slot : Nat) (p : Plate) (k : Chip) : Chip :=
  match p.state with
  | .preparing => withdraw slot p.attempt k
  | .imaging =>
    if exposureBegun k slot p.attempt then k.wordGiven slot { p with drumReject := true } else withdraw slot p.attempt k
  | .finishing => spoilCarriers slot p.attempt k
  | _ => k

theorem applyFail_eq (slot : Nat) (p : Plate) (k : Chip) : applyFail slot p k = closePlate slot .failed (failStage slot p k) := by
  unfold applyFail failStage
  cases p.state <;> rfl

theorem failStage_spec (hp : k.plate slot = some p) (hc : p.state ≠ .closing) (ht : p.state.terminal = false) :
    ∃ q, k.standing (failStage slot p k) slot q ∧ k.failedAt (failStage slot p k) slot p q := by
  unfold failStage
  split
  · next hs => exact ⟨_, failedAt_withdrawn hp (.inl hs) (fun h => by simp [Chip.failRejects, hs] at h)⟩
  · next hs =>
    split
    · next hb => exact ⟨_, failedAt_rejected ⟨hs, hb⟩⟩
    · next hb => exact ⟨_, failedAt_withdrawn hp (.inr hs) (fun h => hb h.2)⟩
  · next hs => exact ⟨_, failedAt_finishing hp hs⟩
  · next h1 h2 h3 =>
    refine ⟨_, failedAt_still hp ?_⟩
    cases hs : p.state <;> simp_all [PlateState.terminal]

/-! ### HOLD before exposure (R106) -/

/-- A plate led to WAITING and evaluated there, and the writes of the input behind it. -/
theorem hold_finishes (old : List (Nat × Plate)) (hb : pscBlocked k = false) (hp : k.plate slot = some p)
    (h2 : p.order.positions.length ≤ 2) (hl : p.state.live = true) :
    ∃ j, k.judged slot j ∧ j.finished (runSteps (.waiting slot :: evaluation slot false ++ [.publish old]) k) old ∧
      (Plate.lateDue { p with state := .waiting } k k.regs.plantClock → j.plate slot = some { p with state := .waiting, lateDone := true } ∧
        k.pscMarked j slot .late .note (waitedAttempt p) none (lateThreshold k p)) ∧
      (¬Plate.lateDue { p with state := .waiting } k k.regs.plantClock →
        (p.order.allReady k.iu.dir → ∃ time, j.plate slot = some { p with state := .ready, readyTime := time } ∧ slot ∈ j.psc.ready) ∧
        (¬p.order.allReady k.iu.dir → p.order.nosepFree k.iu.dir →
          j.plate slot = some { p with state := .waiting } ∧ slot ∉ j.psc.ready)) := by
  obtain ⟨off, early, late⟩ := enterWaiting_stands hb hp
  have judged := enterWaiting_judged slot k
  have step : runSteps (.waiting slot :: evaluation slot false ++ [.publish old]) k =
      runSteps (evaluation slot false ++ [.publish old]) (enterWaiting slot k) := by
    rw [List.cons_append, runSteps_cons _ _ _ hb]
    simp only [doStep, whileLive, hp, hl, if_true]
  rw [step]
  by_cases hlate : Plate.lateDue { p with state := .waiting } k k.regs.plantClock
  · obtain ⟨stop, own, marked⟩ := late hlate
    exact ⟨_, judged, .inl ⟨stop, _, by simp, runSteps_blocked _ _ (blocked_of_awaiting stop)⟩, fun _ => ⟨own, marked⟩,
      fun h => absurd hlate h⟩
  obtain ⟨free, -, own⟩ := early hlate
  have dir : (enterWaiting slot k).iu = k.iu := by
    obtain ⟨_, _, _, _, _, _, e, -⟩ := judged
    rw [e]
    rfl
  rw [← dir]
  generalize enterWaiting slot k = w at off judged free own
  by_cases ha : p.order.allReady w.iu.dir
  · obtain ⟨j, settled, open_, -, now, mem, run⟩ := evaluate_ready (returned := false) [.publish old] free own h2 rfl (.inr rfl) ha
    rw [run]
    exact ⟨j, judged_trans judged settled, runSteps_publish old open_, fun h => absurd h hlate,
      fun _ => ⟨fun _ => ⟨_, now, mem⟩, fun h => absurd ha h⟩⟩
  by_cases hn : p.order.nosepFree w.iu.dir
  · rw [evaluate_still [.publish old] free own h2 rfl ha hn]
    exact ⟨_, judged_trans judged (setAllReady_judged slot false w), runSteps_publish (j := setAllReady false w) old free,
      fun h => absurd h hlate, fun _ => ⟨fun h => absurd h ha, fun _ _ => ⟨own, off⟩⟩⟩
  · obtain ⟨j, settled, finished⟩ := runSteps_finishes (evaluation slot false) old (evaluation_judges slot false) free
    exact ⟨j, judged_trans judged settled, finished, fun h => absurd h hlate, fun _ => ⟨fun h => absurd h ha, fun _ h => absurd h hn⟩⟩

end

end Sys2Proof.Machine
end

