-- ==== Sys2Proof/Proofs/InputTaken.lean ====
section
/-! SUPPORT. A disposition taken from PSC's inbox, from its plan to the end of its input (O49). -/

namespace Sys2Proof.Machine

section
variable {k y j t : Chip} {slot : Nat} {p q : Plate}

/-! ### The end of a disposition's input -/

/-- From `k` to `t` a disposition of one plate has been applied: at `y` what it does at once has been done, and at `j` its readiness judged. -/
structure Chip.disposed (k y j t : Chip) (slot : Nat) : Prop where
  tl : t.tl = k.tl
  regs : t.regs = k.regs
  others : ∀ n, n ≠ slot → t.plate n = k.plate n
  news : slot < 512 → t.psc.newsMap.getLsbD slot = true ∨ (t.psc.awaiting = true ∧ slot ∈ t.psc.newsDue)
  iu : t.iu = y.iu
  br : t.br = y.br
  imc : t.imc = y.imc
  hlc : t.hlc = y.hlc
  ready : t.psc.ready = j.psc.ready
  dmr : t.dmr = j.dmr
  awaiting : t.psc.awaiting = j.psc.awaiting
  clock : t.regs = j.regs

theorem disposed_ends {old : List (Nat × Plate)} (hs : k.standing y slot q) (hj : y.judged slot j) (ht : j.finished t old)
    (hd : k.psc.due = []) (hn : slot ∈ k.psc.newsDue) (ho : (slot, p) ∈ old) : pscGo t = t ∧ k.disposed y j t slot ∧
      t.plate slot = j.plate slot ∧ ∃ st time late overdue, t.plate slot = some (q.judgedAs st time late overdue) := by
  have due : y.psc.due = [] := by rw [hs.psc]; exact hd
  have newsDue : slot ∈ y.psc.newsDue := by rw [hs.psc]; exact hn
  obtain ⟨plates, ready, all, awaiting, lists, report, rfl, -, -, others, own⟩ := hj
  obtain ⟨st, time, late, overdue, own⟩ := own q hs.own
  have still := pscGo_finished ht due
  have news : slot < 512 → t.psc.newsMap.getLsbD slot = true ∨ (t.psc.awaiting = true ∧ slot ∈ t.psc.newsDue) := by
    intro h
    rcases ht with ⟨stop, w, -, rfl⟩ | ⟨-, m, o, r, rfl, bits⟩
    · exact .inr ⟨stop, newsDue⟩
    · exact .inl (bits slot _ p ho own newsDue h)
  obtain ⟨_, _, _, _, _, _, rfl⟩ := finished_frame ht
  exact ⟨still, ⟨hs.tl, hs.regs, fun n h => (others n h).trans (hs.others n h), news, rfl, rfl, rfl, rfl, rfl, rfl, rfl, rfl⟩, rfl,
    st, time, late, overdue, own⟩

/-- PSC begins the disposition at the head of its inbox, with the news bit of its slot due. -/
theorem exec_disposition {s : State} {d : Disposition} {rest : List PscInput} {l : List PscStep} (hk : s.chip.pscReady)
    (hi : s.chip.psc.inbox = .disposition d :: rest) (hp : applyDisposition d (newsOf d.slot (popInbox s.chip)) = (y, l)) :
    exec .dispositionApply s = .next (s.setChip (pscGo (runSteps (l ++ [.publish s.chip.psc.plates]) y))) := by
  obtain ⟨hf, -, -⟩ := hk
  obtain ⟨-, -, -, hawait, -, -⟩ := (pscFree_iff s.chip).mp hf
  have next : nextInput s.chip = some (.disposition d) := by simp [nextInput, hf, hi]
  have plan : planDisposition d (popInbox s.chip) = (y, l) := hp
  show Host.Outcome.next (s.setChip (takeDisposition s.chip)) = _
  rw [takeDisposition, hawait, Bool.and_false, next]
  simp only [Bool.false_eq_true, if_false, pscTake, beginInput, plan]
  rfl

/-! ### Plates that close (R100) -/

theorem closedAs_keeps (q : Plate) (o : Outcome) (clock : Word) : (q.closedAs o clock).charged = q.charged ∧
    (q.closedAs o clock).order = q.order ∧ (q.closedAs o clock).drumReject = q.drumReject ∧
    (q.closedAs o clock).pinsHeld = q.pinsHeld ∧ (q.closedAs o clock).status = .ended ∧ (q.closedAs o clock).breakPending = none := by
  unfold Plate.closedAs
  dsimp only
  split <;> exact ⟨rfl, rfl, rfl, rfl, rfl, rfl⟩

theorem closedAs_state {rejected : Prop} (o : Outcome) (clock : Word) (hc : q.carriersOut = p.carriersOut)
    (hr : q.drumReject = true ↔ p.drumReject = true ∨ rejected) :
    (p.carriersOut = 0 → p.drumReject = false → ¬rejected →
      (q.closedAs o clock).state = o.state ∧ (q.closedAs o clock).finalTime = clock) ∧
    (p.carriersOut ≠ 0 ∨ p.drumReject = true ∨ rejected →
      (q.closedAs o clock).state = .closing ∧ (q.closedAs o clock).closing = some o) := by
  unfold Plate.closedAs
  dsimp only
  refine ⟨fun h1 h2 h3 => ?_, fun h => ?_⟩
  · have clear : q.drumReject = false := by
      rw [← Bool.not_eq_true, hr, h2]
      simpa using h3
    rw [if_pos ⟨hc.trans h1, clear⟩]
    exact ⟨rfl, rfl⟩
  · have busy : ¬(q.carriersOut = 0 ∧ q.drumReject = false) := by
      rintro ⟨h1, h2⟩
      rcases h with h | h
      · exact h (hc.symm.trans h1)
      · rw [hr.mpr h] at h2
        exact absurd h2 (by decide)
    rw [if_neg busy]
    exact ⟨rfl, rfl⟩

/-! ### What a current disposition comes to (R105) -/

/-- A disposition finds its attempt open, and its plate neither CLOSING nor terminal. -/
def Disposition.applies (d : Disposition) (p : Plate) : Prop :=
  p.attempt = d.attempt ∧ p.status = .opened ∧ p.state ≠ .closing ∧ p.state.terminal = false

theorem live_of_applies {d : Disposition} (h : d.applies p) : p.state.live = true := by
  obtain ⟨-, -, hc, ht⟩ := h
  simp [PlateState.live, hc, ht]

theorem applyDisposition_applies {d : Disposition} (hp : k.plate d.slot = some p) (h : d.applies p) : applyDisposition d k =
    match d.severity with
    | .note => (k, [])
    | .hold => applyHold d.slot p k
    | .spoil => applySpoil d.slot p d.charged (placeAsStands p d.place) k
    | .fail => (applyFail d.slot p k, []) := by
  obtain ⟨ha, ho, hc, ht⟩ := h
  have current : (!p.isCurrent d.attempt || decide (p.state = .closing) || p.state.terminal) = false := by
    simp [Plate.isCurrent, ha, ho, hc, ht]
  unfold applyDisposition
  rw [hp]
  dsimp only
  rw [current]
  rfl

end

end Sys2Proof.Machine
end

