-- ==== Sys2Proof/Proofs/Returned.lean ====
section
/-! SUPPORT. SPOIL, FAIL and HOLD from PSC's inbox to the end of their input (O49). -/

namespace Sys2Proof.Machine

section
variable {k y t : Chip} {slot : Nat} {p q : Plate}

theorem gaveUp_congr (h : k.gaveUp y slot p) (hi : t.iu = y.iu) (hb : t.br = y.br) : k.gaveUp t slot p := by
  refine ⟨?_, ?_⟩
  · rw [hi]
    exact h.1
  · rw [Chip.discarded, hb]
    exact h.2

theorem carriersAfter_congr {attempt : Nat} {carried : Prop} (h : k.carriersAfter y slot attempt carried) (hh : t.hlc = y.hlc) :
    k.carriersAfter t slot attempt carried := by
  rw [Chip.carriersAfter, hh]
  exact h

theorem closePlate_keeps (o : Outcome) (hp : k.plate slot = some p) : (closePlate slot o k).iu = k.iu ∧ (closePlate slot o k).br = k.br ∧
    (closePlate slot o k).imc = k.imc ∧ (closePlate slot o k).hlc = k.hlc := by
  rw [closePlate_eq o hp]
  exact ⟨rfl, rfl, rfl, rfl⟩

/-- A plate stands by its readiness: READY and in the ready list, or WAITING and off it. -/
def Chip.byReadiness (t : Chip) (slot : Nat) (p q : Plate) : Prop :=
  (p.order.allReady t.iu.dir → q.state = .ready ∧ slot ∈ t.psc.ready) ∧
    (¬p.order.allReady t.iu.dir → p.order.nosepFree t.iu.dir → q.state = .waiting ∧ slot ∉ t.psc.ready)

/-- What a SPOIL comes to, by the end of its input. -/
structure Chip.spoilDone (k t : Chip) (slot : Nat) (p q : Plate) (charged : Bool) (pl : Place) : Prop where
  given : k.gaveUp t slot p
  imc : t.imc = (imcSpoilWord slot p.attempt (setPlate slot (p.spoiledBy charged pl) k)).imc
  carriers : k.carriersAfter t slot p.attempt (pl = .carrier)
  order : q.order = p.order
  counted : q.charged = (p.spoiledBy charged pl).charged
  rejected : q.drumReject = (p.spoiledBy charged pl).drumReject
  unpinned : q.pinsHeld = false
  ended : q.status = .ended
  noBreak : q.breakPending = none
  failed : p.order.budget < (p.spoiledBy charged pl).charged →
    q = Plate.closedAs { p.spoiledBy charged pl with pinsHeld := false } .failed k.regs.plantClock
  cancelled : ¬p.order.budget < (p.spoiledBy charged pl).charged → p.breakPending = some .cancel →
    q = Plate.closedAs { p.spoiledBy charged pl with pinsHeld := false } .cancelled k.regs.plantClock
  returned : ¬p.order.budget < (p.spoiledBy charged pl).charged → p.breakPending ≠ some .cancel →
    q.attempt = p.attempt ∧ t.byReadiness slot p q

end

/-! ### A disposition at the head of the inbox -/

/-- PSC, ready, has a disposition at the head of its inbox, whose slot holds a plate. -/
structure State.hasDisposition (s : State) (d : Disposition) (rest : List PscInput) (p : Plate) : Prop where
  ready : s.chip.pscReady
  inbox : s.chip.psc.inbox = .disposition d :: rest
  plate : s.chip.plate d.slot = some p

/-- The chip as PSC begins the disposition, with the news bit of its slot due. -/
def State.begun (s : State) (d : Disposition) : Chip := newsOf d.slot (popInbox s.chip)

section
variable {s : State} {d : Disposition} {rest : List PscInput} {p : Plate} {y j : Chip} {q : Plate}

theorem begun_free (h : s.hasDisposition d rest p) : pscBlocked (s.begun d) = false := not_blocked_of_free h.ready.1

theorem begun_due (h : s.hasDisposition d rest p) : (s.begun d).psc.due = [] := by
  obtain ⟨-, -, -, -, -, due⟩ := (pscFree_iff s.chip).mp h.ready.1
  exact due

theorem begun_news : d.slot ∈ (s.begun d).psc.newsDue := by simp [State.begun, newsOf, setNewsDue, Chip.setPsc]

theorem begun_entry (h : s.hasDisposition d rest p) : (d.slot, p) ∈ s.chip.psc.plates := mem_of_tblGet h.plate

theorem two_positions (h : s.hasDisposition d rest p) : p.order.positions.length ≤ 2 := by
  obtain ⟨-, -, -, -, -, -, -, -, ranges⟩ := h.ready
  exact (ranges d.slot p h.plate).2.1

/-- A disposition whose steps have come to their end. -/
theorem disposition_ends {l : List PscStep} (h : s.hasDisposition d rest p) (ha : applyDisposition d (s.begun d) = (y, l))
    (hs : (s.begun d).standing y d.slot q) (hj : y.judged d.slot j)
    (hf : j.finished (runSteps (l ++ [.publish s.chip.psc.plates]) y) s.chip.psc.plates) : ∃ t,
    exec .dispositionApply s = .next (s.setChip t) ∧ (s.begun d).disposed y j t d.slot ∧ t.plate d.slot = j.plate d.slot ∧
      ∃ st time late overdue, t.plate d.slot = some (q.judgedAs st time late overdue) := by
  obtain ⟨still, disposed, same, own⟩ := disposed_ends hs hj hf (begun_due h) begun_news (begun_entry h)
  refine ⟨_, ?_, disposed, same, own⟩
  rw [exec_disposition h.ready h.inbox ha, still]

/-- A disposition that has no steps. -/
theorem disposition_ends_at_once (h : s.hasDisposition d rest p) (ha : applyDisposition d (s.begun d) = (y, []))
    (hs : (s.begun d).standing y d.slot q) : ∃ t, exec .dispositionApply s = .next (s.setChip t) ∧
      (s.begun d).disposed y y t d.slot ∧ t.plate d.slot = some q := by
  have free : pscBlocked y = false := (standing_blocked hs).trans (begun_free h)
  obtain ⟨t, e, disposed, same, -⟩ := disposition_ends h ha hs (judged_refl _ y) (runSteps_publish _ free)
  exact ⟨t, e, disposed, same.trans hs.own⟩

/-! ### SPOIL (R107) -/

theorem spoil_closes {charged : Bool} {pl : Place} {o : Outcome} (h : s.hasDisposition d rest p)
    (ha : applyDisposition d (s.begun d) = applySpoil d.slot p charged pl (s.begun d))
    (ho : (o = .failed ∧ p.order.budget < (p.spoiledBy charged pl).charged) ∨
      (o = .cancelled ∧ ¬p.order.budget < (p.spoiledBy charged pl).charged ∧ p.breakPending = some .cancel)) :
    ∃ y j t q, exec .dispositionApply s = .next (s.setChip t) ∧ (s.begun d).disposed y j t d.slot ∧ t.plate d.slot = some q ∧
      (s.begun d).spoilDone t d.slot p q charged pl := by
  obtain ⟨standing, given, imc, carriers⟩ := spoiledAt_spec charged pl (s.begun d) d.slot p
  rw [applySpoil_eq] at ha
  generalize (s.begun d).spoiledAt d.slot p charged pl = z at ha standing given imc carriers
  obtain ⟨hiu, hbr, himc, hhlc⟩ := closePlate_keeps o standing.own
  obtain ⟨t, e, disposed, own⟩ := disposition_ends_at_once h (ha.trans (spoilOutcome_closes o standing.own ho))
    (standing_trans standing (standing_closePlate o standing.own))
  obtain ⟨k1, k2, k3, k4, k5, k6⟩ := closedAs_keeps { p.spoiledBy charged pl with pinsHeld := false } o z.regs.plantClock
  refine ⟨_, _, t, _, e, disposed, own, gaveUp_congr given (disposed.iu.trans hiu) (disposed.br.trans hbr),
    disposed.imc.trans (himc.trans imc), carriersAfter_congr carriers (disposed.hlc.trans hhlc), k2, k1, k3, k4, k5, k6, fun hb => ?_,
    fun hb hc => ?_, fun hb hc => ?_⟩
  · rcases ho with ⟨rfl, -⟩ | ⟨-, hn, -⟩
    · rw [standing.regs]
    · exact absurd hb hn
  · rcases ho with ⟨-, hn⟩ | ⟨rfl, -, -⟩
    · exact absurd hn hb
    · rw [standing.regs]
  · rcases ho with ⟨-, hn⟩ | ⟨-, -, hn⟩
    · exact absurd hn hb
    · exact absurd hn hc

theorem spoil_returns {charged : Bool} {pl : Place} (h : s.hasDisposition d rest p) (hl : p.state.live = true)
    (ha : applyDisposition d (s.begun d) = applySpoil d.slot p charged pl (s.begun d))
    (hb : ¬p.order.budget < (p.spoiledBy charged pl).charged) (hc : p.breakPending ≠ some .cancel) :
    ∃ y j t q, exec .dispositionApply s = .next (s.setChip t) ∧ (s.begun d).disposed y j t d.slot ∧ t.plate d.slot = some q ∧
      (s.begun d).spoilDone t d.slot p q charged pl := by
  obtain ⟨standing, given, imc, carriers⟩ := spoiledAt_spec charged pl (s.begun d) d.slot p
  rw [applySpoil_eq] at ha
  generalize (s.begun d).spoiledAt d.slot p charged pl = z at ha standing given imc carriers
  let r : Plate := Plate.attemptOver { p.spoiledBy charged pl with pinsHeld := false }
  have back : (s.begun d).standing (setPlate d.slot r (leaveReady d.slot z)) d.slot r :=
    standing_trans standing (standing_trans (standing_leaveReady standing.own) (standing_setPlate d.slot r _))
  have two := two_positions h
  obtain ⟨j, judged, finished, ready, waiting⟩ := return_finishes s.chip.psc.plates ((standing_blocked back).trans (begun_free h))
    back.own two hl
  obtain ⟨t, e, disposed, same, st, time, late, overdue, own⟩ :=
    disposition_ends h (ha.trans (spoilOutcome_returns standing.own hb hc)) back judged finished
  have dir : t.iu.dir = z.iu.dir := congrArg IntakeUnit.dir disposed.iu
  refine ⟨_, j, t, _, e, disposed, own, gaveUp_congr given disposed.iu disposed.br, disposed.imc.trans imc,
    carriersAfter_congr carriers disposed.hlc, rfl, rfl, rfl, rfl, rfl, rfl, fun g => absurd g hb, fun _ g => absurd g hc,
    fun _ _ => ⟨rfl, fun ar => ?_, fun ar nf => ?_⟩⟩
  · rw [dir] at ar
    obtain ⟨-, -, now, mem⟩ := ready ar
    rw [disposed.ready]
    cases (same.symm.trans own).symm.trans now
    exact ⟨rfl, mem⟩
  · rw [dir] at ar nf
    obtain ⟨off, early, due⟩ := waiting ar nf
    rw [disposed.ready]
    by_cases hl : Plate.lateDue { r with state := .waiting } z z.regs.plantClock
    · obtain ⟨-, now, -⟩ := due hl
      cases (same.symm.trans own).symm.trans now
      exact ⟨rfl, off⟩
    · obtain ⟨-, -, now⟩ := early hl
      cases (same.symm.trans own).symm.trans now
      exact ⟨rfl, off⟩

theorem spoil_ends {charged : Bool} {pl : Place} (h : s.hasDisposition d rest p) (hl : p.state.live = true)
    (ha : applyDisposition d (s.begun d) = applySpoil d.slot p charged pl (s.begun d)) :
    ∃ y j t q, exec .dispositionApply s = .next (s.setChip t) ∧ (s.begun d).disposed y j t d.slot ∧ t.plate d.slot = some q ∧
      (s.begun d).spoilDone t d.slot p q charged pl := by
  by_cases hb : p.order.budget < (p.spoiledBy charged pl).charged
  · exact spoil_closes h ha (.inl ⟨rfl, hb⟩)
  by_cases hc : p.breakPending = some .cancel
  · exact spoil_closes h ha (.inr ⟨rfl, hb, hc⟩)
  · exact spoil_returns h hl ha hb hc

/-! ### FAIL (R109) -/

theorem failedAt_congr {k z t : Chip} {slot : Nat} (h : k.failedAt z slot p q) (hiu : t.iu = z.iu) (hbr : t.br = z.br)
    (himc : t.imc = z.imc) (hhlc : t.hlc = z.hlc) : k.failedAt t slot p q :=
  ⟨h.plate, h.rejected, fun hs => ⟨(h.relieved hs).1, gaveUp_congr (h.relieved hs).2 hiu hbr⟩,
    fun hs => ⟨hiu.trans (h.kept hs).1, hbr.trans (h.kept hs).2⟩, fun hs => himc.trans (h.imc hs), carriersAfter_congr h.carriers hhlc⟩

/-- By the end of a FAIL's input the plate `x`, relieved by its state, has been closed. -/
theorem fail_ends (h : s.hasDisposition d rest p) (happ : d.applies p)
    (ha : applyDisposition d (s.begun d) = (applyFail d.slot p (s.begun d), [])) : ∃ (y j t : Chip) (x : Plate),
      exec .dispositionApply s = .next (s.setChip t) ∧ (s.begun d).disposed y j t d.slot ∧
      t.plate d.slot = some (x.closedAs .failed s.chip.regs.plantClock) ∧ (s.begun d).failedAt t d.slot p x := by
  obtain ⟨-, -, hc, ht⟩ := happ
  have here : (s.begun d).plate d.slot = some p := h.plate
  obtain ⟨x, standing, failed⟩ := failStage_spec here hc ht
  rw [applyFail_eq] at ha
  generalize failStage d.slot p (s.begun d) = z at ha standing failed
  obtain ⟨hiu, hbr, himc, hhlc⟩ := closePlate_keeps .failed standing.own
  obtain ⟨t, e, disposed, own⟩ := disposition_ends_at_once h ha (standing_trans standing (standing_closePlate .failed standing.own))
  have clock : z.regs.plantClock = s.chip.regs.plantClock := congrArg Registers.plantClock standing.regs
  rw [clock] at own
  exact ⟨_, _, t, x, e, disposed, own, failedAt_congr failed (disposed.iu.trans hiu) (disposed.br.trans hbr)
    (disposed.imc.trans himc) (disposed.hlc.trans hhlc)⟩

/-! ### HOLD before exposure (R106) -/

theorem hold_ends (h : s.hasDisposition d rest p) (hl : p.state.live = true)
    (ha : applyDisposition d (s.begun d) = holdWithdraw d.slot p.attempt (s.begun d)) : ∃ y j t q,
      exec .dispositionApply s = .next (s.setChip t) ∧ (s.begun d).disposed y j t d.slot ∧ t.plate d.slot = some q ∧
      (s.begun d).gaveUp t d.slot p ∧ s.chip.hlc.sameStages t.hlc ∧
      q.order = p.order ∧ q.status = p.status ∧ q.attempt = p.attempt ∧ q.charged = p.charged ∧ q.pinsHeld = false ∧
      (Plate.lateDue { p with state := .waiting } s.chip s.chip.regs.plantClock → q.state = .waiting ∧
        s.chip.pscMarked t d.slot .late .note (waitedAttempt p) none (lateThreshold s.chip p)) ∧
      (¬Plate.lateDue { p with state := .waiting } s.chip s.chip.regs.plantClock → t.byReadiness d.slot p q) := by
  have here : (s.begun d).plate d.slot = some p := h.plate
  have relieved := withdraw_relieves p.attempt here
  have standing := standing_relieved relieved
  have given := gaveUp_relieved relieved
  have stages := sameStages_relieved relieved
  have plan : applyDisposition d (s.begun d) =
      (withdraw d.slot p.attempt (s.begun d), .waiting d.slot :: evaluation d.slot false) := ha
  generalize withdraw d.slot p.attempt (s.begun d) = z at plan standing given stages
  have two := two_positions h
  obtain ⟨j, judged, finished, late, early⟩ := hold_finishes s.chip.psc.plates ((standing_blocked standing).trans (begun_free h))
    standing.own two hl
  obtain ⟨t, e, disposed, same, st, time, hlate, hoverdue, own⟩ := disposition_ends h plan standing judged finished
  have dir : t.iu.dir = z.iu.dir := congrArg IntakeUnit.dir disposed.iu
  have due : Plate.lateDue { p with state := .waiting } s.chip s.chip.regs.plantClock ↔
      Plate.lateDue { p with state := .waiting, pinsHeld := false } z z.regs.plantClock := by
    rw [standing.regs, Plate.lateDue, Plate.lateDue, Chip.lay, Chip.lay, standing.pd]
    rfl
  have threshold : lateThreshold z { p with pinsHeld := false } = lateThreshold s.chip p := by
    rw [lateThreshold, lateThreshold, Chip.lay, Chip.lay, standing.pd]
    rfl
  refine ⟨_, j, t, _, e, disposed, own, gaveUp_congr given disposed.iu disposed.br, ?_, rfl, rfl, rfl, rfl, rfl,
    fun hd => ?_, fun hd => ⟨fun ar => ?_, fun ar nf => ?_⟩⟩
  · rw [disposed.hlc]
    exact stages
  · obtain ⟨now, marked⟩ := late (due.mp hd)
    cases (same.symm.trans own).symm.trans now
    rw [threshold] at marked
    exact ⟨rfl, pscMarked_congr marked standing.dmr.symm disposed.dmr disposed.awaiting (congrArg Registers.plantClock disposed.clock)⟩
  · obtain ⟨time, now, mem⟩ := (early (mt due.mpr hd)).1 (by rw [← dir]; exact ar)
    cases (same.symm.trans own).symm.trans now
    rw [disposed.ready]
    exact ⟨rfl, mem⟩
  · obtain ⟨now, off⟩ := (early (mt due.mpr hd)).2 (by rw [← dir]; exact ar) (by rw [← dir]; exact nf)
    cases (same.symm.trans own).symm.trans now
    rw [disposed.ready]
    exact ⟨rfl, off⟩

end

end Sys2Proof.Machine
end

