-- ==== Sys2Proof/Proofs/Kinds.lean ====
section
/-! SUPPORT. Which disposition does what with a plate (O49). -/

namespace Sys2Proof.Machine

/-! ### The questions of R105 -/

/-- A SPOIL, or a HOLD once exposure has begun or in FINISHING. -/
def Disposition.spoils (d : Disposition) (p : Plate) (begun : Bool) : Prop :=
  d.severity = .spoil ∨ (d.severity = .hold ∧ ((p.state = .imaging ∧ begun = true) ∨ p.state = .finishing))

/-- The physical plate on the drum is rejected. -/
def Disposition.rejects (d : Disposition) (p : Plate) (begun : Bool) : Prop :=
  (d.severity = .spoil ∧ d.place = .drum ∧ p.state ≠ .finishing) ∨
    ((d.severity = .hold ∨ d.severity = .fail) ∧ p.state = .imaging ∧ begun = true)

/-- The physical plate is a carrier. -/
def Disposition.carried (d : Disposition) (p : Plate) : Prop :=
  (d.severity = .spoil ∧ (d.place = .carrier ∨ (d.place = .drum ∧ p.state = .finishing))) ∨
    ((d.severity = .hold ∨ d.severity = .fail) ∧ p.state = .finishing)

/-- A plate that HOLD withdraws. -/
def Plate.drawn (p : Plate) (begun : Bool) : Prop := p.state = .preparing ∨ (p.state = .imaging ∧ begun = false)

section
variable {s : State} {d : Disposition} {rest : List PscInput} {p : Plate}

theorem placeAsStands_drum (p : Plate) (pl : Place) : placeAsStands p pl = .drum ↔ pl = .drum ∧ p.state ≠ .finishing := by
  unfold placeAsStands
  split
  · next h => simp [h.1]
  · next h => exact ⟨fun e => ⟨e, fun hf => h ⟨hf, e⟩⟩, fun e => e.1⟩

theorem placeAsStands_carrier (p : Plate) (pl : Place) :
    placeAsStands p pl = .carrier ↔ pl = .carrier ∨ (pl = .drum ∧ p.state = .finishing) := by
  unfold placeAsStands
  split
  · next h => simp [h.1, h.2]
  · next h => exact ⟨.inl, fun e => e.resolve_right (fun g => h ⟨g.2, g.1⟩)⟩

/-- A disposition that spoils comes to one SPOIL, with what it charges and the place as it stands. -/
theorem spoil_plan (h : s.hasDisposition d rest p) (ha : d.applies p)
    (hs : d.spoils p (exposureBegun s.chip d.slot p.attempt)) : ∃ charged pl,
      applyDisposition d (s.begun d) = applySpoil d.slot p charged pl (s.begun d) ∧
      (charged = true ↔ d.severity = .spoil ∧ d.charged = true) ∧
      (pl = .drum ↔ d.rejects p (exposureBegun s.chip d.slot p.attempt)) ∧ (pl = .carrier ↔ d.carried p) := by
  have plan := applyDisposition_applies (k := s.begun d) h.plate ha
  rcases hs with hs | ⟨hs, (⟨hi, hb⟩ | hf)⟩
  · refine ⟨d.charged, placeAsStands p d.place, ?_, by simp [hs], ?_, ?_⟩
    · rw [plan, hs]
    · rw [placeAsStands_drum]
      simp [Disposition.rejects, hs]
    · rw [placeAsStands_carrier]
      simp [Disposition.carried, hs]
  · have begun : exposureBegun (s.begun d) d.slot p.attempt = true := hb
    refine ⟨false, .drum, ?_, by simp [hs], iff_of_true rfl (.inr ⟨.inl hs, hi, hb⟩), iff_of_false (by decide) ?_⟩
    · rw [plan, hs]
      simp only [applyHold, hi, begun, if_true]
    · simp [Disposition.carried, hs, hi]
  · refine ⟨false, .carrier, ?_, by simp [hs], iff_of_false (by decide) ?_, iff_of_true rfl (.inr ⟨.inl hs, hf⟩)⟩
    · rw [plan, hs]
      simp only [applyHold, hf]
    · simp [Disposition.rejects, hs, hf]

theorem hold_plan (h : s.hasDisposition d rest p) (ha : d.applies p) (hh : d.severity = .hold)
    (hd : p.drawn (exposureBegun s.chip d.slot p.attempt)) :
    applyDisposition d (s.begun d) = holdWithdraw d.slot p.attempt (s.begun d) := by
  rw [applyDisposition_applies (k := s.begun d) h.plate ha, hh]
  rcases hd with hd | ⟨hd, hb⟩
  · simp only [applyHold, hd]
  · have begun : exposureBegun (s.begun d) d.slot p.attempt = false := hb
    simp only [applyHold, hd, begun]
    rfl

theorem fail_plan (h : s.hasDisposition d rest p) (ha : d.applies p) (hf : d.severity = .fail) :
    applyDisposition d (s.begun d) = (applyFail d.slot p (s.begun d), []) := by
  rw [applyDisposition_applies (k := s.begun d) h.plate ha, hf]

/-- What finds nothing to do: no current plate, a NOTE, a HOLD in WAITING or READY. -/
def Disposition.quiet (d : Disposition) (p : Plate) : Prop :=
  ¬d.applies p ∨ d.severity = .note ∨ (d.severity = .hold ∧ (p.state = .waiting ∨ p.state = .ready))

theorem quiet_plan (h : s.hasDisposition d rest p) (hq : d.quiet p) : applyDisposition d (s.begun d) = (s.begun d, []) := by
  by_cases ha : d.applies p
  · rw [applyDisposition_applies (k := s.begun d) h.plate ha]
    rcases hq with hq | hq | ⟨hh, hs⟩
    · exact absurd ha hq
    · rw [hq]
    · rw [hh]
      rcases hs with hs | hs <;> simp only [applyHold, hs]
  · refine applyDisposition_idle fun x hx => ?_
    cases (show (s.begun d).plate d.slot = some p from h.plate).symm.trans hx
    by_contra none
    simp only [not_or, not_not, Bool.not_eq_true] at none
    obtain ⟨-, h1, h2, h3, h4⟩ := none
    exact ha ⟨h1, h2, h3, h4⟩

/-- Every disposition is one of the four. -/
theorem disposition_kinds (ha : d.applies p) (begun : Bool) :
    d.quiet p ∨ d.spoils p begun ∨ d.severity = .fail ∨ (d.severity = .hold ∧ p.drawn begun) := by
  obtain ⟨-, -, hc, ht⟩ := ha
  cases hs : d.severity with
  | note => exact .inl (.inr (.inl hs))
  | spoil => exact .inr (.inl (.inl hs))
  | fail => exact .inr (.inr (.inl rfl))
  | hold =>
    cases hp : p.state with
    | waiting => exact .inl (.inr (.inr ⟨hs, .inl hp⟩))
    | ready => exact .inl (.inr (.inr ⟨hs, .inr hp⟩))
    | preparing => exact .inr (.inr (.inr ⟨rfl, .inl hp⟩))
    | imaging =>
      cases begun with
      | true => exact .inr (.inl (.inr ⟨hs, .inl ⟨hp, rfl⟩⟩))
      | false => exact .inr (.inr (.inr ⟨rfl, .inr ⟨hp, rfl⟩⟩))
    | finishing => exact .inr (.inl (.inr ⟨hs, .inr hp⟩))
    | closing => exact absurd hp hc
    | done => simp [hp, PlateState.terminal] at ht
    | failed => simp [hp, PlateState.terminal] at ht
    | cancelled => simp [hp, PlateState.terminal] at ht
    | refused => simp [hp, PlateState.terminal] at ht

end

/-! ### The carriers, spelled out (R185) -/

theorem sameStages_or_spoiled {k t : Chip} {slot attempt : Nat} {applies carried : Prop}
    (hc : applies → k.carriersAfter t slot attempt carried) (hn : ¬applies → k.hlc.sameStages t.hlc) :
    (applies → carried → k.goodCarrier slot attempt → k.hlc.stagesSpoiled t.hlc slot attempt) ∧
      (¬carried ∨ (∀ c ∈ k.hlc.carriers, c.slot = some slot ∧ c.attempt = attempt → c.spoiled = true) → k.hlc.sameStages t.hlc) := by
  have none (h : ∀ c ∈ k.hlc.carriers, c.slot = some slot ∧ c.attempt = attempt → c.spoiled = true) : ¬k.goodCarrier slot attempt := by
    rintro ⟨c, hm, mine, good⟩
    rw [h c hm mine] at good
    cases good
  refine ⟨fun ha hcar hg => (hc ha).1 hcar hg, fun h => ?_⟩
  by_cases ha : applies
  · exact (hc ha).2 (h.imp_right none)
  · exact hn ha

/-- The waiting requests of a slot and attempt rewritten, spelled out by their kinds. -/
def rejectedRequests (slot attempt : Nat) (l : List Request) : List Request := l.map (fun r =>
  if r.slot = some slot ∧ r.attempt = attempt then
    match r.kind with
    | .punch _ => { r with kind := .punch false }
    | .process _ => { r with kind := .process false }
    | .route _ => { r with kind := .route 15 }
    | _ => r
  else r)

theorem rejectWaiting_eq (slot attempt : Nat) (u : UnitState) :
    u.rejectWaiting slot attempt = { u with queue := rejectedRequests slot attempt u.queue } := by
  have each (r : Request) : (if r.slot = some slot ∧ r.attempt = attempt then { r with kind := r.kind.toReject } else r) =
      (if r.slot = some slot ∧ r.attempt = attempt then
        match r.kind with
        | .punch _ => { r with kind := .punch false }
        | .process _ => { r with kind := .process false }
        | .route _ => { r with kind := .route 15 }
        | _ => r
      else r) := by
    obtain ⟨kind, _, _, _⟩ := r
    cases kind <;> rfl
  exact congrArg (fun g => ({ u with queue := u.queue.map g } : UnitState)) (funext each)

theorem stagesSpoiled_iff {h h' : HandlerLine} {slot attempt : Nat} : h.stagesSpoiled h' slot attempt ↔
    h'.carriers = h.carriers.map (fun c => if c.slot = some slot ∧ c.attempt = attempt then { c with spoiled := true } else c) ∧
      h'.punch = { h.punch with queue := rejectedRequests slot attempt h.punch.queue } ∧
      h'.processor = { h.processor with queue := rejectedRequests slot attempt h.processor.queue } ∧
      h'.sorter = { h.sorter with queue := rejectedRequests slot attempt h.sorter.queue } := by
  simp only [HandlerLine.stagesSpoiled, rejectWaiting_eq]

theorem quiet_excludes {d : Disposition} {p : Plate} {begun : Bool} (h : d.quiet p) (ha : d.applies p) :
    ¬d.spoils p begun ∧ d.severity ≠ .fail ∧ ¬(d.severity = .hold ∧ p.drawn begun) ∧ ¬d.carried p := by
  rcases h with h | h | ⟨hh, hs⟩
  · exact absurd ha h
  · simp [Disposition.spoils, Disposition.carried, h]
  · rcases hs with hs | hs <;> simp [Disposition.spoils, Disposition.carried, Plate.drawn, hh, hs]

theorem spoils_excludes {d : Disposition} {p : Plate} {begun : Bool} (h : d.spoils p begun) :
    d.severity ≠ .fail ∧ ¬(d.severity = .hold ∧ p.drawn begun) := by
  rcases h with h | ⟨hh, (⟨hs, hb⟩ | hs)⟩
  · simp [h]
  · simp [hh, Plate.drawn, hs, hb]
  · simp [hh, Plate.drawn, hs]

theorem spoiledBy_charged {p : Plate} {charged : Bool} {pl : Place} {c : Prop} [Decidable c] (h : charged = true ↔ c) :
    (p.spoiledBy charged pl).charged = p.charged + if c then 1 else 0 := by
  unfold Plate.spoiledBy
  cases charged with
  | true => simp [h.mp rfl]
  | false => simp [show ¬c from fun g => nomatch h.mpr g]

end Sys2Proof.Machine
end

