-- ==== Sys2Proof/Proofs/PlatesMoved.lean ====
section
/-! SUPPORT. Where each kind of disposition leaves its plate, and the statement on dispositions as a whole (O49). -/

namespace Sys2Proof.Machine

/-! ### Where a disposition leaves its plate -/

/-- A plate `p` has been closed with an outcome, at once or through CLOSING (R100). -/
def Plate.closedTo (p q : Plate) (rejected : Prop) (o : Outcome) (clock : Word) : Prop :=
  q.status = .ended ∧ q.breakPending = none ∧
    (p.carriersOut = 0 → p.drumReject = false → ¬rejected → q.state = o.state ∧ q.finalTime = clock) ∧
    (p.carriersOut ≠ 0 ∨ p.drumReject = true ∨ rejected → q.state = .closing ∧ q.closing = some o)

theorem closedTo_closedAs {p x : Plate} {rejected : Prop} (o : Outcome) (clock : Word) (hc : x.carriersOut = p.carriersOut)
    (hr : x.drumReject = true ↔ p.drumReject = true ∨ rejected) : p.closedTo (x.closedAs o clock) rejected o clock := by
  obtain ⟨-, -, -, -, ended, noBreak⟩ := closedAs_keeps x o clock
  exact ⟨ended, noBreak, closedAs_state o clock hc hr⟩

/-- Where a disposition leaves the chip and its plate, case by case (R101, R105, R106, R107, R109, R166, R185). -/
structure State.moved (s : State) (d : Disposition) (p : Plate) (t : Chip) (q : Plate) : Prop where
  quiet : d.quiet p → q = p ∧ t.iu = s.chip.iu ∧ t.br = s.chip.br ∧ t.imc = s.chip.imc ∧ t.hlc = s.chip.hlc
  spoiled : d.applies p → d.spoils p (exposureBegun s.chip d.slot p.attempt) →
    let charged := p.charged + (if d.severity = .spoil ∧ d.charged = true then 1 else 0)
    let rejected := d.rejects p (exposureBegun s.chip d.slot p.attempt)
    q.charged = charged ∧ (q.pinsHeld = false ∧ s.chip.gaveUp t d.slot p) ∧ (q.drumReject = true ↔ p.drumReject = true ∨ rejected) ∧
      (p.order.budget < charged → p.closedTo q rejected .failed s.chip.regs.plantClock) ∧
      (charged ≤ p.order.budget → p.breakPending = some .cancel → p.closedTo q rejected .cancelled s.chip.regs.plantClock) ∧
      (charged ≤ p.order.budget → p.breakPending ≠ some .cancel →
        q.status = .ended ∧ q.breakPending = none ∧ q.attempt = p.attempt ∧ t.byReadiness d.slot p q)
  failed : d.applies p → d.severity = .fail → q.charged = p.charged ∧
    p.closedTo q (d.rejects p (exposureBegun s.chip d.slot p.attempt)) .failed s.chip.regs.plantClock ∧
    (p.state = .preparing ∨ p.state = .imaging → q.pinsHeld = false ∧ s.chip.gaveUp t d.slot p) ∧
    (p.state = .waiting ∨ p.state = .ready ∨ p.state = .finishing → t.iu = s.chip.iu ∧ t.br = s.chip.br)
  held : d.applies p → d.severity = .hold → p.drawn (exposureBegun s.chip d.slot p.attempt) →
    q.status = .opened ∧ q.attempt = p.attempt ∧ q.charged = p.charged ∧ (q.pinsHeld = false ∧ s.chip.gaveUp t d.slot p) ∧
    (Plate.lateDue { p with state := .waiting } s.chip s.chip.regs.plantClock → q.state = .waiting ∧
      s.chip.pscMarked t d.slot .late .note p.attempt none (lateThreshold s.chip p)) ∧
    (¬Plate.lateDue { p with state := .waiting } s.chip s.chip.regs.plantClock → t.byReadiness d.slot p q)
  drum : ∀ dr w, d.applies p →
    d.spoils p (exposureBegun s.chip d.slot p.attempt) ∨ (d.severity = .fail ∧ s.chip.failRejects d.slot p) →
    s.chip.imc.drum = some dr → dr.owner = some w → w.slot = d.slot → w.attempt = p.attempt → s.chip.hlc.unloadEnd = .none →
    dr.cond ≠ .unexposed ∨ (s.chip.imc.state = .exposing ∧ s.chip.imc.exposure.begun = true) →
    t.imc.drum = some { dr with cond := .spoiled, confirmed := true }
  stages : d.applies p → s.chip.carriersAfter t d.slot p.attempt (d.carried p)
  still : ¬d.applies p → s.chip.hlc.sameStages t.hlc

/-- Where a disposition taken from the inbox leaves the machine. -/
def State.movesTo (s : State) (d : Disposition) (p : Plate) (t : Chip) (q : Plate) : Prop :=
  exec .dispositionApply s = .next (s.setChip t) ∧ (∃ y j, (s.begun d).disposed y j t d.slot) ∧ t.plate d.slot = some q ∧
    q.order = p.order ∧ s.moved d p t q

section
variable {s : State} {d : Disposition} {rest : List PscInput} {p : Plate}

theorem quiet_moves (h : s.hasDisposition d rest p) (hq : d.quiet p) : ∃ t q, s.movesTo d p t q := by
  obtain ⟨t, e, D, own⟩ := disposition_ends_at_once h (quiet_plan h hq) (standing_refl (k := s.begun d) h.plate)
  have same : s.chip.hlc.sameStages t.hlc := by
    rw [D.hlc]
    exact ⟨rfl, rfl, rfl, rfl⟩
  have not (ha : d.applies p) := quiet_excludes (begun := exposureBegun s.chip d.slot p.attempt) hq ha
  refine ⟨t, p, e, ⟨_, _, D⟩, own, rfl, fun _ => ⟨rfl, D.iu, D.br, D.imc, D.hlc⟩, fun ha hs => ?_, fun ha hf => ?_, fun ha hh hd => ?_,
    fun dr w ha hs => ?_, fun ha => ?_, fun _ => same⟩ <;> obtain ⟨noSpoil, noFail, noHold, notCarried⟩ := not ha
  · exact absurd hs noSpoil
  · exact absurd hf noFail
  · exact absurd ⟨hh, hd⟩ noHold
  · exact (hs.elim noSpoil (fun hs => noFail hs.1)).elim
  · exact carriersAfter_same same notCarried

theorem spoil_moves (h : s.hasDisposition d rest p) (ha : d.applies p) (hq : ¬d.quiet p)
    (hs : d.spoils p (exposureBegun s.chip d.slot p.attempt)) : ∃ t q, s.movesTo d p t q := by
  obtain ⟨c, pl, plan, hc, hdrum, hcar⟩ := spoil_plan h ha hs
  obtain ⟨y, j, t, q, e, D, own, S⟩ := spoil_ends h (live_of_applies ha) plan
  obtain ⟨noFail, noHold⟩ := spoils_excludes hs
  have counted := spoiledBy_charged (p := p) (pl := pl) hc
  have reject : (p.drumReject || decide (pl = .drum)) = true ↔
      p.drumReject = true ∨ d.rejects p (exposureBegun s.chip d.slot p.attempt) := by
    rw [Bool.or_eq_true, decide_eq_true_iff, hdrum]
  have closes (o : Outcome) (hq : q = Plate.closedAs { p.spoiledBy c pl with pinsHeld := false } o s.chip.regs.plantClock) :
      p.closedTo q (d.rejects p (exposureBegun s.chip d.slot p.attempt)) o s.chip.regs.plantClock := by
    rw [hq]
    exact closedTo_closedAs o _ rfl reject
  refine ⟨t, q, e, ⟨y, j, D⟩, own, S.order, fun hn => absurd hn hq, fun _ _ => ⟨S.counted.trans counted, ⟨S.unpinned, S.given⟩, ?_,
    fun hb => ?_, fun hb hc => ?_, fun hb hc => ?_⟩, fun _ hf => absurd hf noFail, fun _ hh hd => absurd ⟨hh, hd⟩ noHold,
    fun dr w _ _ hdr how hws hwa hu hcond => ?_, fun _ => ?_, fun hn => absurd ha hn⟩
  · rw [S.rejected]
    exact reject
  · exact closes .failed (S.failed (by rw [counted]; exact hb))
  · exact closes .cancelled (S.cancelled (by rw [counted]; exact Nat.not_lt.mpr hb) hc)
  · obtain ⟨same, ready⟩ := S.returned (by rw [counted]; exact Nat.not_lt.mpr hb) hc
    exact ⟨S.ended, S.noBreak, same, ready⟩
  · rw [S.imc]
    exact imcSpoilWord_drum (k := setPlate d.slot (p.spoiledBy c pl) (s.begun d)) hdr how hws hwa hu hcond
  · rw [← propext hcar]
    exact S.carriers

theorem fail_moves (h : s.hasDisposition d rest p) (ha : d.applies p) (hq : ¬d.quiet p) (hf : d.severity = .fail) :
    ∃ t q, s.movesTo d p t q := by
  obtain ⟨y, j, t, x, e, D, own, F⟩ := fail_ends h ha (fail_plan h ha hf)
  obtain ⟨kcharged, korder, -, kpins, -, -⟩ := closedAs_keeps x .failed s.chip.regs.plantClock
  have order : x.order = p.order := by rw [F.plate]
  have counted : x.charged = p.charged := by rw [F.plate]
  have out : x.carriersOut = p.carriersOut := by rw [F.plate]
  have noSpoil : ¬d.spoils p (exposureBegun s.chip d.slot p.attempt) := fun hs => (spoils_excludes hs).1 hf
  have rejects : d.rejects p (exposureBegun s.chip d.slot p.attempt) ↔ (s.begun d).failRejects d.slot p :=
    ⟨fun g => (g.resolve_left (fun g => absurd (hf.symm.trans g.1) (by decide))).2, fun g => .inr ⟨.inr hf, g⟩⟩
  have carriers : d.carried p ↔ p.state = .finishing := by simp [Disposition.carried, hf]
  refine ⟨t, _, e, ⟨y, j, D⟩, own, korder.trans order, fun hn => absurd hn hq, fun _ hs => absurd hs noSpoil,
    fun _ _ => ⟨kcharged.trans counted, closedTo_closedAs .failed _ out (by rw [rejects]; exact F.rejected),
      fun hs => ⟨kpins.trans (F.relieved hs).1, (F.relieved hs).2⟩, F.kept⟩,
    fun _ hh => absurd (hf.symm.trans hh) (by decide), fun dr w _ hs hdr how hws hwa hu hcond => ?_, fun _ => ?_, fun hn => absurd ha hn⟩
  · rw [F.imc (hs.resolve_left noSpoil).2]
    exact imcSpoilWord_drum (k := setPlate d.slot { p with drumReject := true } (s.begun d)) hdr how hws hwa hu hcond
  · rw [propext carriers]
    exact F.carriers

theorem hold_moves (h : s.hasDisposition d rest p) (ha : d.applies p) (hq : ¬d.quiet p) (hh : d.severity = .hold)
    (hd : p.drawn (exposureBegun s.chip d.slot p.attempt)) : ∃ t q, s.movesTo d p t q := by
  obtain ⟨y, j, t, q, e, D, own, given, stages, horder, hstatus, hattempt, hcharged, hpins, late, early⟩ :=
    hold_ends h (live_of_applies ha) (hold_plan h ha hh hd)
  obtain ⟨-, opened, -, -⟩ := id ha
  have noSpoil : ¬d.spoils p (exposureBegun s.chip d.slot p.attempt) := fun hs => (spoils_excludes hs).2 ⟨hh, hd⟩
  have noFail : d.severity ≠ .fail := fun hf => absurd (hf.symm.trans hh) (by decide)
  have notCarried : ¬d.carried p := by
    rcases hd with hd | ⟨hd, -⟩ <;> simp [Disposition.carried, hh, hd]
  have attempt : waitedAttempt p = p.attempt := by simp [waitedAttempt, opened]
  rw [attempt] at late
  exact ⟨t, q, e, ⟨y, j, D⟩, own, horder, fun hn => absurd hn hq, fun _ hs => absurd hs noSpoil, fun _ hf => absurd hf noFail,
    fun _ _ _ => ⟨hstatus.trans opened, hattempt, hcharged, ⟨hpins, given⟩, late, early⟩,
    fun dr w _ hs => (hs.elim noSpoil (fun hs => noFail hs.1)).elim, fun _ => carriersAfter_same stages notCarried, fun hn => absurd ha hn⟩

/-- A disposition at the head of the inbox moves its plate by its kind. -/
theorem disposition_moves (h : s.hasDisposition d rest p) : ∃ t q, s.movesTo d p t q := by
  by_cases hq : d.quiet p
  · exact quiet_moves h hq
  have ha : d.applies p := by
    by_contra ha
    exact hq (.inl ha)
  rcases (disposition_kinds ha (exposureBegun s.chip d.slot p.attempt)).resolve_left hq with hs | hf | ⟨hh, hd⟩
  · exact spoil_moves h ha hq hs
  · exact fail_moves h ha hq hf
  · exact hold_moves h ha hq hh hd

end

/-! ### The statement's parts -/

/-- The disposition sent is a HOLD judged again, or the one queued. -/
theorem disposition_sent {s : State} {d : Disposition} {ds : List Disposition} (hw : s.chip.working = true)
    (hd : s.chip.dmr.toSend = d :: ds) : let e := judgeAgain s.chip d
    exec .dispositionSend s = .next { s with chip := { s.chip with
      dmr := { s.chip.dmr with toSend := ds }
      psc := (if d.own = true then { s.chip.psc with answer := some e }
        else { s.chip.psc with inbox := s.chip.psc.inbox ++ [.disposition e] }) } } ∧
      e.slot = d.slot ∧ e.attempt = d.attempt ∧ e.own = d.own := by
  intro e
  have kept : e.slot = d.slot ∧ e.attempt = d.attempt ∧ e.own = d.own := by
    dsimp only [e, judgeAgain]
    split <;> exact ⟨rfl, rfl, rfl⟩
  obtain ⟨-, -, own⟩ := id kept
  refine ⟨?_, kept⟩
  rw [exec_dispositionSend hw hd, tellDisposition, own]
  cases d.own <;> rfl

theorem judgeAgain_spec {k : Chip} {d : Disposition} :
    let exposed := exposureBegun k d.slot d.attempt
    let finishing := ∃ p, k.plate d.slot = some p ∧ p.state = .finishing ∧ p.attempt = d.attempt ∧ p.status = .opened
    (d.severity ≠ .hold ∨ (exposed = false ∧ ¬finishing) → judgeAgain k d = d) ∧
      (d.severity = .hold → exposed = true ∨ finishing → (judgeAgain k d).severity = .spoil ∧ (judgeAgain k d).charged = false ∧
        (judgeAgain k d).place = if exposed = true then .drum else .carrier) := by
  intro exposed finishing
  have judged : aluminiumExposed k d.slot d.attempt = true ↔ exposed = true ∨ finishing := by
    rw [aluminiumExposed, Bool.or_eq_true, finishingCurrent_exists]
  refine ⟨fun h => judgeAgain_stays (h.imp_right fun none => ?_), fun hh hx => ?_⟩
  · rw [← Bool.not_eq_true, judged]
    simp [none]
  · have asked : askedPlace k d.slot d.attempt = if exposed = true then .drum else .carrier := by
      rcases hx with h | h
      · simp [askedPlace, show exposureBegun k d.slot d.attempt = true from h, h]
      · simp only [askedPlace, finishingCurrent_exists.mpr h, if_true]
        rfl
    rw [judgeAgain_spoils hh (judged.mpr hx)]
    exact ⟨rfl, rfl, asked⟩

/-- While PSC is not free it takes no input. -/
theorem exec_not_free {s : State} {c : Instr} (hf : pscFree s.chip = false)
    (hc : c = .selection ∨ c = .pageReport ∨ c = .exposingEntryReport ∨ c = .exposureEndReport ∨ c = .renderFinished ∨
      c = .carrierCreated ∨ c = .carrierRemoved ∨ (c = .dispositionApply ∧ (s.chip.psc.awaiting = false ∨ s.chip.psc.answer = none))) :
    exec c s = .next s := by
  have idle := nextInput_none hf
  rcases hc with rfl | rfl | rfl | rfl | rfl | rfl | rfl | ⟨rfl, ha⟩
  · exact exec_eq_of_chip (f := selection) rfl (selection_not_free hf)
  · exact exec_eq_of_chip (f := takePageReport) rfl (by rw [takePageReport, idle])
  · exact exec_eq_of_chip (f := takeExposingEntry) rfl (by rw [takeExposingEntry, idle])
  · exact exec_eq_of_chip (f := takeExposureEnd) rfl (by rw [takeExposureEnd, idle])
  · exact exec_eq_of_chip (f := takeRenderFinished) rfl (by rw [takeRenderFinished, idle])
  · exact exec_eq_of_chip (f := takeCarrierCreated) rfl (by rw [takeCarrierCreated, idle])
  · exact exec_eq_of_chip (f := takeCarrierRemoved) rfl (by rw [takeCarrierRemoved, idle])
  · exact exec_eq_of_chip (f := takeDisposition) rfl (takeDisposition_idle hf ha)

theorem raiseBreak_requeue (f : Option BreakFlag) :
    some (raiseBreak f .requeue) = if f = some .cancel then some .cancel else some .requeue := by
  cases f with
  | none => rfl
  | some f => cases f <;> rfl

/-- Settles O49. -/
theorem dispositionsMovePlates : Obligations.DispositionsMovePlates := by
  refine ⟨fun s d ds hw hd => ?_, fun s c hf hc => exec_not_free hf hc, fun s d hw ha hd hi => ?_, fun s d rest p hk hinbox hp => ?_⟩
  · obtain ⟨sent, slot, attempt, own⟩ := disposition_sent hw hd
    exact ⟨_, sent, slot, attempt, own, judgeAgain_spec⟩
  · intro k
    refine ⟨exec_answer hw ha hd hi, fun old slot p hord hout hdue hnews hold hin hslot hs _ _ => ?_⟩
    have hb : pscBlocked k = false := by
      show (!s.chip.working || s.chip.psc.ordering.isSome || decide (s.chip.psc.outstanding ≠ 0) || false) = false
      rw [hw, hord, hout]
      rfl
    have hp : k.plate slot = some p := hold (slot, p) hin
    have news : slot ∈ k.psc.newsDue := hslot ▸ List.mem_append_right _ List.mem_cons_self
    refine ⟨fun hwork => goesOn_publish hb hdue hwork hp news hs hin, fun hwork hst => ?_,
      fun hwork hst hl => goesOn_waiting hb hdue hwork hp (by rw [hst]; rfl) hl, fun hwork _ => ?_⟩
    · obtain ⟨ended, -, closed, closing⟩ := closedTo_closedAs (p := p) (x := p) (rejected := False) .failed s.chip.regs.plantClock rfl
        (by simp)
      exact ⟨_, goesOn_fail hb hdue hwork hp (by rw [hst]; rfl), ended, fun h1 h2 => closed h1 h2 id,
        fun h => closing (h.imp_right .inl)⟩
    · rw [goesOn_break hb hdue hwork hp, raiseBreak_requeue]
  · obtain ⟨t, q, e, ⟨y, j, D⟩, own, order, M⟩ := disposition_moves ⟨hk, hinbox, hp⟩
    obtain ⟨spoil, same⟩ := sameStages_or_spoiled M.stages M.still
    exact ⟨_, q, e, rfl, D.tl, D.regs, D.others, own, order, D.news, M.quiet, M.spoiled, M.failed, M.held, M.drum,
      fun ha hcar hgood => stagesSpoiled_iff.mp (spoil ha hcar hgood), same⟩

end Sys2Proof.Machine
end

