-- ==== Sys2Proof/Proofs/FenceCache.lean ====
section
/-! SUPPORT. The fence cache stays sound (O32): a word joins it only when the check that fetched it is decided, and no check fetches a cached word. -/

namespace Sys2Proof.Machine

/-! ### The part of the Store Port that the invariant speaks of -/

/-- The fence cache, and the word of its domain that a waiting check is fetching (R36, R37). -/
def StorePort.fence (p : StorePort) : List CacheEntry × Option (Nat × Nat) := (p.cache, p.check.map (fun c => (c.domain, c.word)))

/-- The words of a fence cache, each with its domain. -/
def cacheWords (c : List CacheEntry) : List (Nat × Nat) := c.map (fun e => (e.domain, e.word))

/-- A cache of 64 entries at most, of different words, and none for the word being fetched. -/
def fenceSound (f : List CacheEntry × Option (Nat × Nat)) : Prop :=
  f.1.length ≤ 64 ∧ (cacheWords f.1).Nodup ∧ ∀ w, f.2 = some w → w ∉ cacheWords f.1

theorem Chip.fenceCacheSound_iff (k : Chip) : k.fenceCacheSound ↔ fenceSound k.sp.fence := by
  have fetched : (∀ c, k.sp.check = some c → ∀ e ∈ k.sp.cache, ¬(e.domain = c.domain ∧ e.word = c.word)) ↔
      ∀ w, k.sp.fence.2 = some w → w ∉ cacheWords k.sp.cache := by
    cases h : k.sp.check <;> simp [StorePort.fence, cacheWords, h]
  exact and_congr_right fun _ => and_congr_right fun _ => fetched

/-- What leaves the cache and the word being fetched keeps the invariant. -/
theorem Chip.fenceCacheSound_of_fence {k t : Chip} (h : t.sp.fence = k.sp.fence) (hk : k.fenceCacheSound) : t.fenceCacheSound := by
  rwa [Chip.fenceCacheSound_iff, h, ← Chip.fenceCacheSound_iff]

theorem Chip.fence_of_ctl {k t : Chip} (h : t.ctl = k.ctl) : t.sp.fence = k.sp.fence := by
  obtain ⟨-, -, core, -⟩ := Chip.ctl_eq_iff.1 h
  obtain ⟨-, -, check, -, -, cache, -⟩ := StorePort.core_eq_iff.1 core
  rw [StorePort.fence, check, cache, StorePort.fence]

theorem Chip.fence_of_stops {k t : Chip} (h : k.stops t) : t.sp.fence = k.sp.fence := by
  rcases h with h | ⟨-, h⟩
  · exact Chip.fence_of_ctl h
  · exact Chip.fence_of_ctl (k := k.setRun .stopped) h

/-- An empty cache is sound. -/
theorem Chip.fenceCacheSound_of_empty {k : Chip} (h : k.sp.cache = []) : k.fenceCacheSound := by
  simp [Chip.fenceCacheSound, h]

/-! ### The operations -/

theorem Chip.fenceCacheSound_of_runs {k t : Chip} (h : k.runs t) (hk : k.fenceCacheSound) : t.fenceCacheSound := by
  rcases h with h | ⟨r, -, h⟩ | ⟨check, unit, j, -, -, rfl⟩
  · exact Chip.fenceCacheSound_of_fence (Chip.fence_of_ctl h) hk
  · exact Chip.fenceCacheSound_of_fence (Chip.fence_of_ctl (k := k.setRun r) h) hk
  · exact Chip.fenceCacheSound_of_empty rfl

theorem issue_fence (t : Transfer) (k : Chip) : (issue t k).sp.fence = k.sp.fence := by
  unfold issue
  cases t.client <;> rfl

theorem issueAll_fence (ts : List Transfer) (k : Chip) : (issueAll ts k).sp.fence = k.sp.fence :=
  foldl_keeps (fun k => k.sp.fence) _ (fun k t => issue_fence t k) ts k

theorem takePost_fence (w : Word) (k : Chip) : (takePost w k).sp.fence = k.sp.fence := by
  rcases takePost_cases w k with ⟨-, -, e⟩ | ⟨-, e⟩ <;> rw [e] <;> rfl

theorem serve_fence (t : Transfer) (m : Memory) (k : Chip) : (serve t m k).sp.fence = k.sp.fence := by
  unfold serve
  split
  · exact hostServed_keeps (P := fun j => j.sp.fence = k.sp.fence) (fun w j h => (takePost_fence w j).trans h) (fun _ _ h => h)
      (noteServed t m k) rfl
  · rfl

theorem dequeue_fence (c : Client) (pos : Nat) (k : Chip) : (dequeue c pos k).sp.fence = k.sp.fence := by cases c <;> rfl

theorem refuseTransfer_fence (t : Transfer) (d : Nat) (k : Chip) : (refuseTransfer t d k).sp.fence = k.sp.fence := by
  rcases refuseTransfer_ctl t d k with h | h
  · exact Chip.fence_of_ctl h
  · exact Chip.fence_of_ctl (k := k.setRun .halted) h

/-- The alerts taken from the waiting transfers leave the cache and the fetch. -/
theorem acknowledgeFault_fence (k : Chip) : (acknowledgeFault k).sp.fence = k.sp.fence := by
  unfold acknowledgeFault
  dsimp only
  split
  · rfl
  · rw [issue_fence]
    cases h : k.sp.check <;> simp [StorePort.fence, StorePort.withoutFault, h]

/-- A write of CONTROL that does not reset leaves the fence. -/
theorem controlWrite_fence {v : Word} (k : Chip) (hv : v.getLsbD 1 = false) : (controlWrite v k).sp.fence = k.sp.fence := by
  rcases controlWrite_cases v k hv with e | ⟨j, hj, h⟩
  · rw [e]
  have kept : j.sp.fence = k.sp.fence := (Chip.fence_of_ctl hj).trans rfl
  rcases h with e | ⟨-, e⟩ | ⟨-, e⟩ | ⟨-, h⟩
  · rw [e, kept]
  · rw [e]; exact kept
  · rw [e]; exact kept
  · exact (Chip.fence_of_stops h).trans kept

/-! ### The cache -/

/-- A word that is not found in the cache is not there. -/
theorem not_mem_of_cached_none {c : List CacheEntry} {d w : Nat} (h : cached c d w = none) : (d, w) ∉ cacheWords c := by
  simpa [cached, cacheWords, List.find?_eq_none] using h

/-- Only a word that is not in the cache is fetched (R37 (2)). -/
theorem checkTransfer_fetch {k : Chip} {t : Transfer} {d w : Nat} (h : checkTransfer k t = .fetch d w) :
    (d, w) ∉ cacheWords k.sp.cache := by
  unfold checkTransfer at h
  split at h
  · cases h
  · unfold fenceCheck at h
    dsimp only at h
    repeat' split at h
    all_goals cases h
    rename_i missing
    exact not_mem_of_cached_none missing

/-- A fetch of a word that is not in the cache keeps the invariant. -/
theorem beginFetch_sound {t : Transfer} {d w : Nat} {m : Memory} {k : Chip} (hw : (d, w) ∉ cacheWords k.sp.cache)
    (hk : k.fenceCacheSound) : (beginFetch t d w m k).fenceCacheSound := by
  rw [Chip.fenceCacheSound_iff] at hk ⊢
  obtain ⟨few, different, -⟩ := hk
  exact ⟨few, different, fun x hx => by cases hx; exact hw⟩

/-- The newest entry joins a cache that does not hold its word: 64 entries remain, of different words (R37 (3)). -/
theorem cacheInsert_sound {c : List CacheEntry} {e : CacheEntry} (few : c.length ≤ 64) (different : (cacheWords c).Nodup)
    (fresh : (e.domain, e.word) ∉ cacheWords c) : (cacheInsert c e).length ≤ 64 ∧ (cacheWords (cacheInsert c e)).Nodup := by
  have join {l : List CacheEntry} (sub : l.Sublist c) : (cacheWords (l ++ [e])).Nodup := by
    have subWords : (cacheWords l).Sublist (cacheWords c) := sub.map _
    simp only [cacheWords, List.map_append, List.map_singleton]
    exact List.nodup_append.mpr ⟨different.sublist subWords, List.nodup_singleton _, fun x hx y hy => by
      rw [List.mem_singleton.mp hy]
      rintro rfl
      exact fresh (subWords.subset hx)⟩
  unfold cacheInsert
  split
  · exact ⟨by simp; omega, join (List.Sublist.refl c)⟩
  · exact ⟨by simp; omega, join (List.drop_sublist 1 c)⟩

/-- A check that is decided leaves no fetch, and its word in the cache unless a FENCE_FLUSH came (R37, R38). -/
theorem decided_sound {k : Chip} {c : PendingCheck} (hc : k.sp.check = some c) (hk : k.fenceCacheSound) :
    (k.setSp { k.sp with check := none, cache := keepWord c k.sp.cache }).fenceCacheSound := by
  rw [Chip.fenceCacheSound_iff] at hk ⊢
  obtain ⟨few, different, fetched⟩ := hk
  have fresh : (c.domain, c.word) ∉ cacheWords k.sp.cache := fetched _ (by simp [StorePort.fence, hc])
  have kept : (keepWord c k.sp.cache).length ≤ 64 ∧ (cacheWords (keepWord c k.sp.cache)).Nodup := by
    unfold keepWord
    split
    · exact cacheInsert_sound few different fresh
    · exact ⟨few, different⟩
  exact ⟨kept.1, kept.2, fun _ h => nomatch h⟩

/-! ### The commands -/

theorem grant_fenceCacheSound {s : State} (hs : s.chip.fenceCacheSound) : (grant s).chip.fenceCacheSound := by
  rcases grant_chip_cases s with ⟨-, e⟩ | ⟨t, c, pos, -, e⟩ <;> rw [e]
  · exact hs
  have taken := Chip.fenceCacheSound_of_fence (dequeue_fence c pos s.chip) hs
  unfold grantChip
  split
  · exact Chip.fenceCacheSound_of_fence (serve_fence t s.store _) taken
  · exact Chip.fenceCacheSound_of_fence (refuseTransfer_fence t _ _) taken
  · rename_i fetch
    exact beginFetch_sound (checkTransfer_fetch fetch) taken

theorem fetchComplete_fenceCacheSound {s : State} (hs : s.chip.fenceCacheSound) : (fetchComplete s).chip.fenceCacheSound := by
  unfold fetchComplete
  split
  · exact hs
  · rename_i c hc
    have decided := decided_sound hc hs
    dsimp only
    split
    · exact Chip.fenceCacheSound_of_fence (refuseTransfer_fence _ _ _) decided
    · exact decided

theorem transferComplete_fence (c : Client) (k : Chip) : (transferComplete c k).sp.fence = k.sp.fence := by
  rcases transferComplete_stops c k with e | ⟨x, rest, -, e⟩
  · rw [e]
  · exact (Chip.fence_of_stops e).trans rfl

theorem controlWrite_fenceCacheSound (v : Word) {k : Chip} (hk : k.fenceCacheSound) : (controlWrite v k).fenceCacheSound := by
  cases hv : v.getLsbD 1
  · exact Chip.fenceCacheSound_of_fence (controlWrite_fence k hv) hk
  · unfold controlWrite
    split
    · exact hk
    · exact Chip.fenceCacheSound_of_empty (k := engineResetChip k) rfl

/-- The host's settings leave the fence, and the resets and a failed START empty its cache. -/
theorem setsHost_fenceCacheSound {c : Instr} {s t : State} (hc : c.setsHost) (hs : s.chip.fenceCacheSound) (h : exec c s = .next t) :
    t.chip.fenceCacheSound := by
  cases c
  case powerOnReset => cases h; exact Chip.fenceCacheSound_of_empty rfl
  case hotReset => cases h; exact Chip.fenceCacheSound_of_empty rfl
  case engineReset v => cases h; exact controlWrite_fenceCacheSound v hs
  case runSet v => cases h; exact controlWrite_fenceCacheSound v hs
  case runClear v => cases h; exact controlWrite_fenceCacheSound v hs
  case exposeEnableSet v => cases h; exact controlWrite_fenceCacheSound v hs
  case exposeEnableClear v => cases h; exact controlWrite_fenceCacheSound v hs
  case alertEnWrite v =>
    cases h
    simp only [State.setChip_chip, alertEnWrite]
    split <;> exact hs
  case plantClockWrite v =>
    cases h
    simp only [State.setChip_chip, clockWrite]
    split
    · exact hs
    · exact Chip.fenceCacheSound_of_fence (Chip.fence_of_stops (setClock_stops v _)) hs
  case plantClockTick => cases h; exact Chip.fenceCacheSound_of_fence (Chip.fence_of_stops (setClock_stops _ _)) hs
  case linkRetrain => cases h; exact hs
  case msiEnableChange => cases h; exact hs
  case layoutReadComplete r =>
    cases h
    simp only [State.setChip_chip, layoutRead]
    repeat' split
    · exact Chip.fenceCacheSound_of_fence (issueAll_fence _ _) (Chip.fenceCacheSound_of_empty rfl)
    · exact Chip.fenceCacheSound_of_empty rfl
    · exact hs
  all_goals exact hc.elim

/-- Of the host's accesses and the Store Port's own commands, the grant and the end of a fetch change the fence. -/
theorem other_fenceCacheSound {c : Instr} {s t : State} (hc : c.isOther) (hs : s.chip.fenceCacheSound) (h : exec c s = .next t) :
    t.chip.fenceCacheSound := by
  cases c
  case alertWrite v =>
    cases h
    simp only [State.setChip_chip, alertWrite]
    repeat' split
    · exact hs
    · exact Chip.fenceCacheSound_of_fence (acknowledgeFault_fence _) hs
    · exact hs
  case registerWriteIgnored => cases h; exact hs
  case post w =>
    cases h
    simp only [State.setChip_chip, postWrite]
    repeat' split
    · exact hs
    · exact Chip.fenceCacheSound_of_fence (takePost_fence w _) hs
    · exact hs
  case hostAccess op =>
    rcases exec_hostAccess_cases op s with e | e | ⟨-, -, e⟩ <;> rw [e] at h <;> cases h
    · exact hs
    · exact Chip.fenceCacheSound_of_fence (issueAll_fence _ _) hs
  case transferGrant => cases h; exact grant_fenceCacheSound hs
  case transferComplete d => cases h; exact Chip.fenceCacheSound_of_fence (transferComplete_fence d _) hs
  case fenceMapFetchComplete => cases h; exact fetchComplete_fenceCacheSound hs
  all_goals exact hc.elim

theorem exec_fenceCacheSound (c : Instr) (s t : State) (hs : s.chip.fenceCacheSound) (h : exec c s = .next t) :
    t.chip.fenceCacheSound := by
  rcases c.kinds with hc | hc | hc | hc
  · exact setsHost_fenceCacheSound hc hs h
  · exact Chip.fenceCacheSound_of_runs (exec_runs hc h) hs
  · rcases exec_dispatch hc h with e | e | e
    · rwa [e]
    · exact Chip.fenceCacheSound_of_fence (k := popPost s.chip) (Chip.fence_of_stops e) hs
    · rw [e]; exact Chip.fenceCacheSound_of_empty rfl
  · exact other_fenceCacheSound hc hs h

/-- Settles O32: every step keeps the fence cache at 64 entries at most, of different words. -/
theorem fenceCacheStaysSound : Obligations.FenceCacheStaysSound := fun _ _ hs h => step_keeps exec_fenceCacheSound hs h

end Sys2Proof.Machine
end

