-- ==== Sys2Proof/Proofs/Arbiter.lean ====
section
/-! SUPPORT. The arbiter: the choice among the clients that wait, the turns of BR and IU, and the transfer that a grant takes (O20). -/

namespace Sys2Proof.Machine

/-! ### BR and IU (R30) -/

/-- With one of BR and IU waiting, it is chosen and the weight position stays; with both, the weight position decides and moves on. -/
theorem chooseLow_spec {p : StorePort} {c : Client} {pos : Nat} (h : chooseLow p = some (c, pos)) :
    (p.br ≠ [] ∧ p.iu = [] ∧ c = .br ∧ pos = p.weightPos) ∨ (p.br = [] ∧ p.iu ≠ [] ∧ c = .iu ∧ pos = p.weightPos) ∨
      (p.br ≠ [] ∧ p.iu ≠ [] ∧ c = (if p.weightPos < p.weight then .br else .iu) ∧ pos = nextWeightPos p.weightPos) := by
  unfold chooseLow at h
  split at h
  all_goals cases h
  all_goals simp_all

theorem chooseLow_none {p : StorePort} : chooseLow p = none ↔ p.br = [] ∧ p.iu = [] := by
  unfold chooseLow
  split <;> simp_all

theorem chooseLow_both {p : StorePort} (hb : p.br ≠ []) (hi : p.iu ≠ []) :
    chooseLow p = some (if p.weightPos < p.weight then .br else .iu, nextWeightPos p.weightPos) := by
  unfold chooseLow
  split <;> simp_all

/-- Sixteen weight positions in a row are the positions 0 to 15 in another order. -/
theorem sixteen_positions (p : Nat) : ((List.range 16).map (fun i => (p + i) % 16)).Perm (List.range 16) := by
  have run : Multiset.Ico p (p + 16) = ((List.range 16).map (p + ·) : List Nat) := by
    rw [← List.range'_eq_map_range]
    simp [Multiset.Ico, Finset.Ico, LocallyFiniteOrder.finsetIco]
  have turned := Nat.multiset_Ico_map_mod p 16
  rw [run, Multiset.map_coe, List.map_map] at turned
  exact Multiset.coe_eq_coe.mp turned

/-- What holds of some positions holds as often in any sixteen in a row. -/
theorem sixteen_turns (p : Nat) (q : Nat → Bool) :
    ((List.range 16).filter (fun i => q ((p + i) % 16))).length = ((List.range 16).filter q).length := by
  rw [← ((sixteen_positions p).filter q).length_eq, List.filter_map, List.length_map]
  rfl

theorem low_positions : ∀ w ≤ 15, ((List.range 16).filter (fun x => decide (x < w))).length = w ∧
    ((List.range 16).filter (fun x => decide (¬x < w))).length = 16 - w := by decide

/-- The Store Port `i` choices between BR and IU later, with both still waiting. -/
def StorePort.turn (p : StorePort) (i : Nat) : StorePort := { p with weightPos := (p.weightPos + i) % 16 }

theorem chooseLow_turn {p : StorePort} (hb : p.br ≠ []) (hi : p.iu ≠ []) (i : Nat) :
    chooseLow (p.turn i) = some (if (p.turn i).weightPos < p.weight then .br else .iu, (p.turn (i + 1)).weightPos) := by
  have moved : nextWeightPos (p.turn i).weightPos = (p.turn (i + 1)).weightPos := by
    show ((p.weightPos + i) % 16 + 1) % 16 = (p.weightPos + (i + 1)) % 16
    omega
  rw [chooseLow_both (p := p.turn i) hb hi, moved]
  rfl

/-- Of sixteen such choices BR has as many as its weight, and IU the others (R30). -/
theorem turns_counted {p : StorePort} (hb : p.br ≠ []) (hi : p.iu ≠ []) (hw : p.weight ≤ 15) :
    ((List.range 16).filter (fun i => decide ((chooseLow (p.turn i)).map (·.1) = some .br))).length = p.weight ∧
      ((List.range 16).filter (fun i => decide ((chooseLow (p.turn i)).map (·.1) = some .iu))).length = 16 - p.weight := by
  have br (i : Nat) : decide ((chooseLow (p.turn i)).map (·.1) = some .br) = decide ((p.weightPos + i) % 16 < p.weight) := by
    rw [chooseLow_turn hb hi]
    show decide (some (if (p.weightPos + i) % 16 < p.weight then Client.br else .iu) = some .br) = _
    split <;> simp_all
  have iu (i : Nat) : decide ((chooseLow (p.turn i)).map (·.1) = some .iu) = decide (¬(p.weightPos + i) % 16 < p.weight) := by
    rw [chooseLow_turn hb hi]
    show decide (some (if (p.weightPos + i) % 16 < p.weight then Client.br else .iu) = some .iu) = _
    split <;> simp_all
  simp only [br, iu]
  rw [sixteen_turns p.weightPos (fun x => decide (x < p.weight)), sixteen_turns p.weightPos (fun x => decide (¬x < p.weight))]
  exact low_positions p.weight hw

/-! ### The client list (R29) -/

/-- The arbiter goes down the client list: HF first while it needs data, the host, REPORT, HF, then BR and IU. -/
theorem arbitrate_spec {p : StorePort} {hfFirst : Bool} {c : Client} {pos : Nat} (h : arbitrate p hfFirst = some (c, pos)) :
    (c = .hf ∧ hfFirst = true ∧ p.hf ≠ []) ∨
      ((hfFirst = true → p.hf = []) ∧
        ((c = .host ∧ p.host ≠ []) ∨ (c = .report ∧ p.host = [] ∧ p.report ≠ []) ∨
          (c = .hf ∧ p.host = [] ∧ p.report = [] ∧ p.hf ≠ []) ∨
          (p.host = [] ∧ p.report = [] ∧ p.hf = [] ∧ chooseLow p = some (c, pos)))) := by
  unfold arbitrate at h
  split at h
  · cases h
    simp_all
  · rename_i first
    have later : hfFirst = true → p.hf = [] := by simpa using first
    refine .inr ⟨later, ?_⟩
    split at h
    · cases h
      simp_all
    · split at h
      · cases h
        simp_all
      · split at h
        · cases h
          simp_all
        · simp_all

theorem arbitrate_none {p : StorePort} {hfFirst : Bool} :
    arbitrate p hfFirst = none ↔ p.hf = [] ∧ p.host = [] ∧ p.report = [] ∧ p.br = [] ∧ p.iu = [] := by
  unfold arbitrate
  by_cases hf : p.hf = []
  · by_cases host : p.host = []
    · by_cases report : p.report = []
      · simp [hf, host, report, chooseLow_none]
      · simp [hf, host, report]
    · simp [hf, host]
  · simp only [hf, false_and, iff_false]
    split
    · simp
    · split
      · simp
      · split <;> simp [hf]

/-- The chosen client waits. -/
theorem waiting_of_arbitrate {p : StorePort} {hfFirst : Bool} {c : Client} {pos : Nat} (h : arbitrate p hfFirst = some (c, pos)) :
    p.waiting c ≠ [] := by
  rcases arbitrate_spec h with ⟨rfl, -, hw⟩ | ⟨-, ⟨rfl, hw⟩ | ⟨rfl, -, hw⟩ | ⟨rfl, -, -, hw⟩ | ⟨-, -, -, low⟩⟩
  · exact hw
  · exact hw
  · exact hw
  · exact hw
  · rcases chooseLow_spec low with ⟨hw, -, rfl, -⟩ | ⟨-, hw, rfl, -⟩ | ⟨hb, hi, rfl, -⟩
    · exact hw
    · exact hw
    · split
      · exact hb
      · exact hi

/-! ### The grant (R28, R31, R37, R42) -/

theorem hfPrecedence_iff (k : Chip) : hfPrecedence k = true ↔ ∃ ps, k.hf.pass = some ps ∧ 4096 * ps.prefetch.length < 2048 ∧
    (ps.nextSet < (ps.width + 511) / 512 ∨ 0 < ps.underway) := by
  unfold hfPrecedence rowSets
  cases k.hf.pass <;> simp

/-- While SP makes a read of its own, nothing is granted. -/
theorem granted_busy {k : Chip} (h : k.sp.check.isSome = true ∨ k.pd.phase = .layoutRead) : granted k = none := by
  unfold granted
  rw [if_pos (by simpa using h)]

/-- A choice of a client that waits grants the head of its queue. -/
theorem granted_of_choice {k : Chip} (hc : k.sp.check = none) (hp : k.pd.phase ≠ .layoutRead) {c : Client} {pos : Nat} {t : Transfer}
    {rest : List Transfer} (h : grantChoice k = some (c, pos)) (hw : k.sp.waiting c = t :: rest) : granted k = some (t, c, pos) := by
  unfold granted
  rw [if_neg (by simp [hc, hp]), h]
  simp [hw]

theorem granted_of_no_choice {k : Chip} (hc : k.sp.check = none) (hp : k.pd.phase ≠ .layoutRead) (h : grantChoice k = none) :
    granted k = none := by
  unfold granted
  rw [if_neg (by simp [hc, hp]), h]

theorem issueAll_weightPos (ts : List Transfer) (k : Chip) : (issueAll ts k).sp.weightPos = k.sp.weightPos := by
  have issued (k : Chip) (t : Transfer) : (issue t k).sp.weightPos = k.sp.weightPos := by
    unfold issue
    cases t.client <;> rfl
  exact foldl_keeps (fun k : Chip => k.sp.weightPos) _ issued ts k

theorem layoutRead_weightPos (r : LayoutRecord) (k : Chip) (hr : k.pd.runState = .starting) (hp : k.pd.phase = .layoutRead) :
    (layoutRead r k).sp.weightPos = 0 := by
  rw [layoutRead, if_pos ⟨hr, hp⟩]
  split
  · unfold takeUpLayout
    dsimp only
    rw [issueAll_weightPos]
    rfl
  · rfl

/-- Settles O20: the choice goes down the client list, sixteen turns of BR and IU split by the weight, and a grant takes the head of a queue. -/
theorem arbiterChooses : Obligations.ArbiterChooses := by
  refine ⟨fun p hfFirst => ⟨arbitrate_none, fun c pos h => ⟨waiting_of_arbitrate h, ?_⟩⟩,
    fun p hb hi _ hw => ⟨chooseLow_turn hb hi, turns_counted hb hi hw⟩, fun p c pos one h => ?_, rfl, fun s t r hr hp h => ?_,
    fun k => ⟨hfPrecedence_iff k, granted_busy, fun hc hp => ⟨fun hr => ?_, fun hr => ?_⟩⟩⟩
  · rcases arbitrate_spec h with ⟨rfl, first, -⟩ | ⟨later, ⟨rfl, -⟩ | ⟨rfl, host, -⟩ | ⟨rfl, host, report, -⟩ | ⟨host, report, hf, low⟩⟩
    · simp [first]
    · simpa using later
    · simpa [host] using later
    · simp [host, report]
    · rcases chooseLow_spec low with ⟨-, hi, rfl, -⟩ | ⟨hb, -, rfl, -⟩ | ⟨-, -, rfl, -⟩
      · simp [host, report, hf, hi]
      · simp [host, report, hf, hb]
      · by_cases turn : p.weightPos < p.weight
        · simp [host, report, hf, turn]
        · simp [host, report, hf, turn, Nat.le_of_not_lt turn]
  · rcases chooseLow_spec h with ⟨-, -, -, stays⟩ | ⟨-, -, -, stays⟩ | ⟨hb, hi, -⟩
    · exact stays
    · exact stays
    · exact absurd one (by simp [hb, hi])
  · cases h
    exact layoutRead_weightPos r s.chip hr hp
  · refine ⟨fun hn => granted_of_no_choice hc hp (by simp [grantChoice, hr, hn]), fun t rest hw => ?_⟩
    exact granted_of_choice (c := .host) hc hp (by simp [grantChoice, hr, hw]) hw
  · have choice : grantChoice k = arbitrate k.sp (hfPrecedence k) := if_neg hr
    refine ⟨fun hn => granted_of_no_choice hc hp (choice.trans hn), fun c pos h => ?_⟩
    obtain ⟨t, rest, hw⟩ := List.exists_cons_of_ne_nil (waiting_of_arbitrate h)
    refine ⟨t, rest, ?_, granted_of_choice hc hp (choice.trans h) hw⟩
    rw [← hw]
    cases c <;> rfl

end Sys2Proof.Machine
end

