-- ==== Sys2Proof/Proofs/Encoder.lean ====
section
/-! SUPPORT. The encoder: the count, the dot that is due at it, and a reverse count (O55). -/

namespace Sys2Proof.Machine

/-! ### Transitions (R147) -/

theorem directionOf_forward {q e : EncoderEdge} : directionOf q e = .forward ↔
    (q = .phase1Rises ∧ e = .phase2Rises) ∨ (q = .phase2Rises ∧ e = .phase1Falls) ∨
      (q = .phase1Falls ∧ e = .phase2Falls) ∨ (q = .phase2Falls ∧ e = .phase1Rises) := by
  cases q <;> cases e <;> simp [directionOf]

/-- Reverse order is forward order the other way round. -/
theorem directionOf_reverse {q e : EncoderEdge} : directionOf q e = .reverse ↔ directionOf e q = .forward := by
  cases q <;> cases e <;> simp [directionOf]

theorem clampCount_eq (c : Int) : clampCount c = max (-32768) (min 65535 c) := by
  unfold clampCount
  split
  · omega
  · split <;> omega

/-- The chip after a transition that brings the count to `n`, within its range. -/
def Chip.counted (k : Chip) (e : EncoderEdge) (n : Int) : Chip :=
  { k with dtu := { k.dtu with prev := some e, count := max (-32768) (min 65535 n) } }

theorem counted_eq (k : Chip) (e : EncoderEdge) (n : Int) :
    (k.setDtu { k.dtu with prev := some e }).setDtu { k.dtu with prev := some e, count := clampCount n } = k.counted e n :=
  congrArg (fun c => { k with dtu := { k.dtu with prev := some e, count := c } }) (clampCount_eq n)

theorem encoderEdge_ignored {k : Chip} {e : EncoderEdge} (h : k.pd.runState = .halted ∨ e = .bothChange) : encoderEdge e k = k :=
  if_pos h

theorem encoderEdge_first {k : Chip} {e : EncoderEdge} (hr : k.pd.runState ≠ .halted) (he : e ≠ .bothChange) (hq : k.dtu.prev = none) :
    encoderEdge e k = { k with dtu := { k.dtu with prev := some e } } := by
  rw [encoderEdge, if_neg (by simp [hr, he]), hq]
  rfl

/-- A transition after another moves the count by its direction; of one in neither order only the direction is free (log 13). -/
theorem encoderEdge_next {k : Chip} {e q : EncoderEdge} (hr : k.pd.runState ≠ .halted) (he : e ≠ .bothChange)
    (hq : k.dtu.prev = some q) :
    (directionOf q e = .forward → encoderEdge e k = feedAtCount (k.counted e (k.dtu.count + 1))) ∧
    (directionOf q e = .reverse → encoderEdge e k = reverseCount (k.counted e (k.dtu.count - 1))) ∧
    (directionOf q e = .neither →
      encoderEdge e k = feedAtCount { k.counted e (k.dtu.count + 1) with fresh := k.fresh + 1 } ∨
        encoderEdge e k = reverseCount { k.counted e (k.dtu.count - 1) with fresh := k.fresh + 1 }) := by
  rw [encoderEdge, if_neg (by simp [hr, he]), hq]
  dsimp only
  refine ⟨fun hd => ?_, fun hd => ?_, fun hd => ?_⟩ <;> rw [hd] <;> dsimp only
  · exact congrArg feedAtCount (counted_eq k e _)
  · exact congrArg reverseCount (counted_eq k e _)
  · split
    · exact .inl (congrArg (fun x => feedAtCount (drawFresh x)) (counted_eq k e _))
    · exact .inr (congrArg (fun x => reverseCount (drawFresh x)) (counted_eq k e _))

/-! ### Reverse counts (R147 (2), R163) -/

/-- The chip has a drum plate exposing: `p`, that owns the drum record `d`. -/
theorem drumPlate_eq {k : Chip} {d : Drum} {p : PlateRef} (hd : k.imc.drum = some d) (ho : d.owner = some p) : drumPlate k = some p := by
  rw [drumPlate, hd]
  exact ho

theorem reverseCount_outside {k : Chip} (h : ¬(k.working = true ∧ k.imc.state = .exposing)) : reverseCount k = k :=
  if_neg (by simpa using h)

theorem reverseCount_spoils {k : Chip} {d : Drum} {p : PlateRef} (h : k.working = true ∧ k.imc.state = .exposing)
    (hd : k.imc.drum = some d) (ho : d.owner = some p) (hb : k.imc.exposure.begun = true) :
    k.spoiledFrom (reverseCount k) d p .slip 0xFFFFFFFF := by
  have ends : reverseCount k = endExposure p (some (.slip, 0xFFFFFFFF)) k := by
    rw [reverseCount, if_pos (by simpa using h), drumPlate_eq hd ho]
    exact if_pos hb
  rw [ends]
  exact endExposure_spoiled k d p .slip _ hd rfl (by decide) (by decide)

theorem reverseCount_offers {k : Chip} (h : k.working = true ∧ k.imc.state = .exposing) (hb : k.imc.exposure.begun = false) :
    reverseCount k = offerSlip 0xFFFFFFFF k := by
  rw [reverseCount, if_pos (by simpa using h)]
  split
  · rw [hb]
    rfl
  · rfl

/-- A slip that is offered changes the device fault record, FAULT and REPORT's queue; a record not VALID latches it (R199 (1)). -/
theorem offerSlip_eq (detail : Nat) (k : Chip) : ∃ r record ws,
    offerSlip detail k = { k with regs := r, dmr := { k.dmr with record := record }, sp := { k.sp with report := k.sp.report ++ ws } } ∧
      r.plain = k.regs.plain ∧
      (k.dmr.record.valid = false → record =
        { valid := true, overflow := false, kind := .slip, unit := 0, detail := detail, addr := 0, addrValid := false, domain := 0
          isWrite := false, time := k.regs.plantClock }) := by
  obtain ⟨r, ws, e, -⟩ := offerFault_eq
    { kind := .slip, unit := 0, detail := detail, addr := 0, addrValid := false, domain := 0, isWrite := false } k
  have plain := (Chip.ctl_eq_iff.1 (offerSlip_ctl detail k)).2.1
  rw [offerSlip, e] at plain
  refine ⟨r, _, ws, e, plain, fun hv => ?_⟩
  rw [takeOffer_record, hv]
  rfl

/-! ### The dot that is due (R150, R151) -/

/-- A pass with its feed window open. -/
def Pass.opened (ps : Pass) : Pass := { ps with window := true }

/-- The chip with a pass in progress. -/
def Chip.feeding (k : Chip) (ps : Pass) : Chip := { k with hf := { k.hf with pass := some ps } }

theorem feedAtCount_idle {k : Chip} (h : k.hf.pass = none) : feedAtCount k = k := by rw [feedAtCount, h]

/-- Match B ends the pass. -/
theorem feedAtCount_matchB {k : Chip} {ps : Pass} (h : k.hf.pass = some ps) (hb : k.dtu.count = k.dtu.activeB) :
    feedAtCount k = { k with hf := { k.hf with pass := none, laser := 0 } } := by
  rw [feedAtCount, h]
  exact if_pos hb

/-- Before match A no dot is due. -/
theorem feedAtCount_before {k : Chip} {ps : Pass} (h : k.hf.pass = some ps) (hb : k.dtu.count ≠ k.dtu.activeB)
    (ha : k.dtu.count ≠ k.dtu.activeA) (hw : ps.window = false) : feedAtCount k = k := by
  rw [feedAtCount, h]
  dsimp only
  rw [if_neg hb, if_neg ha, hw]
  rfl

/-- In the window, and at match A, which opens it, dot `d` is due `d` counts after match A. -/
theorem feedAtCount_window {k : Chip} {ps : Pass} {d : Nat} (h : k.hf.pass = some ps) (hb : k.dtu.count ≠ k.dtu.activeB)
    (hd : k.dtu.count = k.dtu.activeA + d) (hw : ps.window = true ∨ d = 0) :
    feedAtCount k = feedDot ps.opened d (k.feeding ps.opened) := by
  have due : (k.dtu.count - k.dtu.activeA).toNat = d := by omega
  have opened : (if k.dtu.count = k.dtu.activeA then { ps with window := true } else ps) = ps.opened := by
    split
    · rfl
    · next ha =>
      have : ps.window = true := hw.resolve_right (by omega)
      rw [Pass.opened, ← this]
  rw [feedAtCount, h]
  dsimp only
  rw [if_neg hb, opened, due]
  rfl

/-- A missing row set is an underrun. -/
theorem feedDot_underrun {k : Chip} {ps : Pass} {i : Nat} {d : Drum} {p : PlateRef} (hm : tblGet ps.prefetch (i / 512) = none)
    (hd : k.imc.drum = some d) (ho : d.owner = some p) : k.spoiledFrom (feedDot ps i k) d p .underrun 0 := by
  have ends : feedDot ps i k = endExposure p (some (.underrun, 0)) k := by
    rw [feedDot, hm]
    dsimp only
    rw [underrun, drumPlate_eq hd ho]
  rw [ends]
  exact endExposure_spoiled k d p .underrun 0 hd rfl (by decide) (by decide)

/-- What dot `i` of a row set drives: its column when the laser is permitted, nothing otherwise. -/
def Chip.litBy (k : Chip) (data : List Byte) (i : Nat) : BitVec 64 :=
  if k.imc.state = .exposing ∧ k.regs.exposeEnable = true then column data (i % 512) else 0

theorem litBy_eq {k : Chip} (hr : k.pd.runState ≠ .halted) (data : List Byte) (i : Nat) :
    (if laserPermitted k then column data (i % 512) else 0) = k.litBy data i := by
  have permitted : laserPermitted k = true ↔ k.imc.state = .exposing ∧ k.regs.exposeEnable = true := by simp [laserPermitted, hr]
  exact if_congr permitted rfl rfl

/-- A dot that is not the row set's last drives the laser, and nothing else differs. -/
theorem feedDot_within {k : Chip} {ps : Pass} {i : Nat} {data : List Byte} (hr : k.pd.runState ≠ .halted)
    (hm : tblGet ps.prefetch (i / 512) = some data) (h : ¬(i % 512 = 511 ∨ i + 1 = ps.width)) :
    feedDot ps i k = { k with hf := { k.hf with laser := k.litBy data i } } := by
  rw [feedDot, hm]
  dsimp only
  rw [if_neg h, litBy_eq hr]
  rfl

/-- With its last dot a row set leaves the prefetch, and HF fetches the next. -/
theorem feedDot_last {k : Chip} {ps : Pass} {i : Nat} {data : List Byte} (hr : k.pd.runState ≠ .halted)
    (hm : tblGet ps.prefetch (i / 512) = some data) (h : i % 512 = 511 ∨ i + 1 = ps.width) :
    feedDot ps i k = ({ k with hf := { k.hf with laser := k.litBy data i } } : Chip).fetchesFor
      { ps with prefetch := ps.prefetch.filter (fun x => decide (x.1 ≠ i / 512)) } := by
  rw [feedDot, hm]
  dsimp only
  rw [if_pos h, litBy_eq hr, hfFetch_eq _ _ rfl]
  rfl

/-- A chip that feeds a pass ends its exposure as it would without. -/
theorem Chip.spoiledFrom_feeding {k t : Chip} {d : Drum} {p : PlateRef} {kind : MarkKind} {detail : Nat} (ps : Pass) :
    (k.feeding ps).spoiledFrom t d p kind detail ↔ k.spoiledFrom t d p kind detail := Iff.rfl

/-- The dot due in the window drives the laser; with its last dot the row set leaves the prefetch. -/
theorem feedAtCount_dot {k : Chip} {ps : Pass} {d : Nat} {data : List Byte} (hr : k.pd.runState ≠ .halted) (h : k.hf.pass = some ps)
    (hb : k.dtu.count ≠ k.dtu.activeB) (hd : k.dtu.count = k.dtu.activeA + d) (hw : ps.window = true ∨ d = 0)
    (hm : tblGet ps.prefetch (d / 512) = some data) :
    let t := feedAtCount k
    t.dtu = k.dtu ∧ t.hf.laser = k.litBy data d ∧ t.imc = k.imc ∧ t.regs = k.regs ∧
      (d % 512 ≠ 511 → d + 1 ≠ ps.width →
        t = { k with hf := { k.hf with pass := some ps.opened, laser := k.litBy data d } }) ∧
      (d % 512 = 511 ∨ d + 1 = ps.width →
        t = ({ k with hf := { k.hf with laser := k.litBy data d } } : Chip).fetchesFor
          { ps.opened with prefetch := ps.prefetch.filter (fun x => decide (x.1 ≠ d / 512)) }) := by
  dsimp only
  rw [feedAtCount_window h hb hd hw]
  by_cases last : d % 512 = 511 ∨ d + 1 = ps.width
  · rw [feedDot_last (k := k.feeding ps.opened) (ps := ps.opened) hr hm last]
    exact ⟨rfl, rfl, rfl, rfl, fun h1 h2 => absurd last (not_or.mpr ⟨h1, h2⟩), fun _ => rfl⟩
  · rw [feedDot_within (k := k.feeding ps.opened) (ps := ps.opened) hr hm last]
    exact ⟨rfl, rfl, rfl, rfl, fun _ _ => rfl, fun h => absurd h last⟩

/-- A row set that is missing when its dot is due is an underrun. -/
theorem feedAtCount_underrun {k : Chip} {ps : Pass} {d : Nat} {dr : Drum} {p : PlateRef} (h : k.hf.pass = some ps)
    (hb : k.dtu.count ≠ k.dtu.activeB) (hd : k.dtu.count = k.dtu.activeA + d) (hw : ps.window = true ∨ d = 0)
    (hm : tblGet ps.prefetch (d / 512) = none) (hdr : k.imc.drum = some dr) (ho : dr.owner = some p) :
    k.spoiledFrom (feedAtCount k) dr p .underrun 0 := by
  rw [feedAtCount_window h hb hd hw, ← Chip.spoiledFrom_feeding ps.opened]
  exact feedDot_underrun (ps := ps.opened) hm hdr ho

/-! ### The statement -/

theorem exec_encoderTransition {e : EncoderEdge} {s : State} {t : Chip} (h : encoderEdge e s.chip = t) :
    exec (.encoderTransition e) s = .next (s.setChip t) := h ▸ rfl

/-- Settles O55: the direction of the transition decides between the dot due at the new count and a reverse count. -/
theorem encoderCounts : Obligations.EncoderCounts := by
  intro s e
  refine ⟨fun h => exec_encoderTransition (encoderEdge_ignored h),
    fun hr he => ⟨fun hq => exec_encoderTransition (encoderEdge_first hr he hq), fun q hq => ?_⟩⟩
  obtain ⟨forward, reverse, neither⟩ := encoderEdge_next hr he hq
  refine ⟨fun hn hp => ?_, fun hn hx => ?_, fun hn hn' hp hx => ?_, fun ps hn hp => ⟨fun hb => ?_, fun hb ha hw => ?_, fun d hb hd hw =>
    ⟨fun data hm => ?_, fun dr p hm hdr ho => ?_⟩⟩, fun hn hx => ⟨fun dr p hdr ho hb => ?_, fun hb hv => ?_⟩⟩
  · exact exec_encoderTransition ((forward (directionOf_forward.mpr hn)).trans (feedAtCount_idle hp))
  · exact exec_encoderTransition ((reverse (directionOf_reverse.mpr (directionOf_forward.mpr hn))).trans (reverseCount_outside hx))
  · have turned : directionOf q e = .neither := by
      cases hd : directionOf q e with
      | forward => exact absurd (directionOf_forward.mp hd) hn
      | reverse => exact absurd (directionOf_forward.mp (directionOf_reverse.mp hd)) hn'
      | neither => rfl
    rcases neither turned with up | down
    · exact .inl (exec_encoderTransition (up.trans (feedAtCount_idle hp)))
    · exact .inr (exec_encoderTransition (down.trans (reverseCount_outside hx)))
  · exact exec_encoderTransition ((forward (directionOf_forward.mpr hn)).trans (feedAtCount_matchB hp hb))
  · exact exec_encoderTransition ((forward (directionOf_forward.mpr hn)).trans (feedAtCount_before hp hb ha hw))
  · exact ⟨_, exec_encoderTransition (forward (directionOf_forward.mpr hn)), rfl, feedAtCount_dot (k := s.chip.counted e _) hr hp hb hd hw hm⟩
  · exact ⟨_, exec_encoderTransition (forward (directionOf_forward.mpr hn)), rfl,
      feedAtCount_underrun (k := s.chip.counted e _) hp hb hd hw hm hdr ho⟩
  · exact ⟨_, exec_encoderTransition (reverse (directionOf_reverse.mpr (directionOf_forward.mpr hn))), rfl,
      reverseCount_spoils (k := s.chip.counted e _) hx hdr ho hb⟩
  · obtain ⟨r, record, ws, offered, -, latched⟩ := offerSlip_eq 0xFFFFFFFF (s.chip.counted e (s.chip.dtu.count - 1))
    have slips := (reverse (directionOf_reverse.mpr (directionOf_forward.mpr hn))).trans
      ((reverseCount_offers (k := s.chip.counted e _) hx hb).trans offered)
    refine ⟨_, exec_encoderTransition slips, rfl, rfl, rfl, rfl, ?_⟩
    rw [latched hv]
    rfl

end Sys2Proof.Machine
end

