-- ==== Sys2Proof/Proofs/Exposing.lean ====
section
/-! SUPPORT. An index in EXPOSING: how a swath starts, what a pass ends with, and what an index with a lead of 0 feeds at once (O57). -/

namespace Sys2Proof.Machine

/-! ### The beginning of a pass (R31, R118) -/

/-- A pass that begins changes HF and its queue alone. -/
theorem startPass_begins (b w : Nat) (k : Chip) :
    k.passBegins (startPass b w k) b w ∧ startPass b w k = { k with hf := (startPass b w k).hf, sp := (startPass b w k).sp } := by
  let fresh : Pass :=
    { id := k.hf.passSerial + 1, width := w, buffer := b, nextSet := 0, underway := 0, prefetch := [], window := false, dark := false }
  have fetched : startPass b w k =
      ({ k with hf := { k.hf with pass := some fresh, passSerial := k.hf.passSerial + 1 } } : Chip).fetchesFor fresh := hfFetch_eq _ _ rfl
  rw [fetched]
  have count : min (2 - (([] : List (Nat × List Byte)).length + 0)) ((w + 511) / 512 - 0) = min 2 ((w + 511) / 512) := rfl
  refine ⟨⟨?_, ?_⟩, rfl⟩
  · simp only [Chip.fetchesFor, fresh, count, Nat.zero_add]
  · simp only [Chip.fetchesFor, fresh, count, Nat.zero_add]
    rfl

/-- A buffer is the lowest that is FULL with a band. -/
theorem fullBuffer_some {bs : List Buffer} {b : Band} {n : Nat} :
    fullBuffer bs b = some n ↔ bs[n]? = some (.full b) ∧ ∀ m < n, bs[m]? ≠ some (.full b) := by
  rw [fullBuffer, List.findIdx?_eq_some_iff_getElem]
  constructor
  · rintro ⟨hn, here, before⟩
    refine ⟨by simpa [hn] using here, fun m hm => ?_⟩
    have := before m hm
    simpa [show m < bs.length by omega] using this
  · rintro ⟨here, before⟩
    obtain ⟨hn, same⟩ := List.getElem?_eq_some_iff.mp here
    refine ⟨hn, by simpa using same, fun m hm => ?_⟩
    have := before m hm
    simpa [show m < bs.length by omega] using this

theorem drainingBuffer_some {bs : List Buffer} {b : Band} {n : Nat} (here : bs[n]? = some (.draining b))
    (before : ∀ m < n, ∀ x, bs[m]? ≠ some (.draining x)) : drainingBuffer bs = some n := by
  obtain ⟨hn, same⟩ := List.getElem?_eq_some_iff.mp here
  rw [drainingBuffer, List.findIdx?_eq_some_iff_getElem]
  refine ⟨hn, by rw [same], fun m hm => ?_⟩
  have other := before m hm
  rw [List.getElem?_eq_getElem (by omega)] at other
  cases hb : bs[m] with
  | draining x => exact absurd (congrArg some hb) (other x)
  | free => simp
  | filling x => simp
  | full x => simp

/-! ### A swath that starts, or is held (R159 (4), R160) -/

/-- The chip with one hold more counted. -/
def Chip.heldOnce (b : Chip) : Chip :=
  { b with imc := { b.imc with exposure := { b.imc.exposure with holds := b.imc.exposure.holds + 1 } } }

theorem countHold_before {p : PlateRef} {out : Bool} {b : Chip} (h : b.imc.exposure.begun = false) : countHold p out b = b := by
  rw [countHold, h]
  rfl

theorem countHold_within {p : PlateRef} {out : Bool} {b : Chip} (h : b.imc.exposure.begun = true)
    (hl : b.imc.exposure.holds < b.lay.holdLimit) : countHold p out b = b.heldOnce := by
  rw [countHold, if_pos h]
  exact if_neg (by omega)

theorem countHold_above {p : PlateRef} {out : Bool} {b : Chip} {d : Drum} (h : b.imc.exposure.begun = true)
    (hl : b.lay.holdLimit ≤ b.imc.exposure.holds) (hd : b.imc.drum = some d) :
    b.heldOnce.spoiledFrom (countHold p out b) d p (if out then .speed else .underrun) 1 := by
  have ends : countHold p out b = endExposure p (some (if out then .speed else .underrun, 1)) b.heldOnce := by
    rw [countHold, if_pos h]
    exact if_pos (by omega)
  rw [ends]
  cases out
  · exact endExposure_spoiled b.heldOnce d p .underrun 1 hd rfl (by decide) (by decide)
  · exact endExposure_spoiled b.heldOnce d p .speed 1 hd rfl (by decide) (by decide)

/-- The chip with the first pass of a swath to begin over buffer `n`. -/
def Chip.drains (b : Chip) (p : PlateRef) (n : Nat) : Chip :=
  { b with
    br := { b.br with buffers := b.br.buffers.set n (.draining ⟨p.slot, p.attempt, b.imc.exposure.cursor⟩) }
    imc := { b.imc with exposure := { b.imc.exposure with pass := 1, begun := true } } }

/-- A swath starts with a good index, EXPOSE_ENABLE set and its band FULL; else a hold is counted. -/
theorem swathStart_cases (p : PlateRef) (r : Rating) (b : Chip) :
    (∃ n, r.inWindow = true ∧ r.slip = false ∧ b.regs.exposeEnable = true ∧
      fullBuffer b.br.buffers ⟨p.slot, p.attempt, b.imc.exposure.cursor⟩ = some n ∧
      swathStart p (some r) b = startPass n (b.format p.format).width (b.drains p n)) ∨
    ((r.inWindow = false ∨ r.slip = true ∨ b.regs.exposeEnable = false ∨
      fullBuffer b.br.buffers ⟨p.slot, p.attempt, b.imc.exposure.cursor⟩ = none) ∧
      swathStart p (some r) b = countHold p (!r.inWindow) b) := by
  unfold swathStart
  dsimp only
  split
  · next good =>
    simp only [Bool.and_eq_true, Bool.not_eq_true'] at good
    cases hf : fullBuffer b.br.buffers ⟨p.slot, p.attempt, b.imc.exposure.cursor⟩ with
    | some n => exact .inl ⟨n, good.1.1, good.1.2, good.2, rfl, rfl⟩
    | none => exact .inr ⟨by simp, rfl⟩
  · next bad =>
    refine .inr ⟨?_, rfl⟩
    cases hw : r.inWindow <;> cases hs : r.slip <;> cases he : b.regs.exposeEnable <;> simp_all

/-- What the index makes of a swath that may start: from `b` to `t` (R159 (4), R160). -/
def Chip.swathStarts (b t : Chip) (d : Drum) (p : PlateRef) (inWindow slip : Prop) : Prop :=
  let full (n : Nat) := b.br.buffers[n]? = some (.full ⟨p.slot, p.attempt, b.imc.exposure.cursor⟩) ∧
    ∀ m < n, b.br.buffers[m]? ≠ some (.full ⟨p.slot, p.attempt, b.imc.exposure.cursor⟩)
  (∀ n, inWindow → ¬slip → b.regs.exposeEnable = true → full n →
    b.passBegins t n (b.format p.format).width ∧ t = { b.drains p n with hf := t.hf, sp := t.sp }) ∧
  (¬inWindow ∨ slip ∨ b.regs.exposeEnable = false ∨ (∀ n, ¬full n) →
    (b.imc.exposure.begun = false → t = b) ∧
    (b.imc.exposure.begun = true → b.imc.exposure.holds < b.lay.holdLimit → t = b.heldOnce) ∧
    (b.imc.exposure.begun = true → b.lay.holdLimit ≤ b.imc.exposure.holds →
      (inWindow → b.heldOnce.spoiledFrom t d p .underrun 1) ∧ (¬inWindow → b.heldOnce.spoiledFrom t d p .speed 1)))

theorem swathStart_starts {p : PlateRef} {r : Rating} {b : Chip} {d : Drum} (hd : b.imc.drum = some d) :
    b.swathStarts (swathStart p (some r) b) d p (r.inWindow = true) (r.slip = true) := by
  rcases swathStart_cases p r b with ⟨n, hw, hs, he, hf, e⟩ | ⟨why, e⟩
  · refine ⟨fun m _ _ _ full => ?_, fun bad => ?_⟩
    · have same : m = n := by
        have := fullBuffer_some.mpr full
        rw [hf] at this
        exact (Option.some.inj this).symm
      rw [e, same]
      exact startPass_begins n (b.format p.format).width (b.drains p n)
    · rcases bad with bad | bad | bad | bad
      · exact absurd hw bad
      · simp [hs] at bad
      · simp [he] at bad
      · exact absurd (fullBuffer_some.mp hf) (bad n)
  · refine ⟨fun n hw hs he full => ?_, fun _ => ⟨fun hb => ?_, fun hb hl => ?_, fun hb hl => ?_⟩⟩
    · rw [fullBuffer_some.mpr full] at why
      simp [hw, he] at why
      exact absurd why hs
    · rw [e, countHold_before hb]
    · rw [e, countHold_within hb hl]
    · rw [e]
      have ends := countHold_above (p := p) (out := !r.inWindow) hb hl hd
      refine ⟨fun hw => ?_, fun hw => ?_⟩
      · simpa [hw] using ends
      · simpa [hw] using ends

end Sys2Proof.Machine
end

