-- ==== Sys2Proof/Proofs/IndexTaken.lean ====
section
/-! SUPPORT. An index in EXPOSING as a whole: breaks, slips, passes and the end of a swath, and the dot due at once with a lead of 0 (O57). -/

namespace Sys2Proof.Machine

section

variable {k : Chip} {p : PlateRef} {r : Rating} {d : Drum}

/-! ### Breaks and slips (R162, R163) -/

/-- A break counts the swath whose last pass ends well at the index (log 28). -/
theorem swathEndsWell_iff : swathEndsWell k (some r) = true ↔
    k.imc.exposure.pass ≠ 0 ∧ k.imc.exposure.pass = k.imc.exposure.values.passes ∧ r.inWindow = true ∧ r.slip = false := by
  simp only [swathEndsWell, Bool.and_eq_true, decide_eq_true_eq, Bool.not_eq_true', Nat.pos_iff_ne_zero]
  tauto

/-- A break request ends a begun exposure with mark BREAK. -/
theorem exposeIndex_breaks (hd : k.imc.drum = some d) (hk : k.imc.exposure.breakRequest = true) (hb : k.imc.exposure.begun = true) :
    (swathEndsWell k (some r) = true → k.swathCounted.spoiledFrom (exposeIndex p (some r) k) d p .broken 0) ∧
      (swathEndsWell k (some r) = false → k.spoiledFrom (exposeIndex p (some r) k) d p .broken 0) := by
  have ends : exposeIndex p (some r) k =
      endExposure p (some (.broken, 0)) (if swathEndsWell k (some r) = true then k.swathCounted else k) := by
    rw [exposeIndex, hk, hb]
    rfl
  rw [ends]
  refine ⟨fun h => ?_, fun h => ?_⟩
  · rw [if_pos h]
    exact endExposure_spoiled k.swathCounted d p .broken 0 hd rfl (by decide) (by decide)
  · rw [if_neg (by simp [h])]
    exact endExposure_spoiled k d p .broken 0 hd rfl (by decide) (by decide)

/-- No break is taken: none is requested, or exposure has not begun. -/
def Chip.unbroken (k : Chip) : Prop := k.imc.exposure.breakRequest = false ∨ k.imc.exposure.begun = false

theorem exposeIndex_unbroken (h : k.unbroken) : exposeIndex p (some r) k =
    if r.slip = true ∧ k.imc.exposure.begun = true then endExposure p (some (.slip, countDetail k.dtu.captureC)) k
    else if r.slip = true then swathStart p (some r) (offerSlip (countDetail k.dtu.captureC) k)
    else passStep p (some r) k := by
  have none_ : (k.imc.exposure.breakRequest && k.imc.exposure.begun) = false := by
    rcases h with h | h <;> simp [h]
  rw [exposeIndex, none_]
  simp

theorem exposeIndex_slips (h : k.unbroken) (hd : k.imc.drum = some d) (hs : r.slip = true) (hb : k.imc.exposure.begun = true) :
    k.spoiledFrom (exposeIndex p (some r) k) d p .slip (countDetail k.dtu.captureC) := by
  rw [exposeIndex_unbroken h, if_pos ⟨hs, hb⟩]
  exact endExposure_spoiled k d p .slip _ hd rfl (by decide) (by decide)

/-- A slip before exposure has begun is offered to the device fault record; the swath waits, and nothing is held. -/
theorem exposeIndex_offers (h : k.unbroken) (hs : r.slip = true) (hb : k.imc.exposure.begun = false) :
    exposeIndex p (some r) k = offerSlip (countDetail k.dtu.captureC) k := by
  obtain ⟨q, record, ws, offered, -⟩ := offerSlip_eq (countDetail k.dtu.captureC) k
  have begun : (offerSlip (countDetail k.dtu.captureC) k).imc.exposure.begun = false := by
    rw [offered]
    exact hb
  rw [exposeIndex_unbroken h, if_neg (by simp [hb]), if_pos hs]
  rcases swathStart_cases p r (offerSlip (countDetail k.dtu.captureC) k) with ⟨n, -, good, -⟩ | ⟨-, e⟩
  · simp [hs] at good
  · rw [e, countHold_before begun]

theorem exposeIndex_passes (h : k.unbroken) (hs : r.slip = false) : exposeIndex p (some r) k = passStep p (some r) k := by
  rw [exposeIndex_unbroken h, if_neg (by simp [hs]), if_neg (by simp [hs])]

/-! ### Passes (R159) -/

theorem passStep_first (h : k.imc.exposure.pass = 0) : passStep p (some r) k = swathStart p (some r) k := if_pos h

theorem passStep_late (h : k.imc.exposure.pass ≠ 0) (hw : r.inWindow = false) (hd : k.imc.drum = some d) :
    k.spoiledFrom (passStep p (some r) k) d p .speed 0 := by
  have ends : passStep p (some r) k = endExposure p (some (.speed, 0)) k := by
    rw [passStep, if_neg h]
    exact if_pos (by simp [hw])
  rw [ends]
  exact endExposure_spoiled k d p .speed 0 hd rfl (by decide) (by decide)

/-- The chip with the next pass of its swath counted. -/
def Chip.nextPass (k : Chip) : Chip :=
  { k with imc := { k.imc with exposure := { k.imc.exposure with pass := k.imc.exposure.pass + 1 } } }

/-- The next pass of the swath starts over the DRAINING buffer, when there is one. -/
theorem passStep_next (h : k.imc.exposure.pass ≠ 0) (hw : r.inWindow = true) (hp : k.imc.exposure.pass < k.imc.exposure.values.passes) :
    (∀ n, drainingBuffer k.br.buffers = some n → passStep p (some r) k = startPass n (k.format p.format).width k.nextPass) ∧
      (drainingBuffer k.br.buffers = none → passStep p (some r) k = k.nextPass) := by
  have step : passStep p (some r) k = (drainingBuffer k.br.buffers).elim k.nextPass
      (fun n => startPass n (k.format p.format).width k.nextPass) := by
    rw [passStep, if_neg h, if_neg (by simp [hw]), if_pos hp]
    cases drainingBuffer k.br.buffers <;> rfl
  refine ⟨fun n hn => ?_, fun hn => ?_⟩ <;> rw [step, hn] <;> rfl

/-- After the last pass the swath is complete, and with the last swath exposure. -/
theorem passStep_completes (h : k.imc.exposure.pass ≠ 0) (hw : r.inWindow = true)
    (hp : k.imc.exposure.values.passes ≤ k.imc.exposure.pass) :
    (k.imc.exposure.cursor + 1 = (k.format p.format).rows / 64 → passStep p (some r) k = exposureComplete p k.swathCounted) ∧
      (k.imc.exposure.cursor + 1 ≠ (k.format p.format).rows / 64 → passStep p (some r) k = swathStart p (some r) k.swathCounted) := by
  rw [passStep, if_neg h, if_neg (by simp [hw]), if_neg (Nat.not_lt.mpr hp)]
  exact ⟨fun last => if_pos last, fun more => if_neg more⟩

/-- Exposure is complete: the drum plate is EXPOSED and waits for its UNLOAD, and PSC is told (R161). -/
theorem exposureComplete_eq (hd : k.imc.drum = some d) : exposureComplete p k = { k with
    hf := { k.hf with pass := none, laser := 0 }
    psc := { k.psc with inbox := k.psc.inbox ++
      [.exposureEnd p.slot p.attempt p.prep k.imc.exposure.exposed k.imc.exposure.holds] }
    imc := { k.imc with
      drum := some { d with cond := .exposed, confirmed := false }
      state := (if k.imc.pauses.any = true then .paused else .unloadWait)
      drumTarget := 0 } } := by
  simp only [exposureComplete, condemn, endPass, Chip.setHf_imc, hd]
  by_cases hp : k.imc.pauses.any = true <;>
    simp [hp, setDrum, reportExposureEnd, tellPsc, goTo, setTarget, darken, Chip.setImc, Chip.setPsc, Chip.setHf]

/-! ### What an index leaves to feed (R150 (3)) -/

/-- From `k` to `t` the count and the compare pair stay; a pass that is in progress has begun just now, and the drum record stays then. -/
def Chip.feedsFresh (k t : Chip) (d : Drum) : Prop :=
  t.dtu = k.dtu ∧ ∀ ps, t.hf.pass = some ps → ps.window = false ∧ ps.prefetch = [] ∧ t.imc.drum = some d

theorem feedsFresh_of_none {t : Chip} (h : t.dtu = k.dtu) (hp : t.hf.pass = none) : k.feedsFresh t d :=
  ⟨h, fun ps hs => by simp [hp] at hs⟩

theorem feedsFresh_of_spoiled {j t : Chip} {kind : MarkKind} {detail : Nat} (h : j.spoiledFrom t d p kind detail) (hj : j.dtu = k.dtu) :
    k.feedsFresh t d := by
  obtain ⟨e, -⟩ := h
  exact feedsFresh_of_none (by rw [e]; exact hj) (by rw [e])

theorem feedsFresh_startPass {j : Chip} (n w : Nat) (hj : j.dtu = k.dtu) (hd : j.imc.drum = some d) :
    k.feedsFresh (startPass n w j) d := by
  obtain ⟨⟨hf, -⟩, rest⟩ := startPass_begins n w j
  refine ⟨by rw [rest]; exact hj, fun ps hs => ?_⟩
  rw [hf] at hs
  cases hs
  exact ⟨rfl, rfl, by rw [rest]; exact hd⟩

theorem feedsFresh_swathStart {j : Chip} (hj : j.dtu = k.dtu) (hd : j.imc.drum = some d) (hp : j.hf.pass = none) :
    k.feedsFresh (swathStart p (some r) j) d := by
  rcases swathStart_cases p r j with ⟨n, -, -, -, -, e⟩ | ⟨-, e⟩
  · rw [e]
    exact feedsFresh_startPass n _ hj hd
  · rw [e]
    cases hb : j.imc.exposure.begun with
    | false =>
      rw [countHold_before hb]
      exact feedsFresh_of_none hj hp
    | true =>
      rcases Nat.lt_or_ge j.imc.exposure.holds j.lay.holdLimit with hl | hl
      · rw [countHold_within hb hl]
        exact feedsFresh_of_none hj hp
      · exact feedsFresh_of_spoiled (countHold_above hb hl hd) hj

theorem feedsFresh_passStep (hd : k.imc.drum = some d) (hp : k.hf.pass = none) : k.feedsFresh (passStep p (some r) k) d := by
  by_cases first : k.imc.exposure.pass = 0
  · rw [passStep_first first]
    exact feedsFresh_swathStart rfl hd hp
  cases hw : r.inWindow with
  | false => exact feedsFresh_of_spoiled (passStep_late first hw hd) rfl
  | true =>
    rcases Nat.lt_or_ge k.imc.exposure.pass k.imc.exposure.values.passes with more | last
    · obtain ⟨next, idle⟩ := passStep_next (p := p) first hw more
      cases hb : drainingBuffer k.br.buffers with
      | some n =>
        rw [next n hb]
        exact feedsFresh_startPass n _ rfl hd
      | none =>
        rw [idle hb]
        exact feedsFresh_of_none rfl hp
    · obtain ⟨ends, goesOn⟩ := passStep_completes (p := p) first hw last
      by_cases hc : k.imc.exposure.cursor + 1 = (k.format p.format).rows / 64
      · rw [ends hc, exposureComplete_eq (k := k.swathCounted) hd]
        exact feedsFresh_of_none rfl rfl
      · rw [goesOn hc]
        exact feedsFresh_swathStart rfl hd hp

theorem feedsFresh_exposeIndex (hd : k.imc.drum = some d) (hp : k.hf.pass = none) : k.feedsFresh (exposeIndex p (some r) k) d := by
  by_cases broken : k.unbroken
  · cases hs : r.slip with
    | false =>
      rw [exposeIndex_passes broken hs]
      exact feedsFresh_passStep hd hp
    | true =>
      cases hb : k.imc.exposure.begun with
      | true => exact feedsFresh_of_spoiled (exposeIndex_slips broken hd hs hb) rfl
      | false =>
        obtain ⟨q, record, ws, offered, -⟩ := offerSlip_eq (countDetail k.dtu.captureC) k
        rw [exposeIndex_offers broken hs hb, offered]
        exact feedsFresh_of_none rfl hp
  · simp only [Chip.unbroken, not_or, Bool.not_eq_false] at broken
    obtain ⟨counted, plain⟩ := exposeIndex_breaks (p := p) (r := r) hd broken.1 broken.2
    cases hw : swathEndsWell k (some r) with
    | true => exact feedsFresh_of_spoiled (counted hw) rfl
    | false => exact feedsFresh_of_spoiled (plain hw) rfl

end

/-! ### The index (R148, R149) -/

/-- How the statement rates a revolution (R149). -/
def Chip.ratingOf (k : Chip) (elapsed : Nat) : Rating :=
  rate k.imc.drumTarget (capPeriod elapsed) k.dtu.count k.lay.speedWindow k.lay.slipTolerance

/-- A rated index in EXPOSING goes to IMC with its rating, and then to the feed. -/
theorem indexPulse_exposing {k : Chip} {d : Drum} {p : PlateRef} (elapsed : Nat) (hw : k.working = true) (hd : k.imc.drum = some d)
    (ho : d.owner = some p) (hs : k.imc.state = .exposing) (hr : k.dtu.reference = false) (ht : k.imc.drumTarget ≠ 0) :
    indexPulse elapsed k = feedAtCount (exposeIndex p (some (k.ratingOf elapsed)) (k.captured elapsed)) := by
  have live : k.pd.runState ≠ .halted := by
    intro h
    simp [Chip.working, h] at hw
  have rated : ratingAt k elapsed = some (k.ratingOf elapsed) := by
    rw [ratingAt, if_neg (by simp [unrated, hr, ht, hs])]
    rfl
  have taken : imagerIndex (some (k.ratingOf elapsed)) (k.captured elapsed) =
      exposeIndex p (some (k.ratingOf elapsed)) (k.captured elapsed) := by
    have working : (k.captured elapsed).working = true := hw
    rw [imagerIndex, if_pos working, drumPlate_eq (k := k.captured elapsed) hd ho]
    dsimp only
    rw [show (k.captured elapsed).imc.state = .exposing from hs]
  rw [indexPulse, if_neg live, rated]
  exact congrArg feedAtCount taken

/-- With a lead above 0, or no pass, nothing is fed at the index. -/
theorem feedsFresh_idle {k t : Chip} {d : Drum} (h : k.feedsFresh t d) (hc : k.dtu.count = 0) (hb : k.dtu.activeB ≠ 0)
    (ha : k.dtu.activeA ≠ 0 ∨ t.hf.pass = none) : feedAtCount t = t := by
  obtain ⟨dtu, fresh⟩ := h
  cases hp : t.hf.pass with
  | none => exact feedAtCount_idle hp
  | some ps =>
    obtain ⟨window, -⟩ := fresh ps hp
    have lead : k.dtu.activeA ≠ 0 := ha.resolve_right (by simp [hp])
    exact feedAtCount_before hp (by rw [dtu, hc]; omega) (by rw [dtu, hc]; omega) window

/-- With a lead of 0 the pass that has begun finds its dot 0 due, and no row set: an underrun (log 35). -/
theorem feedsFresh_underrun {k t : Chip} {d : Drum} {p : PlateRef} (h : k.feedsFresh t d) (hc : k.dtu.count = 0) (hb : k.dtu.activeB ≠ 0)
    (ha : k.dtu.activeA = 0) (hp : t.hf.pass.isSome = true) (ho : d.owner = some p) : t.spoiledFrom (feedAtCount t) d p .underrun 0 := by
  obtain ⟨dtu, fresh⟩ := h
  obtain ⟨ps, hp⟩ := Option.isSome_iff_exists.mp hp
  obtain ⟨-, empty, drum⟩ := fresh ps hp
  exact feedAtCount_underrun (d := 0) hp (by rw [dtu, hc]; omega) (by rw [dtu, hc, ha]; rfl) (.inr rfl) (by rw [empty]; rfl) drum ho

theorem exec_index {elapsed : Nat} {s : State} {t : Chip} (h : indexPulse elapsed s.chip = t) :
    exec (.index elapsed) s = .next (s.setChip t) := h ▸ rfl

/-- Settles O57: a break first, then a slip, then the passes; the dot due at the index itself comes last. -/
theorem indexExposes : Obligations.IndexExposes := by
  intro s elapsed d p hw hd ho hs hr ht hB
  have pulse := indexPulse_exposing elapsed hw hd ho hs hr ht
  have fresh := feedsFresh_exposeIndex (k := s.chip.captured elapsed) (p := p) (r := s.chip.ratingOf elapsed) hd rfl
  intro k e c target inWindow slip
  have inWindow_iff : (k.ratingOf elapsed).inWindow = true ↔ inWindow := decide_eq_true_iff
  have slip_iff : (k.ratingOf elapsed).slip = true ↔ slip := decide_eq_true_iff
  have late_iff : (k.ratingOf elapsed).inWindow = false ↔ ¬inWindow := by rw [← inWindow_iff, Bool.not_eq_true]
  have firm_iff : (k.ratingOf elapsed).slip = false ↔ ¬slip := by rw [← slip_iff, Bool.not_eq_true]
  have starts (b : Chip) (hb : b.imc.drum = some d) : b.swathStarts (swathStart p (some (k.ratingOf elapsed)) b) d p inWindow slip := by
    have := swathStart_starts (p := p) (r := k.ratingOf elapsed) hb
    rwa [propext inWindow_iff, propext slip_iff] at this
  refine ⟨exposeIndex p (some (k.ratingOf elapsed)) c, fun ha => ?_, fun ha hp => ?_, fun hk hb => ⟨fun bad => ?_, fun h1 h2 h3 h4 => ?_⟩,
    fun unbroken => ⟨fun h hb => ?_, fun h hb _ => ?_, fun h h0 => ?_, fun h h0 => ⟨fun hl => ?_, fun hl hn n b here before => ?_,
      fun hl hn => ⟨fun hc => ?_, fun hc => ?_⟩⟩⟩⟩
  · exact exec_index (pulse.trans (feedsFresh_idle fresh rfl hB ha))
  · exact ⟨_, exec_index pulse, rfl, rfl, feedsFresh_underrun fresh rfl hB ha hp ho⟩
  · refine (exposeIndex_breaks (k := c) hd hk hb).2 (Bool.not_eq_true _ ▸ fun well => ?_)
    obtain ⟨w0, wp, wi, ws⟩ := swathEndsWell_iff.mp well
    rcases bad with bad | bad | bad | bad
    · exact w0 bad
    · exact bad wp
    · exact bad (inWindow_iff.mp wi)
    · exact firm_iff.mp ws bad
  · exact (exposeIndex_breaks (k := c) hd hk hb).1 (swathEndsWell_iff.mpr ⟨h1, h2, inWindow_iff.mpr h3, firm_iff.mpr h4⟩)
  · exact exposeIndex_slips (k := c) unbroken hd (slip_iff.mpr h) hb
  · obtain ⟨q, record, ws, offered, -, latched⟩ := offerSlip_eq (countDetail c.dtu.captureC) c
    rw [exposeIndex_offers (k := c) unbroken (slip_iff.mpr h) hb, offered]
    refine ⟨rfl, rfl, rfl, fun hv => ?_⟩
    rw [latched hv]
    rfl
  · rw [exposeIndex_passes (k := c) unbroken (firm_iff.mpr h), passStep_first (k := c) h0]
    exact starts c hd
  · rw [exposeIndex_passes (k := c) unbroken (firm_iff.mpr h)]
    exact passStep_late (k := c) h0 (late_iff.mpr hl) hd
  · rw [exposeIndex_passes (k := c) unbroken (firm_iff.mpr h),
      (passStep_next (k := c) h0 (inWindow_iff.mpr hl) hn).1 n (drainingBuffer_some here before)]
    exact startPass_begins n _ c.nextPass
  · rw [exposeIndex_passes (k := c) unbroken (firm_iff.mpr h), (passStep_completes (k := c) h0 (inWindow_iff.mpr hl) hn).2 hc]
    exact starts c.swathCounted hd
  · rw [exposeIndex_passes (k := c) unbroken (firm_iff.mpr h), (passStep_completes (k := c) h0 (inWindow_iff.mpr hl) hn).1 hc]
    exact exposureComplete_eq (k := c.swathCounted) hd

end Sys2Proof.Machine
end

