-- ==== Sys2Proof/Proofs/BytesArrive.lean ====
section
/-! SUPPORT. Bytes that arrive for the parse, for a reload, and for the prefetch (O26). -/

namespace Sys2Proof.Machine

/-- A completed transfer without notices brings its data, and nothing else happens. -/
theorem exec_completes {s : State} {c : Client} {x : Served} {rest : List Served} {t : Chip}
    (h : takeServed c s.chip.sp.served = some (x, rest)) (hr : s.chip.pd.runState ≠ .halted) (hn : x.xfer.notices = [])
    (ht : deliverData x.xfer x.data { s.chip with sp := { s.chip.sp with served := rest } } = t) :
    exec (.transferComplete c) s = .next (s.setChip t) := by
  have live := transferComplete_live h (fun e => absurd e hr)
  rw [hn] at live
  exact congrArg (fun k => Host.Outcome.next (s.setChip k)) (live.trans ht)

/-- A transfer of a block that is issued joins the tail of its queue. -/
theorem issue_iu (t : Transfer) (k : Chip) (h : t.client = .iu) : issue t k = { k with sp := { k.sp with iu := k.sp.iu ++ [t] } } := by
  unfold issue
  rw [h]
  rfl

theorem issue_br (t : Transfer) (k : Chip) (h : t.client = .br) : issue t k = { k with sp := { k.sp with br := k.sp.br ++ [t] } } := by
  unfold issue
  rw [h]
  rfl

/-! ### The header (R43) -/

/-- The fields of a fragment header, as its bytes say. -/
def fragHeaderAt (b : List Byte) : FragHeader :=
  { key := ⟨u8 b 4, u8 b 5, u8 b 6⟩, kind := u8 b 7, version := u16 b 8, sep := u8 b 10, len := u32 b 12 }

/-- A header that R43 accepts. -/
def soundHeader (b : List Byte) : Prop :=
  let h := fragHeaderAt b
  u32 b 0 = 0x00640F01 ∧ (h.key.book ≤ 15 ∧ h.key.page ≠ 0 ∧ h.key.zone ≤ 63) ∧ 1 ≤ h.kind ∧ h.kind ≤ 3 ∧ h.version ≠ 0 ∧ h.sep ≤ 3 ∧
    u8 b 11 = 0 ∧ 1 ≤ h.len ∧ h.len ≤ 65520

/-- What a header that R43 rejects names: its key and version, when these are sound. -/
def namedBy (b : List Byte) : Option (PageKey × Nat) :=
  let h := fragHeaderAt b
  if (h.key.book ≤ 15 ∧ h.key.page ≠ 0 ∧ h.key.zone ≤ 63) ∧ h.version ≠ 0 then some (h.key, h.version) else none

theorem keyInRange_iff (key : PageKey) : keyInRange key = true ↔ key.book ≤ 15 ∧ key.page ≠ 0 ∧ key.zone ≤ 63 := by
  simp [keyInRange, and_assoc]

theorem checkHeader_sound {b : List Byte} (h : soundHeader b) : checkHeader b = .ok (fragHeaderAt b) := by
  obtain ⟨magic, key, kind, kind', version, sep, pad, len, len'⟩ := h
  have inRange : keyInRange (keyAt b 4) = true := (keyInRange_iff _).mpr key
  have known : u8 b 7 = 1 ∨ u8 b 7 = 2 ∨ u8 b 7 = 3 := by
    simp only [fragHeaderAt] at kind kind'
    omega
  exact if_pos ⟨magic, inRange, known, version, sep, pad, len, len'⟩

theorem checkHeader_unsound {b : List Byte} (h : ¬soundHeader b) : checkHeader b = .error (.malformedHeader (namedBy b)) := by
  have named : (if keyInRange (keyAt b 4) && decide (u16 b 8 ≠ 0) then some (keyAt b 4, u16 b 8) else none) = namedBy b := by
    simp only [namedBy, Bool.and_eq_true, keyInRange_iff, decide_eq_true_eq]
    rfl
  rw [← named]
  refine if_neg fun ⟨magic, key, kind, version, sep, pad, len, len'⟩ => h ⟨magic, (keyInRange_iff _).mp key, ?_, ?_, version, sep, pad, len, len'⟩
  · show 1 ≤ u8 b 7
    simp only at kind
    omega
  · show u8 b 7 ≤ 3
    simp only at kind
    omega

/-! ### The parse (R51–R53) -/

section

variable {k : Chip} {p : Parse} {data : List Byte}

theorem parseArrives_idle (h : k.iu.parse = none) : parseArrives data k = k := by rw [parseArrives, h]

/-- IU with another parse in progress. -/
def IntakeUnit.parsing (u : IntakeUnit) (p : Parse) : IntakeUnit := { u with parse := some p }

/-- The bytes decide: nothing more is read. -/
theorem parseArrives_decided {q : Parse} {v : Verdict} (h : k.iu.parse = some p)
    (hq : parseStep k.iu { p with bytes := p.bytes ++ data } = q) (hv : q.verdict = some v) :
    parseArrives data k = { k with iu := k.iu.parsing q } := by
  rw [parseArrives, h]
  dsimp only
  rw [hq, hv]
  rfl

/-- The bytes do not decide yet: the next bytes of the cell are read. -/
theorem parseArrives_reads {q : Parse} {f : FragHeader} (h : k.iu.parse = some p)
    (hq : parseStep k.iu { p with bytes := p.bytes ++ data } = q) (hv : q.verdict = none) (hf : q.header = some f) :
    parseArrives data k = { k with
      iu := k.iu.parsing q
      sp := { k.sp with iu := k.sp.iu ++
        [parseRead k q.cell q.bytes.length (min (4096 - q.bytes.length % 4096) (16 + f.len - q.bytes.length))] } } := by
  rw [parseArrives, h]
  dsimp only
  rw [hq, hv, hf]
  dsimp only
  rw [issue_iu _ _ (parseRead_client ..)]
  rfl

/-- The parse after bytes that leave it with a header, a match and what the body bytes say. -/
def Parse.reads (p : Parse) (b : List Byte) (h : FragHeader) (m : Option MatchCase) : Parse :=
  { p with bytes := b, header := some h, matching := m, verdict := bodyVerdict p.cell h b }

theorem parseStep_body {h : FragHeader} (hp : p.header = some h) (b : List Byte) :
    parseStep k.iu { p with bytes := b } = p.reads b h p.matching := by
  unfold parseStep
  dsimp only
  rw [hp]
  rfl

theorem parseStep_unsound (hp : p.header = none) {b : List Byte} (hb : ¬soundHeader b) : parseStep k.iu { p with bytes := b } =
    { p with bytes := b, header := none, verdict := some (.reject (.malformedHeader (namedBy b))) } := by
  unfold parseStep
  dsimp only
  rw [hp]
  dsimp only
  rw [checkHeader_unsound hb]

theorem parseStep_stale (hp : p.header = none) {b : List Byte} (hb : soundHeader b) (hm : matchHeader k.iu (fragHeaderAt b) = none) :
    parseStep k.iu { p with bytes := b } =
      { p with bytes := b, header := some (fragHeaderAt b), verdict := some (.reject .stale) } := by
  unfold parseStep
  dsimp only
  rw [hp]
  dsimp only
  rw [checkHeader_sound hb]
  dsimp only
  rw [hm]

theorem parseStep_matched (hp : p.header = none) {b : List Byte} (hb : soundHeader b) {m : MatchCase}
    (hm : matchHeader k.iu (fragHeaderAt b) = some m) :
    parseStep k.iu { p with bytes := b } = p.reads b (fragHeaderAt b) (some m) := by
  unfold parseStep
  dsimp only
  rw [hp]
  dsimp only
  rw [checkHeader_sound hb]
  dsimp only
  rw [hm]
  rfl

/-- With a header that goes on to the body, the bytes decide it or the next bytes are read. -/
theorem parseArrives_body {h : FragHeader} {m : Option MatchCase} (hp : k.iu.parse = some p)
    (hq : parseStep k.iu { p with bytes := p.bytes ++ data } = p.reads (p.bytes ++ data) h m) :
    (∀ v, bodyVerdict p.cell h (p.bytes ++ data) = some v → parseArrives data k = { k with
      iu := k.iu.parsing { p with bytes := p.bytes ++ data, header := some h, matching := m, verdict := some v } }) ∧
    (bodyVerdict p.cell h (p.bytes ++ data) = none → parseArrives data k = { k with
      iu := k.iu.parsing { p with bytes := p.bytes ++ data, header := some h, matching := m, verdict := none }
      sp := { k.sp with iu := k.sp.iu ++ [parseRead k p.cell (p.bytes ++ data).length
        (min (4096 - (p.bytes ++ data).length % 4096) (16 + h.len - (p.bytes ++ data).length))] } }) := by
  refine ⟨fun v hv => ?_, fun hv => ?_⟩
  · rw [parseArrives_decided hp hq hv, Parse.reads, hv]
  · rw [parseArrives_reads hp hq hv rfl, Parse.reads, hv]

end

/-! ### A reload (R134–R136, R140) -/

section

variable {k : Chip} {r : Reload} {data : List Byte}

/-- TL with another reload in progress. -/
def TableLoader.reloading (t : TableLoader) (r : Reload) : TableLoader := { t with reload := some r }

/-- The next read of a reload is issued. -/
theorem reloadNext_reads {a : Nat × Nat} {more : List (Nat × Nat)} (h : r.reads = a :: more) : reloadNext r k = { k with
    tl := k.tl.reloading { r with reads := more }
    sp := { k.sp with br := k.sp.br ++
      [{ client := .br, stream := some .brRead, addr := a.1, op := .read a.2, purpose := .table, notices := [] }] } } := by
  rw [reloadNext, h]
  dsimp only
  rw [reloadRead, issue_br _ _ rfl]
  rfl

theorem reloadNext_ends (h : r.reads = []) :
    reloadNext r k = { k with tl := k.tl.reloading { r with outcome := some (tableChecks r.id r.bytes) } } := by
  rw [reloadNext, h]
  rfl

theorem reloadArrives_idle (h : k.tl.reload = none) : reloadArrives data k = k := by rw [reloadArrives, h]

theorem tileLegal_iff (t : Nat) : tileLegal t = true ↔ 8 ≤ t ∧ t ≤ 256 := by simp [tileLegal]

/-- A span begins at its address, whatever follows. -/
theorem pieces_cons {a n : Nat} (hn : 0 < n) : pieces a n = (a % storeSize, min n (4096 - a % 4096)) :: (pieces a n).drop 1 := by
  rw [pieces, piecesAux, if_neg (by omega)]
  rfl

/-- A screen's header with an illegal size ends the reload. -/
theorem reloadArrives_refused (h : k.tl.reload = some r) (hk : r.id.kind = .screen) (hb : r.bytes = [])
    (ht : ¬(8 ≤ u16 (r.bytes ++ data) 0 ∧ u16 (r.bytes ++ data) 0 ≤ 256)) : reloadArrives data k = { k with
      tl := k.tl.reloading { r with bytes := r.bytes ++ data, reads := [], outcome := some false } } := by
  rw [reloadArrives, h]
  dsimp only
  rw [if_pos (by simp [hk, hb]), if_neg (by rwa [tileLegal_iff])]
  rfl

/-- With a legal size the thresholds are read, from their first span on. -/
theorem reloadArrives_thresholds (h : k.tl.reload = some r) (hk : r.id.kind = .screen) (hb : r.bytes = [])
    (ht : 8 ≤ u16 (r.bytes ++ data) 0 ∧ u16 (r.bytes ++ data) 0 ≤ 256) (hbase : k.lay.tableBase % 4096 = 0) :
    ∃ more, reloadArrives data k = { k with
      tl := k.tl.reloading { r with bytes := r.bytes ++ data, reads := more }
      sp := { k.sp with br := k.sp.br ++
        [{ client := .br, stream := some .brRead, addr := (k.lay.tableBase + 0x100000 + 131072 * r.id.idx) % 4294967296
           op := .read (min (2 * u16 (r.bytes ++ data) 0 * u16 (r.bytes ++ data) 0) 4096), purpose := .table, notices := [] }] } } := by
  generalize hsize : u16 (r.bytes ++ data) 0 = size at ht
  have arrives : reloadArrives data k =
      reloadNext { r with bytes := r.bytes ++ data, reads := tableSpan k (thresholdPlace r.id.idx size) } k := by
    rw [reloadArrives, h]
    dsimp only
    rw [if_pos (by simp [hk, hb]), hsize, if_pos ((tileLegal_iff _).mpr ht)]
  have some_ : 0 < 2 * size * size := Nat.mul_pos (by omega) (by omega)
  have start : k.lay.tableBase + (0x100000 + 131072 * r.id.idx) = k.lay.tableBase + 0x100000 + 131072 * r.id.idx := by omega
  have page : (k.lay.tableBase + 0x100000 + 131072 * r.id.idx) % 4096 = 0 := by omega
  have first := pieces_cons (a := k.lay.tableBase + 0x100000 + 131072 * r.id.idx) some_
  rw [page] at first
  refine ⟨(pieces (k.lay.tableBase + 0x100000 + 131072 * r.id.idx) (2 * size * size)).drop 1, arrives.trans ?_⟩
  rw [reloadNext_reads (by simp only [tableSpan, thresholdPlace]; rw [start]; exact first)]
  rfl

/-- Other bytes bring the next read, or the outcome. -/
theorem reloadArrives_goesOn (h : k.tl.reload = some r) (hk : r.id.kind ≠ .screen ∨ r.bytes ≠ []) :
    reloadArrives data k = reloadNext { r with bytes := r.bytes ++ data } k := by
  rw [reloadArrives, h]
  dsimp only
  rw [if_neg (by simpa [← not_and_or] using hk)]

theorem screenSetAt_legal (b : List Byte) : (screenSetAt b).all (fun i => decide (i ≤ 7)) = true ↔ ∀ i < 4, u8 b i ≤ 7 := by
  simp [screenSetAt]

theorem profileLegal_iff (b : List Byte) : profileLegal (profileAt b) = true ↔
    300 ≤ u16 b 0 ∧ u16 b 0 ≤ 1200 ∧ 1 ≤ u8 b 2 ∧ u8 b 2 ≤ 4 ∧ u8 b 3 ≤ 63 := by
  simp only [profileLegal, Bool.and_eq_true, decide_eq_true_eq, and_assoc]
  rfl

end

/-! ### The prefetch (R31) -/

theorem rowSetArrives_other {k : Chip} {id j : Nat} {data : List Byte} (h : ∀ p, k.hf.pass = some p → p.id ≠ id) :
    rowSetArrives id j data k = k := by
  unfold rowSetArrives
  split
  · rfl
  · next p hp => exact if_neg (h p hp)

end Sys2Proof.Machine
end

