-- ==== Sys2Proof/Proofs/Fills.lean ====
section
/-! SUPPORT. A fill as its reads and writes complete: the next read, the next row set, and from one body to the next (O26). -/

namespace Sys2Proof.Machine

/-! ### The entry that a fill renders -/

theorem RenderEntry.isFor_iff (e : RenderEntry) (slot a : Nat) : e.isFor slot a = true ↔ e.slot = slot ∧ e.attempt = a := by
  simp [RenderEntry.isFor]

theorem fillEntry_head {k : Chip} {f : Fill} {e : RenderEntry} {order : List RenderEntry} (h : k.br.order = e :: order)
    (hs : e.slot = f.slot) (ha : e.attempt = f.attempt) : fillEntry k f = some e := by
  rw [fillEntry, h]
  exact List.find?_cons_of_pos ((e.isFor_iff _ _).mpr ⟨hs, ha⟩)

/-- From `k` to `t`, what a fill's row sets are rendered from is the same; of its entry only the finding flag may differ. -/
def Chip.renders (k t : Chip) (f : Fill) (e : RenderEntry) : Prop :=
  t.pd = k.pd ∧ t.tl = k.tl ∧ ∃ b, fillEntry t f = some { e with finding := b }

theorem Chip.renders_self {k : Chip} {f : Fill} {e : RenderEntry} (h : fillEntry k f = some e) : k.renders k f e := ⟨rfl, rfl, e.finding, h⟩

theorem lay_of_pd {k t : Chip} (h : t.pd = k.pd) : t.lay = k.lay := by rw [Chip.lay, h, Chip.lay]

theorem renderContext_of_tl {k t : Chip} (h : t.tl = k.tl) (e : RenderEntry) (b : Bool) :
    renderContext t { e with finding := b } = renderContext k e := by
  simp only [renderContext, Chip.curve, Chip.screen, Chip.screenOf, Chip.screenSet, h]

/-! ### Reads and writes of a fill (R117) -/

/-- The chip `t` with fill `g` in progress, whose next read is issued. -/
def Chip.reading (t : Chip) (g : Fill) (r : Nat × Nat) : Chip :=
  { t with
    br := { t.br with fill := some g }
    sp := { t.sp with br := t.sp.br ++ [fillTransfer g .brRead r.1 (.read r.2)] } }

/-- The chip `t` with fill `g` in progress, whose next row set is rendered from `k` and its write issued. -/
def Chip.writing (k t : Chip) (e : RenderEntry) (g : Fill) : Chip :=
  { t with
    br := { t.br with fill := some g }
    sp := { t.sp with br := t.sp.br ++
      [fillTransfer g .brWrite (k.bandAddr g.buffer + 4096 * g.nextSet) (.write (rowSetBytes (renderContext k e) g g.nextSet))] } }

theorem nextRead_eq (g : Fill) (a : Nat × Nat) (rest : List (Nat × Nat)) (t : Chip) :
    nextRead g a rest t = t.reading { g with reads := rest } a := issue_br _ _ rfl

/-- Addresses of reads wrap at 4 GiB (log 21). -/
theorem reading_wrapped (t : Chip) (g : Fill) (a n : Nat) : t.reading g (a % storeSize, n) = t.reading g (a, n) := by
  simp only [Chip.reading, fillTransfer, Nat.mod_mod]

theorem nextRowSet_writes {k t : Chip} {f g : Fill} {e : RenderEntry} (hr : k.renders t f e) (hs : g.slot = f.slot)
    (ha : g.attempt = f.attempt) (hn : g.nextSet < (e.format.width + 511) / 512) : nextRowSet g t = k.writing t e g := by
  obtain ⟨pd, tl, b, entry⟩ := hr
  have entry' : fillEntry t g = some { e with finding := b } := by rw [← entry, fillEntry, hs, ha, fillEntry]
  have lay := lay_of_pd pd
  rw [nextRowSet, entry']
  dsimp only
  rw [if_pos (by exact hn), renderContext_of_tl tl, issue_br _ _ rfl, Chip.bandAddr, lay]
  rfl

/-- After the last row set the fill is done. -/
theorem nextRowSet_done {k : Chip} {g : Fill} {e : RenderEntry} (he : fillEntry k g = some e) (hn : (e.format.width + 511) / 512 ≤ g.nextSet) :
    nextRowSet g k = { k with br := { k.br with fill := some { g with done := true } } } := by
  rw [nextRowSet, he]
  dsimp only
  rw [if_neg (by simp only [rowSets]; omega)]
  rfl

/-! ### From one body to the next (R124, R126) -/

/-- Where an item's body lies, and its length. -/
def FillItem.body (k : Chip) : FillItem → Nat × Nat
  | .line s => (k.lay.cellBase + 65536 * s.cell + s.off, s.len)
  | .patch _ s _ => (k.lay.cellBase + 65536 * s.cell + s.off, s.len)

theorem itemReads_eq (k : Chip) (i : FillItem) : itemReads k i = pieces (i.body k).1 (i.body k).2 := by cases i <;> rfl

/-- There is something to go on with: a body that is not empty, or a row set that is left. -/
def Chip.goesOnWith (k : Chip) (e : RenderEntry) (f : Fill) : List FillItem → Prop
  | [] => f.nextSet < (e.format.width + 511) / 512
  | i :: _ => 0 < (i.body k).2

/-- The chip `t` in which fill `g` goes on with the items left, as `k` has them: the next body's first read, or the first row set. -/
def Chip.goesOn (k t : Chip) (e : RenderEntry) (its : List FillItem) (g : Fill) : Chip :=
  match its with
  | [] => k.writing t e { g with items := [], bytes := [], reads := [] }
  | i :: _ =>
    t.reading { g with items := its, bytes := [], reads := (pieces (i.body k).1 (i.body k).2).drop 1 }
      ((i.body k).1, min (i.body k).2 (4096 - (i.body k).1 % 4096))

/-- The bytes of the body before do not matter any more. -/
theorem goesOn_bytes (k t : Chip) (e : RenderEntry) (its : List FillItem) (g : Fill) (b : List Byte) :
    k.goesOn t e its { g with bytes := b } = k.goesOn t e its g := by cases its <;> rfl

/-- No body that is not empty can be decoded without a byte. -/
theorem itemDecode_start {k : Chip} {i : FillItem} (p : FillPlan) (h : 0 < (i.body k).2) : itemDecode p [] i = .more := by
  cases i with
  | line s =>
    have some_ : s.len ≠ 0 := Nat.pos_iff_ne_zero.mp h
    simp [itemDecode, decodeStrip, lineDecode, some_]
  | patch place s last =>
    have some_ : s.len ≠ 0 := Nat.pos_iff_ne_zero.mp h
    simp [itemDecode, decodePatch, patchDecodeAux, some_]

/-- With no byte of the first item read, its first read is issued; with no item left the row sets follow. -/
theorem runItems_goesOn {k t : Chip} {f g : Fill} {e : RenderEntry} {its x : List FillItem} {y : List (Nat × Nat)} (hr : k.renders t f e)
    (hs : g.slot = f.slot) (ha : g.attempt = f.attempt) (hn : g.nextSet = f.nextSet) (left : k.goesOnWith e f its)
    (hy : ∀ i rest, its = i :: rest → y = itemReads k i) :
    runItems e.sep its { g with items := x, bytes := [], reads := y } t = k.goesOn t e its g := by
  cases its with
  | nil => exact nextRowSet_writes hr hs ha (hn ▸ left)
  | cons i rest =>
    have first : y = ((i.body k).1 % storeSize, min (i.body k).2 (4096 - (i.body k).1 % 4096)) :: (pieces (i.body k).1 (i.body k).2).drop 1 := by
      rw [hy i rest rfl, itemReads_eq]
      exact pieces_cons left
    rw [runItems.eq_def]
    dsimp only
    rw [itemDecode_start g.plan left, first]
    dsimp only
    rw [nextRead_eq, reading_wrapped]
    rfl

/-- A body of which bytes are missing is read on. -/
theorem runItems_reads {t : Chip} {g : Fill} {it : FillItem} {its : List FillItem} {r : Nat × Nat} {more : List (Nat × Nat)} (sep : Nat)
    (hi : g.items = it :: its) (hd : itemDecode g.plan g.bytes it = .more) (hm : g.reads = r :: more) :
    runItems sep (it :: its) g t = t.reading { g with reads := more } r := by
  rw [runItems.eq_def]
  dsimp only
  rw [hd, hm]
  dsimp only
  rw [nextRead_eq, ← hi]

/-- A body that has come to its end brings its rows, and a finding when it failed. -/
theorem runItems_ends {k : Chip} {g : Fill} {it : FillItem} {its : List FillItem} (sep : Nat) :
    ∃ y, (∀ i rest, its = i :: rest → y = itemReads k i) ∧
      (itemDecode g.plan g.bytes it = .complete →
        runItems sep (it :: its) g k = runItems sep its { takeRows g it with bytes := [], reads := y } k) ∧
      (itemDecode g.plan g.bytes it = .failed → runItems sep (it :: its) g k =
        runItems sep its { takeRows g it with bytes := [], reads := y } (decodeFinding (takeRows g it) it sep k)) := by
  cases its with
  | nil =>
    refine ⟨[], fun i rest h => (nomatch h), fun h => ?_, fun h => ?_⟩
    · rw [runItems.eq_def sep [it] g k]
      dsimp only
      rw [h]
      rfl
    · rw [runItems.eq_def sep [it] g k]
      dsimp only
      rw [h]
      rfl
  | cons i rest =>
    refine ⟨itemReads k i, fun j others h => by cases h; rfl, fun h => ?_, fun h => ?_⟩
    · rw [runItems.eq_def sep (it :: i :: rest) g k]
      dsimp only
      rw [h]
      rfl
    · rw [runItems.eq_def sep (it :: i :: rest) g k]
      dsimp only
      rw [h]
      rfl

end Sys2Proof.Machine
end

