-- ==== Sys2Proof/Proofs/Findings.lean ====
section
/-! SUPPORT. The findings of a fill: the DECODE mark, once for each render, and the damage report to IU (O26). -/

namespace Sys2Proof.Machine

/-! ### The DECODE mark (R128 (2)) -/

/-- From `k` to `u`, a finding of fill `f` has marked DECODE on the plate of entry `e`, unless the entry had its finding before; the key and the
low byte of the detail say where. -/
def Chip.findingMarked (k u : Chip) (f : Fill) (e : RenderEntry) (key : PageKey) (low : Nat) : Prop :=
  u.psc = k.psc ∧ u.imc = k.imc ∧ u.tl = k.tl ∧ u.hf = k.hf ∧ u.sp.br = k.sp.br ∧
  (e.finding = true → u.br = k.br) ∧
  (e.finding = false → u.br = { k.br with
    order := k.br.order.map (fun y => if y.slot = f.slot ∧ y.attempt = f.attempt then { y with finding := true } else y) }) ∧
  ((e.finding = true ∨ k.plate f.slot = none) → ∀ m, u.marks m = k.marks m) ∧
  (e.finding = false → (k.plate f.slot).isSome = true → (k.marks f.slot).marks.length < 8 → ∃ m,
    (u.marks f.slot).marks = (k.marks f.slot).marks ++ [m] ∧ m.kind = .decode ∧ m.attempt = f.attempt ∧ m.charged = false ∧
    m.key = some key ∧ m.location = .strip f.plan.strip ∧ m.detail = low + 256 * e.sep ∧
    m.severity = (if aluminiumExposed k f.slot f.attempt = true then .spoil else .hold))

section

variable {k : Chip} {f : Fill} {e : RenderEntry}

/-- The entry of a fill, with its finding flag set. -/
theorem fillEntry_flagged (h : fillEntry k f = some e) :
    fillEntry (updateEntry f.slot f.attempt (fun e => { e with finding := true }) k) f = some { e with finding := true } := by
  have entry := List.find?_some h
  have same : ((fun x : RenderEntry => x.isFor f.slot f.attempt) ∘
      fun x : RenderEntry => if x.isFor f.slot f.attempt then { x with finding := true } else x) = fun x => x.isFor f.slot f.attempt := by
    funext x
    rw [Function.comp_apply]
    split <;> rfl
  simp only [fillEntry, updateEntry, Chip.setBr_br, List.find?_map, same]
  rw [fillEntry] at h
  rw [h, Option.map_some, if_pos entry]

theorem findingMark_again (h : fillEntry k f = some e) (hf : e.finding = true) (key : PageKey) (patch : Option Nat) :
    findingMark f key patch k = k := by
  rw [findingMark, h]
  exact if_pos hf

/-- The chip with the finding flag of a fill's entry set. -/
def Chip.flagged (k : Chip) (f : Fill) : Chip := { k with
  br := { k.br with
    order := k.br.order.map (fun y => if y.slot = f.slot ∧ y.attempt = f.attempt then { y with finding := true } else y) } }

theorem updateEntry_flagged (k : Chip) (f : Fill) : updateEntry f.slot f.attempt (fun e => { e with finding := true }) k = k.flagged f := by
  simp only [updateEntry, RenderEntry.isFor_iff]
  rfl

theorem findingMark_first (h : fillEntry k f = some e) (hf : e.finding = false) (key : PageKey) (patch : Option Nat) :
    findingMark f key patch k = reportMark
      { slot := f.slot, attempt := f.attempt, kind := .decode, location := .strip f.plan.strip, key := some key
        detail := patch.getD 255 + 256 * e.sep, place := none, nosep := none } (k.flagged f) := by
  rw [findingMark, h]
  dsimp only
  rw [hf, updateEntry_flagged]
  rfl

/-- A finding marks DECODE once for each render, and the entry has its finding then; what is rendered stays. -/
theorem findingMark_marks (h : fillEntry k f = some e) (key : PageKey) (patch : Option Nat) :
    let u := findingMark f key patch k
    k.findingMarked u f e key (patch.getD 255) ∧ u.iu = k.iu ∧ u.pd = k.pd ∧ fillEntry u f = some { e with finding := true } := by
  cases hf : e.finding with
  | true =>
    dsimp only
    rw [findingMark_again h hf]
    exact ⟨⟨rfl, rfl, rfl, rfl, rfl, fun _ => rfl, fun g => (by simp [hf] at g), fun _ _ => rfl, fun g => (by simp [hf] at g)⟩,
      rfl, rfl, by rw [h, ← hf]⟩
  | false =>
    have found : fillEntry (k.flagged f) f = some { e with finding := true } := by
      rw [← updateEntry_flagged]
      exact fillEntry_flagged h
    dsimp only
    rw [findingMark_first h hf]
    generalize hm : ({ slot := f.slot, attempt := f.attempt, kind := .decode, location := .strip f.plan.strip, key := some key
                       detail := patch.getD 255 + 256 * e.sep, place := none, nosep := none } : MarkReport) = m
    have slot : m.slot = f.slot := by rw [← hm]
    obtain ⟨l, r, spec, others, stored⟩ := reportMark_spec m (k.flagged f)
    refine ⟨⟨by rw [spec]; rfl, by rw [spec]; rfl, by rw [spec]; rfl, by rw [spec]; rfl, by rw [spec]; rfl,
      fun g => (by simp [hf] at g), fun _ => by rw [spec]; rfl, fun free n => ?_, fun _ held room => ?_⟩,
      by rw [spec]; rfl, by rw [spec]; rfl, by rw [spec]; exact found⟩
    · have none_ : (k.flagged f).plate m.slot = none := by
        rw [slot]
        exact free.resolve_left (by simp [hf])
      rw [reportMark, recordMark_free none_]
      rfl
    · have told := stored (slot ▸ held) (by rw [← hm]; rfl) (slot ▸ room)
      rw [slot] at told
      refine ⟨_, told, by rw [← hm], by rw [← hm], by rw [← hm]; rfl, by rw [← hm], by rw [← hm], by rw [← hm], ?_⟩
      rw [← hm]
      show (if (MarkKind.isHold .decode && aluminiumExposed k f.slot f.attempt) = true then Severity.spoil else .hold) = _
      simp [MarkKind.isHold]

/-- Of several findings the first alone marks. -/
theorem findingMarks_first (h : fillEntry k f = some e) (key : PageKey) (patch : Option Nat) (others : List (PageKey × Option Nat)) :
    ((key, patch) :: others).foldl (fun k e => findingMark f e.1 e.2 k) k = findingMark f key patch k := by
  obtain ⟨-, -, -, entry⟩ := findingMark_marks h key patch
  rw [List.foldl_cons]
  generalize findingMark f key patch k = u at entry
  induction others with
  | nil => rfl
  | cons o others ih => rw [List.foldl_cons, findingMark_again entry rfl, ih]

theorem findingMark_renders (h : fillEntry k f = some e) (key : PageKey) (patch : Option Nat) :
    k.renders (findingMark f key patch k) f e := by
  obtain ⟨⟨-, -, tl, -⟩, -, pd, entry⟩ := findingMark_marks h key patch
  exact ⟨pd, tl, true, entry⟩

end

/-! ### The damage report (R66) -/

/-- The record of a damage report: one more DECODE note, and its state evaluated. -/
def PageRecord.spoiled (r : PageRecord) : PageRecord :=
  let j := PageRecord.evaluated { r with notes := r.notes.add .decode }
  { j with wasComplete := j.wasComplete || decide (j.state = .complete) }

/-- The evaluation changes a record's state alone. -/
theorem evaluated_eq (r : PageRecord) : r.evaluated = { r with state := r.evaluated.state } := by
  unfold PageRecord.evaluated
  split <;> rfl

theorem spoiled_eq (r : PageRecord) : ∃ state was, r.spoiled =
    { r with state := state, wasComplete := was, notes := { r.notes with decode := min 255 (r.notes.decode + 1) } } := by
  unfold PageRecord.spoiled
  rw [evaluated_eq]
  exact ⟨_, _, rfl⟩

/-- A record with a BAD entry is DAMAGED, unless it is SUPERSEDED (R62). -/
theorem spoiled_damaged {r : PageRecord} (hs : r.state ≠ .superseded) (hb : r.anyBad = true) : r.spoiled.state = .damaged := by
  have bad : PageRecord.anyBad { r with notes := r.notes.add .decode } = true := hb
  show (PageRecord.evaluated { r with notes := r.notes.add .decode }).state = .damaged
  rw [PageRecord.evaluated, if_neg hs]
  show PageRecord.stateByEntries { r with notes := r.notes.add .decode } = .damaged
  rw [PageRecord.stateByEntries, bad]
  rfl

/-- A damage report changes IU and its queue alone; of the directory it changes the record named, when its entry is still the one decoded. -/
theorem damageReport_spec (idx : Nat) (patch : Bool) (x n cell off : Nat) (k : Chip) :
    ∃ iu ws, damageReport idx patch x n cell off k = { k with iu := iu, sp := { k.sp with iu := k.sp.iu ++ ws } } ∧
      (∀ i, i ≠ idx → tblGet iu.dir i = tblGet k.iu.dir i) ∧
      ∀ q, tblGet k.iu.dir idx = some q →
        ((if patch then spoilPatch q x n cell off else spoilStrip q x n cell off) = none → tblGet iu.dir idx = some q) ∧
        ∀ r, (if patch then spoilPatch q x n cell off else spoilStrip q x n cell off) = some r → tblGet iu.dir idx = some r.spoiled := by
  have same : ({ k with iu := k.iu, sp := { k.sp with iu := k.sp.iu ++ [] } } : Chip) = k := by rw [List.append_nil]
  unfold damageReport
  cases hq : tblGet k.iu.dir idx with
  | none => exact ⟨k.iu, [], same.symm, fun _ _ => rfl, fun q h => nomatch h⟩
  | some q =>
    dsimp only
    cases hr : (if patch then spoilPatch q x n cell off else spoilStrip q x n cell off) with
    | none =>
      refine ⟨k.iu, [], same.symm, fun _ _ => rfl, fun y h => ?_⟩
      cases h
      exact ⟨fun _ => hq, fun r h => nomatch hr.symm.trans h⟩
    | some r =>
      dsimp only
      generalize he : (IuEvent.start k.iu).putMarked idx _ = event
      have dir (j : Nat) : tblGet event.u.dir j = if j = idx then some r.spoiled else tblGet k.iu.dir j := by
        rw [← he]
        simp only [IuEvent.putMarked, IuEvent.put, IntakeUnit.setDir, tblGet_tblPut]
        rfl
      obtain ⟨ws, -, end_⟩ := finishEvent_spec event none false false k
      refine ⟨_, ws, end_, fun j hj => (dir j).trans (if_neg hj), fun y h => ?_⟩
      cases h
      refine ⟨fun h => (nomatch hr.symm.trans h), fun y h => ?_⟩
      rw [hr] at h
      cases h
      exact (dir idx).trans (if_pos rfl)

/-! ### A body that cannot be decoded (R66, R128) -/

/-- A record's strip is made BAD exactly when its entry is PRESENT with that cell and offset. -/
theorem spoilStrip_eq (q : PageRecord) (x n cell off : Nat) :
    (¬(∃ ref, tblGet q.strips (768 * x + n) = some (.present ref) ∧ ref.cell = cell ∧ ref.off = off) → spoilStrip q x n cell off = none) ∧
    ((∃ ref, tblGet q.strips (768 * x + n) = some (.present ref) ∧ ref.cell = cell ∧ ref.off = off) →
      spoilStrip q x n cell off = some { q with strips := tblPut q.strips (768 * x + n) .bad }) := by
  refine ⟨fun h => ?_, fun ⟨ref, found, place⟩ => ?_⟩
  · unfold spoilStrip
    split
    · next ref found => exact if_neg fun place => h ⟨ref, found, place⟩
    · rfl
    · rfl
  · rw [spoilStrip, stripIndex, found]
    exact if_pos place

theorem spoilPatch_eq (q : PageRecord) (x n cell off : Nat) :
    (¬(∃ ref, tblGet q.patches (32 * x + n) = some (.present ref) ∧ ref.cell = cell ∧ ref.off = off) → spoilPatch q x n cell off = none) ∧
    ((∃ ref, tblGet q.patches (32 * x + n) = some (.present ref) ∧ ref.cell = cell ∧ ref.off = off) →
      spoilPatch q x n cell off = some { q with patches := tblPut q.patches (32 * x + n) .bad }) := by
  refine ⟨fun h => ?_, fun ⟨ref, found, place⟩ => ?_⟩
  · unfold spoilPatch
    split
    · next ref found => exact if_neg fun place => h ⟨ref, found, place⟩
    · rfl
    · rfl
  · rw [spoilPatch, patchIndex, found]
    exact if_pos place

/-- The record and the page that an item's body belongs to, and the low byte of its mark's detail. -/
def FillItem.source : FillItem → Nat × PageKey × Nat
  | .line s => (s.idx, s.key, 255)
  | .patch _ s _ => (s.idx, s.key, s.p)

/-- The record's entry for the item is PRESENT with the cell and offset that the item was decoded from. -/
def FillItem.presents (sep strip : Nat) (q : PageRecord) : FillItem → Prop
  | .line s => ∃ ref, tblGet q.strips (768 * sep + strip) = some (.present ref) ∧ ref.cell = s.cell ∧ ref.off = s.off
  | .patch _ s _ => ∃ ref, tblGet q.patches (32 * sep + s.p) = some (.present ref) ∧ ref.cell = s.cell ∧ ref.off = s.off

/-- The record's entry for the item is BAD. -/
def FillItem.isBad (sep strip : Nat) (q : PageRecord) : FillItem → Prop
  | .line _ => tblGet q.strips (768 * sep + strip) = some .bad
  | .patch _ s _ => tblGet q.patches (32 * sep + s.p) = some .bad

/-- The record's entry for the item made BAD, when it is PRESENT with that cell and offset (R66). -/
def FillItem.spoil (sep strip : Nat) (q : PageRecord) : FillItem → Option PageRecord
  | .line s => spoilStrip q sep strip s.cell s.off
  | .patch _ s _ => spoilPatch q sep s.p s.cell s.off

theorem FillItem.spoil_none {sep strip : Nat} {q : PageRecord} {it : FillItem} (h : ¬it.presents sep strip q) :
    it.spoil sep strip q = none := by
  cases it with
  | line s => exact (spoilStrip_eq ..).1 h
  | patch _ s _ => exact (spoilPatch_eq ..).1 h

/-- The record made BAD has a BAD entry, that of the item; its state, notes and pins are as they were. -/
theorem FillItem.spoil_some {sep strip : Nat} {q : PageRecord} {it : FillItem} (h : it.presents sep strip q) :
    ∃ r, it.spoil sep strip q = some r ∧ it.isBad sep strip r.spoiled ∧ r.anyBad = true ∧
      r.state = q.state ∧ r.notes = q.notes ∧ r.pins = q.pins := by
  have bad_any {α : Type} (present : α → Bool) {b : α} (hb : present b = false) (t : List (Nat × α)) (i : Nat) :
      (tblPut t i b).any (fun x => !present x.2) = true :=
    List.any_eq_true.mpr ⟨(i, b), mem_of_tblGet (tblGet_tblPut_self t i b), by simp [hb]⟩
  cases it with
  | line s =>
    refine ⟨_, (spoilStrip_eq ..).2 h, ?_, ?_, rfl, rfl, rfl⟩
    · obtain ⟨_, _, same⟩ := spoiled_eq { q with strips := tblPut q.strips (768 * sep + strip) .bad }
      rw [same]
      exact tblGet_tblPut_self ..
    · rw [PageRecord.anyBad, bad_any StripEntry.isPresent rfl, Bool.true_or]
  | patch _ s _ =>
    refine ⟨_, (spoilPatch_eq ..).2 h, ?_, ?_, rfl, rfl, rfl⟩
    · obtain ⟨_, _, same⟩ := spoiled_eq { q with patches := tblPut q.patches (32 * sep + s.p) .bad }
      rw [same]
      exact tblGet_tblPut_self ..
    · rw [PageRecord.anyBad, bad_any PatchEntry.isPresent rfl, Bool.or_true]

/-- A decode failure reports the damage to IU, and then marks DECODE. -/
theorem decodeFinding_eq (f : Fill) (it : FillItem) (sep : Nat) (k : Chip) : ∃ iu ws patch,
    decodeFinding f it sep k = findingMark f it.source.2.1 patch { k with iu := iu, sp := { k.sp with iu := k.sp.iu ++ ws } } ∧
    patch.getD 255 = it.source.2.2 ∧ (∀ i, i ≠ it.source.1 → tblGet iu.dir i = tblGet k.iu.dir i) ∧
    ∀ q, tblGet k.iu.dir it.source.1 = some q →
      (it.spoil sep f.plan.strip q = none → tblGet iu.dir it.source.1 = some q) ∧
      ∀ r, it.spoil sep f.plan.strip q = some r → tblGet iu.dir it.source.1 = some r.spoiled := by
  cases it with
  | line s =>
    obtain ⟨iu, ws, report, others, named⟩ := damageReport_spec s.idx false sep f.plan.strip s.cell s.off k
    exact ⟨iu, ws, none, congrArg (findingMark f s.key none) report, rfl, others, named⟩
  | patch place s last =>
    obtain ⟨iu, ws, report, others, named⟩ := damageReport_spec s.idx true sep s.p s.cell s.off k
    exact ⟨iu, ws, some s.p, congrArg (findingMark f s.key (some s.p)) report, rfl, others, named⟩

/-- A decode failure is a finding; it makes the item's entry BAD while that is PRESENT with its cell and offset, and what is rendered stays. -/
theorem decodeFinding_spec {k : Chip} {f : Fill} {e : RenderEntry} (h : fillEntry k f = some e) (it : FillItem) :
    let u := decodeFinding f it e.sep k
    k.findingMarked u f e it.source.2.1 it.source.2.2 ∧ k.renders u f e ∧
    (∀ i, i ≠ it.source.1 → tblGet u.iu.dir i = tblGet k.iu.dir i) ∧
    ∀ q, tblGet k.iu.dir it.source.1 = some q →
      (¬it.presents e.sep f.plan.strip q → tblGet u.iu.dir it.source.1 = some q) ∧
      (it.presents e.sep f.plan.strip q → ∃ q', tblGet u.iu.dir it.source.1 = some q' ∧ it.isBad e.sep f.plan.strip q' ∧
        q'.notes = { q.notes with decode := min 255 (q.notes.decode + 1) } ∧ q'.pins = q.pins ∧
        (q.state ≠ .superseded → q'.state = .damaged)) := by
  obtain ⟨iu, ws, patch, finding, low, others, named⟩ := decodeFinding_eq f it e.sep k
  have entry : fillEntry { k with iu := iu, sp := { k.sp with iu := k.sp.iu ++ ws } } f = some e := h
  obtain ⟨marked, dir, -, -⟩ := findingMark_marks entry it.source.2.1 patch
  have renders := findingMark_renders entry it.source.2.1 patch
  rw [low] at marked
  dsimp only
  rw [finding, dir]
  refine ⟨marked, renders, others, fun q hq => ⟨fun h => (named q hq).1 (FillItem.spoil_none h), fun h => ?_⟩⟩
  obtain ⟨r, spoils, bad, any_, state, notes, pins⟩ := FillItem.spoil_some h
  obtain ⟨_, _, same⟩ := spoiled_eq r
  refine ⟨_, (named q hq).2 r spoils, bad, ?_, ?_, fun live => spoiled_damaged (state ▸ live) any_⟩
  · rw [same, ← notes]
  · rw [same, ← pins]

end Sys2Proof.Machine
end

