-- ==== Sys2Proof/Proofs/DataTaken.lean ====
section
/-! What a completed read brings: a fill's next step, and the statement for every purpose (O26). -/

namespace Sys2Proof.Machine

/-! ### A transfer of the fill in progress -/

theorem coversSwath_eq (p : FillPlan) (width : Nat) (s : PatchSource) : coversSwath p width s =
    decide (s.row0 ≤ 64 * p.strip + 63 ∧ 64 * p.strip < s.row0 + s.h * s.scale ∧ 0 < s.w * s.scale ∧
      s.dot0 < min p.pageDots (width - p.around)) := by
  simp [coversSwath, renderedDots, Bool.and_assoc]

section

variable {k : Chip} {f : Fill} {e : RenderEntry} {data : List Byte}

theorem fillArrives_other {id : Nat} (h : ∀ f, k.br.fill = some f → f.id ≠ id) (w : Bool) : fillArrives id w data k = k := by
  unfold fillArrives
  split
  · rfl
  · next f hf => exact if_pos (h f hf)

theorem fillArrives_write (h : k.br.fill = some f) : fillArrives f.id true data k = nextRowSet { f with nextSet := f.nextSet + 1 } k := by
  simp [fillArrives, h]

theorem fillArrives_read {r : Nat × Nat} {more : List (Nat × Nat)} (h : k.br.fill = some f) (hi : f.items = []) (hr : f.reads = r :: more) :
    fillArrives f.id false data k = k.reading { f with reads := more } r := by
  simp [fillArrives, h, hi, hr, nextRead_eq]

theorem fillArrives_entries (h : k.br.fill = some f) (hi : f.items = []) (hr : f.reads = []) :
    fillArrives f.id false data k = entriesRead f k := by
  simp [fillArrives, h, hi, hr]

theorem fillArrives_item {it : FillItem} {its : List FillItem} (h : k.br.fill = some f) (hi : f.items = it :: its)
    (he : fillEntry k f = some e) : fillArrives f.id false data k = runItems e.sep (it :: its) { f with bytes := f.bytes ++ data } k := by
  simp [fillArrives, h, hi, he]

/-- The bodies begin, or the row sets with no body to decode. -/
theorem startItems_goesOn {u : Chip} (hu : k.renders u f e) (left : k.goesOnWith e f (planItems f.plan e.format.width)) :
    startItems f u = k.goesOn u e (planItems f.plan e.format.width) f := by
  obtain ⟨pd, tl, b, entry⟩ := hu
  have reads (i : FillItem) : itemReads u i = itemReads k i := by
    rw [itemReads_eq, itemReads_eq]
    cases i <;> rw [FillItem.body, FillItem.body, lay_of_pd pd]
  rw [startItems, entry]
  exact runItems_goesOn ⟨pd, tl, b, entry⟩ rfl rfl rfl left fun i its h => by
    dsimp only
    rw [h]
    exact reads i

/-- With every entry PRESENT there is no finding. -/
theorem entriesRead_present (he : fillEntry k f = some e) (hm : f.plan.missing = [])
    (left : k.goesOnWith e f (planItems f.plan e.format.width)) :
    entriesRead f k = k.goesOn k e (planItems f.plan e.format.width) f := by
  rw [entriesRead, hm]
  exact startItems_goesOn (Chip.renders_self he) left

/-- Of the entries that are not PRESENT the first one marks. -/
theorem entriesRead_missing {key : PageKey} {patch : Option Nat} {others : List (PageKey × Option Nat)} (he : fillEntry k f = some e)
    (hm : f.plan.missing = (key, patch) :: others) (left : k.goesOnWith e f (planItems f.plan e.format.width)) :
    ∃ u, entriesRead f k = k.goesOn u e (planItems f.plan e.format.width) f ∧ u.iu = k.iu ∧ k.findingMarked u f e key (patch.getD 255) := by
  obtain ⟨marked, iu, -, -⟩ := findingMark_marks he key patch
  refine ⟨_, ?_, iu, marked⟩
  rw [entriesRead, hm, findingMarks_first he]
  exact startItems_goesOn (findingMark_renders he key patch) left

/-- An item's rows leave the fill's plate, its render and its place in the row sets. -/
theorem takeRows_slot (g : Fill) (it : FillItem) :
    (takeRows g it).slot = g.slot ∧ (takeRows g it).attempt = g.attempt ∧ (takeRows g it).nextSet = g.nextSet := by
  cases it <;> exact ⟨rfl, rfl, rfl⟩

theorem decodeFinding_takeRows (f : Fill) (b : List Byte) (it : FillItem) (sep : Nat) :
    decodeFinding (takeRows { f with bytes := b } it) it sep k = decodeFinding f it sep k := by cases it <;> rfl

/-- A body that is decoded brings its rows, and the fill goes on. -/
theorem runItems_complete {it : FillItem} {its : List FillItem} {b : List Byte} (he : fillEntry k f = some e)
    (hd : itemDecode f.plan b it = .complete) (left : k.goesOnWith e f its) :
    runItems e.sep (it :: its) { f with bytes := b } k = k.goesOn k e its (takeRows { f with bytes := b } it) := by
  obtain ⟨y, reads, complete, -⟩ := runItems_ends (k := k) (g := { f with bytes := b }) (it := it) (its := its) e.sep
  obtain ⟨slot, attempt, nextSet⟩ := takeRows_slot { f with bytes := b } it
  rw [complete hd]
  exact runItems_goesOn (Chip.renders_self he) slot attempt nextSet left reads

/-- A body that cannot be decoded is a finding; its rows come, and the fill goes on. -/
theorem runItems_failed {it : FillItem} {its : List FillItem} {b : List Byte} (he : fillEntry k f = some e)
    (hd : itemDecode f.plan b it = .failed) (left : k.goesOnWith e f its) :
    runItems e.sep (it :: its) { f with bytes := b } k =
      k.goesOn (decodeFinding f it e.sep k) e its (takeRows { f with bytes := b } it) := by
  obtain ⟨y, reads, -, failed⟩ := runItems_ends (k := k) (g := { f with bytes := b }) (it := it) (its := its) e.sep
  obtain ⟨slot, attempt, nextSet⟩ := takeRows_slot { f with bytes := b } it
  obtain ⟨-, renders, -⟩ := decodeFinding_spec he it
  rw [failed hd, decodeFinding_takeRows]
  exact runItems_goesOn renders slot attempt nextSet left reads

end

/-- Settles O26: for each purpose of the completed transfer, by the lemmas about the unit that takes its data. -/
theorem dataArrives : Obligations.DataArrives := by
  intro s c ⟨⟨cl, stream, addr, op, purpose, notices⟩, data⟩ rest h hr hn k done read
  have taken {t : Chip} (ht : deliverData ⟨cl, stream, addr, op, purpose, notices⟩ data k = t) : done t := exec_completes h hr hn ht
  refine ⟨fun hp => ?parse, fun hp => ?table, fun id slot a sw hp => ?fill, fun id j hp => ?rowSet⟩
  all_goals
    change purpose = _ at hp
    subst hp
  case parse =>
    refine ⟨fun none_ => taken (parseArrives_idle none_), fun p hp => ?_⟩
    intro b parse body
    have bodyDone {f : FragHeader} {m : Option MatchCase} (hq : parseStep k.iu { p with bytes := b } = p.reads b f m) : body f m := by
      obtain ⟨decided, reads⟩ := parseArrives_body hp hq
      exact ⟨fun v hv => taken (decided v hv), fun hv => taken (reads hv)⟩
    refine ⟨fun f hf => bodyDone (parseStep_body hf b), fun hf => ?_⟩
    exact ⟨fun bad => taken (parseArrives_decided hp (parseStep_unsound hf bad) rfl),
      fun good stale => taken (parseArrives_decided hp (parseStep_stale hf good stale) rfl),
      fun m good matched => bodyDone (parseStep_matched hf good matched)⟩
  case table =>
    refine ⟨fun none_ => taken (reloadArrives_idle none_), fun r hr => ?_⟩
    intro b reload tile legal
    refine ⟨fun kind first => ⟨fun bad => taken (reloadArrives_refused hr kind first bad), fun good page => ?_⟩, fun later => ?_⟩
    · obtain ⟨more, arrives⟩ := reloadArrives_thresholds hr kind first good page
      exact ⟨more, taken arrives⟩
    · have arrives := reloadArrives_goesOn (data := data) hr later
      refine ⟨fun a more hm => taken (arrives.trans (reloadNext_reads hm)), fun hm => ?_⟩
      refine ⟨_, taken (arrives.trans (reloadNext_ends hm)), ?_⟩
      unfold tableChecks legal
      cases r.id.kind with
      | curve => simp
      | screen => exact tileLegal_iff _
      | screenSet => exact screenSetAt_legal _
      | profile => exact profileLegal_iff _
      | power => simp
  case fill =>
    refine ⟨fun other => taken (fillArrives_other other _), ?_⟩
    rintro f e order hf rfl rfl rfl rfl ho hs ha
    have he : fillEntry k f = some e := fillEntry_head ho hs ha
    intro fill sets writes reading body goOn ready marked
    refine ⟨fun d hd => ?_, fun n hd => ?_⟩
    all_goals
      change op = _ at hd
      subst hd
    · have arrives := fillArrives_write (data := data) hf
      refine ⟨fun more => taken (arrives.trans (nextRowSet_writes (Chip.renders_self he) rfl rfl more)), fun last => ?_⟩
      exact taken (arrives.trans (nextRowSet_done he last))
    · refine ⟨fun hi => ⟨fun r more hm => ?_, fun hm => ?_⟩, fun it its hi => ?_⟩
      · exact taken (fillArrives_read hf hi hm)
      · intro covers items left
        have arrives := fillArrives_entries (data := data) hf hi hm
        have planned : items = planItems f.plan e.format.width := by
          unfold planItems items
          simp only [coversSwath_eq]
          cases f.plan.line <;> rfl
        rw [planned] at left ⊢
        refine ⟨fun hm => taken (arrives.trans (entriesRead_present he hm left)), fun key patch others hm => ?_⟩
        obtain ⟨u, goes, iu, mark⟩ := entriesRead_missing he hm left
        exact ⟨u, taken (arrives.trans goes), iu, mark⟩
      · have arrives := fillArrives_item (data := data) hf hi he
        intro b st g source presents isBad
        have rows (u : Chip) : k.goesOn u e its (takeRows { f with bytes := b } it) = goOn its g u := by
          cases it <;> exact goesOn_bytes k u e its g b
        have stand : itemDecode f.plan b it = st := by cases it <;> rfl
        refine ⟨fun r more hd hm => ?_, fun hd left => ?_, fun hd left => ?_⟩
        · exact taken (arrives.trans (runItems_reads e.sep hi (stand.trans hd) hm))
        · exact taken (arrives.trans ((runItems_complete he (stand.trans hd) left).trans (rows k)))
        · obtain ⟨mark, -, others, named⟩ := decodeFinding_spec he it
          refine ⟨_, taken (arrives.trans ((runItems_failed he (stand.trans hd) left).trans (rows _))), ?_⟩
          cases it <;> exact ⟨mark, others, named⟩
  case rowSet =>
    refine ⟨fun other => taken (rowSetArrives_other other), ?_⟩
    rintro p hp rfl
    exact taken (rowSetArrives_eq j data hp)

end Sys2Proof.Machine
end

