-- ==== Sys2Proof/Proofs/PagesRefuted.lean ====
section
/-! SUPPORT. The invariant of the page directory is not inductive as stated (O35): it says nothing of a match that a parse holds before its header. -/

namespace Sys2Proof.Machine

/-- A fragment's first 16 bytes: a MANIFEST of page 14 of book 2, version 1, with a body of 52 bytes (R43). -/
def firstHeader : List Byte := [0x01, 0x0F, 0x64, 0x00, 2, 14, 0, 1, 1, 0, 0, 0, 52, 0, 0, 0]

/-- The one record of the directory: version 2 of that page. -/
def onlyRecord : PageRecord :=
  { state := .assembling, key := ⟨2, 14, 0⟩, version := 2, manifest := none, clipped := false, dropped := false, baseFlag := false, pins := 0
    notes := Notes.zero, firstTime := 0, lastTime := 0, strips := [], patches := [], wasComplete := false }

/-- RUNNING with a parse that has read nothing yet and is to found a record all the same; the header's bytes have been served. -/
def unreadChip : Chip :=
  { Chip.reset with
    pd := { Dispatcher.reset with runState := .running }
    iu := { IntakeUnit.reset with
      dir := [(0, onlyRecord)]
      parse := some { cell := 0, bytes := [], header := none, matching := some .founds, verdict := none } }
    sp := { StorePort.reset with
      served := [{ xfer := { client := .iu, stream := some .iuRead, addr := 0, op := .read 16, purpose := .parse, notices := [] }
                   data := firstHeader }] } }

/-- The machine in which those bytes arrive next. -/
def unreadState : State := (State.reset.setChip unreadChip).setPending [.transferComplete .iu]

/-- The only record of that directory. -/
theorem unreadChip_record {i : Nat} {r : PageRecord} (h : tblGet unreadChip.iu.dir i = some r) : i = 0 ∧ r = onlyRecord := by
  have entry : tblGet unreadChip.iu.dir i = if 0 = i then some onlyRecord else none := rfl
  rw [entry] at h
  split at h
  · next hi => exact ⟨hi.symm, (Option.some.inj h).symm⟩
  · cases h

theorem unreadChip_pagesSound : unreadChip.pagesSound := by
  refine ⟨List.pairwise_singleton _ _, fun i j r q hi hj _ _ => ?_, fun i j r q hi _ _ hs _ => ?_, fun i r hi hs => ?_,
    fun p h hp hh => ?_⟩
  · exact (unreadChip_record hi).1.trans (unreadChip_record hj).1.symm
  · rw [(unreadChip_record hi).2] at hs
    cases hs
  · rw [(unreadChip_record hi).2] at hs
    cases hs
  · cases hp
    cases hh

/-- The header of those bytes. -/
def servedHeader : FragHeader := { key := ⟨2, 14, 0⟩, kind := 1, version := 1, sep := 0, len := 52 }

/-- The header is STALE, and the parse keeps the match that it held. -/
theorem unread_parseStep : parseStep unreadChip.iu
      { cell := 0, bytes := firstHeader, header := none, matching := some .founds, verdict := none } =
    { cell := 0, bytes := firstHeader, header := some servedHeader, matching := some .founds, verdict := some (.reject .stale) } := by
  decide

theorem unreadState_takes : ∃ t p, step unreadState = .next t ∧ t.chip.iu.parse = some p ∧ p.header = some servedHeader ∧
    p.matching = some .founds ∧ tblGet t.chip.iu.dir 0 = some onlyRecord :=
  ⟨_, _, rfl, rfl, congrArg Parse.header unread_parseStep, congrArg Parse.matching unread_parseStep, rfl⟩

/-- Refutes O35: a parse without a header that holds the match of a founding meets `pagesSound`, which speaks of a parse only once its header is
there; the header that arrives is STALE, leaves that match standing, and names a version below that of a record. In a run no parse
holds a match before its header. -/
theorem not_pagesStaySound : ¬ Obligations.PagesStaySound := by
  rintro ⟨keeps, -⟩
  obtain ⟨t, p, ht, hp, hh, hm, record⟩ := unreadState_takes
  obtain ⟨-, -, -, -, above⟩ := keeps unreadState t unreadChip_pagesSound ht
  exact absurd (above p servedHeader hp hh hm 0 onlyRecord record rfl) (by decide)

end Sys2Proof.Machine
end

