-- ==== Sys2Proof/Proofs/ParseEndRefuted.lean ====
section
/-! SUPPORT. The statement on the parse end does not hold of a directory with a derived page bound to its own key (O43). -/

namespace Sys2Proof.Machine

/-- A fragment whose content goes into the record that its header matched (R55 (2), (3)). -/
theorem parseEnd_matched {k : Chip} {p : Parse} {c : Content} {h : FragHeader} {i : Nat} {r : PageRecord} (hw : k.working = true)
    (hp : k.iu.parse = some p) (hv : p.verdict = some (.content c)) (hh : p.header = some h) (hm : p.matching = some (.matched i))
    (hr : tblGet k.iu.dir i = some r) : parseEnd k =
      finishEvent (applyTo i c k.regs.plantClock (IuEvent.start { k.iu with parse := none })) (some p.cell) false true k := by
  simp [parseEnd, hw, hp, hv, hh, hm, hr]

/-- The page of all records here. -/
def ownKey : PageKey := ⟨2, 14, 0⟩

/-- A FULL manifest of one strip, in separation 0. -/
def oneStrip : Manifest :=
  { derived := false, seps := 1, rows := 64, dots := 64, patchCounts := [0, 0, 0, 0], base := ⟨0, 0, 0⟩, ranges := [], raw := [] }

/-- A DERIVED manifest of the same geometry whose base is its own page: none passes the check of R44, and none is in a directory that
fragments have filled. -/
def selfBased : Manifest := { oneStrip with derived := true, base := ownKey }

/-- A record of that page in version 1 or 2, without entries. -/
def ownRecord (version : Nat) (m : Manifest) (flag : Bool) : PageRecord :=
  { state := if flag then .damaged else .assembling, key := ownKey, version := version, manifest := some m, clipped := false
    dropped := false, baseFlag := flag, pins := 0, notes := Notes.zero, firstTime := 0, lastTime := 0, strips := [], patches := []
    wasComplete := false }

/-- A STRIPS fragment with the strip that version 1 still misses. -/
def lastStrip : Content := .strips 0 [{ k := 0, ref := ⟨0, 28, 1, 0⟩, sound := true }]

/-- The parse of that fragment, at its end. -/
def lastParse : Parse :=
  { cell := 0, bytes := [], header := some { key := ownKey, kind := 2, version := 1, sep := 0, len := 13 }
    matching := some (.matched 0), verdict := some (.content lastStrip) }

/-- An unfinished version 1 and, above it, a version 2 derived from its own page, its BASE flag set. -/
def selfBasedDir : List (Nat × PageRecord) := [(0, ownRecord 1 oneStrip false), (1, ownRecord 2 selfBased true)]

/-- RUNNING with that directory. -/
def selfBasedChip : Chip :=
  { Chip.reset with
    pd := { Dispatcher.reset with runState := .running }
    iu := { IntakeUnit.reset with
      dir := selfBasedDir, parse := some lastParse } }

theorem selfBasedChip_record {i : Nat} {r : PageRecord} (h : tblGet selfBasedChip.iu.dir i = some r) :
    r.state ≠ .complete ∧ r.version = i + 1 := by
  have entry : tblGet selfBasedChip.iu.dir i =
    if 0 = i then some (ownRecord 1 oneStrip false) else if 1 = i then some (ownRecord 2 selfBased true) else none := rfl
  rw [entry] at h
  split at h
  · next hi => cases h; subst hi; exact ⟨nofun, rfl⟩
  · split at h
    · next hi => cases h; subst hi; exact ⟨nofun, rfl⟩
    · cases h

theorem selfBasedChip_pagesSound : selfBasedChip.pagesSound := by
  refine ⟨by decide, fun i j r q hi hj _ hv => ?_, fun i j r q hi _ _ hs _ => ?_, fun i r hi hs => ?_, fun p h hp _ hm => ?_⟩
  · have numbers := (selfBasedChip_record hi).2.symm.trans (hv.trans (selfBasedChip_record hj).2)
    exact Nat.succ.inj numbers
  · exact absurd hs (selfBasedChip_record hi).1
  · exact absurd hs (selfBasedChip_record hi).1
  · cases hp
    cases hm

/-- Version 1 becomes COMPLETE, which clears the BASE flag of version 2; version 2 becomes COMPLETE, and version 1 is retired. -/
theorem selfBased_retires (u : IntakeUnit) :
    tblGet (applyTo 0 lastStrip 0 (IuEvent.start { u with dir := selfBasedDir })).u.dir 0 = none := rfl

theorem selfBased_completes : (applyContent lastStrip 0 (ownRecord 1 oneStrip false)).r.state = .complete := by decide

theorem parseEnd_selfBased : tblGet (parseEnd selfBasedChip).iu.dir 0 = none := by
  have record : tblGet selfBasedChip.iu.dir 0 = some (ownRecord 1 oneStrip false) := rfl
  rw [parseEnd_matched rfl (show selfBasedChip.iu.parse = some lastParse from rfl) rfl rfl rfl record, finishEvent_dir]
  exact selfBased_retires { IntakeUnit.reset with parse := none }

/-- Refutes O43: of a directory with a derived page that is bound to its own key, `pagesSound` says nothing. The fragment completes version 1 of
that page; its BASE flag cleared, the derived version 2 is COMPLETE too, and by R68 it is version 1 that is retired, where the statement has it
stand. R44 lets no such manifest in. -/
theorem not_parseEnds : ¬ Obligations.ParseEnds := by
  intro h
  obtain ⟨t, ws, founded, ht, -, -, -, -, -, -, -, -, -, contents⟩ :=
    h (State.reset.setChip selfBasedChip) lastParse (.content lastStrip) rfl rfl rfl selfBasedChip_pagesSound
  obtain ⟨matched, -, -⟩ := contents _ lastStrip rfl rfl
  obtain ⟨-, -, completes⟩ := matched 0 (ownRecord 1 oneStrip false) rfl rfl
  obtain ⟨stands, -, -⟩ := completes nofun selfBased_completes
  have chip : t = (State.reset.setChip selfBasedChip).setChip (parseEnd selfBasedChip) := onChip_next ht
  rw [chip, State.setChip_chip, State.setChip_chip, parseEnd_selfBased] at stands
  cases stands

end Sys2Proof.Machine
end

