-- ==== Sys2Proof/Proofs/IntakeWords.lean ====
section
/-! SUPPORT. The words that IU takes: FRAGMENT into its input queue, and from the queue into a parse (O14, O39). -/

namespace Sys2Proof.Machine

/-! ### FRAGMENT (R48) -/

/-- The one map byte that holds a cell's bit is written (R5). -/
theorem cellMapWrites_singleton (mapBase : Nat) (m : BitVec 4096) (c : Nat) :
    cellMapWrites mapBase m [c] = [iuWrite (mapBase + c / 8) [mapByte m (c / 8)] []] := rfl

theorem takeFragment_held {c : Nat} {k : Chip} (h : k.iu.holdMap.getLsbD c = true) : takeFragment c k = raise .postBad k := by
  rw [takeFragment, if_pos h]

/-- A cell that is not held is held from then on, and the word joins the input queue. -/
theorem takeFragment_free {c : Nat} {k : Chip} (h : ¬k.iu.holdMap.getLsbD c = true) : takeFragment c k =
    { k with
      iu := { k.iu with holdMap := mapSet k.iu.holdMap c true, queue := k.iu.queue ++ [.fragment c] }
      sp := { k.sp with iu := k.sp.iu ++
        [iuWrite (k.lay.mapBase + c / 8) [mapByte (mapSet k.iu.holdMap c true) (c / 8)] []] } } := by
  rw [takeFragment, if_neg h]
  dsimp only
  rw [cellMapWrites_singleton]
  rfl

/-- Settles O14. -/
theorem fragmentWord : Obligations.FragmentWord := by
  intro s c q hs hlen
  have room : iuHasRoom s.chip = true := decide_eq_true hlen
  show Host.Outcome.next (s.setChip (dispatchFragment s.chip)) = _
  simp only [dispatchFragment, headWord_of_headIs hs, popPost_of_headIs hs, room, if_true]
  by_cases held : s.chip.iu.holdMap.getLsbD c = true
  · rw [takeFragment_held (k := s.chip.popped q) held, if_pos held]
  · rw [takeFragment_free (k := s.chip.popped q) held, if_neg held]
    rfl

/-! ### The parse begins (R49, R51) -/

/-- IU is idle: nothing is parsed, and no writes of a parse end or a DROP are outstanding (R49). -/
def IntakeUnit.idle (u : IntakeUnit) : Prop := u.parse = none ∧ u.settling = false

theorem parseBegin_fragment {k : Chip} {c : Nat} {rest : List IuWord} (hw : k.working = true) (hi : k.iu.idle)
    (hq : k.iu.queue = .fragment c :: rest) : parseBegin k = issue (parseRead k c 0 16)
      (k.setIu { k.iu with
        queue := rest, parse := some { cell := c, bytes := [], header := none, matching := none, verdict := none } }) := by
  obtain ⟨hp, hs⟩ := hi
  simp [parseBegin, hw, hp, hs, hq]

/-- IU begins no parse while it is not idle, and none without a FRAGMENT word at the head of its queue. -/
theorem parseBegin_stays {k : Chip} (h : k.iu.parse.isSome = true ∨ k.iu.settling = true ∨ k.iu.queue = [] ∨
    ∃ key rest, k.iu.queue = .drop key :: rest) : parseBegin k = k := by
  unfold parseBegin
  split
  · next free =>
    simp only [Bool.and_eq_true, Option.isNone_iff_eq_none, Bool.not_eq_true'] at free
    obtain ⟨⟨-, hp⟩, hs⟩ := free
    rcases h with h | h | h | ⟨key, rest, h⟩
    · simp [hp] at h
    · simp [hs] at h
    · rw [h]
    · rw [h]
  · rfl

/-- Settles O39. -/
theorem parseBegins : Obligations.ParseBegins := by
  intro s hw
  refine ⟨fun c rest hp hs hq => ?_, fun h => exec_eq_of_chip (f := parseBegin) rfl (parseBegin_stays h)⟩
  show Host.Outcome.next (s.setChip (parseBegin s.chip)) = _
  rw [parseBegin_fragment hw ⟨hp, hs⟩ hq, issue_iu _ _ (parseRead_client ..)]
  rfl

end Sys2Proof.Machine
end

