-- ==== Sys2Proof/Proofs/IntakeEvents.lean ====
section
/-! SUPPORT. What the parts of an event of IU leave of the unit: another directory at most, with the use counts that follow it (O42, O44). -/

namespace Sys2Proof.Machine

/-- From `u` to `v` IU has at most another directory, with its use counts. -/
def IntakeUnit.redirected (u v : IntakeUnit) : Prop := v = u ∨ ∃ dir, v = u.setDir dir

theorem redirected_refl (u : IntakeUnit) : u.redirected u := .inl rfl

theorem redirected_setDir (u : IntakeUnit) (dir : List (Nat × PageRecord)) : u.redirected (u.setDir dir) := .inr ⟨dir, rfl⟩

theorem redirected_trans {u v w : IntakeUnit} (h : u.redirected v) (g : v.redirected w) : u.redirected w := by
  rcases g with rfl | ⟨dir, rfl⟩
  · exact h
  · rcases h with rfl | ⟨_, rfl⟩ <;> exact .inr ⟨dir, rfl⟩

/-- All of IU but the directory and the use counts stays. -/
theorem redirected_keeps {u v : IntakeUnit} (h : u.redirected v) :
    v.queue = u.queue ∧ v.parse = u.parse ∧ v.settling = u.settling ∧ v.holdMap = u.holdMap ∧ v.floors = u.floors := by
  rcases h with rfl | ⟨_, rfl⟩ <;> exact ⟨rfl, rfl, rfl, rfl, rfl⟩

theorem redirected_foldl {f : IuEvent → Nat → IuEvent} (hf : ∀ (e : IuEvent) (i : Nat), e.u.redirected (f e i).u) (l : List Nat) (e : IuEvent) :
    e.u.redirected (l.foldl f e).u := by
  induction l generalizing e with
  | nil => exact redirected_refl _
  | cons i l ih => exact redirected_trans (hf e i) (ih (f e i))

section
variable (e : IuEvent) (i : Nat)

theorem put_redirected (r : PageRecord) : e.u.redirected (e.put i r).u := redirected_setDir _ _

theorem putMarked_redirected (j : Judged) : e.u.redirected (e.putMarked i j).u := redirected_setDir _ _

theorem retire_redirected : e.u.redirected (e.retire i).u := by
  unfold IuEvent.retire
  split
  · exact redirected_refl _
  · exact redirected_setDir _ _

theorem displace_redirected : e.u.redirected (e.displace i).u := by
  unfold IuEvent.displace
  split
  · exact redirected_refl _
  · split
    · exact retire_redirected e i
    · exact put_redirected e i _

theorem succession_redirected (key : PageKey) (version : Nat) : e.u.redirected (e.succession key version).u :=
  redirected_foldl displace_redirected _ e

theorem clearBase_redirected : e.u.redirected (e.clearBase i).u := by
  unfold IuEvent.clearBase
  split
  · exact redirected_refl _
  · dsimp only
    split
    · exact redirected_trans (put_redirected e i _) (succession_redirected _ _ _)
    · exact put_redirected e i _

theorem completed_redirected : e.u.redirected (e.completed i).u := by
  unfold IuEvent.completed
  split
  · exact redirected_refl _
  · dsimp only
    split
    · exact succession_redirected e _ _
    · exact redirected_trans (succession_redirected e _ _) (redirected_foldl clearBase_redirected _ _)

theorem note_redirected (n : NoteKind) : e.u.redirected (e.note i n).u := by
  unfold IuEvent.note
  split
  · exact redirected_refl _
  · exact putMarked_redirected e i _

theorem noteIf_redirected (i : Option Nat) (n : NoteKind) : e.u.redirected (e.noteIf i n).u := by
  cases i with
  | none => exact redirected_refl _
  | some i => exact note_redirected e i n

theorem applyTo_redirected (c : Content) (clock : Word) : e.u.redirected (applyTo i c clock e).u := by
  unfold applyTo
  split
  · exact redirected_refl _
  · dsimp only
    split
    · exact redirected_trans (putMarked_redirected e i _) (completed_redirected _ i)
    · exact putMarked_redirected e i _

theorem applyFounding_redirected (h : FragHeader) (c : Content) (clock : Word) :
    e.u.redirected (applyFounding i h c clock e).u := by
  unfold applyFounding
  dsimp only
  split
  · exact redirected_trans (putMarked_redirected e i _) (completed_redirected _ i)
  · exact putMarked_redirected e i _

theorem pin_redirected : e.u.redirected (e.pin i).u := by
  unfold IuEvent.pin
  split
  · exact redirected_refl _
  · exact put_redirected e i _

theorem unpin_redirected : e.u.redirected (e.unpin i).u := by
  unfold IuEvent.unpin
  split
  · exact redirected_refl _
  · split
    · exact redirected_refl _
    · split
      · exact retire_redirected e i
      · exact put_redirected e i _

theorem flagBase_redirected : e.u.redirected (e.flagBase i).u := by
  unfold IuEvent.flagBase
  split
  · exact redirected_refl _
  · exact putMarked_redirected e i _

theorem dropOne_redirected : e.u.redirected (e.dropOne i).u := by
  unfold IuEvent.dropOne
  split
  · exact redirected_refl _
  · split
    · exact retire_redirected e i
    · split
      · exact redirected_refl _
      · exact putMarked_redirected e i _

end

end Sys2Proof.Machine
end

