-- ==== Sys2Proof/Proofs/Drop.lean ====
section
/-! SUPPORT. DROP: the records of its key, the drop floors, and the writes (O44). -/

namespace Sys2Proof.Machine

/-! ### The records of the key (R75) -/

/-- What a DROP leaves of a record: nothing unless it is pinned. -/
def PageRecord.onDrop (r : PageRecord) : Option PageRecord :=
  if r.pins = 0 then none else some { r with state := .superseded, dropped := true }

theorem dropOne_dir (e : IuEvent) (i j : Nat) : tblGet (e.dropOne i).u.dir j =
    if j = i then (tblGet e.u.dir i).bind PageRecord.onDrop else tblGet e.u.dir j := by
  unfold IuEvent.dropOne
  cases h : tblGet e.u.dir i with
  | none =>
    dsimp only
    split
    · next g => rw [g]; exact h
    · rfl
  | some r =>
    dsimp only [Option.bind]
    unfold PageRecord.onDrop
    by_cases unpinned : r.pins = 0
    · rw [if_pos unpinned, if_pos unpinned]
      simp only [IuEvent.retire, h, IntakeUnit.setDir, tblGet_tblErase]
    · rw [if_neg unpinned, if_neg unpinned]
      by_cases done : r.state = .superseded ∧ r.dropped = true
      · rw [if_pos done]
        have same : { r with state := .superseded, dropped := true } = r := by rw [← done.1, ← done.2]
        rw [same]
        split
        · next g => rw [g]; exact h
        · rfl
      · rw [if_neg done]
        simp [IuEvent.putMarked, IuEvent.put, IntakeUnit.setDir, tblGet_tblPut]

theorem onDrop_onDrop (r : PageRecord) : r.onDrop.bind PageRecord.onDrop = r.onDrop := by
  unfold PageRecord.onDrop
  split
  · rfl
  · next h => exact if_neg h

/-- A DROP leaves every record but those listed. -/
theorem foldl_dropOne_dir (l : List Nat) (e : IuEvent) (j : Nat) : tblGet (l.foldl IuEvent.dropOne e).u.dir j =
    if j ∈ l then (tblGet e.u.dir j).bind PageRecord.onDrop else tblGet e.u.dir j := by
  induction l generalizing e with
  | nil => simp
  | cons i l ih =>
    rw [List.foldl_cons, ih, dropOne_dir]
    by_cases here : j = i
    · subst here
      rw [if_pos rfl, if_pos List.mem_cons_self]
      split
      · cases tblGet e.u.dir j with
        | none => rfl
        | some r => exact onDrop_onDrop r
      · rfl
    · rw [if_neg here]
      simp [here]

theorem dropOne_sound {k : Chip} {e : IuEvent} (h : e.sound k) (hf : e.founded = none) (i : Nat) :
    (e.dropOne i).sound k ∧ (e.dropOne i).founded = none := by
  unfold IuEvent.dropOne
  split
  · exact ⟨h, hf⟩
  · next r hr =>
    split
    · refine ⟨IuEvent.sound_retire h i (by simp [hf]), ?_⟩
      unfold IuEvent.retire
      split <;> exact hf
    · split
      · exact ⟨h, hf⟩
      · obtain ⟨h1, h2, h3, h4, h5⟩ := IuEvent.sound_put h i { r with state := .superseded, dropped := true } (by simp [hr])
        exact ⟨⟨h1, h2, h3, h4, h5⟩, hf⟩

theorem foldl_dropOne_sound {k : Chip} (l : List Nat) {e : IuEvent} (h : e.sound k) (hf : e.founded = none) :
    (l.foldl IuEvent.dropOne e).sound k ∧ (l.foldl IuEvent.dropOne e).founded = none := by
  induction l generalizing e with
  | nil => exact ⟨h, hf⟩
  | cons i l ih =>
    obtain ⟨sound, founded⟩ := dropOne_sound h hf i
    exact ih sound founded

theorem mem_recordsOf {dir : List (Nat × PageRecord)} {key : PageKey} {f : PageRecord → Bool} {i : Nat} :
    i ∈ recordsOf dir key f ↔ ∃ r, (i, r) ∈ dir ∧ r.key = key ∧ f r = true := by
  simp [recordsOf]

/-! ### Versions and drop floors (R76) -/

/-- The highest of some versions, with what stands for none. -/
theorem foldl_max_spec (l : List (Nat × PageRecord)) (m : Option Nat) :
    (l.foldl (fun m e => some (max (m.getD 0) e.2.version)) m = none ↔ m = none ∧ l = []) ∧
    ∀ v, l.foldl (fun m e => some (max (m.getD 0) e.2.version)) m = some v →
      (∀ x, m = some x → x ≤ v) ∧ (∀ e ∈ l, e.2.version ≤ v) ∧ (m = some v ∨ ∃ e ∈ l, e.2.version = v) := by
  induction l generalizing m with
  | nil => exact ⟨by simp, fun v h => ⟨fun x hx => by cases hx.symm.trans h; exact le_rfl, by simp, .inl h⟩⟩
  | cons e l ih =>
    obtain ⟨hn, hs⟩ := ih (some (max (m.getD 0) e.2.version))
    refine ⟨by simp [hn], fun v h => ?_⟩
    obtain ⟨below, others, found⟩ := hs v h
    have top := below _ rfl
    refine ⟨fun x hx => by subst hx; exact le_trans (le_max_left _ _) top, fun y hy => ?_, ?_⟩
    · rcases List.mem_cons.mp hy with rfl | hy
      · exact le_trans (le_max_right _ _) top
      · exact others y hy
    · rcases found with found | ⟨y, hy, hv⟩
      · have value := Option.some.inj found
        rcases le_total (m.getD 0) e.2.version with g | g
        · exact .inr ⟨e, List.mem_cons_self, (max_eq_right g).symm.trans value⟩
        · rw [max_eq_left g] at value
          cases m with
          | none => exact .inr ⟨e, List.mem_cons_self, (Nat.le_zero.mp g).trans value⟩
          | some x => exact .inl (congrArg some value)
      · exact .inr ⟨y, List.mem_cons_of_mem _ hy, hv⟩

theorem highestVersion_eq_none {dir : List (Nat × PageRecord)} {key : PageKey} :
    highestVersion dir key = none ↔ ∀ e ∈ dir, e.2.key ≠ key := by
  rw [highestVersion, (foldl_max_spec _ none).1, and_iff_right rfl, List.filter_eq_nil_iff]
  simp

theorem highestVersion_spec {dir : List (Nat × PageRecord)} {key : PageKey} {v : Nat} (h : highestVersion dir key = some v) :
    (∀ e ∈ dir, e.2.key = key → e.2.version ≤ v) ∧ ∃ e ∈ dir, e.2.key = key ∧ e.2.version = v := by
  obtain ⟨-, all, found⟩ := (foldl_max_spec _ none).2 v h
  simp only [List.mem_filter, decide_eq_true_eq, and_imp] at all found
  obtain ⟨e, ⟨he, hk⟩, hv⟩ := found.resolve_left nofun
  exact ⟨all, e, he, hk, hv⟩

/-- The record of a key that no other of the key exceeds gives the highest version. -/
theorem highestVersion_of_top {dir : List (Nat × PageRecord)} {key : PageKey} {e : Nat × PageRecord} (he : e ∈ dir) (hk : e.2.key = key)
    (top : ∀ x ∈ dir, x.2.key = key → x.2.version ≤ e.2.version) : highestVersion dir key = some e.2.version := by
  cases h : highestVersion dir key with
  | none => exact absurd hk (highestVersion_eq_none.mp h e he)
  | some v =>
    obtain ⟨all, x, hx, hxk, rfl⟩ := highestVersion_spec h
    exact congrArg some (Nat.le_antisymm (top x hx hxk) (all e he hk))

/-- A floor raised stands in its place, and the others stay. -/
theorem floorOf_raiseFloor (t : List (PageKey × Nat)) (key : PageKey) (v : Nat) (q : PageKey) :
    floorOf (raiseFloor t key v) q = (floorOf t q).map (fun f => if q = key then max f v else f) := by
  induction t with
  | nil => rfl
  | cons x t ih =>
    obtain ⟨p, f⟩ := x
    have head : raiseFloor ((p, f) :: t) key v = (p, if p = key then max f v else f) :: raiseFloor t key v := by
      simp only [raiseFloor, List.map_cons]
      congr 1
      split <;> rfl
    rw [head, floorOf, floorOf]
    by_cases h : p = q
    · rw [if_pos h, if_pos h, h]
      rfl
    · rw [if_neg h, if_neg h, ih]

/-! ### The DROP (R49, R75) -/

/-- IU as a DROP of a key begins, `rest` behind it in the queue. -/
def IntakeUnit.dropping (u : IntakeUnit) (key : PageKey) (rest : List IuWord) : IntakeUnit :=
  { u with queue := rest, floors := recordFloor u.floors key (highestVersion u.dir key) }

/-- The event of a DROP. -/
def dropEvent (u : IntakeUnit) (key : PageKey) (rest : List IuWord) : IuEvent :=
  (recordsOf u.dir key (fun _ => true)).foldl IuEvent.dropOne (IuEvent.start (u.dropping key rest))

theorem dropApply_drop {k : Chip} {key : PageKey} {rest : List IuWord} (hw : k.working = true) (hi : k.iu.idle)
    (hq : k.iu.queue = .drop key :: rest) : dropApply k = finishEvent (dropEvent k.iu key rest) none false true k := by
  obtain ⟨hp, hs⟩ := hi
  simp [dropApply, hw, hp, hs, hq, dropEvent, IntakeUnit.dropping]

theorem dropEvent_sound (k : Chip) (key : PageKey) (rest : List IuWord) :
    (dropEvent k.iu key rest).sound k ∧ (dropEvent k.iu key rest).founded = none :=
  foldl_dropOne_sound _
    { nodup := List.nodup_nil, changed := fun _ h => absurd rfl h, hold := rfl, founded := nofun, added := fun _ h _ => h } rfl

theorem dropEvent_dir (u : IntakeUnit) (key : PageKey) (rest : List IuWord) (j : Nat) : tblGet (dropEvent u key rest).u.dir j =
    if j ∈ recordsOf u.dir key (fun _ => true) then (tblGet u.dir j).bind PageRecord.onDrop else tblGet u.dir j := by
  rw [dropEvent, foldl_dropOne_dir]
  rfl

/-- Settles O44. -/
theorem dropApplies : Obligations.DropApplies := by
  intro s key rest hw hp hs hq
  have run := dropApply_drop hw ⟨hp, hs⟩ hq
  obtain ⟨sound, founded⟩ := dropEvent_sound s.chip key rest
  obtain ⟨queue, -, -, -, floors⟩ := redirected_keeps
    (redirected_foldl dropOne_redirected (recordsOf s.chip.iu.dir key (fun _ => true)) (IuEvent.start (s.chip.iu.dropping key rest)))
  obtain ⟨ws, hws, ends⟩ := finishEvent_spec (dropEvent s.chip.iu key rest) none false true s.chip
  have dir (j : Nat) := dropEvent_dir s.chip.iu key rest j
  rw [← run] at ends
  have floors : (dropApply s.chip).iu.floors = recordFloor s.chip.iu.floors key (highestVersion s.chip.iu.dir key) := by
    rw [ends]
    exact floors
  have stands : (dropApply s.chip).iu.dir = (dropEvent s.chip.iu key rest).u.dir := by rw [ends]; rfl
  have named {i : Nat} {r : PageRecord} (hr : tblGet s.chip.iu.dir i = some r) (hk : r.key = key) :
      tblGet (dropApply s.chip).iu.dir i = r.onDrop := by
    rw [stands, dir, if_pos (mem_recordsOf.mpr ⟨r, mem_of_tblGet hr, hk, rfl⟩), hr]
    rfl
  refine ⟨s.setChip (dropApply s.chip), ws, rfl, rfl, rfl, ?_, ?_, ?_, ?_, ?_, ?_, ?_, ?_, ?_⟩
  · rw [State.setChip_chip, ends]
  · rw [State.setChip_chip, ends]
    exact queue
  · rw [State.setChip_chip, ← founded]
    exact eventWrites_are s.chip _ _ none sound stands (by rw [ends]) ws hws
  · intro hne
    rw [State.setChip_chip, ends]
    simp [hne]
  · intro i r hr hk
    rw [State.setChip_chip, stands, dir] at hr
    split at hr
    · obtain ⟨q, -, hq⟩ := Option.bind_eq_some_iff.mp hr
      unfold PageRecord.onDrop at hq
      split at hq
      · cases hq
      · next pinned => cases hq; exact ⟨rfl, rfl, pinned⟩
    · next other => exact absurd (mem_recordsOf.mpr ⟨r, mem_of_tblGet hr, hk, rfl⟩) other
  · intro i r hr hk
    rw [State.setChip_chip, named hr hk, PageRecord.onDrop]
    exact ⟨fun h => if_pos h, fun h => if_neg h⟩
  · intro i r hr others
    have unlisted : i ∉ recordsOf s.chip.iu.dir key (fun _ => true) := by
      rw [mem_recordsOf]
      rintro ⟨q, hq, hk, -⟩
      exact others (i, q) hq rfl hk
    rw [State.setChip_chip, stands, dir, if_neg unlisted]
    exact hr
  · intro none_
    have empty : recordsOf s.chip.iu.dir key (fun _ => true) = [] := by
      rw [recordsOf, List.map_eq_nil_iff, List.filter_eq_nil_iff]
      simpa using none_
    rw [State.setChip_chip, floors, stands, highestVersion_eq_none.mpr none_, dropEvent, empty]
    exact ⟨rfl, rfl⟩
  · intro e he hk top
    rw [State.setChip_chip, floors, highestVersion_of_top he hk top]
    refine ⟨fun absent => by rw [recordFloor, absent]; rfl, fun f present => ?_⟩
    have raised : recordFloor s.chip.iu.floors key (some e.2.version) = raiseFloor s.chip.iu.floors key e.2.version := by
      rw [recordFloor, present]
      rfl
    rw [raised, floorOf_raiseFloor, present]
    refine ⟨by simp, by simp [raiseFloor], fun q hq => ?_⟩
    rw [floorOf_raiseFloor]
    simp [hq]

end Sys2Proof.Machine
end

