-- ==== Sys2Proof/Proofs/Copies.lean ====
section
/-! SUPPORT. Copies and manifests judged against a record as it stands, and CLIPPED (O41). -/

namespace Sys2Proof.Machine

/-! ### Inside the manifest (R58) -/

theorem stripInside_iff (m : Manifest) (x k : Nat) : stripInside m x k = true ↔
    m.seps.getLsbD x = true ∧ k < m.rows / 64 ∧ (m.derived = true → ∃ r ∈ m.ranges, r.1 ≤ k ∧ k ≤ r.2) := by
  simp only [stripInside, inRanges, Bool.and_eq_true, Bool.or_eq_true, Bool.not_eq_true', decide_eq_true_eq, List.any_eq_true, and_assoc]
  cases m.derived <;> simp

theorem patchInside_iff (m : Manifest) (x p : Nat) :
    patchInside m x p = true ↔ m.seps.getLsbD x = true ∧ p < m.patchCounts.getD x 0 := by
  simp [patchInside]

/-- No manifest of the record leaves an item outside. -/
theorem inside_of_not_outside {r : PageRecord} {inside : Manifest → Bool} (h : ¬∃ m, r.manifest = some m ∧ inside m = false)
    (m : Manifest) (hm : r.manifest = some m) : inside m = true := by
  cases hi : inside m with
  | true => rfl
  | false => exact absurd ⟨m, hm, hi⟩ h

/-! ### Strip copies (R57) -/

section
variable {x : Nat} {c : StripCopy} {j : Judged}

theorem judgeStrip_outside (h : ∃ m, j.r.manifest = some m ∧ stripInside m x c.k = false) : judgeStrip x c j = j.note .malformed := by
  obtain ⟨m, hm, outside⟩ := h
  simp [judgeStrip, hm, outside]

variable (inside : ¬∃ m, j.r.manifest = some m ∧ stripInside m x c.k = false)
include inside

theorem judgeStrip_absent (he : tblGet j.r.strips (stripIndex x c.k) = none) : judgeStrip x c j =
    if c.sound then { j with r := { j.r with strips := tblPut j.r.strips (stripIndex x c.k) (.present c.ref) } }
    else ({ j with r := { j.r with strips := tblPut j.r.strips (stripIndex x c.k) .bad } } : Judged).note .crc := by
  have kept := inside_of_not_outside inside
  cases hm : j.r.manifest with
  | none => simp [judgeStrip, hm, he]
  | some m => simp [judgeStrip, hm, he, kept m hm]

theorem judgeStrip_bad (he : tblGet j.r.strips (stripIndex x c.k) = some .bad) : judgeStrip x c j =
    if c.sound then { j with r := { j.r with strips := tblPut j.r.strips (stripIndex x c.k) (.present c.ref) } } else j.note .crc := by
  have kept := inside_of_not_outside inside
  cases hm : j.r.manifest with
  | none => simp [judgeStrip, hm, he]
  | some m => simp [judgeStrip, hm, he, kept m hm]

theorem judgeStrip_present {old : StripRef} (he : tblGet j.r.strips (stripIndex x c.k) = some (.present old)) : judgeStrip x c j =
    if c.sound then (if old.crc = c.ref.crc then j else j.note .conflict) else j.note .crc := by
  have kept := inside_of_not_outside inside
  cases hm : j.r.manifest with
  | none => cases hs : c.sound <;> simp [judgeStrip, hm, he, hs]
  | some m => cases hs : c.sound <;> simp [judgeStrip, hm, he, kept m hm, hs]

/-- A copy whose CRC fails, against an entry that is not ABSENT, is a CRC note alone. -/
theorem judgeStrip_unsound (he : tblGet j.r.strips (stripIndex x c.k) ≠ none) (hs : c.sound = false) :
    judgeStrip x c j = j.note .crc := by
  cases entry : tblGet j.r.strips (stripIndex x c.k) with
  | none => exact absurd entry he
  | some e =>
    cases e with
    | bad => rw [judgeStrip_bad inside entry, hs]; rfl
    | present old => rw [judgeStrip_present inside entry, hs]; rfl

end

/-! ### Patch copies (R57) -/

section
variable {x p : Nat} {c : PatchRef} {sound : Bool} {j : Judged}

theorem samePatch_iff (a b : PatchRef) : samePatch a b = true ↔
    a.crc = b.crc ∧ a.row0 = b.row0 ∧ a.dot0 = b.dot0 ∧ a.w = b.w ∧ a.h = b.h ∧ a.scale = b.scale ∧ a.mode = b.mode := by
  simp [samePatch, and_assoc]

theorem judgePatch_outside (h : ∃ m, j.r.manifest = some m ∧ patchInside m x p = false) :
    judgePatch x p c sound j = j.note .malformed := by
  obtain ⟨m, hm, outside⟩ := h
  simp [judgePatch, hm, outside]

variable (inside : ¬∃ m, j.r.manifest = some m ∧ patchInside m x p = false)
include inside

theorem judgePatch_absent (he : tblGet j.r.patches (patchIndex x p) = none) : judgePatch x p c sound j =
    if sound then { j with r := { j.r with patches := tblPut j.r.patches (patchIndex x p) (.present c) } }
    else ({ j with r := { j.r with patches := tblPut j.r.patches (patchIndex x p) .bad } } : Judged).note .crc := by
  have kept := inside_of_not_outside inside
  cases hm : j.r.manifest with
  | none => simp [judgePatch, hm, he]
  | some m => simp [judgePatch, hm, he, kept m hm]

theorem judgePatch_bad (he : tblGet j.r.patches (patchIndex x p) = some .bad) : judgePatch x p c sound j =
    if sound then { j with r := { j.r with patches := tblPut j.r.patches (patchIndex x p) (.present c) } } else j.note .crc := by
  have kept := inside_of_not_outside inside
  cases hm : j.r.manifest with
  | none => simp [judgePatch, hm, he]
  | some m => simp [judgePatch, hm, he, kept m hm]

theorem judgePatch_present {old : PatchRef} (he : tblGet j.r.patches (patchIndex x p) = some (.present old)) :
    judgePatch x p c sound j = if sound then (if samePatch old c then j else j.note .conflict) else j.note .crc := by
  have kept := inside_of_not_outside inside
  cases hm : j.r.manifest with
  | none => cases sound <;> simp [judgePatch, hm, he]
  | some m => cases sound <;> simp [judgePatch, hm, he, kept m hm]

/-- A copy whose CRC fails, against an entry that is not ABSENT, is a CRC note alone. -/
theorem judgePatch_unsound (he : tblGet j.r.patches (patchIndex x p) ≠ none) : judgePatch x p c false j = j.note .crc := by
  cases entry : tblGet j.r.patches (patchIndex x p) with
  | none => exact absurd entry he
  | some e =>
    cases e with
    | bad => exact judgePatch_bad inside entry
    | present old => exact judgePatch_present inside entry

end

/-! ### Manifests (R59) -/

/-- Notes up to 255, one for each of n items. -/
theorem noteMalformed_eq (n : Nat) (j : Judged) : noteMalformed n j =
    if n = 0 then j else { r := { j.r with notes := { j.r.notes with malformed := min 255 (j.r.notes.malformed + n) } }, mark := true } := by
  induction n generalizing j with
  | zero => rfl
  | succ n ih =>
    rw [noteMalformed, ih, if_neg (Nat.succ_ne_zero n)]
    have sum : min 255 (min 255 (j.r.notes.malformed + 1) + n) = min 255 (j.r.notes.malformed + (n + 1)) := by omega
    split
    · next h => subst h; rfl
    · exact congrArg (fun m => (⟨{ j.r with notes := { j.r.notes with malformed := m } }, true⟩ : Judged)) sum

theorem length_sub_filter {α : Type} (l : List α) (f : α → Bool) :
    l.length - (l.filter f).length = (l.filter (fun a => !f a)).length := by
  have := l.length_eq_length_filter_add f
  omega

theorem judgeManifest_first (m : Manifest) {j : Judged} (h : j.r.manifest = none) :
    let strips := j.r.strips.partition (fun e => stripInside m (e.1 / 768) (e.1 % 768))
    let patches := j.r.patches.partition (fun e => patchInside m (e.1 / 32) (e.1 % 32))
    let gone := strips.2.length + patches.2.length
    judgeManifest m j =
      { r := { j.r with
          manifest := some m, strips := strips.1, patches := patches.1
          notes := if gone = 0 then j.r.notes else { j.r.notes with malformed := min 255 (j.r.notes.malformed + gone) } }
        mark := (j.mark || decide (gone ≠ 0)) } := by
  intro strips patches gone
  have count : (j.r.strips.length - (j.r.strips.filter (fun e => stripInside m (e.1 / 768) (e.1 % 768))).length) +
      (j.r.patches.length - (j.r.patches.filter (fun e => patchInside m (e.1 / 32) (e.1 % 32))).length) = gone := by
    rw [length_sub_filter, length_sub_filter]
    simp only [gone, strips, patches, List.partition_eq_filter_filter]
    rfl
  rw [judgeManifest, h]
  dsimp only
  rw [firstManifest, count, noteMalformed_eq]
  simp only [strips, patches, List.partition_eq_filter_filter]
  by_cases g : gone = 0
  · simp [g]
  · simp [g]

theorem judgeManifest_again (m : Manifest) {old : Manifest} {j : Judged} (h : j.r.manifest = some old) :
    judgeManifest m j = if old.raw = m.raw then j else j.note .conflict := by
  rw [judgeManifest, h]

/-! ### CLIPPED (R60) -/

/-- A PRESENT patch of the record reaches past its page. -/
def PageRecord.reachesPast (r : PageRecord) : Prop :=
  ∃ i p, (i, PatchEntry.present p) ∈ r.patches ∧
    ∃ m, r.manifest = some m ∧ (m.rows < p.row0 + p.h * p.scale ∨ m.dots < p.dot0 + p.w * p.scale)

theorem reachesPast_iff {r : PageRecord} {m : Manifest} (hm : r.manifest = some m) : r.reachesPast ↔
    ∃ i p, (i, PatchEntry.present p) ∈ r.patches ∧ patchPastPage m p = true := by
  simp [PageRecord.reachesPast, hm, patchPastPage]

theorem clip_reaching {j : Judged} (h : j.r.reachesPast) (hc : j.r.clipped = false) :
    j.clip = { r := { j.r with clipped := true }, mark := true } := by
  obtain ⟨i, p, hp, m, hm, past⟩ := id h
  rw [Judged.clip, hm]
  refine if_pos ?_
  rw [hc, Bool.not_false, Bool.true_and]
  exact List.any_eq_true.mpr ⟨_, hp, by simpa [patchPastPage] using past⟩

theorem clip_same {j : Judged} (h : j.r.clipped = true ∨ ¬j.r.reachesPast) : j.clip = j := by
  unfold Judged.clip
  split
  · rfl
  · next m hm =>
    refine if_neg (fun hany => ?_)
    simp only [Bool.and_eq_true, Bool.not_eq_true', List.any_eq_true] at hany
    obtain ⟨unclipped, ⟨i, e⟩, he, past⟩ := hany
    rcases h with h | h
    · rw [unclipped] at h; cases h
    · cases e with
      | bad => cases past
      | present p => exact h ((reachesPast_iff hm).mpr ⟨i, p, he, past⟩)

/-! ### The statement -/

/-- Settles O41. -/
theorem stripCopyJudged : Obligations.StripCopyJudged := by
  refine ⟨fun m x k => ⟨stripInside_iff m x k, patchInside_iff m x k⟩, fun x c j => ⟨judgeStrip_outside, fun inside => ?_⟩,
    fun x p c sound j => ⟨judgePatch_outside, fun inside => ?_⟩, fun m j => ⟨judgeManifest_first m, fun old h => judgeManifest_again m h⟩,
    fun j => ⟨clip_reaching, clip_same⟩, fun c clock r => ?_⟩
  · refine ⟨fun he hs => ?_, fun he hs => ?_, fun he hs => ?_, judgeStrip_unsound inside, fun old he hs => ?_⟩
    · rw [judgeStrip_absent inside he, hs]; rfl
    · rw [judgeStrip_absent inside he, hs]; rfl
    · rw [judgeStrip_bad inside he, hs]; rfl
    · rw [judgeStrip_present inside he, hs]; rfl
  · refine ⟨fun he hs => ?_, fun he hs => ?_, fun he hs => ?_, fun he hs => ?_, fun old he hs => ?_⟩
    · rw [judgePatch_absent inside he, hs]; rfl
    · rw [judgePatch_absent inside he, hs]; rfl
    · rw [judgePatch_bad inside he, hs]; rfl
    · rw [hs]; exact judgePatch_unsound inside he
    · rw [judgePatch_present inside he, hs]
      simp only [samePatch_iff, if_true]
      rfl
  · cases c <;> rfl

end Sys2Proof.Machine
end

