-- ==== Sys2Proof/Proofs/Fragments.lean ====
section
/-! SUPPORT. How a header matches the directory, and how the bytes of a body decide it (O40). -/

namespace Sys2Proof.Machine

/-! ### Headers (R52) -/

section
variable (u : IntakeUnit) (h : FragHeader)

/-- A record that a header can match: of its key and version, and not DROPPED. -/
def FragHeader.fits (h : FragHeader) (r : PageRecord) : Prop := r.key = h.key ∧ r.version = h.version ∧ r.dropped = false

/-- The records that a header matches, in the order of the directory. -/
def fitting : List Nat := recordsOf u.dir h.key (fun r => decide (r.version = h.version) && !r.dropped)

variable {u h}

theorem mem_fitting {i : Nat} : i ∈ fitting u h ↔ ∃ r, (i, r) ∈ u.dir ∧ h.fits r := by
  simp [fitting, mem_recordsOf, FragHeader.fits]

theorem fitting_eq_nil : fitting u h = [] ↔ ¬∃ e ∈ u.dir, h.fits e.2 := by
  rw [List.eq_nil_iff_forall_not_mem]
  simp only [mem_fitting, not_exists, not_and, Prod.forall]

theorem matchHeader_cons {i : Nat} {l : List Nat} (hl : fitting u h = i :: l) : matchHeader u h = some (.matched i) := by
  unfold fitting at hl
  simp [matchHeader, hl]

/-- A version that is not new to its key: at or below that of some record, or at or below the drop floor. -/
def FragHeader.old (h : FragHeader) (u : IntakeUnit) : Prop :=
  (∃ e ∈ u.dir, e.2.key = h.key ∧ h.version ≤ e.2.version) ∨ ∃ v, floorOf u.floors h.key = some v ∧ h.version ≤ v

theorem highestVersion_any (dir : List (Nat × PageRecord)) (key : PageKey) (n : Nat) :
    (highestVersion dir key).any (fun v => decide (n ≤ v)) = true ↔ ∃ e ∈ dir, e.2.key = key ∧ n ≤ e.2.version := by
  cases hv : highestVersion dir key with
  | none =>
    refine iff_of_false (by simp) ?_
    rintro ⟨e, he, hk, -⟩
    exact highestVersion_eq_none.mp hv e he hk
  | some v =>
    obtain ⟨all, x, hx, hk, top⟩ := highestVersion_spec hv
    simp only [Option.any_some, decide_eq_true_eq]
    exact ⟨fun g => ⟨x, hx, hk, by omega⟩, fun ⟨e, he, hke, g⟩ => le_trans g (all e he hke)⟩

theorem matchHeader_old (hl : fitting u h = []) (old : h.old u) : matchHeader u h = none := by
  have stale : ((highestVersion u.dir h.key).any (fun v => decide (h.version ≤ v)) ||
      (floorOf u.floors h.key).any (fun v => decide (h.version ≤ v))) = true := by
    rw [Bool.or_eq_true, highestVersion_any, Option.any_eq_true]
    exact old.imp_right (fun ⟨v, hv, hle⟩ => ⟨v, hv, decide_eq_true hle⟩)
  unfold fitting at hl
  simp only [matchHeader, hl, List.head?_nil]
  exact if_pos stale

theorem matchHeader_new (hl : fitting u h = []) (new : ¬h.old u) : matchHeader u h = some .founds := by
  have fresh : ¬((highestVersion u.dir h.key).any (fun v => decide (h.version ≤ v)) ||
      (floorOf u.floors h.key).any (fun v => decide (h.version ≤ v))) = true := by
    rw [Bool.or_eq_true, highestVersion_any, Option.any_eq_true]
    exact fun g => new (g.imp_right (fun ⟨v, hv, hle⟩ => ⟨v, hv, of_decide_eq_true hle⟩))
  unfold fitting at hl
  simp only [matchHeader, hl, List.head?_nil]
  exact if_neg fresh

/-- A header matches, is STALE, or founds (R52). -/
theorem matchHeader_spec (u : IntakeUnit) (h : FragHeader) :
    ((∃ i, matchHeader u h = some (.matched i)) ↔ ∃ e ∈ u.dir, h.fits e.2) ∧
    (∀ i, matchHeader u h = some (.matched i) → ∃ r, (i, r) ∈ u.dir ∧ h.fits r) ∧
    (matchHeader u h = none ↔ (¬∃ e ∈ u.dir, h.fits e.2) ∧ h.old u) ∧
    (matchHeader u h = some .founds ↔ (¬∃ e ∈ u.dir, h.fits e.2) ∧ ¬h.old u) := by
  have some_iff : (∃ e ∈ u.dir, h.fits e.2) ↔ fitting u h ≠ [] := by rw [ne_eq, fitting_eq_nil, not_not]
  rw [some_iff]
  cases hl : fitting u h with
  | cons i l =>
    have here : ∃ r, (i, r) ∈ u.dir ∧ h.fits r := mem_fitting.mp (by rw [hl]; exact List.mem_cons_self)
    rw [matchHeader_cons hl]
    refine ⟨by simp, fun j hj => ?_, by simp, by simp⟩
    cases hj
    exact here
  | nil =>
    by_cases old : h.old u
    · rw [matchHeader_old hl old]
      simp [old]
    · rw [matchHeader_new hl old]
      simp [old]

end

/-! ### Bytes -/

/-- The bytes of a span are zeros. -/
theorem span_all_zero (b : List Byte) (i n : Nat) :
    (span b i n).all (fun x => decide (x = 0)) = true ↔ ∀ m, i ≤ m → m < i + n → u8 b m = 0 := by
  have byte (m : Nat) : u8 b m = 0 ↔ ∀ x, b[m]? = some x → x = 0 := by
    rw [u8, List.getD_eq_getElem?_getD]
    cases b[m]? with
    | none => simp
    | some x => exact ⟨fun h y hy => Option.some.inj hy ▸ BitVec.eq_of_toNat_eq h, fun h => congrArg BitVec.toNat (h x rfl)⟩
  have elem (j : Nat) : (span b i n)[j]? = if j < n then b[i + j]? else none := by
    rw [span, List.getElem?_take, List.getElem?_drop]
  simp only [List.all_eq_true, decide_eq_true_eq, byte]
  refine ⟨fun h m hi hm x hx => h x (List.mem_iff_getElem?.mpr ⟨m - i, ?_⟩), fun h x hx => ?_⟩
  · rw [elem, if_pos (by omega), Nat.add_sub_cancel' hi]
    exact hx
  · obtain ⟨j, hj⟩ := List.mem_iff_getElem?.mp hx
    rw [elem] at hj
    split at hj
    · exact h (i + j) (by omega) (by omega) x hj
    · cases hj

/-- A bit of a separation set is that of its byte. -/
theorem getLsbD_seps (v : Nat) {x : Nat} (hx : x < 4) : (BitVec.ofNat 4 v).getLsbD x = true ↔ ¬v / 2 ^ x % 2 = 0 := by
  rw [BitVec.getLsbD_ofNat, Nat.testBit_eq_decide_div_mod_eq]
  simp [hx]

/-! ### MANIFEST (R44) -/

theorem manifestFieldsGood_iff (b : List Byte) : manifestFieldsGood b (manifestAt b) = true ↔
    (u8 b 0x10 = 1 ∨ u8 b 0x10 = 2) ∧ 64 ≤ u16 b 0x12 ∧ u16 b 0x12 ≤ 49152 ∧ u16 b 0x12 % 64 = 0 ∧ 64 ≤ u16 b 0x14 ∧
      u16 b 0x14 ≤ 32768 ∧ u8 b 0x11 ≠ 0 ∧ u8 b 0x11 < 16 ∧
      ∀ x < 4, u8 b (0x16 + x) ≤ 32 ∧ (u8 b 0x11 / 2 ^ x % 2 = 0 → u8 b (0x16 + x) = 0) := by
  have count : ∀ x < 4, (manifestAt b).patchCounts.getD x 0 = u8 b (0x16 + x) := by
    intro x hx
    match x, hx with
    | 0, _ => rfl
    | 1, _ => rfl
    | 2, _ => rfl
    | 3, _ => rfl
  have each : (List.range 4).all (fun x => decide ((manifestAt b).patchCounts.getD x 0 ≤ 32) &&
        ((manifestAt b).seps.getLsbD x || decide ((manifestAt b).patchCounts.getD x 0 = 0))) = true ↔
      ∀ x < 4, u8 b (0x16 + x) ≤ 32 ∧ (u8 b 0x11 / 2 ^ x % 2 = 0 → u8 b (0x16 + x) = 0) := by
    rw [List.all_eq_true]
    refine forall_congr' fun x => ?_
    rw [List.mem_range]
    refine forall_congr' fun hx => ?_
    rw [count x hx, Bool.and_eq_true, Bool.or_eq_true, decide_eq_true_eq, decide_eq_true_eq,
      show (manifestAt b).seps = BitVec.ofNat 4 (u8 b 0x11) from rfl, getLsbD_seps _ hx, ← imp_iff_not_or]
  rw [manifestFieldsGood, Bool.and_eq_true, each]
  simp only [Bool.and_eq_true, Bool.or_eq_true, decide_eq_true_eq, and_assoc]
  rfl

theorem fullManifestGood_iff (b : List Byte) : fullManifestGood b = true ↔
    u8 b 0x1D = 0 ∧ (∀ m, 0x1A ≤ m → m < 0x1D → u8 b m = 0) ∧ ∀ m, 0x20 ≤ m → m < 0x40 → u8 b m = 0 := by
  rw [fullManifestGood, Bool.and_eq_true, Bool.and_eq_true, span_all_zero, span_all_zero, decide_eq_true_eq, and_assoc]

theorem derivedManifestGood_iff (b : List Byte) (own : PageKey) : derivedManifestGood b own (manifestAt b) = true ↔
    1 ≤ u8 b 0x1D ∧ u8 b 0x1D ≤ 8 ∧ u8 b 0x1A ≤ 15 ∧ u8 b 0x1B ≠ 0 ∧ u8 b 0x1C ≤ 63 ∧
      (⟨u8 b 0x1A, u8 b 0x1B, u8 b 0x1C⟩ : PageKey) ≠ own ∧
      (∀ i < u8 b 0x1D, u16 b (0x20 + 4 * i) ≤ u16 b (0x22 + 4 * i) ∧ u16 b (0x22 + 4 * i) < u16 b 0x12 / 64) ∧
      ∀ m, 0x20 + 4 * u8 b 0x1D ≤ m → m < 0x40 → u8 b m = 0 := by
  simp only [derivedManifestGood, Bool.and_eq_true, decide_eq_true_eq, keyInRange_iff, span_all_zero, and_assoc]
  refine and_congr_right fun _ => and_congr_right fun few => and_congr_right fun _ => and_congr_right fun _ => and_congr_right fun _ =>
    and_congr_right fun _ => and_congr ?_ ?_
  · simp [manifestAt, min_eq_right few]
  · rw [show 0x20 + 4 * u8 b 0x1D + (32 - 4 * u8 b 0x1D) = 0x40 by omega]

theorem manifestVerdict_whole {h : FragHeader} {b : List Byte} (hl : h.len = 52) (hb : 68 ≤ b.length) :
    manifestVerdict h b = some (manifestChecked h b) := by
  rw [manifestVerdict, if_neg (not_not_intro hl), if_neg (by omega)]

/-- The checks of R44 (3), FULL or DERIVED. -/
def manifestGood (own : PageKey) (b : List Byte) : Prop :=
  manifestFieldsGood b (manifestAt b) = true ∧ (u8 b 0x10 = 1 → fullManifestGood b = true) ∧
    (u8 b 0x10 = 2 → derivedManifestGood b own (manifestAt b) = true)

theorem manifestChecked_eq {h : FragHeader} {b : List Byte} (hc : crc32 (span b 0x10 48) = wordAt b 0x40) :
    (manifestGood h.key b → manifestChecked h b = .content (.manifest (manifestAt b))) ∧
    (¬manifestGood h.key b → manifestChecked h b = .reject .malformed) := by
  have checks : (manifestFieldsGood b (manifestAt b) &&
      (if (manifestAt b).derived then derivedManifestGood b h.key (manifestAt b) else fullManifestGood b)) = true ↔ manifestGood h.key b := by
    rw [Bool.and_eq_true]
    refine and_congr_right fun fields => ?_
    rcases ((manifestFieldsGood_iff b).mp fields).1 with kind | kind
    · simp [manifestAt, kind]
    · simp [manifestAt, kind]
  rw [manifestChecked, if_neg (not_not_intro hc)]
  exact ⟨fun good => if_pos (checks.mpr good), fun bad => if_neg (mt checks.mp bad)⟩

/-! ### STRIPS (R45) -/

/-- The copies of a STRIPS fragment, one for each length. -/
theorem stripCopies_getElem? (cell f : Nat) (b : List Byte) (i off : Nat) (lens : List Nat) (n : Nat) :
    (stripCopies cell f b i off lens)[n]? = lens[n]?.map (fun len =>
      { k := f + (i + n), ref := ⟨cell, off + (lens.take n).sum, len, wordAt b (0x18 + 8 * (i + n))⟩
        sound := decide (crc32 (span b (off + (lens.take n).sum) len) = wordAt b (0x18 + 8 * (i + n))) }) := by
  induction lens generalizing i off n with
  | nil => simp [stripCopies]
  | cons len rest ih =>
    cases n with
    | zero => rfl
    | succ n =>
      rw [stripCopies, List.getElem?_cons_succ, List.getElem?_cons_succ, ih, List.take_succ_cons, List.sum_cons]
      rw [show i + 1 + n = i + (n + 1) by omega, show off + len + (rest.take n).sum = off + (len + (rest.take n).sum) by omega]

theorem stripCopies_length (cell f : Nat) (b : List Byte) (i off : Nat) (lens : List Nat) :
    (stripCopies cell f b i off lens).length = lens.length := by
  induction lens generalizing i off with
  | nil => rfl
  | cons len rest ih => rw [stripCopies, List.length_cons, ih, List.length_cons]

theorem stripLens_getElem? (b : List Byte) {n i : Nat} (h : i < n) : (stripLens b n)[i]? = some (u32 b (0x14 + 8 * i)) := by
  simp [stripLens, h]

theorem stripLens_take (b : List Byte) {n i : Nat} (h : i < n) :
    (stripLens b n).take i = (List.range i).map (fun i => u32 b (0x14 + 8 * i)) := by
  rw [stripLens, ← List.map_take, List.take_range, min_eq_left (Nat.le_of_lt h)]

theorem stripsVerdict_framed {cell : Nat} {h : FragHeader} {b : List Byte} (hl : 4 ≤ h.len) (hb : 20 ≤ b.length)
    (framed : 1 ≤ u16 b 0x12 ∧ u16 b 0x12 ≤ 64 ∧ u16 b 0x10 + u16 b 0x12 ≤ 768 ∧ 4 + 8 * u16 b 0x12 ≤ h.len) :
    stripsVerdict cell h b = if b.length < 20 + 8 * u16 b 0x12 then none
      else if (stripLens b (u16 b 0x12)).any (fun l => decide (l = 0)) ∨ h.len ≠ 4 + 8 * u16 b 0x12 + (stripLens b (u16 b 0x12)).sum then
        some (.reject .malformed)
      else if b.length < 16 + h.len then none
      else some (.content (.strips h.sep
        (stripCopies cell (u16 b 0x10) b 0 (0x14 + 8 * u16 b 0x12) (stripLens b (u16 b 0x12))))) := by
  have ok : ¬(u16 b 0x12 = 0 ∨ 64 < u16 b 0x12 ∨ 768 ≤ u16 b 0x10 + u16 b 0x12 - 1 ∨ h.len < 4 + 8 * u16 b 0x12) := by omega
  rw [stripsVerdict, if_neg (by omega), if_neg (by omega)]
  exact if_neg ok

theorem stripsVerdict_unframed {cell : Nat} {h : FragHeader} {b : List Byte} (hl : 4 ≤ h.len) (hb : 20 ≤ b.length)
    (bad : ¬(1 ≤ u16 b 0x12 ∧ u16 b 0x12 ≤ 64 ∧ u16 b 0x10 + u16 b 0x12 ≤ 768 ∧ 4 + 8 * u16 b 0x12 ≤ h.len)) :
    stripsVerdict cell h b = some (.reject .malformed) := by
  have broken : u16 b 0x12 = 0 ∨ 64 < u16 b 0x12 ∨ 768 ≤ u16 b 0x10 + u16 b 0x12 - 1 ∨ h.len < 4 + 8 * u16 b 0x12 := by omega
  rw [stripsVerdict, if_neg (by omega), if_neg (by omega)]
  exact if_pos broken

/-- The lengths of the strips are not 0, and with the framing they make up the body. -/
theorem stripsSized_iff (h : FragHeader) (b : List Byte) (n : Nat) :
    (¬((stripLens b n).any (fun l => decide (l = 0)) ∨ h.len ≠ 4 + 8 * n + (stripLens b n).sum)) ↔
      (∀ i < n, u32 b (0x14 + 8 * i) ≠ 0) ∧ h.len = 4 + 8 * n + ((List.range n).map (fun i => u32 b (0x14 + 8 * i))).sum := by
  simp [stripLens]

/-! ### PATCH (R46) -/

theorem patchFieldsGood_iff (h : FragHeader) (b : List Byte) : patchFieldsGood h b = true ↔
    u8 b 0x10 ≤ 31 ∧ (u8 b 0x11 = 1 ∨ u8 b 0x11 = 2) ∧
      (u8 b 0x12 = 1 ∨ u8 b 0x12 = 2 ∨ u8 b 0x12 = 4 ∨ u8 b 0x12 = 8 ∨ u8 b 0x12 = 16) ∧ u8 b 0x13 = 0 ∧
      1 ≤ u16 b 0x18 ∧ u16 b 0x18 ≤ 1024 ∧ 1 ≤ u16 b 0x1A ∧ u16 b 0x1A ≤ 1024 ∧ u32 b 0x1C ≠ 0 ∧ h.len = 20 + u32 b 0x1C := by
  simp [patchFieldsGood, and_assoc]

/-! ### The statement -/

section
variable {cell : Nat} {h : FragHeader} {b : List Byte}

theorem bodyVerdict_manifest (hk : h.kind = 1) : bodyVerdict cell h b = manifestVerdict h b := if_pos hk

theorem bodyVerdict_strips (hk : h.kind = 2) : bodyVerdict cell h b = stripsVerdict cell h b := by
  rw [bodyVerdict, if_neg (by omega), if_pos hk]

theorem bodyVerdict_patch (hk : h.kind = 3) : bodyVerdict cell h b = patchVerdict cell h b := by
  rw [bodyVerdict, if_neg (by omega), if_neg (by omega)]

end

theorem manifestGood_iff (own : PageKey) (b : List Byte) : manifestGood own b ↔
    let rows := u16 b 0x12
    let base : PageKey := ⟨u8 b 0x1A, u8 b 0x1B, u8 b 0x1C⟩
    let n := u8 b 0x1D
    let zero (i j : Nat) := ∀ n, i ≤ n → n < j → u8 b n = 0
    (u8 b 0x10 = 1 ∨ u8 b 0x10 = 2) ∧ 64 ≤ rows ∧ rows ≤ 49152 ∧ rows % 64 = 0 ∧ 64 ≤ u16 b 0x14 ∧
      u16 b 0x14 ≤ 32768 ∧ u8 b 0x11 ≠ 0 ∧ u8 b 0x11 < 16 ∧
      (∀ x < 4, u8 b (0x16 + x) ≤ 32 ∧ (u8 b 0x11 / 2 ^ x % 2 = 0 → u8 b (0x16 + x) = 0)) ∧
      (u8 b 0x10 = 1 → n = 0 ∧ zero 0x1A 0x1D ∧ zero 0x20 0x40) ∧
      (u8 b 0x10 = 2 → 1 ≤ n ∧ n ≤ 8 ∧ base.book ≤ 15 ∧ base.page ≠ 0 ∧ base.zone ≤ 63 ∧ base ≠ own ∧
        (∀ i < n, u16 b (0x20 + 4 * i) ≤ u16 b (0x22 + 4 * i) ∧ u16 b (0x22 + 4 * i) < rows / 64) ∧ zero (0x20 + 4 * n) 0x40) := by
  rw [manifestGood, manifestFieldsGood_iff, fullManifestGood_iff, derivedManifestGood_iff]
  simp only [and_assoc]

/-- A manifest that passes its checks has no more ranges than it says. -/
theorem manifestAt_of_good {own : PageKey} {b : List Byte} (good : manifestGood own b) : manifestAt b =
    { derived := decide (u8 b 0x10 = 2), seps := BitVec.ofNat 4 (u8 b 0x11), rows := u16 b 0x12, dots := u16 b 0x14
      patchCounts := [u8 b 0x16, u8 b 0x17, u8 b 0x18, u8 b 0x19], base := ⟨u8 b 0x1A, u8 b 0x1B, u8 b 0x1C⟩
      ranges := (List.range (u8 b 0x1D)).map (fun i => (u16 b (0x20 + 4 * i), u16 b (0x22 + 4 * i))), raw := span b 0x10 48 } := by
  obtain ⟨fields, full, derived⟩ := good
  have few : u8 b 0x1D ≤ 8 := by
    rcases ((manifestFieldsGood_iff b).mp fields).1 with kind | kind
    · rw [((fullManifestGood_iff b).mp (full kind)).1]
      omega
    · exact ((derivedManifestGood_iff b own).mp (derived kind)).2.1
  rw [manifestAt, min_eq_right few]
  rfl

/-- Settles O40. -/
theorem headerMatches : Obligations.HeaderMatches := by
  refine ⟨matchHeader_spec, fun cell h b => ⟨fun hk => ?_, fun hk => ?_, fun hk => ?_⟩⟩
  · simp only [bodyVerdict_manifest hk]
    refine ⟨fun hl => if_pos hl, fun hl hb => ?_, fun hl hb => ?_⟩
    · rw [manifestVerdict, if_neg (not_not_intro hl), if_pos hb]
    · rw [manifestVerdict_whole hl hb]
      have good_iff := manifestGood_iff h.key b
      dsimp only at good_iff
      rw [← good_iff]
      refine ⟨fun hc => ?_, fun hc bad => ?_, fun hc sound => ?_⟩
      · rw [manifestChecked]
        exact congrArg some (if_pos hc)
      · rw [(manifestChecked_eq hc).2 bad]
      · rw [(manifestChecked_eq hc).1 sound, manifestAt_of_good sound]
        rfl
  · simp only [bodyVerdict_strips hk]
    refine ⟨fun hl => if_pos hl, fun hl hb => ?_, fun hl hb => ⟨stripsVerdict_unframed hl hb, fun framed hshort => ?_, fun framed hlong => ?_⟩⟩
    · rw [stripsVerdict, if_neg (by omega), if_pos hb]
    · rw [stripsVerdict_framed hl hb framed, if_pos hshort]
    · have sized_iff := stripsSized_iff h b (u16 b 0x12)
      rw [stripsVerdict_framed hl hb framed, if_neg (by omega)]
      refine ⟨fun bad => if_pos (not_not.mp (mt sized_iff.mp bad)), fun good hshort => ?_, fun good hall => ?_⟩
      · rw [if_neg (sized_iff.mpr good), if_pos hshort]
      · rw [if_neg (sized_iff.mpr good), if_neg (by omega)]
        refine ⟨_, rfl, ?_, fun i hi => ?_⟩
        · rw [stripCopies_length, stripLens, List.length_map, List.length_range]
        · rw [stripCopies_getElem?, stripLens_getElem? b hi, stripLens_take b hi, Nat.zero_add]
          exact ⟨_, rfl, rfl, rfl, decide_eq_true_iff⟩
  · simp only [bodyVerdict_patch hk]
    refine ⟨fun hl => if_pos hl, fun hl hb => ?_, fun hl hb => ?_⟩
    · rw [patchVerdict, if_neg (by omega), if_pos hb]
    · rw [← patchFieldsGood_iff, patchVerdict, if_neg (by omega), if_neg (by omega)]
      refine ⟨fun bad => if_neg bad, fun good hshort => ?_, fun good hall => ?_⟩
      · rw [if_pos good, if_pos hshort]
      · rw [if_pos good, if_neg (by omega)]
        exact ⟨_, rfl, decide_eq_true_iff⟩

end Sys2Proof.Machine
end

