-- ==== Sys2Proof/Proofs/Reports.lean ====
section
/-! SUPPORT. The reports of IMC, BR and HLC: the plate that each names, its pins, and the carrier that PSC takes note of (O47). -/

namespace Sys2Proof.Machine

/-! ### What a report does at once -/

/-- From `k` to `y` PSC has taken the input at the head of its inbox, `rest` behind it, and has at most changed the plate of one slot, by `f`.
Of IU and its writes it says nothing. -/
structure Chip.planned (k y : Chip) (rest : List PscInput) (slot : Nat) (f : Plate → Plate) : Prop where
  regs : y.regs = k.regs
  pd : y.pd = k.pd
  imc : y.imc = k.imc
  br : y.br = k.br
  tl : y.tl = k.tl
  hlc : y.hlc = k.hlc
  dmr : y.dmr = k.dmr
  psc : y.psc = { k.psc with plates := y.psc.plates, inbox := rest, newsDue := y.psc.newsDue }
  own : y.plate slot = (k.plate slot).map f
  others : ∀ n, n ≠ slot → y.plate n = k.plate n

/-- From `k` to `t` the pins that the plate of a slot holds have been given up, with the writes of that, when the plate is one that `gives` them
up, and otherwise IU stays (R73). -/
structure Chip.pinsMoved (k t : Chip) (slot : Nat) (gives : Plate → Prop) : Prop where
  kept : (∀ p, k.plate slot = some p → ¬gives p) → t.iu = k.iu
  given : ∀ p, k.plate slot = some p → gives p → p.pinsGivenUp k.iu.dir t.iu.dir ∧
    ∃ ws, t.sp.iu = k.sp.iu ++ ws ∧ k.intakeWrites t none ws

section
variable {k y t : Chip} {rest : List PscInput} {slot : Nat} {p : Plate} {f : Plate → Plate} {gives : Plate → Prop}

theorem planned_free (h : k.planned y rest slot f) (hf : pscFree k = true) : pscBlocked y = false ∧ y.psc.due = [] := by
  obtain ⟨hw, ho, hn, ha, -, hd⟩ := (pscFree_iff k).mp hf
  have psc := h.psc
  refine ⟨?_, by rw [psc]; exact hd⟩
  rw [pscBlocked_congr h.pd (by rw [psc]) (by rw [psc]) (by rw [psc])]
  simp [pscBlocked, hw, ho, hn, ha]

/-- An event that leaves IU as it is writes nothing. -/
theorem intakeWrites_none (h : t.iu = k.iu) : k.intakeWrites t none [] := by
  simp only [Chip.intakeWrites, h]
  exact ⟨[], [], [], rfl, fun _ _ g => g.elim (fun g => absurd rfl g.2) nofun, fun _ _ g => g.elim (fun g => absurd rfl g.2) nofun,
    nofun, nofun, List.nodup_nil, fun _ g => absurd rfl g, nofun, List.nodup_nil, fun _ g => absurd rfl g, nofun⟩

theorem pinsMoved_same (h : t.iu = k.iu) : k.pinsMoved t slot (fun _ => False) := ⟨fun _ => h, fun _ _ => nofun⟩

/-- The pins of a plate are given up, with the writes of that. -/
theorem giveUpPins_writes (hp : k.plate slot = some p) : p.pinsGivenUp k.iu.dir (giveUpPins slot k).iu.dir ∧
    ∃ ws, (giveUpPins slot k).sp.iu = k.sp.iu ++ ws ∧ k.intakeWrites (giveUpPins slot k) none ws := by
  cases held : p.pinsHeld with
  | false =>
    have same : giveUpPins slot k = k := by simp [giveUpPins, hp, held]
    rw [same, Plate.pinsGivenUp, held]
    exact ⟨rfl, [], (List.append_nil _).symm, intakeWrites_none rfl⟩
  | true =>
    have given : giveUpPins slot k = setPlate slot { p with pinsHeld := false } (unpinRequest p.snapshot k) := by
      simp [giveUpPins, hp, held]
    obtain ⟨ws, queue, writes⟩ := unpinRequest_writes p.snapshot k
    have queue : (unpinRequest p.snapshot k).sp.iu = k.sp.iu ++ ws := by rw [queue]
    rw [given, Plate.pinsGivenUp, held]
    exact ⟨unpinRequest_unpins p.snapshot k, ws, queue, writes⟩

/-- A plate of the slot changed by a function, in the input at the head of the inbox. -/
theorem planned_updPlate (g : Plate → Plate) (hi : (popInbox k).psc.inbox = rest) :
    k.planned (updPlate slot g (popInbox k)) rest slot g ∧ (updPlate slot g (popInbox k)).iu = k.iu := by
  subst hi
  cases hp : k.plate slot with
  | none =>
    have same : updPlate slot g (popInbox k) = popInbox k := by
      rw [updPlate, show (popInbox k).plate slot = none from hp]
    rw [same]
    exact ⟨⟨rfl, rfl, rfl, rfl, rfl, rfl, rfl, rfl, by rw [hp]; exact hp, fun _ _ => rfl⟩, rfl⟩
  | some p =>
    rw [updPlate_eq (k := popInbox k) hp]
    exact ⟨⟨rfl, rfl, rfl, rfl, rfl, rfl, rfl, rfl, by rw [hp]; exact setPlate_self _ _ _, fun n hn => setPlate_ne _ _ _ _ hn⟩, rfl⟩

/-- Two functions that agree on the slot's plate say the same of it. -/
theorem planned_congr {g : Plate → Plate} (h : k.planned y rest slot f) (hfg : ∀ p, k.plate slot = some p → f p = g p) :
    k.planned y rest slot g := by
  refine ⟨h.regs, h.pd, h.imc, h.br, h.tl, h.hlc, h.dmr, h.psc, ?_, h.others⟩
  rw [h.own]
  cases hp : k.plate slot with
  | none => rfl
  | some p => exact congrArg some (hfg p hp)

theorem planned_popInbox (hi : (popInbox k).psc.inbox = rest) : k.planned (popInbox k) rest slot id := by
  subst hi
  refine ⟨rfl, rfl, rfl, rfl, rfl, rfl, rfl, rfl, ?_, fun _ _ => rfl⟩
  rw [Option.map_id]
  rfl

/-- The slot's plate is set, whatever the input made of it before. -/
theorem planned_setPlate (h : k.planned y rest slot f) (hp : k.plate slot = some p) (r : Plate) :
    k.planned (setPlate slot r y) rest slot (fun _ => r) := by
  refine ⟨h.regs, h.pd, h.imc, h.br, h.tl, h.hlc, h.dmr, ?_, ?_, fun n hn => (setPlate_ne _ _ _ _ hn).trans (h.others n hn)⟩
  · show { y.psc with plates := tblPut y.psc.plates slot r } = _
    rw [h.psc]
    rfl
  · rw [setPlate_self, hp]
    rfl

/-- The pins of the slot's plate are given up within an input that has not touched them. -/
theorem planned_giveUpPins (h : k.planned y rest slot f) (hp : k.plate slot = some p) (hs : (f p).snapshot = p.snapshot)
    (hh : (f p).pinsHeld = p.pinsHeld) (hiu : y.iu = k.iu) (hsp : y.sp = k.sp) :
    k.planned (giveUpPins slot y) rest slot (fun p => { f p with pinsHeld := false }) ∧
      p.pinsGivenUp k.iu.dir (giveUpPins slot y).iu.dir ∧
      ∃ ws, (giveUpPins slot y).sp.iu = k.sp.iu ++ ws ∧ k.intakeWrites (giveUpPins slot y) none ws := by
  have here : y.plate slot = some (f p) := by rw [h.own, hp]; rfl
  obtain ⟨iu, queue, plates, e, -, -, own, others⟩ := giveUpPins_spec here
  obtain ⟨given, ws, joins, writes⟩ := giveUpPins_writes here
  have writes : k.intakeWrites (giveUpPins slot y) none ws := by
    simp only [Chip.intakeWrites, Chip.lay, h.pd, hiu] at writes
    exact writes
  rw [Plate.pinsGivenUp, hs, hh, hiu] at given
  rw [hsp] at joins
  refine ⟨?_, given, ws, joins, writes⟩
  rw [e]
  refine ⟨h.regs, h.pd, h.imc, h.br, h.tl, h.hlc, h.dmr, ?_, ?_, fun n hn => (others n hn).trans (h.others n hn)⟩
  · show { y.psc with plates := plates } = _
    rw [h.psc]
    rfl
  · rw [hp]
    exact own

end

/-! ### From the report to the end of its input -/

/-- From `k` to `t` PSC has taken the report at the head of its inbox: the plate of one slot is changed by `f`, giving up its pins when it `gives`
them, and no other plate and none of the blocks that PSC does not write for has changed. -/
structure Chip.took (k t : Chip) (rest : List PscInput) (slot : Nat) (gives : Plate → Prop) (f : Plate → Plate) : Prop where
  regs : t.regs = k.regs
  imc : t.imc = k.imc
  br : t.br = k.br
  tl : t.tl = k.tl
  hlc : t.hlc = k.hlc
  inbox : t.psc.inbox = rest
  own : t.plate slot = (k.plate slot).map f
  others : ∀ n, n ≠ slot → t.plate n = k.plate n
  pins : k.pinsMoved t slot gives

section
variable {k y t : Chip} {rest : List PscInput} {slot : Nat} {f : Plate → Plate} {gives : Plate → Prop}

theorem took_of_planned (h : k.planned y rest slot f) (pins : k.pinsMoved y slot gives) : k.took y rest slot gives f :=
  ⟨h.regs, h.imc, h.br, h.tl, h.hlc, by rw [h.psc], h.own, h.others, pins⟩

theorem took_finishedAs (h : k.took y rest slot gives f) (work : List PscStep) (newsMap : BitVec 512) (newsDue : List Nat)
    (outstanding : Nat) (report : List Transfer) (runState : RunState) :
    k.took (y.finishedAs work newsMap newsDue outstanding report runState) rest slot gives f :=
  ⟨h.regs, h.imc, h.br, h.tl, h.hlc, h.inbox, h.own, h.others, h.pins.kept, h.pins.given⟩

theorem took_ownMarked (h : k.took y rest slot gives f) (m : MarkReport) (work : List PscStep) :
    k.took (setWork work (y.ownMarked m)) rest slot gives f :=
  ⟨h.regs, h.imc, h.br, h.tl, h.hlc, h.inbox, h.own, h.others, h.pins.kept, h.pins.given⟩

/-- An input without steps goes on to its end at once. -/
theorem pscTake_planned {plan : Chip → Plan} (hf : pscFree k = true) (hp : plan (popInbox k) = (y, []))
    (hy : k.planned y rest slot f) : ∃ work newsMap newsDue outstanding report runState,
      pscTake plan (popInbox k) = y.finishedAs work newsMap newsDue outstanding report runState := by
  obtain ⟨free, due⟩ := planned_free hy hf
  have ends := runSteps_publish (popInbox k).psc.plates free
  have run : pscTake plan (popInbox k) = runSteps [.publish (popInbox k).psc.plates] y := by
    rw [pscTake, beginInput, hp]
    exact pscGo_finished ends due
  rw [run]
  exact finished_frame ends

theorem pscTake_took {plan : Chip → Plan} (hf : pscFree k = true) (hp : plan (popInbox k) = (y, []))
    (hy : k.planned y rest slot f) (pins : k.pinsMoved y slot gives) : k.took (pscTake plan (popInbox k)) rest slot gives f := by
  obtain ⟨_, _, _, _, _, _, e⟩ := pscTake_planned hf hp hy
  rw [e]
  exact took_finishedAs (took_of_planned hy pins) _ _ _ _ _ _

/-- An input whose one step is a mark of PSC's own on the plate that it has changed stops at that mark. -/
theorem pscTake_marked {plan : Chip → Plan} {q : Plate} {attempt detail : Nat} {kind : MarkKind} {key : Option PageKey}
    (hf : pscFree k = true) (hp : plan (popInbox k) = (setPlate slot q y, [.mark (ownMark slot attempt kind key detail)]))
    (hy : k.planned (setPlate slot q y) rest slot f) (hk : kind ≠ .fence ∧ kind ≠ .nosep) :
    pscTake plan (popInbox k) = setWork [.publish (popInbox k).psc.plates]
      ((setPlate slot q y).ownMarked (ownMark slot attempt kind key detail)) := by
  obtain ⟨free, -⟩ := planned_free hy hf
  rw [pscTake, beginInput, hp, List.singleton_append, runSteps_cons _ _ _ free, doStep, runSteps_ownMark _ hk]
  exact pscGo_blocked _ (blocked_of_awaiting rfl)

end

/-! ### IMC's and BR's reports (R97) -/

section
variable {s : State} {rest : List PscInput} {slot attempt : Nat}

theorem nextInput_of_head {k : Chip} {i : PscInput} (hf : pscFree k = true) (hi : k.psc.inbox = i :: rest) :
    nextInput k = some i ∧ (popInbox k).psc.inbox = rest := by
  refine ⟨by simp [nextInput, hf, hi], ?_⟩
  show k.psc.inbox.drop 1 = rest
  rw [hi]
  rfl

theorem isCurrent_iff (p : Plate) (a : Nat) : p.isCurrent a = true ↔ p.attempt = a ∧ p.status = .opened := by
  simp [Plate.isCurrent]

theorem takeExposingEntry_took {k : Chip} {prep : Nat} (hf : pscFree k = true)
    (hi : k.psc.inbox = .exposingEntry slot attempt prep :: rest) :
    k.took (takeExposingEntry k) rest slot (fun _ => False) (fun p =>
      if p.state = .preparing ∧ p.attempt = attempt ∧ p.status = .opened ∧ p.prepNo = prep then
        { p with state := .imaging, imagingTime := k.regs.plantClock } else p) := by
  obtain ⟨next, pop⟩ := nextInput_of_head hf hi
  rw [takeExposingEntry, next]
  obtain ⟨planned, iu⟩ := planned_updPlate (slot := slot) (fun p =>
    if p.state = .preparing ∧ p.isCurrent attempt = true ∧ p.prepNo = prep then
      { p with state := .imaging, imagingTime := (popInbox k).regs.plantClock } else p) pop
  refine pscTake_took hf rfl (planned_congr planned fun p _ => ?_) (pinsMoved_same iu)
  simp only [isCurrent_iff, and_assoc]
  rfl

theorem takeExposureEnd_took {k : Chip} {prep exposed holds : Nat} (hf : pscFree k = true)
    (hi : k.psc.inbox = .exposureEnd slot attempt prep exposed holds :: rest) :
    k.took (takeExposureEnd k) rest slot (fun _ => False) (fun p =>
      if p.prepNo = prep then { p with exposed := exposed, holds := holds } else p) := by
  obtain ⟨next, pop⟩ := nextInput_of_head hf hi
  rw [takeExposureEnd, next]
  have news : ∃ due, (if exposureNews (popInbox k) slot prep exposed holds then newsOf slot (popInbox k) else popInbox k) =
      setNewsDue due (popInbox k) := by
    split
    · exact ⟨_, rfl⟩
    · exact ⟨k.psc.newsDue, rfl⟩
  obtain ⟨due, news⟩ := news
  obtain ⟨planned, iu⟩ := planned_updPlate (k := setNewsDue due k) (slot := slot) (fun p =>
    if p.prepNo = prep then { p with exposed := exposed, holds := holds } else p) pop
  refine pscTake_took (y := updPlate slot _ (popInbox (setNewsDue due k))) hf ?_ ⟨planned.regs, planned.pd, planned.imc, planned.br, planned.tl,
    planned.hlc, planned.dmr, planned.psc, planned.own, planned.others⟩ (pinsMoved_same iu)
  exact congrArg (fun k => (applyExposureEnd slot prep exposed holds k, ([] : List PscStep))) news

/-- BR's report gives up the pins of a plate whose render it names; one that holds none has none to give up. -/
theorem applyRenderFinished_eq {k : Chip} {p : Plate} {snapNo : Nat} (hp : k.plate slot = some p) :
    applyRenderFinished slot attempt snapNo k =
      if p.attempt = attempt ∧ p.status = .opened ∧ p.snapNo = snapNo then giveUpPins slot k else k := by
  have unheld (h : p.pinsHeld = false) : giveUpPins slot k = k := by simp [giveUpPins, hp, h]
  rw [applyRenderFinished, hp]
  simp only [Bool.and_eq_true, isCurrent_iff, decide_eq_true_eq, and_assoc]
  cases held : p.pinsHeld with
  | false => simp [unheld held]
  | true => simp

theorem takeRenderFinished_took {k : Chip} {snapNo : Nat} (hf : pscFree k = true)
    (hi : k.psc.inbox = .renderFinished slot attempt snapNo :: rest) :
    k.took (takeRenderFinished k) rest slot (fun p => p.attempt = attempt ∧ p.status = .opened ∧ p.snapNo = snapNo) (fun p =>
      if p.attempt = attempt ∧ p.status = .opened ∧ p.snapNo = snapNo then { p with pinsHeld := false } else p) := by
  obtain ⟨next, pop⟩ := nextInput_of_head hf hi
  have same := planned_popInbox (slot := slot) pop
  rw [takeRenderFinished, next]
  cases hp : k.plate slot with
  | none =>
    have plan : applyRenderFinished slot attempt snapNo (popInbox k) = popInbox k := by
      rw [applyRenderFinished, show (popInbox k).plate slot = none from hp]
    exact pscTake_took hf (congrArg (·, []) plan) (planned_congr same fun p h => nomatch hp.symm.trans h)
      ⟨fun _ => rfl, fun p h => nomatch hp.symm.trans h⟩
  | some p =>
    have plan := applyRenderFinished_eq (attempt := attempt) (snapNo := snapNo) (k := popInbox k) hp
    by_cases names : p.attempt = attempt ∧ p.status = .opened ∧ p.snapNo = snapNo
    · rw [if_pos names] at plan
      obtain ⟨planned, given⟩ := planned_giveUpPins same hp rfl rfl rfl rfl
      refine pscTake_took hf (congrArg (·, []) plan) (planned_congr planned fun q hq => ?_)
        ⟨fun none_ => absurd names (none_ p hp), fun q hq _ => ?_⟩
      · cases hp.symm.trans hq
        exact (if_pos names).symm
      · cases hp.symm.trans hq
        exact given
    · rw [if_neg names] at plan
      refine pscTake_took hf (congrArg (·, []) plan) (planned_congr same fun q hq => ?_)
        ⟨fun _ => rfl, fun q hq gives => ?_⟩
      · cases hp.symm.trans hq
        exact (if_neg names).symm
      · cases hp.symm.trans hq
        exact absurd gives names

end

/-! ### HLC's report of a new carrier (R98, R183) -/

/-- HLC with the end of the UNLOAD handed to IMC and the PUNCH request of the new carrier queued (R183). -/
def HandlerLine.handed (h : HandlerLine) (c : Carrier) : HandlerLine :=
  { h with
    unloadEnd := .handed
    punch := { h.punch with queue := h.punch.queue ++
      [{ kind := .punch (!c.spoiled), slot := c.slot, attempt := c.attempt, seq := 0 }] } }

theorem carrierTaken_last {k : Chip} {cs : List Carrier} {c : Carrier} (h : k.hlc.carriers = cs ++ [c]) :
    carrierTaken k = k.setHlc (k.hlc.handed c) := by
  rw [carrierTaken, h, List.getLast?_append_of_ne_nil _ (by simp)]
  rfl

theorem carrierTaken_frame (k : Chip) : ∃ line, carrierTaken k = k.setHlc line := by
  unfold carrierTaken
  split
  · exact ⟨k.hlc, rfl⟩
  · exact ⟨_, rfl⟩

/-- The slot's plate with one more carrier out; a spoiled one is the drum plate that had to be rejected. -/
def Plate.withCarrier (p : Plate) (spoiled : Bool) : Plate :=
  { p with carriersOut := p.carriersOut + 1, drumReject := if spoiled = true then false else p.drumReject }

/-- A good carrier of the current attempt of an IMAGING plate. -/
abbrev Plate.finishedBy (p : Plate) (attempt : Nat) (spoiled : Bool) : Prop :=
  spoiled = false ∧ p.attempt = attempt ∧ p.status = .opened ∧ p.state = .imaging

/-- The plate entering FINISHING. -/
def Plate.finishing (p : Plate) : Plate := { p with state := .finishing, breakPending := none, pinsHeld := false }

section
variable {k : Chip} {rest : List PscInput} {slot attempt : Nat} {spoiled : Bool} {p : Plate}

theorem applyCarrierCreated_other (hp : k.plate slot = some p) (h : ¬p.finishedBy attempt spoiled) :
    applyCarrierCreated slot attempt spoiled k = (setPlate slot (p.withCarrier spoiled) k, []) := by
  have not_ : ¬(!spoiled && p.isCurrent attempt && decide (p.state = .imaging)) = true := by
    simpa [Plate.finishedBy, isCurrent_iff, and_assoc] using h
  rw [applyCarrierCreated, hp]
  exact if_neg not_

theorem applyCarrierCreated_good (hp : k.plate slot = some p) (h : p.finishedBy attempt spoiled) :
    applyCarrierCreated slot attempt spoiled k =
      (setPlate slot (p.withCarrier spoiled).finishing (giveUpPins slot (setPlate slot (p.withCarrier spoiled) k)),
        (p.breakPending.map (fun f => PscStep.mark (ownMark slot p.attempt .lateBreak none f.code))).toList) := by
  have good : (!spoiled && p.isCurrent attempt && decide (p.state = .imaging)) = true := by
    simpa [Plate.finishedBy, isCurrent_iff, and_assoc] using h
  have here : (setPlate slot (p.withCarrier spoiled) k).plate slot = some (p.withCarrier spoiled) := setPlate_self _ _ _
  obtain ⟨iu, queue, plates, e, -, -, own, -⟩ := giveUpPins_spec here
  have given : (giveUpPins slot (setPlate slot (p.withCarrier spoiled) k)).plate slot = some { p.withCarrier spoiled with pinsHeld := false } := by
    rw [e]
    exact own
  rw [applyCarrierCreated, hp]
  dsimp only
  rw [if_pos good]
  show enterFinishing slot (setPlate slot (p.withCarrier spoiled) k) = _
  have pending : (p.withCarrier spoiled).breakPending = p.breakPending := rfl
  rw [enterFinishing, given]
  dsimp only
  rw [pending]
  cases p.breakPending <;> rfl

/-- The plate as the report of a new carrier leaves it. -/
def Plate.afterCarrier (p : Plate) (attempt : Nat) (spoiled : Bool) : Plate :=
  if p.finishedBy attempt spoiled then (p.withCarrier spoiled).finishing else p.withCarrier spoiled

theorem carrierCreated_absent (hf : pscFree k = true) (hi : (popInbox k).psc.inbox = rest) (hp : k.plate slot = none) :
    k.took (pscTake (applyCarrierCreated slot attempt spoiled) (popInbox k)) rest slot (fun p => p.finishedBy attempt spoiled)
      (fun p => p.afterCarrier attempt spoiled) := by
  have plan : applyCarrierCreated slot attempt spoiled (popInbox k) = (popInbox k, []) := by
    rw [applyCarrierCreated, show (popInbox k).plate slot = none from hp]
  refine pscTake_took hf plan (planned_congr (planned_popInbox hi) fun p h => ?_) ⟨fun _ => rfl, fun p h => ?_⟩
  · cases hp.symm.trans h
  · cases hp.symm.trans h

theorem carrierCreated_other (hf : pscFree k = true) (hi : (popInbox k).psc.inbox = rest) (hp : k.plate slot = some p)
    (other : ¬p.finishedBy attempt spoiled) :
    k.took (pscTake (applyCarrierCreated slot attempt spoiled) (popInbox k)) rest slot (fun p => p.finishedBy attempt spoiled)
      (fun p => p.afterCarrier attempt spoiled) := by
  refine pscTake_took hf (applyCarrierCreated_other (k := popInbox k) hp other)
    (planned_congr (planned_setPlate (planned_popInbox hi) hp (p.withCarrier spoiled)) fun q hq => ?_) ⟨fun _ => rfl, fun q hq h => ?_⟩
  · cases hp.symm.trans hq
    exact (if_neg other).symm
  · cases hp.symm.trans hq
    exact absurd h other

/-- The chip at once after the good carrier of an IMAGING plate: the pins given up, and the plate FINISHING. -/
def Chip.finishingOf (k : Chip) (slot : Nat) (p : Plate) : Chip :=
  setPlate slot p.finishing (giveUpPins slot (setPlate slot p (popInbox k)))

theorem finishingOf_planned (hi : (popInbox k).psc.inbox = rest) (hp : k.plate slot = some p) (good : p.finishedBy attempt spoiled) :
    k.planned (k.finishingOf slot (p.withCarrier spoiled)) rest slot (fun p => p.afterCarrier attempt spoiled) ∧
      k.pinsMoved (k.finishingOf slot (p.withCarrier spoiled)) slot (fun p => p.finishedBy attempt spoiled) := by
  have carried := planned_setPlate (planned_popInbox hi) hp (p.withCarrier spoiled)
  obtain ⟨unpinned, given⟩ := planned_giveUpPins carried hp rfl rfl rfl rfl
  refine ⟨planned_congr (planned_setPlate unpinned hp (p.withCarrier spoiled).finishing) fun q hq => ?_,
    fun none_ => absurd good (none_ p hp), fun q hq _ => ?_⟩
  · cases hp.symm.trans hq
    exact (if_pos good).symm
  · cases hp.symm.trans hq
    exact given

/-- The good carrier of an IMAGING plate; a break that was pending is too late, and PSC waits for the disposition of its mark (R98). -/
theorem carrierCreated_good (hf : pscFree k = true) (hi : (popInbox k).psc.inbox = rest) (hp : k.plate slot = some p)
    (good : p.finishedBy attempt spoiled) :
    k.took (pscTake (applyCarrierCreated slot attempt spoiled) (popInbox k)) rest slot (fun p => p.finishedBy attempt spoiled)
      (fun p => p.afterCarrier attempt spoiled) ∧
    ∀ f, p.breakPending = some f →
      k.pscMarked (pscTake (applyCarrierCreated slot attempt spoiled) (popInbox k)) slot .lateBreak .note p.attempt none f.code := by
  obtain ⟨planned, pins⟩ := finishingOf_planned hi hp good
  have plan := applyCarrierCreated_good (k := popInbox k) hp good
  cases hb : p.breakPending with
  | none =>
    rw [hb] at plan
    exact ⟨pscTake_took hf plan planned pins, fun f hf => nomatch hf⟩
  | some f =>
    rw [hb] at plan
    rw [pscTake_marked hf plan planned (by decide)]
    refine ⟨took_ownMarked (took_of_planned planned pins) _ _, fun g hg => ?_⟩
    cases hg
    have list : (k.finishingOf slot (p.withCarrier spoiled)).marks slot = k.marks slot := by rw [Chip.marks, planned.dmr, Chip.marks]
    exact ownMarked_note list rfl rfl rfl rfl

/-- What PSC has made of the report of a new carrier, whatever plate the slot holds. -/
theorem carrierCreated_took (hf : pscFree k = true) (hi : (popInbox k).psc.inbox = rest) :
    k.took (pscTake (applyCarrierCreated slot attempt spoiled) (popInbox k)) rest slot (fun p => p.finishedBy attempt spoiled)
      (fun p => p.afterCarrier attempt spoiled) := by
  cases hp : k.plate slot with
  | none => exact carrierCreated_absent hf hi hp
  | some p =>
    by_cases good : p.finishedBy attempt spoiled
    · exact (carrierCreated_good hf hi hp good).1
    · exact carrierCreated_other hf hi hp good

/-- The command takes the report of a carrier that names a slot, and then HLC goes on (R183). -/
theorem takeCarrierCreated_slot (hf : pscFree k = true) (hi : k.psc.inbox = .carrierCreated (some slot) attempt spoiled :: rest) :
    takeCarrierCreated k = carrierTaken (pscTake (applyCarrierCreated slot attempt spoiled) (popInbox k)) := by
  rw [takeCarrierCreated, (nextInput_of_head hf hi).1]

theorem takeCarrierCreated_none (hf : pscFree k = true) (hi : k.psc.inbox = .carrierCreated none attempt spoiled :: rest) :
    takeCarrierCreated k = carrierTaken (popInbox k) := by
  rw [takeCarrierCreated, (nextInput_of_head hf hi).1]

/-! ### HLC's report of a removed carrier (R99) -/

theorem afterRemoval_eq (p : Plate) (attempt : Nat) (spoiled : Bool) (clock : Word) : p.afterRemoval attempt spoiled clock =
    let q := { p with carriersOut := p.carriersOut - 1 }
    if p.state = .finishing ∧ spoiled = false ∧ p.attempt = attempt ∧ p.status = .opened then
      { q with state := .done, finalTime := clock }
    else if p.state = .closing ∧ p.carriersOut ≤ 1 ∧ p.drumReject = false then
      { q with state := (if p.closing = some .cancelled then .cancelled else .failed), finalTime := clock }
    else q := by
  have last : p.carriersOut - 1 = 0 ↔ p.carriersOut ≤ 1 := by omega
  simp only [Plate.afterRemoval, isCurrent_iff, last]
  rcases p.closing with _ | _ | _ <;> rfl

theorem takeCarrierRemoved_took (hf : pscFree k = true) (hi : k.psc.inbox = .carrierRemoved (some slot) attempt spoiled :: rest) :
    k.took (takeCarrierRemoved k) rest slot (fun _ => False) (fun p => p.afterRemoval attempt spoiled k.regs.plantClock) := by
  obtain ⟨next, pop⟩ := nextInput_of_head hf hi
  rw [takeCarrierRemoved, next]
  obtain ⟨planned, iu⟩ := planned_updPlate (slot := slot) (fun p => p.afterRemoval attempt spoiled (popInbox k).regs.plantClock) pop
  exact pscTake_took hf rfl planned (pinsMoved_same iu)

theorem takeCarrierRemoved_none (hf : pscFree k = true) (hi : k.psc.inbox = .carrierRemoved none attempt spoiled :: rest) :
    takeCarrierRemoved k = popInbox k := by
  rw [takeCarrierRemoved, (nextInput_of_head hf hi).1]

end

/-! ### The statement -/

/-- The command takes the report at the head of the inbox, as the statement has it. -/
theorem moves_of_took {s : State} {c : Instr} {t : Chip} {line : HandlerLine} {rest : List PscInput} {slot : Nat} {gives : Plate → Prop}
    {f : Plate → Plate} (run : exec c s = .next (s.setChip (t.setHlc line))) (h : s.chip.took t rest slot gives f) :
    ∃ t, exec c s = .next t ∧ t.store = s.store ∧
      t.chip.regs = s.chip.regs ∧ t.chip.imc = s.chip.imc ∧ t.chip.br = s.chip.br ∧ t.chip.tl = s.chip.tl ∧
      t.chip.psc.inbox = rest ∧ t.chip.plate slot = (s.chip.plate slot).map f ∧
      (∀ n, n ≠ slot → t.chip.plate n = s.chip.plate n) ∧
      ((∀ p, s.chip.plate slot = some p → ¬gives p) → t.chip.iu = s.chip.iu) ∧
      ∀ p, s.chip.plate slot = some p → gives p → p.pinsGivenUp s.chip.iu.dir t.chip.iu.dir ∧
        ∃ ws, t.chip.sp.iu = s.chip.sp.iu ++ ws ∧ s.chip.intakeWrites t.chip none ws :=
  ⟨_, run, rfl, h.regs, h.imc, h.br, h.tl, h.inbox, h.own, h.others, h.pins.kept, h.pins.given⟩

/-- Settles O47. -/
theorem reportsMovePlates : Obligations.ReportsMovePlates := by
  intro s rest hf
  refine ⟨fun slot a prep hi => ?_, fun slot a prep exposed holds hi => ?_, fun slot a n hi => ?_, fun slot a spoiled hi => ?_,
    fun slot a spoiled c cs hi hc => ?_, fun slot a spoiled hi => ?_, fun a spoiled hi => ?_⟩
  · exact moves_of_took (t := takeExposingEntry s.chip) rfl (takeExposingEntry_took hf hi)
  · exact moves_of_took (t := takeExposureEnd s.chip) rfl (takeExposureEnd_took hf hi)
  · exact moves_of_took (t := takeRenderFinished s.chip) rfl (takeRenderFinished_took hf hi)
  · obtain ⟨line, taken⟩ := carrierTaken_frame (pscTake (applyCarrierCreated slot a spoiled) (popInbox s.chip))
    have run : exec .carrierCreated s = .next (s.setChip (takeCarrierCreated s.chip)) := rfl
    rw [takeCarrierCreated_slot hf hi, taken] at run
    exact moves_of_took run (carrierCreated_took hf (nextInput_of_head hf hi).2)
  · have run : exec .carrierCreated s = .next (s.setChip (takeCarrierCreated s.chip)) := rfl
    refine ⟨_, run, ?_⟩
    rw [State.setChip_chip]
    cases slot with
    | none =>
      rw [takeCarrierCreated_none hf hi, carrierTaken_last (k := popInbox s.chip) hc]
      have pop := (nextInput_of_head hf hi).2
      refine ⟨rfl, fun _ => ?_, fun n p f h => ?_⟩
      · subst pop
        rfl
      · cases h
    | some n =>
      have pop := (nextInput_of_head hf hi).2
      have took := carrierCreated_took (slot := n) (attempt := a) (spoiled := spoiled) hf pop
      rw [takeCarrierCreated_slot hf hi, carrierTaken_last (by rw [took.hlc]; exact hc)]
      refine ⟨by rw [Chip.setHlc_hlc, took.hlc]; rfl, fun h => ?_, fun m p f hm good hp ha ho hs hb => ?_⟩
      · cases h
      · cases hm
        obtain ⟨-, marked⟩ := carrierCreated_good hf pop hp ⟨good, ha, ho, hs⟩
        have code : (if f = .cancel then 1 else 0) = f.code := by cases f <;> rfl
        subst ha
        rw [code]
        exact marked f hb
  · have removal := takeCarrierRemoved_took hf hi
    simp only [afterRemoval_eq] at removal
    exact moves_of_took (t := takeCarrierRemoved s.chip) rfl removal
  · have pop := (nextInput_of_head hf hi).2
    show Host.Outcome.next (s.setChip (takeCarrierRemoved s.chip)) = _
    rw [takeCarrierRemoved_none hf hi, ← pop]
    rfl

end Sys2Proof.Machine
end

