-- ==== Sys2Proof/Proofs/IntakeFrames.lean ====
section
/-! SUPPORT. The operations that leave IU as it stands. -/

namespace Sys2Proof.Machine

@[simp] theorem raise_iu (c : Cause) (k : Chip) : (raise c k).iu = k.iu := rfl

/-! ### Ops -/

@[simp] theorem issue_kept (t : Transfer) (k : Chip) : (issue t k).iu = k.iu := rfl
@[simp] theorem issueAll_kept (ts : List Transfer) (k : Chip) : (issueAll ts k).iu = k.iu :=
  foldl_keeps Chip.iu _ (fun k t => issue_kept t k) ts k
@[simp] theorem pscWrite_iu (addr : Nat) (data : List Byte) (notices : List Notice) (k : Chip) :
    (pscWrite addr data notices k).iu = k.iu := rfl
@[simp] theorem takeOffer_iu (o : FaultOffer) (k : Chip) : (takeOffer o k).iu = k.iu := by
  unfold takeOffer; split <;> rfl
@[simp] theorem offerFault_iu (o : FaultOffer) (k : Chip) : (offerFault o k).iu = k.iu := by
  unfold offerFault; repeat' split
  all_goals simp
@[simp] theorem darken_iu (k : Chip) : (darken k).iu = k.iu := rfl
@[simp] theorem tellPsc_iu (i : PscInput) (k : Chip) : (tellPsc i k).iu = k.iu := rfl
@[simp] theorem Chip.setUnit_iu (k : Chip) (u : HUnit) (x : UnitState) : (Chip.setUnit k u x).iu = k.iu := rfl
@[simp] theorem queueRequest_iu (u : HUnit) (r : Request) (k : Chip) : (queueRequest u r k).iu = k.iu := rfl
@[simp] theorem drawFresh_iu (k : Chip) : (drawFresh k).iu = k.iu := rfl

/-! ### Damage -/

@[simp] theorem recordMark_iu (byPsc : Bool) (m : MarkReport) (k : Chip) : (recordMark byPsc m k).iu = k.iu := by
  unfold recordMark
  repeat' (first | simp only [Chip.setPsc_iu, Chip.setDmr_iu, issueAll_kept, apply_ite Chip.iu, ite_self] | split)
@[simp] theorem reportMark_iu (m : MarkReport) (k : Chip) : (reportMark m k).iu = k.iu := by
  unfold reportMark; simp
@[simp] theorem tellDisposition_iu (d : Disposition) (k : Chip) : (tellDisposition d k).iu = k.iu := by
  unfold tellDisposition; split <;> rfl
@[simp] theorem sendDisposition_iu (k : Chip) : (sendDisposition k).iu = k.iu := by
  unfold sendDisposition; repeat' split
  all_goals simp

/-! ### Imager -/

@[simp] theorem setTarget_iu (rpm : Nat) (k : Chip) : (setTarget rpm k).iu = k.iu := by
  unfold setTarget; split <;> rfl
@[simp] theorem goTo_iu (st : ImagerState) (k : Chip) : (goTo st k).iu = k.iu := by
  unfold goTo; split <;> simp
@[simp] theorem setExposure_iu (e : Exposure) (k : Chip) : (setExposure e k).iu = k.iu := rfl
@[simp] theorem setDrum_iu (d : Option Drum) (k : Chip) : (setDrum d k).iu = k.iu := rfl
@[simp] theorem setWaitingPlate_iu (p : Option PlateRef) (k : Chip) : (setWaitingPlate p k).iu = k.iu := rfl
@[simp] theorem recordPause_iu (r : PauseReason) (k : Chip) : (recordPause r k).iu = k.iu := by
  unfold recordPause; repeat' split
  all_goals simp
@[simp] theorem enterSettling_iu (p : PlateRef) (k : Chip) : (enterSettling p k).iu = k.iu := by
  unfold enterSettling; simp
@[simp] theorem writePair_iu (format : Nat) (k : Chip) : (writePair format k).iu = k.iu := rfl
@[simp] theorem takeUp_iu (k : Chip) : (takeUp k).iu = k.iu := by
  unfold takeUp; repeat' split
  all_goals simp
@[simp] theorem handPlate_iu (p : PlateRef) (k : Chip) : (handPlate p k).iu = k.iu := by
  unfold handPlate; simp
@[simp] theorem settleByDrum_iu (k : Chip) : (settleByDrum k).iu = k.iu := by
  unfold settleByDrum; repeat' split
  all_goals simp
@[simp] theorem afterRequest_iu (k : Chip) : (afterRequest k).iu = k.iu := by
  unfold afterRequest; split <;> simp
@[simp] theorem loadEnd_iu (r : LoadEnd) (k : Chip) : (loadEnd r k).iu = k.iu := by
  unfold loadEnd; repeat' split
  all_goals simp
@[simp] theorem hfFetchOne_iu (k : Chip) : (hfFetchOne k).iu = k.iu := by
  unfold hfFetchOne; repeat' split
  all_goals rfl
@[simp] theorem hfFetch_iu (k : Chip) : (hfFetch k).iu = k.iu := by simp [hfFetch]
@[simp] theorem startPass_iu (buffer width : Nat) (k : Chip) : (startPass buffer width k).iu = k.iu := by simp [startPass]
@[simp] theorem endPass_iu (k : Chip) : (endPass k).iu = k.iu := rfl
@[simp] theorem rowSetArrives_iu (pass j : Nat) (data : List Byte) (k : Chip) : (rowSetArrives pass j data k).iu = k.iu := by
  unfold rowSetArrives; repeat' split
  all_goals simp
@[simp] theorem freeDraining_iu (k : Chip) : (freeDraining k).iu = k.iu := rfl
@[simp] theorem imcMark_iu (p : PlateRef) (kind : MarkKind) (detail : Nat) (place : Place) (k : Chip) :
    (imcMark p kind detail place k).iu = k.iu := by simp [imcMark]
@[simp] theorem condemn_iu (cond : Condition) (confirmed : Bool) (k : Chip) : (condemn cond confirmed k).iu = k.iu := by
  unfold condemn; split <;> rfl
@[simp] theorem reportExposureEnd_iu (p : PlateRef) (exposed holds : Nat) (k : Chip) :
    (reportExposureEnd p exposed holds k).iu = k.iu := rfl
@[simp] theorem endExposure_iu (p : PlateRef) (finding : Option (MarkKind × Nat)) (k : Chip) : (endExposure p finding k).iu = k.iu := by
  cases finding <;> simp [endExposure, apply_ite Chip.iu]
@[simp] theorem exposureComplete_iu (p : PlateRef) (k : Chip) : (exposureComplete p k).iu = k.iu := by
  simp [exposureComplete, apply_ite Chip.iu]
@[simp] theorem offerSlip_iu (detail : Nat) (k : Chip) : (offerSlip detail k).iu = k.iu := by simp [offerSlip]
@[simp] theorem reverseCount_iu (k : Chip) : (reverseCount k).iu = k.iu := by
  unfold reverseCount; repeat' split
  all_goals simp
@[simp] theorem underrun_iu (k : Chip) : (underrun k).iu = k.iu := by
  unfold underrun; split <;> simp
@[simp] theorem feedDot_iu (ps : Pass) (d : Nat) (k : Chip) : (feedDot ps d k).iu = k.iu := by
  unfold feedDot; repeat' split
  all_goals simp
@[simp] theorem feedAtCount_iu (k : Chip) : (feedAtCount k).iu = k.iu := by
  unfold feedAtCount
  repeat' (first | simp only [Chip.setHf_iu, endPass_iu, feedDot_iu, apply_ite Chip.iu, ite_self] | split)
@[simp] theorem countUp_iu (k : Chip) : (countUp k).iu = k.iu := by simp [countUp]
@[simp] theorem countDown_iu (k : Chip) : (countDown k).iu = k.iu := by simp [countDown]
@[simp] theorem encoderEdge_iu (e : EncoderEdge) (k : Chip) : (encoderEdge e k).iu = k.iu := by
  unfold encoderEdge; repeat' split
  all_goals simp
@[simp] theorem captureIndex_iu (k : Chip) (elapsed : Nat) : (captureIndex k elapsed).iu = k.iu := rfl
@[simp] theorem enterExposing_iu (p : PlateRef) (k : Chip) : (enterExposing p k).iu = k.iu := by simp [enterExposing]
@[simp] theorem settleIndex_iu (p : PlateRef) (rating : Option Rating) (k : Chip) : (settleIndex p rating k).iu = k.iu := by
  unfold settleIndex; repeat' split
  all_goals simp
@[simp] theorem countHold_iu (p : PlateRef) (outOfWindow : Bool) (k : Chip) : (countHold p outOfWindow k).iu = k.iu := by
  unfold countHold; repeat' split
  all_goals simp
@[simp] theorem swathStart_iu (p : PlateRef) (rating : Option Rating) (k : Chip) : (swathStart p rating k).iu = k.iu := by
  unfold swathStart
  repeat' (first | simp only [Chip.setBr_iu, setExposure_iu, startPass_iu, countHold_iu, apply_ite Chip.iu] | split)
@[simp] theorem swathComplete_iu (k : Chip) : (swathComplete k).iu = k.iu := rfl
@[simp] theorem passStep_iu (p : PlateRef) (rating : Option Rating) (k : Chip) : (passStep p rating k).iu = k.iu := by
  unfold passStep; repeat' split
  all_goals simp [apply_ite Chip.iu]
@[simp] theorem exposeIndex_iu (p : PlateRef) (rating : Option Rating) (k : Chip) : (exposeIndex p rating k).iu = k.iu := by
  simp [exposeIndex, apply_ite Chip.iu]
@[simp] theorem imagerIndex_iu (rating : Option Rating) (k : Chip) : (imagerIndex rating k).iu = k.iu := by
  unfold imagerIndex
  repeat' (first | simp only [settleIndex_iu, exposeIndex_iu, apply_ite Chip.iu] | split)
@[simp] theorem indexPulse_iu (elapsed : Nat) (k : Chip) : (indexPulse elapsed k).iu = k.iu := by
  unfold indexPulse; split <;> simp
@[simp] theorem channelFault_iu (ch : BitVec 6) (k : Chip) : (channelFault ch k).iu = k.iu := by
  unfold channelFault; repeat' split
  all_goals simp
@[simp] theorem headClear_iu (k : Chip) : (headClear k).iu = k.iu := by
  unfold headClear; split <;> rfl
@[simp] theorem interlockFall_iu (k : Chip) : (interlockFall k).iu = k.iu := by
  unfold interlockFall; repeat' split
  all_goals simp
@[simp] theorem releaseBlank_iu (d : Drum) (k : Chip) : (releaseBlank d k).iu = k.iu := by simp [releaseBlank]
@[simp] theorem withdrawDrumPlate_iu (d : Drum) (p : PlateRef) (k : Chip) : (withdrawDrumPlate d p k).iu = k.iu := by
  unfold withdrawDrumPlate; repeat' split
  all_goals simp
@[simp] theorem imcWithdraw_iu (slot attempt : Nat) (k : Chip) : (imcWithdraw slot attempt k).iu = k.iu := by
  unfold imcWithdraw
  repeat' (first | simp only [Chip.setImc_iu, setWaitingPlate_iu, withdrawDrumPlate_iu, apply_ite Chip.iu, ite_self] | split)
@[simp] theorem imcBreak_iu (slot attempt : Nat) (k : Chip) : (imcBreak slot attempt k).iu = k.iu := by
  unfold imcBreak; repeat' split
  all_goals simp
@[simp] theorem imcSpoilWord_iu (slot attempt : Nat) (k : Chip) : (imcSpoilWord slot attempt k).iu = k.iu := by
  unfold imcSpoilWord; repeat' split
  all_goals simp
@[simp] theorem clearHolds_iu (k : Chip) : (clearHolds k).iu = k.iu := rfl
@[simp] theorem issueUnload_iu (k : Chip) : (issueUnload k).iu = k.iu := by
  unfold issueUnload; repeat' split
  all_goals simp
@[simp] theorem reportDeferred_iu (place : Place) (k : Chip) : (reportDeferred place k).iu = k.iu := by
  unfold reportDeferred; repeat' split
  all_goals simp
@[simp] theorem unloadFailed_iu (k : Chip) : (unloadFailed k).iu = k.iu := by
  simp [unloadFailed, apply_ite Chip.iu]
@[simp] theorem takeUnloadEnd_iu (k : Chip) : (takeUnloadEnd k).iu = k.iu := by
  unfold takeUnloadEnd; split <;> simp
@[simp] theorem releaseUnits_iu (k : Chip) : (releaseUnits k).iu = k.iu := rfl
@[simp] theorem applyResume_iu (k : Chip) : (applyResume k).iu = k.iu := by
  unfold applyResume; repeat' split
  all_goals simp

/-! ### Renderer -/

@[simp] theorem discard_iu (slot attempt : Nat) (k : Chip) : (discard slot attempt k).iu = k.iu := rfl
@[simp] theorem joinRender_iu (e : RenderEntry) (k : Chip) : (joinRender e k).iu = k.iu := rfl
@[simp] theorem restart_iu (e : RenderEntry) (k : Chip) : (restart e k).iu = k.iu := rfl
@[simp] theorem updateEntry_iu (slot attempt : Nat) (g : RenderEntry → RenderEntry) (k : Chip) :
    (updateEntry slot attempt g k).iu = k.iu := rfl
@[simp] theorem setFill_iu (f : Fill) (k : Chip) : (setFill f k).iu = k.iu := rfl
@[simp] theorem findingMark_iu (f : Fill) (key : PageKey) (patch : Option Nat) (k : Chip) : (findingMark f key patch k).iu = k.iu := by
  unfold findingMark; repeat' split
  all_goals simp
@[simp] theorem nextRowSet_iu (f : Fill) (k : Chip) : (nextRowSet f k).iu = k.iu := by
  unfold nextRowSet; repeat' split
  all_goals rfl
@[simp] theorem nextRead_iu (f : Fill) (a : Nat × Nat) (rest : List (Nat × Nat)) (k : Chip) : (nextRead f a rest k).iu = k.iu := rfl
@[simp] theorem beginFill_iu (m : Memory) (e : RenderEntry) (k : Chip) : (beginFill m e k).iu = k.iu := by
  unfold beginFill
  repeat' (first | simp only [Chip.setBr_iu, updateEntry_iu, nextRowSet_iu, nextRead_iu] | split)
@[simp] theorem fillBegin_iu (m : Memory) (k : Chip) : (fillBegin m k).iu = k.iu := by
  unfold fillBegin; repeat' split
  all_goals simp
@[simp] theorem fillEnd_iu (k : Chip) : (fillEnd k).iu = k.iu := by
  unfold fillEnd; repeat' split
  all_goals rfl
@[simp] theorem fillRefused_iu (id slot attempt swath streamNo : Nat) (k : Chip) :
    (fillRefused id slot attempt swath streamNo k).iu = k.iu := by
  unfold fillRefused; repeat' split
  all_goals simp
@[simp] theorem reachPoint_iu (k : Chip) : (reachPoint k).iu = k.iu := by
  unfold reachPoint; repeat' split
  all_goals rfl
@[simp] theorem pointFailed_iu (e : RenderEntry) (t : TableId) (k : Chip) : (pointFailed e t k).iu = k.iu := by simp [pointFailed]
@[simp] theorem pointEnd_iu (m : Memory) (k : Chip) : (pointEnd m k).iu = k.iu := by
  unfold pointEnd
  repeat' (first | simp only [Chip.setTl_iu, Chip.setBr_iu, beginFill_iu, pointFailed_iu, apply_ite Chip.iu, ite_self] | split)

/-! ### Loader -/

@[simp] theorem takeTable_iu (id : TableId) (k : Chip) : (takeTable id k).iu = k.iu := by
  unfold takeTable; split <;> rfl
@[simp] theorem setReload_iu (r : Option Reload) (k : Chip) : (setReload r k).iu = k.iu := rfl
@[simp] theorem reloadRead_iu (r : Reload) (a : Nat × Nat) (rest : List (Nat × Nat)) (k : Chip) :
    (reloadRead r a rest k).iu = k.iu := rfl
@[simp] theorem reloadNext_iu (r : Reload) (k : Chip) : (reloadNext r k).iu = k.iu := by
  unfold reloadNext; split <;> rfl
@[simp] theorem beginReload_iu (id : TableId) (due : Bool) (k : Chip) : (beginReload id due k).iu = k.iu := by simp [beginReload]
@[simp] theorem reloadArrives_iu (data : List Byte) (k : Chip) : (reloadArrives data k).iu = k.iu := by
  unfold reloadArrives
  repeat' (first | simp only [setReload_iu, reloadNext_iu, apply_ite Chip.iu, ite_self] | split)
@[simp] theorem reloadRefused_iu (k : Chip) : (reloadRefused k).iu = k.iu := by
  unfold reloadRefused; split <;> rfl
@[simp] theorem reloadBegin_iu (k : Chip) : (reloadBegin k).iu = k.iu := by
  unfold reloadBegin; repeat' split
  all_goals simp
@[simp] theorem retakeValues_iu (p : PlateRef) (k : Chip) : (retakeValues p k).iu = k.iu := by
  simp [retakeValues, apply_ite Chip.iu]
@[simp] theorem profileLost_iu (id : TableId) (k : Chip) : (profileLost id k).iu = k.iu := by
  unfold profileLost; repeat' split
  all_goals simp
@[simp] theorem drumRetakes_iu (id : TableId) (k : Chip) : (drumRetakes id k).iu = k.iu := by
  unfold drumRetakes; repeat' split
  all_goals simp
@[simp] theorem profileReloaded_iu (id : TableId) (k : Chip) : (profileReloaded id k).iu = k.iu := by simp [profileReloaded]
@[simp] theorem queueClear_iu (u : HUnit) (k : Chip) : (queueClear u k).iu = k.iu := rfl
@[simp] theorem beginClears_iu (k : Chip) : (beginClears k).iu = k.iu := rfl
@[simp] theorem reloadEnd_iu (k : Chip) : (reloadEnd k).iu = k.iu := by
  unfold reloadEnd
  repeat' (first | simp only [Chip.setTl_iu, profileReloaded_iu, beginClears_iu, apply_ite Chip.iu, ite_self] | split)

/-! ### Handler -/

@[simp] theorem exchangeStart_iu (k : Chip) : (exchangeStart k).iu = k.iu := by
  unfold exchangeStart; repeat' split
  all_goals rfl
@[simp] theorem holdUnit_iu (u : HUnit) (cause : HoldCause) (detail : Nat) (k : Chip) : (holdUnit u cause detail k).iu = k.iu := by
  unfold holdUnit; split <;> simp
@[simp] theorem putBack_iu (u : HUnit) (r : Request) (k : Chip) : (putBack u r k).iu = k.iu := rfl
@[simp] theorem setCarrier_iu (n : Nat) (c : Carrier) (k : Chip) : (setCarrier n c k).iu = k.iu := rfl
@[simp] theorem removeCarrier_iu (n : Nat) (c : Carrier) (k : Chip) : (removeCarrier n c k).iu = k.iu := rfl
@[simp] theorem stageEnd_iu (st : Stage) (k : Chip) : (stageEnd st k).iu = k.iu := by
  unfold stageEnd; repeat' split
  all_goals rfl
@[simp] theorem spoilAtStage_iu (st : Stage) (kind : MarkKind) (detail : Nat) (k : Chip) :
    (spoilAtStage st kind detail k).iu = k.iu := by
  unfold spoilAtStage; repeat' split
  all_goals simp
@[simp] theorem spoilCarriers_iu (slot attempt : Nat) (k : Chip) : (spoilCarriers slot attempt k).iu = k.iu := by
  unfold spoilCarriers; split <;> rfl
@[simp] theorem unloadDone_iu (k : Chip) : (unloadDone k).iu = k.iu := by
  unfold unloadDone; split <;> rfl
@[simp] theorem carrierTaken_iu (k : Chip) : (carrierTaken k).iu = k.iu := by
  unfold carrierTaken; split <;> rfl
@[simp] theorem punchEnds_iu (r : Request) (e : RequestEnd) (k : Chip) : (punchEnds r e k).iu = k.iu := by
  unfold punchEnds; split <;> simp
@[simp] theorem processorEnds_iu (r : Request) (e : RequestEnd) (k : Chip) : (processorEnds r e k).iu = k.iu := by
  unfold processorEnds; split <;> simp
@[simp] theorem sorterEnds_iu (r : Request) (e : RequestEnd) (k : Chip) : (sorterEnds r e k).iu = k.iu := by
  unfold sorterEnds; split <;> simp
@[simp] theorem freeLine_iu (k : Chip) : (freeLine k).iu = k.iu := rfl
@[simp] theorem restartPoll_iu (u : HUnit) (k : Chip) : (restartPoll u k).iu = k.iu := by
  unfold restartPoll; split <;> rfl
@[simp] theorem holdOffline_iu (u : HUnit) (k : Chip) : (holdOffline u k).iu = k.iu := by simp [holdOffline]
@[simp] theorem busyRetryExpires_iu (u : HUnit) (k : Chip) : (busyRetryExpires u k).iu = k.iu := by
  unfold busyRetryExpires; repeat' split
  all_goals rfl
@[simp] theorem pollTimerExpires_iu (u : HUnit) (k : Chip) : (pollTimerExpires u k).iu = k.iu := by
  unfold pollTimerExpires
  repeat' (first | simp only [Chip.setUnit_iu, apply_ite Chip.iu] | split)
@[simp] theorem timeoutMark_iu (u : HUnit) (r : Request) (k : Chip) : (timeoutMark u r k).iu = k.iu := by
  unfold timeoutMark; split <;> simp

/-! ### Scheduler -/

@[simp] theorem setPlate_iu (slot : Nat) (p : Plate) (k : Chip) : (setPlate slot p k).iu = k.iu := rfl
@[simp] theorem updPlate_iu (slot : Nat) (g : Plate → Plate) (k : Chip) : (updPlate slot g k).iu = k.iu := by
  unfold updPlate; split <;> rfl
@[simp] theorem leaveReady_iu (slot : Nat) (k : Chip) : (leaveReady slot k).iu = k.iu := rfl
@[simp] theorem pscMark_iu (m : MarkReport) (k : Chip) : (pscMark m k).iu = k.iu := by simp [pscMark]
@[simp] theorem checkLate_iu (slot : Nat) (clock : Word) (k : Chip) : (checkLate slot clock k).iu = k.iu := by
  unfold checkLate; repeat' split
  all_goals simp
@[simp] theorem checkOverdue_iu (slot : Nat) (clock : Word) (k : Chip) : (checkOverdue slot clock k).iu = k.iu := by
  unfold checkOverdue; repeat' split
  all_goals simp
@[simp] theorem setAllReady_iu (b : Bool) (k : Chip) : (setAllReady b k).iu = k.iu := rfl
@[simp] theorem lookAt_iu (slot n : Nat) (k : Chip) : (lookAt slot n k).iu = k.iu := by
  unfold lookAt; repeat' split
  all_goals simp
@[simp] theorem enterReady_iu (slot : Nat) (k : Chip) : (enterReady slot k).iu = k.iu := by simp [enterReady]
@[simp] theorem enterWaiting_iu (slot : Nat) (k : Chip) : (enterWaiting slot k).iu = k.iu := by simp [enterWaiting]
@[simp] theorem settleReadiness_iu (slot : Nat) (returned : Bool) (k : Chip) : (settleReadiness slot returned k).iu = k.iu := by
  unfold settleReadiness; repeat' split
  all_goals simp
@[simp] theorem closePlate_iu (slot : Nat) (o : Outcome) (k : Chip) : (closePlate slot o k).iu = k.iu := by simp [closePlate]
@[simp] theorem writeNews_iu (slot : Nat) (notices : List Notice) (k : Chip) : (writeNews slot notices k).iu = k.iu := rfl
@[simp] theorem writeHold_iu (slot : Nat) (k : Chip) : (writeHold slot k).iu = k.iu := rfl
@[simp] theorem setNews_iu (slot : Nat) (k : Chip) : (setNews slot k).iu = k.iu := by
  unfold setNews; split <;> rfl
@[simp] theorem clearNews_iu (slot : Nat) (k : Chip) : (clearNews slot k).iu = k.iu := by
  unfold clearNews; split <;> rfl
@[simp] theorem fieldWrites_iu (slot : Nat) (old new : Plate) (k : Chip) : (fieldWrites slot old new k).iu = k.iu := by
  have h : ∀ l : List ((Nat × List Byte) × (Nat × List Byte)),
      (l.foldl (fun k e => pscWrite (k.slotAddr slot + e.2.1) e.2.2 [] k) k).iu = k.iu :=
    fun l => foldl_keeps Chip.iu _ (fun _ _ => pscWrite_iu ..) l k
  unfold fieldWrites
  split
  · exact h _
  · exact h _
@[simp] theorem publishSlot_iu (slot : Nat) (old : Plate) (k : Chip) : (publishSlot slot old k).iu = k.iu := by
  unfold publishSlot; repeat' split
  all_goals simp
@[simp] theorem setNewsDue_iu (l : List Nat) (k : Chip) : (setNewsDue l k).iu = k.iu := rfl
@[simp] theorem writeResult_iu (slot : Nat) (k : Chip) : (writeResult slot k).iu = k.iu := by
  unfold writeResult; split <;> simp
@[simp] theorem startBreak_iu (slot : Nat) (f : BreakFlag) (k : Chip) : (startBreak slot f k).iu = k.iu := by
  unfold startBreak; repeat' split
  all_goals simp
theorem whileLive_iu (slot : Nat) (f : Chip → Chip) (k : Chip) (h : (f k).iu = k.iu) : (whileLive slot f k).iu = k.iu := by
  unfold whileLive
  repeat' split
  all_goals first | exact h | rfl
@[simp] theorem setWork_iu (l : List PscStep) (k : Chip) : (setWork l k).iu = k.iu := rfl
@[simp] theorem setDue_iu (l : List PscEvent) (k : Chip) : (setDue l k).iu = k.iu := rfl
@[simp] theorem popInbox_iu (k : Chip) : (popInbox k).iu = k.iu := rfl
@[simp] theorem planClock_iu (v : Word) (k : Chip) : (planClock v k).1.iu = k.iu := rfl
@[simp] theorem takeOrder_iu (slot : Nat) (k : Chip) : (takeOrder slot k).iu = k.iu := by
  unfold takeOrder; split <;> rfl
@[simp] theorem planOrder_iu (slot : Nat) (b : List Byte) (k : Chip) : (planOrder slot b k).1.iu = k.iu := by
  dsimp only [planOrder]; repeat' split
  all_goals rfl
@[simp] theorem forgetSlot_iu (slot : Nat) (k : Chip) : (forgetSlot slot k).iu = k.iu := rfl
@[simp] theorem releaseSlot_iu (slot : Nat) (k : Chip) : (releaseSlot slot k).iu = k.iu := by
  unfold releaseSlot; simp
@[simp] theorem takeRelease_iu (slot : Nat) (k : Chip) : (takeRelease slot k).iu = k.iu := by
  unfold takeRelease; repeat' split
  all_goals simp
@[simp] theorem takeSeen_iu (slot : Nat) (k : Chip) : (takeSeen slot k).iu = k.iu := by
  unfold takeSeen; simp
@[simp] theorem enterPreparing_iu (slot : Nat) (p : Plate) (snap : List PosSnap) (k : Chip) :
    (enterPreparing slot p snap k).iu = k.iu := by
  unfold enterPreparing; simp
@[simp] theorem applyExposingEntry_iu (slot attempt prep : Nat) (k : Chip) :
    (applyExposingEntry slot attempt prep k).iu = k.iu := by simp [applyExposingEntry]
@[simp] theorem applyExposureEnd_iu (slot prep exposed holds : Nat) (k : Chip) :
    (applyExposureEnd slot prep exposed holds k).iu = k.iu := by simp [applyExposureEnd]
@[simp] theorem applyCarrierRemoved_iu (slot attempt : Nat) (spoiled : Bool) (k : Chip) :
    (applyCarrierRemoved slot attempt spoiled k).iu = k.iu := by simp [applyCarrierRemoved]
@[simp] theorem spoilOutcome_iu (slot : Nat) (k : Chip) : (spoilOutcome slot k).1.iu = k.iu := by
  unfold spoilOutcome; repeat' split
  all_goals simp
@[simp] theorem checkStopped_iu (k : Chip) : (checkStopped k).iu = k.iu := by
  unfold checkStopped; split <;> rfl
@[simp] theorem publish_iu (old : List (Nat × Plate)) (k : Chip) : (publish old k).iu = k.iu := by
  unfold publish
  rw [checkStopped_iu, setNewsDue_iu]
  exact foldl_keeps Chip.iu _ (fun _ _ => publishSlot_iu ..) old k
@[simp] theorem doStep_iu (t : PscStep) (k : Chip) : (doStep t k).iu = k.iu := by
  cases t <;> simp only [doStep, pscMark_iu, lookAt_iu, checkLate_iu, checkOverdue_iu, startBreak_iu, writeResult_iu, publish_iu,
    checkStopped_iu]
  all_goals exact whileLive_iu _ _ _ (by simp)
@[simp] theorem runSteps_iu (l : List PscStep) (k : Chip) : (runSteps l k).iu = k.iu := by
  induction l generalizing k with
  | nil => rfl
  | cons t ts ih => unfold runSteps; split <;> simp only [setWork_iu, ih, doStep_iu]
@[simp] theorem newsOf_iu (slot : Nat) (k : Chip) : (newsOf slot k).iu = k.iu := rfl

end Sys2Proof.Machine
end

