-- ==== Sys2Proof/Proofs/UseCounts.lean ====
section
/-! SUPPORT. The use counts that IU holds are those of its directory (O42): an event replaces the directory and the counts together, and
nothing else touches either. -/

namespace Sys2Proof.Machine

/-- The use counts held are those of the directory. -/
def IntakeUnit.counted (u : IntakeUnit) : Prop := u.useCounts = useCountsOf u.dir

theorem redirected_counted {u v : IntakeUnit} (h : u.redirected v) (hu : u.counted) : v.counted := by
  rcases h with rfl | ⟨_, rfl⟩
  · exact hu
  · rfl

/-! ### The operations of IU -/

theorem finishEvent_counted {e : IuEvent} (parsed : Option Nat) (dirfull settle : Bool) (k : Chip) (h : e.u.counted) :
    (finishEvent e parsed dirfull settle k).iu.counted := by
  obtain ⟨ws, -, hk⟩ := finishEvent_spec e parsed dirfull settle k
  rw [hk]
  exact h

section
variable {k : Chip}

theorem takeFragment_counted (cell : Nat) (h : k.iu.counted) : (takeFragment cell k).iu.counted := by
  unfold takeFragment
  split
  · exact h
  · dsimp only
    rw [issueAll_kept]
    exact h

theorem parseBegin_counted (h : k.iu.counted) : (parseBegin k).iu.counted := by
  unfold parseBegin
  repeat' split
  all_goals exact h

theorem parseArrives_counted (data : List Byte) (h : k.iu.counted) : (parseArrives data k).iu.counted := by
  unfold parseArrives
  dsimp only
  repeat' split
  all_goals exact h

theorem found_counted {hd : FragHeader} {u : IntakeUnit} {e : IuEvent} {i : Nat} (hf : found hd u = some (e, i)) (h : u.counted) :
    e.u.counted := by
  have hc := redirected_counted (redirected_foldl displace_redirected (recordsOf u.dir hd.key PageRecord.unfinished) (IuEvent.start u)) h
  unfold found at hf
  dsimp only at hf
  split at hf
  · cases hf
  · cases hf
    exact hc

theorem parseEnd_counted (h : k.iu.counted) : (parseEnd k).iu.counted := by
  have hs : (IuEvent.start { k.iu with parse := none }).u.counted := h
  unfold parseEnd
  split
  · exact h
  split
  · exact h
  split
  · dsimp only
    split
    case h_1 => exact finishEvent_counted _ _ _ _ (redirected_counted (noteIf_redirected _ _ _) hs)
    case h_2 => exact finishEvent_counted _ _ _ _ hs
    case h_3 => exact finishEvent_counted _ _ _ _ (redirected_counted (noteIf_redirected _ _ _) hs)
    case h_4 => exact finishEvent_counted _ _ _ _ (redirected_counted (note_redirected _ _ _) hs)
    case h_5 => exact finishEvent_counted _ _ _ _ hs
    case h_6 => exact finishEvent_counted _ _ _ _ (redirected_counted (noteIf_redirected _ _ _) hs)
    case h_7 =>
      split
      · exact finishEvent_counted _ _ _ _ (redirected_counted (noteIf_redirected _ _ _) hs)
      · exact finishEvent_counted _ _ _ _ (redirected_counted (applyTo_redirected _ _ _ _) hs)
    case h_8 =>
      split
      · exact finishEvent_counted _ _ _ _ hs
      · next e i hf =>
        exact finishEvent_counted _ _ _ _ (redirected_counted (applyFounding_redirected e i _ _ _) (found_counted hf h))
    all_goals exact finishEvent_counted _ _ _ _ hs
  · exact h

theorem parseFenced_counted (h : k.iu.counted) : (parseFenced k).iu.counted := by
  have hs : (IuEvent.start { k.iu with parse := none }).u.counted := h
  unfold parseFenced
  split
  · exact h
  · refine finishEvent_counted _ _ _ _ ?_
    split
    · exact redirected_counted (noteIf_redirected _ _ _) hs
    · exact hs

theorem dropApply_counted (h : k.iu.counted) : (dropApply k).iu.counted := by
  unfold dropApply
  split
  · split
    · exact finishEvent_counted _ _ _ _ (redirected_counted (redirected_foldl dropOne_redirected _ _) h)
    · exact h
    · exact h
  · exact h

theorem snapshotRequest_counted (sep : Nat) (ps : List Position) (h : k.iu.counted) : (snapshotRequest sep ps k).2.iu.counted := by
  unfold snapshotRequest
  split
  · exact finishEvent_counted _ _ _ _ (redirected_counted (redirected_foldl pin_redirected _ _) h)
  · exact finishEvent_counted _ _ _ _ (redirected_counted (flagBase_redirected _ _) h)
  · exact h

theorem unpinRequest_counted (snap : List PosSnap) (h : k.iu.counted) : (unpinRequest snap k).iu.counted :=
  finishEvent_counted _ _ _ _ (redirected_counted (redirected_foldl unpin_redirected _ _) h)

theorem damageReport_counted (idx : Nat) (patch : Bool) (x n cell off : Nat) (h : k.iu.counted) :
    (damageReport idx patch x n cell off k).iu.counted := by
  unfold damageReport
  split
  · exact h
  · split
    · exact h
    · exact finishEvent_counted _ _ _ _ (redirected_counted (putMarked_redirected _ _ _) h)

/-! ### BR: the damage reports of a fill -/

theorem decodeFinding_counted (f : Fill) (it : FillItem) (sep : Nat) (h : k.iu.counted) : (decodeFinding f it sep k).iu.counted := by
  cases it <;> (simp only [decodeFinding, findingMark_iu]; exact damageReport_counted _ _ _ _ _ _ h)

end

theorem runItems_counted (sep : Nat) (its : List FillItem) (f : Fill) {k : Chip} (h : k.iu.counted) :
    (runItems sep its f k).iu.counted := by
  induction its generalizing f k with
  | nil => rwa [runItems, nextRowSet_iu]
  | cons it rest ih =>
    unfold runItems
    split
    · rwa [nextRead_iu]
    · dsimp only
      refine ih _ ?_
      split
      · exact h
      · exact decodeFinding_counted _ it sep h

section
variable {k : Chip}

theorem startItems_counted (f : Fill) (h : k.iu.counted) : (startItems f k).iu.counted := by
  unfold startItems
  split
  · exact h
  · exact runItems_counted _ _ _ h

theorem entriesRead_counted (f : Fill) (h : k.iu.counted) : (entriesRead f k).iu.counted := by
  refine startItems_counted f ?_
  rwa [foldl_keeps Chip.iu _ (fun _ _ => findingMark_iu ..) f.plan.missing k]

theorem fillArrives_counted (id : Nat) (w : Bool) (data : List Byte) (h : k.iu.counted) : (fillArrives id w data k).iu.counted := by
  unfold fillArrives
  repeat' split
  all_goals first
    | exact h
    | exact entriesRead_counted _ h
    | exact runItems_counted _ _ _ h
    | simpa using h

/-! ### PSC: pins taken and given up -/

theorem giveUpPins_counted (slot : Nat) (h : k.iu.counted) : (giveUpPins slot k).iu.counted := by
  unfold giveUpPins
  repeat' split
  · exact h
  · exact unpinRequest_counted _ h
  · exact h

theorem withdraw_counted (slot attempt : Nat) (h : k.iu.counted) : (withdraw slot attempt k).iu.counted := by
  unfold withdraw
  rw [imcWithdraw_iu]
  exact giveUpPins_counted slot (by rwa [discard_iu])

theorem reSnapshotPinned_counted (slot : Nat) (p : Plate) (snap : List PosSnap) (h : k.iu.counted) :
    (reSnapshotPinned slot p snap k).iu.counted := by
  have hu : (if p.pinsHeld then unpinRequest p.snapshot k else k).iu.counted := by
    split
    · exact unpinRequest_counted _ h
    · exact h
  unfold reSnapshotPinned
  dsimp only
  split
  · rwa [clearHolds_iu, restart_iu, setPlate_iu]
  · rwa [restart_iu, setPlate_iu]

theorem reSnapshot_counted (slot : Nat) (p : Plate) (key : PageKey) (version : Nat) (h : k.iu.counted) :
    (reSnapshot slot p key version k).1.iu.counted := by
  have hs := snapshotRequest_counted p.order.sep p.order.positions h
  unfold reSnapshot
  dsimp only
  split
  · exact reSnapshotPinned_counted _ _ _ hs
  · exact hs
  · exact withdraw_counted _ _ hs
  · exact withdraw_counted _ _ hs

theorem remakePlate_counted (slot : Nat) (p : Plate) (key : PageKey) (version : Nat) (h : k.iu.counted) :
    (remakePlate slot p key version k).1.iu.counted := by
  unfold remakePlate
  dsimp only
  repeat' split
  all_goals first | exact h | exact reSnapshot_counted _ _ _ _ h

/-- A plan that goes through a list keeps the counts when each of its parts does. -/
theorem foldl_counted {α : Type} {f : Plan → α → Plan} (hf : ∀ a x, a.1.iu.counted → (f a x).1.iu.counted) (l : List α) {a : Plan}
    (h : a.1.iu.counted) : (l.foldl f a).1.iu.counted := by
  induction l generalizing a with
  | nil => exact h
  | cons x l ih => exact ih (hf a x h)

theorem planPageReport_counted (r : PageReport) (h : k.iu.counted) : (planPageReport r k).1.iu.counted := by
  refine foldl_counted (fun a e ha => ?_) k.psc.plates h
  split
  · exact remakePlate_counted _ _ _ _ ha
  · exact ha

theorem planStopping_counted (h : k.iu.counted) : (planStopping k).1.iu.counted := by
  refine foldl_counted (fun a e ha => ?_) _ h
  split
  · exact withdraw_counted _ _ ha
  · exact ha

theorem breakWithdraw_counted (slot : Nat) (p : Plate) (f : BreakFlag) (h : k.iu.counted) :
    (breakWithdraw slot p f k).1.iu.counted := by
  have hw := withdraw_counted slot p.attempt h
  cases f <;> simpa [breakWithdraw] using hw

theorem breakPlateOf_counted (slot : Nat) (p : Plate) (f : BreakFlag) (h : k.iu.counted) : (breakPlateOf slot p f k).1.iu.counted := by
  unfold breakPlateOf
  repeat' split
  all_goals first
    | exact h
    | exact breakWithdraw_counted _ _ _ h
    | rwa [closePlate_iu]
    | rwa [startBreak_iu]

theorem selectPlate_counted (slot : Nat) (p : Plate) (h : k.iu.counted) : (selectPlate slot p k).1.iu.counted := by
  have hs := snapshotRequest_counted p.order.sep p.order.positions h
  unfold selectPlate
  dsimp only
  repeat' split
  all_goals first | exact h | exact hs | rwa [enterPreparing_iu]

theorem applyRenderFinished_counted (slot attempt snapNo : Nat) (h : k.iu.counted) :
    (applyRenderFinished slot attempt snapNo k).iu.counted := by
  unfold applyRenderFinished
  repeat' split
  all_goals first | exact h | exact giveUpPins_counted slot h

theorem enterFinishing_counted (slot : Nat) (h : k.iu.counted) : (enterFinishing slot k).1.iu.counted := by
  unfold enterFinishing
  split
  · exact h
  · exact giveUpPins_counted slot h

theorem applyCarrierCreated_counted (slot attempt : Nat) (spoiled : Bool) (h : k.iu.counted) :
    (applyCarrierCreated slot attempt spoiled k).1.iu.counted := by
  unfold applyCarrierCreated
  split
  · exact h
  · dsimp only
    split
    · exact enterFinishing_counted slot h
    · exact h

/-- The word to IMC, the pins given up and the render discarded (R165). -/
theorem spoilWord_counted (slot attempt : Nat) (h : k.iu.counted) :
    (discard slot attempt (giveUpPins slot (imcSpoilWord slot attempt k))).iu.counted := by
  rw [discard_iu]
  exact giveUpPins_counted slot (by rwa [imcSpoilWord_iu])

theorem applySpoil_counted (slot : Nat) (p : Plate) (charged : Bool) (pl : Place) (h : k.iu.counted) :
    (applySpoil slot p charged pl k).1.iu.counted := by
  unfold applySpoil
  dsimp only
  rw [spoilOutcome_iu]
  split
  · rw [spoilCarriers_iu]; exact spoilWord_counted _ _ (by rwa [setPlate_iu])
  · exact spoilWord_counted _ _ (by rwa [setPlate_iu])

theorem applyHold_counted (slot : Nat) (p : Plate) (h : k.iu.counted) : (applyHold slot p k).1.iu.counted := by
  unfold applyHold
  repeat' split
  all_goals first | exact h | exact withdraw_counted _ _ h | exact applySpoil_counted _ _ _ _ h

theorem applyFail_counted (slot : Nat) (p : Plate) (h : k.iu.counted) : (applyFail slot p k).iu.counted := by
  unfold applyFail
  dsimp only
  rw [closePlate_iu]
  repeat' split
  all_goals first
    | exact h
    | exact withdraw_counted _ _ h
    | rwa [spoilCarriers_iu]
    | exact spoilWord_counted _ _ (by rwa [setPlate_iu])

theorem planDisposition_counted (d : Disposition) (h : k.iu.counted) : (planDisposition d k).1.iu.counted := by
  have hn : (newsOf d.slot k).iu.counted := by rwa [newsOf_iu]
  unfold planDisposition applyDisposition
  repeat' split
  all_goals first
    | exact hn
    | exact applyHold_counted _ _ hn
    | exact applySpoil_counted _ _ _ _ hn
    | exact applyFail_counted _ _ hn

theorem planEvent_counted (e : PscEvent) (h : k.iu.counted) : (planEvent e k).1.iu.counted := by
  cases e
  · exact h
  · exact planStopping_counted h

theorem beginInput_counted (plan : Chip → Plan) (h : (plan k).1.iu.counted) : (beginInput plan k).iu.counted := by
  unfold beginInput
  dsimp only
  rwa [runSteps_iu]

end

theorem runDue_counted (l : List PscEvent) {k : Chip} (h : k.iu.counted) : (runDue l k).iu.counted := by
  induction l generalizing k with
  | nil => exact h
  | cons e es ih =>
    unfold runDue
    split
    · exact h
    · exact ih (beginInput_counted _ (planEvent_counted e h))

section
variable {k : Chip}

theorem pscGo_counted (h : k.iu.counted) : (pscGo k).iu.counted := runDue_counted _ (by rwa [runSteps_iu])

theorem pscTake_counted (plan : Chip → Plan) (h : (plan k).1.iu.counted) : (pscTake plan k).iu.counted :=
  pscGo_counted (beginInput_counted plan h)

theorem pscHear_counted (e : PscEvent) (h : k.iu.counted) : (pscHear e k).iu.counted := pscGo_counted (by rwa [setDue_iu])

theorem takeAnswer_counted (d : Disposition) (h : k.iu.counted) : (takeAnswer d k).iu.counted :=
  pscGo_counted (by rw [setWork_iu]; exact planDisposition_counted d h)

theorem orderArrives_counted (slot : Nat) (b : List Byte) (h : k.iu.counted) : (orderArrives slot b k).iu.counted := by
  unfold orderArrives
  split
  · exact pscGo_counted (by rw [runSteps_iu, planOrder_iu]; exact h)
  · exact h

theorem popInbox_counted (h : k.iu.counted) : (popInbox k).iu.counted := by rwa [popInbox_iu]

theorem takePageReport_counted (h : k.iu.counted) : (takePageReport k).iu.counted := by
  unfold takePageReport
  split
  · exact pscTake_counted _ (planPageReport_counted _ (popInbox_counted h))
  · exact h

theorem selection_counted (h : k.iu.counted) : (selection k).iu.counted := by
  unfold selection
  repeat' split
  all_goals first | exact h | exact pscTake_counted _ (selectPlate_counted _ _ (k := k.setPsc _) h)

theorem takeExposingEntry_counted (h : k.iu.counted) : (takeExposingEntry k).iu.counted := by
  unfold takeExposingEntry
  split
  · exact pscTake_counted _ (by rwa [applyExposingEntry_iu])
  · exact h

theorem takeExposureEnd_counted (h : k.iu.counted) : (takeExposureEnd k).iu.counted := by
  unfold takeExposureEnd
  split
  · refine pscTake_counted _ ?_
    dsimp only
    rw [applyExposureEnd_iu]
    split
    · rwa [newsOf_iu]
    · exact h
  · exact h

theorem takeRenderFinished_counted (h : k.iu.counted) : (takeRenderFinished k).iu.counted := by
  unfold takeRenderFinished
  split
  · exact pscTake_counted _ (applyRenderFinished_counted _ _ _ (popInbox_counted h))
  · exact h

theorem takeCarrierCreated_counted (h : k.iu.counted) : (takeCarrierCreated k).iu.counted := by
  unfold takeCarrierCreated
  split
  · rw [carrierTaken_iu]
    exact pscTake_counted _ (applyCarrierCreated_counted _ _ _ (popInbox_counted h))
  · rwa [carrierTaken_iu]
  · exact h

theorem takeCarrierRemoved_counted (h : k.iu.counted) : (takeCarrierRemoved k).iu.counted := by
  unfold takeCarrierRemoved
  split
  · exact pscTake_counted _ (by rwa [applyCarrierRemoved_iu])
  · exact h
  · exact h

theorem takeDisposition_counted (h : k.iu.counted) : (takeDisposition k).iu.counted := by
  unfold takeDisposition
  split
  · split
    · exact takeAnswer_counted _ h
    · exact h
  · split
    · exact pscTake_counted _ (planDisposition_counted _ (popInbox_counted h))
    · exact h

end

end Sys2Proof.Machine
end

