-- ==== Sys2Proof/Proofs/UseCountsKept.lean ====
section
/-! SUPPORT. Every command keeps the use counts those of the directory, and what they count (O42). -/

namespace Sys2Proof.Machine

/-- The reset directory and the reset use counts are both empty. -/
theorem reset_counted : Chip.reset.iu.counted := rfl

/-! ### The handler line -/

section
variable {k : Chip}

theorem startFailed_counted (check unit : Nat) : (startFailed check unit k).iu.counted := by
  rw [startFailed_spec, raise_iu]
  exact reset_counted

@[simp] theorem startSucceeded_iu (k : Chip) : (startSucceeded k).iu = k.iu := rfl

theorem clearEnds_counted (u : HUnit) (e : RequestEnd) (h : k.iu.counted) : (clearEnds u e k).iu.counted := by
  unfold clearEnds
  split
  · dsimp only
    split
    · rwa [startSucceeded_iu]
    · exact h
  · exact startFailed_counted _ _

@[simp] theorem loaderEnds_iu (r : Request) (e : RequestEnd) (k : Chip) : (loaderEnds r e k).iu = k.iu := by
  unfold loaderEnds
  split <;> simp

theorem endRequest_counted (u : HUnit) (r : Request) (e : RequestEnd) (h : k.iu.counted) : (endRequest u r e k).iu.counted := by
  unfold endRequest
  dsimp only
  split
  · exact clearEnds_counted _ _ h
  · cases u
    · rwa [loaderEnds_iu]
    · rwa [punchEnds_iu]
    · rwa [processorEnds_iu]
    · rwa [sorterEnds_iu]

theorem answerRequest_counted (u : HUnit) (r : Request) (a : RequestAnswer) (h : k.iu.counted) :
    (answerRequest u r a k).iu.counted := by
  have hs (x : UnitState) : (k.setUnit u x).iu.counted := by rwa [Chip.setUnit_iu]
  unfold answerRequest
  cases a
  case taken => exact hs _
  case busy =>
    dsimp only
    split
    · exact hs _
    · exact endRequest_counted _ _ _ (hs _)
  case refused why => exact endRequest_counted _ _ _ (hs _)

theorem requestAnswered_counted (f : AnswerFrame) (a : RequestAnswer) (h : k.iu.counted) : (requestAnswered f a k).iu.counted := by
  have hf : (freeLine k).iu.counted := by rwa [freeLine_iu]
  unfold requestAnswered
  dsimp only
  repeat' split
  all_goals first | exact h | exact hf | exact answerRequest_counted _ _ _ hf

theorem answerPoll_counted (u : HUnit) (a : PollAnswer) (h : k.iu.counted) : (answerPoll u a k).iu.counted := by
  unfold answerPoll
  repeat' split
  all_goals first | exact h | exact endRequest_counted _ _ _ h

theorem pollAnswered_counted (f : AnswerFrame) (a : PollAnswer) (h : k.iu.counted) : (pollAnswered f a k).iu.counted := by
  unfold pollAnswered
  dsimp only
  repeat' split
  · exact h
  · exact h
  · exact answerPoll_counted _ _ (by rwa [restartPoll_iu, Chip.setUnit_iu, freeLine_iu])
  · rwa [freeLine_iu]

theorem offlineWork_counted (u : HUnit) (h : k.iu.counted) : (offlineWork u k).iu.counted := by
  unfold offlineWork
  repeat' split
  · exact h
  · exact h
  · exact endRequest_counted _ _ _ h
  · rwa [putBack_iu, Chip.setUnit_iu]

theorem goOffline_counted (u : HUnit) (h : k.iu.counted) : (goOffline u k).iu.counted := by
  unfold goOffline
  split
  · exact startFailed_counted _ _
  · exact offlineWork_counted _ (by rwa [holdOffline_iu])

theorem windowExpires_counted (h : k.iu.counted) : (windowExpires k).iu.counted := by
  have hf : (freeLine k).iu.counted := by rwa [freeLine_iu]
  unfold windowExpires
  split
  · exact h
  · dsimp only
    split
    · split
      · rw [Chip.setUnit_iu]
        split
        · rwa [restartPoll_iu, Chip.setUnit_iu]
        · exact hf
      · exact goOffline_counted _ (by rwa [Chip.setUnit_iu])
    · exact hf

theorem completionExpires_counted (u : HUnit) (h : k.iu.counted) : (completionExpires u k).iu.counted := by
  unfold completionExpires
  dsimp only
  repeat' split
  all_goals first | exact h | exact endRequest_counted _ _ _ (by rwa [timeoutMark_iu]) | exact endRequest_counted _ _ _ h

/-! ### The Store Port -/

@[simp] theorem haltPart_iu (cause : Nat) (o : FaultOffer) (k : Chip) : (haltPart cause o k).iu = k.iu := by
  have hf : (raise .fault (takeOffer o k)).iu = k.iu := takeOffer_iu o k
  unfold haltPart
  dsimp only
  split <;> exact hf

@[simp] theorem hfRefused_iu (pass j : Nat) (k : Chip) : (hfRefused pass j k).iu = k.iu := by
  unfold hfRefused
  dsimp only
  split
  · rw [imcMark_iu, rowSetArrives_iu]
  · rw [rowSetArrives_iu]

theorem refuseTransfer_counted (t : Transfer) (d : Nat) (h : k.iu.counted) : (refuseTransfer t d k).iu.counted := by
  unfold refuseTransfer
  split
  · exact h
  rename_i m _
  cases m <;> simp only [refuse]
  case iuWrite => rwa [haltPart_iu]
  case reportWrite => rwa [haltPart_iu]
  case iuRead => exact parseFenced_counted (by rwa [offerFault_iu])
  all_goals
    split
    all_goals simpa using h

theorem takePost_counted (w : Word) (h : k.iu.counted) : (takePost w k).iu.counted := by
  rcases takePost_cases w k with ⟨-, -, e⟩ | ⟨-, e⟩ <;> rw [e] <;> exact h

theorem deliverNotice_counted (n : Notice) (h : k.iu.counted) : (deliverNotice n k).iu.counted := by
  cases n
  case pscDone => exact pscGo_counted h
  all_goals exact h

theorem deliverData_counted (t : Transfer) (data : List Byte) (h : k.iu.counted) : (deliverData t data k).iu.counted := by
  unfold deliverData
  split
  · split <;> exact h
  · exact h
  · exact parseArrives_counted _ h
  · exact orderArrives_counted _ _ h
  · exact fillArrives_counted _ _ _ h
  · rwa [reloadArrives_iu]
  · rwa [rowSetArrives_iu]

end

theorem deliverNotices_counted (ns : List Notice) {k : Chip} (h : k.iu.counted) :
    (ns.foldl (fun a n => deliverNotice n a) k).iu.counted := by
  induction ns generalizing k with
  | nil => exact h
  | cons n ns ih => exact ih (deliverNotice_counted n h)

theorem transferComplete_counted (c : Client) {k : Chip} (h : k.iu.counted) : (transferComplete c k).iu.counted := by
  unfold transferComplete
  split
  · exact h
  · dsimp only
    split
    · exact h
    · exact deliverNotices_counted _ (deliverData_counted _ _ h)

theorem grant_counted (s : State) (h : s.chip.iu.counted) : (grant s).chip.iu.counted := by
  rcases grant_chip_cases s with ⟨-, e⟩ | ⟨t, c, pos, -, e⟩ <;> rw [e]
  · exact h
  · have hd : (dequeue c pos s.chip).iu.counted := h
    unfold grantChip
    split
    · unfold serve
      split
      · exact hostServed_keeps (P := fun k => k.iu.counted) (fun w _ h => takePost_counted w h) (fun _ _ h => h) _ hd
      · exact hd
    · exact refuseTransfer_counted _ _ hd
    · exact hd

theorem fetchComplete_counted (s : State) (h : s.chip.iu.counted) : (fetchComplete s).chip.iu.counted := by
  unfold fetchComplete
  split
  · exact h
  · dsimp only
    split
    · exact refuseTransfer_counted _ _ (k := s.chip.setSp _) h
    · exact h

/-! ### The host's settings -/

section
variable {k : Chip}

theorem writeExposeEnable_counted (en : Bool) (h : k.iu.counted) : (writeExposeEnable en k).iu.counted := by
  unfold writeExposeEnable
  dsimp only
  split
  · rwa [interlockFall_iu]
  · exact h

theorem enterStopping_counted (h : k.iu.counted) : (enterStopping k).iu.counted := by
  have hr : (k.setRun .stopping).iu.counted := h
  unfold enterStopping
  dsimp only
  split
  · exact pscHear_counted _ hr
  · rwa [checkStopped_iu]

theorem controlWrite_counted (v : Word) (h : k.iu.counted) : (controlWrite v k).iu.counted := by
  unfold controlWrite
  repeat' split
  · exact h
  · exact reset_counted
  · have he := writeExposeEnable_counted (v.getLsbD 2) h
    rcases writeRun_cases (v.getLsbD 0) (writeExposeEnable (v.getLsbD 2) k) with e | ⟨-, e⟩ | ⟨-, e⟩ | ⟨-, e⟩ <;> rw [e]
    · exact he
    · exact he
    · exact he
    · exact enterStopping_counted he

theorem setClock_counted (v : Word) (h : k.iu.counted) : (setClock v k).iu.counted := by
  unfold setClock clockMarks
  split
  · exact pscHear_counted _ h
  · exact h

theorem layoutRead_counted (r : LayoutRecord) (h : k.iu.counted) : (layoutRead r k).iu.counted := by
  unfold layoutRead
  repeat' split
  · unfold takeUpLayout
    dsimp only
    rwa [issueAll_kept]
  · exact startFailed_counted _ _
  · exact h

end

/-! ### The commands -/

theorem setsHost_counted {c : Instr} {s t : State} (hc : c.setsHost) (hs : s.chip.iu.counted) (h : exec c s = .next t) :
    t.chip.iu.counted := by
  cases c
  case powerOnReset => cases h; exact reset_counted
  case hotReset => cases h; exact reset_counted
  case engineReset v => cases h; exact controlWrite_counted v hs
  case runSet v => cases h; exact controlWrite_counted v hs
  case runClear v => cases h; exact controlWrite_counted v hs
  case exposeEnableSet v => cases h; exact controlWrite_counted v hs
  case exposeEnableClear v => cases h; exact controlWrite_counted v hs
  case alertEnWrite v =>
    cases h
    simp only [State.setChip_chip, alertEnWrite]
    split <;> exact hs
  case plantClockWrite v =>
    cases h
    simp only [State.setChip_chip, clockWrite]
    split
    · exact hs
    · exact setClock_counted v hs
  case plantClockTick => cases h; exact setClock_counted _ hs
  case linkRetrain => cases h; exact hs
  case msiEnableChange => cases h; exact hs
  case layoutReadComplete r => cases h; exact layoutRead_counted r hs
  all_goals exact hc.elim

theorem work_counted {c : Instr} {s t : State} (hc : c.isWork) (hs : s.chip.iu.counted) (h : exec c s = .next t) :
    t.chip.iu.counted := by
  have kept {k : Chip} (e : k.iu = s.chip.iu) : k.iu.counted := e ▸ hs
  cases c
  case parseBegin => cases h; exact parseBegin_counted hs
  case parseEnd => cases h; exact parseEnd_counted hs
  case dropApply => cases h; exact dropApply_counted hs
  case pageReport => cases h; exact takePageReport_counted hs
  case selection => cases h; exact selection_counted hs
  case exposingEntryReport => cases h; exact takeExposingEntry_counted hs
  case exposureEndReport => cases h; exact takeExposureEnd_counted hs
  case renderFinished => cases h; exact takeRenderFinished_counted hs
  case carrierCreated => cases h; exact takeCarrierCreated_counted hs
  case carrierRemoved => cases h; exact takeCarrierRemoved_counted hs
  case dispositionSend => cases h; exact kept (sendDisposition_iu _)
  case dispositionApply => cases h; exact takeDisposition_counted hs
  case fillBegin => cases h; exact kept (fillBegin_iu _ _)
  case renderReflectionPoint => cases h; exact kept (reachPoint_iu _)
  case reflectionPointEnd => cases h; exact kept (pointEnd_iu _ _)
  case fillEnd => cases h; exact kept (fillEnd_iu _)
  case reloadBegin => cases h; exact kept (reloadBegin_iu _)
  case reloadEnd => cases h; exact kept (reloadEnd_iu _)
  case encoderTransition e => cases h; exact kept (encoderEdge_iu e _)
  case index n => cases h; exact kept (indexPulse_iu n _)
  case headChannelFault ch => cases h; exact kept (channelFault_iu ch _)
  case headAllClear => cases h; exact kept (headClear_iu _)
  case unloadIssue => cases h; exact kept (issueUnload_iu _)
  case unloadEnd => cases h; exact kept (takeUnloadEnd_iu _)
  case exchangeStart => cases h; exact kept (exchangeStart_iu _)
  case requestAnswer f a => cases h; exact requestAnswered_counted f a hs
  case pollAnswer f a => cases h; exact pollAnswered_counted f a hs
  case answerWindowExpiry => cases h; exact windowExpires_counted hs
  case busyRetryExpiry u => cases h; exact kept (busyRetryExpires_iu _ _)
  case pollTimerExpiry u => cases h; exact kept (pollTimerExpires_iu _ _)
  case completionTimeout u => cases h; exact completionExpires_counted u hs
  all_goals exact hc.elim

theorem dispatch_counted {c : Instr} {s t : State} (hc : c.isDispatch) (hs : s.chip.iu.counted) (h : exec c s = .next t) :
    t.chip.iu.counted := by
  have hp : (popPost s.chip).iu.counted := hs
  have kept {k : Chip} (e : k.iu = (popPost s.chip).iu) : k.iu.counted := e ▸ hp
  cases c
  case postBadWord =>
    cases h; simp only [State.setChip_chip, dropBadWord]
    split <;> exact hs
  case fragment =>
    cases h; simp only [State.setChip_chip, dispatchFragment]
    repeat' split
    all_goals first | exact hs | exact takeFragment_counted _ hp
  case order =>
    cases h; simp only [State.setChip_chip, dispatchOrder]
    repeat' split
    all_goals first | exact hs | exact kept (takeOrder_iu _ _)
  case breakPlate =>
    cases h; simp only [State.setChip_chip, dispatchBreak, takeBreak]
    repeat' split
    all_goals first | exact pscTake_counted _ (breakPlateOf_counted _ _ _ hp) | exact hs
  case release =>
    cases h; simp only [State.setChip_chip, dispatchRelease]
    repeat' split
    all_goals first | exact hs | exact kept (takeRelease_iu _ _)
  case seen =>
    cases h; simp only [State.setChip_chip, dispatchSeen]
    repeat' split
    all_goals first | exact hs | exact kept (takeSeen_iu _ _)
  case drop =>
    cases h; simp only [State.setChip_chip, dispatchDrop]
    split
    · split <;> exact hs
    · exact hs
  case table =>
    cases h; simp only [State.setChip_chip, dispatchTable]
    split
    · exact kept (takeTable_iu _ _)
    · exact hs
  case resume =>
    cases h; simp only [State.setChip_chip, dispatchResume]
    split
    · exact kept (applyResume_iu _)
    · exact hs
  case fenceFlush =>
    cases h; simp only [State.setChip_chip, dispatchFlush]
    split <;> exact hs
  all_goals exact hc.elim

theorem other_counted {c : Instr} {s t : State} (hc : c.isOther) (hs : s.chip.iu.counted) (h : exec c s = .next t) :
    t.chip.iu.counted := by
  cases c
  case alertWrite v =>
    cases h
    simp only [State.setChip_chip, alertWrite]
    repeat' split
    · exact hs
    · unfold acknowledgeFault
      dsimp only
      split <;> exact hs
    · exact hs
  case registerWriteIgnored => cases h; exact hs
  case post w =>
    cases h
    simp only [State.setChip_chip, postWrite]
    repeat' split
    · exact hs
    · exact takePost_counted w hs
    · exact hs
  case hostAccess op =>
    rcases exec_hostAccess_cases op s with e | e | ⟨-, -, e⟩ <;> rw [e] at h <;> cases h
    · exact hs
    · rwa [State.setChip_chip, issueAll_kept]
  case transferGrant => cases h; exact grant_counted s hs
  case transferComplete d => cases h; exact transferComplete_counted d hs
  case fenceMapFetchComplete => cases h; exact fetchComplete_counted s hs
  all_goals exact hc.elim

theorem exec_counted (c : Instr) (s t : State) (hs : s.chip.iu.counted) (h : exec c s = .next t) : t.chip.iu.counted := by
  rcases c.kinds with hc | hc | hc | hc
  · exact setsHost_counted hc hs h
  · exact work_counted hc hs h
  · exact dispatch_counted hc hs h
  · exact other_counted hc hs h

/-! ### What the counts count -/

/-- Putting one more for each cell of a list counts the list. -/
theorem countUp_cells (l : List Nat) (t : List (Nat × Nat)) (c : Nat) :
    (tblGet (l.foldl (fun t c => tblPut t c ((tblGet t c).getD 0 + 1)) t) c) =
      if l.count c = 0 then tblGet t c else some ((tblGet t c).getD 0 + l.count c) := by
  induction l generalizing t with
  | nil => simp
  | cons x l ih =>
    simp only [List.foldl_cons, ih, tblGet_tblPut, List.count_cons]
    by_cases hx : c = x
    · subst hx
      by_cases hl : l.count c = 0 <;> simp [hl]; omega
    · have hx' : ¬ x = c := fun e => hx e.symm
      simp [hx, hx']

/-- The use count of a cell is how often the records' PRESENT entries name it, and none stands where none does. -/
theorem useCountsOf_get (dir : List (Nat × PageRecord)) (c : Nat) :
    tblGet (useCountsOf dir) c =
      if (dir.flatMap (fun e => e.2.cells)).count c = 0 then none else some ((dir.flatMap (fun e => e.2.cells)).count c) := by
  unfold useCountsOf
  rw [countUp_cells]
  simp [tblGet]

/-- Collecting a value from a list and counting one is filtering by where it is collected. -/
theorem count_filterMap {α : Type} {f : α → Option Nat} {q : α → Bool} {c : Nat} (h : ∀ x, q x = true ↔ f x = some c) (l : List α) :
    (l.filterMap f).count c = (l.filter q).length := by
  induction l with
  | nil => rfl
  | cons x l ih =>
    by_cases hx : f x = some c
    · simp [hx, (h x).2 hx, ih]
    · have hq : ¬ q x = true := fun e => hx ((h x).1 e)
      cases hf : f x with
      | none => simp [hf, hq, ih]
      | some y =>
        have hy : y ≠ c := fun e => hx (hf.trans (congrArg some e))
        simp [hf, hq, ih, hy]

/-- Settles O42: every command replaces the directory and its counts together, and the counts are those of the cells that the entries name. -/
theorem useCountsCountEntries : Obligations.UseCountsCountEntries := by
  refine ⟨fun s t hs h => step_keeps (P := fun k => k.iu.counted) exec_counted hs h, fun dir c => ?_⟩
  intro n
  have counts : (dir.flatMap (fun e => e.2.cells)).count c = n := by
    rw [List.count_flatMap]
    refine congrArg List.sum (List.map_congr_left fun e _ => ?_)
    exact (List.count_append ..).trans (congrArg₂ (· + ·)
      (count_filterMap (fun x => by rcases x with ⟨_, _ | _⟩ <;> simp) e.2.strips)
      (count_filterMap (fun x => by rcases x with ⟨_, _ | _⟩ <;> simp) e.2.patches))
  rw [useCountsOf_get, counts]

end Sys2Proof.Machine
end

