-- ==== Sys2Proof/Proofs/Inputs.lean ====
section
/-! SUPPORT. An input that PSC takes, from its plan to its end (O18, O46). -/

namespace Sys2Proof.Machine

section
variable {k y j t : Chip} {slot : Nat} {q : Plate} {plan : Chip → Plan} {l : List PscStep}

/-- What an input has done at once to `y` leaves of `k`: it concerns one slot, and PSC stands with its steps as before. -/
structure Chip.concerns (k y : Chip) (slot : Nat) : Prop where
  regs : y.regs = k.regs
  tl : y.tl = k.tl
  pd : y.pd = k.pd
  free : pscBlocked y = pscBlocked k
  due : y.psc.due = k.psc.due
  others : ∀ n, n ≠ slot → y.plate n = k.plate n

theorem concerns_standing (h : k.standing y slot q) : k.concerns y slot :=
  ⟨h.regs, h.tl, h.pd, standing_blocked h, by rw [h.psc], h.others⟩

/-- From `y`, where an input has done what it does at once, to its end at `t`: at `j` the readiness of the plate of one slot has been judged. -/
structure Chip.endsInput (y j t : Chip) (slot : Nat) : Prop where
  regs : t.regs = y.regs
  tl : t.tl = y.tl
  queue : t.pd.postQueue = y.pd.postQueue
  pd : y.pd.runState ≠ .stopping → t.pd = y.pd
  iu : t.iu = y.iu
  iuWaiting : t.sp.iu = y.sp.iu
  br : t.br = y.br
  imc : t.imc = y.imc
  hlc : t.hlc = y.hlc
  ready : t.psc.ready = j.psc.ready
  dmr : t.dmr = j.dmr
  awaiting : t.psc.awaiting = j.psc.awaiting
  plate : ∀ n, t.plate n = j.plate n
  others : ∀ n, n ≠ slot → t.plate n = y.plate n

/-- Judging a plate leaves all of it but its state, its time of READY, and what of LATE and OVERDUE is done. -/
theorem judged_plate (hj : y.judged slot j) (hq : y.plate slot = some q) :
    ∃ st time late overdue, j.plate slot = some (q.judgedAs st time late overdue) := by
  obtain ⟨_, _, _, _, _, _, rfl, -, -, -, own⟩ := hj
  exact own q hq

theorem endState_kept (h : k.pd.runState ≠ .stopping) : k.endState = k.pd.runState := by
  rw [Chip.endState, checkStopped_of_not_stopping k h]

theorem finished_pd {old : List (Nat × Plate)} (hf : j.finished t old) (h : j.pd.runState ≠ .stopping) : t.pd = j.pd := by
  rcases hf with ⟨-, w, -, rfl⟩ | ⟨-, m, o, r, rfl, -⟩
  · rfl
  · show { j.pd with runState := j.endState } = j.pd
    rw [endState_kept h]

theorem endsInput_of_finished {old : List (Nat × Plate)} (hj : y.judged slot j) (hf : j.finished t old) : y.endsInput j t slot := by
  have pd := finished_pd hf
  obtain ⟨_, _, _, _, _, _, rfl⟩ := finished_frame hf
  obtain ⟨_, _, _, _, _, _, rfl, -, -, others, -⟩ := hj
  exact ⟨rfl, rfl, rfl, pd, rfl, rfl, rfl, rfl, rfl, rfl, rfl, rfl, fun _ => rfl, others⟩

/-- An input whose steps have come to their end, or to a mark: PSC takes no other. -/
theorem pscTake_eq {old : List (Nat × Plate)} (hp : plan k = (y, l)) (hd : y.psc.due = []) (hj : y.judged slot j)
    (hf : j.finished (runSteps (l ++ [.publish k.psc.plates]) y) old) :
    pscTake plan k = runSteps (l ++ [.publish k.psc.plates]) y := by
  have due : j.psc.due = [] := by
    obtain ⟨_, _, _, _, _, _, rfl, -⟩ := hj
    exact hd
  rw [pscTake, beginInput, hp]
  exact pscGo_finished hf due

theorem pscTake_ends (hp : plan k = (y, l)) (hd : y.psc.due = []) (hj : y.judged slot j)
    (hf : j.finished (runSteps (l ++ [.publish k.psc.plates]) y) k.psc.plates) : y.endsInput j (pscTake plan k) slot := by
  rw [pscTake_eq hp hd hj hf]
  exact endsInput_of_finished hj hf

/-- An input that has no steps. -/
theorem pscTake_at_once (slot : Nat) (hp : plan k = (y, [])) (hd : y.psc.due = []) (hb : pscBlocked y = false) :
    y.endsInput y (pscTake plan k) slot :=
  pscTake_ends hp hd (judged_refl slot y) (runSteps_publish _ hb)

/-- An input whose steps judge the plate of its slot leaves the other plates and the other blocks' settings. -/
theorem pscTake_concerns (hf : pscFree k = true) (hp : plan k = (y, l)) (hy : k.concerns y slot) (hl : ∀ s ∈ l, s.judges slot) :
    ∃ j, y.endsInput j (pscTake plan k) slot := by
  obtain ⟨-, -, -, -, -, due⟩ := (pscFree_iff k).mp hf
  obtain ⟨j, judged, finished⟩ := runSteps_finishes l k.psc.plates hl (hy.free.trans (not_blocked_of_free hf))
  exact ⟨j, pscTake_ends hp (hy.due.trans due) judged finished⟩

/-- An input that stops at a mark of its own. -/
theorem pscTake_marks {m : MarkReport} {rest : List PscStep} (hp : plan k = (y, .mark m :: rest)) (hb : pscBlocked y = false)
    (here : y.plate m.slot = some q) (hs : suppressed (y.marks m.slot) m = false) :
    pscTake plan k = setWork (rest ++ [.publish k.psc.plates]) (y.ownMarked m) := by
  have run : runSteps (.mark m :: rest ++ [.publish k.psc.plates]) y = setWork (rest ++ [.publish k.psc.plates]) (y.ownMarked m) := by
    rw [List.cons_append, runSteps_cons _ _ _ hb]
    exact runSteps_marked _ here hs
  rw [pscTake, beginInput, hp]
  show pscGo (runSteps (.mark m :: rest ++ [.publish k.psc.plates]) y) = _
  rw [run]
  exact pscGo_blocked _ (blocked_of_awaiting rfl)

/-- A recorded mark of PSC's own that is no spoil: what the statements call PSC's mark. -/
theorem ownMarked_pscMarked {m : MarkReport} {severity : Severity} (w : List PscStep) (hk : y.dmr = k.dmr)
    (hs : severityOf y m.kind m.slot m.attempt = severity) (hn : severity ≠ .spoil) (hc : m.kind.charged = false)
    (hl : m.location = .none) :
    k.pscMarked (setWork w (y.ownMarked m)) m.slot m.kind severity m.attempt m.key m.detail := by
  have before : k.marks m.slot = y.marks m.slot := by rw [Chip.marks, ← hk]; rfl
  refine ⟨rfl, fun room => ⟨placeOf y severity m.place m.slot m.attempt, fun hf => ?_, ?_⟩⟩
  · cases severity with
    | note => rfl
    | hold => rfl
    | spoil => exact absurd rfl hn
    | fail => exact absurd rfl hf
  · have stored : (setWork w (y.ownMarked m)).marks m.slot = (storeMark (remember (y.marks m.slot) m) (markOf m y)).1 := by
      show (y.ownMarked m).marks m.slot = _
      exact recorded_marks _ _ _ _ _
    have old := remember_marks (y.marks m.slot) m
    rw [before] at room ⊢
    rw [stored, storeMark_room _ _ (by rwa [old]), old]
    simp only [markOf, hs, hc, hl]
    rfl

end

end Sys2Proof.Machine
end

