-- ==== Sys2Proof/Proofs/Breaks.lean ====
section
/-! SUPPORT. What a BREAK plans in each plate state, and what it comes to (R102–R104, R166; O18). -/

namespace Sys2Proof.Machine

/-- The plate waits for its selection, or for what it lacks. -/
def Plate.early (p : Plate) : Prop := p.state = .waiting ∨ p.state = .ready

section
variable {k : Chip} {slot : Nat} {p : Plate}

/-! ### The break request (R166) -/

/-- IMC's answer to a break request changes the imager, and with a mark the lists of DMR and its writes. -/
theorem imcBreak_spec (slot attempt : Nat) (k : Chip) : ∃ imc lists report, imcBreak slot attempt k =
    { k with imc := imc, dmr := { k.dmr with lists := lists }, sp := { k.sp with report := report } } := by
  have condemned (b : Bool) (k : Chip) : ∃ imc, condemn .spoiled b k = k.setImc imc := by
    unfold condemn
    split
    · exact ⟨_, rfl⟩
    · exact ⟨k.imc, rfl⟩
  unfold imcBreak
  split
  · exact ⟨_, _, _, rfl⟩
  · split
    · split <;> exact ⟨_, _, _, rfl⟩
    · obtain ⟨imc, e⟩ := condemned false k
      rw [e]
      split
      · exact ⟨_, _, _, rfl⟩
      · obtain ⟨lists, report, m, -⟩ := reportMark_spec
          { slot := _, attempt := _, kind := .broken, location := .swath (k.setImc imc).imc.exposure.cursor, key := none, detail := 0,
            place := some .drum, nosep := none } (k.setImc imc)
        exact ⟨imc, lists, report, m⟩
    · exact ⟨_, _, _, rfl⟩

/-- The drum plate of an exposure that has begun, not yet exposed, takes the request at its next index. -/
theorem imcBreak_requests {attempt : Nat} {d : Drum} (hb : exposureBegun k slot attempt = true) (hd : k.imc.drum = some d)
    (hc : d.cond = .unexposed) (hx : k.imc.state = .exposing) (hu : k.hlc.unloadEnd = .none) :
    imcBreak slot attempt k = setExposure { k.imc.exposure with breakRequest := true } k := by
  simp only [exposureBegun, hd] at hb
  cases ho : d.owner with
  | none => simp [ho] at hb
  | some w =>
    simp only [ho, Bool.and_eq_true] at hb
    obtain ⟨mine, begun⟩ := hb
    have drum : drumPlateFor k slot attempt = some (d, w) := by
      simp only [drumPlateFor, hd, ho, PlateRef.isFor, mine, hu]
      rfl
    simp [imcBreak, drum, hc, hx, begun]

/-! ### The plan of a BREAK (R102–R104) -/

theorem plan_requeue (h : p.early) : breakPlateOf slot p .requeue k = (k, []) := by
  rcases h with hs | hs <;> simp [breakPlateOf, hs]

theorem plan_closing (f : BreakFlag) (h : p.state = .closing) : breakPlateOf slot p f k = (k, []) := by simp [breakPlateOf, h]

theorem plan_cancel (h : p.early) : breakPlateOf slot p .cancel k = (closePlate slot .cancelled k, []) := by
  rcases h with hs | hs <;> simp [breakPlateOf, hs]

theorem plan_drawn (f : BreakFlag) (h : p.drawn (exposureBegun k slot p.attempt)) :
    breakPlateOf slot p f k = breakWithdraw slot p f k := by
  rcases h with hs | ⟨hs, hb⟩ <;> simp [breakPlateOf, *]

theorem plan_begun (f : BreakFlag) (hs : p.state = .imaging) (hb : exposureBegun k slot p.attempt = true) :
    breakPlateOf slot p f k = (startBreak slot f k, []) := by simp [breakPlateOf, hs, hb]

theorem plan_finishing (f : BreakFlag) (hs : p.state = .finishing) :
    breakPlateOf slot p f k = (k, [.mark (ownMark slot p.attempt .lateBreak none f.code)]) := by simp [breakPlateOf, hs]

/-- The states in which a BREAK finds a plate. -/
theorem break_kinds (p : Plate) (begun : Bool) : p.early ∨ p.drawn begun ∨ (p.state = .imaging ∧ begun = true) ∨ p.state = .finishing ∨
    p.state = .closing ∨ p.state.terminal = true := by
  cases hs : p.state <;> simp [Plate.early, Plate.drawn, hs, PlateState.terminal]

theorem live_of_drawn {begun : Bool} (h : p.drawn begun) : p.state.live = true := by
  rcases h with hs | ⟨hs, -⟩ <;> rw [hs] <;> rfl

/-! ### What the plan does at once -/

/-- The plate closed by a CANCEL, at `z`: a plate drawn has been withdrawn, an early one is as it was. -/
theorem cancel_stands (hp : k.plate slot = some p) (h : p.early ∨ p.drawn (exposureBegun k slot p.attempt)) :
    ∃ z held, breakPlateOf slot p .cancel k = (closePlate slot .cancelled z, []) ∧ k.standing z slot { p with pinsHeld := held } ∧
      (p.early → z = k) ∧ (p.drawn (exposureBegun k slot p.attempt) → k.gaveUp z slot p) := by
  rcases h with he | hd
  · refine ⟨k, p.pinsHeld, plan_cancel he, standing_refl hp, fun _ => rfl, fun hd => ?_⟩
    rcases he with hs | hs <;> simp [Plate.drawn, hs] at hd
  · have relieved := withdraw_relieves p.attempt hp
    refine ⟨_, false, plan_drawn .cancel hd, standing_relieved relieved, fun he => ?_, fun _ => gaveUp_relieved relieved⟩
    rcases hd with hs | ⟨hs, -⟩ <;> simp [Plate.early, hs] at he

/-- The plate returned by a REQUEUE: withdrawn, its attempt ended (R103). -/
def Chip.requeued (k : Chip) (slot : Nat) (p : Plate) : Chip :=
  setPlate slot (Plate.endAttempt { p with pinsHeld := false }) (withdraw slot p.attempt k)

theorem plan_requeued (hp : k.plate slot = some p) (h : p.drawn (exposureBegun k slot p.attempt)) :
    breakPlateOf slot p .requeue k = (k.requeued slot p, evaluation slot true) := by
  have own := (standing_relieved (withdraw_relieves p.attempt hp)).own
  rw [plan_drawn _ h, breakWithdraw]
  rw [updPlate_eq own]
  rfl

theorem requeued_stands (hp : k.plate slot = some p) :
    k.standing (k.requeued slot p) slot (Plate.endAttempt { p with pinsHeld := false }) ∧ k.gaveUp (k.requeued slot p) slot p := by
  have relieved := withdraw_relieves p.attempt hp
  exact ⟨standing_trans (standing_relieved relieved) (standing_setPlate slot _ _), gaveUp_congr (gaveUp_relieved relieved) rfl rfl⟩

/-- A break set pending, with the request to IMC on the first one (R104). -/
theorem startBreak_eq (f : BreakFlag) (hp : k.plate slot = some p) : startBreak slot f k =
    let k1 := setPlate slot { p with breakPending := some (raiseBreak p.breakPending f) } k
    if p.breakPending.isNone then imcBreak slot p.attempt k1 else k1 := by
  simp only [startBreak, hp]

theorem startBreak_concerns (f : BreakFlag) (hp : k.plate slot = some p) : k.concerns (startBreak slot f k) slot := by
  obtain ⟨hpsc, hpd⟩ := startBreak_psc (f := f) hp
  have blocked : pscBlocked (startBreak slot f k) = pscBlocked k :=
    pscBlocked_congr hpd (by rw [hpsc]; rfl) (by rw [hpsc]; rfl) (by rw [hpsc]; rfl)
  have blocks : (startBreak slot f k).regs = k.regs ∧ (startBreak slot f k).tl = k.tl := by
    rw [startBreak_eq f hp]
    dsimp only
    split
    · obtain ⟨imc, lists, report, e⟩ := imcBreak_spec slot p.attempt
        (setPlate slot { p with breakPending := some (raiseBreak p.breakPending f) } k)
      rw [e]
      exact ⟨rfl, rfl⟩
    · exact ⟨rfl, rfl⟩
  refine ⟨blocks.1, blocks.2, hpd, blocked, by rw [hpsc]; rfl, fun n hn => ?_⟩
  rw [Chip.plate, hpsc]
  exact setPlate_ne slot n _ k hn

/-- Whatever a BREAK does at once concerns its slot, and its steps judge the slot's plate. -/
theorem breakPlateOf_concerns (f : BreakFlag) (hp : k.plate slot = some p) :
    ∃ y l, breakPlateOf slot p f k = (y, l) ∧ k.concerns y slot ∧ ∀ s ∈ l, s.judges slot := by
  have none_ : ∀ s ∈ ([] : List PscStep), s.judges slot := by simp
  have still (h : breakPlateOf slot p f k = (k, [])) : ∃ y l, breakPlateOf slot p f k = (y, l) ∧ k.concerns y slot ∧
      ∀ s ∈ l, s.judges slot := ⟨k, [], h, concerns_standing (standing_refl hp), none_⟩
  have cancels (h : p.early ∨ p.drawn (exposureBegun k slot p.attempt)) : ∃ y l, breakPlateOf slot p .cancel k = (y, l) ∧
      k.concerns y slot ∧ ∀ s ∈ l, s.judges slot := by
    obtain ⟨z, held, plan, standing, -⟩ := cancel_stands hp h
    exact ⟨_, [], plan, concerns_standing (standing_trans standing (standing_closePlate .cancelled standing.own)), none_⟩
  rcases break_kinds p (exposureBegun k slot p.attempt) with he | hd | ⟨hs, hb⟩ | hs | hs | hs
  · cases f with
    | requeue => exact still (plan_requeue he)
    | cancel => exact cancels (.inl he)
  · cases f with
    | requeue =>
      exact ⟨_, _, plan_requeued hp hd, concerns_standing (requeued_stands hp).1, evaluation_judges slot true⟩
    | cancel => exact cancels (.inr hd)
  · exact ⟨_, [], plan_begun f hs hb, startBreak_concerns f hp, none_⟩
  · refine ⟨k, _, plan_finishing f hs, concerns_standing (standing_refl hp), fun s hm => ?_⟩
    rw [List.mem_singleton.mp hm]
    exact trivial
  · exact still (plan_closing f hs)
  · exact still (breakPlateOf_terminal hs)

end

/-! ### A BREAK that a ready PSC takes, to its end -/

section
variable {k : Chip} {slot : Nat} {p : Plate} {f : BreakFlag}

/-- A ready PSC with a plate in the slot. -/
structure Chip.readyFor (k : Chip) (slot : Nat) (p : Plate) : Prop where
  ready : k.pscReady
  plate : k.plate slot = some p

/-- The chip at the end of a BREAK's input. -/
def Chip.afterBreak (k : Chip) (slot : Nat) (p : Plate) (f : BreakFlag) : Chip := pscTake (breakPlateOf slot p f) k

theorem readyFor_due (h : k.readyFor slot p) : k.psc.due = [] := by
  obtain ⟨-, -, -, -, -, due⟩ := (pscFree_iff k).mp h.ready.1
  exact due

theorem readyFor_free (h : k.readyFor slot p) : pscBlocked k = false := not_blocked_of_free h.ready.1

theorem readyFor_positions (h : k.readyFor slot p) : p.order.positions.length ≤ 2 := by
  obtain ⟨-, -, -, -, -, -, -, -, ranges⟩ := h.ready
  exact (ranges slot p h.plate).2.1

/-- What concerns a BREAK's slot alone. -/
theorem afterBreak_frame (f : BreakFlag) (h : k.readyFor slot p) :
    (k.afterBreak slot p f).regs = k.regs ∧ (k.afterBreak slot p f).tl = k.tl ∧
      (k.afterBreak slot p f).pd.postQueue = k.pd.postQueue ∧ ∀ n, n ≠ slot → (k.afterBreak slot p f).plate n = k.plate n := by
  obtain ⟨y, l, plan, C, judges⟩ := breakPlateOf_concerns f h.plate
  obtain ⟨j, E⟩ := pscTake_concerns h.ready.1 plan C judges
  exact ⟨E.regs.trans C.regs, E.tl.trans C.tl, E.queue.trans (congrArg Dispatcher.postQueue C.pd),
    fun n hn => (E.others n hn).trans (C.others n hn)⟩

/-- A BREAK that plans nothing. -/
theorem afterBreak_nothing (h : k.readyFor slot p) (hp : breakPlateOf slot p f k = (k, [])) : k.afterBreak slot p f = k :=
  pscTake_nothing h.ready hp

/-- CANCEL before exposure: the plate is closed, and what it held has been given up. -/
theorem afterBreak_cancelled (h : k.readyFor slot p) (hs : p.early ∨ p.drawn (exposureBegun k slot p.attempt)) :
    ∃ held, (k.afterBreak slot p .cancel).plate slot = some (Plate.closedAs { p with pinsHeld := held } .cancelled k.regs.plantClock) ∧
      slot ∉ (k.afterBreak slot p .cancel).psc.ready ∧
      (p.early → (k.afterBreak slot p .cancel).iu = k.iu ∧ (k.afterBreak slot p .cancel).br = k.br) ∧
      (p.drawn (exposureBegun k slot p.attempt) → k.gaveUp (k.afterBreak slot p .cancel) slot p) := by
  obtain ⟨z, held, plan, standing, early, drawn⟩ := cancel_stands h.plate hs
  have closed := standing_trans standing (standing_closePlate .cancelled standing.own)
  obtain ⟨hiu, hbr, -, -⟩ := closePlate_keeps .cancelled standing.own
  have E : (closePlate slot .cancelled z).endsInput _ (k.afterBreak slot p .cancel) slot :=
    pscTake_at_once slot plan ((concerns_standing closed).due.trans (readyFor_due h)) ((standing_blocked closed).trans (readyFor_free h))
  refine ⟨held, ?_, ?_, fun he => ?_, fun hd => gaveUp_congr (drawn hd) (E.iu.trans hiu) (E.br.trans hbr)⟩
  · rw [E.plate, closed.own, standing.regs]
  · rw [E.ready, closePlate_eq .cancelled standing.own]
    exact not_mem_leaveReady slot z
  · rw [E.iu, E.br, hiu, hbr, early he]
    exact ⟨rfl, rfl⟩

/-- REQUEUE before exposure: the attempt ends uncharged, and the plate returns by its readiness. -/
theorem afterBreak_requeued (h : k.readyFor slot p) (hd : p.drawn (exposureBegun k slot p.attempt)) :
    k.gaveUp (k.afterBreak slot p .requeue) slot p ∧ ∃ r, (k.afterBreak slot p .requeue).plate slot = some r ∧ r.status = .ended ∧
      r.charged = p.charged ∧ r.attempt = p.attempt ∧ r.pinsHeld = false ∧ (k.afterBreak slot p .requeue).byReadiness slot p r := by
  obtain ⟨standing, given⟩ := requeued_stands h.plate
  have two := readyFor_positions h
  obtain ⟨j, judged, finished, ready, waiting⟩ := return_finishes k.psc.plates ((standing_blocked standing).trans (readyFor_free h))
    standing.own two (live_of_drawn hd)
  have E : (k.requeued slot p).endsInput j (k.afterBreak slot p .requeue) slot :=
    pscTake_ends (plan_requeued h.plate hd) ((concerns_standing standing).due.trans (readyFor_due h)) judged finished
  obtain ⟨st, time, late, overdue, now⟩ := judged_plate judged standing.own
  have own := (E.plate slot).trans now
  have stands {q : Plate} (hq : j.plate slot = some q) : q = _ := Option.some.inj (hq.symm.trans now)
  refine ⟨gaveUp_congr given E.iu E.br, _, own, rfl, rfl, rfl, rfl, fun ar => ?_, fun ar nf => ?_⟩
  · rw [E.iu] at ar
    obtain ⟨-, -, is, mem⟩ := ready ar
    rw [← stands is, E.ready]
    exact ⟨rfl, mem⟩
  · rw [E.iu] at ar nf
    obtain ⟨off, early, due⟩ := waiting ar nf
    rw [E.ready]
    refine ⟨?_, off⟩
    by_cases hl : Plate.lateDue { Plate.endAttempt { p with pinsHeld := false } with state := .waiting } (k.requeued slot p)
        (k.requeued slot p).regs.plantClock
    · rw [← stands (due hl).2.1]
    · rw [← stands (early hl).2.2]

/-- BREAK once exposure has begun: the break is pending, and IMC knows (R104). -/
theorem afterBreak_pending (f : BreakFlag) (h : k.readyFor slot p) (hs : p.state = .imaging)
    (hb : exposureBegun k slot p.attempt = true) :
    (k.afterBreak slot p f).plate slot = some { p with breakPending := some (raiseBreak p.breakPending f) } ∧
      (k.afterBreak slot p f).imc = (startBreak slot f k).imc := by
  have C := startBreak_concerns f h.plate
  have E : (startBreak slot f k).endsInput _ (k.afterBreak slot p f) slot :=
    pscTake_at_once slot (plan_begun f hs hb) (C.due.trans (readyFor_due h)) (C.free.trans (readyFor_free h))
  refine ⟨?_, E.imc⟩
  rw [E.plate, Chip.plate, (startBreak_psc h.plate).1]
  exact setPlate_self slot _ k

theorem startBreak_again (hp : k.plate slot = some p) (hs : p.breakPending.isSome = true) : (startBreak slot f k).imc = k.imc := by
  have again : p.breakPending.isNone = false := by simpa using hs
  rw [startBreak_eq f hp, again]
  rfl

theorem startBreak_first {d : Drum} (hp : k.plate slot = some p) (hn : p.breakPending = none)
    (hb : exposureBegun k slot p.attempt = true) (hd : k.imc.drum = some d) (hc : d.cond = .unexposed) (hx : k.imc.state = .exposing)
    (hu : k.hlc.unloadEnd = .none) :
    (startBreak slot f k).imc = { k.imc with exposure := { k.imc.exposure with breakRequest := true } } := by
  rw [startBreak_eq f hp, hn]
  dsimp only
  rw [Option.isNone_none, if_pos rfl,
    imcBreak_requests (k := setPlate slot { p with breakPending := some (raiseBreak none f) } k) hb hd hc hx hu]
  rfl

/-- A CANCEL stays pending behind any later BREAK (R104 (1)). -/
theorem raiseBreak_eq (b : Option BreakFlag) (f : BreakFlag) :
    some (raiseBreak b f) = if b = some .cancel ∨ f = .cancel then some .cancel else some .requeue := by
  cases f with
  | requeue => simpa using raiseBreak_requeue b
  | cancel =>
    rw [if_pos (.inr rfl)]
    rcases b with _ | _ | _ <;> rfl

/-- BREAK in FINISHING comes too late (R104, R188). -/
theorem afterBreak_late (f : BreakFlag) (h : k.readyFor slot p) (hs : p.state = .finishing) :
    (k.afterBreak slot p f).plate slot = some p ∧ (k.afterBreak slot p f).imc = k.imc ∧
      k.pscMarked (k.afterBreak slot p f) slot .lateBreak .note p.attempt none (if f = .cancel then 1 else 0) := by
  have marks : k.afterBreak slot p f = setWork ([] ++ [.publish k.psc.plates]) (k.ownMarked (ownMark slot p.attempt .lateBreak none f.code)) :=
    pscTake_marks (plan_finishing f hs) (readyFor_free h) h.plate (not_suppressed nofun nofun)
  have code : f.code = if f = .cancel then 1 else 0 := by cases f <;> rfl
  rw [marks, ← code]
  exact ⟨h.plate, rfl, ownMarked_pscMarked _ rfl (severityOf_note rfl _ _) nofun rfl rfl⟩

end

/-- Settles O18. -/
theorem breakWord : Obligations.BreakWord := by
  intro s slot f q p hh hk hp begun early drawn
  have h : (s.chip.popped q).readyFor slot p := ⟨hk, hp⟩
  obtain ⟨regs, tl, queue, others⟩ := afterBreak_frame f h
  have run : exec .breakPlate s = .next (s.setChip ((s.chip.popped q).afterBreak slot p f)) := by
    rw [exec_breakPlate hh hk.1, takeBreak, show (s.chip.popped q).plate slot = some p from hp]
    rfl
  refine ⟨_, run, rfl, regs, tl, queue, others, fun he hf => ?_, fun he => ?_, fun hd => ?_, fun hs hf => ?_, fun hd hf => ?_,
    fun hs hb => ?_, fun hs => ?_, fun hs => ?_⟩
  · subst hf
    exact afterBreak_nothing h (plan_requeue he)
  · cases f with
    | requeue => rw [afterBreak_nothing h (plan_requeue he)]; exact ⟨rfl, rfl⟩
    | cancel =>
      obtain ⟨-, -, -, kept, -⟩ := afterBreak_cancelled h (.inl he)
      exact kept he
  · cases f with
    | requeue => exact (afterBreak_requeued h hd).1
    | cancel =>
      obtain ⟨-, -, -, -, given⟩ := afterBreak_cancelled h (.inr hd)
      exact given hd
  · subst hf
    obtain ⟨held, own, off, -⟩ := afterBreak_cancelled h hs
    obtain ⟨charged, -, -, -, ended, noBreak⟩ := closedAs_keeps { p with pinsHeld := held } .cancelled s.chip.regs.plantClock
    obtain ⟨closed, closing⟩ := closedAs_state (p := p) (q := { p with pinsHeld := held }) (rejected := False) .cancelled
      s.chip.regs.plantClock rfl (by simp)
    exact ⟨_, own, ended, noBreak, charged, off, fun h1 h2 => closed h1 h2 id, fun h => closing (h.imp_right .inl)⟩
  · subst hf
    obtain ⟨-, r, own, ended, charged, attempt, held, ready, waiting⟩ := afterBreak_requeued h hd
    exact ⟨r, own, ended, charged, attempt, held, ready, waiting⟩
  · obtain ⟨own, imc⟩ := afterBreak_pending f h hs hb
    refine ⟨?_, fun again => imc.trans (startBreak_again h.plate again), fun d first hd hc hx hu => ?_⟩
    · rw [← raiseBreak_eq]
      exact own
    · exact imc.trans (startBreak_first h.plate first hb hd hc hx hu)
  · exact afterBreak_late f h hs
  · exact afterBreak_nothing h (plan_closing f hs)

end Sys2Proof.Machine
end

