-- ==== Sys2Proof/Proofs/Snapshots.lean ====
section
/-! SUPPORT. The ready list, the checks of R71 on a position and on all of an order's, and the tables of an order (O46). -/

namespace Sys2Proof.Machine

/-! ### The ready list (R94) -/

/-- The order of the ready list: by deadline, then by slot number. -/
def readyBefore (deadline : Nat → Nat) (a b : Nat) : Prop := deadline a < deadline b ∨ (deadline a = deadline b ∧ a < b)

section
variable {deadline : Nat → Nat} {slot : Nat} {l : List Nat}

theorem insertReady_perm (deadline : Nat → Nat) (slot : Nat) (l : List Nat) : (insertReady deadline slot l).Perm (slot :: l) := by
  induction l with
  | nil => exact .refl _
  | cons x l ih =>
    unfold insertReady
    split
    · exact .refl _
    · exact (ih.cons x).trans (.swap slot x l)

theorem readyBefore_trans {a b c : Nat} (h : readyBefore deadline a b) (g : readyBefore deadline b c) : readyBefore deadline a c := by
  unfold readyBefore at *
  omega

theorem readyBefore_of_not {a b : Nat} (hn : a ≠ b) (h : ¬readyBefore deadline a b) : readyBefore deadline b a := by
  unfold readyBefore at *
  omega

theorem insertReady_sorted (hl : l.Pairwise (readyBefore deadline)) (hs : slot ∉ l) :
    (insertReady deadline slot l).Pairwise (readyBefore deadline) := by
  induction l with
  | nil => exact List.pairwise_singleton _ _
  | cons x l ih =>
    obtain ⟨hx, hl'⟩ := List.pairwise_cons.mp hl
    obtain ⟨hne, hs'⟩ := not_or.mp (mt List.mem_cons.mpr hs)
    unfold insertReady
    split
    · next before =>
      refine List.pairwise_cons.mpr ⟨fun y hy => ?_, hl⟩
      rcases List.mem_cons.mp hy with rfl | hy
      · exact before
      · exact readyBefore_trans before (hx y hy)
    · next after =>
      refine List.pairwise_cons.mpr ⟨fun y hy => ?_, ih hl' hs'⟩
      rcases List.mem_cons.mp ((insertReady_perm deadline slot l).mem_iff.mp hy) with rfl | hy
      · exact readyBefore_of_not hne after
      · exact hx y hy

end

/-! ### The COMPLETE record of a key (R71 (a)) -/

/-- Record `i` of a directory is a COMPLETE record of a key. -/
def completeRecord (dir : List (Nat × PageRecord)) (key : PageKey) (i : Nat) (r : PageRecord) : Prop :=
  (i, r) ∈ dir ∧ r.key = key ∧ r.state = .complete

section
variable {dir : List (Nat × PageRecord)} {key : PageKey} {sep i j : Nat} {r b : PageRecord} {m n : Manifest}

theorem completeRecord_of_completeOf (h : completeOf dir key = some (i, r)) : completeRecord dir key i r := by
  have found := List.find?_some h
  simp only [Bool.and_eq_true, decide_eq_true_eq] at found
  exact ⟨List.mem_of_find?_eq_some h, found⟩

theorem completeOf_none (h : ∀ i r, ¬completeRecord dir key i r) : completeOf dir key = none := by
  cases hc : completeOf dir key with
  | none => rfl
  | some e => exact absurd (completeRecord_of_completeOf hc) (h e.1 e.2)

theorem completeOf_unique (hr : completeRecord dir key i r)
    (one : ∀ j x l y, completeRecord dir key j x → completeRecord dir key l y → j = l ∧ x = y) : completeOf dir key = some (i, r) := by
  cases hc : completeOf dir key with
  | none =>
    obtain ⟨hm, hk, hs⟩ := hr
    exact absurd (List.find?_eq_none.mp hc (i, r) hm) (by simp [hk, hs])
  | some e =>
    obtain ⟨hi, hx⟩ := one _ _ _ _ (completeRecord_of_completeOf (i := e.1) (r := e.2) hc) hr
    exact congrArg some (Prod.ext hi hx)

theorem sameGeometry_iff (a b : Manifest) : sameGeometry a b = true ↔ a.rows = b.rows ∧ a.dots = b.dots ∧ a.seps = b.seps := by
  simp [sameGeometry, and_assoc]

/-! ### A position (R71 (a) to (d)) -/

theorem resolve_absent (h : completeOf dir key = none) : resolvePosition dir key sep = .notComplete := by
  simp only [resolvePosition, h]

theorem resolve_nosep (h : completeOf dir key = some (i, r)) (hm : r.manifest = some m) (hs : m.seps.getLsbD sep = false) :
    resolvePosition dir key sep = .nosep i r.version := by
  simp [resolvePosition, h, hm, hs]

theorem resolve_full (h : completeOf dir key = some (i, r)) (hm : r.manifest = some m) (hs : m.seps.getLsbD sep = true)
    (hd : m.derived = false) : resolvePosition dir key sep = .ready { idx := i, version := r.version, base := none } := by
  simp [resolvePosition, h, hm, hs, hd]

theorem resolve_baseless (h : completeOf dir key = some (i, r)) (hm : r.manifest = some m) (hs : m.seps.getLsbD sep = true)
    (hd : m.derived = true) (hb : completeOf dir m.base = none) : resolvePosition dir key sep = .notComplete := by
  simp [resolvePosition, h, hm, hs, hd, hb]

/-- A derived record with a COMPLETE base: it fits when the base is a full page of equal geometry. -/
theorem resolve_based (h : completeOf dir key = some (i, r)) (hm : r.manifest = some m) (hs : m.seps.getLsbD sep = true)
    (hd : m.derived = true) (hb : completeOf dir m.base = some (j, b)) (hn : b.manifest = some n) :
    resolvePosition dir key sep = if n.derived = false ∧ n.rows = m.rows ∧ n.dots = m.dots ∧ n.seps = m.seps then
      .ready { idx := i, version := r.version, base := some (j, b.version, m.base) } else .mismatch i := by
  simp only [resolvePosition, h, hm, hs, hd, hb, hn, Bool.not_true, Bool.false_eq_true, if_false]
  by_cases fits : n.derived = false ∧ sameGeometry n m = true
  · rw [if_neg (by simp [fits]), if_pos ⟨fits.1, (sameGeometry_iff n m).mp fits.2⟩]
  · rw [if_pos, if_neg (fun g => fits ⟨g.1, (sameGeometry_iff n m).mpr g.2⟩)]
    rw [not_and_or, Bool.not_eq_false, Bool.not_eq_true] at fits
    simpa using fits

/-- The record that a mismatch names stands in the directory. -/
theorem resolve_mismatch (h : resolvePosition dir key sep = .mismatch i) : ∃ r, (i, r) ∈ dir := by
  unfold resolvePosition at h
  cases hc : completeOf dir key with
  | none => simp [hc] at h
  | some e =>
    have named : e.1 = i := by
      rw [hc] at h
      dsimp only at h
      split at h
      · cases h
      · split at h
        · cases h
        · split at h
          · cases h
          · split at h
            · cases h
            · split at h
              · cases h
              · split at h
                · injection h
                · cases h
    exact ⟨e.2, named ▸ (completeRecord_of_completeOf hc).1⟩

end

/-! ### The positions of an order (R71) -/

section
variable {dir : List (Nat × PageRecord)} {sep first : Nat} {ps : List Position}

theorem resolveAll_ok {snap : List PosSnap} (h : ps.map (fun p => resolvePosition dir p.key sep) = snap.map Resolved.ready) :
    resolveAll dir sep first ps = .ok snap := by
  induction ps generalizing snap first with
  | nil =>
    obtain rfl : snap = [] := by simpa using h.symm
    rfl
  | cons p ps ih =>
    cases snap with
    | nil => simp at h
    | cons s snap =>
      obtain ⟨hp, hs⟩ := List.cons.inj h
      simp only [resolveAll, hp, ih (first := first + 1) hs]
      rfl

/-- Behind positions that are ready the next one decides. -/
theorem resolveAll_append {a b : List Position} {x : SnapAnswer × Option Nat}
    (ha : ∀ p ∈ a, ∃ y, resolvePosition dir p.key sep = .ready y) (hb : resolveAll dir sep (first + a.length) b = .error x) :
    resolveAll dir sep first (a ++ b) = .error x := by
  induction a generalizing first with
  | nil => exact hb
  | cons p a ih =>
    obtain ⟨y, hy⟩ := ha p List.mem_cons_self
    have rest : resolveAll dir sep (first + 1) (a ++ b) = .error x := by
      refine ih (fun q hq => ha q (List.mem_cons_of_mem _ hq)) ?_
      rwa [List.length_cons, Nat.add_comm a.length, ← Nat.add_assoc] at hb
    simp only [List.cons_append, resolveAll, hy, rest]
    rfl

/-- The record that BASE gives to flag stands in the directory. -/
theorem resolveAll_flags {answer : SnapAnswer} {i : Nat} (h : resolveAll dir sep first ps = .error (answer, some i)) :
    ∃ r, (i, r) ∈ dir := by
  induction ps generalizing first with
  | nil => cases h
  | cons p ps ih =>
    unfold resolveAll at h
    split at h
    · cases h
    · cases h
    · next j hj =>
      cases h
      exact resolve_mismatch hj
    · next s hs =>
      cases hr : resolveAll dir sep (first + 1) ps with
      | error x =>
        rw [hr] at h
        cases h
        exact ih hr
      | ok l =>
        rw [hr] at h
        cases h

end

theorem resolveAll_unpinned {x : SnapAnswer × Option Nat} (h : resolveAll dir sep first ps = .error x) (snap : List PosSnap) :
    x.1 ≠ .pinned snap := by
  induction ps generalizing first with
  | nil => cases h
  | cons p ps ih =>
    unfold resolveAll at h
    split at h
    · cases h
      exact nofun
    · cases h
      exact nofun
    · cases h
      exact nofun
    · cases hr : resolveAll dir sep (first + 1) ps with
      | error y =>
        rw [hr] at h
        cases h
        exact ih hr
      | ok l =>
        rw [hr] at h
        cases h

/-! ### The tables of an order (R96 (2)) -/

theorem renderFault_eq (k : Chip) (curve set sep : Nat) : renderFault k curve set sep =
    if (k.curve curve).valid = false then some ⟨.curve, curve⟩
    else if (k.screenSet set).valid = false then some ⟨.screenSet, set⟩
    else if (k.screen (k.screenOf set sep)).valid = false then some ⟨.screen, k.screenOf set sep⟩
    else none := by simp only [renderFault, Bool.not_eq_true']

theorem profileFault_eq (k : Chip) (i : Nat) : profileFault k i =
    if (k.profile i).valid = false then some ⟨.profile, i⟩ else if k.tl.power.valid = false then some ⟨.power, 0⟩ else none := by
  simp only [profileFault, Bool.not_eq_true']

theorem selectionFault_eq (k : Chip) (o : Order) :
    selectionFault k o =
      if (k.curve o.curve).valid = false then some ⟨.curve, o.curve⟩
      else if (k.screenSet o.screenSet).valid = false then some ⟨.screenSet, o.screenSet⟩
      else if (k.screen (k.screenOf o.screenSet o.sep)).valid = false then some ⟨.screen, k.screenOf o.screenSet o.sep⟩
      else if (k.profile o.profile).valid = false then some ⟨.profile, o.profile⟩
      else if k.tl.power.valid = false then some ⟨.power, 0⟩
      else none := by
  rw [selectionFault, renderFault_eq, profileFault_eq]
  by_cases curve : (k.curve o.curve).valid = false
  · simp only [if_pos curve]
  by_cases set : (k.screenSet o.screenSet).valid = false
  · simp only [if_neg curve, if_pos set]
  by_cases screen : (k.screen (k.screenOf o.screenSet o.sep)).valid = false
  · simp only [if_neg curve, if_neg set, if_pos screen]
  · simp only [if_neg curve, if_neg set, if_neg screen]

end Sys2Proof.Machine
end

