-- ==== Sys2Proof/Proofs/Selecting.lean ====
section
/-! SUPPORT. What the selection of a plate plans, by IU's answer, and what it comes to (R71, R72, R95, R96, R154; O46). -/

namespace Sys2Proof.Machine

/-! ### Whether PSC selects (R95) -/

/-- The conditions of R95, but for a PSC that has finished its input. -/
def Chip.selects (k : Chip) : Prop :=
  k.pd.runState = .running ∧ (∀ e ∈ k.psc.plates, e.2.state ≠ .preparing) ∧ k.imc.state ≠ .paused ∧ k.psc.ready ≠ []

theorem maySelect_iff (k : Chip) : maySelect k = true ↔ pscFree k = true ∧ k.pd.runState = .running ∧
    (∀ e ∈ k.psc.plates, e.2.state ≠ .preparing) ∧ k.imc.state ≠ .paused := by
  simp [maySelect, anyPreparing, and_assoc]

theorem selection_idle {k : Chip} (h : ¬k.selects ∨ pscFree k = false) : selection k = k := by
  by_cases hm : maySelect k = true
  · obtain ⟨free, running, noneIn, unpaused⟩ := (maySelect_iff k).mp hm
    have empty : k.psc.ready = [] := by
      by_contra hr
      exact h.elim (fun h => h ⟨running, noneIn, unpaused, hr⟩) (fun h => absurd (free.symm.trans h) (by decide))
    simp only [selection, hm, if_true, empty]
  · exact if_neg hm

/-- The chip from which a plate is selected: its slot has left the ready list. -/
def Chip.selecting (k : Chip) (rest : List Nat) : Chip := k.setPsc { k.psc with ready := rest }

/-- A PSC that selects the plate at the head of the ready list. -/
structure Chip.selectsHead (k : Chip) (slot : Nat) (rest : List Nat) (p : Plate) : Prop where
  selects : k.selects
  ready : k.pscReady
  head : k.psc.ready = slot :: rest
  plate : k.plate slot = some p

section
variable {k y t : Chip} {slot : Nat} {rest : List Nat} {p q : Plate} {l : List PscStep}

theorem selectsHead_free (h : k.selectsHead slot rest p) : pscBlocked k = false := not_blocked_of_free h.ready.1

theorem selectsHead_due (h : k.selectsHead slot rest p) : k.psc.due = [] := by
  obtain ⟨-, -, -, -, -, due⟩ := (pscFree_iff k).mp h.ready.1
  exact due

theorem selectsHead_state (h : k.selectsHead slot rest p) : p.state = .ready := by
  obtain ⟨-, -, -, -, -, -, listed, -⟩ := h.ready
  obtain ⟨x, hx, state⟩ := listed slot (h.head ▸ List.mem_cons_self)
  cases hx.symm.trans h.plate
  exact state

theorem selectsHead_absent (h : k.selectsHead slot rest p) : slot ∉ rest := by
  obtain ⟨-, -, -, -, -, nodup, -⟩ := h.ready
  rw [h.head] at nodup
  exact (List.nodup_cons.mp nodup).1

theorem selection_eq (h : k.selectsHead slot rest p) :
    selection k = pscTake (fun k => selectPlate slot p (k.selecting rest)) k := by
  have may : maySelect k = true := (maySelect_iff k).mpr ⟨h.ready.1, h.selects.1, h.selects.2.1, h.selects.2.2.1⟩
  simp only [selection, may, if_true, h.head, h.plate]
  rfl

/-! ### The plan of a selection (R96) -/

theorem selectPlate_attempts (h : p.status = .ended ∧ p.attempt = 15) :
    selectPlate slot p k = (k, [.mark (ownMark slot p.attempt .attempts none 15), .fail slot]) := if_pos h

theorem selectPlate_table {tid : TableId} (h : ¬(p.status = .ended ∧ p.attempt = 15)) (hf : selectionFault k p.order = some tid) :
    selectPlate slot p k = (k, [.mark (ownMark slot p.attempt .table none tid.detail), .fail slot]) := by
  rw [selectPlate, if_neg h, hf]

/-- What IU's answer to the snapshot request leads to. -/
def answerPlan (slot : Nat) (p : Plate) : SnapAnswer → Chip → Plan
  | .pinned snap, k => (enterPreparing slot p snap k, [])
  | .notReady, k => (k, [.waiting slot])
  | .nosep n i v, k => (k, [.mark (nosepMark slot p.attempt n i v (positionKey p n)), .waiting slot])
  | .base n key, k => (k, [.mark (ownMark slot (waitedAttempt p) .base (some key) n), .waiting slot])

theorem selectPlate_asks (h : ¬(p.status = .ended ∧ p.attempt = 15)) (hf : selectionFault k p.order = none) :
    selectPlate slot p k = answerPlan slot p (snapshotRequest p.order.sep p.order.positions k).1
      (snapshotRequest p.order.sep p.order.positions k).2 := by
  rw [selectPlate, if_neg h, hf]
  dsimp only
  split <;> next ha => rw [answerPlan.eq_def, ha]

theorem snapshotRequest_keeps {sep : Nat} {ps : List Position} {a : SnapAnswer} (h : resolveAll k.iu.dir sep 0 ps = .error (a, none)) :
    snapshotRequest sep ps k = (a, k) := by simp only [snapshotRequest, h]

theorem snapshotRequest_flags {sep i : Nat} {ps : List Position} {a : SnapAnswer}
    (h : resolveAll k.iu.dir sep 0 ps = .error (a, some i)) : snapshotRequest sep ps k =
      (a, finishEvent ((IuEvent.start k.iu).flagBase i) none false false k) := by simp only [snapshotRequest, h]

theorem snapshotRequest_answers {sep : Nat} {ps : List Position} {x : SnapAnswer × Option Nat}
    (h : resolveAll k.iu.dir sep 0 ps = .error x) : (snapshotRequest sep ps k).1 = x.1 := by
  obtain ⟨a, flag⟩ := x
  cases flag with
  | none => rw [snapshotRequest_keeps h]
  | some i => rw [snapshotRequest_flags h]

/-- A snapshot request changes IU and its waiting transfers alone. -/
theorem snapshotRequest_spec (sep : Nat) (ps : List Position) (k : Chip) : ∃ iu ws,
    (snapshotRequest sep ps k).2 = { k with iu := iu, sp := { k.sp with iu := ws } } := by
  unfold snapshotRequest
  split
  · obtain ⟨ws, -, e⟩ := finishEvent_spec ((pinnedRecords _).foldl IuEvent.pin (IuEvent.start k.iu)) none false false k
    exact ⟨_, _, e⟩
  · obtain ⟨ws, -, e⟩ := finishEvent_spec ((IuEvent.start k.iu).flagBase _) none false false k
    exact ⟨_, _, e⟩
  · exact ⟨_, _, rfl⟩

/-! ### The BASE flag (R72) -/

theorem tblGet_of_entry {α : Type} {l : List (Nat × α)} {i : Nat} {x : α} (h : (i, x) ∈ l) : ∃ y, tblGet l i = some y := by
  induction l with
  | nil => cases h
  | cons e l ih =>
    obtain ⟨j, v⟩ := e
    rw [tblGet]
    split
    · exact ⟨v, rfl⟩
    · next hj =>
      rcases List.mem_cons.mp h with h | h
      · cases h
        exact absurd rfl hj
      · exact ih h

/-- The record flagged is DAMAGED, or stays SUPERSEDED. -/
theorem flagged_state (r : PageRecord) : ({ r with baseFlag := true }.evaluated).baseFlag = true ∧
    (({ r with baseFlag := true }.evaluated).state = .damaged ∨ ({ r with baseFlag := true }.evaluated).state = .superseded) := by
  unfold PageRecord.evaluated
  split
  · next h => exact ⟨rfl, .inr h⟩
  · exact ⟨rfl, .inl (if_pos (Bool.or_true _))⟩

theorem flagBase_flags {e : IuEvent} {i : Nat} {r : PageRecord} (h : tblGet e.u.dir i = some r) :
    ∃ x, tblGet (e.flagBase i).u.dir i = some x ∧ x.baseFlag = true ∧ (x.state = .damaged ∨ x.state = .superseded) := by
  have put : e.flagBase i = e.putMarked i ⟨{ r with baseFlag := true }.evaluated, true⟩ := by simp only [IuEvent.flagBase, h]
  rw [put]
  exact ⟨_, tblGet_tblPut_self _ _ _, flagged_state r⟩

theorem snapshotRequest_base {sep i : Nat} {ps : List Position} {a : SnapAnswer}
    (h : resolveAll k.iu.dir sep 0 ps = .error (a, some i)) : ∃ x, tblGet (snapshotRequest sep ps k).2.iu.dir i = some x ∧
      x.baseFlag = true ∧ (x.state = .damaged ∨ x.state = .superseded) := by
  obtain ⟨r, hr⟩ := resolveAll_flags h
  obtain ⟨x, hx⟩ := tblGet_of_entry hr
  rw [snapshotRequest_flags h, finishEvent_dir]
  exact flagBase_flags hx

/-! ### Where a selection leaves PSC -/

/-- From `k` to `t` a selection has taken the slot's plate, which stands as `q` now, off the ready list. -/
structure Chip.selectedTo (k t : Chip) (slot : Nat) (rest : List Nat) (q : Plate) : Prop where
  regs : t.regs = k.regs
  pd : t.pd = k.pd
  tl : t.tl = k.tl
  others : ∀ n, n ≠ slot → t.plate n = k.plate n
  own : t.plate slot = some q
  ready : t.psc.ready = rest

/-- From `k` to `y` a selection has asked IU: the plate is as it was, and nothing of PSC but the ready list has changed. -/
structure Chip.picked (k y : Chip) (slot : Nat) (rest : List Nat) (p : Plate) : Prop where
  concerns : k.concerns y slot
  own : y.plate slot = some p
  ready : y.psc.ready = rest
  dmr : y.dmr = k.dmr
  exposed : ∀ attempt, aluminiumExposed y slot attempt = aluminiumExposed k slot attempt

theorem picked_selecting (h : k.selectsHead slot rest p) : k.picked (k.selecting rest) slot rest p :=
  ⟨⟨rfl, rfl, rfl, rfl, rfl, fun _ _ => rfl⟩, h.plate, rfl, rfl, fun _ => rfl⟩

theorem picked_asked (h : k.selectsHead slot rest p) (sep : Nat) (ps : List Position) :
    k.picked (snapshotRequest sep ps (k.selecting rest)).2 slot rest p := by
  obtain ⟨iu, ws, e⟩ := snapshotRequest_spec sep ps (k.selecting rest)
  rw [e]
  exact ⟨⟨rfl, rfl, rfl, rfl, rfl, fun _ _ => rfl⟩, h.plate, rfl, rfl, fun _ => rfl⟩

/-- A selection that stops at its mark. -/
theorem select_marks {m : MarkReport} (h : k.selectsHead slot rest p) (hp : selectPlate slot p (k.selecting rest) = (y, .mark m :: l))
    (hy : k.picked y slot rest p) (hm : m.slot = slot) (hs : suppressed (y.marks m.slot) m = false) :
    selection k = setWork (l ++ [.publish k.psc.plates]) (y.ownMarked m) ∧ k.selectedTo (selection k) slot rest p := by
  have run : selection k = setWork (l ++ [.publish k.psc.plates]) (y.ownMarked m) :=
    (selection_eq h).trans (pscTake_marks hp (hy.concerns.free.trans (selectsHead_free h)) (hm ▸ hy.own) hs)
  refine ⟨run, ?_⟩
  rw [run]
  exact ⟨hy.concerns.regs, hy.concerns.pd, hy.concerns.tl, hy.concerns.others, hy.own, hy.ready⟩

/-- A plate that enters WAITING takes its slot off the ready list; one that is not on it leaves the list as it is. -/
theorem enterWaiting_absent (hp : k.plate slot = some p) (h : slot ∉ k.psc.ready) : (enterWaiting slot k).psc.ready = k.psc.ready := by
  have off : (leaveReady slot k).psc.ready = k.psc.ready :=
    List.filter_eq_self.mpr (fun n hn => decide_eq_true (fun e => h (e ▸ hn)))
  by_cases hl : Plate.lateDue { p with state := .waiting } k k.regs.plantClock
  · rw [enterWaiting_late hp hl]
    exact off
  · rw [enterWaiting_early hp hl]
    exact off

/-- A selection that ends with the plate in WAITING. -/
theorem select_waits (h : k.selectsHead slot rest p) (hs : selection k = pscTake (fun _ => (y, [.waiting slot])) k)
    (hy : k.picked y slot rest p) : y.endsInput (enterWaiting slot y) (selection k) slot ∧ y.nowWaiting (enterWaiting slot y) slot p ∧
      ∃ q, k.selectedTo (selection k) slot rest q := by
  have live : p.state.live = true := by rw [selectsHead_state h]; rfl
  have free : pscBlocked y = false := hy.concerns.free.trans (selectsHead_free h)
  have judged := enterWaiting_judged slot y
  have step : runSteps [.waiting slot, .publish k.psc.plates] y = runSteps [.publish k.psc.plates] (enterWaiting slot y) := by
    rw [runSteps_cons _ _ _ free]
    simp only [doStep, whileLive, hy.own, live, if_true]
  have finished : (enterWaiting slot y).finished (runSteps [.waiting slot, .publish k.psc.plates] y) k.psc.plates := by
    rw [step]
    cases hw : pscBlocked (enterWaiting slot y) with
    | false => exact runSteps_publish _ hw
    | true => exact .inl ⟨(pscBlocked_judged judged free).symm.trans hw, _, by simp, runSteps_blocked _ _ hw⟩
  have E : y.endsInput (enterWaiting slot y) (selection k) slot := by
    rw [hs]
    exact pscTake_ends rfl (hy.concerns.due.trans (selectsHead_due h)) judged finished
  obtain ⟨_, _, _, _, now⟩ := judged_plate judged hy.own
  have running : y.pd.runState ≠ .stopping := by
    rw [hy.concerns.pd, h.selects.1]
    decide
  have absent : slot ∉ y.psc.ready := hy.ready ▸ selectsHead_absent h
  exact ⟨E, enterWaiting_stands free hy.own, _, E.regs.trans hy.concerns.regs, (E.pd running).trans hy.concerns.pd,
    E.tl.trans hy.concerns.tl, fun n hn => (E.others n hn).trans (hy.concerns.others n hn), (E.plate slot).trans now,
    E.ready.trans ((enterWaiting_absent hy.own absent).trans hy.ready)⟩

/-- A mark that DMR does not record holds no selection up (R195). -/
theorem select_suppressed {m : MarkReport} (h : k.selectsHead slot rest p)
    (hp : selectPlate slot p (k.selecting rest) = (y, [.mark m, .waiting slot])) (hy : k.picked y slot rest p)
    (hs : suppressed (y.marks m.slot) m = true) : selection k = pscTake (fun _ => (y, [.waiting slot])) k := by
  have step : runSteps [.mark m, .waiting slot, .publish k.psc.plates] y = runSteps [.waiting slot, .publish k.psc.plates] y := by
    rw [runSteps_cons _ _ _ (hy.concerns.free.trans (selectsHead_free h)), doStep, pscMark, recordMark_suppressed hs]
  rw [selection_eq h, pscTake, beginInput, hp]
  exact congrArg pscGo step

/-- A selection whose plan marks the plate and leads it to WAITING. -/
theorem select_marks_or_waits {m : MarkReport} (h : k.selectsHead slot rest p)
    (hp : selectPlate slot p (k.selecting rest) = (y, [.mark m, .waiting slot])) (hy : k.picked y slot rest p) (hm : m.slot = slot) :
    ∃ q, k.selectedTo (selection k) slot rest q := by
  cases hs : suppressed (y.marks m.slot) m with
  | false => exact ⟨p, (select_marks h hp hy hm hs).2⟩
  | true =>
    obtain ⟨-, -, selected⟩ := select_waits h (select_suppressed h hp hy hs) hy
    exact selected

end

end Sys2Proof.Machine
end

