-- ==== Sys2Proof/Proofs/Selected.lean ====
section
/-! SUPPORT. The plate that enters PREPARING, and the statement on selections as a whole (R71, R93, R96, R154; O46). -/

namespace Sys2Proof.Machine

/-! ### A plate handed to IMC (R154) -/

section
variable {k : Chip} {p : PlateRef}

theorem takeUp_paused (h : k.imc.pauses.any = true) : takeUp k = k := by
  unfold takeUp
  split
  · rfl
  · exact if_pos h

theorem goTo_loading (k : Chip) : (goTo .loading k).imc = { k.imc with state := .loading, drumTarget := 0 } ∧
    (goTo .loading k).hlc = k.hlc := by
  simp [goTo, setTarget, darken, Chip.setHf, Chip.setImc]

/-- With the drum free a LOAD is asked for. -/
theorem takeUp_loads (hw : k.imc.waiting = some p) (hp : k.imc.pauses.any = false) (hd : k.imc.drum = none) (hl : k.imc.load = none) :
    (takeUp k).imc.state = .loading ∧ (takeUp k).imc.waiting = none ∧
      (takeUp k).imc.load = some { format := p.format, plate := some p } ∧
      (takeUp k).hlc.loader.queue = k.hlc.loader.queue ++
        [{ kind := .load (k.format p.format).cassette, slot := some p.slot, attempt := p.attempt, seq := 0 }] := by
  have up : takeUp k = queueRequest .loader
      { kind := .load (k.format p.format).cassette, slot := some p.slot, attempt := p.attempt, seq := 0 }
      (goTo .loading ((setWaitingPlate none k).setImc
        { k.imc with waiting := none, load := some { format := p.format, plate := some p } })) := by
    simp [takeUp, hw, hp, hd, hl]
  obtain ⟨imc, hlc⟩ := goTo_loading ((setWaitingPlate none k).setImc
    { k.imc with waiting := none, load := some { format := p.format, plate := some p } })
  have imc' : (takeUp k).imc = _ := (congrArg Chip.imc up).trans imc
  rw [imc', up]
  refine ⟨rfl, rfl, rfl, ?_⟩
  show (goTo _ _).hlc.loader.queue ++ _ = _
  rw [hlc]
  rfl

end

/-! ### Entry to PREPARING (R93 (1), R96 (4)) -/

section
variable {k t u : Chip} {slot : Nat} {rest : List Nat} {p : Plate} {snap : List PosSnap}

/-- The plate in PREPARING with its snapshot. -/
def Plate.preparing (p : Plate) (snap : List PosSnap) (ordinal : Nat) : Plate :=
  { p.openAttempt with
    state := .preparing, snapshot := snap, snapNo := (p.snapNo + 1) % 256, prepNo := (p.prepNo + 1) % 256, pinsHeld := true
    prepOrdinal := ordinal }

/-- The plate as IMC is handed it. -/
def Plate.refOf (q : Plate) (slot : Nat) : PlateRef :=
  { slot := slot, attempt := q.attempt, prep := q.prepNo, format := q.order.format, profile := q.order.profile }

/-- The chip whose plate is PREPARING, with its render entry behind the others, before IMC takes the plate. -/
def Chip.prepared (k : Chip) (slot : Nat) (q : Plate) : Chip :=
  setWaitingPlate (some (q.refOf slot)) (joinRender (renderEntryOf
    (setPlate slot q (k.setPsc { k.psc with ordinal := k.psc.ordinal + 1 })) slot q)
    (setPlate slot q (k.setPsc { k.psc with ordinal := k.psc.ordinal + 1 })))

theorem enterPreparing_eq (slot : Nat) (p : Plate) (snap : List PosSnap) (k : Chip) :
    enterPreparing slot p snap k = takeUp (k.prepared slot (p.preparing snap (k.psc.ordinal + 1))) := rfl

/-- What IMC's taking the plate up leaves of the entry to PREPARING. -/
theorem enterPreparing_keeps (slot : Nat) (p : Plate) (snap : List PosSnap) (k : Chip) :
    k.concerns (enterPreparing slot p snap k) slot ∧
      (enterPreparing slot p snap k).plate slot = some (p.preparing snap (k.psc.ordinal + 1)) ∧
      (enterPreparing slot p snap k).psc.ready = k.psc.ready ∧ (enterPreparing slot p snap k).iu = k.iu ∧
      (enterPreparing slot p snap k).sp = k.sp ∧
      (enterPreparing slot p snap k).br.order = (k.prepared slot (p.preparing snap (k.psc.ordinal + 1))).br.order := by
  obtain ⟨imc, dtu, hf, buffers, loader, inbox, e, -⟩ := worded_takeUp (k.prepared slot (p.preparing snap (k.psc.ordinal + 1)))
  rw [enterPreparing_eq, e]
  exact ⟨⟨rfl, rfl, rfl, rfl, rfl, fun n hn => setPlate_ne slot n _ (k.setPsc { k.psc with ordinal := k.psc.ordinal + 1 }) hn⟩,
    setPlate_self slot _ (k.setPsc { k.psc with ordinal := k.psc.ordinal + 1 }), rfl, rfl, rfl, rfl⟩

theorem intakeWrites_congr {founded : Option Nat} {ws : List Transfer} (h : k.intakeWrites t founded ws) (hu : u.iu = t.iu) :
    k.intakeWrites u founded ws := by
  simp only [Chip.intakeWrites, hu] at *
  exact h

/-- The selection of a plate whose positions are all resolved, with what the rules say of it. -/
theorem select_prepares (h : k.selectsHead slot rest p) (ha : ¬(p.status = .ended ∧ p.attempt = 15))
    (hf : selectionFault k p.order = none) (hs : resolveAll k.iu.dir p.order.sep 0 p.order.positions = .ok snap) :
    k.selectedTo (selection k) slot rest (p.preparing snap (k.psc.ordinal + 1)) ∧
      pinnedBy snap k.iu.dir (selection k).iu.dir ∧
      (∃ ws, (selection k).sp.iu = k.sp.iu ++ ws ∧ k.intakeWrites (selection k) none ws) ∧
      ∃ z : Chip, z.imc = k.imc ∧ z.hlc = k.hlc ∧ z.pd = k.pd ∧ z.br = k.br ∧
        (selection k).br.order = (z.prepared slot (p.preparing snap (k.psc.ordinal + 1))).br.order ∧
        (selection k).imc = (takeUp (z.prepared slot (p.preparing snap (k.psc.ordinal + 1)))).imc ∧
        (selection k).hlc = (takeUp (z.prepared slot (p.preparing snap (k.psc.ordinal + 1)))).hlc := by
  obtain ⟨answer, pins⟩ := snapshotRequest_pins p.order.sep p.order.positions (k.selecting rest) snap hs
  obtain ⟨ws, sp, writes⟩ := snapshotRequest_writes p.order.sep p.order.positions (k.selecting rest) snap hs
  have plan := selectPlate_asks (k := k.selecting rest) (slot := slot) ha hf
  obtain ⟨iu, queue, e⟩ := snapshotRequest_spec p.order.sep p.order.positions (k.selecting rest)
  rw [answer] at plan
  generalize (snapshotRequest p.order.sep p.order.positions (k.selecting rest)).2 = z at pins sp writes plan e
  have ordinal : z.psc.ordinal = k.psc.ordinal := by rw [e]; rfl
  obtain ⟨C, own, ready, hiu, hsp, order⟩ := enterPreparing_keeps slot p snap z
  have free : pscBlocked z = pscBlocked k := by rw [e]; rfl
  have due : z.psc.due = k.psc.due := by rw [e]; rfl
  have E : (enterPreparing slot p snap z).endsInput (enterPreparing slot p snap z) (selection k) slot := by
    rw [selection_eq h]
    exact pscTake_at_once (plan := fun k => selectPlate slot p (k.selecting rest)) slot plan (C.due.trans (due.trans (selectsHead_due h)))
      (C.free.trans (free.trans (selectsHead_free h)))
  have running : (enterPreparing slot p snap z).pd.runState ≠ .stopping := by
    rw [C.pd, e, show (k.selecting rest).pd.runState = .running from h.selects.1]
    decide
  rw [ordinal] at own order
  have base : z.regs = k.regs ∧ z.pd = k.pd ∧ z.tl = k.tl ∧ z.psc.plates = k.psc.plates ∧ z.psc.ready = rest ∧ z.imc = k.imc ∧
      z.hlc = k.hlc ∧ z.br = k.br := by
    rw [e]
    exact ⟨rfl, rfl, rfl, rfl, rfl, rfl, rfl, rfl⟩
  obtain ⟨hregs, hpd, htl, hplates, hready, himc, hhlc, hbr⟩ := base
  have taken : enterPreparing slot p snap z = takeUp (z.prepared slot (p.preparing snap (k.psc.ordinal + 1))) := by
    rw [enterPreparing_eq, ordinal]
  refine ⟨⟨E.regs.trans (C.regs.trans hregs), (E.pd running).trans (C.pd.trans hpd), E.tl.trans (C.tl.trans htl), fun n hn => ?_,
    (E.plate slot).trans own, E.ready.trans (ready.trans hready)⟩, ?_, ⟨ws, ?_, ?_⟩, z, himc, hhlc, hpd, hbr, ?_, ?_, ?_⟩
  · rw [E.others n hn, C.others n hn, Chip.plate, hplates, Chip.plate]
  · rw [E.iu, hiu]
    exact pins
  · rw [E.iuWaiting, hsp, sp]
    rfl
  · exact intakeWrites_congr (k := k) (t := z) writes (E.iu.trans hiu)
  · rw [E.br, order]
  · rw [E.imc, taken]
  · rw [E.hlc, taken]

end

/-! ### The statement's parts -/

section
variable {k : Chip} {slot : Nat} {rest : List Nat} {p : Plate}

/-- A plate that cannot be selected: it waits with its FAIL mark (R96 (1), (2)). -/
theorem select_fails {kind : MarkKind} {detail : Nat} (h : k.selectsHead slot rest p)
    (hp : selectPlate slot p (k.selecting rest) = (k.selecting rest, [.mark (ownMark slot p.attempt kind none detail), .fail slot]))
    (hk : kind = .attempts ∨ kind = .table) :
    k.selectedTo (selection k) slot rest p ∧ k.pscMarked (selection k) slot kind .fail p.attempt none detail ∧
      (selection k).psc.work = [.fail slot, .publish k.psc.plates] ∧ (selection k).iu = k.iu ∧ (selection k).br = k.br ∧
      (selection k).imc = k.imc := by
  have hs : suppressed ((k.selecting rest).marks slot) (ownMark slot p.attempt kind none detail) = false := by
    rcases hk with rfl | rfl <;> exact not_suppressed nofun nofun
  have severity : severityOf (k.selecting rest) kind slot p.attempt = .fail ∧ kind.charged = false := by
    rcases hk with rfl | rfl <;> exact ⟨rfl, rfl⟩
  obtain ⟨run, selected⟩ := select_marks h hp (picked_selecting h) rfl hs
  refine ⟨selected, ?_⟩
  rw [run]
  exact ⟨ownMarked_pscMarked _ rfl severity.1 nofun severity.2 rfl, rfl, rfl, rfl, rfl⟩

/-- A position unresolved: the plate goes back to WAITING. -/
theorem select_unready (h : k.selectsHead slot rest p) (ha : ¬(p.status = .ended ∧ p.attempt = 15))
    (hf : selectionFault k p.order = none) (hr : resolveAll k.iu.dir p.order.sep 0 p.order.positions = .error (.notReady, none)) :
    (k.selecting rest).endsInput (enterWaiting slot (k.selecting rest)) (selection k) slot ∧
      (k.selecting rest).nowWaiting (enterWaiting slot (k.selecting rest)) slot p ∧ ∃ q, k.selectedTo (selection k) slot rest q := by
  have plan : selectPlate slot p (k.selecting rest) = (k.selecting rest, [.waiting slot]) := by
    rw [selectPlate_asks (k := k.selecting rest) ha hf, snapshotRequest_keeps (k := k.selecting rest) hr]
    rfl
  refine select_waits h ?_ (picked_selecting h)
  rw [selection_eq h, pscTake, beginInput, plan]
  rfl

theorem plan_nosep {n i v : Nat} (ha : ¬(p.status = .ended ∧ p.attempt = 15)) (hf : selectionFault k p.order = none)
    (hr : resolveAll k.iu.dir p.order.sep 0 p.order.positions = .error (.nosep n i v, none)) :
    selectPlate slot p (k.selecting rest) =
      (k.selecting rest, [.mark (nosepMark slot p.attempt n i v (positionKey p n)), .waiting slot]) := by
  rw [selectPlate_asks (k := k.selecting rest) ha hf, snapshotRequest_keeps (k := k.selecting rest) hr]
  rfl

/-- A NOSEP that is not remembered for its position is recorded (R195). -/
theorem nosep_recorded {sm : SlotMarks} {attempt n i v : Nat} {key : PageKey}
    (h : (if n = 0 then sm.nosep0 else sm.nosep1) ≠ some (i, v)) : suppressed sm (nosepMark slot attempt n i v key) = false := by
  cases n with
  | zero => simpa [suppressed, nosepMark] using h
  | succ n => simpa [suppressed, nosepMark] using h

theorem select_nosep {n i v : Nat} {pos : Position} (h : k.selectsHead slot rest p) (ha : ¬(p.status = .ended ∧ p.attempt = 15))
    (hf : selectionFault k p.order = none)
    (hr : resolveAll k.iu.dir p.order.sep 0 p.order.positions = .error (.nosep n i v, none)) (hpos : p.order.positions[n]? = some pos)
    (hm : (if n = 0 then (k.marks slot).nosep0 else (k.marks slot).nosep1) ≠ some (i, v)) :
    k.selectedTo (selection k) slot rest p ∧ (selection k).iu = k.iu ∧
      (selection k).psc.work = [.waiting slot, .publish k.psc.plates] ∧
      k.pscMarked (selection k) slot .nosep .note p.attempt (some pos.key) (v * 65536 + n * 32768 + i) := by
  have key : positionKey p n = pos.key := by simp [positionKey, hpos]
  have plan := plan_nosep (slot := slot) (rest := rest) ha hf hr
  rw [key] at plan
  obtain ⟨run, selected⟩ := select_marks h plan (picked_selecting h) rfl (nosep_recorded hm)
  refine ⟨selected, ?_⟩
  rw [run]
  exact ⟨rfl, rfl, ownMarked_pscMarked _ rfl (severityOf_note rfl _ _) nofun rfl rfl⟩

theorem plan_base {n i : Nat} {key : PageKey} (ha : ¬(p.status = .ended ∧ p.attempt = 15)) (hf : selectionFault k p.order = none)
    (hr : resolveAll k.iu.dir p.order.sep 0 p.order.positions = .error (.base n key, some i)) :
    selectPlate slot p (k.selecting rest) = ((snapshotRequest p.order.sep p.order.positions (k.selecting rest)).2,
      [.mark (ownMark slot (waitedAttempt p) .base (some key) n), .waiting slot]) := by
  rw [selectPlate_asks (k := k.selecting rest) ha hf, snapshotRequest_flags (k := k.selecting rest) hr]
  rfl

theorem select_base {n i : Nat} {key : PageKey} (h : k.selectsHead slot rest p) (ha : ¬(p.status = .ended ∧ p.attempt = 15))
    (hf : selectionFault k p.order = none)
    (hr : resolveAll k.iu.dir p.order.sep 0 p.order.positions = .error (.base n key, some i))
    (hx : aluminiumExposed k slot (waitedAttempt p) = false) :
    k.selectedTo (selection k) slot rest p ∧ (selection k).psc.work = [.waiting slot, .publish k.psc.plates] ∧
      (∃ r, tblGet (selection k).iu.dir i = some r ∧ r.baseFlag = true ∧ (r.state = .damaged ∨ r.state = .superseded)) ∧
      k.pscMarked (selection k) slot .base .hold (waitedAttempt p) (some key) n := by
  have flagged := snapshotRequest_base (k := k.selecting rest) hr
  have picked := picked_asked h p.order.sep p.order.positions
  have severity : severityOf (snapshotRequest p.order.sep p.order.positions (k.selecting rest)).2 .base slot (waitedAttempt p) =
      .hold := by
    rw [severityOf, picked.exposed, hx]
    rfl
  obtain ⟨run, selected⟩ := select_marks h (plan_base ha hf hr) picked rfl (not_suppressed nofun nofun)
  refine ⟨selected, ?_⟩
  rw [run]
  exact ⟨rfl, flagged, ownMarked_pscMarked _ picked.dmr severity nofun rfl rfl⟩

/-- Whatever IU answers, the selection takes the slot off the ready list, and concerns no other plate. -/
theorem selection_selects (h : k.selectsHead slot rest p) : ∃ q, k.selectedTo (selection k) slot rest q := by
  by_cases ha : p.status = .ended ∧ p.attempt = 15
  · exact ⟨p, (select_fails h (selectPlate_attempts ha) (.inl rfl)).1⟩
  cases hf : selectionFault k p.order with
  | some tid => exact ⟨p, (select_fails h (selectPlate_table (k := k.selecting rest) ha hf) (.inr rfl)).1⟩
  | none =>
    cases hr : resolveAll k.iu.dir p.order.sep 0 p.order.positions with
    | ok snap => exact ⟨_, (select_prepares h ha hf hr).1⟩
    | error x =>
      have plan := selectPlate_asks (k := k.selecting rest) (slot := slot) ha hf
      rw [snapshotRequest_answers (k := k.selecting rest) hr] at plan
      have picked := picked_asked h p.order.sep p.order.positions
      generalize (snapshotRequest p.order.sep p.order.positions (k.selecting rest)).2 = y at plan picked
      obtain ⟨answer, flag⟩ := x
      cases answer with
      | pinned snap => exact absurd rfl (resolveAll_unpinned hr snap)
      | notReady =>
        obtain ⟨-, -, selected⟩ := select_waits h (by rw [selection_eq h, pscTake, beginInput, plan]; rfl) picked
        exact selected
      | nosep n i v => exact select_marks_or_waits h plan picked rfl
      | base n key => exact select_marks_or_waits h plan picked rfl

end

end Sys2Proof.Machine
end

