-- ==== Sys2Proof/Proofs/Selections.lean ====
section
/-! The statement on selections as a whole (R71, R72, R94, R95, R96, R154; O46). -/

namespace Sys2Proof.Machine

/-! ### A position resolved (R71) -/

section
variable {dir : List (Nat × PageRecord)} {key : PageKey} {sep i j : Nat} {r b : PageRecord} {m n : Manifest}

/-- A base that is not COMPLETE, or is none of equal geometry, decides the answer of a derived record. -/
theorem resolve_derived (one : ∀ q j x l y, completeRecord dir q j x → completeRecord dir q l y → j = l ∧ x = y)
    (hr : completeRecord dir key i r) (hm : r.manifest = some m) (hs : m.seps.getLsbD sep = true) (hd : m.derived = true) :
    ((∀ j b, ¬completeRecord dir m.base j b) → resolvePosition dir key sep = .notComplete) ∧
      ∀ j b n, completeRecord dir m.base j b → b.manifest = some n →
        (n.derived = false → n.rows = m.rows → n.dots = m.dots → n.seps = m.seps →
          resolvePosition dir key sep = .ready { idx := i, version := r.version, base := some (j, b.version, m.base) }) ∧
        (n.derived = true ∨ n.rows ≠ m.rows ∨ n.dots ≠ m.dots ∨ n.seps ≠ m.seps →
          resolvePosition dir key sep = .mismatch i) := by
  have found := completeOf_unique hr (one key)
  refine ⟨fun none => resolve_baseless found hm hs hd (completeOf_none none), fun j b n hb hn => ?_⟩
  rw [resolve_based found hm hs hd (completeOf_unique hb (one m.base)) hn]
  refine ⟨fun full rows dots seps => if_pos ⟨full, rows, dots, seps⟩, fun differs => if_neg ?_⟩
  rintro ⟨full, rows, dots, seps⟩
  simp [full, rows, dots, seps] at differs

end

/-! ### The first position that is not ready (R71) -/

section
variable {dir : List (Nat × PageRecord)} {sep first : Nat} {a b : List Position} {p : Position}

theorem resolveAll_first (ha : ∀ x ∈ a, ∃ y, resolvePosition dir x.key sep = .ready y) :
    (resolvePosition dir p.key sep = .notComplete → resolveAll dir sep first (a ++ p :: b) = .error (.notReady, none)) ∧
      (∀ i v, resolvePosition dir p.key sep = .nosep i v →
        resolveAll dir sep first (a ++ p :: b) = .error (.nosep (first + a.length) i v, none)) ∧
      ∀ i, resolvePosition dir p.key sep = .mismatch i →
        resolveAll dir sep first (a ++ p :: b) = .error (.base (first + a.length) p.key, some i) := by
  refine ⟨fun hp => ?_, fun i v hp => ?_, fun i hp => ?_⟩ <;>
    exact resolveAll_append ha (by simp only [resolveAll, hp])

end

/-! ### IMC's part of the entry to PREPARING (R154) -/

section
variable {z k : Chip} {slot : Nat} {q : Plate}

theorem prepared_paused (hi : z.imc = k.imc) (h : k.imc.pauses.any = true) :
    (takeUp (z.prepared slot q)).imc = { k.imc with waiting := some (q.refOf slot) } := by
  rw [← hi] at h ⊢
  rw [takeUp_paused (k := z.prepared slot q) h]
  rfl

theorem prepared_loads (hi : z.imc = k.imc) (hh : z.hlc = k.hlc) (hpd : z.pd = k.pd) (hp : k.imc.pauses.any = false)
    (hd : k.imc.drum = none) (hl : k.imc.load = none) :
    (takeUp (z.prepared slot q)).imc.state = .loading ∧ (takeUp (z.prepared slot q)).imc.waiting = none ∧
      (takeUp (z.prepared slot q)).imc.load = some { format := q.order.format, plate := some (q.refOf slot) } ∧
      (takeUp (z.prepared slot q)).hlc.loader.queue = k.hlc.loader.queue ++
        [{ kind := .load (k.format q.order.format).cassette, slot := some slot, attempt := q.attempt, seq := 0 }] := by
  rw [← hi] at hp hd hl
  have format : z.format q.order.format = k.format q.order.format := by rw [Chip.format, Chip.lay, hpd]; rfl
  rw [← hh, ← format]
  exact takeUp_loads (k := z.prepared slot q) rfl hp hd hl

end

/-! ### What each answer comes to -/

section
variable {k : Chip} {slot : Nat} {rest : List Nat} {p q : Plate}

/-- The plate that a selection leaves in its slot is one. -/
theorem selectedTo_unique {t : Chip} {x : Plate} (hx : k.selectedTo t slot rest x) (hq : t.plate slot = some q) : q = x :=
  Option.some.inj (hq.symm.trans hx.own)

theorem selected_notReady (h : k.selectsHead slot rest p) (ha : ¬(p.status = .ended ∧ p.attempt = 15))
    (hf : selectionFault k p.order = none) (hr : resolveAll k.iu.dir p.order.sep 0 p.order.positions = .error (.notReady, none))
    (hq : (selection k).plate slot = some q) :
    q.state = .waiting ∧ (selection k).iu = k.iu ∧ (selection k).br = k.br ∧ (selection k).imc = k.imc ∧
      (¬Plate.lateDue { p with state := .waiting } k k.regs.plantClock → q = { p with state := .waiting }) ∧
      (Plate.lateDue { p with state := .waiting } k k.regs.plantClock → q = { p with state := .waiting, lateDone := true } ∧
        k.pscMarked (selection k) slot .late .note (waitedAttempt p) none (p.order.deadline - k.lay.lateLead)) := by
  obtain ⟨E, ⟨-, early, late⟩, -⟩ := select_unready h ha hf hr
  have own : ∀ {x}, (enterWaiting slot (k.selecting rest)).plate slot = some x → q = x := fun hx =>
    Option.some.inj (hq.symm.trans ((E.plate slot).trans hx))
  refine ⟨?_, E.iu, E.br, E.imc, fun hl => ?_, fun hl => ?_⟩
  · by_cases hl : Plate.lateDue { p with state := .waiting } k k.regs.plantClock
    · obtain ⟨-, hx, -⟩ := late hl
      rw [own hx]
    · obtain ⟨-, -, hx⟩ := early hl
      rw [own hx]
  · obtain ⟨-, -, hx⟩ := early hl
    exact own hx
  · obtain ⟨-, hx, marked⟩ := late hl
    obtain ⟨_, _, _, _, _, _, step, -⟩ := enterWaiting_judged slot (k.selecting rest)
    have clock : (selection k).regs.plantClock = (enterWaiting slot (k.selecting rest)).regs.plantClock := by
      rw [E.regs, step]
      rfl
    exact ⟨own hx, pscMarked_congr marked rfl E.dmr E.awaiting clock⟩

theorem selected_pinned {snap : List PosSnap} (h : k.selectsHead slot rest p) (ha : ¬(p.status = .ended ∧ p.attempt = 15))
    (hf : selectionFault k p.order = none) (hs : resolveAll k.iu.dir p.order.sep 0 p.order.positions = .ok snap)
    (hq : (selection k).plate slot = some q) :
    q = p.preparing snap (k.psc.ordinal + 1) ∧ pinnedBy snap k.iu.dir (selection k).iu.dir ∧
      (∃ ws, (selection k).sp.iu = k.sp.iu ++ ws ∧ k.intakeWrites (selection k) none ws) ∧
      (∃ e, (selection k).br.order = k.br.order ++ [e] ∧ e.slot = slot ∧ e.attempt = q.attempt ∧ e.snapshot = snap ∧
        e.snapNo = q.snapNo ∧ e.next = 0 ∧ e.begun = false ∧ e.stall = false) ∧
      let ref : PlateRef :=
        { slot := slot, attempt := q.attempt, prep := q.prepNo, format := p.order.format, profile := p.order.profile }
      (k.imc.pauses.any = true → (selection k).imc = { k.imc with waiting := some ref }) ∧
      (k.imc.pauses.any = false → k.imc.drum = none → k.imc.load = none →
        (selection k).imc.state = .loading ∧ (selection k).imc.waiting = none ∧
        (selection k).imc.load = some { format := p.order.format, plate := some ref } ∧
        (selection k).hlc.loader.queue = k.hlc.loader.queue ++
          [{ kind := .load (k.format p.order.format).cassette, slot := some slot, attempt := q.attempt, seq := 0 }]) := by
  obtain ⟨selected, pins, writes, z, himc, hhlc, hpd, hbr, order, imc, hlc⟩ := select_prepares h ha hf hs
  obtain rfl := selectedTo_unique selected hq
  refine ⟨rfl, pins, writes, ?_, fun hp => imc.trans (prepared_paused himc hp), fun hp hd hl => ?_⟩
  · rw [order, ← hbr]
    exact ⟨_, rfl, rfl, rfl, rfl, rfl, rfl, rfl, rfl⟩
  · rw [imc, hlc]
    exact prepared_loads himc hhlc hpd hp hd hl

end

/-- Settles O46. -/
theorem selectionTakesHead : Obligations.SelectionTakesHead := by
  unfold Obligations.SelectionTakesHead
  refine ⟨fun deadline slot l sorted absent => ⟨insertReady_sorted sorted absent, insertReady_perm deadline slot l⟩,
    fun dir key sep => ⟨fun none => resolve_absent (completeOf_none none), fun i r m one hr hm =>
      ⟨resolve_nosep (completeOf_unique hr (one key)) hm, resolve_full (completeOf_unique hr (one key)) hm,
        resolve_derived one hr hm⟩⟩,
    fun dir sep first ps => ⟨fun snap ready => resolveAll_ok ready, fun a p b hps ready => hps ▸ resolveAll_first ready⟩,
    selectionFault_eq, fun s => ⟨fun idle => exec_eq_of_chip (f := selection) rfl (selection_idle idle), ?_⟩⟩
  intro slot rest p selects ready head plate
  have h : s.chip.selectsHead slot rest p := ⟨selects, ready, head, plate⟩
  obtain ⟨q, S⟩ := selection_selects h
  refine ⟨s.setChip (selection s.chip), q, rfl, rfl, S.regs, S.pd, S.tl, S.others, S.own, S.ready, fun ended last => ?_,
    fun ha => ⟨fun tid hf => ?_, fun hf => ⟨fun hr => ?_, fun n i v pos hr hpos hm => ?_, fun n key i hr hx => ?_, fun snap hs => ?_⟩⟩⟩
  · obtain ⟨selected, failed⟩ := select_fails h (selectPlate_attempts ⟨ended, last⟩) (.inl rfl)
    exact ⟨selectedTo_unique selected S.own, last ▸ failed⟩
  · obtain ⟨selected, failed⟩ := select_fails h (selectPlate_table (k := s.chip.selecting rest) ha hf) (.inr rfl)
    exact ⟨selectedTo_unique selected S.own, failed⟩
  · exact selected_notReady h ha hf hr S.own
  · obtain ⟨selected, iu, work, marked⟩ := select_nosep h ha hf hr hpos hm
    exact ⟨selectedTo_unique selected S.own, iu, work, marked⟩
  · obtain ⟨selected, work, flagged, marked⟩ := select_base h ha hf hr hx
    exact ⟨selectedTo_unique selected S.own, work, flagged, marked⟩
  · exact selected_pinned h ha hf hs S.own

end Sys2Proof.Machine
end

