-- ==== Sys2Proof/Proofs/SwathPlans.lean ====
section
/-! SUPPORT. What a swath holds, as the bytes of the shared store say it, and the reads of its entries (R77, R78, R116, R127; O50). -/

namespace Sys2Proof.Machine

/-! ### Fields of the shared store -/

/-- A byte of the store as a number. -/
def Memory.byteAt (m : Memory) (a : Nat) : Nat := (Memory.read m a).toNat

/-- Two bytes of the store, little-endian. -/
def Memory.halfAt (m : Memory) (a : Nat) : Nat := m.byteAt a + 256 * m.byteAt (a + 1)

/-- Four bytes of the store, little-endian. -/
def Memory.wordAt (m : Memory) (a : Nat) : Nat := m.halfAt a + 65536 * m.halfAt (a + 2)

section
variable {m : Memory} {a n i : Nat}

theorem u8_readBytes (h : i < n) : u8 (m.readBytes a n) i = m.byteAt (a + i) := by
  simp [u8, Memory.readBytes, Memory.byteAt, List.getD_eq_getElem?_getD, h]

theorem u16_readBytes (h : i + 1 < n) : u16 (m.readBytes a n) i = m.halfAt (a + i) := by
  rw [u16, u8_readBytes (by omega), u8_readBytes h, Memory.halfAt, Nat.add_assoc]

theorem u32_readBytes (h : i + 3 < n) : u32 (m.readBytes a n) i = m.wordAt (a + i) := by
  rw [u32, u16_readBytes (by omega), u16_readBytes (by omega), Memory.wordAt, Nat.add_assoc]

/-- Past the bytes read a field is 0, as in the list of their values. -/
theorem u8_values (b : List Byte) (i : Nat) : u8 b i = (b.map BitVec.toNat).getD i 0 := by
  by_cases h : i < b.length
  · simp [u8, List.getD_eq_getElem?_getD, h]
  · simp [u8, List.getD_eq_getElem?_getD, h]

end

/-! ### The position of a swath (R90, R116) -/

section
variable {positions : List Position} {rows swath : Nat} {p : Position} {n : Nat}

/-- A swath lies in the band of a position. -/
def Position.holdsSwath (p : Position) (positions : List Position) (rows swath : Nat) : Prop :=
  p.across ≤ 64 * swath ∧ 64 * swath < rows ∧ ∀ q ∈ positions, p.across < q.across → 64 * swath < q.across

theorem lt_foldl_min {α : Type} (f : α → Nat) (l : List α) (r x : Nat) :
    x < l.foldl (fun m q => min m (f q)) r ↔ x < r ∧ ∀ q ∈ l, x < f q := by
  induction l generalizing r with
  | nil => simp
  | cons q l ih =>
    rw [List.foldl_cons, ih, lt_min_iff, List.forall_mem_cons, and_assoc]

theorem lt_bandEnd_iff (positions : List Position) (p : Position) (rows x : Nat) :
    x < bandEnd positions p rows ↔ x < rows ∧ ∀ q ∈ positions, p.across < q.across → x < q.across := by
  rw [bandEnd, lt_foldl_min]
  simp [and_imp]

/-- What the search of the positions asks of one. -/
theorem searched_iff (e : Position × Nat) :
    (decide (e.1.across ≤ 64 * swath) && decide (64 * swath < bandEnd positions e.1 rows)) = true ↔
      e.1.holdsSwath positions rows swath := by
  rw [Bool.and_eq_true, decide_eq_true_eq, decide_eq_true_eq, lt_bandEnd_iff, Position.holdsSwath]

theorem positionAt_found (h : positionAt positions rows swath = some (p, n)) :
    positions[n]? = some p ∧ p.holdsSwath positions rows swath := by
  unfold positionAt at h
  have held := List.find?_some h
  exact ⟨List.mk_mem_zipIdx_iff_getElem?.mp (List.mem_of_find?_eq_some h), (searched_iff (p, n)).mp held⟩

theorem positionAt_none (h : positionAt positions rows swath = none) (hp : p ∈ positions) : ¬p.holdsSwath positions rows swath := by
  intro held
  obtain ⟨n, hn⟩ := List.mem_iff_getElem?.mp hp
  exact List.find?_eq_none.mp h (p, n) (List.mk_mem_zipIdx_iff_getElem?.mpr hn) ((searched_iff (p, n)).mpr held)

end

/-! ### The entries of a record (R61, R78, R127) -/

/-- Where a patch entry of a separation lies. -/
def Chip.patchAddr (k : Chip) (sep i n : Nat) : Nat := k.pageAddr i + 0x1000 + 32 * (32 * sep + n)

/-- Where a strip entry of a separation lies. -/
def Chip.stripAddr (k : Chip) (sep i n : Nat) : Nat := k.pageAddr i + 0x4000 + 16 * (768 * sep + n)

/-- The patch entry at an address, when it is PRESENT. -/
def Memory.patchAt (m : Memory) (a : Nat) (r : Nat × PageKey) (n : Nat) : Option PatchSource :=
  if m.byteAt a = 1 then
    some { idx := r.1, key := r.2, p := n, mode := m.byteAt (a + 1), scale := m.byteAt (a + 2), cell := m.halfAt (a + 4)
           off := m.halfAt (a + 6), len := m.wordAt (a + 8), row0 := m.halfAt (a + 0x10), dot0 := m.halfAt (a + 0x12)
           w := m.halfAt (a + 0x14), h := m.halfAt (a + 0x16) }
  else none

/-- The strip entry at an address, when it is PRESENT. -/
def Memory.stripAt (m : Memory) (a : Nat) (r : Nat × PageKey) : Option StripSource :=
  if m.byteAt a = 1 then some { idx := r.1, key := r.2, cell := m.halfAt (a + 2), off := m.halfAt (a + 4), len := m.wordAt (a + 8) }
  else none

/-- The numbers of the patch entries of a separation that a record's header gives. -/
def Chip.patchEntries (k : Chip) (m : Memory) (sep i : Nat) : List Nat :=
  List.range (min 32 (((List.range 96).map (fun n => m.byteAt (k.pageAddr i + n))).getD (0x14 + sep) 0))

/-- The own ranges that a record's header gives. -/
def Chip.rangesAt (k : Chip) (m : Memory) (i : Nat) : List (Nat × Nat) :=
  (List.range (min 8 (m.byteAt (k.pageAddr i + 7)))).map
    (fun n => (m.halfAt (k.pageAddr i + 0x40 + 4 * n), m.halfAt (k.pageAddr i + 0x42 + 4 * n)))

/-- None of the patch's rows lies in one of the ranges. -/
def PatchSource.outside (ranges : List (Nat × Nat)) (q : PatchSource) : Bool :=
  ranges.all (fun r => (List.range' q.row0 (q.h * q.scale)).all (fun row => !decide (64 * r.1 ≤ row ∧ row < 64 * r.2 + 64)))

section
variable (k : Chip) (m : Memory) (idx sep : Nat) (key : PageKey)

theorem patchSourceAt_eq (n : Nat) : patchSourceAt k m idx key sep n = m.patchAt (k.patchAddr sep idx n) (idx, key) n := by
  simp only [patchSourceAt, Memory.patchAt, u8_readBytes, u16_readBytes, u32_readBytes, Nat.reduceAdd, Nat.reduceLT, Nat.add_zero]
  rfl

theorem stripSourceAt_eq (n : Nat) : stripSourceAt k m idx key sep n = m.stripAt (k.stripAddr sep idx n) (idx, key) := by
  simp only [stripSourceAt, Memory.stripAt, u8_readBytes, u16_readBytes, u32_readBytes, Nat.reduceAdd, Nat.reduceLT, Nat.add_zero]
  rfl

theorem patchAt_isNone (a : Nat) (r : Nat × PageKey) (n : Nat) : (m.patchAt a r n).isNone = decide (m.byteAt a ≠ 1) := by
  by_cases h : m.byteAt a = 1
  · simp [Memory.patchAt, h]
  · simp [Memory.patchAt, h]

theorem range_headerPatchCount : List.range (headerPatchCount (headerAt k m idx) sep) = k.patchEntries m sep idx := by
  rw [headerPatchCount, u8_values, headerAt, Memory.readBytes, List.map_map]
  rfl

theorem headerRanges_eq : headerRanges (headerAt k m idx) = k.rangesAt m idx := by
  rw [headerRanges, headerAt, u8_readBytes (by decide)]
  refine List.map_congr_left fun n hn => ?_
  have below : n < 8 := lt_of_lt_of_le (List.mem_range.mp hn) (min_le_left _ _)
  rw [u16_readBytes (by omega), u16_readBytes (by omega), Nat.add_assoc, Nat.add_assoc]

theorem headerRows_eq : headerRows (headerAt k m idx) = m.halfAt (k.pageAddr idx + 0x0A) := u16_readBytes (by decide)

theorem headerDots_eq : u16 (headerAt k m idx) 0x0C = m.halfAt (k.pageAddr idx + 0x0C) := u16_readBytes (by decide)

theorem patchAddr_eq (n : Nat) : k.pageAddr idx + 0x1000 + 32 * patchIndex sep n = k.patchAddr sep idx n := rfl

theorem stripAddr_eq (n : Nat) : k.pageAddr idx + 0x4000 + 16 * stripIndex sep n = k.stripAddr sep idx n := rfl

theorem inRanges_iff_mem (ranges : List (Nat × Nat)) (n : Nat) : inRanges ranges n = true ↔ ∃ r ∈ ranges, r.1 ≤ n ∧ n ≤ r.2 := by
  simp [inRanges]

/-- A base patch is inherited when its rows meet no range. -/
theorem inheritable_eq (ranges : List (Nat × Nat)) : inheritable ranges = PatchSource.outside ranges := by
  funext q
  unfold inheritable PatchSource.outside
  congr 1
  funext r
  rw [Bool.eq_iff_iff, decide_eq_true_eq, List.all_eq_true]
  simp only [Bool.not_eq_true', decide_eq_false_iff_not, List.mem_range'_1]
  constructor
  · intro apart row hrow
    omega
  · intro outside
    by_contra meets
    exact outside (max q.row0 (64 * r.1)) (by omega) (by omega)

/-- The examination of patch entries, from what has been found before. -/
theorem foldl_examine (l : List Nat) (acc : List PatchSource × List (PageKey × Option Nat)) :
    l.foldl (fun acc p => (acc.1 ++ (examinePatch k m idx key sep p).1, acc.2 ++ (examinePatch k m idx key sep p).2)) acc =
      (acc.1 ++ l.filterMap (patchSourceAt k m idx key sep),
        acc.2 ++ (l.filter (fun p => (patchSourceAt k m idx key sep p).isNone)).map (fun p => (key, some p))) := by
  induction l generalizing acc with
  | nil => simp
  | cons p l ih =>
    rw [List.foldl_cons, ih]
    cases hp : patchSourceAt k m idx key sep p with
    | none => simp [examinePatch, hp]
    | some s => simp [examinePatch, hp]

/-- The patch entries of a record: the PRESENT ones, and the others as findings. -/
theorem examinePatches_eq : examinePatches k m idx key sep (headerPatchCount (headerAt k m idx) sep) =
    ((k.patchEntries m sep idx).filterMap (fun n => m.patchAt (k.patchAddr sep idx n) (idx, key) n),
      ((k.patchEntries m sep idx).filter (fun n => decide (m.byteAt (k.patchAddr sep idx n) ≠ 1))).map (fun n => (key, some n))) := by
  have source : patchSourceAt k m idx key sep = fun n => m.patchAt (k.patchAddr sep idx n) (idx, key) n :=
    funext (patchSourceAt_eq k m idx sep key)
  rw [examinePatches, foldl_examine, range_headerPatchCount, source]
  simp only [patchAt_isNone, List.nil_append]

end

/-! ### The plan and the reads of a swath (R77, R78, R116, R127) -/

/-- The base record that a position's snapshot names, with its key. -/
def PosSnap.bases (s : PosSnap) : List (Nat × PageKey) :=
  match s.base with
  | none => []
  | some (b, _, key) => [(b, key)]

/-- The record that gives a strip, with its key: the own one inside its own ranges, the base otherwise. -/
def PosSnap.stripSource (s : PosSnap) (key : PageKey) (ranges : List (Nat × Nat)) (strip : Nat) : Nat × PageKey :=
  match s.base with
  | none => (s.idx, key)
  | some (b, _, bkey) => if ∃ r ∈ ranges, r.1 ≤ strip ∧ strip ≤ r.2 then (s.idx, key) else (b, bkey)

/-- The plan of a swath with a strip of a page. -/
def Chip.stripPlan (k : Chip) (m : Memory) (sep : Nat) (p : Position) (strip : Nat) (s : PosSnap) : FillPlan :=
  let source := s.stripSource p.key (k.rangesAt m s.idx) strip
  let line := k.stripAddr sep source.1 strip
  let patch (r : Nat × PageKey) (n : Nat) := m.patchAt (k.patchAddr sep r.1 n) r n
  { blank := false, strip := strip, around := p.around, pageDots := m.halfAt (k.pageAddr s.idx + 0x0C)
    line := m.stripAt line source
    patches := (s.bases.flatMap (fun r => (k.patchEntries m sep r.1).filterMap (patch r))).filter (PatchSource.outside (k.rangesAt m s.idx)) ++
      (k.patchEntries m sep s.idx).filterMap (patch (s.idx, p.key))
    missing := (if m.byteAt line = 1 then [] else [(source.2, none)]) ++ (s.bases ++ [(s.idx, p.key)]).flatMap (fun r =>
      ((k.patchEntries m sep r.1).filter (fun n => decide (m.byteAt (k.patchAddr sep r.1 n) ≠ 1))).map (fun n => (r.2, some n))) }

/-- The reads of a swath's entries behind the one of the own header. -/
def Chip.stripReads (k : Chip) (m : Memory) (sep : Nat) (p : Position) (strip : Nat) (s : PosSnap) : List (Nat × Nat) :=
  s.bases.map (fun b => (k.pageAddr b.1, 96)) ++
    (if m.halfAt (k.pageAddr s.idx + 0x0A) ≤ 64 * strip then []
    else (k.stripAddr sep (s.stripSource p.key (k.rangesAt m s.idx) strip).1 strip, 16) ::
      (s.bases ++ [(s.idx, p.key)]).flatMap (fun r => (k.patchEntries m sep r.1).map (fun n => (k.patchAddr sep r.1 n, 32))))

section
variable {k : Chip} {m : Memory} {e : RenderEntry} {p : Position} {n : Nat} {snap : PosSnap}

theorem stripAt_missing (a : Nat) (r : Nat × PageKey) (key : PageKey) :
    (if (m.stripAt a r).isNone then [(key, (none : Option Nat))] else []) = if m.byteAt a = 1 then [] else [(key, none)] := by
  by_cases h : m.byteAt a = 1
  · simp [Memory.stripAt, h]
  · simp [Memory.stripAt, h]

theorem planStrip_eq (k : Chip) (m : Memory) (sep : Nat) (p : Position) (strip : Nat) (s : PosSnap) :
    planStrip k m sep p.around strip p.key s = k.stripPlan m sep p strip s := by
  obtain ⟨idx, version, base⟩ := s
  cases base with
  | none =>
    simp only [planStrip, Chip.stripPlan, PosSnap.bases, PosSnap.stripSource, examinePatches_eq, stripSourceAt_eq, stripAt_missing,
      headerDots_eq, headerRanges_eq]
    simp <;> rfl
  | some b =>
    obtain ⟨b, v, bkey⟩ := b
    have source : (if inRanges (k.rangesAt m idx) strip = true then (idx, p.key) else (b, bkey)) =
        if ∃ r ∈ k.rangesAt m idx, r.1 ≤ strip ∧ strip ≤ r.2 then (idx, p.key) else (b, bkey) :=
      if_congr (inRanges_iff_mem _ _) rfl rfl
    simp only [planStrip, Chip.stripPlan, PosSnap.bases, PosSnap.stripSource, examinePatches_eq, stripSourceAt_eq, stripAt_missing,
      headerDots_eq, headerRanges_eq, source, inheritable_eq]
    simp

theorem planSwath_uncovered (h : positionAt e.positions e.format.rows e.next = none) :
    planSwath k m e e.next = FillPlan.empty ∧ entryReads k m e e.next = [] := by
  simp only [planSwath, entryReads, h, and_self]

theorem planSwath_unnamed (h : positionAt e.positions e.format.rows e.next = some (p, n)) (hs : e.snapshot[n]? = none) :
    planSwath k m e e.next = FillPlan.empty ∧ entryReads k m e e.next = [] := by
  simp only [planSwath, entryReads, h, hs, and_self]

theorem planSwath_blank (h : positionAt e.positions e.format.rows e.next = some (p, n)) (hs : e.snapshot[n]? = some snap)
    (hr : m.halfAt (k.pageAddr snap.idx + 0x0A) ≤ 64 * (e.next - p.across / 64)) : planSwath k m e e.next = FillPlan.empty := by
  simp only [planSwath, h, hs, headerRows_eq, hr, if_true]

theorem planSwath_strip (h : positionAt e.positions e.format.rows e.next = some (p, n)) (hs : e.snapshot[n]? = some snap)
    (hr : 64 * (e.next - p.across / 64) < m.halfAt (k.pageAddr snap.idx + 0x0A)) :
    planSwath k m e e.next = k.stripPlan m e.sep p (e.next - p.across / 64) snap := by
  simp only [planSwath, h, hs, headerRows_eq, Nat.not_le.mpr hr, if_false, planStrip_eq]

theorem entryReads_strip (h : positionAt e.positions e.format.rows e.next = some (p, n)) (hs : e.snapshot[n]? = some snap) :
    entryReads k m e e.next = (k.pageAddr snap.idx, 96) :: k.stripReads m e.sep p (e.next - p.across / 64) snap := by
  obtain ⟨idx, version, base⟩ := snap
  cases base with
  | none =>
    simp only [entryReads, h, hs, headerRows_eq, range_headerPatchCount, patchAddr_eq, stripAddr_eq, Chip.stripReads,
      PosSnap.bases, PosSnap.stripSource]
    split
    · rfl
    · simp
  | some b =>
    obtain ⟨b, v, bkey⟩ := b
    simp only [entryReads, h, hs, headerRows_eq, range_headerPatchCount, headerRanges_eq, patchAddr_eq, stripAddr_eq,
      Chip.stripReads, PosSnap.bases, PosSnap.stripSource, inRanges_iff_mem, apply_ite Prod.fst]
    split
    · rfl
    · simp

end

end Sys2Proof.Machine
end

