-- ==== Sys2Proof/Proofs/FillStarts.lean ====
section
/-! SUPPORT. The begin and the end of a fill (R112, R114, R116, R117; O50). -/

namespace Sys2Proof.Machine

/-! ### Whether a fill may begin (R114) -/

/-- Buffer `b` is the lowest FREE one. -/
def lowestFree (bs : List Buffer) (b : Nat) : Prop := bs[b]? = some .free ∧ ∀ a < b, bs[a]? ≠ some .free

theorem freeBuffer_of_lowest {bs : List Buffer} {b : Nat} (h : lowestFree bs b) : freeBuffer bs = some b := by
  obtain ⟨free, below⟩ := h
  obtain ⟨hb, hv⟩ := List.getElem?_eq_some_iff.mp free
  refine List.findIdx?_eq_some_iff_getElem.mpr ⟨hb, decide_eq_true hv, fun a ha taken => below a ha ?_⟩
  exact List.getElem?_eq_some_iff.mpr ⟨ha.trans hb, of_decide_eq_true taken⟩

theorem freeBuffer_none {bs : List Buffer} (h : ∀ b ∈ bs, b ≠ .free) : freeBuffer bs = none :=
  List.findIdx?_eq_none_iff.mpr fun b hb => decide_eq_false (h b hb)

/-- What R114 asks of the head entry and of the band pool. -/
structure Chip.fills (k : Chip) (e : RenderEntry) (b : Nat) : Prop where
  unstalled : e.stall = false
  left : e.next < e.format.rows / 64
  wide : 0 < e.format.width
  idle : k.br.fill = none
  buffer : lowestFree k.br.buffers b

section
variable {k : Chip} {m : Memory} {e : RenderEntry} {rest : List RenderEntry} {b : Nat}

theorem mayFill_none (h : k.br.order = e :: rest) (hn : e.stall = true ∨ e.format.rows / 64 ≤ e.next ∨ k.br.fill.isSome = true ∨
    k.br.point.isSome = true ∨ k.tl.point = true ∨ ∀ b ∈ k.br.buffers, b ≠ .free) : mayFill k = none := by
  simp only [mayFill, h]
  refine if_neg fun may => ?_
  simp only [Bool.and_eq_true, Bool.not_eq_true', decide_eq_true_eq, Option.isNone_iff_eq_none] at may
  obtain ⟨⟨⟨⟨⟨⟨-, unstalled⟩, left⟩, idle⟩, off⟩, off'⟩, free⟩ := may
  rcases hn with hn | hn | hn | hn | hn | hn
  · simp [unstalled] at hn
  · omega
  · simp [idle] at hn
  · simp [off] at hn
  · simp [off'] at hn
  · simp [freeBuffer_none hn] at free

theorem mayFill_some (hw : k.working = true) (h : k.br.order = e :: rest) (hf : k.fills e b) (hp : k.br.point = none)
    (ht : k.tl.point = false) : mayFill k = some e := by
  simp [mayFill, h, hw, hf.unstalled, hf.left, hf.idle, hp, ht, freeBuffer_of_lowest hf.buffer]

/-- The head is to begin swath 0, and no entry has begun (R115 (1)). -/
def RenderEntry.first (e : RenderEntry) (rest : List RenderEntry) : Prop := e.next = 0 ∧ e.begun = false ∧ ∀ x ∈ rest, x.begun = false

theorem atPoint_iff (h : k.br.order = e :: rest) : atPoint k e = true ↔ e.first rest := by
  simp [atPoint, RenderEntry.first, h, and_assoc]

/-! ### The begin of a fill (R114, R116, R117) -/

theorem rowSetBytes_blank {ctx : RenderContext} {f : Fill} (j : Nat) (h : f.plan.blank = true) :
    rowSetBytes ctx f j = List.replicate 4096 0 := if_pos h

theorem updateEntry_eq (slot attempt : Nat) (g : RenderEntry → RenderEntry) (k : Chip) : updateEntry slot attempt g k =
    { k with br := { k.br with order := k.br.order.map (fun x => if x.slot = slot ∧ x.attempt = attempt then g x else x) } } := by
  simp only [updateEntry, RenderEntry.isFor_iff]
  rfl

/-- The fill that begins. -/
def Chip.newFill (k : Chip) (m : Memory) (e : RenderEntry) (b : Nat) : Fill :=
  { id := k.br.fillSerial + 1, buffer := b, slot := e.slot, attempt := e.attempt, swath := e.next, plan := planSwath k m e e.next
    reads := entryReads k m e e.next, items := [], bytes := [], lines := [], images := [], nextSet := 0, done := false }

/-- The chip with fill `f` of the head entry begun in buffer `b`. -/
def Chip.taking (k : Chip) (e : RenderEntry) (b : Nat) (f : Fill) : Chip :=
  { k with
    br := { k.br with
      buffers := k.br.buffers.set b (.filling ⟨e.slot, e.attempt, e.next⟩)
      order := k.br.order.map (fun y => if y.slot = e.slot ∧ y.attempt = e.attempt then { y with begun := true } else y)
      fill := some f, fillSerial := k.br.fillSerial + 1 } }

/-- The chip with fill `f` begun and its first transfer `x` issued. -/
def Chip.filling (k : Chip) (e : RenderEntry) (b : Nat) (f : Fill) (x : Transfer) : Chip :=
  { k.taking e b f with sp := { k.sp with br := k.sp.br ++ [x] } }

theorem taking_entry {f : Fill} (h : k.br.order = e :: rest) (hs : e.slot = f.slot) (ha : e.attempt = f.attempt) :
    fillEntry (k.taking e b f) f = some { e with begun := true } := by
  have order : (k.taking e b f).br.order = { e with begun := true } ::
      rest.map (fun y => if y.slot = e.slot ∧ y.attempt = e.attempt then { y with begun := true } else y) := by
    simp [Chip.taking, h]
  exact fillEntry_head order hs ha

theorem beginFill_reads {a : Nat × Nat} {reads : List (Nat × Nat)} (hb : lowestFree k.br.buffers b)
    (hr : entryReads k m e e.next = a :: reads) : beginFill m e k =
      k.filling e b { k.newFill m e b with reads := reads } (fillTransfer (k.newFill m e b) .brRead a.1 (.read a.2)) := by
  simp only [beginFill, freeBuffer_of_lowest hb, hr, nextRead_eq, updateEntry_eq]
  rfl

theorem beginFill_writes (h : k.br.order = e :: rest) (hf : k.fills e b) (hr : entryReads k m e e.next = [])
    (hp : planSwath k m e e.next = FillPlan.empty) : beginFill m e k =
      k.filling e b (k.newFill m e b) (fillTransfer (k.newFill m e b) .brWrite (k.bandAddr b) (.write (List.replicate 4096 0))) := by
  have begins : beginFill m e k = nextRowSet (k.newFill m e b) (k.taking e b (k.newFill m e b)) := by
    simp only [beginFill, freeBuffer_of_lowest hf.buffer, hr, updateEntry_eq, Chip.newFill]
    rfl
  have wide := hf.wide
  have blank : (k.newFill m e b).plan.blank = true := by rw [Chip.newFill, hp]; rfl
  rw [begins, nextRowSet_writes (Chip.renders_self (taking_entry h rfl rfl)) rfl rfl (by show 0 < _; dsimp only; omega), Chip.writing,
    rowSetBytes_blank _ blank]
  rfl

/-- A plan without a strip (R116). -/
def FillPlan.isBlank (g : FillPlan) : Prop := g.blank = true ∧ g.line = none ∧ g.patches = [] ∧ g.missing = []

theorem isBlank_of_empty {g : FillPlan} (h : g = FillPlan.empty) : g.isBlank := by
  rw [h]
  exact ⟨rfl, rfl, rfl, rfl⟩

/-- How a fill of the head entry begins: the buffer, the entry and the fill in progress, and the swath's first transfer. -/
def Chip.fillBegins (k : Chip) (m : Memory) (e : RenderEntry) (b : Nat) (t : Chip) : Prop := ∃ f x,
  t = k.filling e b f x ∧
  f.id = k.br.fillSerial + 1 ∧ f.buffer = b ∧ f.slot = e.slot ∧ f.attempt = e.attempt ∧ f.swath = e.next ∧ f.nextSet = 0 ∧
  f.done = false ∧ f.lines = [] ∧ x.client = .br ∧ x.purpose = .fill f.id e.slot e.attempt e.next ∧ x.notices = [] ∧
  (positionAt e.positions e.format.rows e.next = none →
    x.stream = some .brWrite ∧ x.addr = k.bandAddr b % storeSize ∧ x.op = .write (List.replicate 4096 0)) ∧
  f.items = [] ∧ f.bytes = [] ∧ f.images = [] ∧
  (positionAt e.positions e.format.rows e.next = none → f.plan.isBlank ∧ f.reads = []) ∧
  ∀ p n snap, positionAt e.positions e.format.rows e.next = some (p, n) → e.snapshot[n]? = some snap →
    x.stream = some .brRead ∧ x.addr = k.pageAddr snap.idx % storeSize ∧ x.op = .read 96 ∧
    f.reads = k.stripReads m e.sep p (e.next - p.across / 64) snap ∧
    (m.halfAt (k.pageAddr snap.idx + 0x0A) ≤ 64 * (e.next - p.across / 64) → f.plan.isBlank) ∧
    (64 * (e.next - p.across / 64) < m.halfAt (k.pageAddr snap.idx + 0x0A) →
      f.plan = k.stripPlan m e.sep p (e.next - p.across / 64) snap)

theorem beginFill_begins (h : k.br.order = e :: rest) (hf : k.fills e b) : k.fillBegins m e b (beginFill m e k) := by
  cases hp : positionAt e.positions e.format.rows e.next with
  | none =>
    obtain ⟨plan, reads⟩ := planSwath_uncovered (k := k) (m := m) hp
    exact ⟨_, _, beginFill_writes h hf reads plan, rfl, rfl, rfl, rfl, rfl, rfl, rfl, rfl, rfl, rfl, rfl, fun _ => ⟨rfl, rfl, rfl⟩,
      rfl, rfl, rfl, fun _ => ⟨isBlank_of_empty plan, reads⟩, fun _ _ _ covered => (nomatch hp.symm.trans covered)⟩
  | some c =>
    obtain ⟨p, n⟩ := c
    have covered {P : Prop} (none : positionAt e.positions e.format.rows e.next = none) : P := nomatch hp.symm.trans none
    cases hs : e.snapshot[n]? with
    | none =>
      obtain ⟨plan, reads⟩ := planSwath_unnamed (k := k) (m := m) hp hs
      refine ⟨_, _, beginFill_writes h hf reads plan, rfl, rfl, rfl, rfl, rfl, rfl, rfl, rfl, rfl, rfl, rfl, covered, rfl, rfl, rfl,
        covered, fun p' n' snap hp' hs' => ?_⟩
      cases hp.symm.trans hp'
      cases hs.symm.trans hs'
    | some snap =>
      refine ⟨_, _, beginFill_reads hf.buffer (entryReads_strip hp hs), rfl, rfl, rfl, rfl, rfl, rfl, rfl, rfl, rfl, rfl, rfl, covered, rfl,
        rfl, rfl, covered, fun p' n' snap' hp' hs' => ?_⟩
      cases hp.symm.trans hp'
      cases hs.symm.trans hs'
      exact ⟨rfl, rfl, rfl, rfl, fun above => isBlank_of_empty (planSwath_blank hp hs above), planSwath_strip hp hs⟩

/-! ### The end of a fill (R117) -/

theorem fillEnd_waits {f : Fill} (hf : k.br.fill = some f) (hd : f.done = false) : fillEnd k = k := by
  simp [fillEnd, hf, hd]

/-- The chip after fill `f` is done: its buffer is FULL. -/
def Chip.filled (k : Chip) (f : Fill) : Chip :=
  k.setBr { k.br with fill := none, buffers := k.br.buffers.set f.buffer (.full ⟨f.slot, f.attempt, f.swath⟩) }

theorem fillEnd_eq {f : Fill} (hw : k.working = true) (h : k.br.order = e :: rest) (hf : k.br.fill = some f) (hs : f.slot = e.slot)
    (ha : f.attempt = e.attempt) (hd : f.done = true) : fillEnd k =
      if e.next + 1 = e.format.rows / 64 then
        tellPsc (.renderFinished e.slot e.attempt e.snapNo)
          ((k.filled f).setBr { (k.filled f).br with order := k.br.order.filter (fun x => !x.isFor e.slot e.attempt) })
      else updateEntry e.slot e.attempt (fun e => { e with next := e.next + 1 }) (k.filled f) := by
  simp only [fillEnd, hf, hw, hd, fillEntry_head h hs.symm ha.symm, Chip.filled, hs, ha, Bool.and_self, if_true]
  rfl

end

end Sys2Proof.Machine
end

