-- ==== Sys2Proof/Proofs/RenderSteps.lean ====
section
/-! The render reflection point, and the statement on BR's steps as a whole (R112 to R117, R127, R142; O50). -/

namespace Sys2Proof.Machine

/-! ### The render reflection point (R115, R142) -/

section
variable {k : Chip} {m : Memory} {e : RenderEntry} {rest : List RenderEntry} {b : Nat}

/-- The chip behind the reflection point. -/
def Chip.offPoint (k : Chip) : Chip := { k with br := { k.br with point := none }, tl := { k.tl with point := false } }

theorem offPoint_self (hp : k.br.point = none) (ht : k.tl.point = false) : k.offPoint = k := by
  rw [Chip.offPoint, ← hp, ← ht]

/-- The chip at the reflection point of its head entry: the render reloads pending are due. -/
def Chip.atPointOf (k : Chip) (e : RenderEntry) : Chip :=
  { k with
    br := { k.br with point := some (e.slot, e.ordinal) }
    tl := { k.tl with
      point := true
      reload := k.tl.reload.map (fun r => { r with due := true })
      pendingSet := k.tl.pendingSet.map (fun p =>
        if p.id.kind = .curve ∨ p.id.kind = .screen ∨ p.id.kind = .screenSet then { p with due := true } else p) } }

theorem fills_offPoint (h : k.fills e b) : k.offPoint.fills e b := ⟨h.unstalled, h.left, h.wide, h.idle, h.buffer⟩

theorem isRender_iff (kind : TableKind) : kind.isRender = true ↔ kind = .curve ∨ kind = .screen ∨ kind = .screenSet := by
  cases kind <;> decide

theorem reachPoint_reaches (hm : mayFill k = some e) (ha : atPoint k e = true) : reachPoint k = k.atPointOf e := by
  simp only [reachPoint, hm, ha, if_true, isRender_iff]
  rfl

theorem reachPoint_stays (hm : mayFill k = some e) (ha : ¬atPoint k e = true) : reachPoint k = k := by
  simp only [reachPoint, hm, ha]
  rfl

theorem fillBegin_waits (hm : mayFill k = some e) (ha : atPoint k e = true) : fillBegin m k = k := by
  simp only [fillBegin, hm, ha, if_true]

theorem fillBegin_fills (hm : mayFill k = some e) (ha : ¬atPoint k e = true) : fillBegin m k = beginFill m e k := by
  simp only [fillBegin, hm, ha]
  rfl

/-! ### The end of the point (R115, R142) -/

theorem pointEnd_waits (h : (∃ p ∈ k.tl.pendingSet, p.due = true) ∨ ∃ r, k.tl.reload = some r ∧ r.due = true) : pointEnd m k = k := by
  have unready : pointReady k = false := by
    rcases h with ⟨p, hp, due⟩ | ⟨r, hr, due⟩
    · have anyDue : k.tl.pendingSet.any (fun p => p.due) = true := List.any_eq_true.mpr ⟨p, hp, due⟩
      simp [pointReady, anyDue]
    · simp [pointReady, hr, due]
  simp [pointEnd, unready]

theorem pointReady_of (ht : k.tl.point = true) (hp : ∀ p ∈ k.tl.pendingSet, p.due = false) (hr : ∀ r, k.tl.reload = some r → r.due = false) :
    pointReady k = true := by
  have noneDue : k.tl.pendingSet.any (fun p => p.due) = false := by simpa using hp
  cases reload : k.tl.reload with
  | none => simp [pointReady, ht, noneDue, reload]
  | some r => simp [pointReady, ht, noneDue, reload, hr r reload]

/-- The entry that reached the point has left the head. -/
theorem pointEnd_left (hw : k.working = true) (h : k.br.order = e :: rest) (hr : pointReady k = true)
    (hp : k.br.point ≠ some (e.slot, e.ordinal)) : pointEnd m k = k.offPoint := by
  simp only [pointEnd, hw, hr, h, hp, Bool.and_self, if_true, if_false, Chip.offPoint]
  rfl

/-- The check of the head entry's tables at the point (R115 (2), (3)). -/
def Chip.pointChecked (k : Chip) (m : Memory) (e : RenderEntry) : Chip :=
  match renderFault k e.curve e.screenSet e.sep with
  | some t => pointFailed e t k
  | none => if (mayFill k).isSome then beginFill m e k else k

theorem pointEnd_checks (hw : k.working = true) (h : k.br.order = e :: rest) (hr : pointReady k = true)
    (hp : k.br.point = some (e.slot, e.ordinal)) : pointEnd m k = k.offPoint.pointChecked m e := by
  unfold pointEnd
  rw [if_pos (by rw [hw, hr]; rfl)]
  dsimp only
  split
  · next empty => cases h.symm.trans empty
  · next head =>
    cases h.symm.trans head
    rw [if_pos hp]
    rfl

theorem pointEnd_fills (hw : k.working = true) (h : k.br.order = e :: rest) (hr : pointReady k = true)
    (hp : k.br.point = some (e.slot, e.ordinal)) (hf : renderFault k e.curve e.screenSet e.sep = none) (hb : k.fills e b) :
    pointEnd m k = beginFill m e k.offPoint := by
  have may : mayFill k.offPoint = some e := mayFill_some (k := k.offPoint) (b := b) hw h (fills_offPoint hb) rfl rfl
  have valid : renderFault k.offPoint e.curve e.screenSet e.sep = none := hf
  rw [pointEnd_checks hw h hr hp, Chip.pointChecked, valid, may]
  rfl

/-- The entry stalls with mark TABLE. -/
theorem pointFailed_spec (e : RenderEntry) (tid : TableId) (k : Chip) :
    pointFailed e tid k =
      { k with
        br := { k.br with
          order := k.br.order.map (fun y => if y.slot = e.slot ∧ y.attempt = e.attempt then { y with stall := true } else y) }
        dmr := { k.dmr with lists := (pointFailed e tid k).dmr.lists }
        sp := { k.sp with report := (pointFailed e tid k).sp.report } } ∧
    ((k.plate e.slot).isSome = true → (k.marks e.slot).marks.length < 8 →
      ∃ m, ((pointFailed e tid k).marks e.slot).marks = (k.marks e.slot).marks ++ [m] ∧ m.kind = .table ∧ m.severity = .fail ∧
        m.charged = false ∧ m.attempt = e.attempt ∧ m.detail = 16 * tid.kind.code + tid.idx) := by
  obtain ⟨l, r, spec, -, stored⟩ := reportMark_spec
    { slot := e.slot, attempt := e.attempt, kind := .table, location := .none, key := none, detail := tid.detail, place := none
      nosep := none } (updateEntry e.slot e.attempt (fun e => { e with stall := true }) k)
  constructor
  · rw [pointFailed, spec, updateEntry_eq]
  · intro held room
    exact ⟨_, stored held (not_suppressed nofun nofun) room, rfl, rfl, rfl, rfl, rfl⟩

theorem pointEnd_fails {tid : TableId} (hw : k.working = true) (h : k.br.order = e :: rest) (hr : pointReady k = true)
    (hp : k.br.point = some (e.slot, e.ordinal)) (hf : renderFault k e.curve e.screenSet e.sep = some tid) :
    pointEnd m k = pointFailed e tid k.offPoint := by
  have invalid : renderFault k.offPoint e.curve e.screenSet e.sep = some tid := hf
  rw [pointEnd_checks hw h hr hp, Chip.pointChecked, invalid]

end

theorem exec_to_chip {c : Instr} {s : State} {t : Chip} (f : Chip → Chip) (h : exec c s = onChip f s) (hf : f s.chip = t) :
    exec c s = .next (s.setChip t) := by rw [h, onChip, hf]

/-- Settles O50. -/
theorem renderSteps : Obligations.RenderSteps := by
  unfold Obligations.RenderSteps
  refine ⟨fun ps rows swath => ⟨fun p n h => positionAt_found h, fun h p hp => positionAt_none h hp⟩, ?_⟩
  intro s e rest hw h k change first fits byte half word page header entries patchAt patch blank begins set invalid
  have fill {b : Nat} (hb : fits b) : k.fills e b := by
    obtain ⟨unstalled, left, wide, idle, free, below⟩ := hb
    exact ⟨unstalled, left, wide, idle, free, below⟩
  have started {c : Instr} {b : Nat} (hc : exec c s = .next (s.setChip (beginFill s.store e k.offPoint))) (hb : fits b) : begins c b := by
    obtain ⟨f, x, step, begun⟩ := beginFill_begins (k := k.offPoint) (m := s.store) h (fills_offPoint (fill hb))
    exact ⟨s.setChip (beginFill s.store e k.offPoint), f, x, hc, rfl, rfl, step, begun⟩
  have fault : renderFault k e.curve e.screenSet e.sep = invalid := renderFault_eq k e.curve e.screenSet e.sep
  refine ⟨fun idle => ?_, fun b hb off off' => ?_, fun at_ => ⟨fun due => exec_eq_of_chip (f := pointEnd s.store) rfl (pointEnd_waits due),
    fun pending reload => ?_⟩, fun f hf hs ha => ⟨fun undone => exec_eq_of_chip (f := fillEnd) rfl (fillEnd_waits hf undone), fun done => ?_⟩⟩
  · have none := mayFill_none h idle
    exact ⟨exec_eq_of_chip (f := fillBegin s.store) rfl (by rw [fillBegin, none]),
      exec_eq_of_chip (f := reachPoint) rfl (by rw [reachPoint, none])⟩
  · have may := mayFill_some hw h (fill hb) off off'
    refine ⟨fun later => ?_, fun now => ?_⟩
    · have later' := mt (atPoint_iff h).mp later
      have begun : fillBegin s.store k = beginFill s.store e k.offPoint :=
        (fillBegin_fills may later').trans (by rw [offPoint_self off off'])
      exact ⟨started (exec_to_chip (fillBegin s.store) rfl begun) hb, exec_eq_of_chip (f := reachPoint) rfl (reachPoint_stays may later')⟩
    · have now' := (atPoint_iff h).mpr now
      exact ⟨exec_eq_of_chip (f := fillBegin s.store) rfl (fillBegin_waits may now'),
        exec_to_chip reachPoint rfl (reachPoint_reaches may now')⟩
  · have ready := pointReady_of at_ pending reload
    refine ⟨fun left => exec_to_chip (pointEnd s.store) rfl (pointEnd_left hw h ready left), fun here => ⟨fun b valid hb => ?_,
      fun tid failed => ?_⟩⟩
    · exact started (exec_to_chip (pointEnd s.store) rfl (pointEnd_fills hw h ready here (fault.trans valid) (fill hb))) hb
    · obtain ⟨step, marked⟩ := pointFailed_spec e tid k.offPoint
      have fails := pointEnd_fails (m := s.store) hw h ready here (fault.trans failed)
      exact ⟨_, exec_to_chip (pointEnd s.store) rfl fails, rfl, rfl, step, marked⟩
  · have ends := fillEnd_eq hw h hf hs ha done
    refine ⟨fun more => exec_to_chip fillEnd rfl (ends.trans ?_), fun last => exec_to_chip fillEnd rfl (ends.trans ?_)⟩
    · exact (if_neg more).trans (updateEntry_eq _ _ _ _)
    · exact if_pos last

end Sys2Proof.Machine
end

