-- ==== Sys2Proof/Proofs/LineCodec.lean ====
section
/-! SUPPORT. The line codec: what each code of a strip body comes to, and the rows that their shortest codes read back (R124, R125; O52). -/

namespace Sys2Proof.Machine

/-! ### One run (R124 (1)) -/

/-- How a strip body is read on after a run: `none` when the run passed the page dots, or whether its row is whole, and its runs. -/
def lineAfter (dots : Nat) (rest : List Byte) (rows : List (List Nat)) : Option (Bool × List Nat) → List (List Nat) × DecodeEnd
  | none => (rows, .failed)
  | some (true, r) => lineDecode dots rest (rows ++ [r]) []
  | some (false, r) => lineDecode dots rest rows r

section
variable {dots n : Nat} {rest : List Byte} {rows : List (List Nat)} {cur : List Nat}

theorem addRun_past (h : dots < cur.sum + n) : addRun dots cur n = none := if_pos h

theorem addRun_whole (h : cur.sum + n = dots) : addRun dots cur n = some (true, cur ++ [n]) := by simp [addRun, h]

theorem addRun_within (h : cur.sum + n < dots) : addRun dots cur n = some (false, cur ++ [n]) := by
  simp [addRun, Nat.not_lt.mpr h.le, h.ne]

theorem lineDecode_run1 {b : Byte} (hr : rows.length ≠ 64) (hb : b.toNat < 0x80) :
    lineDecode dots (b :: rest) rows cur = lineAfter dots rest rows (addRun dots cur b.toNat) := by
  rw [lineDecode.eq_def]
  dsimp only
  rw [if_neg hr, if_pos hb]
  rfl

theorem lineDecode_run2 {b c : Byte} (hr : rows.length ≠ 64) (hb : 0x80 ≤ b.toNat) (hb' : b.toNat < 0xC0) :
    lineDecode dots (b :: c :: rest) rows cur = lineAfter dots rest rows (addRun dots cur ((b.toNat - 0x80) * 256 + c.toNat)) := by
  rw [lineDecode.eq_def]
  dsimp only
  rw [if_neg hr, if_neg (Nat.not_lt.mpr hb), if_pos hb']
  rfl

theorem lineDecode_run3 {b c d : Byte} (hr : rows.length ≠ 64) (hb : 0xC0 ≤ b.toNat) (hb' : b.toNat < 0xE0) :
    lineDecode dots (b :: c :: d :: rest) rows cur =
      lineAfter dots rest rows (addRun dots cur ((b.toNat - 0xC0) * 65536 + c.toNat * 256 + d.toNat)) := by
  rw [lineDecode.eq_def]
  dsimp only
  rw [if_neg hr, if_neg (by omega), if_neg (by omega), if_pos hb']
  rfl

/-- A run is read back from its shortest code, of one, two or three bytes. -/
theorem lineDecode_runCode (hr : rows.length ≠ 64) (hn : n < 2097152) :
    lineDecode dots (runCode n ++ rest) rows cur = lineAfter dots rest rows (addRun dots cur n) := by
  have byte (m : Nat) : (BitVec.ofNat 8 m).toNat = m % 256 := BitVec.toNat_ofNat m 8
  rw [runCode]
  split
  · next short =>
    have first : (BitVec.ofNat 8 n).toNat = n := by rw [byte]; omega
    rw [List.singleton_append, lineDecode_run1 hr (by omega), first]
  · split
    · next medium =>
      have first : (BitVec.ofNat 8 (0x80 + n / 256)).toNat = 0x80 + n / 256 := by rw [byte]; omega
      have value : (0x80 + n / 256 - 0x80) * 256 + n % 256 = n := by omega
      rw [List.cons_append, List.singleton_append, lineDecode_run2 hr (by omega) (by omega), first, byte, value]
    · have first : (BitVec.ofNat 8 (0xC0 + n / 65536)).toNat = 0xC0 + n / 65536 := by rw [byte]; omega
      have value : (0xC0 + n / 65536 - 0xC0) * 65536 + n / 256 % 256 * 256 + n % 256 = n := by omega
      rw [List.cons_append, List.cons_append, List.singleton_append, lineDecode_run3 hr (by omega) (by omega), first, byte, byte, value]

/-! ### Codes that are no runs (R124 (2), R125) -/

theorem lineDecode_blank (hr : rows.length ≠ 64) : lineDecode dots (0xE1 :: rest) rows [] = lineDecode dots rest (rows ++ [[dots]]) [] := by
  rw [lineDecode.eq_def]
  dsimp only
  rw [if_neg hr]
  rfl

theorem lineDecode_repeat_first : lineDecode dots (0xE0 :: rest) [] [] = ([], .failed) := by
  rw [lineDecode.eq_def]
  rfl

theorem lineDecode_repeat (r : List Nat) (hr : (rows ++ [r]).length ≠ 64) :
    lineDecode dots (0xE0 :: rest) (rows ++ [r]) [] = lineDecode dots rest (rows ++ [r] ++ [r]) [] := by
  rw [lineDecode.eq_def]
  dsimp only
  rw [if_neg hr, List.getLast?_concat]
  rfl

theorem lineDecode_noCode {b : Byte} (hr : rows.length ≠ 64) (hb : 0xE2 ≤ b.toNat) : lineDecode dots (b :: rest) rows cur = (rows, .failed) := by
  have others : b ≠ 0xE0 ∧ b ≠ 0xE1 := ⟨by rintro rfl; exact absurd hb (by decide), by rintro rfl; exact absurd hb (by decide)⟩
  obtain ⟨noRepeat, noBlank⟩ := others
  rw [lineDecode.eq_def]
  dsimp only
  rw [if_neg hr, if_neg (by omega), if_neg (by omega), if_neg (by omega), if_neg noRepeat, if_neg noBlank]

theorem lineDecode_remaining (b : Byte) (hr : rows.length = 64) : lineDecode dots (b :: rest) rows cur = (rows, .failed) := by
  rw [lineDecode.eq_def]
  dsimp only
  rw [if_pos hr]

theorem lineDecode_end (hr : rows.length = 64) : lineDecode dots [] rows cur = (rows, .complete) := by
  rw [lineDecode.eq_def]
  dsimp only
  rw [if_pos hr]

/-! ### Rows (R124 (1), (3)) -/

theorem lineEncode_cons (r : List Nat) (rs : List (List Nat)) : lineEncode (r :: rs) = r.flatMap runCode ++ lineEncode rs := rfl

theorem rowLegal_iff {row : List Nat} :
    rowLegal dots row = true ↔ row ≠ [] ∧ row.sum = dots ∧ row.dropLast.sum < dots ∧ ∀ n ∈ row, n < 2097152 := by
  simp [rowLegal, and_assoc]

/-- The runs that complete the row under way: only the last brings its sum to the page dots. -/
theorem lineDecode_runs {runs : List Nat} (hr : rows.length ≠ 64) (nonempty : runs ≠ []) (sum : cur.sum + runs.sum = dots)
    (before : cur.sum + runs.dropLast.sum < dots) (fit : ∀ n ∈ runs, n < 2097152) :
    lineDecode dots (runs.flatMap runCode ++ rest) rows cur = lineDecode dots rest (rows ++ [cur ++ runs]) [] := by
  induction runs generalizing cur with
  | nil => exact absurd rfl nonempty
  | cons n more ih =>
    obtain ⟨first, later⟩ := List.forall_mem_cons.mp fit
    rw [List.flatMap_cons, List.append_assoc, lineDecode_runCode hr first]
    cases more with
    | nil =>
      rw [addRun_whole (by simpa using sum)]
      rfl
    | cons m more =>
      rw [List.dropLast_cons_cons, List.sum_cons] at before
      rw [List.sum_cons] at sum
      rw [addRun_within (by omega)]
      refine (ih (List.cons_ne_nil m more) ?_ ?_ later).trans ?_
      · rw [List.sum_append, List.sum_singleton]; omega
      · rw [List.sum_append, List.sum_singleton]; omega
      · rw [List.append_assoc, List.singleton_append]

theorem lineDecode_row {row : List Nat} (hr : rows.length ≠ 64) (legal : rowLegal dots row = true) :
    lineDecode dots (row.flatMap runCode ++ rest) rows [] = lineDecode dots rest (rows ++ [row]) [] := by
  obtain ⟨nonempty, sum, before, fit⟩ := rowLegal_iff.mp legal
  exact lineDecode_runs hr nonempty (by simpa using sum) (by simpa using before) fit

/-- Rows that still have their place in the strip are read back from their codes. -/
theorem lineDecode_rows {new : List (List Nat)} (room : rows.length + new.length ≤ 64) (legal : ∀ r ∈ new, rowLegal dots r = true) :
    lineDecode dots (lineEncode new ++ rest) rows [] = lineDecode dots rest (rows ++ new) [] := by
  induction new generalizing rows with
  | nil => rw [List.append_nil]; rfl
  | cons r new ih =>
    obtain ⟨first, later⟩ := List.forall_mem_cons.mp legal
    rw [List.length_cons] at room
    rw [lineEncode_cons, List.append_assoc, lineDecode_row (by omega) first,
      ih (by rw [List.length_append, List.length_singleton]; omega) later, List.append_assoc, List.singleton_append]

end

/-- A strip body of the shortest codes of its 64 rows reads back these rows. -/
theorem decodeStrip_lineEncode {dots : Nat} {rows : List (List Nat)} (all : rows.length = 64) (legal : ∀ r ∈ rows, rowLegal dots r = true) :
    decodeStrip dots (lineEncode rows).length (lineEncode rows) = (rows, .complete) := by
  have read : lineDecode dots (lineEncode rows) [] [] = (rows, .complete) := by
    rw [← List.append_nil (lineEncode rows), lineDecode_rows (by simp [all]) legal, List.nil_append, lineDecode_end all]
  simp [decodeStrip, read]

end Sys2Proof.Machine
end

