-- ==== Sys2Proof/Proofs/PatchCodec.lean ====
section
/-! SUPPORT. The patch codec: what each code of an image comes to, and the rows that codes read back, whole or cut short (R126; O52). -/

namespace Sys2Proof.Machine

/-! ### The decoder without its fuel -/

theorem patchDecodeAux_fuel {w need f g : Nat} {bs : List Byte} {rows : List (List Byte)} {cur : List Byte} (hf : bs.length < f)
    (hg : bs.length < g) : patchDecodeAux w need f bs rows cur = patchDecodeAux w need g bs rows cur := by
  induction f generalizing g bs rows cur with
  | zero => exact absurd hf (Nat.not_lt_zero _)
  | succ f ih =>
    obtain ⟨g, rfl⟩ := Nat.exists_eq_succ_of_ne_zero (Nat.ne_zero_of_lt hg)
    cases bs with
    | nil => rfl
    | cons n rest =>
      rw [List.length_cons] at hf hg
      have shorter (m : Nat) : (rest.drop m).length < f ∧ (rest.drop m).length < g := by rw [List.length_drop]; omega
      have on (m : Nat) (rows cur) : patchDecodeAux w need f (rest.drop m) rows cur = patchDecodeAux w need g (rest.drop m) rows cur :=
        ih (shorter m).1 (shorter m).2
      by_cases literal : n.toNat < 0x80
      · simp only [patchDecodeAux, if_pos literal, on]
      · simp only [patchDecodeAux, if_neg literal, on]

/-- The patch decoder on an image's bytes, with fuel enough for all of them. -/
def patchDecode (w need : Nat) (bs : List Byte) (rows : List (List Byte)) (cur : List Byte) : List (List Byte) × DecodeEnd × List Byte :=
  patchDecodeAux w need (bs.length + 1) bs rows cur

section
variable {w h last len need : Nat} {rest bytes left : List Byte} {rows : List (List Byte)} {cur : List Byte}

theorem patchDecode_done (hr : rows.length = need) : patchDecode w need rest rows cur = (rows, .complete, rest) := if_pos hr

theorem patchDecode_nil (hr : rows.length ≠ need) : patchDecode w need [] rows cur = (rows, .more, []) := if_neg hr

theorem decodePatch_of_failed (hd : patchDecode w (last + 1) bytes [] [] = (rows, .failed, left)) :
    decodePatch w h last len bytes = (rows, .failed) := by
  rw [patchDecode] at hd
  rw [decodePatch, hd]

theorem decodePatch_of_more (hd : patchDecode w (last + 1) bytes [] [] = (rows, .more, left)) :
    decodePatch w h last len bytes = (rows, if bytes.length < len then .more else .failed) := by
  rw [patchDecode] at hd
  rw [decodePatch, hd]

theorem decodePatch_of_complete (hd : patchDecode w (last + 1) bytes [] [] = (rows, .complete, left)) :
    decodePatch w h last len bytes = (rows, if last + 1 = h ∧ (left ≠ [] ∨ bytes.length < len) then .failed else .complete) := by
  rw [patchDecode] at hd
  rw [decodePatch, hd, apply_ite (Prod.mk rows)]
  simp

/-! ### One code -/

/-- How an image is read on after a code of `count` pixels, when `left` follows it: a code that passes the row's w pixels fails, and one that is
short of bytes waits for them. -/
def patchAfter (w need : Nat) (rows : List (List Byte)) (cur : List Byte) (count : Nat) (pixels left : List Byte) (short : Bool) :
    List (List Byte) × DecodeEnd × List Byte :=
  if w < cur.length + count then (rows, .failed, left)
  else if short then (rows, .more, [])
  else if cur.length + count = w then patchDecode w need left (rows ++ [cur ++ pixels]) []
  else patchDecode w need left rows (cur ++ pixels)

/-- Fuel enough for a code's own byte is enough for what it leaves. -/
theorem patchDecodeAux_drop (m : Nat) :
    patchDecodeAux w need (rest.length + 1) (rest.drop m) rows cur = patchDecode w need (rest.drop m) rows cur :=
  patchDecodeAux_fuel (by rw [List.length_drop]; omega) (Nat.lt_succ_self _)

theorem patchDecode_literal {n : Byte} (hr : rows.length ≠ need) (hn : n.toNat < 0x80) : patchDecode w need (n :: rest) rows cur =
    patchAfter w need rows cur (n.toNat + 1) (rest.take (n.toNat + 1)) (rest.drop (n.toNat + 1)) (decide (rest.length < n.toNat + 1)) := by
  rw [patchDecode, patchDecodeAux, if_neg hr]
  simp only [if_pos hn, List.length_cons, patchDecodeAux_drop]
  rfl

theorem patchDecode_run {n : Byte} (hr : rows.length ≠ need) (hn : ¬n.toNat < 0x80) : patchDecode w need (n :: rest) rows cur =
    patchAfter w need rows cur (n.toNat - 0x7F) (List.replicate (n.toNat - 0x7F) (rest.headD 0)) (rest.drop 1) rest.isEmpty := by
  rw [patchDecode, patchDecodeAux, if_neg hr]
  simp only [if_neg hn, List.length_cons, patchDecodeAux_drop]
  rfl

/-- A code of 1 to 128 pixels. -/
def PatchCode.fits (c : PatchCode) : Prop := 1 ≤ c.pixels.length ∧ c.pixels.length ≤ 128

/-- A literal's first byte. -/
theorem literal_first {l : List Byte} (hl : (PatchCode.literal l).fits) :
    (BitVec.ofNat 8 (l.length - 1)).toNat < 0x80 ∧ (BitVec.ofNat 8 (l.length - 1)).toNat + 1 = l.length := by
  obtain ⟨nonempty, few⟩ : 1 ≤ l.length ∧ l.length ≤ 128 := hl
  rw [BitVec.toNat_ofNat]
  omega

/-- A byte run's first byte. -/
theorem run_first {n : Nat} {v : Byte} (hc : (PatchCode.run n v).fits) :
    ¬(BitVec.ofNat 8 (n + 0x7F)).toNat < 0x80 ∧ (BitVec.ofNat 8 (n + 0x7F)).toNat - 0x7F = n := by
  obtain ⟨nonempty, few⟩ : 1 ≤ (List.replicate n v).length ∧ (List.replicate n v).length ≤ 128 := hc
  rw [List.length_replicate] at nonempty few
  rw [BitVec.toNat_ofNat]
  omega

/-- A whole code fails when it passes the row's w pixels, and otherwise adds its pixels to the row, which it may end. -/
theorem patchDecode_code {c : PatchCode} (hc : c.fits) (hr : rows.length ≠ need) : patchDecode w need (c.bytes ++ rest) rows cur =
    if w < cur.length + c.pixels.length then (rows, .failed, rest)
    else if cur.length + c.pixels.length = w then patchDecode w need rest (rows ++ [cur ++ c.pixels]) []
    else patchDecode w need rest rows (cur ++ c.pixels) := by
  cases c with
  | literal l =>
    obtain ⟨small, count⟩ := literal_first hc
    have enough : ¬(l ++ rest).length < l.length := by simp
    refine (patchDecode_literal (rest := l ++ rest) hr small).trans ?_
    rw [count, List.take_left, List.drop_left, decide_eq_false enough]
    rfl
  | run n v =>
    obtain ⟨large, count⟩ := run_first hc
    refine (patchDecode_run hr large).trans ?_
    rw [count, PatchCode.pixels, List.length_replicate]
    rfl

/-- A code that stops before its last byte, in a row that it would not pass. -/
theorem patchDecode_cut {c : PatchCode} {n : Nat} (hc : c.fits) (hr : rows.length ≠ need) (room : cur.length + c.pixels.length ≤ w)
    (hn : n < c.bytes.length) : patchDecode w need (c.bytes.take n) rows cur = (rows, .more, []) := by
  cases n with
  | zero => exact patchDecode_nil hr
  | succ n =>
    cases c with
    | literal l =>
      obtain ⟨small, count⟩ := literal_first hc
      have missing : (l.take n).length < l.length := by
        rw [List.length_take]
        exact (Nat.min_le_left _ _).trans_lt (Nat.lt_of_succ_lt_succ hn)
      refine (patchDecode_literal hr small).trans ?_
      rw [count, decide_eq_true missing]
      exact if_neg (Nat.not_lt.mpr room)
    | run m v =>
      obtain ⟨large, count⟩ := run_first hc
      obtain rfl : n = 0 := Nat.lt_one_iff.mp (Nat.lt_of_succ_lt_succ hn)
      rw [PatchCode.pixels, List.length_replicate] at room
      refine (patchDecode_run hr large).trans ?_
      rw [count]
      exact if_neg (Nat.not_lt.mpr room)

/-! ### Rows of codes -/

theorem patchRow_cons (c : PatchCode) (cs : List PatchCode) : patchRow (c :: cs) = c.pixels ++ patchRow cs := rfl

theorem patchRow_concat (cs : List PatchCode) (c : PatchCode) : patchRow (cs ++ [c]) = patchRow cs ++ c.pixels := by
  simp [patchRow]

theorem patchRowLegal_iff {row : List PatchCode} :
    patchRowLegal w row = true ↔ row ≠ [] ∧ (patchRow row).length = w ∧ ∀ c ∈ row, c.fits := by
  simp [patchRowLegal, PatchCode.fits, and_assoc]

/-- Codes that leave the row under way short of w pixels. -/
theorem patchDecode_codes {codes : List PatchCode} (fit : ∀ c ∈ codes, c.fits) (hr : rows.length ≠ need)
    (short : cur.length + (patchRow codes).length < w) :
    patchDecode w need (codes.flatMap PatchCode.bytes ++ rest) rows cur = patchDecode w need rest rows (cur ++ patchRow codes) := by
  induction codes generalizing cur with
  | nil => rw [show patchRow [] = [] from rfl, List.append_nil]; rfl
  | cons c codes ih =>
    obtain ⟨first, later⟩ := List.forall_mem_cons.mp fit
    rw [patchRow_cons, List.length_append] at short
    rw [List.flatMap_cons, List.append_assoc, patchDecode_code first hr, if_neg (by omega), if_neg (by omega),
      ih later (by rw [List.length_append]; omega), patchRow_cons, List.append_assoc]

/-- A row of codes is read back. -/
theorem patchDecode_row {row : List PatchCode} (legal : patchRowLegal w row = true) (hr : rows.length ≠ need) :
    patchDecode w need (row.flatMap PatchCode.bytes ++ rest) rows [] = patchDecode w need rest (rows ++ [patchRow row]) [] := by
  obtain ⟨nonempty, whole, fit⟩ := patchRowLegal_iff.mp legal
  obtain ⟨codes, c, rfl⟩ := (List.eq_nil_or_concat' row).resolve_left nonempty
  have last : c.fits := fit c (by simp)
  have ⟨pixel, _⟩ := last
  rw [patchRow_concat, List.length_append] at whole
  rw [List.flatMap_append, List.append_assoc, patchDecode_codes (fun x hx => fit x (by simp [hx])) hr (by simp; omega),
    List.flatMap_singleton, List.nil_append, patchDecode_code last hr, if_neg (by omega), if_pos whole, patchRow_concat]

theorem patchEncode_cons (row : List PatchCode) (more : List (List PatchCode)) :
    patchEncode (row :: more) = row.flatMap PatchCode.bytes ++ patchEncode more := rfl

theorem patchEncode_append (a b : List (List PatchCode)) : patchEncode (a ++ b) = patchEncode a ++ patchEncode b := List.flatMap_append

theorem patchEncode_singleton (row : List PatchCode) : patchEncode [row] = row.flatMap PatchCode.bytes := List.flatMap_singleton ..

/-- Image rows, as many as are still needed or fewer, are read back. -/
theorem patchDecode_rows {new : List (List PatchCode)} (legal : ∀ r ∈ new, patchRowLegal w r = true) (room : rows.length + new.length ≤ need) :
    patchDecode w need (patchEncode new ++ rest) rows [] = patchDecode w need rest (rows ++ new.map patchRow) [] := by
  induction new generalizing rows with
  | nil => rw [List.map_nil, List.append_nil]; rfl
  | cons row new ih =>
    obtain ⟨first, later⟩ := List.forall_mem_cons.mp legal
    rw [List.length_cons] at room
    rw [patchEncode_cons, List.append_assoc, patchDecode_row first (by omega),
      ih later (by rw [List.length_append, List.length_singleton]; omega), List.map_cons, List.append_assoc, List.singleton_append]

/-- An image that stops within a row. -/
theorem patchDecode_stops {codes : List PatchCode} {n : Nat} (fit : ∀ c ∈ codes, c.fits) (hr : rows.length ≠ need)
    (room : cur.length + (patchRow codes).length ≤ w) (hn : n < (codes.flatMap PatchCode.bytes).length) :
    patchDecode w need ((codes.flatMap PatchCode.bytes).take n) rows cur = (rows, .more, []) := by
  induction codes generalizing cur n with
  | nil => exact absurd hn (Nat.not_lt_zero n)
  | cons c codes ih =>
    obtain ⟨first, later⟩ := List.forall_mem_cons.mp fit
    rw [patchRow_cons, List.length_append] at room
    rw [List.flatMap_cons, List.length_append] at hn
    rw [List.flatMap_cons, List.take_append]
    by_cases within : n < c.bytes.length
    · rw [Nat.sub_eq_zero_of_le within.le, List.take_zero, List.append_nil]
      exact patchDecode_cut first hr (by omega) within
    · have pixels : 0 < (patchRow codes).length := by
        cases codes with
        | nil => simp at hn; omega
        | cons d codes =>
          have ⟨pixel, _⟩ := later d (by simp)
          rw [patchRow_cons, List.length_append]
          omega
      rw [List.take_of_length_le (Nat.le_of_not_lt within), patchDecode_code first hr, if_neg (by omega), if_neg (by omega)]
      exact ih later (by rw [List.length_append]; omega) (by omega)

end

end Sys2Proof.Machine
end

