-- ==== Sys2Proof/Proofs/Codecs.lean ====
section
/-! The statement on the two codecs as a whole (R124, R125, R126; O52). -/

namespace Sys2Proof.Machine

section
variable {w h last len need i n : Nat} {rows : List (List PatchCode)} {more : List Byte}

theorem patchEncode_take_succ (rows : List (List PatchCode)) (hi : i < rows.length) :
    patchEncode (rows.take (i + 1)) = patchEncode (rows.take i) ++ rows[i].flatMap PatchCode.bytes := by
  rw [List.take_succ_eq_append_getElem hi, patchEncode_append, patchEncode_singleton]

/-- Image rows before row `i` are read back, and the decoder goes on with what follows them. -/
theorem patchDecode_rowsBefore (legal : ∀ r ∈ rows, patchRowLegal w r = true) (hi : i ≤ need) (hl : i ≤ rows.length) :
    patchDecode w need (patchEncode (rows.take i) ++ more) [] [] = patchDecode w need more ((rows.take i).map patchRow) [] :=
  patchDecode_rows (fun r hr => legal r (List.mem_of_mem_take hr)) (by simpa [List.length_take, Nat.min_eq_left hl] using hi)

/-- The rows needed are read back, and what follows them is left. -/
theorem patchDecode_image (all : rows.length = last + 1) (legal : ∀ r ∈ rows, patchRowLegal w r = true) (more : List Byte) :
    patchDecode w (last + 1) (patchEncode rows ++ more) [] [] = (rows.map patchRow, .complete, more) := by
  rw [patchDecode_rows legal (by simp [all]), List.nil_append, patchDecode_done (by rw [List.length_map, all])]

/-- An image of which the rows needed are only the first: what follows them does not matter (R126 (3)). -/
theorem decodePatch_part (all : rows.length = last + 1) (legal : ∀ r ∈ rows, patchRowLegal w r = true) (hh : last + 1 < h) :
    decodePatch w h last len (patchEncode rows ++ more) = (rows.map patchRow, .complete) := by
  rw [decodePatch_of_complete (patchDecode_image all legal more), if_neg fun ⟨whole, _⟩ => hh.ne whole]

/-- A whole image, and no byte of it left. -/
theorem decodePatch_whole (all : rows.length = last + 1) (legal : ∀ r ∈ rows, patchRowLegal w r = true) :
    decodePatch w h last (patchEncode rows).length (patchEncode rows) = (rows.map patchRow, .complete) := by
  have read := patchDecode_image all legal []
  rw [List.append_nil] at read
  rw [decodePatch_of_complete read, if_neg (by simp)]

/-- Bytes that remain behind the image's last row are a failure that keeps every row (R126 (2); log 67). -/
theorem decodePatch_remaining (all : rows.length = last + 1) (legal : ∀ r ∈ rows, patchRowLegal w r = true) (hh : last + 1 = h)
    (left : more ≠ [] ∨ (patchEncode rows).length < len) :
    decodePatch w h last len (patchEncode rows ++ more) = (rows.map patchRow, .failed) := by
  have remain : more ≠ [] ∨ (patchEncode rows ++ more).length < len := by
    by_cases none : more = []
    · exact Or.inr (by simpa [none] using left)
    · exact Or.inl none
  rw [decodePatch_of_complete (patchDecode_image all legal more), if_pos ⟨hh, remain⟩]

/-- An image that stops within row `i` brings the rows before it (R126 (2), (4)). -/
theorem decodePatch_stops (all : rows.length = last + 1) (legal : ∀ r ∈ rows, patchRowLegal w r = true) (hi : i ≤ last)
    (reached : (patchEncode (rows.take i)).length ≤ n) (ends : n < (patchEncode (rows.take (i + 1))).length) :
    decodePatch w h last len ((patchEncode rows).take n) = ((rows.take i).map patchRow, if n < len then .more else .failed) := by
  have inside : i < rows.length := by omega
  obtain ⟨-, whole, fit⟩ := patchRowLegal_iff.mp (legal _ (List.getElem_mem inside))
  have image : patchEncode rows = patchEncode (rows.take (i + 1)) ++ patchEncode (rows.drop (i + 1)) := by
    rw [← patchEncode_append, List.take_append_drop]
  have size : ((patchEncode rows).take n).length = n := by
    rw [List.length_take, image, List.length_append]
    omega
  have cut : (patchEncode rows).take n = patchEncode (rows.take i) ++
      (rows[i].flatMap PatchCode.bytes).take (n - (patchEncode (rows.take i)).length) := by
    rw [image, List.take_append_of_le_length ends.le, patchEncode_take_succ rows inside, List.take_append, List.take_of_length_le reached]
  rw [patchEncode_take_succ rows inside, List.length_append] at ends
  have read : patchDecode w (last + 1) ((patchEncode rows).take n) [] [] = ((rows.take i).map patchRow, .more, []) := by
    rw [cut, patchDecode_rowsBefore legal (by omega) inside.le]
    exact patchDecode_stops fit (by simp; omega) (by simp [whole]) (by omega)
  rw [decodePatch_of_more read, size]

/-- A code that would pass the row's w pixels fails with the rows before its own (R126 (2), (4)). -/
theorem decodePatch_past {cur : List PatchCode} {code : PatchCode} (all : rows.length = last + 1)
    (legal : ∀ r ∈ rows, patchRowLegal w r = true) (hi : i ≤ last) (fit : ∀ c ∈ code :: cur, c.fits) (short : (patchRow cur).length < w)
    (past : w < (patchRow cur).length + code.pixels.length) :
    decodePatch w h last len (patchEncode (rows.take i ++ [cur ++ [code]]) ++ more) = ((rows.take i).map patchRow, .failed) := by
  obtain ⟨codeFits, before⟩ := List.forall_mem_cons.mp fit
  have due : ((rows.take i).map patchRow).length ≠ last + 1 := by simp; omega
  have read : patchDecode w (last + 1) (patchEncode (rows.take i ++ [cur ++ [code]]) ++ more) [] [] =
      ((rows.take i).map patchRow, .failed, more) := by
    rw [patchEncode_append, List.append_assoc, patchDecode_rowsBefore legal (by omega) (by omega), patchEncode_singleton,
      List.flatMap_append, List.flatMap_singleton, List.append_assoc, patchDecode_codes before due (by simpa using short),
      patchDecode_code codeFits due, if_pos (by simpa using past)]
  exact decodePatch_of_failed read

end

/-- Settles O52. -/
theorem codecsRoundTrip : Obligations.CodecsRoundTrip := by
  unfold Obligations.CodecsRoundTrip
  refine ⟨fun w h last rows all _ legal => ⟨fun part len more => decodePatch_part all legal part, fun whole => ⟨?_, fun len more left => ?_⟩,
    fun i n len hi reached ends => decodePatch_stops all legal hi reached ends,
    fun i len cur code more hi fit short past => decodePatch_past all legal hi fit short past⟩,
    fun dots rows all legal => decodeStrip_lineEncode all legal, fun dots rest rows few => ?_⟩
  · exact decodePatch_whole all legal
  · exact decodePatch_remaining all legal whole left
  · refine ⟨lineDecode_blank few.ne, fun r => ?_, lineDecode_repeat_first, fun n cur fit past => ?_, fun b cur high => ?_⟩
    · split
      · next full => exact lineDecode_remaining 0xE0 (by rw [List.length_append, full]; rfl)
      · next room => exact lineDecode_repeat r (by rw [List.length_append, List.length_singleton]; omega)
    · rw [lineDecode_runCode few.ne fit, addRun_past past]
      rfl
    · exact lineDecode_noCode few.ne high

end Sys2Proof.Machine
end

