-- ==== Sys2Proof/Proofs/RowSets.lean ====
section
/-! Row sets: each stored dot at its bit, and a plate dot from its strip and its patches (R112, R122, R123, R126, R151; O54). -/

namespace Sys2Proof.Machine

/-! ### Bits gathered from a range -/

/-- The bits gathered one after another stand at their places. -/
theorem getLsbD_foldl_bits {w : Nat} (p : Nat → Bool) (n k : Nat) :
    ((List.range n).foldl (fun (acc : BitVec w) i => if p i then acc ||| (1#w <<< i) else acc) 0).getLsbD k =
      (decide (k < n) && decide (k < w) && p k) := by
  induction n with
  | zero => simp
  | succ n ih =>
    rw [List.range_succ, List.foldl_append, List.foldl_cons, List.foldl_nil]
    have bit (acc : BitVec w) : (if p n then acc ||| (1#w <<< n) else acc).getLsbD k =
        (acc.getLsbD k || (p n && decide (k < w) && decide (k = n))) := by
      cases hp : p n with
      | false => simp
      | true => simpa [mapSet] using getLsbD_mapSet_true acc n k
    rw [bit, ih]
    rcases Nat.lt_trichotomy k n with lt | rfl | gt
    · simp [lt, lt.ne, Nat.lt_succ_of_lt lt]
    · simp [Bool.and_comm]
    · simp [gt.not_gt, gt.ne', Nat.not_lt.mpr (Nat.succ_le_of_lt gt)]

section
variable {ctx : RenderContext} {f : Fill} {i j c d n : Nat}

/-- Channel `c` of a row set's column is the bit of its dot (R112, R151). -/
theorem getLsbD_column (data : List Byte) (i : Nat) (hc : c < 64) :
    (column data i).getLsbD c = (data.getD (64 * c + i / 8) 0).getLsbD (i % 8) := by
  refine (getLsbD_foldl_bits (fun c => (data.getD (64 * c + i / 8) 0).getLsbD (i % 8)) 64 c).trans ?_
  rw [decide_eq_true hc, Bool.true_and, Bool.true_and]

theorem getLsbD_storedByte (hi : i < 8) : (storedByte ctx f c n).getLsbD i = storedDot ctx f c (8 * n + i) := by
  refine (getLsbD_foldl_bits (fun i => storedDot ctx f c (8 * n + i)) 8 i).trans ?_
  rw [decide_eq_true hi, Bool.true_and, Bool.true_and]

/-! ### Row sets (R112, R116) -/

theorem length_rowSetBytes (ctx : RenderContext) (f : Fill) (j : Nat) : (rowSetBytes ctx f j).length = 4096 := by
  rw [rowSetBytes]
  split
  · exact List.length_replicate
  · rw [List.length_map, List.length_range]

theorem rowSetBytes_getD (hb : f.plan.blank = false) (hn : n < 64) (hc : c < 64) :
    (rowSetBytes ctx f j).getD (64 * c + n) 0 = storedByte ctx f c (64 * j + n) := by
  have row : (64 * c + n) / 64 = c := by omega
  have byte : (64 * c + n) % 64 = n := by omega
  have inside : 64 * c + n < 4096 := by omega
  simp [rowSetBytes, hb, List.getD_eq_getElem?_getD, inside, row, byte]

/-! ### Plate dots (R122) -/

/-- Dot `d` lies on the page that the plan's swath carries. -/
def FillPlan.onPage (p : FillPlan) (d : Nat) : Prop := p.blank = false ∧ p.around ≤ d ∧ d - p.around < p.pageDots

theorem renderDot_offPage (h : ¬f.plan.onPage d) : renderDot ctx f c d = false := by
  refine if_pos ?_
  by_contra on
  simp only [Bool.or_eq_true, decide_eq_true_eq, not_or, Bool.not_eq_true, Nat.not_lt, Nat.not_le] at on
  obtain ⟨⟨swath, left⟩, right⟩ := on
  exact h ⟨swath, left, right⟩

/-- A dot of the page: the strip's, and on it the patches in list order, each with its place. -/
theorem renderDot_onPage (h : f.plan.onPage d) : renderDot ctx f c d =
    (f.plan.patches.zipIdx).foldl (fun result e => patchDot ctx.curve ctx.screen ctx.trim (64 * f.swath + c) d e.1
        ((tblGet f.images e.2).getD []) (64 * f.plan.strip + c) (d - f.plan.around) result)
      (runBit (f.lines.getD c []) false (d - f.plan.around)) := by
  obtain ⟨swath, left, right⟩ := h
  exact if_neg (by simp [swath, left, right])

/-- What the head gets: 0 from the width on, and before it the plate dot, mirrored under around-reverse (R112, R123). -/
theorem column_rowSetBytes (hi : i < 512) (hc : c < 64) :
    (column (rowSetBytes ctx f j) i).getLsbD c = storedDot ctx f c (512 * j + i) := by
  rw [getLsbD_column _ i hc]
  cases swath : f.plan.blank with
  | true =>
    have dark : storedDot ctx f c (512 * j + i) = false := by
      rw [storedDot, renderDot_offPage (fun ⟨on, _⟩ => Bool.noConfusion (swath.symm.trans on))]
      exact ite_self _
    rw [rowSetBytes_blank j swath, dark, List.getD_replicate _ (by omega)]
    exact BitVec.getLsbD_zero
  | false =>
    have dot : 8 * (64 * j + i / 8) + i % 8 = 512 * j + i := by omega
    rw [rowSetBytes_getD swath (by omega) hc, getLsbD_storedByte (Nat.mod_lt i (by decide)), dot]

theorem storedDot_eq (ctx : RenderContext) (f : Fill) (c d : Nat) : storedDot ctx f c d =
    (decide (d < ctx.width) && renderDot ctx f c (if ctx.reverse = true then ctx.width - 1 - d else d)) := by
  rw [storedDot]
  split
  · next past => rw [decide_eq_false (Nat.not_lt.mpr past), Bool.false_and]
  · next before => rw [decide_eq_true (Nat.lt_of_not_le before), Bool.true_and]

/-! ### Patches (R123) -/

/-- A patch covers dot `x` of page row `r` (R123 (1)). -/
def PatchSource.covers (p : PatchSource) (r x : Nat) : Prop :=
  p.row0 ≤ r ∧ r < p.row0 + p.h * p.scale ∧ p.dot0 ≤ x ∧ x < p.dot0 + p.w * p.scale

theorem patchCovers_iff {p : PatchSource} {r x : Nat} : patchCovers p r x = true ↔ p.covers r x := by
  simp [patchCovers, PatchSource.covers, and_assoc]

theorem mergeDot_knockout (result s : Bool) : mergeDot 1 result s = s := rfl

theorem mergeDot_overprint (result s : Bool) : mergeDot 2 result s = (result || s) := rfl

section
variable {cv : Curve} {scr : Screen} {trim : Int} {row dot r x : Nat} {p : PatchSource} {rows : List (List Byte)} {result : Bool}

theorem patchDot_uncovered (h : ¬p.covers r x) : patchDot cv scr trim row dot p rows r x result = result := if_neg (mt patchCovers_iff.mp h)

/-- A row of the patch that did not decode gives 0 (R126 (4)). -/
theorem patchDot_undecoded (h : p.covers r x) (hr : rows[(r - p.row0) / p.scale]? = none) :
    patchDot cv scr trim row dot p rows r x result = mergeDot p.mode result false := by
  rw [patchDot, if_pos (patchCovers_iff.mpr h), patchPixel, hr]
  rfl

theorem patchDot_decoded {pixels : List Byte} (h : p.covers r x) (hr : rows[(r - p.row0) / p.scale]? = some pixels) :
    patchDot cv scr trim row dot p rows r x result =
      mergeDot p.mode result (screenDot cv scr (pixels.getD ((x - p.dot0) / p.scale) 0).toNat trim row dot) := by
  rw [patchDot, if_pos (patchCovers_iff.mpr h), patchPixel, hr]
  rfl

end

/-- Where no patch covers the dot, it is the strip's. -/
theorem renderDot_uncovered (h : f.plan.onPage d) (hp : ∀ p ∈ f.plan.patches, ¬p.covers (64 * f.plan.strip + c) (d - f.plan.around)) :
    renderDot ctx f c d = runBit (f.lines.getD c []) false (d - f.plan.around) := by
  rw [renderDot_onPage h]
  refine List.foldlRecOn (motive := fun result => result = runBit (f.lines.getD c []) false (d - f.plan.around)) _ _ rfl
    fun result ih e he => ?_
  rw [patchDot_uncovered (hp e.1 (List.fst_mem_of_mem_zipIdx he)), ih]

/-- The last patch of the list acts on the result of those before it. -/
theorem renderDot_lastPatch {ps : List PatchSource} {p : PatchSource} (h : f.plan.onPage d) (hp : f.plan.patches = ps ++ [p]) :
    renderDot ctx f c d = patchDot ctx.curve ctx.screen ctx.trim (64 * f.swath + c) d p ((tblGet f.images ps.length).getD [])
      (64 * f.plan.strip + c) (d - f.plan.around) (renderDot ctx { f with plan := { f.plan with patches := ps } } c d) := by
  have before : FillPlan.onPage { f.plan with patches := ps } d := h
  rw [renderDot_onPage (f := { f with plan := { f.plan with patches := ps } }) before, renderDot_onPage h, hp, List.zipIdx_append,
    List.foldl_append, List.zipIdx_singleton, List.foldl_cons, List.foldl_nil, Nat.zero_add]

end

/-- Settles O54. -/
theorem rowSetColumns : Obligations.RowSetColumns := by
  unfold Obligations.RowSetColumns
  intro ctx f j i c hi hc d at_ x r
  refine ⟨length_rowSetBytes ctx f j, getLsbD_column _ i hc, (column_rowSetBytes hi hc).trans (storedDot_eq ctx f c d), fun off => ?_,
    fun swath left right => ?_⟩
  · refine renderDot_offPage fun ⟨swath, left, right⟩ => ?_
    rcases off with blank | before | past
    · simp [swath] at blank
    · omega
    · omega
  · have on : f.plan.onPage at_ := ⟨swath, left, right⟩
    refine ⟨fun none => renderDot_uncovered on none, fun ps p hp => ?_⟩
    intro before covers rows
    have last := renderDot_lastPatch (ctx := ctx) (c := c) on hp
    refine ⟨fun beside => last.trans (patchDot_uncovered beside), fun inside undecoded => ?_, fun row inside decoded => ?_⟩
    · have dark := last.trans (patchDot_undecoded inside undecoded)
      exact ⟨fun mode => by rw [dark, mode, mergeDot_knockout], fun mode => by rw [dark, mode, mergeDot_overprint, Bool.or_false]⟩
    · have own := last.trans (patchDot_decoded inside decoded)
      exact ⟨fun mode => by rw [own, mode, mergeDot_knockout], fun mode => by rw [own, mode, mergeDot_overprint]⟩

end Sys2Proof.Machine
end

