-- ==== Sys2Proof/Proofs/ScreenedDots.lean ====
section
/-! SUPPORT. From pixel to dot: the tone between its knots, the clamp and the snaps of the trim stage, and the threshold's tile (O53). -/

namespace Sys2Proof.Machine

/-! ### The tone (R130) -/

/-- A division toward zero on the way from `a` to `b` stays between the two. -/
theorem add_tdiv_between {a b n w : Int} (hn : 0 ≤ n) (hnw : n ≤ w) (hw : 0 < w) :
    min a b ≤ a + Int.tdiv ((b - a) * n) w ∧ a + Int.tdiv ((b - a) * n) w ≤ max a b := by
  have part {d : Int} (hd : 0 ≤ d) : 0 ≤ Int.tdiv (d * n) w ∧ Int.tdiv (d * n) w ≤ d := by
    rw [Int.tdiv_eq_ediv_of_nonneg (Int.mul_nonneg hd hn)]
    exact ⟨Int.ediv_nonneg (Int.mul_nonneg hd hn) hw.le,
      Int.ediv_le_of_le_mul hw (Int.mul_le_mul_of_nonneg_left hnw hd)⟩
  rcases le_total a b with up | down
  · have := part (Int.sub_nonneg_of_le up)
    omega
  · have := part (Int.sub_nonneg_of_le down)
    rw [show (b - a) * n = -((a - b) * n) by ring, Int.neg_tdiv]
    omega

section
variable (c : Curve) {v i : Nat}

/-- The tone of a pixel value of segment `i`, whose width is 16, or 15 for the last. -/
theorem tone_segment (low : 16 * i ≤ v) (high : v ≤ 16 * i + 15) :
    (tone c v : Int) = c.knots.getD i 0 +
        Int.tdiv (((c.knots.getD (i + 1) 0 : Int) - c.knots.getD i 0) * (v - 16 * i)) (if i = 15 then 15 else 16) ∧
      min (c.knots.getD i 0) (c.knots.getD (i + 1) 0) ≤ tone c v ∧ tone c v ≤ max (c.knots.getD i 0) (c.knots.getD (i + 1) 0) := by
  have segment : (if v = 255 then 15 else v / 16) = i := by split <;> omega
  have between := add_tdiv_between (a := c.knots.getD i 0) (b := c.knots.getD (i + 1) 0) (n := (v : Int) - 16 * i)
    (w := if i = 15 then 15 else 16) (by omega) (by split <;> omega) (by split <;> omega)
  have value : (tone c v : Int) = c.knots.getD i 0 +
      Int.tdiv (((c.knots.getD (i + 1) 0 : Int) - c.knots.getD i 0) * (v - 16 * i)) (if i = 15 then 15 else 16) := by
    rw [tone, segment, Int.toNat_of_nonneg (by omega)]
  exact ⟨value, by omega, by omega⟩

/-- Full tone is the last knot. -/
theorem tone_full : tone c 255 = c.knots.getD 16 0 := by
  have value := (tone_segment c (v := 255) (i := 15) (by decide) (by decide)).1
  rw [if_pos rfl, show ((255 : Nat) : Int) - 16 * (15 : Nat) = 15 from rfl, Int.mul_tdiv_cancel _ (by decide)] at value
  exact Int.ofNat_inj.mp (value.trans (add_sub_cancel _ _))

end

/-! ### The trim stage (R131) -/

/-- The screened value of a trimmed tone. -/
def Curve.dotOf (c : Curve) (u : Int) : Nat := snapMax c.maxDot (snapMin c.minDot (clampTone u))

theorem screened_eq (c : Curve) (v : Nat) (trim : Int) : screened c v trim = c.dotOf ((tone c v : Int) + trim) := rfl

theorem clampTone_eq (u : Int) : (clampTone u : Int) = max 0 (min 4095 u) := by
  unfold clampTone
  split_ifs <;> omega

theorem clampTone_mono : Monotone clampTone := by
  intro u u' h
  have low := clampTone_eq u
  have high := clampTone_eq u'
  omega

theorem snapMin_outside {m x : Nat} (h : x = 0 ∨ m ≤ x) : snapMin m x = x := if_neg (by omega)

theorem snapMin_below {m x : Nat} (h0 : 0 < x) (hm : x < m) : snapMin m x = if 2 * x < m then 0 else m := if_pos ⟨h0, hm⟩

theorem snapMin_mono (m : Nat) : Monotone (snapMin m) := by
  intro x y h
  unfold snapMin
  split_ifs <;> omega

theorem snapMax_outside {m x : Nat} (h : x ≤ m ∨ 4095 ≤ x) : snapMax m x = x := if_neg (by omega)

theorem snapMax_above {m x : Nat} (hm : m < x) (h1 : x < 4095) : snapMax m x = if m + 4095 < 2 * x then 4095 else m := if_pos ⟨hm, h1⟩

theorem snapMax_mono {m : Nat} (hm : m ≤ 4095) : Monotone (snapMax m) := by
  intro x y h
  unfold snapMax
  split_ifs <;> omega

section
variable {c : Curve} {u : Int}

theorem dotOf_mono (hc : c.maxDot ≤ 4095) : Monotone c.dotOf :=
  (snapMax_mono hc).comp ((snapMin_mono c.minDot).comp clampTone_mono)

theorem dotOf_dark (h : u ≤ 0) : c.dotOf u = 0 := by
  have clamped := clampTone_eq u
  rw [Curve.dotOf, show clampTone u = 0 by omega, snapMin_outside (.inl rfl), snapMax_outside (.inl (Nat.zero_le _))]

theorem dotOf_full (hm : c.minDot ≤ 409) (h : 4095 ≤ u) : c.dotOf u = 4095 := by
  have clamped := clampTone_eq u
  rw [Curve.dotOf, show clampTone u = 4095 by omega, snapMin_outside (.inr (by omega)), snapMax_outside (.inr le_rfl)]

theorem dotOf_below (hm : c.minDot ≤ 409) (hM : 3686 ≤ c.maxDot) (h0 : 0 < u) (h : u < c.minDot) :
    c.dotOf u = if 2 * u < c.minDot then 0 else c.minDot := by
  have clamped := clampTone_eq u
  rw [Curve.dotOf, snapMin_below (by omega) (by omega), snapMax_outside (.inl (by split_ifs <;> omega))]
  exact if_congr (by omega) rfl rfl

theorem dotOf_between (hM : c.maxDot ≤ 4095) (h0 : c.minDot ≤ u) (h : u ≤ c.maxDot) : (c.dotOf u : Int) = u := by
  have clamped := clampTone_eq u
  rw [Curve.dotOf, snapMin_outside (.inr (by omega)), snapMax_outside (.inl (by omega))]
  omega

theorem dotOf_above (hm : c.minDot ≤ 409) (hM : 3686 ≤ c.maxDot) (h0 : c.maxDot < u) (h : u < 4095) :
    c.dotOf u = if c.maxDot + 4095 < 2 * u then 4095 else c.maxDot := by
  have clamped := clampTone_eq u
  rw [Curve.dotOf, snapMin_outside (.inr (by omega)), snapMax_above (by omega) (by omega)]
  exact if_congr (by omega) rfl rfl

/-- The law of R131: no dot at all, a full one, or one between the minimum and the maximum dot. -/
theorem dotOf_law (hm : c.minDot ≤ 409) (hM : 3686 ≤ c.maxDot) (hM' : c.maxDot ≤ 4095) (u : Int) :
    c.dotOf u = 0 ∨ c.dotOf u = 4095 ∨ (c.minDot ≤ c.dotOf u ∧ c.dotOf u ≤ c.maxDot) := by
  rcases le_or_gt u 0 with dark | h0
  · exact .inl (dotOf_dark dark)
  rcases le_or_gt 4095 u with full | h1
  · exact .inr (.inl (dotOf_full hm full))
  rcases lt_or_ge u c.minDot with below | h2
  · rw [dotOf_below hm hM h0 below]
    split_ifs <;> omega
  rcases le_or_gt u c.maxDot with between | above
  · have value := dotOf_between hM' h2 between
    omega
  · rw [dotOf_above hm hM above h1]
    split_ifs <;> omega

end

/-! ### The threshold test (R132) -/

/-- A dot's place in the tile lies in the tile. -/
theorem tilePlace_lt {n : Nat} (hn : 0 < n) (row dot : Nat) : n * (row % n) + dot % n < n * n :=
  calc n * (row % n) + dot % n < n * (row % n) + n := Nat.add_lt_add_left (Nat.mod_lt _ hn) _
    _ = n * (row % n + 1) := (Nat.mul_succ _ _).symm
    _ ≤ n * n := Nat.mul_le_mul_left _ (Nat.mod_lt _ hn)

theorem threshold_of_place {s : Screen} {row dot θ : Nat} (h : s.thresholds[s.size * (row % s.size) + dot % s.size]? = some θ) :
    threshold s row dot = θ := by rw [threshold, List.getD_eq_getElem?_getD, h, Option.getD_some]

theorem screenDot_iff {c : Curve} {s : Screen} {v row dot : Nat} {trim : Int} :
    screenDot c s v trim row dot = true ↔ threshold s row dot ≤ screened c v trim := decide_eq_true_iff

/-- The tile repeats along the rows and along the dots. -/
theorem threshold_repeats (s : Screen) (row dot : Nat) :
    threshold s (row + s.size) dot = threshold s row dot ∧ threshold s row (dot + s.size) = threshold s row dot := by
  constructor <;> simp only [threshold, Nat.add_mod_right]

/-- Settles O53, by the tone's segment, the range of the trimmed tone, and the tile's thresholds of 1 to 4,095. -/
theorem screenedValue : Obligations.ScreenedValue := by
  intro c v trim _ _ hm hM hM' _ q u knot
  refine ⟨fun i _ low high => tone_segment c low high, tone_full c, dotOf_dark, dotOf_full hm, dotOf_below hm hM,
    dotOf_between hM', dotOf_above hm hM, dotOf_law hm hM hM' u, fun more h => dotOf_mono hM' (Int.add_le_add_left h _), ?_⟩
  intro s row dot hs hl hθ
  have held : s.size * (row % s.size) + dot % s.size < s.thresholds.length := hl ▸ tilePlace_lt (by omega) row dot
  have place := List.getElem?_eq_getElem held
  obtain ⟨least, most⟩ := hθ _ (List.getElem_mem held)
  have exposed : screenDot c s v trim row dot = true ↔ s.thresholds[s.size * (row % s.size) + dot % s.size] ≤ q := by
    rw [screenDot_iff, threshold_of_place place]
  obtain ⟨rows, dots⟩ := threshold_repeats s row dot
  refine ⟨_, place, exposed, fun none => ?_, fun full => ?_, ?_, ?_⟩
  · rw [← Bool.not_eq_true, exposed]
    omega
  · exact exposed.mpr (by omega)
  · rw [screenDot, rows, screenDot]
  · rw [screenDot, dots, screenDot]

end Sys2Proof.Machine
end

