-- ==== Sys2Proof/Proofs/IndexSettling.lean ====
section
/-! SUPPORT. An index outside EXPOSING: the captures alone, the settle count, a slip, and the entry into EXPOSING (O56). -/

namespace Sys2Proof.Machine

section

variable {k : Chip} {p : PlateRef} {r : Rating}

/-! ### Who takes the index (R148, R170) -/

/-- An index pulse that is not halted: the captures, the imager, and then the feed. -/
theorem indexPulse_eq (elapsed : Nat) (h : k.pd.runState ≠ .halted) :
    indexPulse elapsed k = feedAtCount (imagerIndex (ratingAt k elapsed) (k.captured elapsed)) := if_neg h

theorem imagerIndex_idle (rating : Option Rating)
    (h : k.working = false ∨ k.imc.drum = none ∨ (k.imc.state ≠ .settling ∧ k.imc.state ≠ .exposing)) : imagerIndex rating k = k := by
  unfold imagerIndex
  rcases h with off | bare | ⟨unsettled, unexposing⟩
  · rw [off]
    rfl
  · rw [drumPlate, bare, ite_self]
  · cases hs : k.imc.state
    case settling => exact absurd hs unsettled
    case exposing => exact absurd hs unexposing
    all_goals
      split
      · split <;> rfl
      · rfl

theorem imagerIndex_settling {d : Drum} (rating : Option Rating) (hw : k.working = true) (hd : k.imc.drum = some d)
    (ho : d.owner = some p) (hs : k.imc.state = .settling) : imagerIndex rating k = settleIndex p rating k := by
  rw [imagerIndex, if_pos hw, drumPlate_eq hd ho, hs]

theorem ratingAt_unrated (elapsed : Nat) (h : ¬(k.dtu.reference = false ∧ k.imc.drumTarget ≠ 0)) : ratingAt k elapsed = none := by
  have un : unrated k = true := by
    by_cases reference : k.dtu.reference = false
    · simp [unrated, not_not.mp fun target => h ⟨reference, target⟩]
    · simp [unrated, reference]
  exact if_pos un

theorem ratingAt_rated (elapsed : Nat) (h : k.dtu.reference = false ∧ k.imc.drumTarget ≠ 0) (hs : k.imc.state = .settling) :
    ratingAt k elapsed = some (k.ratingOf elapsed) := if_neg (by simp [unrated, h, hs])

/-! ### The settle count (R157) -/

/-- The chip with another settle count. -/
def Chip.settled (k : Chip) (n : Nat) : Chip := { k with imc := { k.imc with exposure := { k.imc.exposure with settle := n } } }

theorem settleIndex_fails (hw : r.inWindow = false) (hs : r.slip = false) : settleIndex p (some r) k = k.settled 0 := by
  simp only [settleIndex, hw, hs]
  rfl

theorem settleIndex_slips (hs : r.slip = true) :
    settleIndex p (some r) k = offerSlip (countDetail k.dtu.captureC) (k.settled 0) := by
  simp only [settleIndex, hs, Bool.not_true, Bool.and_false]
  rfl

theorem settleIndex_counts (hw : r.inWindow = true) (hs : r.slip = false) (hc : k.imc.exposure.settle ≠ k.lay.settleCount) :
    settleIndex p (some r) k = k.settled (min k.lay.settleCount (k.imc.exposure.settle + 1)) := by
  simp only [settleIndex, settleAfter, hw, hs, if_neg hc]
  rfl

/-- With settling complete before it, a good index enters EXPOSING, or finds the entry held up. -/
theorem settleIndex_complete (hw : r.inWindow = true) (hs : r.slip = false) (hc : k.imc.exposure.settle = k.lay.settleCount) :
    settleIndex p (some r) k = if k.regs.exposeEnable && !profileHeld k p.profile then enterExposing p k else k := by
  simp only [settleIndex, hw, hs, if_pos hc]
  rfl

/-! ### Entry into EXPOSING (R143, R158) -/

theorem profileHeld_iff (k : Chip) (i : Nat) : profileHeld k i = true ↔
    (∃ q ∈ k.tl.pendingSet, q.id = ⟨.profile, i⟩ ∨ q.id.kind = .power) ∨
      ∃ r, k.tl.reload = some r ∧ (r.id = ⟨.profile, i⟩ ∨ r.id.kind = .power) := by
  cases hr : k.tl.reload <;> simp [profileHeld, hr]

/-- A new drum target; from 0 to a speed the next index is a reference index. -/
theorem setTarget_eq (rpm : Nat) (k : Chip) : setTarget rpm k = { k with
    imc := { k.imc with drumTarget := rpm }
    dtu := if k.imc.drumTarget = 0 ∧ rpm ≠ 0 then { k.dtu with reference := true } else k.dtu } := by
  unfold setTarget
  split <;> rfl

/-- A drum that turns already keeps its reference for the index. -/
theorem setTarget_turning (rpm : Nat) (h : k.imc.drumTarget ≠ 0) : setTarget rpm k = { k with imc := { k.imc with drumTarget := rpm } } := by
  rw [setTarget_eq, if_neg (fun stopped => h stopped.1)]

theorem goTo_exposing (h : k.imc.drumTarget ≠ 0) : goTo .exposing k =
    { k with imc := { k.imc with state := .exposing, drumTarget := k.imc.exposure.values.rpm } } :=
  setTarget_turning (k := k.setImc { k.imc with state := .exposing }) k.imc.exposure.values.rpm h

theorem enterExposing_eq (h : k.imc.drumTarget ≠ 0) : enterExposing p k =
    let prof := (k.profile p.profile).val
    { k with
      imc := { k.imc with
        state := .exposing
        drumTarget := prof.rpm
        exposure :=
          { cursor := 0, pass := 0, holds := 0, exposed := 0, begun := false, breakRequest := false
            settle := k.imc.exposure.settle, deferredBreak := false, entered := true
            values := ⟨prof.rpm, prof.passes, prof.step, k.tl.power.val.getD prof.step 0⟩ } }
      hf := { k.hf with level := k.tl.power.val.getD prof.step 0, position := 0 }
      psc := { k.psc with inbox := k.psc.inbox ++ [.exposingEntry p.slot p.attempt p.prep] } } := by
  unfold enterExposing
  dsimp only
  rw [goTo_exposing]
  · rfl
  · exact h

end

/-! ### The whole index (R148) -/

/-- An index that leaves no pass in progress feeds nothing. -/
theorem exec_index_unfed {s : State} {elapsed : Nat} {t : Chip} (live : s.chip.pd.runState ≠ .halted)
    (h : imagerIndex (ratingAt s.chip elapsed) (s.chip.captured elapsed) = t) (ht : t.hf.pass = none) :
    exec (.index elapsed) s = .next (s.setChip t) :=
  exec_index (by rw [indexPulse_eq elapsed live, h, feedAtCount_idle ht])

/-- Settles O56, along the imager's ways with an index while SETTLING. -/
theorem indexSettles : Obligations.IndexSettles := by
  intro s elapsed k i c target rated inWindow slip settled
  refine ⟨fun halted => exec_eq_of_chip (f := indexPulse elapsed) rfl (if_pos halted), fun live => ⟨fun idle => ?_, ?_⟩⟩
  · exact exec_index_unfed live (imagerIndex_idle (k := c) _ idle) rfl
  intro d p hw hd ho hs prof held
  have taken {t : Chip} (ht : settleIndex p (ratingAt k elapsed) c = t) (feed : t.hf.pass = none) : exec i s = .next (s.setChip t) :=
    exec_index_unfed live ((imagerIndex_settling (k := c) _ hw hd ho hs).trans ht) feed
  have inWindow_iff : (k.ratingOf elapsed).inWindow = true ↔ inWindow := decide_eq_true_iff
  have slip_iff : (k.ratingOf elapsed).slip = true ↔ slip := decide_eq_true_iff
  have late_iff : (k.ratingOf elapsed).inWindow = false ↔ ¬inWindow := by rw [← inWindow_iff, Bool.not_eq_true]
  have firm_iff : (k.ratingOf elapsed).slip = false ↔ ¬slip := by rw [← slip_iff, Bool.not_eq_true]
  have rating (h : rated) : settleIndex p (ratingAt k elapsed) c = settleIndex p (some (k.ratingOf elapsed)) c := by
    rw [ratingAt_rated elapsed h hs]
  have complete (good : inWindow) (firm : ¬slip) := settleIndex_complete (k := c) (p := p) (inWindow_iff.mpr good) (firm_iff.mpr firm)
  have entry : (c.regs.exposeEnable && !profileHeld c p.profile) = true ↔ k.regs.exposeEnable = true ∧ ¬held := by
    rw [Bool.and_eq_true, Bool.not_eq_true', ← Bool.not_eq_true, profileHeld_iff]
    rfl
  refine ⟨fun un => taken (by rw [ratingAt_unrated elapsed un]; rfl) rfl, fun h late firm => ?_, fun h slips => ?_,
    fun h good firm => ⟨fun more => ?_, fun full => ⟨fun waits => ?_, fun enabled free => ?_⟩⟩⟩
  · exact taken ((rating h).trans (settleIndex_fails (k := c) (late_iff.mpr late) (firm_iff.mpr firm))) rfl
  · obtain ⟨q, record, ws, offered, -, latched⟩ := offerSlip_eq (countDetail c.dtu.captureC) (settled 0)
    refine ⟨_, taken ((rating h).trans ((settleIndex_slips (k := c) (slip_iff.mpr slips)).trans offered)) rfl, rfl, rfl, rfl, rfl, rfl, rfl,
      rfl, fun invalid => ?_⟩
    rw [latched invalid]
    rfl
  · exact taken ((rating h).trans (settleIndex_counts (k := c) (inWindow_iff.mpr good) (firm_iff.mpr firm) more)) rfl
  · refine taken ((rating h).trans ((complete good firm full).trans (if_neg (mt entry.mp ?_)))) rfl
    rintro ⟨enabled, free⟩
    rcases waits with disabled | waits
    · exact Bool.false_ne_true (disabled.symm.trans enabled)
    · exact free waits
  · exact taken ((rating h).trans ((complete good firm full).trans
      ((if_pos (entry.mpr ⟨enabled, free⟩)).trans (enterExposing_eq (k := c) h.2)))) rfl

end Sys2Proof.Machine
end

