-- ==== Sys2Proof/Proofs/ReloadBegins.lean ====
section
/-! SUPPORT. TL begins a reload: which table is next, and the first read of its bytes (O51). -/

namespace Sys2Proof.Machine

/-! ### The first read (R133, R140) -/

/-- A span within one page is one piece. -/
theorem pieces_inPage {a n : Nat} (hn : 0 < n) (h : a % 4096 + n ≤ 4096) : pieces a n = [(a % 4294967296, n)] := by
  have whole : min n (4096 - a % 4096) = n := by omega
  rw [pieces, piecesAux, if_neg hn.ne', whole, Nat.sub_self, piecesAux_empty]
  rfl

/-- The first read of a table lies in the first page of the table area. -/
theorem tablePlace_inPage (id : TableId) (hi : id.idx < 16) : 0 < (tablePlace id).2 ∧ (tablePlace id).1 + (tablePlace id).2 ≤ 4096 := by
  obtain ⟨kind, i⟩ := id
  have hi' : i < 16 := hi
  cases kind <;> simp only [tablePlace] <;> omega

section
variable {k : Chip}

/-- The chip with the reload of a table begun: its first read waits behind BR's other transfers. -/
def Chip.reloadBegun (k : Chip) (id : TableId) (due : Bool) (place : Nat × Nat) : Chip :=
  { k with
    tl := { k.tl with reload := some { id := id, due := due, reads := [], bytes := [], outcome := none } }
    sp := { k.sp with br := k.sp.br ++
      [{ client := .br, stream := some .brRead, addr := (k.lay.tableBase + place.1) % 4294967296, op := .read place.2
         purpose := .table, notices := [] }] } }

theorem beginReload_eq {id : TableId} (due : Bool) (hi : id.idx < 16) (hb : k.lay.tableBase % 4096 = 0) :
    beginReload id due k = k.reloadBegun id due (tablePlace id) := by
  obtain ⟨some_, fits⟩ := tablePlace_inPage id hi
  rw [beginReload, tableSpan, pieces_inPage some_ (by omega)]
  rfl

/-! ### The table that is next (R141–R143, R145) -/

theorem mayReload_iff {p : PendingTable} : mayReload k p = true ↔
    (p.id.kind.isRender = true → p.due = true ∧ k.tl.point = true) ∧ (¬p.id.kind.isRender = true → k.imc.state ≠ .exposing) := by
  unfold mayReload
  split
  · next render => simp [render]
  · next other => simp [other]

theorem working_not_starting (h : k.working = true) : k.pd.runState ≠ .starting := by
  intro starting
  simp [Chip.working, starting] at h

theorem reloadBegin_busy (h : k.tl.reload.isSome = true) : reloadBegin k = k := if_pos h

/-- Where the blocks work, the oldest pending table that may be reloaded is next. -/
theorem reloadBegin_working (hr : k.tl.reload = none) (hw : k.working = true) :
    ((∀ p ∈ k.tl.pendingSet, ¬mayReload k p = true) → reloadBegin k = k) ∧
      ∀ a p b, k.tl.pendingSet = a ++ p :: b → (∀ x ∈ a, ¬mayReload k x = true) → mayReload k p = true →
        reloadBegin k =
          beginReload p.id p.due (k.setTl { k.tl with pendingSet := k.tl.pendingSet.filter (fun q => decide (q.id ≠ p.id)) }) := by
  have idle : ¬k.tl.reload.isSome = true := by simp [hr]
  have running : ¬(k.pd.runState = .starting ∧ k.pd.phase = .tables) := fun starting => working_not_starting hw starting.1
  have next : reloadBegin k = (k.tl.pendingSet.find? (mayReload k)).elim k (fun p =>
      beginReload p.id p.due (k.setTl { k.tl with pendingSet := k.tl.pendingSet.filter (fun q => decide (q.id ≠ p.id)) })) := by
    rw [reloadBegin, if_neg idle, if_neg running, if_pos hw]
    cases k.tl.pendingSet.find? (mayReload k) <;> rfl
  refine ⟨fun barred => ?_, fun a p b split before may => ?_⟩
  · rw [next, List.find?_eq_none.mpr barred, Option.elim_none]
  · have found : k.tl.pendingSet.find? (mayReload k) = some p := by
      rw [split, List.find?_append, List.find?_eq_none.mpr before, Option.none_or, List.find?_cons_of_pos may]
    rw [next, found, Option.elim_some]

/-- In STARTING the tables come in their order, up to the last. -/
theorem reloadBegin_starting (hr : k.tl.reload = none) (hs : k.pd.runState = .starting) (hp : k.pd.phase = .tables) :
    (49 ≤ k.tl.startNext → reloadBegin k = k) ∧
      (k.tl.startNext < 49 → reloadBegin k =
        beginReload (startTable k.tl.startNext) false (k.setTl { k.tl with startNext := k.tl.startNext + 1 })) := by
  have idle : ¬k.tl.reload.isSome = true := by simp [hr]
  rw [reloadBegin, if_neg idle, if_pos ⟨hs, hp⟩]
  exact ⟨fun done => if_neg (Nat.not_lt.mpr done), fun more => if_pos more⟩

theorem startTable_idx_lt {n : Nat} (h : n < 49) : (startTable n).idx < 16 := by
  unfold startTable
  split_ifs <;> dsimp only <;> omega

end

end Sys2Proof.Machine
end

