-- ==== Sys2Proof/Proofs/ReloadEnds.lean ====
section
/-! SUPPORT. A reload ends: the copy it installs, the CLEARs of STARTING, and what IMC makes of a profile reload (O51). -/

namespace Sys2Proof.Machine

section
variable {k : Chip} {id : TableId} {p : PlateRef} {r : Reload} {valid : Bool}

/-! ### The end of a reload (R137, R140, R182) -/

/-- The chip with the outcome of a reload installed. -/
def Chip.installed (k : Chip) (r : Reload) (valid : Bool) : Chip :=
  { k with tl := { installTable k.tl r.id valid r.bytes with reload := none } }

theorem reloadEnd_starting (hr : k.tl.reload = some r) (ho : r.outcome = some valid) (hs : k.pd.runState = .starting) :
    reloadEnd k = if k.tl.startNext = 49 then beginClears (k.installed r valid) else k.installed r valid := by
  simp only [reloadEnd, hr, ho, if_pos hs]
  rfl

theorem reloadEnd_working (hr : k.tl.reload = some r) (ho : r.outcome = some valid) (hw : k.working = true) :
    reloadEnd k = if r.id.kind.isRender then k.installed r valid else profileReloaded r.id (k.installed r valid) := by
  simp only [reloadEnd, hr, ho, if_neg (working_not_starting hw), if_pos hw]
  rfl

/-- A unit with a CLEAR at the head of its queue. -/
def UnitState.clearing (u : UnitState) : UnitState :=
  { u with queue := { kind := .clear, slot := none, attempt := 0, seq := 0 } :: u.queue }

theorem beginClears_eq (k : Chip) : beginClears k = { k with
    pd := { k.pd with phase := .clears }
    hlc := { k.hlc with
      loader := k.hlc.loader.clearing, punch := k.hlc.punch.clearing, processor := k.hlc.processor.clearing
      sorter := k.hlc.sorter.clearing } } := rfl

/-! ### The plate and the profile that a reload is about (R138, R144, R152) -/

theorem reloadConcerns_iff : reloadConcerns id p = true ↔ id = ⟨.profile, p.profile⟩ ∨ id.kind = .power := by
  rw [reloadConcerns, Bool.or_eq_true, decide_eq_true_eq, decide_eq_true_eq]

/-- The plate in PREPARING: the waiting one, the one of the LOAD, or the drum plate before EXPOSING. -/
theorem preparingPlate_iff : preparingPlate k = some p ↔ k.imc.waiting = some p ∨
    (k.imc.waiting = none ∧ ∃ l, k.imc.load = some l ∧ l.plate = some p) ∨
    (k.imc.waiting = none ∧ k.imc.load = none ∧
      ∃ d, k.imc.drum = some d ∧ d.cond = .unexposed ∧ d.owner = some p ∧ k.imc.exposure.entered = false) := by
  unfold preparingPlate
  cases hw : k.imc.waiting with
  | some q => simp
  | none =>
    cases hl : k.imc.load with
    | some l => simp
    | none =>
      cases hd : k.imc.drum with
      | none => simp
      | some d =>
        cases he : k.imc.exposure.entered <;> simp

theorem drumPlate_iff : drumPlate k = some p ↔ ∃ d, k.imc.drum = some d ∧ d.owner = some p := by
  cases hd : k.imc.drum <;> simp [drumPlate, hd]

/-- TL finds no fault with a profile when it and the power table are VALID. -/
theorem profileFault_none {i : Nat} : profileFault k i = none ↔ ¬((k.profile i).valid = false ∨ k.tl.power.valid = false) := by
  unfold profileFault
  cases (k.profile i).valid <;> cases k.tl.power.valid <;> simp

/-- The fault that TL finds, by its detail in a mark. -/
theorem profileFault_some {i : Nat} (h : (k.profile i).valid = false ∨ k.tl.power.valid = false) :
    ∃ t, profileFault k i = some t ∧ t.detail = if (k.profile i).valid = false then 48 + i else 64 := by
  unfold profileFault
  cases hp : (k.profile i).valid with
  | false => exact ⟨_, rfl, rfl⟩
  | true =>
    have power := h.resolve_left (by simp [hp])
    exact ⟨⟨.power, 0⟩, by rw [power]; rfl, rfl⟩

/-! ### The mark of a lost profile (R144, log 36) -/

/-- IMC's report of the plate in PREPARING whose profile is lost; it names no place (log 36). -/
def lostReport (p : PlateRef) (t : TableId) : MarkReport :=
  { slot := p.slot, attempt := p.attempt, kind := .table, location := .none, key := none, detail := t.detail, place := none, nosep := none }

theorem profileLost_marks {t : TableId} (hp : preparingPlate k = some p) (hc : reloadConcerns id p = true)
    (hf : profileFault k p.profile = some t) : profileLost id k = reportMark (lostReport p t) k := by
  simp only [profileLost, hp, if_pos hc, hf]
  rfl

theorem profileLost_spares (h : ∀ p, preparingPlate k = some p → reloadConcerns id p = true → profileFault k p.profile = none) :
    profileLost id k = k := by
  unfold profileLost
  split
  · rfl
  · next p hp =>
    split
    · next hc => rw [h p hp hc]
    · rfl

theorem profileLost_frame (id : TableId) (k : Chip) :
    ∃ l r, profileLost id k = { k with dmr := { k.dmr with lists := l }, sp := { k.sp with report := r } } := by
  by_cases h : ∀ p, preparingPlate k = some p → reloadConcerns id p = true → profileFault k p.profile = none
  · exact ⟨_, _, profileLost_spares h⟩
  · push Not at h
    obtain ⟨p, hp, hc, fault⟩ := h
    obtain ⟨t, hf⟩ := Option.ne_none_iff_exists'.mp fault
    obtain ⟨l, r, spec, -⟩ := reportMark_spec (lostReport p t) k
    exact ⟨l, r, (profileLost_marks hp hc hf).trans spec⟩

/-- The mark is FAIL, uncharged, and without a place while nothing of the plate's aluminium is exposed. -/
theorem lostReport_marked (p : PlateRef) (t : TableId) (k : Chip) (held : (k.plate p.slot).isSome = true)
    (room : (k.marks p.slot).marks.length < 8) :
    ∃ m, ((reportMark (lostReport p t) k).marks p.slot).marks = (k.marks p.slot).marks ++ [m] ∧ m.kind = .table ∧ m.severity = .fail ∧
      m.charged = false ∧ m.attempt = p.attempt ∧
      (exposureBegun k p.slot p.attempt = false → (∀ x, k.plate p.slot = some x → x.state ≠ .finishing) → m.place = .none) ∧
      m.detail = t.detail := by
  obtain ⟨l, r, -, -, stored⟩ := reportMark_spec (lostReport p t) k
  refine ⟨_, stored held (not_suppressed nofun nofun) room, rfl, rfl, rfl, rfl, fun unbegun unfinished => ?_, rfl⟩
  have unfinishing : finishingCurrent k p.slot p.attempt = false := by
    cases hp : k.plate p.slot with
    | none => simp [finishingCurrent, hp]
    | some x => simp [finishingCurrent, hp, unfinished x hp]
  change askedPlace k p.slot p.attempt = .none
  rw [askedPlace, unbegun, unfinishing]
  rfl

/-! ### The values of the drum plate's profile (R144, R157, log 58) -/

theorem drumRetakes_keeps
    (h : ∀ p, k.imc.state = .settling → drumPlate k = some p → ¬(reloadConcerns id p = true ∧ profileFault k p.profile = none)) :
    drumRetakes id k = k := by
  unfold drumRetakes
  split
  · rfl
  · next p hp =>
    split
    · next taken =>
      rw [Bool.and_eq_true, Option.isNone_iff_eq_none] at taken
      refine if_neg fun settles => ?_
      rw [Bool.and_eq_true, decide_eq_true_eq] at settles
      exact h p settles.1 hp taken
    · rfl

/-- A changed speed is the new drum target at once and clears the settle count. -/
theorem drumRetakes_takes (hs : k.imc.state = .settling) (hd : drumPlate k = some p) (hc : reloadConcerns id p = true)
    (hf : profileFault k p.profile = none) : drumRetakes id k =
      let prof := (k.profile p.profile).val
      { k with
        imc := { k.imc with
          drumTarget := (if prof.rpm = k.imc.exposure.values.rpm then k.imc.drumTarget else prof.rpm)
          exposure := { k.imc.exposure with
            values := ⟨prof.rpm, prof.passes, prof.step, k.tl.power.val.getD prof.step 0⟩
            settle := (if prof.rpm = k.imc.exposure.values.rpm then k.imc.exposure.settle else 0) } }
        dtu := (if prof.rpm = k.imc.exposure.values.rpm then k.dtu
          else if k.imc.drumTarget = 0 ∧ prof.rpm ≠ 0 then { k.dtu with reference := true } else k.dtu) } := by
  have taken : drumRetakes id k = retakeValues p k := by
    simp only [drumRetakes, hd, hc, hf]
    rfl
  rw [taken, retakeValues, if_pos (by simp [hs, hd])]
  dsimp only
  by_cases same : (k.profile p.profile).val.rpm = k.imc.exposure.values.rpm
  · rw [if_pos (show (profileValues k p.profile).rpm = _ from same), if_pos same, if_pos same, if_pos same]
    rfl
  · rw [if_neg (show ¬(profileValues k p.profile).rpm = _ from same), if_neg same, if_neg same, if_neg same, setTarget_eq]
    rfl

/-- The chip with a mark recorded. -/
def Chip.marked (k : Chip) (lists : List (Nat × SlotMarks)) (report : List Transfer) : Chip :=
  { k with dmr := { k.dmr with lists := lists }, sp := { k.sp with report := report } }

/-- The values are taken again whatever has been marked. -/
theorem drumRetakes_marked (id : TableId) (k : Chip) (l : List (Nat × SlotMarks)) (r : List Transfer) :
    drumRetakes id (k.marked l r) = { k.marked l r with imc := (drumRetakes id k).imc, dtu := (drumRetakes id k).dtu } := by
  by_cases h : ∀ p, k.imc.state = .settling → drumPlate k = some p → ¬(reloadConcerns id p = true ∧ profileFault k p.profile = none)
  · rw [drumRetakes_keeps h, drumRetakes_keeps (k := k.marked l r) h]
    rfl
  · push Not at h
    obtain ⟨p, hs, hd, hc, hf⟩ := h
    rw [drumRetakes_takes hs hd hc hf, drumRetakes_takes (k := k.marked l r) hs hd hc hf]
    rfl

theorem profileReloaded_eq (id : TableId) (k : Chip) : profileReloaded id k = { k with
    imc := (drumRetakes id k).imc, dtu := (drumRetakes id k).dtu
    dmr := { k.dmr with lists := (profileLost id k).dmr.lists }, sp := { k.sp with report := (profileLost id k).sp.report } } := by
  obtain ⟨l, r, lost⟩ := profileLost_frame id k
  rw [profileReloaded, lost]
  exact drumRetakes_marked id k l r

end

/-- Settles O51: the table that is next, the first read, and the installed copy, with the mark and the values apart. -/
theorem tableReloads : Obligations.TableReloads := by
  intro s k render allowed place begun all
  have render_iff (t : TableKind) : t.isRender = true ↔ render t := isRender_iff t
  have allowed_iff (p : PendingTable) : mayReload k p = true ↔ allowed p := by
    rw [mayReload_iff, render_iff]
  have place_eq (id : TableId) : place id = tablePlace id := by
    obtain ⟨kind, i⟩ := id
    cases kind <;> rfl
  have begins {id : TableId} {due : Bool} {tl : TableLoader} (hi : id.idx < 16) (hb : k.lay.tableBase % 4096 = 0)
      (h : reloadBegin k = beginReload id due (k.setTl tl)) : exec .reloadBegin s = .next (begun id due tl) := by
    refine exec_to_chip reloadBegin rfl (h.trans ((beginReload_eq (k := k.setTl tl) due hi hb).trans ?_))
    rw [← place_eq]
    rfl
  refine ⟨fun busy => exec_eq_of_chip (f := reloadBegin) rfl (reloadBegin_busy busy), fun idle hw => ?_, fun idle hs hp => ?_,
    fun r valid hr ho => ?_⟩
  · obtain ⟨barred, oldest⟩ := reloadBegin_working (k := k) idle hw
    simp only [allowed_iff] at barred oldest
    exact ⟨fun none => exec_eq_of_chip (f := reloadBegin) rfl (barred none),
      fun a p b split before may hi hb => begins hi hb (oldest a p b split before may)⟩
  · obtain ⟨last, next⟩ := reloadBegin_starting (k := k) idle hs hp
    refine ⟨fun done => exec_eq_of_chip (f := reloadBegin) rfl (last done), fun id at_ hb => ?_⟩
    have tables : all = (List.range 49).map startTable := by decide
    rw [tables, List.getElem?_map, Option.map_eq_some_iff] at at_
    obtain ⟨n, hn, rfl⟩ := at_
    obtain ⟨inOrder, rfl⟩ := List.getElem?_eq_some_iff.mp hn
    have more : k.tl.startNext < 49 := by simpa using inOrder
    rw [List.getElem_range]
    exact begins (startTable_idx_lt more) hb (next more)
  intro b i tl0 tl clear
  have installs : k.installed r valid = { k with tl := tl } := by
    obtain ⟨⟨kind, i⟩, due, reads, bytes, outcome⟩ := r
    cases kind <;> rfl
  refine ⟨fun hs more => ?_, fun hs last => ?_, fun hw unheld => ?_, fun hw other => ?_⟩
  · exact exec_to_chip reloadEnd rfl ((reloadEnd_starting (k := k) hr ho hs).trans ((if_neg more).trans installs))
  · refine exec_to_chip reloadEnd rfl ((reloadEnd_starting (k := k) hr ho hs).trans ((if_pos last).trans ?_))
    rw [installs, beginClears_eq]
    rfl
  · refine exec_to_chip reloadEnd rfl ((reloadEnd_working (k := k) hr ho hw).trans ?_)
    split
    · exact installs
    · next other =>
      obtain ⟨waiting, load, drum⟩ := unheld.resolve_left (mt (render_iff _).mpr other)
      have unprepared : preparingPlate (k.installed r valid) = none := by
        simp only [preparingPlate, Chip.installed, waiting, load, drum]
      have bare : drumPlate (k.installed r valid) = none := by simp only [drumPlate, Chip.installed, drum]
      rw [profileReloaded, profileLost_spares (by simp [unprepared]), drumRetakes_keeps (by simp [bare]), installs]
  intro held lost concerns preparing settles
  have ends : reloadEnd k = profileReloaded r.id { k with tl := tl } := by
    rw [reloadEnd_working hr ho hw, if_neg (mt (render_iff _).mp other), installs]
  have preparing_iff (p : PlateRef) : preparingPlate { k with tl := tl } = some p ↔ preparing p := preparingPlate_iff
  have drum_iff (p : PlateRef) : drumPlate { k with tl := tl } = some p ↔ ∃ d, k.imc.drum = some d ∧ d.owner = some p := drumPlate_iff
  have concerns_iff (p : PlateRef) : reloadConcerns r.id p = true ↔ concerns p := reloadConcerns_iff
  have fault_iff (p : PlateRef) : profileFault { k with tl := tl } p.profile = none ↔ ¬lost p := profileFault_none
  refine ⟨s.setChip (profileReloaded r.id { k with tl := tl }), exec_to_chip reloadEnd rfl ends, rfl, rfl, ?_⟩
  rw [State.setChip_chip, profileReloaded_eq]
  refine ⟨rfl, fun spared => ?_, fun p hp hc hl present room => ?_, fun unsettled => ?_, fun p hp hc hv => ?_⟩
  · rw [profileLost_spares fun p hp hc => (fault_iff p).mpr fun hl => spared p ((preparing_iff p).mp hp) ⟨(concerns_iff p).mp hc, hl⟩]
    exact ⟨rfl, rfl⟩
  · obtain ⟨t, fault, detail⟩ := profileFault_some (k := { k with tl := tl }) hl
    rw [profileLost_marks ((preparing_iff p).mpr hp) ((concerns_iff p).mpr hc) fault]
    obtain ⟨m, stored, kind, severity, charged, attempt, place, shown⟩ := lostReport_marked p t { k with tl := tl } present room
    exact ⟨m, stored, kind, severity, charged, attempt, place, shown.trans detail⟩
  · rw [drumRetakes_keeps]
    · exact ⟨rfl, rfl⟩
    rintro p hs hd ⟨hc, hv⟩
    rcases unsettled p ⟨hs, (drum_iff p).mp hd⟩ with unconcerned | hl
    · exact unconcerned ((concerns_iff p).mp hc)
    · exact (fault_iff p).mp hv hl
  · rw [drumRetakes_takes (k := { k with tl := tl }) hp.1 ((drum_iff p).mpr hp.2) ((concerns_iff p).mpr hc) ((fault_iff p).mpr hv)]
    rfl

end Sys2Proof.Machine
end
